-- ==== Sys2Proof/Word.lean ====
section
/-! DEFINITION. The word types of the machine (01 R20, R26, R30). -/

namespace Sys2Proof

/-- One byte. -/
abbrev Byte := BitVec 8

/-- One 32-bit register word. -/
abbrev Word := BitVec 32

/-- One 64-bit pair, address or program counter. -/
abbrev DWord := BitVec 64

/-- One 128-bit quad. -/
abbrev QWord := BitVec 128

/-- A set of lanes of one group: bit j stands for lane j. -/
abbrev LaneMask := BitVec 64

end Sys2Proof
end

