-- ==== Sys2Proof/Syntax.lean ====
section
/-! DEFINITION. The instruction set as syntax: one constructor per row of the opcode table (02 R56 to R69), the
device events first and the instruction words after them. Register fields are 7-bit encodings (R26), tile fields 4-bit
tile numbers (R22); every other field has the width its row of the table gives it. The constructors named `ev...` are the
events of the table, which no word encodes; their arguments say what the event names (DESIGN CHOICE log 6). -/

namespace Sys2Proof

/-- A register encoding of 01 R26. -/
abbrev Reg := BitVec 7

/-- A tile number, t0 to t15 (R22). -/
abbrev Tile := BitVec 4

/-- What a home slice is asked to do when SLICE_ACCESS happens on its own account (18 R392 to R402, 22 R461). -/
inductive SliceReq where
  | evict (pa : Nat)                 -- the L2 words of the 64-byte line of `pa` leave the slice, dirty ones to memory
  | recall (pa : Nat)                -- the directory evicts the line of `pa` from every cache (18 R401)
  | fill (ctx va : Nat)              -- the line of `va` is brought into its home slice
  | combine (ctx va : Nat)           -- the pending update-only copies of the word at `va` are combined (17 R385)
  | activate (stack ch pc bank row : Nat)  -- the controller activates a row, which its tracker counts (22 R461)
  deriving DecidableEq, Repr

/-- The instructions and events. -/
inductive Instr where
  | evLoadLanding (k : Nat) (lanes : LaneMask)
  | evSleepExpiry (team : Nat) (grp : Nat) (lane : Nat)
  | evAcpPartLanding (k : Nat) (n : Nat)
  | evSliceAccess (r : SliceReq)
  | evL1Eviction (core : Nat) (asid : Nat) (va : Nat)
  | evAlbFill (core : Nat) (ctx : Nat) (va : Nat)
  | evPageWalk (ctx : Nat) (va : Nat)
  | evFaultRecordWrite (ctx : Nat)
  | evFaultReplyResume (ctx : Nat) (src : Nat) (seq : Nat) (consumed : Nat)
  | evFaultReplyDeliver (ctx : Nat) (src : Nat) (seq : Nat) (consumed : Nat)
  | evFaultReplyExit (ctx : Nat) (src : Nat) (seq : Nat) (consumed : Nat)
  | evFaultReplyAck (ctx : Nat) (consumed : Nat)
  | evHolLaunch (ctx : Nat) (packet : List Byte) (args : List Byte)
  | evInputQueuePop (handle : Nat)
  | evPlaceTeam
  | evTeamEnd (team : Nat)
  | evLaunchComplete (handle : Nat)
  | evWaitSwapTimeout (team : Nat)
  | evTeamSave (team : Nat)
  | evPriorityAgeing (team : Nat)
  | evTeamRestore (team : Nat)
  | evWatchdogExpiry (ctx : Nat)
  | evContinue (ctx : Nat)
  | evKill (ctx : Nat)
  | evBankDrain (core : Nat)
  | evBankRelocation (core : Nat)
  | evShrinkQuiesce (core : Nat)
  | evPoolCommit (core : Nat)
  | evTlatchPerform (team : Nat)
  | evMmaComplete (team : Nat)
  | evMseqStep (team : Nat)
  | evCpyExecution (k : Nat)
  | evBinExecution (k : Nat)
  | evMigrationPage (k : Nat)
  | evCallStart (k : Nat)
  | evCallCompletion (k : Nat)
  | evCallBudgetExpiry (k : Nat)
  | evChannelComputeResume (stack : Nat) (pair : Nat)
  | evWalkRecord (stack : Nat)
  | evFredInMemory (k : Nat)
  | evLinkReadRequest (peer : Nat) (pa : Nat) (n : Nat)
  | evLinkWriteRequest (peer : Nat) (pa : Nat) (data : List Byte) (enables : List Bool)
  | evLinkAtomicRequest (peer : Nat) (pa : Nat) (op : Nat) (wide : Bool) (x : BitVec 64) (c : BitVec 64)
  | evLinkRefusedRequest (peer : Nat)
  | evLinkCompletion (k : Nat) (data : List Byte) (refused : Bool)
  | evReductionPacket (peer : Nat) (off : Nat) (data : List Byte)
  | evExchangeClose (i : Nat)
  | evExchangeOptimise (i : Nat)
  | evExchangeBroadcast (i : Nat)
  | evExchangeErrorPath (i : Nat)
  | evDescriptorValidate (i : Nat)
  | evExchangeTableBase (optimiser : Bool) (base : Nat) (ctx : Nat)
  | evDeviceReset
  | evImageWrite (kind : Nat) (image : List Byte)
  | evImageCheck
  | evStackMapWrite (granule : Nat) (entry : BitVec 16)
  | evLivenessWrite (stack : Nat) (mib : Nat) (live : Bool)
  | evFirmwareStart
  | evBootTrainingTimeout
  | evTrainstRead (stack : Nat) (ch : Nat)
  | evBootReady
  | evPatctlWrite (stack : Nat) (ch : Nat) (v : Word)
  | evPatternTestDone (stack : Nat) (ch : Nat)
  | evRxdlyWrite (stack : Nat) (ch : Nat) (slot : Nat) (v : Word)
  | evTxdlyWrite (stack : Nat) (ch : Nat) (slot : Nat) (v : Word)
  | evLanemapWrite (stack : Nat) (ch : Nat) (g : Nat) (v : Word)
  | evTrainstWrite (stack : Nat) (ch : Nat) (v : Word)
  | evLgcfgWrite (stack : Nat) (ch : Nat) (v : Word)
  | evLaneTurnaroundDone (stack : Nat) (ch : Nat)
  | evCounterClear (stack : Nat) (ch : Nat) (which : Nat)
  | evCapctlWrite (stack : Nat) (v : Word)
  | evEvptrWrite (stack : Nat) (v : Word)
  | evRegisterWrite (pa : Nat) (v : Word)
  | evCaptureWindowEnd (stack : Nat)
  | evDramAlert (stack : Nat) (ch : Nat) (pc : Nat) (bank : Nat) (row : Nat) (sequencer : Bool)
  | evRefreshInterval (stack : Nat)
  | evRegionFillDone (stack : Nat) (mib : Nat)
  | evHostRead (pa : Nat) (n : Nat)
  | evHostWrite (pa : Nat) (data : List Byte)
  | evReadData (k : Nat) (data : List Byte)
  | evWriteAck (k : Nat)
  | evHolUnknownMessage
  | evHolLinkDown
  | evHolLinkUp
  | evContextCreate (ctx : Nat) (asid : Nat) (fqBase : Nat) (fqCap : Nat) (saveBase : Nat) (saveSize : Nat)
  | evQueueCreate (ctx : Nat) (id : Nat) (depth : Nat)
  | evQueueDestroy (id : Nat)
  | evAttestationRequest (nonce : List Byte)
  | evIdentityRead
  | evSecurityCounterRaise (version : Nat)
  | evOccupancyRead (core : Nat)
  | evPowerSample (part : Nat) (high : Bool)
  | evThermalThrottle
  | evThermalTrip
  | evHolBadCrc
  | evCoreReenable (core : Nat)
  | ill
  | nop
  | mov (d : Reg) (a : Reg)
  | sel (d : Reg) (a : Reg) (b : Reg)
  | mset (d : Reg) (a : Reg)
  | mget (d : Reg)
  | exit
  | wbase (a : Reg)
  | winq (d : Reg)
  | tagq (d : Reg) (a : Reg)
  | rdy (d : Reg) (a : Reg)
  | clock (d : Reg)
  | rngr (d : Reg)
  | rngw (a : Reg)
  | fxclr (d : Reg) (a : Reg)
  | gcw (d : Reg) (a : Reg)
  | add (d : Reg) (a : Reg) (b : Reg)
  | sub (d : Reg) (a : Reg) (b : Reg)
  | mul (d : Reg) (a : Reg) (b : Reg)
  | mulhI32 (d : Reg) (a : Reg) (b : Reg)
  | mulhN32 (d : Reg) (a : Reg) (b : Reg)
  | and (d : Reg) (a : Reg) (b : Reg)
  | or (d : Reg) (a : Reg) (b : Reg)
  | xor (d : Reg) (a : Reg) (b : Reg)
  | andn (d : Reg) (a : Reg) (b : Reg)
  | orn (d : Reg) (a : Reg) (b : Reg)
  | sll (d : Reg) (a : Reg) (b : Reg)
  | srl (d : Reg) (a : Reg) (b : Reg)
  | sra (d : Reg) (a : Reg) (b : Reg)
  | rol (d : Reg) (a : Reg) (b : Reg)
  | minI32 (d : Reg) (a : Reg) (b : Reg)
  | maxI32 (d : Reg) (a : Reg) (b : Reg)
  | minN32 (d : Reg) (a : Reg) (b : Reg)
  | maxN32 (d : Reg) (a : Reg) (b : Reg)
  | addsI32 (d : Reg) (a : Reg) (b : Reg)
  | subsI32 (d : Reg) (a : Reg) (b : Reg)
  | divI32 (d : Reg) (a : Reg) (b : Reg)
  | divN32 (d : Reg) (a : Reg) (b : Reg)
  | remI32 (d : Reg) (a : Reg) (b : Reg)
  | remN32 (d : Reg) (a : Reg) (b : Reg)
  | ceq (d : Reg) (a : Reg) (b : Reg)
  | cne (d : Reg) (a : Reg) (b : Reg)
  | cltI32 (d : Reg) (a : Reg) (b : Reg)
  | cleI32 (d : Reg) (a : Reg) (b : Reg)
  | cltN32 (d : Reg) (a : Reg) (b : Reg)
  | cleN32 (d : Reg) (a : Reg) (b : Reg)
  | addi (d : Reg) (a : Reg) (imm : BitVec 12)
  | andi (d : Reg) (a : Reg) (imm : BitVec 12)
  | ori (d : Reg) (a : Reg) (imm : BitVec 12)
  | xori (d : Reg) (a : Reg) (imm : BitVec 12)
  | slli (d : Reg) (a : Reg) (n : BitVec 5)
  | srli (d : Reg) (a : Reg) (n : BitVec 5)
  | srai (d : Reg) (a : Reg) (n : BitVec 5)
  | roli (d : Reg) (a : Reg) (n : BitVec 5)
  | ceqi (d : Reg) (a : Reg) (imm : BitVec 9)
  | cnei (d : Reg) (a : Reg) (imm : BitVec 9)
  | cltiI32 (d : Reg) (a : Reg) (imm : BitVec 9)
  | cleiI32 (d : Reg) (a : Reg) (imm : BitVec 9)
  | cgtiI32 (d : Reg) (a : Reg) (imm : BitVec 9)
  | cltiN32 (d : Reg) (a : Reg) (imm : BitVec 9)
  | cleiN32 (d : Reg) (a : Reg) (imm : BitVec 9)
  | cgtiN32 (d : Reg) (a : Reg) (imm : BitVec 9)
  | lui (d : Reg) (imm : BitVec 19)
  | auipc (d : Reg) (imm : BitVec 19)
  | bfx (d : Reg) (a : Reg) (pos : BitVec 5) (len : BitVec 5)
  | bfxs (d : Reg) (a : Reg) (pos : BitVec 5) (len : BitVec 5)
  | bfi (d : Reg) (a : Reg) (pos : BitVec 5) (len : BitVec 5)
  | add64 (d : Reg) (a : Reg) (b : Reg)
  | sub64 (d : Reg) (a : Reg) (b : Reg)
  | mul64 (d : Reg) (a : Reg) (b : Reg)
  | mulwI32 (d : Reg) (a : Reg) (b : Reg)
  | mulwN32 (d : Reg) (a : Reg) (b : Reg)
  | madwN32 (d : Reg) (a : Reg) (b : Reg)
  | addwI32 (d : Reg) (a : Reg) (b : Reg)
  | addwN32 (d : Reg) (a : Reg) (b : Reg)
  | sll64 (d : Reg) (a : Reg) (b : Reg)
  | srl64 (d : Reg) (a : Reg) (b : Reg)
  | sra64 (d : Reg) (a : Reg) (b : Reg)
  | ceq64 (d : Reg) (a : Reg) (b : Reg)
  | clt64I64 (d : Reg) (a : Reg) (b : Reg)
  | clt64N64 (d : Reg) (a : Reg) (b : Reg)
  | min64N64 (d : Reg) (a : Reg) (b : Reg)
  | max64N64 (d : Reg) (a : Reg) (b : Reg)
  | ballot (d : Reg) (a : Reg)
  | vany (d : Reg) (a : Reg)
  | vall (d : Reg) (a : Reg)
  | rfl (d : Reg) (a : Reg)
  | shfl (d : Reg) (a : Reg) (b : Reg)
  | shflu (d : Reg) (a : Reg) (b : Reg)
  | shfld (d : Reg) (a : Reg) (b : Reg)
  | shflx (d : Reg) (a : Reg) (b : Reg)
  | active (d : Reg)
  | elect (d : Reg)
  | scanadd (d : Reg) (a : Reg)
  | radd (d : Reg) (a : Reg)
  | rminI32 (d : Reg) (a : Reg)
  | rmaxI32 (d : Reg) (a : Reg)
  | rmaxN32 (d : Reg) (a : Reg)
  | lmasklt (d : Reg)
  | clz (d : Reg) (a : Reg)
  | ctz (d : Reg) (a : Reg)
  | popc (d : Reg) (a : Reg)
  | brev (d : Reg) (a : Reg)
  | bswap (d : Reg) (a : Reg)
  | sext8 (d : Reg) (a : Reg)
  | sext16 (d : Reg) (a : Reg)
  | abs (d : Reg) (a : Reg)
  | neg (d : Reg) (a : Reg)
  | not (d : Reg) (a : Reg)
  | bz (a : Reg) (imm : BitVec 19)
  | bnz (a : Reg) (imm : BitVec 19)
  | jal (d : Reg) (imm : BitVec 19)
  | jr (d : Reg) (a : Reg)
  | meet (d : Reg) (imm : BitVec 19)
  | cmov (d : Reg) (a : Reg)
  | cnarrow (d : Reg) (a : Reg) (b : Reg)
  | cperm (d : Reg) (a : Reg) (b : Reg)
  | cget (d : Reg) (a : Reg) (sel : BitVec 2)
  | ctag (d : Reg) (a : Reg)
  | cclr (d : Reg)
  | cmint (d : Reg) (a : Reg)
  | faddD (rm : BitVec 3) (d : Reg) (a : Reg) (b : Reg)
  | fsubD (rm : BitVec 3) (d : Reg) (a : Reg) (b : Reg)
  | fmulD (rm : BitVec 3) (d : Reg) (a : Reg) (b : Reg)
  | fdivD (rm : BitVec 3) (d : Reg) (a : Reg) (b : Reg)
  | faddS (rm : BitVec 3) (d : Reg) (a : Reg) (b : Reg)
  | fsubS (rm : BitVec 3) (d : Reg) (a : Reg) (b : Reg)
  | fmulS (rm : BitVec 3) (d : Reg) (a : Reg) (b : Reg)
  | fdivS (rm : BitVec 3) (d : Reg) (a : Reg) (b : Reg)
  | faddH (rm : BitVec 3) (d : Reg) (a : Reg) (b : Reg)
  | fsubH (rm : BitVec 3) (d : Reg) (a : Reg) (b : Reg)
  | fmulH (rm : BitVec 3) (d : Reg) (a : Reg) (b : Reg)
  | fdivH (rm : BitVec 3) (d : Reg) (a : Reg) (b : Reg)
  | faddB (rm : BitVec 3) (d : Reg) (a : Reg) (b : Reg)
  | fsubB (rm : BitVec 3) (d : Reg) (a : Reg) (b : Reg)
  | fmulB (rm : BitVec 3) (d : Reg) (a : Reg) (b : Reg)
  | fdivB (rm : BitVec 3) (d : Reg) (a : Reg) (b : Reg)
  | fmacD (rm : BitVec 3) (d : Reg) (a : Reg) (b : Reg)
  | fmscD (rm : BitVec 3) (d : Reg) (a : Reg) (b : Reg)
  | fnmacD (rm : BitVec 3) (d : Reg) (a : Reg) (b : Reg)
  | fnmscD (rm : BitVec 3) (d : Reg) (a : Reg) (b : Reg)
  | fmacS (rm : BitVec 3) (d : Reg) (a : Reg) (b : Reg)
  | fmscS (rm : BitVec 3) (d : Reg) (a : Reg) (b : Reg)
  | fnmacS (rm : BitVec 3) (d : Reg) (a : Reg) (b : Reg)
  | fnmscS (rm : BitVec 3) (d : Reg) (a : Reg) (b : Reg)
  | fmacH (rm : BitVec 3) (d : Reg) (a : Reg) (b : Reg)
  | fmscH (rm : BitVec 3) (d : Reg) (a : Reg) (b : Reg)
  | fnmacH (rm : BitVec 3) (d : Reg) (a : Reg) (b : Reg)
  | fnmscH (rm : BitVec 3) (d : Reg) (a : Reg) (b : Reg)
  | fmacB (rm : BitVec 3) (d : Reg) (a : Reg) (b : Reg)
  | fmscB (rm : BitVec 3) (d : Reg) (a : Reg) (b : Reg)
  | fnmacB (rm : BitVec 3) (d : Reg) (a : Reg) (b : Reg)
  | fnmscB (rm : BitVec 3) (d : Reg) (a : Reg) (b : Reg)
  | fminD (d : Reg) (a : Reg) (b : Reg)
  | fmaxD (d : Reg) (a : Reg) (b : Reg)
  | fminnumD (d : Reg) (a : Reg) (b : Reg)
  | fmaxnumD (d : Reg) (a : Reg) (b : Reg)
  | fabsD (d : Reg) (a : Reg)
  | fnegD (d : Reg) (a : Reg)
  | fcpsgnD (d : Reg) (a : Reg) (b : Reg)
  | fclassD (d : Reg) (a : Reg)
  | fceqD (d : Reg) (a : Reg) (b : Reg)
  | fcltD (d : Reg) (a : Reg) (b : Reg)
  | fcleD (d : Reg) (a : Reg) (b : Reg)
  | fcunD (d : Reg) (a : Reg) (b : Reg)
  | fscalbD (d : Reg) (a : Reg) (b : Reg)
  | fminS (d : Reg) (a : Reg) (b : Reg)
  | fmaxS (d : Reg) (a : Reg) (b : Reg)
  | fminnumS (d : Reg) (a : Reg) (b : Reg)
  | fmaxnumS (d : Reg) (a : Reg) (b : Reg)
  | fabsS (d : Reg) (a : Reg)
  | fnegS (d : Reg) (a : Reg)
  | fcpsgnS (d : Reg) (a : Reg) (b : Reg)
  | fclassS (d : Reg) (a : Reg)
  | fceqS (d : Reg) (a : Reg) (b : Reg)
  | fcltS (d : Reg) (a : Reg) (b : Reg)
  | fcleS (d : Reg) (a : Reg) (b : Reg)
  | fcunS (d : Reg) (a : Reg) (b : Reg)
  | fscalbS (d : Reg) (a : Reg) (b : Reg)
  | fminH (d : Reg) (a : Reg) (b : Reg)
  | fmaxH (d : Reg) (a : Reg) (b : Reg)
  | fminnumH (d : Reg) (a : Reg) (b : Reg)
  | fmaxnumH (d : Reg) (a : Reg) (b : Reg)
  | fabsH (d : Reg) (a : Reg)
  | fnegH (d : Reg) (a : Reg)
  | fcpsgnH (d : Reg) (a : Reg) (b : Reg)
  | fclassH (d : Reg) (a : Reg)
  | fceqH (d : Reg) (a : Reg) (b : Reg)
  | fcltH (d : Reg) (a : Reg) (b : Reg)
  | fcleH (d : Reg) (a : Reg) (b : Reg)
  | fcunH (d : Reg) (a : Reg) (b : Reg)
  | fscalbH (d : Reg) (a : Reg) (b : Reg)
  | fminB (d : Reg) (a : Reg) (b : Reg)
  | fmaxB (d : Reg) (a : Reg) (b : Reg)
  | fminnumB (d : Reg) (a : Reg) (b : Reg)
  | fmaxnumB (d : Reg) (a : Reg) (b : Reg)
  | fabsB (d : Reg) (a : Reg)
  | fnegB (d : Reg) (a : Reg)
  | fcpsgnB (d : Reg) (a : Reg) (b : Reg)
  | fclassB (d : Reg) (a : Reg)
  | fceqB (d : Reg) (a : Reg) (b : Reg)
  | fcltB (d : Reg) (a : Reg) (b : Reg)
  | fcleB (d : Reg) (a : Reg) (b : Reg)
  | fcunB (d : Reg) (a : Reg) (b : Reg)
  | fscalbB (d : Reg) (a : Reg) (b : Reg)
  | fsqrtD (rm : BitVec 3) (d : Reg) (a : Reg)
  | frcpD (rm : BitVec 3) (d : Reg) (a : Reg)
  | frsqD (rm : BitVec 3) (d : Reg) (a : Reg)
  | frintD (rm : BitVec 3) (d : Reg) (a : Reg)
  | fsqrtS (rm : BitVec 3) (d : Reg) (a : Reg)
  | frcpS (rm : BitVec 3) (d : Reg) (a : Reg)
  | frsqS (rm : BitVec 3) (d : Reg) (a : Reg)
  | frintS (rm : BitVec 3) (d : Reg) (a : Reg)
  | fexp2D (rm : BitVec 3) (d : Reg) (a : Reg)
  | flog2D (rm : BitVec 3) (d : Reg) (a : Reg)
  | fsinpiD (rm : BitVec 3) (d : Reg) (a : Reg)
  | fcospiD (rm : BitVec 3) (d : Reg) (a : Reg)
  | fexp2S (rm : BitVec 3) (d : Reg) (a : Reg)
  | flog2S (rm : BitVec 3) (d : Reg) (a : Reg)
  | fsinpiS (rm : BitVec 3) (d : Reg) (a : Reg)
  | fcospiS (rm : BitVec 3) (d : Reg) (a : Reg)
  | fcvtSD (rm : BitVec 3) (sat : Bool) (d : Reg) (a : Reg)
  | fcvtDS (rm : BitVec 3) (d : Reg) (a : Reg)
  | fcvtSH (rm : BitVec 3) (hi : Bool) (d : Reg) (a : Reg)
  | fcvtSBf (rm : BitVec 3) (hi : Bool) (d : Reg) (a : Reg)
  | fcvtHS (rm : BitVec 3) (sat : Bool) (d : Reg) (a : Reg)
  | fcvtBS (rm : BitVec 3) (sat : Bool) (d : Reg) (a : Reg)
  | fcvtSE4m3 (rm : BitVec 3) (sel : BitVec 2) (d : Reg) (a : Reg)
  | fcvtSE5m2 (rm : BitVec 3) (sel : BitVec 2) (d : Reg) (a : Reg)
  | fcvtSDpt8 (rm : BitVec 3) (sel : BitVec 2) (d : Reg) (a : Reg)
  | fcvtSSpt4Low (rm : BitVec 3) (sel : BitVec 2) (d : Reg) (a : Reg)
  | fcvtSSpt4High (rm : BitVec 3) (sel : BitVec 2) (d : Reg) (a : Reg)
  | fcvtI32S (rm : BitVec 3) (sat : Bool) (d : Reg) (a : Reg)
  | fcvtN32S (rm : BitVec 3) (sat : Bool) (d : Reg) (a : Reg)
  | fcvtSI32 (rm : BitVec 3) (d : Reg) (a : Reg)
  | fcvtSN32 (rm : BitVec 3) (d : Reg) (a : Reg)
  | fcvtI32D (rm : BitVec 3) (sat : Bool) (d : Reg) (a : Reg)
  | fcvtN32D (rm : BitVec 3) (sat : Bool) (d : Reg) (a : Reg)
  | fcvtDI32 (rm : BitVec 3) (d : Reg) (a : Reg)
  | fcvtDN32 (rm : BitVec 3) (d : Reg) (a : Reg)
  | fcvtI64D (rm : BitVec 3) (sat : Bool) (d : Reg) (a : Reg)
  | fcvtN64D (rm : BitVec 3) (sat : Bool) (d : Reg) (a : Reg)
  | fcvtDI64 (rm : BitVec 3) (d : Reg) (a : Reg)
  | fcvtDN64 (rm : BitVec 3) (d : Reg) (a : Reg)
  | fpackH2 (rm : BitVec 3) (d : Reg) (a : Reg) (b : Reg)
  | fpackB2 (rm : BitVec 3) (d : Reg) (a : Reg) (b : Reg)
  | fpackE4m3 (rm : BitVec 3) (d : Reg) (a : Reg) (b : Reg)
  | fpackE5m2 (rm : BitVec 3) (d : Reg) (a : Reg) (b : Reg)
  | fdotH2 (rm : BitVec 3) (d : Reg) (a : Reg) (b : Reg)
  | fdotB2 (rm : BitVec 3) (d : Reg) (a : Reg) (b : Reg)
  | fdotE4m3 (rm : BitVec 3) (d : Reg) (a : Reg) (b : Reg)
  | fdotE5m2 (rm : BitVec 3) (d : Reg) (a : Reg) (b : Reg)
  | fqntDpt8 (rm : BitVec 3) (d : Reg) (a : Reg) (b : Reg)
  | fqntSpt4 (rm : BitVec 3) (d : Reg) (a : Reg) (b : Reg)
  | fqntScale (rm : BitVec 3) (d : Reg) (a : Reg)
  | ld (pol : BitVec 2) (w : BitVec 3) (d : Reg) (a : Reg) (b : Reg)
  | ldi (w : BitVec 3) (d : Reg) (a : Reg) (off : BitVec 9)
  | st (pol : BitVec 2) (w : BitVec 3) (d : Reg) (a : Reg) (b : Reg)
  | sti (w : BitVec 3) (d : Reg) (a : Reg) (off : BitVec 9)
  | scrLd (w : BitVec 3) (d : Reg) (a : Reg) (b : Reg)
  | scrSt (w : BitVec 3) (d : Reg) (a : Reg) (b : Reg)
  | acpG2s (size : BitVec 3) (d : Reg) (a : Reg) (b : Reg)
  | acpS2g (size : BitVec 3) (d : Reg) (a : Reg) (b : Reg)
  | atomAdd (d : Reg) (a : Reg) (b : Reg)
  | atomAnd (d : Reg) (a : Reg) (b : Reg)
  | atomOr (d : Reg) (a : Reg) (b : Reg)
  | atomXor (d : Reg) (a : Reg) (b : Reg)
  | atomMinI32 (d : Reg) (a : Reg) (b : Reg)
  | atomMaxI32 (d : Reg) (a : Reg) (b : Reg)
  | atomMinN32 (d : Reg) (a : Reg) (b : Reg)
  | atomMaxN32 (d : Reg) (a : Reg) (b : Reg)
  | atomXchg (d : Reg) (a : Reg) (b : Reg)
  | atomCas (d : Reg) (a : Reg) (b : Reg)
  | atomIncw (d : Reg) (a : Reg) (b : Reg)
  | atomDecw (d : Reg) (a : Reg) (b : Reg)
  | atomFaddS (d : Reg) (a : Reg) (b : Reg)
  | atomFminS (d : Reg) (a : Reg) (b : Reg)
  | atomFmaxS (d : Reg) (a : Reg) (b : Reg)
  | atomFaddH2 (d : Reg) (a : Reg) (b : Reg)
  | atomFaddB2 (d : Reg) (a : Reg) (b : Reg)
  | atom64Add (d : Reg) (a : Reg) (b : Reg)
  | atom64And (d : Reg) (a : Reg) (b : Reg)
  | atom64Or (d : Reg) (a : Reg) (b : Reg)
  | atom64Xor (d : Reg) (a : Reg) (b : Reg)
  | atom64MinI64 (d : Reg) (a : Reg) (b : Reg)
  | atom64MaxI64 (d : Reg) (a : Reg) (b : Reg)
  | atom64MinN64 (d : Reg) (a : Reg) (b : Reg)
  | atom64MaxN64 (d : Reg) (a : Reg) (b : Reg)
  | atom64Xchg (d : Reg) (a : Reg) (b : Reg)
  | atom64Cas (d : Reg) (a : Reg) (b : Reg)
  | atom64Incw (d : Reg) (a : Reg) (b : Reg)
  | atom64Decw (d : Reg) (a : Reg) (b : Reg)
  | atom64FaddD (d : Reg) (a : Reg) (b : Reg)
  | atom64FminD (d : Reg) (a : Reg) (b : Reg)
  | atom64FmaxD (d : Reg) (a : Reg) (b : Reg)
  | redAdd (a : Reg) (b : Reg)
  | redAnd (a : Reg) (b : Reg)
  | redOr (a : Reg) (b : Reg)
  | redXor (a : Reg) (b : Reg)
  | redMinI32 (a : Reg) (b : Reg)
  | redMaxI32 (a : Reg) (b : Reg)
  | redMinN32 (a : Reg) (b : Reg)
  | redMaxN32 (a : Reg) (b : Reg)
  | redFaddS (a : Reg) (b : Reg)
  | redFminS (a : Reg) (b : Reg)
  | redFmaxS (a : Reg) (b : Reg)
  | redFaddH2 (a : Reg) (b : Reg)
  | redFaddB2 (a : Reg) (b : Reg)
  | redAdd64 (a : Reg) (b : Reg)
  | redFaddD (a : Reg) (b : Reg)
  | binit (d : Reg) (a : Reg) (b : Reg)
  | arrive (d : Reg) (a : Reg) (b : Reg)
  | arriveb (d : Reg) (a : Reg) (b : Reg)
  | expect (a : Reg) (b : Reg)
  | bwait (d : Reg) (a : Reg) (b : Reg)
  | btest (d : Reg) (a : Reg) (b : Reg)
  | gsync
  | tsync
  | ringa (d : Reg) (id : BitVec 3)
  | ringf (d : Reg) (a : Reg) (id : BitVec 3)
  | ringw (d : Reg) (id : BitVec 3)
  | ringe (d : Reg) (a : Reg) (id : BitVec 3)
  | fenceAcq (scope : BitVec 2)
  | fenceRel (scope : BitVec 2)
  | fenceAr (scope : BitVec 2)
  | fenceSc (scope : BitVec 2)
  | fenceAcqDevPromote
  | tbegin (d : Reg) (a : Reg)
  | tend
  | tabort (b : Reg)
  | tstat (d : Reg)
  | cwb (a : Reg) (b : Reg)
  | cinv (a : Reg) (b : Reg)
  | cwbi (a : Reg) (b : Reg)
  | iinv (a : Reg) (b : Reg)
  | fetchb
  | pref (a : Reg) (b : Reg)
  | acqr (d : Reg) (a : Reg) (b : Reg)
  | relr (d : Reg) (a : Reg)
  | qryr (d : Reg) (a : Reg)
  | givr (d : Reg) (a : Reg) (b : Reg)
  | poolGrow (role : BitVec 2) (d : Reg) (a : Reg) (b : Reg)
  | poolShrink (role : BitVec 2) (d : Reg) (a : Reg) (b : Reg)
  | poolQuery (role : BitVec 2) (d : Reg)
  | poolMap (d : Reg) (a : Reg)
  | poolStat (d : Reg)
  | tshape (d : Tile) (a : Reg) (b : Reg)
  | tld (d : Tile) (a : Reg) (b : Reg)
  | tldt (d : Tile) (a : Reg) (b : Reg)
  | tst (d : Tile) (a : Reg) (b : Reg)
  | tzero (d : Tile)
  | trdr (d : Reg) (a : Tile) (b : Reg)
  | twrr (d : Tile) (a : Reg) (b : Reg)
  | tlatch (d : Tile)
  | tlsf (d : Reg) (a : Tile) (b : Reg)
  | mfence
  | mwait (b : Reg)
  | mseq (d : Reg) (a : Reg)
  | mcw (d : Reg) (a : Reg)
  | mcrd (d : Reg) (k : BitVec 3)
  | tmov (d : Tile) (a : Tile)
  | mmaWin (lat : Bool) (acc : BitVec 2) (d : Tile) (a : Tile) (b : Tile)
  | mmaSeq (lat : Bool) (acc : BitVec 2) (d : Tile) (a : Tile) (b : Tile)
  | engCpy (d : Reg) (a : Reg)
  | engBin (d : Reg) (a : Reg)
  | engMig (d : Reg) (a : Reg)
  | ewait (b : Reg)
  | estat (d : Reg) (a : Reg)
  | nmcall (d : Reg) (a : Reg) (b : Reg)
  | nmret (a : Reg)
  | nmwalk (d : Reg) (a : Reg) (b : Reg)
  | fred (op : BitVec 7) (a : Reg) (b : Reg)
  | qpush (d : Reg) (a : Reg) (b : Reg)
  | qpop (d : Reg) (a : Reg) (b : Reg)
  | qfree (d : Reg) (a : Reg)
  | launch (d : Reg) (a : Reg)
  | lrel (d : Reg) (a : Reg)
  | lpatch (d : Reg) (a : Reg) (b : Reg)
  | waitw (cond : BitVec 2) (a : Reg) (b : Reg)
  | yield
  | sleep (a : Reg)
  | waitx (a : Reg) (b : Reg)
  | rdsr (d : Reg) (n : BitVec 7)
  | wrsr (a : Reg) (n : BitVec 7)
  | tlbinv (a : Reg) (b : Reg)
  | vpurge (a : Reg) (b : Reg)
  | attrchg (d : Reg) (a : Reg) (b : Reg)
  | tret
  | haltc
  | trap (code : BitVec 19)
  | brk
  deriving DecidableEq, Repr

end Sys2Proof
end

