-- ==== Sys2Proof/WellFormed.lean ====
section
/-! DEFINITION. Well-formedness of instruction words: the operand rules of 01 R22, R24, R30, R46, R47 and the field rules of
02 R59 to R69. A word whose fields break one of them is not an instruction (R24). Events are always well formed. -/

namespace Sys2Proof

/-- A single-register operand: any encoding but the reserved 125 and 126 (R26, R27). -/
def regOk (r : Reg) : Bool := r != 125 && r != 126

/-- A pair operand: an even v or c register, or z (R30). -/
def pairOk (r : Reg) : Bool := r == 127 || (decide (r.toNat < 112) && r.toNat % 2 == 0)

/-- A quad operand: a v or c register whose encoding is a multiple of 4, or z (R30). -/
def quadOk (r : Reg) : Bool := r == 127 || (decide (r.toNat < 112) && r.toNat % 4 == 0)

/-- The register operand of a memory width: a pair for D, a quad for Q, else one register (R47). -/
def widthOperandOk (w : BitVec 3) (r : Reg) : Bool :=
  if w == 5 then pairOk r else if w == 6 then quadOk r else regOk r

/-- Rounding codes 0 to 6 (R46). -/
def rmOk (rm : BitVec 3) : Bool := rm != 7

/-- FTR accepts codes 0 to 4 (R60). -/
def rmTrOk (rm : BitVec 3) : Bool := decide (rm.toNat ≤ 4)

/-- FQNT accepts RN, RZ and SR (R62). -/
def rmQuantOk (rm : BitVec 3) : Bool := rm == 0 || rm == 1 || rm == 5

/-- Load widths 0 to 6 (R47). -/
def loadWidthOk (w : BitVec 3) : Bool := w != 7

/-- Store widths 0, 2, 4, 5, 6 (R47). -/
def storeWidthOk (w : BitVec 3) : Bool := w != 7 && w != 1 && w != 3

/-- Copy sizes 0 to 5 (R66). -/
def copySizeOk (s : BitVec 3) : Bool := decide (s.toNat ≤ 5)

/-- Accumulation codes 0 to 2 (R69). -/
def accOk (c : BitVec 2) : Bool := c != 3

/-- The function codes RED accepts (R57), which FRED takes in its d field (R59). -/
def redCodeOk (c : BitVec 7) : Bool :=
  decide (c.toNat ≤ 7) || (decide (12 ≤ c.toNat) && decide (c.toNat ≤ 16)) || c == 20 || c == 21

/-- The RED functions with a 64-bit operand: ADD64 and FADD.D (R177). -/
def redWide (c : BitVec 7) : Bool := c == 20 || c == 21

/-- The system-register numbers of R225. -/
def srOk (n : BitVec 7) : Bool := decide (n.toNat ≤ 9) || n == 0x10 || n == 0x20

/-- The system registers that WRSR may name: CTXID only in firmware, where a write has no effect (R225, 21 R484). -/
def srWritable (n : BitVec 7) : Bool := decide (n.toNat ≤ 9)

/-- Well-formed instructions (R24). -/
def wellFormed : Instr → Bool
  | .ill => true
  | .nop => true
  | .mov d a => regOk d && regOk a
  | .sel d a b => regOk d && regOk a && regOk b
  | .mset d a => pairOk d && pairOk a
  | .mget d => pairOk d
  | .exit => true
  | .wbase a => regOk a
  | .winq d => regOk d
  | .tagq d a => regOk d && regOk a
  | .rdy d a => regOk d && regOk a
  | .clock d => pairOk d
  | .rngr d => regOk d
  | .rngw a => regOk a
  | .fxclr d a => regOk d && regOk a
  | .gcw d a => regOk d && regOk a
  | .add d a b => regOk d && regOk a && regOk b
  | .sub d a b => regOk d && regOk a && regOk b
  | .mul d a b => regOk d && regOk a && regOk b
  | .mulhI32 d a b => regOk d && regOk a && regOk b
  | .mulhN32 d a b => regOk d && regOk a && regOk b
  | .and d a b => regOk d && regOk a && regOk b
  | .or d a b => regOk d && regOk a && regOk b
  | .xor d a b => regOk d && regOk a && regOk b
  | .andn d a b => regOk d && regOk a && regOk b
  | .orn d a b => regOk d && regOk a && regOk b
  | .sll d a b => regOk d && regOk a && regOk b
  | .srl d a b => regOk d && regOk a && regOk b
  | .sra d a b => regOk d && regOk a && regOk b
  | .rol d a b => regOk d && regOk a && regOk b
  | .minI32 d a b => regOk d && regOk a && regOk b
  | .maxI32 d a b => regOk d && regOk a && regOk b
  | .minN32 d a b => regOk d && regOk a && regOk b
  | .maxN32 d a b => regOk d && regOk a && regOk b
  | .addsI32 d a b => regOk d && regOk a && regOk b
  | .subsI32 d a b => regOk d && regOk a && regOk b
  | .divI32 d a b => regOk d && regOk a && regOk b
  | .divN32 d a b => regOk d && regOk a && regOk b
  | .remI32 d a b => regOk d && regOk a && regOk b
  | .remN32 d a b => regOk d && regOk a && regOk b
  | .ceq d a b => regOk d && regOk a && regOk b
  | .cne d a b => regOk d && regOk a && regOk b
  | .cltI32 d a b => regOk d && regOk a && regOk b
  | .cleI32 d a b => regOk d && regOk a && regOk b
  | .cltN32 d a b => regOk d && regOk a && regOk b
  | .cleN32 d a b => regOk d && regOk a && regOk b
  | .addi d a _ => regOk d && regOk a
  | .andi d a _ => regOk d && regOk a
  | .ori d a _ => regOk d && regOk a
  | .xori d a _ => regOk d && regOk a
  | .slli d a _ => regOk d && regOk a
  | .srli d a _ => regOk d && regOk a
  | .srai d a _ => regOk d && regOk a
  | .roli d a _ => regOk d && regOk a
  | .ceqi d a _ => regOk d && regOk a
  | .cnei d a _ => regOk d && regOk a
  | .cltiI32 d a _ => regOk d && regOk a
  | .cleiI32 d a _ => regOk d && regOk a
  | .cgtiI32 d a _ => regOk d && regOk a
  | .cltiN32 d a _ => regOk d && regOk a
  | .cleiN32 d a _ => regOk d && regOk a
  | .cgtiN32 d a _ => regOk d && regOk a
  | .lui d _ => regOk d
  | .auipc d _ => pairOk d
  | .bfx d a _ _ => regOk d && regOk a
  | .bfxs d a _ _ => regOk d && regOk a
  | .bfi d a _ _ => regOk d && regOk a
  | .add64 d a b => pairOk d && pairOk a && pairOk b
  | .sub64 d a b => pairOk d && pairOk a && pairOk b
  | .mul64 d a b => pairOk d && pairOk a && pairOk b
  | .mulwI32 d a b => pairOk d && regOk a && regOk b
  | .mulwN32 d a b => pairOk d && regOk a && regOk b
  | .madwN32 d a b => pairOk d && regOk a && regOk b
  | .addwI32 d a b => pairOk d && pairOk a && regOk b
  | .addwN32 d a b => pairOk d && pairOk a && regOk b
  | .sll64 d a b => pairOk d && pairOk a && regOk b
  | .srl64 d a b => pairOk d && pairOk a && regOk b
  | .sra64 d a b => pairOk d && pairOk a && regOk b
  | .ceq64 d a b => regOk d && pairOk a && pairOk b
  | .clt64I64 d a b => regOk d && pairOk a && pairOk b
  | .clt64N64 d a b => regOk d && pairOk a && pairOk b
  | .min64N64 d a b => pairOk d && pairOk a && pairOk b
  | .max64N64 d a b => pairOk d && pairOk a && pairOk b
  | .ballot d a => pairOk d && regOk a
  | .vany d a => regOk d && regOk a
  | .vall d a => regOk d && regOk a
  | .rfl d a => regOk d && regOk a
  | .shfl d a b => regOk d && regOk a && regOk b
  | .shflu d a b => regOk d && regOk a && regOk b
  | .shfld d a b => regOk d && regOk a && regOk b
  | .shflx d a b => regOk d && regOk a && regOk b
  | .active d => pairOk d
  | .elect d => regOk d
  | .scanadd d a => regOk d && regOk a
  | .radd d a => regOk d && regOk a
  | .rminI32 d a => regOk d && regOk a
  | .rmaxI32 d a => regOk d && regOk a
  | .rmaxN32 d a => regOk d && regOk a
  | .lmasklt d => pairOk d
  | .clz d a => regOk d && regOk a
  | .ctz d a => regOk d && regOk a
  | .popc d a => regOk d && regOk a
  | .brev d a => regOk d && regOk a
  | .bswap d a => regOk d && regOk a
  | .sext8 d a => regOk d && regOk a
  | .sext16 d a => regOk d && regOk a
  | .abs d a => regOk d && regOk a
  | .neg d a => regOk d && regOk a
  | .not d a => regOk d && regOk a
  | .bz a _ => regOk a
  | .bnz a _ => regOk a
  | .jal d _ => pairOk d
  | .jr d a => pairOk d && pairOk a
  | .meet d _ => pairOk d
  | .cmov d a => quadOk d && quadOk a
  | .cnarrow d a b => quadOk d && quadOk a && quadOk b
  | .cperm d a b => quadOk d && quadOk a && regOk b
  | .cget d a sel => (if sel.toNat < 2 then pairOk d else regOk d) && quadOk a
  | .ctag d a => regOk d && quadOk a
  | .cclr d => quadOk d
  | .cmint d a => quadOk d && quadOk a
  | .faddD rm d a b => rmOk rm && pairOk d && pairOk a && pairOk b
  | .fsubD rm d a b => rmOk rm && pairOk d && pairOk a && pairOk b
  | .fmulD rm d a b => rmOk rm && pairOk d && pairOk a && pairOk b
  | .fdivD rm d a b => rmOk rm && pairOk d && pairOk a && pairOk b
  | .faddS rm d a b => rmOk rm && regOk d && regOk a && regOk b
  | .fsubS rm d a b => rmOk rm && regOk d && regOk a && regOk b
  | .fmulS rm d a b => rmOk rm && regOk d && regOk a && regOk b
  | .fdivS rm d a b => rmOk rm && regOk d && regOk a && regOk b
  | .faddH rm d a b => rmOk rm && regOk d && regOk a && regOk b
  | .fsubH rm d a b => rmOk rm && regOk d && regOk a && regOk b
  | .fmulH rm d a b => rmOk rm && regOk d && regOk a && regOk b
  | .fdivH rm d a b => rmOk rm && regOk d && regOk a && regOk b
  | .faddB rm d a b => rmOk rm && regOk d && regOk a && regOk b
  | .fsubB rm d a b => rmOk rm && regOk d && regOk a && regOk b
  | .fmulB rm d a b => rmOk rm && regOk d && regOk a && regOk b
  | .fdivB rm d a b => rmOk rm && regOk d && regOk a && regOk b
  | .fmacD rm d a b => rmOk rm && pairOk d && pairOk a && pairOk b
  | .fmscD rm d a b => rmOk rm && pairOk d && pairOk a && pairOk b
  | .fnmacD rm d a b => rmOk rm && pairOk d && pairOk a && pairOk b
  | .fnmscD rm d a b => rmOk rm && pairOk d && pairOk a && pairOk b
  | .fmacS rm d a b => rmOk rm && regOk d && regOk a && regOk b
  | .fmscS rm d a b => rmOk rm && regOk d && regOk a && regOk b
  | .fnmacS rm d a b => rmOk rm && regOk d && regOk a && regOk b
  | .fnmscS rm d a b => rmOk rm && regOk d && regOk a && regOk b
  | .fmacH rm d a b => rmOk rm && regOk d && regOk a && regOk b
  | .fmscH rm d a b => rmOk rm && regOk d && regOk a && regOk b
  | .fnmacH rm d a b => rmOk rm && regOk d && regOk a && regOk b
  | .fnmscH rm d a b => rmOk rm && regOk d && regOk a && regOk b
  | .fmacB rm d a b => rmOk rm && regOk d && regOk a && regOk b
  | .fmscB rm d a b => rmOk rm && regOk d && regOk a && regOk b
  | .fnmacB rm d a b => rmOk rm && regOk d && regOk a && regOk b
  | .fnmscB rm d a b => rmOk rm && regOk d && regOk a && regOk b
  | .fminD d a b => pairOk d && pairOk a && pairOk b
  | .fmaxD d a b => pairOk d && pairOk a && pairOk b
  | .fminnumD d a b => pairOk d && pairOk a && pairOk b
  | .fmaxnumD d a b => pairOk d && pairOk a && pairOk b
  | .fabsD d a => pairOk d && pairOk a
  | .fnegD d a => pairOk d && pairOk a
  | .fcpsgnD d a b => pairOk d && pairOk a && pairOk b
  | .fclassD d a => regOk d && pairOk a
  | .fceqD d a b => regOk d && pairOk a && pairOk b
  | .fcltD d a b => regOk d && pairOk a && pairOk b
  | .fcleD d a b => regOk d && pairOk a && pairOk b
  | .fcunD d a b => regOk d && pairOk a && pairOk b
  | .fscalbD d a b => pairOk d && pairOk a && regOk b
  | .fminS d a b => regOk d && regOk a && regOk b
  | .fmaxS d a b => regOk d && regOk a && regOk b
  | .fminnumS d a b => regOk d && regOk a && regOk b
  | .fmaxnumS d a b => regOk d && regOk a && regOk b
  | .fabsS d a => regOk d && regOk a
  | .fnegS d a => regOk d && regOk a
  | .fcpsgnS d a b => regOk d && regOk a && regOk b
  | .fclassS d a => regOk d && regOk a
  | .fceqS d a b => regOk d && regOk a && regOk b
  | .fcltS d a b => regOk d && regOk a && regOk b
  | .fcleS d a b => regOk d && regOk a && regOk b
  | .fcunS d a b => regOk d && regOk a && regOk b
  | .fscalbS d a b => regOk d && regOk a && regOk b
  | .fminH d a b => regOk d && regOk a && regOk b
  | .fmaxH d a b => regOk d && regOk a && regOk b
  | .fminnumH d a b => regOk d && regOk a && regOk b
  | .fmaxnumH d a b => regOk d && regOk a && regOk b
  | .fabsH d a => regOk d && regOk a
  | .fnegH d a => regOk d && regOk a
  | .fcpsgnH d a b => regOk d && regOk a && regOk b
  | .fclassH d a => regOk d && regOk a
  | .fceqH d a b => regOk d && regOk a && regOk b
  | .fcltH d a b => regOk d && regOk a && regOk b
  | .fcleH d a b => regOk d && regOk a && regOk b
  | .fcunH d a b => regOk d && regOk a && regOk b
  | .fscalbH d a b => regOk d && regOk a && regOk b
  | .fminB d a b => regOk d && regOk a && regOk b
  | .fmaxB d a b => regOk d && regOk a && regOk b
  | .fminnumB d a b => regOk d && regOk a && regOk b
  | .fmaxnumB d a b => regOk d && regOk a && regOk b
  | .fabsB d a => regOk d && regOk a
  | .fnegB d a => regOk d && regOk a
  | .fcpsgnB d a b => regOk d && regOk a && regOk b
  | .fclassB d a => regOk d && regOk a
  | .fceqB d a b => regOk d && regOk a && regOk b
  | .fcltB d a b => regOk d && regOk a && regOk b
  | .fcleB d a b => regOk d && regOk a && regOk b
  | .fcunB d a b => regOk d && regOk a && regOk b
  | .fscalbB d a b => regOk d && regOk a && regOk b
  | .fsqrtD rm d a => rmOk rm && pairOk d && pairOk a
  | .frcpD rm d a => rmOk rm && pairOk d && pairOk a
  | .frsqD rm d a => rmOk rm && pairOk d && pairOk a
  | .frintD rm d a => rmOk rm && pairOk d && pairOk a
  | .fsqrtS rm d a => rmOk rm && regOk d && regOk a
  | .frcpS rm d a => rmOk rm && regOk d && regOk a
  | .frsqS rm d a => rmOk rm && regOk d && regOk a
  | .frintS rm d a => rmOk rm && regOk d && regOk a
  | .fexp2D rm d a => rmTrOk rm && pairOk d && pairOk a
  | .flog2D rm d a => rmTrOk rm && pairOk d && pairOk a
  | .fsinpiD rm d a => rmTrOk rm && pairOk d && pairOk a
  | .fcospiD rm d a => rmTrOk rm && pairOk d && pairOk a
  | .fexp2S rm d a => rmTrOk rm && regOk d && regOk a
  | .flog2S rm d a => rmTrOk rm && regOk d && regOk a
  | .fsinpiS rm d a => rmTrOk rm && regOk d && regOk a
  | .fcospiS rm d a => rmTrOk rm && regOk d && regOk a
  | .fcvtSD rm _ d a => rmOk rm && regOk d && pairOk a
  | .fcvtDS rm d a => rmOk rm && pairOk d && regOk a
  | .fcvtSH rm _ d a => rmOk rm && regOk d && regOk a
  | .fcvtSBf rm _ d a => rmOk rm && regOk d && regOk a
  | .fcvtHS rm _ d a => rmOk rm && regOk d && regOk a
  | .fcvtBS rm _ d a => rmOk rm && regOk d && regOk a
  | .fcvtSE4m3 rm _ d a => rmOk rm && regOk d && regOk a
  | .fcvtSE5m2 rm _ d a => rmOk rm && regOk d && regOk a
  | .fcvtSDpt8 rm _ d a => rmOk rm && regOk d && regOk a
  | .fcvtSSpt4Low rm _ d a => rmOk rm && regOk d && regOk a
  | .fcvtSSpt4High rm _ d a => rmOk rm && regOk d && regOk a
  | .fcvtI32S rm _ d a => rmOk rm && regOk d && regOk a
  | .fcvtN32S rm _ d a => rmOk rm && regOk d && regOk a
  | .fcvtSI32 rm d a => rmOk rm && regOk d && regOk a
  | .fcvtSN32 rm d a => rmOk rm && regOk d && regOk a
  | .fcvtI32D rm _ d a => rmOk rm && regOk d && pairOk a
  | .fcvtN32D rm _ d a => rmOk rm && regOk d && pairOk a
  | .fcvtDI32 rm d a => rmOk rm && pairOk d && regOk a
  | .fcvtDN32 rm d a => rmOk rm && pairOk d && regOk a
  | .fcvtI64D rm _ d a => rmOk rm && pairOk d && pairOk a
  | .fcvtN64D rm _ d a => rmOk rm && pairOk d && pairOk a
  | .fcvtDI64 rm d a => rmOk rm && pairOk d && pairOk a
  | .fcvtDN64 rm d a => rmOk rm && pairOk d && pairOk a
  | .fpackH2 rm d a b => rmOk rm && regOk d && regOk a && regOk b
  | .fpackB2 rm d a b => rmOk rm && regOk d && regOk a && regOk b
  | .fpackE4m3 rm d a b => rmOk rm && regOk d && regOk a && regOk b
  | .fpackE5m2 rm d a b => rmOk rm && regOk d && regOk a && regOk b
  | .fdotH2 rm d a b => rmOk rm && regOk d && regOk a && regOk b
  | .fdotB2 rm d a b => rmOk rm && regOk d && regOk a && regOk b
  | .fdotE4m3 rm d a b => rmOk rm && regOk d && regOk a && regOk b
  | .fdotE5m2 rm d a b => rmOk rm && regOk d && regOk a && regOk b
  | .fqntDpt8 rm d a b => rmQuantOk rm && regOk d && regOk a && regOk b
  | .fqntSpt4 rm d a b => rmQuantOk rm && regOk d && regOk a && regOk b
  | .fqntScale rm d a => rmQuantOk rm && regOk d && regOk a
  | .ld _ w d a b => loadWidthOk w && widthOperandOk w d && pairOk a && regOk b
  | .ldi w d a _ => loadWidthOk w && widthOperandOk w d && pairOk a
  | .st _ w d a b => storeWidthOk w && widthOperandOk w d && pairOk a && regOk b
  | .sti w d a _ => storeWidthOk w && widthOperandOk w d && pairOk a
  | .scrLd w d a b => loadWidthOk w && widthOperandOk w d && regOk a && regOk b
  | .scrSt w d a b => storeWidthOk w && widthOperandOk w d && regOk a && regOk b
  | .acpG2s size d a b => copySizeOk size && regOk d && pairOk a && pairOk b
  | .acpS2g size d a b => copySizeOk size && regOk d && pairOk a && pairOk b
  | .atomAdd d a b => regOk d && pairOk a && regOk b
  | .atomAnd d a b => regOk d && pairOk a && regOk b
  | .atomOr d a b => regOk d && pairOk a && regOk b
  | .atomXor d a b => regOk d && pairOk a && regOk b
  | .atomMinI32 d a b => regOk d && pairOk a && regOk b
  | .atomMaxI32 d a b => regOk d && pairOk a && regOk b
  | .atomMinN32 d a b => regOk d && pairOk a && regOk b
  | .atomMaxN32 d a b => regOk d && pairOk a && regOk b
  | .atomXchg d a b => regOk d && pairOk a && regOk b
  | .atomCas d a b => regOk d && pairOk a && regOk b
  | .atomIncw d a b => regOk d && pairOk a && regOk b
  | .atomDecw d a b => regOk d && pairOk a && regOk b
  | .atomFaddS d a b => regOk d && pairOk a && regOk b
  | .atomFminS d a b => regOk d && pairOk a && regOk b
  | .atomFmaxS d a b => regOk d && pairOk a && regOk b
  | .atomFaddH2 d a b => regOk d && pairOk a && regOk b
  | .atomFaddB2 d a b => regOk d && pairOk a && regOk b
  | .atom64Add d a b => pairOk d && pairOk a && pairOk b
  | .atom64And d a b => pairOk d && pairOk a && pairOk b
  | .atom64Or d a b => pairOk d && pairOk a && pairOk b
  | .atom64Xor d a b => pairOk d && pairOk a && pairOk b
  | .atom64MinI64 d a b => pairOk d && pairOk a && pairOk b
  | .atom64MaxI64 d a b => pairOk d && pairOk a && pairOk b
  | .atom64MinN64 d a b => pairOk d && pairOk a && pairOk b
  | .atom64MaxN64 d a b => pairOk d && pairOk a && pairOk b
  | .atom64Xchg d a b => pairOk d && pairOk a && pairOk b
  | .atom64Cas d a b => pairOk d && pairOk a && pairOk b
  | .atom64Incw d a b => pairOk d && pairOk a && pairOk b
  | .atom64Decw d a b => pairOk d && pairOk a && pairOk b
  | .atom64FaddD d a b => pairOk d && pairOk a && pairOk b
  | .atom64FminD d a b => pairOk d && pairOk a && pairOk b
  | .atom64FmaxD d a b => pairOk d && pairOk a && pairOk b
  | .redAdd a b => pairOk a && regOk b
  | .redAnd a b => pairOk a && regOk b
  | .redOr a b => pairOk a && regOk b
  | .redXor a b => pairOk a && regOk b
  | .redMinI32 a b => pairOk a && regOk b
  | .redMaxI32 a b => pairOk a && regOk b
  | .redMinN32 a b => pairOk a && regOk b
  | .redMaxN32 a b => pairOk a && regOk b
  | .redFaddS a b => pairOk a && regOk b
  | .redFminS a b => pairOk a && regOk b
  | .redFmaxS a b => pairOk a && regOk b
  | .redFaddH2 a b => pairOk a && regOk b
  | .redFaddB2 a b => pairOk a && regOk b
  | .redAdd64 a b => pairOk a && pairOk b
  | .redFaddD a b => pairOk a && pairOk b
  | .binit d a b => regOk d && pairOk a && regOk b
  | .arrive d a b => regOk d && pairOk a && regOk b
  | .arriveb d a b => regOk d && pairOk a && regOk b
  | .expect a b => pairOk a && regOk b
  | .bwait d a b => regOk d && pairOk a && regOk b
  | .btest d a b => regOk d && pairOk a && regOk b
  | .gsync => true
  | .tsync => true
  | .ringa d _ => regOk d
  | .ringf d a _ => regOk d && regOk a
  | .ringw d _ => regOk d
  | .ringe d a _ => regOk d && regOk a
  | .fenceAcq _ => true
  | .fenceRel _ => true
  | .fenceAr _ => true
  | .fenceSc _ => true
  | .fenceAcqDevPromote => true
  | .tbegin d a => regOk d && pairOk a
  | .tend => true
  | .tabort b => regOk b
  | .tstat d => regOk d
  | .cwb a b => pairOk a && regOk b
  | .cinv a b => pairOk a && regOk b
  | .cwbi a b => pairOk a && regOk b
  | .iinv a b => pairOk a && regOk b
  | .fetchb => true
  | .pref a b => pairOk a && regOk b
  | .acqr d a b => regOk d && pairOk a && regOk b
  | .relr d a => regOk d && pairOk a
  | .qryr d a => regOk d && pairOk a
  | .givr d a b => regOk d && pairOk a && regOk b
  | .poolGrow _ d a b => regOk d && regOk a && regOk b
  | .poolShrink _ d a b => regOk d && regOk a && regOk b
  | .poolQuery _ d => regOk d
  | .poolMap d a => quadOk d && regOk a
  | .poolStat d => quadOk d
  | .tshape _ a b => regOk a && regOk b
  | .tld _ a b => regOk a && regOk b
  | .tldt _ a b => regOk a && regOk b
  | .tst _ a b => regOk a && regOk b
  | .tzero _ => true
  | .trdr d _ b => regOk d && regOk b
  | .twrr _ a b => regOk a && regOk b
  | .tlatch _ => true
  | .tlsf d _ b => pairOk d && regOk b
  | .mfence => true
  | .mwait b => regOk b
  | .mseq d a => regOk d && regOk a
  | .mcw d a => regOk d && regOk a
  | .mcrd d k => regOk d && decide (k.toNat ≤ 4)
  | .tmov _ _ => true
  | .mmaWin lat acc _ _ b => accOk acc && (!lat || b == 0)
  | .mmaSeq lat acc _ _ b => accOk acc && (!lat || b == 0)
  | .engCpy d a => regOk d && regOk a
  | .engBin d a => regOk d && regOk a
  | .engMig d a => regOk d && regOk a
  | .ewait b => regOk b
  | .estat d a => regOk d && regOk a
  | .nmcall d a b => regOk d && regOk a && pairOk b
  | .nmret a => regOk a
  | .nmwalk d a b => regOk d && regOk a && pairOk b
  | .fred op a b => redCodeOk op && pairOk a && (if redWide op then pairOk b else regOk b)
  | .qpush d a b => regOk d && regOk a && regOk b
  | .qpop d a b => regOk d && regOk a && regOk b
  | .qfree d a => regOk d && regOk a
  | .launch d a => regOk d && regOk a
  | .lrel d a => regOk d && regOk a
  | .lpatch d a b => regOk d && regOk a && regOk b
  | .waitw _ a b => pairOk a && regOk b
  | .yield => true
  | .sleep a => regOk a
  | .waitx a b => pairOk a && regOk b
  | .rdsr d n => pairOk d && srOk n
  | .wrsr a n => pairOk a && srWritable n
  | .tlbinv a b => pairOk a && regOk b
  | .vpurge a b => pairOk a && regOk b
  | .attrchg d a b => regOk d && pairOk a && regOk b
  | .tret => true
  | .haltc => true
  | .trap code => decide (code ≠ 0)
  | .brk => true
  | .evLoadLanding _ _ => true
  | .evSleepExpiry _ _ _ => true
  | .evAcpPartLanding _ _ => true
  | .evSliceAccess _ => true
  | .evL1Eviction _ _ _ => true
  | .evAlbFill _ _ _ => true
  | .evPageWalk _ _ => true
  | .evFaultRecordWrite _ => true
  | .evFaultReplyResume _ _ _ _ => true
  | .evFaultReplyDeliver _ _ _ _ => true
  | .evFaultReplyExit _ _ _ _ => true
  | .evFaultReplyAck _ _ => true
  | .evHolLaunch _ _ _ => true
  | .evInputQueuePop _ => true
  | .evPlaceTeam => true
  | .evTeamEnd _ => true
  | .evLaunchComplete _ => true
  | .evWaitSwapTimeout _ => true
  | .evTeamSave _ => true
  | .evPriorityAgeing _ => true
  | .evTeamRestore _ => true
  | .evWatchdogExpiry _ => true
  | .evContinue _ => true
  | .evKill _ => true
  | .evBankDrain _ => true
  | .evBankRelocation _ => true
  | .evShrinkQuiesce _ => true
  | .evPoolCommit _ => true
  | .evTlatchPerform _ => true
  | .evMmaComplete _ => true
  | .evMseqStep _ => true
  | .evCpyExecution _ => true
  | .evBinExecution _ => true
  | .evMigrationPage _ => true
  | .evCallStart _ => true
  | .evCallCompletion _ => true
  | .evCallBudgetExpiry _ => true
  | .evChannelComputeResume _ _ => true
  | .evWalkRecord _ => true
  | .evFredInMemory _ => true
  | .evLinkReadRequest _ _ _ => true
  | .evLinkWriteRequest _ _ _ _ => true
  | .evLinkAtomicRequest _ _ _ _ _ _ => true
  | .evLinkRefusedRequest _ => true
  | .evLinkCompletion _ _ _ => true
  | .evReductionPacket _ _ _ => true
  | .evExchangeClose _ => true
  | .evExchangeOptimise _ => true
  | .evExchangeBroadcast _ => true
  | .evExchangeErrorPath _ => true
  | .evDescriptorValidate _ => true
  | .evExchangeTableBase _ _ _ => true
  | .evDeviceReset => true
  | .evImageWrite _ _ => true
  | .evImageCheck => true
  | .evStackMapWrite _ _ => true
  | .evLivenessWrite _ _ _ => true
  | .evFirmwareStart => true
  | .evBootTrainingTimeout => true
  | .evTrainstRead _ _ => true
  | .evBootReady => true
  | .evPatctlWrite _ _ _ => true
  | .evPatternTestDone _ _ => true
  | .evRxdlyWrite _ _ _ _ => true
  | .evTxdlyWrite _ _ _ _ => true
  | .evLanemapWrite _ _ _ _ => true
  | .evTrainstWrite _ _ _ => true
  | .evLgcfgWrite _ _ _ => true
  | .evLaneTurnaroundDone _ _ => true
  | .evCounterClear _ _ _ => true
  | .evCapctlWrite _ _ => true
  | .evEvptrWrite _ _ => true
  | .evRegisterWrite _ _ => true
  | .evCaptureWindowEnd _ => true
  | .evDramAlert _ _ _ _ _ _ => true
  | .evRefreshInterval _ => true
  | .evRegionFillDone _ _ => true
  | .evHostRead _ _ => true
  | .evHostWrite _ _ => true
  | .evReadData _ _ => true
  | .evWriteAck _ => true
  | .evHolUnknownMessage => true
  | .evHolLinkDown => true
  | .evHolLinkUp => true
  | .evContextCreate _ _ _ _ _ _ => true
  | .evQueueCreate _ _ _ => true
  | .evQueueDestroy _ => true
  | .evAttestationRequest _ => true
  | .evIdentityRead => true
  | .evSecurityCounterRaise _ => true
  | .evOccupancyRead _ => true
  | .evPowerSample _ _ => true
  | .evThermalThrottle => true
  | .evThermalTrip => true
  | .evHolBadCrc => true
  | .evCoreReenable _ => true

end Sys2Proof
end

