-- ==== Sys2Proof/Decode.lean ====
section
/-! DEFINITION. Decoding of 32-bit words (01 R20, R21; 02 R56 to R69) and the encoder written from the same tables. A word is
read as a natural number: a field is a quotient and a remainder by powers of two. `decodeWord` is total; it answers none
for a word that is not an instruction (R24). Lean cannot compile a value of an inductive type with more than 244
constructors that carry data, so what builds an Instr is marked noncomputable; the kernel evaluates it all the same. -/

namespace Sys2Proof

/-- The `n`-bit field of `w` whose lowest bit is `lo` (R21). -/
def fieldOf (w lo n : Nat) : Nat := w / 2 ^ lo % 2 ^ n

/-- The same field as a bit vector. -/
def bitsOf (w lo n : Nat) : BitVec n := BitVec.ofNat n (fieldOf w lo n)

/-- Major 0x00. -/
noncomputable def decodeMajor00 (w : Nat) : Option Instr :=
  if fieldOf w 0 26 = 0 then some (.ill)
  else if fieldOf w 0 26 = 1 then some (.nop)
  else if fieldOf w 0 12 = 2 then some (.mov (bitsOf w 19 7) (bitsOf w 12 7))
  else if fieldOf w 0 5 = 3 then some (.sel (bitsOf w 19 7) (bitsOf w 12 7) (bitsOf w 5 7))
  else if fieldOf w 0 12 = 4 then some (.mset (bitsOf w 19 7) (bitsOf w 12 7))
  else if fieldOf w 0 19 = 5 then some (.mget (bitsOf w 19 7))
  else if fieldOf w 0 26 = 6 then some (.exit)
  else if fieldOf w 0 12 = 7 ∧ fieldOf w 19 7 = 0 then some (.wbase (bitsOf w 12 7))
  else if fieldOf w 0 19 = 8 then some (.winq (bitsOf w 19 7))
  else if fieldOf w 0 12 = 9 then some (.tagq (bitsOf w 19 7) (bitsOf w 12 7))
  else if fieldOf w 0 12 = 10 then some (.rdy (bitsOf w 19 7) (bitsOf w 12 7))
  else if fieldOf w 0 19 = 11 then some (.clock (bitsOf w 19 7))
  else if fieldOf w 0 19 = 12 then some (.rngr (bitsOf w 19 7))
  else if fieldOf w 0 12 = 13 ∧ fieldOf w 19 7 = 0 then some (.rngw (bitsOf w 12 7))
  else if fieldOf w 0 12 = 14 then some (.fxclr (bitsOf w 19 7) (bitsOf w 12 7))
  else if fieldOf w 0 12 = 15 then some (.gcw (bitsOf w 19 7) (bitsOf w 12 7))
  else none

/-- Major 0x01. -/
noncomputable def decodeMajor01 (w : Nat) : Option Instr :=
  if fieldOf w 0 5 = 0 then some (.add (bitsOf w 19 7) (bitsOf w 12 7) (bitsOf w 5 7))
  else if fieldOf w 0 5 = 1 then some (.sub (bitsOf w 19 7) (bitsOf w 12 7) (bitsOf w 5 7))
  else if fieldOf w 0 5 = 2 then some (.mul (bitsOf w 19 7) (bitsOf w 12 7) (bitsOf w 5 7))
  else if fieldOf w 0 5 = 3 then some (.mulhI32 (bitsOf w 19 7) (bitsOf w 12 7) (bitsOf w 5 7))
  else if fieldOf w 0 5 = 4 then some (.mulhN32 (bitsOf w 19 7) (bitsOf w 12 7) (bitsOf w 5 7))
  else if fieldOf w 0 5 = 5 then some (.and (bitsOf w 19 7) (bitsOf w 12 7) (bitsOf w 5 7))
  else if fieldOf w 0 5 = 6 then some (.or (bitsOf w 19 7) (bitsOf w 12 7) (bitsOf w 5 7))
  else if fieldOf w 0 5 = 7 then some (.xor (bitsOf w 19 7) (bitsOf w 12 7) (bitsOf w 5 7))
  else if fieldOf w 0 5 = 8 then some (.andn (bitsOf w 19 7) (bitsOf w 12 7) (bitsOf w 5 7))
  else if fieldOf w 0 5 = 9 then some (.orn (bitsOf w 19 7) (bitsOf w 12 7) (bitsOf w 5 7))
  else if fieldOf w 0 5 = 10 then some (.sll (bitsOf w 19 7) (bitsOf w 12 7) (bitsOf w 5 7))
  else if fieldOf w 0 5 = 11 then some (.srl (bitsOf w 19 7) (bitsOf w 12 7) (bitsOf w 5 7))
  else if fieldOf w 0 5 = 12 then some (.sra (bitsOf w 19 7) (bitsOf w 12 7) (bitsOf w 5 7))
  else if fieldOf w 0 5 = 13 then some (.rol (bitsOf w 19 7) (bitsOf w 12 7) (bitsOf w 5 7))
  else if fieldOf w 0 5 = 14 then some (.minI32 (bitsOf w 19 7) (bitsOf w 12 7) (bitsOf w 5 7))
  else if fieldOf w 0 5 = 15 then some (.maxI32 (bitsOf w 19 7) (bitsOf w 12 7) (bitsOf w 5 7))
  else if fieldOf w 0 5 = 16 then some (.minN32 (bitsOf w 19 7) (bitsOf w 12 7) (bitsOf w 5 7))
  else if fieldOf w 0 5 = 17 then some (.maxN32 (bitsOf w 19 7) (bitsOf w 12 7) (bitsOf w 5 7))
  else if fieldOf w 0 5 = 18 then some (.addsI32 (bitsOf w 19 7) (bitsOf w 12 7) (bitsOf w 5 7))
  else if fieldOf w 0 5 = 19 then some (.subsI32 (bitsOf w 19 7) (bitsOf w 12 7) (bitsOf w 5 7))
  else if fieldOf w 0 5 = 20 then some (.divI32 (bitsOf w 19 7) (bitsOf w 12 7) (bitsOf w 5 7))
  else if fieldOf w 0 5 = 21 then some (.divN32 (bitsOf w 19 7) (bitsOf w 12 7) (bitsOf w 5 7))
  else if fieldOf w 0 5 = 22 then some (.remI32 (bitsOf w 19 7) (bitsOf w 12 7) (bitsOf w 5 7))
  else if fieldOf w 0 5 = 23 then some (.remN32 (bitsOf w 19 7) (bitsOf w 12 7) (bitsOf w 5 7))
  else if fieldOf w 0 5 = 24 then some (.ceq (bitsOf w 19 7) (bitsOf w 12 7) (bitsOf w 5 7))
  else if fieldOf w 0 5 = 25 then some (.cne (bitsOf w 19 7) (bitsOf w 12 7) (bitsOf w 5 7))
  else if fieldOf w 0 5 = 26 then some (.cltI32 (bitsOf w 19 7) (bitsOf w 12 7) (bitsOf w 5 7))
  else if fieldOf w 0 5 = 27 then some (.cleI32 (bitsOf w 19 7) (bitsOf w 12 7) (bitsOf w 5 7))
  else if fieldOf w 0 5 = 28 then some (.cltN32 (bitsOf w 19 7) (bitsOf w 12 7) (bitsOf w 5 7))
  else if fieldOf w 0 5 = 29 then some (.cleN32 (bitsOf w 19 7) (bitsOf w 12 7) (bitsOf w 5 7))
  else none

/-- Major 0x02. -/
noncomputable def decodeMajor02 (w : Nat) : Option Instr :=
  some (.addi (bitsOf w 19 7) (bitsOf w 12 7) (bitsOf w 0 12))

/-- Major 0x03. -/
noncomputable def decodeMajor03 (w : Nat) : Option Instr :=
  some (.andi (bitsOf w 19 7) (bitsOf w 12 7) (bitsOf w 0 12))

/-- Major 0x04. -/
noncomputable def decodeMajor04 (w : Nat) : Option Instr :=
  some (.ori (bitsOf w 19 7) (bitsOf w 12 7) (bitsOf w 0 12))

/-- Major 0x05. -/
noncomputable def decodeMajor05 (w : Nat) : Option Instr :=
  some (.xori (bitsOf w 19 7) (bitsOf w 12 7) (bitsOf w 0 12))

/-- Major 0x06. -/
noncomputable def decodeMajor06 (w : Nat) : Option Instr :=
  if fieldOf w 5 7 = 0 then some (.slli (bitsOf w 19 7) (bitsOf w 12 7) (bitsOf w 0 5))
  else if fieldOf w 5 7 = 8 then some (.srli (bitsOf w 19 7) (bitsOf w 12 7) (bitsOf w 0 5))
  else if fieldOf w 5 7 = 16 then some (.srai (bitsOf w 19 7) (bitsOf w 12 7) (bitsOf w 0 5))
  else if fieldOf w 5 7 = 24 then some (.roli (bitsOf w 19 7) (bitsOf w 12 7) (bitsOf w 0 5))
  else none

/-- Major 0x07. -/
noncomputable def decodeMajor07 (w : Nat) : Option Instr :=
  if fieldOf w 9 3 = 0 then some (.ceqi (bitsOf w 19 7) (bitsOf w 12 7) (bitsOf w 0 9))
  else if fieldOf w 9 3 = 1 then some (.cnei (bitsOf w 19 7) (bitsOf w 12 7) (bitsOf w 0 9))
  else if fieldOf w 9 3 = 2 then some (.cltiI32 (bitsOf w 19 7) (bitsOf w 12 7) (bitsOf w 0 9))
  else if fieldOf w 9 3 = 3 then some (.cleiI32 (bitsOf w 19 7) (bitsOf w 12 7) (bitsOf w 0 9))
  else if fieldOf w 9 3 = 4 then some (.cgtiI32 (bitsOf w 19 7) (bitsOf w 12 7) (bitsOf w 0 9))
  else if fieldOf w 9 3 = 5 then some (.cltiN32 (bitsOf w 19 7) (bitsOf w 12 7) (bitsOf w 0 9))
  else if fieldOf w 9 3 = 6 then some (.cleiN32 (bitsOf w 19 7) (bitsOf w 12 7) (bitsOf w 0 9))
  else if fieldOf w 9 3 = 7 then some (.cgtiN32 (bitsOf w 19 7) (bitsOf w 12 7) (bitsOf w 0 9))
  else none

/-- Major 0x08. -/
noncomputable def decodeMajor08 (w : Nat) : Option Instr :=
  some (.lui (bitsOf w 19 7) (bitsOf w 0 19))

/-- Major 0x09. -/
noncomputable def decodeMajor09 (w : Nat) : Option Instr :=
  some (.auipc (bitsOf w 19 7) (bitsOf w 0 19))

/-- Major 0x0A. -/
noncomputable def decodeMajor0A (w : Nat) : Option Instr :=
  if fieldOf w 10 2 = 0 then some (.bfx (bitsOf w 19 7) (bitsOf w 12 7) (bitsOf w 5 5) (bitsOf w 0 5))
  else none

/-- Major 0x0B. -/
noncomputable def decodeMajor0B (w : Nat) : Option Instr :=
  if fieldOf w 10 2 = 0 then some (.bfxs (bitsOf w 19 7) (bitsOf w 12 7) (bitsOf w 5 5) (bitsOf w 0 5))
  else none

/-- Major 0x0C. -/
noncomputable def decodeMajor0C (w : Nat) : Option Instr :=
  if fieldOf w 10 2 = 0 then some (.bfi (bitsOf w 19 7) (bitsOf w 12 7) (bitsOf w 5 5) (bitsOf w 0 5))
  else none

/-- Major 0x0D. -/
noncomputable def decodeMajor0D (w : Nat) : Option Instr :=
  if fieldOf w 0 5 = 0 then some (.add64 (bitsOf w 19 7) (bitsOf w 12 7) (bitsOf w 5 7))
  else if fieldOf w 0 5 = 1 then some (.sub64 (bitsOf w 19 7) (bitsOf w 12 7) (bitsOf w 5 7))
  else if fieldOf w 0 5 = 2 then some (.mul64 (bitsOf w 19 7) (bitsOf w 12 7) (bitsOf w 5 7))
  else if fieldOf w 0 5 = 3 then some (.mulwI32 (bitsOf w 19 7) (bitsOf w 12 7) (bitsOf w 5 7))
  else if fieldOf w 0 5 = 4 then some (.mulwN32 (bitsOf w 19 7) (bitsOf w 12 7) (bitsOf w 5 7))
  else if fieldOf w 0 5 = 5 then some (.madwN32 (bitsOf w 19 7) (bitsOf w 12 7) (bitsOf w 5 7))
  else if fieldOf w 0 5 = 6 then some (.addwI32 (bitsOf w 19 7) (bitsOf w 12 7) (bitsOf w 5 7))
  else if fieldOf w 0 5 = 7 then some (.addwN32 (bitsOf w 19 7) (bitsOf w 12 7) (bitsOf w 5 7))
  else if fieldOf w 0 5 = 8 then some (.sll64 (bitsOf w 19 7) (bitsOf w 12 7) (bitsOf w 5 7))
  else if fieldOf w 0 5 = 9 then some (.srl64 (bitsOf w 19 7) (bitsOf w 12 7) (bitsOf w 5 7))
  else if fieldOf w 0 5 = 10 then some (.sra64 (bitsOf w 19 7) (bitsOf w 12 7) (bitsOf w 5 7))
  else if fieldOf w 0 5 = 11 then some (.ceq64 (bitsOf w 19 7) (bitsOf w 12 7) (bitsOf w 5 7))
  else if fieldOf w 0 5 = 12 then some (.clt64I64 (bitsOf w 19 7) (bitsOf w 12 7) (bitsOf w 5 7))
  else if fieldOf w 0 5 = 13 then some (.clt64N64 (bitsOf w 19 7) (bitsOf w 12 7) (bitsOf w 5 7))
  else if fieldOf w 0 5 = 14 then some (.min64N64 (bitsOf w 19 7) (bitsOf w 12 7) (bitsOf w 5 7))
  else if fieldOf w 0 5 = 15 then some (.max64N64 (bitsOf w 19 7) (bitsOf w 12 7) (bitsOf w 5 7))
  else none

/-- Major 0x0E. -/
noncomputable def decodeMajor0E (w : Nat) : Option Instr :=
  if fieldOf w 0 12 = 0 then some (.ballot (bitsOf w 19 7) (bitsOf w 12 7))
  else if fieldOf w 0 12 = 1 then some (.vany (bitsOf w 19 7) (bitsOf w 12 7))
  else if fieldOf w 0 12 = 2 then some (.vall (bitsOf w 19 7) (bitsOf w 12 7))
  else if fieldOf w 0 12 = 3 then some (.rfl (bitsOf w 19 7) (bitsOf w 12 7))
  else if fieldOf w 0 5 = 4 then some (.shfl (bitsOf w 19 7) (bitsOf w 12 7) (bitsOf w 5 7))
  else if fieldOf w 0 5 = 5 then some (.shflu (bitsOf w 19 7) (bitsOf w 12 7) (bitsOf w 5 7))
  else if fieldOf w 0 5 = 6 then some (.shfld (bitsOf w 19 7) (bitsOf w 12 7) (bitsOf w 5 7))
  else if fieldOf w 0 5 = 7 then some (.shflx (bitsOf w 19 7) (bitsOf w 12 7) (bitsOf w 5 7))
  else if fieldOf w 0 19 = 8 then some (.active (bitsOf w 19 7))
  else if fieldOf w 0 19 = 9 then some (.elect (bitsOf w 19 7))
  else if fieldOf w 0 12 = 10 then some (.scanadd (bitsOf w 19 7) (bitsOf w 12 7))
  else if fieldOf w 0 12 = 11 then some (.radd (bitsOf w 19 7) (bitsOf w 12 7))
  else if fieldOf w 0 12 = 12 then some (.rminI32 (bitsOf w 19 7) (bitsOf w 12 7))
  else if fieldOf w 0 12 = 13 then some (.rmaxI32 (bitsOf w 19 7) (bitsOf w 12 7))
  else if fieldOf w 0 12 = 14 then some (.rmaxN32 (bitsOf w 19 7) (bitsOf w 12 7))
  else if fieldOf w 0 19 = 15 then some (.lmasklt (bitsOf w 19 7))
  else none

/-- Major 0x0F. -/
noncomputable def decodeMajor0F (w : Nat) : Option Instr :=
  if fieldOf w 0 12 = 0 then some (.clz (bitsOf w 19 7) (bitsOf w 12 7))
  else if fieldOf w 0 12 = 1 then some (.ctz (bitsOf w 19 7) (bitsOf w 12 7))
  else if fieldOf w 0 12 = 2 then some (.popc (bitsOf w 19 7) (bitsOf w 12 7))
  else if fieldOf w 0 12 = 3 then some (.brev (bitsOf w 19 7) (bitsOf w 12 7))
  else if fieldOf w 0 12 = 4 then some (.bswap (bitsOf w 19 7) (bitsOf w 12 7))
  else if fieldOf w 0 12 = 5 then some (.sext8 (bitsOf w 19 7) (bitsOf w 12 7))
  else if fieldOf w 0 12 = 6 then some (.sext16 (bitsOf w 19 7) (bitsOf w 12 7))
  else if fieldOf w 0 12 = 7 then some (.abs (bitsOf w 19 7) (bitsOf w 12 7))
  else if fieldOf w 0 12 = 8 then some (.neg (bitsOf w 19 7) (bitsOf w 12 7))
  else if fieldOf w 0 12 = 9 then some (.not (bitsOf w 19 7) (bitsOf w 12 7))
  else none

/-- Major 0x10. -/
noncomputable def decodeMajor10 (w : Nat) : Option Instr :=
  some (.bz (bitsOf w 19 7) (bitsOf w 0 19))

/-- Major 0x11. -/
noncomputable def decodeMajor11 (w : Nat) : Option Instr :=
  some (.bnz (bitsOf w 19 7) (bitsOf w 0 19))

/-- Major 0x12. -/
noncomputable def decodeMajor12 (w : Nat) : Option Instr :=
  some (.jal (bitsOf w 19 7) (bitsOf w 0 19))

/-- Major 0x13. -/
noncomputable def decodeMajor13 (w : Nat) : Option Instr :=
  if fieldOf w 0 12 = 0 then some (.jr (bitsOf w 19 7) (bitsOf w 12 7))
  else none

/-- Major 0x14. -/
noncomputable def decodeMajor14 (w : Nat) : Option Instr :=
  some (.meet (bitsOf w 19 7) (bitsOf w 0 19))

/-- Major 0x15. -/
noncomputable def decodeMajor15 (w : Nat) : Option Instr :=
  if fieldOf w 0 12 = 0 then some (.cmov (bitsOf w 19 7) (bitsOf w 12 7))
  else if fieldOf w 0 5 = 1 then some (.cnarrow (bitsOf w 19 7) (bitsOf w 12 7) (bitsOf w 5 7))
  else if fieldOf w 0 5 = 2 then some (.cperm (bitsOf w 19 7) (bitsOf w 12 7) (bitsOf w 5 7))
  else if fieldOf w 0 5 = 3 ∧ fieldOf w 7 5 = 0 then some (.cget (bitsOf w 19 7) (bitsOf w 12 7) (bitsOf w 5 2))
  else if fieldOf w 0 12 = 4 then some (.ctag (bitsOf w 19 7) (bitsOf w 12 7))
  else if fieldOf w 0 19 = 5 then some (.cclr (bitsOf w 19 7))
  else if fieldOf w 0 12 = 6 then some (.cmint (bitsOf w 19 7) (bitsOf w 12 7))
  else none

/-- Major 0x16. -/
noncomputable def decodeMajor16 (w : Nat) : Option Instr :=
  if fieldOf w 0 2 = 0 then some (.faddD (bitsOf w 2 3) (bitsOf w 19 7) (bitsOf w 12 7) (bitsOf w 5 7))
  else if fieldOf w 0 2 = 1 then some (.fsubD (bitsOf w 2 3) (bitsOf w 19 7) (bitsOf w 12 7) (bitsOf w 5 7))
  else if fieldOf w 0 2 = 2 then some (.fmulD (bitsOf w 2 3) (bitsOf w 19 7) (bitsOf w 12 7) (bitsOf w 5 7))
  else if fieldOf w 0 2 = 3 then some (.fdivD (bitsOf w 2 3) (bitsOf w 19 7) (bitsOf w 12 7) (bitsOf w 5 7))
  else none

/-- Major 0x17. -/
noncomputable def decodeMajor17 (w : Nat) : Option Instr :=
  if fieldOf w 0 2 = 0 then some (.faddS (bitsOf w 2 3) (bitsOf w 19 7) (bitsOf w 12 7) (bitsOf w 5 7))
  else if fieldOf w 0 2 = 1 then some (.fsubS (bitsOf w 2 3) (bitsOf w 19 7) (bitsOf w 12 7) (bitsOf w 5 7))
  else if fieldOf w 0 2 = 2 then some (.fmulS (bitsOf w 2 3) (bitsOf w 19 7) (bitsOf w 12 7) (bitsOf w 5 7))
  else if fieldOf w 0 2 = 3 then some (.fdivS (bitsOf w 2 3) (bitsOf w 19 7) (bitsOf w 12 7) (bitsOf w 5 7))
  else none

/-- Major 0x18. -/
noncomputable def decodeMajor18 (w : Nat) : Option Instr :=
  if fieldOf w 0 2 = 0 then some (.faddH (bitsOf w 2 3) (bitsOf w 19 7) (bitsOf w 12 7) (bitsOf w 5 7))
  else if fieldOf w 0 2 = 1 then some (.fsubH (bitsOf w 2 3) (bitsOf w 19 7) (bitsOf w 12 7) (bitsOf w 5 7))
  else if fieldOf w 0 2 = 2 then some (.fmulH (bitsOf w 2 3) (bitsOf w 19 7) (bitsOf w 12 7) (bitsOf w 5 7))
  else if fieldOf w 0 2 = 3 then some (.fdivH (bitsOf w 2 3) (bitsOf w 19 7) (bitsOf w 12 7) (bitsOf w 5 7))
  else none

/-- Major 0x19. -/
noncomputable def decodeMajor19 (w : Nat) : Option Instr :=
  if fieldOf w 0 2 = 0 then some (.faddB (bitsOf w 2 3) (bitsOf w 19 7) (bitsOf w 12 7) (bitsOf w 5 7))
  else if fieldOf w 0 2 = 1 then some (.fsubB (bitsOf w 2 3) (bitsOf w 19 7) (bitsOf w 12 7) (bitsOf w 5 7))
  else if fieldOf w 0 2 = 2 then some (.fmulB (bitsOf w 2 3) (bitsOf w 19 7) (bitsOf w 12 7) (bitsOf w 5 7))
  else if fieldOf w 0 2 = 3 then some (.fdivB (bitsOf w 2 3) (bitsOf w 19 7) (bitsOf w 12 7) (bitsOf w 5 7))
  else none

/-- Major 0x1A. -/
noncomputable def decodeMajor1A (w : Nat) : Option Instr :=
  if fieldOf w 0 2 = 0 then some (.fmacD (bitsOf w 2 3) (bitsOf w 19 7) (bitsOf w 12 7) (bitsOf w 5 7))
  else if fieldOf w 0 2 = 1 then some (.fmscD (bitsOf w 2 3) (bitsOf w 19 7) (bitsOf w 12 7) (bitsOf w 5 7))
  else if fieldOf w 0 2 = 2 then some (.fnmacD (bitsOf w 2 3) (bitsOf w 19 7) (bitsOf w 12 7) (bitsOf w 5 7))
  else if fieldOf w 0 2 = 3 then some (.fnmscD (bitsOf w 2 3) (bitsOf w 19 7) (bitsOf w 12 7) (bitsOf w 5 7))
  else none

/-- Major 0x1B. -/
noncomputable def decodeMajor1B (w : Nat) : Option Instr :=
  if fieldOf w 0 2 = 0 then some (.fmacS (bitsOf w 2 3) (bitsOf w 19 7) (bitsOf w 12 7) (bitsOf w 5 7))
  else if fieldOf w 0 2 = 1 then some (.fmscS (bitsOf w 2 3) (bitsOf w 19 7) (bitsOf w 12 7) (bitsOf w 5 7))
  else if fieldOf w 0 2 = 2 then some (.fnmacS (bitsOf w 2 3) (bitsOf w 19 7) (bitsOf w 12 7) (bitsOf w 5 7))
  else if fieldOf w 0 2 = 3 then some (.fnmscS (bitsOf w 2 3) (bitsOf w 19 7) (bitsOf w 12 7) (bitsOf w 5 7))
  else none

/-- Major 0x1C. -/
noncomputable def decodeMajor1C (w : Nat) : Option Instr :=
  if fieldOf w 0 2 = 0 then some (.fmacH (bitsOf w 2 3) (bitsOf w 19 7) (bitsOf w 12 7) (bitsOf w 5 7))
  else if fieldOf w 0 2 = 1 then some (.fmscH (bitsOf w 2 3) (bitsOf w 19 7) (bitsOf w 12 7) (bitsOf w 5 7))
  else if fieldOf w 0 2 = 2 then some (.fnmacH (bitsOf w 2 3) (bitsOf w 19 7) (bitsOf w 12 7) (bitsOf w 5 7))
  else if fieldOf w 0 2 = 3 then some (.fnmscH (bitsOf w 2 3) (bitsOf w 19 7) (bitsOf w 12 7) (bitsOf w 5 7))
  else none

/-- Major 0x1D. -/
noncomputable def decodeMajor1D (w : Nat) : Option Instr :=
  if fieldOf w 0 2 = 0 then some (.fmacB (bitsOf w 2 3) (bitsOf w 19 7) (bitsOf w 12 7) (bitsOf w 5 7))
  else if fieldOf w 0 2 = 1 then some (.fmscB (bitsOf w 2 3) (bitsOf w 19 7) (bitsOf w 12 7) (bitsOf w 5 7))
  else if fieldOf w 0 2 = 2 then some (.fnmacB (bitsOf w 2 3) (bitsOf w 19 7) (bitsOf w 12 7) (bitsOf w 5 7))
  else if fieldOf w 0 2 = 3 then some (.fnmscB (bitsOf w 2 3) (bitsOf w 19 7) (bitsOf w 12 7) (bitsOf w 5 7))
  else none

/-- Major 0x1E. -/
noncomputable def decodeMajor1E (w : Nat) : Option Instr :=
  if fieldOf w 0 5 = 0 then some (.fminD (bitsOf w 19 7) (bitsOf w 12 7) (bitsOf w 5 7))
  else if fieldOf w 0 5 = 1 then some (.fmaxD (bitsOf w 19 7) (bitsOf w 12 7) (bitsOf w 5 7))
  else if fieldOf w 0 5 = 2 then some (.fminnumD (bitsOf w 19 7) (bitsOf w 12 7) (bitsOf w 5 7))
  else if fieldOf w 0 5 = 3 then some (.fmaxnumD (bitsOf w 19 7) (bitsOf w 12 7) (bitsOf w 5 7))
  else if fieldOf w 0 12 = 4 then some (.fabsD (bitsOf w 19 7) (bitsOf w 12 7))
  else if fieldOf w 0 12 = 5 then some (.fnegD (bitsOf w 19 7) (bitsOf w 12 7))
  else if fieldOf w 0 5 = 6 then some (.fcpsgnD (bitsOf w 19 7) (bitsOf w 12 7) (bitsOf w 5 7))
  else if fieldOf w 0 12 = 7 then some (.fclassD (bitsOf w 19 7) (bitsOf w 12 7))
  else if fieldOf w 0 5 = 8 then some (.fceqD (bitsOf w 19 7) (bitsOf w 12 7) (bitsOf w 5 7))
  else if fieldOf w 0 5 = 9 then some (.fcltD (bitsOf w 19 7) (bitsOf w 12 7) (bitsOf w 5 7))
  else if fieldOf w 0 5 = 10 then some (.fcleD (bitsOf w 19 7) (bitsOf w 12 7) (bitsOf w 5 7))
  else if fieldOf w 0 5 = 11 then some (.fcunD (bitsOf w 19 7) (bitsOf w 12 7) (bitsOf w 5 7))
  else if fieldOf w 0 5 = 12 then some (.fscalbD (bitsOf w 19 7) (bitsOf w 12 7) (bitsOf w 5 7))
  else none

/-- Major 0x1F. -/
noncomputable def decodeMajor1F (w : Nat) : Option Instr :=
  if fieldOf w 0 5 = 0 then some (.fminS (bitsOf w 19 7) (bitsOf w 12 7) (bitsOf w 5 7))
  else if fieldOf w 0 5 = 1 then some (.fmaxS (bitsOf w 19 7) (bitsOf w 12 7) (bitsOf w 5 7))
  else if fieldOf w 0 5 = 2 then some (.fminnumS (bitsOf w 19 7) (bitsOf w 12 7) (bitsOf w 5 7))
  else if fieldOf w 0 5 = 3 then some (.fmaxnumS (bitsOf w 19 7) (bitsOf w 12 7) (bitsOf w 5 7))
  else if fieldOf w 0 12 = 4 then some (.fabsS (bitsOf w 19 7) (bitsOf w 12 7))
  else if fieldOf w 0 12 = 5 then some (.fnegS (bitsOf w 19 7) (bitsOf w 12 7))
  else if fieldOf w 0 5 = 6 then some (.fcpsgnS (bitsOf w 19 7) (bitsOf w 12 7) (bitsOf w 5 7))
  else if fieldOf w 0 12 = 7 then some (.fclassS (bitsOf w 19 7) (bitsOf w 12 7))
  else if fieldOf w 0 5 = 8 then some (.fceqS (bitsOf w 19 7) (bitsOf w 12 7) (bitsOf w 5 7))
  else if fieldOf w 0 5 = 9 then some (.fcltS (bitsOf w 19 7) (bitsOf w 12 7) (bitsOf w 5 7))
  else if fieldOf w 0 5 = 10 then some (.fcleS (bitsOf w 19 7) (bitsOf w 12 7) (bitsOf w 5 7))
  else if fieldOf w 0 5 = 11 then some (.fcunS (bitsOf w 19 7) (bitsOf w 12 7) (bitsOf w 5 7))
  else if fieldOf w 0 5 = 12 then some (.fscalbS (bitsOf w 19 7) (bitsOf w 12 7) (bitsOf w 5 7))
  else none

/-- Major 0x20. -/
noncomputable def decodeMajor20 (w : Nat) : Option Instr :=
  if fieldOf w 0 5 = 0 then some (.fminH (bitsOf w 19 7) (bitsOf w 12 7) (bitsOf w 5 7))
  else if fieldOf w 0 5 = 1 then some (.fmaxH (bitsOf w 19 7) (bitsOf w 12 7) (bitsOf w 5 7))
  else if fieldOf w 0 5 = 2 then some (.fminnumH (bitsOf w 19 7) (bitsOf w 12 7) (bitsOf w 5 7))
  else if fieldOf w 0 5 = 3 then some (.fmaxnumH (bitsOf w 19 7) (bitsOf w 12 7) (bitsOf w 5 7))
  else if fieldOf w 0 12 = 4 then some (.fabsH (bitsOf w 19 7) (bitsOf w 12 7))
  else if fieldOf w 0 12 = 5 then some (.fnegH (bitsOf w 19 7) (bitsOf w 12 7))
  else if fieldOf w 0 5 = 6 then some (.fcpsgnH (bitsOf w 19 7) (bitsOf w 12 7) (bitsOf w 5 7))
  else if fieldOf w 0 12 = 7 then some (.fclassH (bitsOf w 19 7) (bitsOf w 12 7))
  else if fieldOf w 0 5 = 8 then some (.fceqH (bitsOf w 19 7) (bitsOf w 12 7) (bitsOf w 5 7))
  else if fieldOf w 0 5 = 9 then some (.fcltH (bitsOf w 19 7) (bitsOf w 12 7) (bitsOf w 5 7))
  else if fieldOf w 0 5 = 10 then some (.fcleH (bitsOf w 19 7) (bitsOf w 12 7) (bitsOf w 5 7))
  else if fieldOf w 0 5 = 11 then some (.fcunH (bitsOf w 19 7) (bitsOf w 12 7) (bitsOf w 5 7))
  else if fieldOf w 0 5 = 12 then some (.fscalbH (bitsOf w 19 7) (bitsOf w 12 7) (bitsOf w 5 7))
  else if fieldOf w 0 5 = 16 then some (.fminB (bitsOf w 19 7) (bitsOf w 12 7) (bitsOf w 5 7))
  else if fieldOf w 0 5 = 17 then some (.fmaxB (bitsOf w 19 7) (bitsOf w 12 7) (bitsOf w 5 7))
  else if fieldOf w 0 5 = 18 then some (.fminnumB (bitsOf w 19 7) (bitsOf w 12 7) (bitsOf w 5 7))
  else if fieldOf w 0 5 = 19 then some (.fmaxnumB (bitsOf w 19 7) (bitsOf w 12 7) (bitsOf w 5 7))
  else if fieldOf w 0 12 = 20 then some (.fabsB (bitsOf w 19 7) (bitsOf w 12 7))
  else if fieldOf w 0 12 = 21 then some (.fnegB (bitsOf w 19 7) (bitsOf w 12 7))
  else if fieldOf w 0 5 = 22 then some (.fcpsgnB (bitsOf w 19 7) (bitsOf w 12 7) (bitsOf w 5 7))
  else if fieldOf w 0 12 = 23 then some (.fclassB (bitsOf w 19 7) (bitsOf w 12 7))
  else if fieldOf w 0 5 = 24 then some (.fceqB (bitsOf w 19 7) (bitsOf w 12 7) (bitsOf w 5 7))
  else if fieldOf w 0 5 = 25 then some (.fcltB (bitsOf w 19 7) (bitsOf w 12 7) (bitsOf w 5 7))
  else if fieldOf w 0 5 = 26 then some (.fcleB (bitsOf w 19 7) (bitsOf w 12 7) (bitsOf w 5 7))
  else if fieldOf w 0 5 = 27 then some (.fcunB (bitsOf w 19 7) (bitsOf w 12 7) (bitsOf w 5 7))
  else if fieldOf w 0 5 = 28 then some (.fscalbB (bitsOf w 19 7) (bitsOf w 12 7) (bitsOf w 5 7))
  else none

/-- Major 0x21. -/
noncomputable def decodeMajor21 (w : Nat) : Option Instr :=
  if fieldOf w 0 2 = 0 ∧ fieldOf w 5 7 = 0 then some (.fsqrtD (bitsOf w 2 3) (bitsOf w 19 7) (bitsOf w 12 7))
  else if fieldOf w 0 2 = 1 ∧ fieldOf w 5 7 = 0 then some (.frcpD (bitsOf w 2 3) (bitsOf w 19 7) (bitsOf w 12 7))
  else if fieldOf w 0 2 = 2 ∧ fieldOf w 5 7 = 0 then some (.frsqD (bitsOf w 2 3) (bitsOf w 19 7) (bitsOf w 12 7))
  else if fieldOf w 0 2 = 3 ∧ fieldOf w 5 7 = 0 then some (.frintD (bitsOf w 2 3) (bitsOf w 19 7) (bitsOf w 12 7))
  else none

/-- Major 0x22. -/
noncomputable def decodeMajor22 (w : Nat) : Option Instr :=
  if fieldOf w 0 2 = 0 ∧ fieldOf w 5 7 = 0 then some (.fsqrtS (bitsOf w 2 3) (bitsOf w 19 7) (bitsOf w 12 7))
  else if fieldOf w 0 2 = 1 ∧ fieldOf w 5 7 = 0 then some (.frcpS (bitsOf w 2 3) (bitsOf w 19 7) (bitsOf w 12 7))
  else if fieldOf w 0 2 = 2 ∧ fieldOf w 5 7 = 0 then some (.frsqS (bitsOf w 2 3) (bitsOf w 19 7) (bitsOf w 12 7))
  else if fieldOf w 0 2 = 3 ∧ fieldOf w 5 7 = 0 then some (.frintS (bitsOf w 2 3) (bitsOf w 19 7) (bitsOf w 12 7))
  else none

/-- Major 0x23. -/
noncomputable def decodeMajor23 (w : Nat) : Option Instr :=
  if fieldOf w 0 2 = 0 ∧ fieldOf w 5 7 = 0 then some (.fexp2D (bitsOf w 2 3) (bitsOf w 19 7) (bitsOf w 12 7))
  else if fieldOf w 0 2 = 1 ∧ fieldOf w 5 7 = 0 then some (.flog2D (bitsOf w 2 3) (bitsOf w 19 7) (bitsOf w 12 7))
  else if fieldOf w 0 2 = 2 ∧ fieldOf w 5 7 = 0 then some (.fsinpiD (bitsOf w 2 3) (bitsOf w 19 7) (bitsOf w 12 7))
  else if fieldOf w 0 2 = 3 ∧ fieldOf w 5 7 = 0 then some (.fcospiD (bitsOf w 2 3) (bitsOf w 19 7) (bitsOf w 12 7))
  else none

/-- Major 0x24. -/
noncomputable def decodeMajor24 (w : Nat) : Option Instr :=
  if fieldOf w 0 2 = 0 ∧ fieldOf w 5 7 = 0 then some (.fexp2S (bitsOf w 2 3) (bitsOf w 19 7) (bitsOf w 12 7))
  else if fieldOf w 0 2 = 1 ∧ fieldOf w 5 7 = 0 then some (.flog2S (bitsOf w 2 3) (bitsOf w 19 7) (bitsOf w 12 7))
  else if fieldOf w 0 2 = 2 ∧ fieldOf w 5 7 = 0 then some (.fsinpiS (bitsOf w 2 3) (bitsOf w 19 7) (bitsOf w 12 7))
  else if fieldOf w 0 2 = 3 ∧ fieldOf w 5 7 = 0 then some (.fcospiS (bitsOf w 2 3) (bitsOf w 19 7) (bitsOf w 12 7))
  else none

/-- Major 0x25. -/
noncomputable def decodeMajor25 (w : Nat) : Option Instr :=
  if fieldOf w 0 1 = 0 ∧ fieldOf w 5 7 = 0 then some (.fcvtSD (bitsOf w 2 3) (fieldOf w 1 1 == 1) (bitsOf w 19 7) (bitsOf w 12 7))
  else if fieldOf w 0 2 = 0 ∧ fieldOf w 5 7 = 1 then some (.fcvtDS (bitsOf w 2 3) (bitsOf w 19 7) (bitsOf w 12 7))
  else if fieldOf w 0 2 = 0 ∧ fieldOf w 6 6 = 1 then some (.fcvtSH (bitsOf w 2 3) (fieldOf w 5 1 == 1) (bitsOf w 19 7) (bitsOf w 12 7))
  else if fieldOf w 0 2 = 0 ∧ fieldOf w 6 6 = 2 then some (.fcvtSBf (bitsOf w 2 3) (fieldOf w 5 1 == 1) (bitsOf w 19 7) (bitsOf w 12 7))
  else if fieldOf w 0 1 = 0 ∧ fieldOf w 5 7 = 6 then some (.fcvtHS (bitsOf w 2 3) (fieldOf w 1 1 == 1) (bitsOf w 19 7) (bitsOf w 12 7))
  else if fieldOf w 0 1 = 0 ∧ fieldOf w 5 7 = 7 then some (.fcvtBS (bitsOf w 2 3) (fieldOf w 1 1 == 1) (bitsOf w 19 7) (bitsOf w 12 7))
  else if fieldOf w 0 2 = 0 ∧ fieldOf w 7 5 = 2 then some (.fcvtSE4m3 (bitsOf w 2 3) (bitsOf w 5 2) (bitsOf w 19 7) (bitsOf w 12 7))
  else if fieldOf w 0 2 = 0 ∧ fieldOf w 7 5 = 3 then some (.fcvtSE5m2 (bitsOf w 2 3) (bitsOf w 5 2) (bitsOf w 19 7) (bitsOf w 12 7))
  else if fieldOf w 0 2 = 0 ∧ fieldOf w 7 5 = 4 then some (.fcvtSDpt8 (bitsOf w 2 3) (bitsOf w 5 2) (bitsOf w 19 7) (bitsOf w 12 7))
  else if fieldOf w 0 2 = 0 ∧ fieldOf w 7 5 = 5 then some (.fcvtSSpt4Low (bitsOf w 2 3) (bitsOf w 5 2) (bitsOf w 19 7) (bitsOf w 12 7))
  else if fieldOf w 0 2 = 0 ∧ fieldOf w 7 5 = 6 then some (.fcvtSSpt4High (bitsOf w 2 3) (bitsOf w 5 2) (bitsOf w 19 7) (bitsOf w 12 7))
  else if fieldOf w 0 1 = 0 ∧ fieldOf w 5 7 = 28 then some (.fcvtI32S (bitsOf w 2 3) (fieldOf w 1 1 == 1) (bitsOf w 19 7) (bitsOf w 12 7))
  else if fieldOf w 0 1 = 0 ∧ fieldOf w 5 7 = 29 then some (.fcvtN32S (bitsOf w 2 3) (fieldOf w 1 1 == 1) (bitsOf w 19 7) (bitsOf w 12 7))
  else if fieldOf w 0 2 = 0 ∧ fieldOf w 5 7 = 30 then some (.fcvtSI32 (bitsOf w 2 3) (bitsOf w 19 7) (bitsOf w 12 7))
  else if fieldOf w 0 2 = 0 ∧ fieldOf w 5 7 = 31 then some (.fcvtSN32 (bitsOf w 2 3) (bitsOf w 19 7) (bitsOf w 12 7))
  else if fieldOf w 0 1 = 0 ∧ fieldOf w 5 7 = 32 then some (.fcvtI32D (bitsOf w 2 3) (fieldOf w 1 1 == 1) (bitsOf w 19 7) (bitsOf w 12 7))
  else if fieldOf w 0 1 = 0 ∧ fieldOf w 5 7 = 33 then some (.fcvtN32D (bitsOf w 2 3) (fieldOf w 1 1 == 1) (bitsOf w 19 7) (bitsOf w 12 7))
  else if fieldOf w 0 2 = 0 ∧ fieldOf w 5 7 = 34 then some (.fcvtDI32 (bitsOf w 2 3) (bitsOf w 19 7) (bitsOf w 12 7))
  else if fieldOf w 0 2 = 0 ∧ fieldOf w 5 7 = 35 then some (.fcvtDN32 (bitsOf w 2 3) (bitsOf w 19 7) (bitsOf w 12 7))
  else if fieldOf w 0 1 = 0 ∧ fieldOf w 5 7 = 36 then some (.fcvtI64D (bitsOf w 2 3) (fieldOf w 1 1 == 1) (bitsOf w 19 7) (bitsOf w 12 7))
  else if fieldOf w 0 1 = 0 ∧ fieldOf w 5 7 = 37 then some (.fcvtN64D (bitsOf w 2 3) (fieldOf w 1 1 == 1) (bitsOf w 19 7) (bitsOf w 12 7))
  else if fieldOf w 0 2 = 0 ∧ fieldOf w 5 7 = 38 then some (.fcvtDI64 (bitsOf w 2 3) (bitsOf w 19 7) (bitsOf w 12 7))
  else if fieldOf w 0 2 = 0 ∧ fieldOf w 5 7 = 39 then some (.fcvtDN64 (bitsOf w 2 3) (bitsOf w 19 7) (bitsOf w 12 7))
  else none

/-- Major 0x26. -/
noncomputable def decodeMajor26 (w : Nat) : Option Instr :=
  if fieldOf w 0 2 = 0 then some (.fpackH2 (bitsOf w 2 3) (bitsOf w 19 7) (bitsOf w 12 7) (bitsOf w 5 7))
  else if fieldOf w 0 2 = 1 then some (.fpackB2 (bitsOf w 2 3) (bitsOf w 19 7) (bitsOf w 12 7) (bitsOf w 5 7))
  else if fieldOf w 0 2 = 2 then some (.fpackE4m3 (bitsOf w 2 3) (bitsOf w 19 7) (bitsOf w 12 7) (bitsOf w 5 7))
  else if fieldOf w 0 2 = 3 then some (.fpackE5m2 (bitsOf w 2 3) (bitsOf w 19 7) (bitsOf w 12 7) (bitsOf w 5 7))
  else none

/-- Major 0x27. -/
noncomputable def decodeMajor27 (w : Nat) : Option Instr :=
  if fieldOf w 0 2 = 0 then some (.fdotH2 (bitsOf w 2 3) (bitsOf w 19 7) (bitsOf w 12 7) (bitsOf w 5 7))
  else if fieldOf w 0 2 = 1 then some (.fdotB2 (bitsOf w 2 3) (bitsOf w 19 7) (bitsOf w 12 7) (bitsOf w 5 7))
  else if fieldOf w 0 2 = 2 then some (.fdotE4m3 (bitsOf w 2 3) (bitsOf w 19 7) (bitsOf w 12 7) (bitsOf w 5 7))
  else if fieldOf w 0 2 = 3 then some (.fdotE5m2 (bitsOf w 2 3) (bitsOf w 19 7) (bitsOf w 12 7) (bitsOf w 5 7))
  else none

/-- Major 0x28. -/
noncomputable def decodeMajor28 (w : Nat) : Option Instr :=
  if fieldOf w 0 2 = 0 then some (.fqntDpt8 (bitsOf w 2 3) (bitsOf w 19 7) (bitsOf w 12 7) (bitsOf w 5 7))
  else if fieldOf w 0 2 = 1 then some (.fqntSpt4 (bitsOf w 2 3) (bitsOf w 19 7) (bitsOf w 12 7) (bitsOf w 5 7))
  else if fieldOf w 0 2 = 2 ∧ fieldOf w 5 7 = 0 then some (.fqntScale (bitsOf w 2 3) (bitsOf w 19 7) (bitsOf w 12 7))
  else none

/-- Major 0x29. -/
noncomputable def decodeMajor29 (w : Nat) : Option Instr :=
  some (.ld (bitsOf w 3 2) (bitsOf w 0 3) (bitsOf w 19 7) (bitsOf w 12 7) (bitsOf w 5 7))

/-- Major 0x2A. -/
noncomputable def decodeMajor2A (w : Nat) : Option Instr :=
  some (.ldi (bitsOf w 9 3) (bitsOf w 19 7) (bitsOf w 12 7) (bitsOf w 0 9))

/-- Major 0x2B. -/
noncomputable def decodeMajor2B (w : Nat) : Option Instr :=
  some (.st (bitsOf w 3 2) (bitsOf w 0 3) (bitsOf w 19 7) (bitsOf w 12 7) (bitsOf w 5 7))

/-- Major 0x2C. -/
noncomputable def decodeMajor2C (w : Nat) : Option Instr :=
  some (.sti (bitsOf w 9 3) (bitsOf w 19 7) (bitsOf w 12 7) (bitsOf w 0 9))

/-- Major 0x2D. -/
noncomputable def decodeMajor2D (w : Nat) : Option Instr :=
  if fieldOf w 3 2 = 0 then some (.scrLd (bitsOf w 0 3) (bitsOf w 19 7) (bitsOf w 12 7) (bitsOf w 5 7))
  else if fieldOf w 3 2 = 2 then some (.scrSt (bitsOf w 0 3) (bitsOf w 19 7) (bitsOf w 12 7) (bitsOf w 5 7))
  else none

/-- Major 0x2E. -/
noncomputable def decodeMajor2E (w : Nat) : Option Instr :=
  if fieldOf w 0 2 = 0 then some (.acpG2s (bitsOf w 2 3) (bitsOf w 19 7) (bitsOf w 12 7) (bitsOf w 5 7))
  else if fieldOf w 0 2 = 1 then some (.acpS2g (bitsOf w 2 3) (bitsOf w 19 7) (bitsOf w 12 7) (bitsOf w 5 7))
  else none

/-- Major 0x2F. -/
noncomputable def decodeMajor2F (w : Nat) : Option Instr :=
  if fieldOf w 0 5 = 0 then some (.atomAdd (bitsOf w 19 7) (bitsOf w 12 7) (bitsOf w 5 7))
  else if fieldOf w 0 5 = 1 then some (.atomAnd (bitsOf w 19 7) (bitsOf w 12 7) (bitsOf w 5 7))
  else if fieldOf w 0 5 = 2 then some (.atomOr (bitsOf w 19 7) (bitsOf w 12 7) (bitsOf w 5 7))
  else if fieldOf w 0 5 = 3 then some (.atomXor (bitsOf w 19 7) (bitsOf w 12 7) (bitsOf w 5 7))
  else if fieldOf w 0 5 = 4 then some (.atomMinI32 (bitsOf w 19 7) (bitsOf w 12 7) (bitsOf w 5 7))
  else if fieldOf w 0 5 = 5 then some (.atomMaxI32 (bitsOf w 19 7) (bitsOf w 12 7) (bitsOf w 5 7))
  else if fieldOf w 0 5 = 6 then some (.atomMinN32 (bitsOf w 19 7) (bitsOf w 12 7) (bitsOf w 5 7))
  else if fieldOf w 0 5 = 7 then some (.atomMaxN32 (bitsOf w 19 7) (bitsOf w 12 7) (bitsOf w 5 7))
  else if fieldOf w 0 5 = 8 then some (.atomXchg (bitsOf w 19 7) (bitsOf w 12 7) (bitsOf w 5 7))
  else if fieldOf w 0 5 = 9 then some (.atomCas (bitsOf w 19 7) (bitsOf w 12 7) (bitsOf w 5 7))
  else if fieldOf w 0 5 = 10 then some (.atomIncw (bitsOf w 19 7) (bitsOf w 12 7) (bitsOf w 5 7))
  else if fieldOf w 0 5 = 11 then some (.atomDecw (bitsOf w 19 7) (bitsOf w 12 7) (bitsOf w 5 7))
  else if fieldOf w 0 5 = 12 then some (.atomFaddS (bitsOf w 19 7) (bitsOf w 12 7) (bitsOf w 5 7))
  else if fieldOf w 0 5 = 13 then some (.atomFminS (bitsOf w 19 7) (bitsOf w 12 7) (bitsOf w 5 7))
  else if fieldOf w 0 5 = 14 then some (.atomFmaxS (bitsOf w 19 7) (bitsOf w 12 7) (bitsOf w 5 7))
  else if fieldOf w 0 5 = 15 then some (.atomFaddH2 (bitsOf w 19 7) (bitsOf w 12 7) (bitsOf w 5 7))
  else if fieldOf w 0 5 = 16 then some (.atomFaddB2 (bitsOf w 19 7) (bitsOf w 12 7) (bitsOf w 5 7))
  else none

/-- Major 0x30. -/
noncomputable def decodeMajor30 (w : Nat) : Option Instr :=
  if fieldOf w 0 5 = 0 then some (.atom64Add (bitsOf w 19 7) (bitsOf w 12 7) (bitsOf w 5 7))
  else if fieldOf w 0 5 = 1 then some (.atom64And (bitsOf w 19 7) (bitsOf w 12 7) (bitsOf w 5 7))
  else if fieldOf w 0 5 = 2 then some (.atom64Or (bitsOf w 19 7) (bitsOf w 12 7) (bitsOf w 5 7))
  else if fieldOf w 0 5 = 3 then some (.atom64Xor (bitsOf w 19 7) (bitsOf w 12 7) (bitsOf w 5 7))
  else if fieldOf w 0 5 = 4 then some (.atom64MinI64 (bitsOf w 19 7) (bitsOf w 12 7) (bitsOf w 5 7))
  else if fieldOf w 0 5 = 5 then some (.atom64MaxI64 (bitsOf w 19 7) (bitsOf w 12 7) (bitsOf w 5 7))
  else if fieldOf w 0 5 = 6 then some (.atom64MinN64 (bitsOf w 19 7) (bitsOf w 12 7) (bitsOf w 5 7))
  else if fieldOf w 0 5 = 7 then some (.atom64MaxN64 (bitsOf w 19 7) (bitsOf w 12 7) (bitsOf w 5 7))
  else if fieldOf w 0 5 = 8 then some (.atom64Xchg (bitsOf w 19 7) (bitsOf w 12 7) (bitsOf w 5 7))
  else if fieldOf w 0 5 = 9 then some (.atom64Cas (bitsOf w 19 7) (bitsOf w 12 7) (bitsOf w 5 7))
  else if fieldOf w 0 5 = 10 then some (.atom64Incw (bitsOf w 19 7) (bitsOf w 12 7) (bitsOf w 5 7))
  else if fieldOf w 0 5 = 11 then some (.atom64Decw (bitsOf w 19 7) (bitsOf w 12 7) (bitsOf w 5 7))
  else if fieldOf w 0 5 = 12 then some (.atom64FaddD (bitsOf w 19 7) (bitsOf w 12 7) (bitsOf w 5 7))
  else if fieldOf w 0 5 = 13 then some (.atom64FminD (bitsOf w 19 7) (bitsOf w 12 7) (bitsOf w 5 7))
  else if fieldOf w 0 5 = 14 then some (.atom64FmaxD (bitsOf w 19 7) (bitsOf w 12 7) (bitsOf w 5 7))
  else none

/-- Major 0x31. -/
noncomputable def decodeMajor31 (w : Nat) : Option Instr :=
  if fieldOf w 0 5 = 0 ∧ fieldOf w 19 7 = 0 then some (.redAdd (bitsOf w 12 7) (bitsOf w 5 7))
  else if fieldOf w 0 5 = 1 ∧ fieldOf w 19 7 = 0 then some (.redAnd (bitsOf w 12 7) (bitsOf w 5 7))
  else if fieldOf w 0 5 = 2 ∧ fieldOf w 19 7 = 0 then some (.redOr (bitsOf w 12 7) (bitsOf w 5 7))
  else if fieldOf w 0 5 = 3 ∧ fieldOf w 19 7 = 0 then some (.redXor (bitsOf w 12 7) (bitsOf w 5 7))
  else if fieldOf w 0 5 = 4 ∧ fieldOf w 19 7 = 0 then some (.redMinI32 (bitsOf w 12 7) (bitsOf w 5 7))
  else if fieldOf w 0 5 = 5 ∧ fieldOf w 19 7 = 0 then some (.redMaxI32 (bitsOf w 12 7) (bitsOf w 5 7))
  else if fieldOf w 0 5 = 6 ∧ fieldOf w 19 7 = 0 then some (.redMinN32 (bitsOf w 12 7) (bitsOf w 5 7))
  else if fieldOf w 0 5 = 7 ∧ fieldOf w 19 7 = 0 then some (.redMaxN32 (bitsOf w 12 7) (bitsOf w 5 7))
  else if fieldOf w 0 5 = 12 ∧ fieldOf w 19 7 = 0 then some (.redFaddS (bitsOf w 12 7) (bitsOf w 5 7))
  else if fieldOf w 0 5 = 13 ∧ fieldOf w 19 7 = 0 then some (.redFminS (bitsOf w 12 7) (bitsOf w 5 7))
  else if fieldOf w 0 5 = 14 ∧ fieldOf w 19 7 = 0 then some (.redFmaxS (bitsOf w 12 7) (bitsOf w 5 7))
  else if fieldOf w 0 5 = 15 ∧ fieldOf w 19 7 = 0 then some (.redFaddH2 (bitsOf w 12 7) (bitsOf w 5 7))
  else if fieldOf w 0 5 = 16 ∧ fieldOf w 19 7 = 0 then some (.redFaddB2 (bitsOf w 12 7) (bitsOf w 5 7))
  else if fieldOf w 0 5 = 20 ∧ fieldOf w 19 7 = 0 then some (.redAdd64 (bitsOf w 12 7) (bitsOf w 5 7))
  else if fieldOf w 0 5 = 21 ∧ fieldOf w 19 7 = 0 then some (.redFaddD (bitsOf w 12 7) (bitsOf w 5 7))
  else none

/-- Major 0x32. -/
noncomputable def decodeMajor32 (w : Nat) : Option Instr :=
  if fieldOf w 0 5 = 0 then some (.binit (bitsOf w 19 7) (bitsOf w 12 7) (bitsOf w 5 7))
  else if fieldOf w 0 5 = 1 then some (.arrive (bitsOf w 19 7) (bitsOf w 12 7) (bitsOf w 5 7))
  else if fieldOf w 0 5 = 2 then some (.arriveb (bitsOf w 19 7) (bitsOf w 12 7) (bitsOf w 5 7))
  else if fieldOf w 0 5 = 3 ∧ fieldOf w 19 7 = 0 then some (.expect (bitsOf w 12 7) (bitsOf w 5 7))
  else if fieldOf w 0 5 = 4 then some (.bwait (bitsOf w 19 7) (bitsOf w 12 7) (bitsOf w 5 7))
  else if fieldOf w 0 5 = 5 then some (.btest (bitsOf w 19 7) (bitsOf w 12 7) (bitsOf w 5 7))
  else if fieldOf w 0 26 = 6 then some (.gsync)
  else if fieldOf w 0 26 = 7 then some (.tsync)
  else if fieldOf w 0 5 = 8 ∧ fieldOf w 8 11 = 0 then some (.ringa (bitsOf w 19 7) (bitsOf w 5 3))
  else if fieldOf w 0 5 = 9 ∧ fieldOf w 8 4 = 0 then some (.ringf (bitsOf w 19 7) (bitsOf w 12 7) (bitsOf w 5 3))
  else if fieldOf w 0 5 = 10 ∧ fieldOf w 8 11 = 0 then some (.ringw (bitsOf w 19 7) (bitsOf w 5 3))
  else if fieldOf w 0 5 = 11 ∧ fieldOf w 8 4 = 0 then some (.ringe (bitsOf w 19 7) (bitsOf w 12 7) (bitsOf w 5 3))
  else none

/-- Major 0x33. -/
noncomputable def decodeMajor33 (w : Nat) : Option Instr :=
  if fieldOf w 0 2 = 0 ∧ fieldOf w 4 22 = 0 then some (.fenceAcq (bitsOf w 2 2))
  else if fieldOf w 0 2 = 1 ∧ fieldOf w 4 22 = 0 then some (.fenceRel (bitsOf w 2 2))
  else if fieldOf w 0 2 = 2 ∧ fieldOf w 4 22 = 0 then some (.fenceAr (bitsOf w 2 2))
  else if fieldOf w 0 2 = 3 ∧ fieldOf w 4 22 = 0 then some (.fenceSc (bitsOf w 2 2))
  else if fieldOf w 0 26 = 24 then some (.fenceAcqDevPromote)
  else none

/-- Major 0x34. -/
noncomputable def decodeMajor34 (w : Nat) : Option Instr :=
  if fieldOf w 0 12 = 0 then some (.tbegin (bitsOf w 19 7) (bitsOf w 12 7))
  else if fieldOf w 0 26 = 1 then some (.tend)
  else if fieldOf w 0 5 = 2 ∧ fieldOf w 12 14 = 0 then some (.tabort (bitsOf w 5 7))
  else if fieldOf w 0 19 = 3 then some (.tstat (bitsOf w 19 7))
  else none

/-- Major 0x35. -/
noncomputable def decodeMajor35 (w : Nat) : Option Instr :=
  if fieldOf w 0 5 = 0 ∧ fieldOf w 19 7 = 0 then some (.cwb (bitsOf w 12 7) (bitsOf w 5 7))
  else if fieldOf w 0 5 = 1 ∧ fieldOf w 19 7 = 0 then some (.cinv (bitsOf w 12 7) (bitsOf w 5 7))
  else if fieldOf w 0 5 = 2 ∧ fieldOf w 19 7 = 0 then some (.cwbi (bitsOf w 12 7) (bitsOf w 5 7))
  else if fieldOf w 0 5 = 3 ∧ fieldOf w 19 7 = 0 then some (.iinv (bitsOf w 12 7) (bitsOf w 5 7))
  else if fieldOf w 0 26 = 4 then some (.fetchb)
  else if fieldOf w 0 5 = 5 ∧ fieldOf w 19 7 = 0 then some (.pref (bitsOf w 12 7) (bitsOf w 5 7))
  else none

/-- Major 0x36. -/
noncomputable def decodeMajor36 (w : Nat) : Option Instr :=
  if fieldOf w 0 5 = 0 then some (.acqr (bitsOf w 19 7) (bitsOf w 12 7) (bitsOf w 5 7))
  else if fieldOf w 0 12 = 1 then some (.relr (bitsOf w 19 7) (bitsOf w 12 7))
  else if fieldOf w 0 12 = 2 then some (.qryr (bitsOf w 19 7) (bitsOf w 12 7))
  else if fieldOf w 0 5 = 3 then some (.givr (bitsOf w 19 7) (bitsOf w 12 7) (bitsOf w 5 7))
  else none

/-- Major 0x37. -/
noncomputable def decodeMajor37 (w : Nat) : Option Instr :=
  if fieldOf w 2 3 = 0 then some (.poolGrow (bitsOf w 0 2) (bitsOf w 19 7) (bitsOf w 12 7) (bitsOf w 5 7))
  else if fieldOf w 2 3 = 1 then some (.poolShrink (bitsOf w 0 2) (bitsOf w 19 7) (bitsOf w 12 7) (bitsOf w 5 7))
  else if fieldOf w 2 17 = 2 then some (.poolQuery (bitsOf w 0 2) (bitsOf w 19 7))
  else if fieldOf w 0 12 = 12 then some (.poolMap (bitsOf w 19 7) (bitsOf w 12 7))
  else if fieldOf w 0 19 = 16 then some (.poolStat (bitsOf w 19 7))
  else none

/-- Major 0x38. -/
noncomputable def decodeMajor38 (w : Nat) : Option Instr :=
  if fieldOf w 0 5 = 0 ∧ fieldOf w 23 3 = 0 then some (.tshape (bitsOf w 19 4) (bitsOf w 12 7) (bitsOf w 5 7))
  else if fieldOf w 0 5 = 1 ∧ fieldOf w 23 3 = 0 then some (.tld (bitsOf w 19 4) (bitsOf w 12 7) (bitsOf w 5 7))
  else if fieldOf w 0 5 = 2 ∧ fieldOf w 23 3 = 0 then some (.tldt (bitsOf w 19 4) (bitsOf w 12 7) (bitsOf w 5 7))
  else if fieldOf w 0 5 = 3 ∧ fieldOf w 23 3 = 0 then some (.tst (bitsOf w 19 4) (bitsOf w 12 7) (bitsOf w 5 7))
  else if fieldOf w 0 19 = 4 ∧ fieldOf w 23 3 = 0 then some (.tzero (bitsOf w 19 4))
  else if fieldOf w 0 5 = 5 ∧ fieldOf w 16 3 = 0 then some (.trdr (bitsOf w 19 7) (bitsOf w 12 4) (bitsOf w 5 7))
  else if fieldOf w 0 5 = 6 ∧ fieldOf w 23 3 = 0 then some (.twrr (bitsOf w 19 4) (bitsOf w 12 7) (bitsOf w 5 7))
  else if fieldOf w 0 19 = 7 ∧ fieldOf w 23 3 = 0 then some (.tlatch (bitsOf w 19 4))
  else if fieldOf w 0 5 = 8 ∧ fieldOf w 16 3 = 0 then some (.tlsf (bitsOf w 19 7) (bitsOf w 12 4) (bitsOf w 5 7))
  else if fieldOf w 0 26 = 9 then some (.mfence)
  else if fieldOf w 0 5 = 10 ∧ fieldOf w 12 14 = 0 then some (.mwait (bitsOf w 5 7))
  else if fieldOf w 0 12 = 11 then some (.mseq (bitsOf w 19 7) (bitsOf w 12 7))
  else if fieldOf w 0 12 = 12 then some (.mcw (bitsOf w 19 7) (bitsOf w 12 7))
  else if fieldOf w 0 5 = 13 ∧ fieldOf w 8 11 = 0 then some (.mcrd (bitsOf w 19 7) (bitsOf w 5 3))
  else if fieldOf w 0 12 = 14 ∧ fieldOf w 16 3 = 0 ∧ fieldOf w 23 3 = 0 then some (.tmov (bitsOf w 19 4) (bitsOf w 12 4))
  else none

/-- Major 0x39. -/
noncomputable def decodeMajor39 (w : Nat) : Option Instr :=
  if fieldOf w 0 2 = 0 ∧ fieldOf w 9 3 = 0 ∧ fieldOf w 16 3 = 0 ∧ fieldOf w 23 3 = 0 then some (.mmaWin (fieldOf w 4 1 == 1) (bitsOf w 2 2) (bitsOf w 19 4) (bitsOf w 12 4) (bitsOf w 5 4))
  else if fieldOf w 0 2 = 1 ∧ fieldOf w 9 3 = 0 ∧ fieldOf w 16 3 = 0 ∧ fieldOf w 23 3 = 0 then some (.mmaSeq (fieldOf w 4 1 == 1) (bitsOf w 2 2) (bitsOf w 19 4) (bitsOf w 12 4) (bitsOf w 5 4))
  else none

/-- Major 0x3A. -/
noncomputable def decodeMajor3A (w : Nat) : Option Instr :=
  if fieldOf w 0 12 = 0 then some (.engCpy (bitsOf w 19 7) (bitsOf w 12 7))
  else if fieldOf w 0 12 = 1 then some (.engBin (bitsOf w 19 7) (bitsOf w 12 7))
  else if fieldOf w 0 12 = 2 then some (.engMig (bitsOf w 19 7) (bitsOf w 12 7))
  else if fieldOf w 0 5 = 3 ∧ fieldOf w 12 14 = 0 then some (.ewait (bitsOf w 5 7))
  else if fieldOf w 0 12 = 4 then some (.estat (bitsOf w 19 7) (bitsOf w 12 7))
  else none

/-- Major 0x3B. -/
noncomputable def decodeMajor3B (w : Nat) : Option Instr :=
  if fieldOf w 0 5 = 0 then some (.nmcall (bitsOf w 19 7) (bitsOf w 12 7) (bitsOf w 5 7))
  else if fieldOf w 0 12 = 1 ∧ fieldOf w 19 7 = 0 then some (.nmret (bitsOf w 12 7))
  else if fieldOf w 0 5 = 2 then some (.nmwalk (bitsOf w 19 7) (bitsOf w 12 7) (bitsOf w 5 7))
  else if fieldOf w 0 5 = 3 then some (.fred (bitsOf w 19 7) (bitsOf w 12 7) (bitsOf w 5 7))
  else none

/-- Major 0x3C. -/
noncomputable def decodeMajor3C (w : Nat) : Option Instr :=
  if fieldOf w 0 5 = 0 then some (.qpush (bitsOf w 19 7) (bitsOf w 12 7) (bitsOf w 5 7))
  else if fieldOf w 0 5 = 1 then some (.qpop (bitsOf w 19 7) (bitsOf w 12 7) (bitsOf w 5 7))
  else if fieldOf w 0 12 = 2 then some (.qfree (bitsOf w 19 7) (bitsOf w 12 7))
  else if fieldOf w 0 12 = 3 then some (.launch (bitsOf w 19 7) (bitsOf w 12 7))
  else if fieldOf w 0 12 = 4 then some (.lrel (bitsOf w 19 7) (bitsOf w 12 7))
  else if fieldOf w 0 5 = 5 then some (.lpatch (bitsOf w 19 7) (bitsOf w 12 7) (bitsOf w 5 7))
  else none

/-- Major 0x3D. -/
noncomputable def decodeMajor3D (w : Nat) : Option Instr :=
  if fieldOf w 0 5 = 0 ∧ fieldOf w 21 5 = 0 then some (.waitw (bitsOf w 19 2) (bitsOf w 12 7) (bitsOf w 5 7))
  else if fieldOf w 0 26 = 1 then some (.yield)
  else if fieldOf w 0 12 = 2 ∧ fieldOf w 19 7 = 0 then some (.sleep (bitsOf w 12 7))
  else if fieldOf w 0 5 = 3 ∧ fieldOf w 19 7 = 0 then some (.waitx (bitsOf w 12 7) (bitsOf w 5 7))
  else none

/-- Major 0x3E. -/
noncomputable def decodeMajor3E (w : Nat) : Option Instr :=
  if fieldOf w 0 5 = 0 ∧ fieldOf w 12 7 = 0 then some (.rdsr (bitsOf w 19 7) (bitsOf w 5 7))
  else if fieldOf w 0 5 = 1 ∧ fieldOf w 19 7 = 0 then some (.wrsr (bitsOf w 12 7) (bitsOf w 5 7))
  else if fieldOf w 0 5 = 2 ∧ fieldOf w 19 7 = 0 then some (.tlbinv (bitsOf w 12 7) (bitsOf w 5 7))
  else if fieldOf w 0 5 = 3 ∧ fieldOf w 19 7 = 0 then some (.vpurge (bitsOf w 12 7) (bitsOf w 5 7))
  else if fieldOf w 0 5 = 4 then some (.attrchg (bitsOf w 19 7) (bitsOf w 12 7) (bitsOf w 5 7))
  else if fieldOf w 0 26 = 5 then some (.tret)
  else if fieldOf w 0 26 = 6 then some (.haltc)
  else none

/-- Major 0x3F. -/
noncomputable def decodeMajor3F (w : Nat) : Option Instr :=
  if fieldOf w 0 26 = 0 then some (.brk)
  else if fieldOf w 19 7 = 0 then some (.trap (bitsOf w 0 19))
  else none

/-- The instruction a word stands for, before its operands are judged. -/
noncomputable def decodeRaw (w : Nat) : Option Instr :=
  match w / 2 ^ 26 with
  | 0 => decodeMajor00 w
  | 1 => decodeMajor01 w
  | 2 => decodeMajor02 w
  | 3 => decodeMajor03 w
  | 4 => decodeMajor04 w
  | 5 => decodeMajor05 w
  | 6 => decodeMajor06 w
  | 7 => decodeMajor07 w
  | 8 => decodeMajor08 w
  | 9 => decodeMajor09 w
  | 10 => decodeMajor0A w
  | 11 => decodeMajor0B w
  | 12 => decodeMajor0C w
  | 13 => decodeMajor0D w
  | 14 => decodeMajor0E w
  | 15 => decodeMajor0F w
  | 16 => decodeMajor10 w
  | 17 => decodeMajor11 w
  | 18 => decodeMajor12 w
  | 19 => decodeMajor13 w
  | 20 => decodeMajor14 w
  | 21 => decodeMajor15 w
  | 22 => decodeMajor16 w
  | 23 => decodeMajor17 w
  | 24 => decodeMajor18 w
  | 25 => decodeMajor19 w
  | 26 => decodeMajor1A w
  | 27 => decodeMajor1B w
  | 28 => decodeMajor1C w
  | 29 => decodeMajor1D w
  | 30 => decodeMajor1E w
  | 31 => decodeMajor1F w
  | 32 => decodeMajor20 w
  | 33 => decodeMajor21 w
  | 34 => decodeMajor22 w
  | 35 => decodeMajor23 w
  | 36 => decodeMajor24 w
  | 37 => decodeMajor25 w
  | 38 => decodeMajor26 w
  | 39 => decodeMajor27 w
  | 40 => decodeMajor28 w
  | 41 => decodeMajor29 w
  | 42 => decodeMajor2A w
  | 43 => decodeMajor2B w
  | 44 => decodeMajor2C w
  | 45 => decodeMajor2D w
  | 46 => decodeMajor2E w
  | 47 => decodeMajor2F w
  | 48 => decodeMajor30 w
  | 49 => decodeMajor31 w
  | 50 => decodeMajor32 w
  | 51 => decodeMajor33 w
  | 52 => decodeMajor34 w
  | 53 => decodeMajor35 w
  | 54 => decodeMajor36 w
  | 55 => decodeMajor37 w
  | 56 => decodeMajor38 w
  | 57 => decodeMajor39 w
  | 58 => decodeMajor3A w
  | 59 => decodeMajor3B w
  | 60 => decodeMajor3C w
  | 61 => decodeMajor3D w
  | 62 => decodeMajor3E w
  | 63 => decodeMajor3F w
  | _ => none

/-- The instruction a 32-bit word stands for, or none where R24 makes it illegal. -/
noncomputable def decodeWord (w : Nat) : Option Instr := (decodeRaw w).filter wellFormed

/-- A word from its four bytes in ascending address order (R20). -/
def wordOfBytes : List Byte → Option Nat
  | [b0, b1, b2, b3] => some (b0.toNat + 2 ^ 8 * b1.toNat + 2 ^ 16 * b2.toNat + 2 ^ 24 * b3.toNat)
  | _ => none

/-- The decoder over bytes: total, none for anything but the four bytes of an instruction. -/
noncomputable def decodeBytes (bs : List Byte) : Option Instr := (wordOfBytes bs).bind decodeWord

/-- The four bytes of a word, lowest address first (R20). -/
def bytesOfWord (w : Nat) : List Byte :=
  [BitVec.ofNat 8 w, BitVec.ofNat 8 (w / 2 ^ 8), BitVec.ofNat 8 (w / 2 ^ 16), BitVec.ofNat 8 (w / 2 ^ 24)]

/-- What the decoder reads from a table row of `nbits` bits with value `w`. -/
noncomputable def decodeTableWord (_nbits w : Nat) : Option Instr := decodeBytes (bytesOfWord w)

/-- A field value at its place in the word (R21). -/
def putField {n : Nat} (lo : Nat) (v : BitVec n) : Nat := v.toNat * 2 ^ lo

/-- A one-bit field at its place in the word. -/
def putBit (lo : Nat) (b : Bool) : Nat := (if b then 1 else 0) * 2 ^ lo

/-- The word of an instruction; events have none. -/
def encode : Instr → Option Nat
  | .ill => some (0x0)
  | .nop => some (0x1)
  | .mov d a => some (0x2 + putField 19 d + putField 12 a)
  | .sel d a b => some (0x3 + putField 19 d + putField 12 a + putField 5 b)
  | .mset d a => some (0x4 + putField 19 d + putField 12 a)
  | .mget d => some (0x5 + putField 19 d)
  | .exit => some (0x6)
  | .wbase a => some (0x7 + putField 12 a)
  | .winq d => some (0x8 + putField 19 d)
  | .tagq d a => some (0x9 + putField 19 d + putField 12 a)
  | .rdy d a => some (0xa + putField 19 d + putField 12 a)
  | .clock d => some (0xb + putField 19 d)
  | .rngr d => some (0xc + putField 19 d)
  | .rngw a => some (0xd + putField 12 a)
  | .fxclr d a => some (0xe + putField 19 d + putField 12 a)
  | .gcw d a => some (0xf + putField 19 d + putField 12 a)
  | .add d a b => some (0x4000000 + putField 19 d + putField 12 a + putField 5 b)
  | .sub d a b => some (0x4000001 + putField 19 d + putField 12 a + putField 5 b)
  | .mul d a b => some (0x4000002 + putField 19 d + putField 12 a + putField 5 b)
  | .mulhI32 d a b => some (0x4000003 + putField 19 d + putField 12 a + putField 5 b)
  | .mulhN32 d a b => some (0x4000004 + putField 19 d + putField 12 a + putField 5 b)
  | .and d a b => some (0x4000005 + putField 19 d + putField 12 a + putField 5 b)
  | .or d a b => some (0x4000006 + putField 19 d + putField 12 a + putField 5 b)
  | .xor d a b => some (0x4000007 + putField 19 d + putField 12 a + putField 5 b)
  | .andn d a b => some (0x4000008 + putField 19 d + putField 12 a + putField 5 b)
  | .orn d a b => some (0x4000009 + putField 19 d + putField 12 a + putField 5 b)
  | .sll d a b => some (0x400000a + putField 19 d + putField 12 a + putField 5 b)
  | .srl d a b => some (0x400000b + putField 19 d + putField 12 a + putField 5 b)
  | .sra d a b => some (0x400000c + putField 19 d + putField 12 a + putField 5 b)
  | .rol d a b => some (0x400000d + putField 19 d + putField 12 a + putField 5 b)
  | .minI32 d a b => some (0x400000e + putField 19 d + putField 12 a + putField 5 b)
  | .maxI32 d a b => some (0x400000f + putField 19 d + putField 12 a + putField 5 b)
  | .minN32 d a b => some (0x4000010 + putField 19 d + putField 12 a + putField 5 b)
  | .maxN32 d a b => some (0x4000011 + putField 19 d + putField 12 a + putField 5 b)
  | .addsI32 d a b => some (0x4000012 + putField 19 d + putField 12 a + putField 5 b)
  | .subsI32 d a b => some (0x4000013 + putField 19 d + putField 12 a + putField 5 b)
  | .divI32 d a b => some (0x4000014 + putField 19 d + putField 12 a + putField 5 b)
  | .divN32 d a b => some (0x4000015 + putField 19 d + putField 12 a + putField 5 b)
  | .remI32 d a b => some (0x4000016 + putField 19 d + putField 12 a + putField 5 b)
  | .remN32 d a b => some (0x4000017 + putField 19 d + putField 12 a + putField 5 b)
  | .ceq d a b => some (0x4000018 + putField 19 d + putField 12 a + putField 5 b)
  | .cne d a b => some (0x4000019 + putField 19 d + putField 12 a + putField 5 b)
  | .cltI32 d a b => some (0x400001a + putField 19 d + putField 12 a + putField 5 b)
  | .cleI32 d a b => some (0x400001b + putField 19 d + putField 12 a + putField 5 b)
  | .cltN32 d a b => some (0x400001c + putField 19 d + putField 12 a + putField 5 b)
  | .cleN32 d a b => some (0x400001d + putField 19 d + putField 12 a + putField 5 b)
  | .addi d a imm => some (0x8000000 + putField 19 d + putField 12 a + putField 0 imm)
  | .andi d a imm => some (0xc000000 + putField 19 d + putField 12 a + putField 0 imm)
  | .ori d a imm => some (0x10000000 + putField 19 d + putField 12 a + putField 0 imm)
  | .xori d a imm => some (0x14000000 + putField 19 d + putField 12 a + putField 0 imm)
  | .slli d a n => some (0x18000000 + putField 19 d + putField 12 a + putField 0 n)
  | .srli d a n => some (0x18000100 + putField 19 d + putField 12 a + putField 0 n)
  | .srai d a n => some (0x18000200 + putField 19 d + putField 12 a + putField 0 n)
  | .roli d a n => some (0x18000300 + putField 19 d + putField 12 a + putField 0 n)
  | .ceqi d a imm => some (0x1c000000 + putField 19 d + putField 12 a + putField 0 imm)
  | .cnei d a imm => some (0x1c000200 + putField 19 d + putField 12 a + putField 0 imm)
  | .cltiI32 d a imm => some (0x1c000400 + putField 19 d + putField 12 a + putField 0 imm)
  | .cleiI32 d a imm => some (0x1c000600 + putField 19 d + putField 12 a + putField 0 imm)
  | .cgtiI32 d a imm => some (0x1c000800 + putField 19 d + putField 12 a + putField 0 imm)
  | .cltiN32 d a imm => some (0x1c000a00 + putField 19 d + putField 12 a + putField 0 imm)
  | .cleiN32 d a imm => some (0x1c000c00 + putField 19 d + putField 12 a + putField 0 imm)
  | .cgtiN32 d a imm => some (0x1c000e00 + putField 19 d + putField 12 a + putField 0 imm)
  | .lui d imm => some (0x20000000 + putField 19 d + putField 0 imm)
  | .auipc d imm => some (0x24000000 + putField 19 d + putField 0 imm)
  | .bfx d a pos len => some (0x28000000 + putField 19 d + putField 12 a + putField 5 pos + putField 0 len)
  | .bfxs d a pos len => some (0x2c000000 + putField 19 d + putField 12 a + putField 5 pos + putField 0 len)
  | .bfi d a pos len => some (0x30000000 + putField 19 d + putField 12 a + putField 5 pos + putField 0 len)
  | .add64 d a b => some (0x34000000 + putField 19 d + putField 12 a + putField 5 b)
  | .sub64 d a b => some (0x34000001 + putField 19 d + putField 12 a + putField 5 b)
  | .mul64 d a b => some (0x34000002 + putField 19 d + putField 12 a + putField 5 b)
  | .mulwI32 d a b => some (0x34000003 + putField 19 d + putField 12 a + putField 5 b)
  | .mulwN32 d a b => some (0x34000004 + putField 19 d + putField 12 a + putField 5 b)
  | .madwN32 d a b => some (0x34000005 + putField 19 d + putField 12 a + putField 5 b)
  | .addwI32 d a b => some (0x34000006 + putField 19 d + putField 12 a + putField 5 b)
  | .addwN32 d a b => some (0x34000007 + putField 19 d + putField 12 a + putField 5 b)
  | .sll64 d a b => some (0x34000008 + putField 19 d + putField 12 a + putField 5 b)
  | .srl64 d a b => some (0x34000009 + putField 19 d + putField 12 a + putField 5 b)
  | .sra64 d a b => some (0x3400000a + putField 19 d + putField 12 a + putField 5 b)
  | .ceq64 d a b => some (0x3400000b + putField 19 d + putField 12 a + putField 5 b)
  | .clt64I64 d a b => some (0x3400000c + putField 19 d + putField 12 a + putField 5 b)
  | .clt64N64 d a b => some (0x3400000d + putField 19 d + putField 12 a + putField 5 b)
  | .min64N64 d a b => some (0x3400000e + putField 19 d + putField 12 a + putField 5 b)
  | .max64N64 d a b => some (0x3400000f + putField 19 d + putField 12 a + putField 5 b)
  | .ballot d a => some (0x38000000 + putField 19 d + putField 12 a)
  | .vany d a => some (0x38000001 + putField 19 d + putField 12 a)
  | .vall d a => some (0x38000002 + putField 19 d + putField 12 a)
  | .rfl d a => some (0x38000003 + putField 19 d + putField 12 a)
  | .shfl d a b => some (0x38000004 + putField 19 d + putField 12 a + putField 5 b)
  | .shflu d a b => some (0x38000005 + putField 19 d + putField 12 a + putField 5 b)
  | .shfld d a b => some (0x38000006 + putField 19 d + putField 12 a + putField 5 b)
  | .shflx d a b => some (0x38000007 + putField 19 d + putField 12 a + putField 5 b)
  | .active d => some (0x38000008 + putField 19 d)
  | .elect d => some (0x38000009 + putField 19 d)
  | .scanadd d a => some (0x3800000a + putField 19 d + putField 12 a)
  | .radd d a => some (0x3800000b + putField 19 d + putField 12 a)
  | .rminI32 d a => some (0x3800000c + putField 19 d + putField 12 a)
  | .rmaxI32 d a => some (0x3800000d + putField 19 d + putField 12 a)
  | .rmaxN32 d a => some (0x3800000e + putField 19 d + putField 12 a)
  | .lmasklt d => some (0x3800000f + putField 19 d)
  | .clz d a => some (0x3c000000 + putField 19 d + putField 12 a)
  | .ctz d a => some (0x3c000001 + putField 19 d + putField 12 a)
  | .popc d a => some (0x3c000002 + putField 19 d + putField 12 a)
  | .brev d a => some (0x3c000003 + putField 19 d + putField 12 a)
  | .bswap d a => some (0x3c000004 + putField 19 d + putField 12 a)
  | .sext8 d a => some (0x3c000005 + putField 19 d + putField 12 a)
  | .sext16 d a => some (0x3c000006 + putField 19 d + putField 12 a)
  | .abs d a => some (0x3c000007 + putField 19 d + putField 12 a)
  | .neg d a => some (0x3c000008 + putField 19 d + putField 12 a)
  | .not d a => some (0x3c000009 + putField 19 d + putField 12 a)
  | .bz a imm => some (0x40000000 + putField 19 a + putField 0 imm)
  | .bnz a imm => some (0x44000000 + putField 19 a + putField 0 imm)
  | .jal d imm => some (0x48000000 + putField 19 d + putField 0 imm)
  | .jr d a => some (0x4c000000 + putField 19 d + putField 12 a)
  | .meet d imm => some (0x50000000 + putField 19 d + putField 0 imm)
  | .cmov d a => some (0x54000000 + putField 19 d + putField 12 a)
  | .cnarrow d a b => some (0x54000001 + putField 19 d + putField 12 a + putField 5 b)
  | .cperm d a b => some (0x54000002 + putField 19 d + putField 12 a + putField 5 b)
  | .cget d a sel => some (0x54000003 + putField 19 d + putField 12 a + putField 5 sel)
  | .ctag d a => some (0x54000004 + putField 19 d + putField 12 a)
  | .cclr d => some (0x54000005 + putField 19 d)
  | .cmint d a => some (0x54000006 + putField 19 d + putField 12 a)
  | .faddD rm d a b => some (0x58000000 + putField 2 rm + putField 19 d + putField 12 a + putField 5 b)
  | .fsubD rm d a b => some (0x58000001 + putField 2 rm + putField 19 d + putField 12 a + putField 5 b)
  | .fmulD rm d a b => some (0x58000002 + putField 2 rm + putField 19 d + putField 12 a + putField 5 b)
  | .fdivD rm d a b => some (0x58000003 + putField 2 rm + putField 19 d + putField 12 a + putField 5 b)
  | .faddS rm d a b => some (0x5c000000 + putField 2 rm + putField 19 d + putField 12 a + putField 5 b)
  | .fsubS rm d a b => some (0x5c000001 + putField 2 rm + putField 19 d + putField 12 a + putField 5 b)
  | .fmulS rm d a b => some (0x5c000002 + putField 2 rm + putField 19 d + putField 12 a + putField 5 b)
  | .fdivS rm d a b => some (0x5c000003 + putField 2 rm + putField 19 d + putField 12 a + putField 5 b)
  | .faddH rm d a b => some (0x60000000 + putField 2 rm + putField 19 d + putField 12 a + putField 5 b)
  | .fsubH rm d a b => some (0x60000001 + putField 2 rm + putField 19 d + putField 12 a + putField 5 b)
  | .fmulH rm d a b => some (0x60000002 + putField 2 rm + putField 19 d + putField 12 a + putField 5 b)
  | .fdivH rm d a b => some (0x60000003 + putField 2 rm + putField 19 d + putField 12 a + putField 5 b)
  | .faddB rm d a b => some (0x64000000 + putField 2 rm + putField 19 d + putField 12 a + putField 5 b)
  | .fsubB rm d a b => some (0x64000001 + putField 2 rm + putField 19 d + putField 12 a + putField 5 b)
  | .fmulB rm d a b => some (0x64000002 + putField 2 rm + putField 19 d + putField 12 a + putField 5 b)
  | .fdivB rm d a b => some (0x64000003 + putField 2 rm + putField 19 d + putField 12 a + putField 5 b)
  | .fmacD rm d a b => some (0x68000000 + putField 2 rm + putField 19 d + putField 12 a + putField 5 b)
  | .fmscD rm d a b => some (0x68000001 + putField 2 rm + putField 19 d + putField 12 a + putField 5 b)
  | .fnmacD rm d a b => some (0x68000002 + putField 2 rm + putField 19 d + putField 12 a + putField 5 b)
  | .fnmscD rm d a b => some (0x68000003 + putField 2 rm + putField 19 d + putField 12 a + putField 5 b)
  | .fmacS rm d a b => some (0x6c000000 + putField 2 rm + putField 19 d + putField 12 a + putField 5 b)
  | .fmscS rm d a b => some (0x6c000001 + putField 2 rm + putField 19 d + putField 12 a + putField 5 b)
  | .fnmacS rm d a b => some (0x6c000002 + putField 2 rm + putField 19 d + putField 12 a + putField 5 b)
  | .fnmscS rm d a b => some (0x6c000003 + putField 2 rm + putField 19 d + putField 12 a + putField 5 b)
  | .fmacH rm d a b => some (0x70000000 + putField 2 rm + putField 19 d + putField 12 a + putField 5 b)
  | .fmscH rm d a b => some (0x70000001 + putField 2 rm + putField 19 d + putField 12 a + putField 5 b)
  | .fnmacH rm d a b => some (0x70000002 + putField 2 rm + putField 19 d + putField 12 a + putField 5 b)
  | .fnmscH rm d a b => some (0x70000003 + putField 2 rm + putField 19 d + putField 12 a + putField 5 b)
  | .fmacB rm d a b => some (0x74000000 + putField 2 rm + putField 19 d + putField 12 a + putField 5 b)
  | .fmscB rm d a b => some (0x74000001 + putField 2 rm + putField 19 d + putField 12 a + putField 5 b)
  | .fnmacB rm d a b => some (0x74000002 + putField 2 rm + putField 19 d + putField 12 a + putField 5 b)
  | .fnmscB rm d a b => some (0x74000003 + putField 2 rm + putField 19 d + putField 12 a + putField 5 b)
  | .fminD d a b => some (0x78000000 + putField 19 d + putField 12 a + putField 5 b)
  | .fmaxD d a b => some (0x78000001 + putField 19 d + putField 12 a + putField 5 b)
  | .fminnumD d a b => some (0x78000002 + putField 19 d + putField 12 a + putField 5 b)
  | .fmaxnumD d a b => some (0x78000003 + putField 19 d + putField 12 a + putField 5 b)
  | .fabsD d a => some (0x78000004 + putField 19 d + putField 12 a)
  | .fnegD d a => some (0x78000005 + putField 19 d + putField 12 a)
  | .fcpsgnD d a b => some (0x78000006 + putField 19 d + putField 12 a + putField 5 b)
  | .fclassD d a => some (0x78000007 + putField 19 d + putField 12 a)
  | .fceqD d a b => some (0x78000008 + putField 19 d + putField 12 a + putField 5 b)
  | .fcltD d a b => some (0x78000009 + putField 19 d + putField 12 a + putField 5 b)
  | .fcleD d a b => some (0x7800000a + putField 19 d + putField 12 a + putField 5 b)
  | .fcunD d a b => some (0x7800000b + putField 19 d + putField 12 a + putField 5 b)
  | .fscalbD d a b => some (0x7800000c + putField 19 d + putField 12 a + putField 5 b)
  | .fminS d a b => some (0x7c000000 + putField 19 d + putField 12 a + putField 5 b)
  | .fmaxS d a b => some (0x7c000001 + putField 19 d + putField 12 a + putField 5 b)
  | .fminnumS d a b => some (0x7c000002 + putField 19 d + putField 12 a + putField 5 b)
  | .fmaxnumS d a b => some (0x7c000003 + putField 19 d + putField 12 a + putField 5 b)
  | .fabsS d a => some (0x7c000004 + putField 19 d + putField 12 a)
  | .fnegS d a => some (0x7c000005 + putField 19 d + putField 12 a)
  | .fcpsgnS d a b => some (0x7c000006 + putField 19 d + putField 12 a + putField 5 b)
  | .fclassS d a => some (0x7c000007 + putField 19 d + putField 12 a)
  | .fceqS d a b => some (0x7c000008 + putField 19 d + putField 12 a + putField 5 b)
  | .fcltS d a b => some (0x7c000009 + putField 19 d + putField 12 a + putField 5 b)
  | .fcleS d a b => some (0x7c00000a + putField 19 d + putField 12 a + putField 5 b)
  | .fcunS d a b => some (0x7c00000b + putField 19 d + putField 12 a + putField 5 b)
  | .fscalbS d a b => some (0x7c00000c + putField 19 d + putField 12 a + putField 5 b)
  | .fminH d a b => some (0x80000000 + putField 19 d + putField 12 a + putField 5 b)
  | .fmaxH d a b => some (0x80000001 + putField 19 d + putField 12 a + putField 5 b)
  | .fminnumH d a b => some (0x80000002 + putField 19 d + putField 12 a + putField 5 b)
  | .fmaxnumH d a b => some (0x80000003 + putField 19 d + putField 12 a + putField 5 b)
  | .fabsH d a => some (0x80000004 + putField 19 d + putField 12 a)
  | .fnegH d a => some (0x80000005 + putField 19 d + putField 12 a)
  | .fcpsgnH d a b => some (0x80000006 + putField 19 d + putField 12 a + putField 5 b)
  | .fclassH d a => some (0x80000007 + putField 19 d + putField 12 a)
  | .fceqH d a b => some (0x80000008 + putField 19 d + putField 12 a + putField 5 b)
  | .fcltH d a b => some (0x80000009 + putField 19 d + putField 12 a + putField 5 b)
  | .fcleH d a b => some (0x8000000a + putField 19 d + putField 12 a + putField 5 b)
  | .fcunH d a b => some (0x8000000b + putField 19 d + putField 12 a + putField 5 b)
  | .fscalbH d a b => some (0x8000000c + putField 19 d + putField 12 a + putField 5 b)
  | .fminB d a b => some (0x80000010 + putField 19 d + putField 12 a + putField 5 b)
  | .fmaxB d a b => some (0x80000011 + putField 19 d + putField 12 a + putField 5 b)
  | .fminnumB d a b => some (0x80000012 + putField 19 d + putField 12 a + putField 5 b)
  | .fmaxnumB d a b => some (0x80000013 + putField 19 d + putField 12 a + putField 5 b)
  | .fabsB d a => some (0x80000014 + putField 19 d + putField 12 a)
  | .fnegB d a => some (0x80000015 + putField 19 d + putField 12 a)
  | .fcpsgnB d a b => some (0x80000016 + putField 19 d + putField 12 a + putField 5 b)
  | .fclassB d a => some (0x80000017 + putField 19 d + putField 12 a)
  | .fceqB d a b => some (0x80000018 + putField 19 d + putField 12 a + putField 5 b)
  | .fcltB d a b => some (0x80000019 + putField 19 d + putField 12 a + putField 5 b)
  | .fcleB d a b => some (0x8000001a + putField 19 d + putField 12 a + putField 5 b)
  | .fcunB d a b => some (0x8000001b + putField 19 d + putField 12 a + putField 5 b)
  | .fscalbB d a b => some (0x8000001c + putField 19 d + putField 12 a + putField 5 b)
  | .fsqrtD rm d a => some (0x84000000 + putField 2 rm + putField 19 d + putField 12 a)
  | .frcpD rm d a => some (0x84000001 + putField 2 rm + putField 19 d + putField 12 a)
  | .frsqD rm d a => some (0x84000002 + putField 2 rm + putField 19 d + putField 12 a)
  | .frintD rm d a => some (0x84000003 + putField 2 rm + putField 19 d + putField 12 a)
  | .fsqrtS rm d a => some (0x88000000 + putField 2 rm + putField 19 d + putField 12 a)
  | .frcpS rm d a => some (0x88000001 + putField 2 rm + putField 19 d + putField 12 a)
  | .frsqS rm d a => some (0x88000002 + putField 2 rm + putField 19 d + putField 12 a)
  | .frintS rm d a => some (0x88000003 + putField 2 rm + putField 19 d + putField 12 a)
  | .fexp2D rm d a => some (0x8c000000 + putField 2 rm + putField 19 d + putField 12 a)
  | .flog2D rm d a => some (0x8c000001 + putField 2 rm + putField 19 d + putField 12 a)
  | .fsinpiD rm d a => some (0x8c000002 + putField 2 rm + putField 19 d + putField 12 a)
  | .fcospiD rm d a => some (0x8c000003 + putField 2 rm + putField 19 d + putField 12 a)
  | .fexp2S rm d a => some (0x90000000 + putField 2 rm + putField 19 d + putField 12 a)
  | .flog2S rm d a => some (0x90000001 + putField 2 rm + putField 19 d + putField 12 a)
  | .fsinpiS rm d a => some (0x90000002 + putField 2 rm + putField 19 d + putField 12 a)
  | .fcospiS rm d a => some (0x90000003 + putField 2 rm + putField 19 d + putField 12 a)
  | .fcvtSD rm sat d a => some (0x94000000 + putField 2 rm + putBit 1 sat + putField 19 d + putField 12 a)
  | .fcvtDS rm d a => some (0x94000020 + putField 2 rm + putField 19 d + putField 12 a)
  | .fcvtSH rm hi d a => some (0x94000040 + putField 2 rm + putBit 5 hi + putField 19 d + putField 12 a)
  | .fcvtSBf rm hi d a => some (0x94000080 + putField 2 rm + putBit 5 hi + putField 19 d + putField 12 a)
  | .fcvtHS rm sat d a => some (0x940000c0 + putField 2 rm + putBit 1 sat + putField 19 d + putField 12 a)
  | .fcvtBS rm sat d a => some (0x940000e0 + putField 2 rm + putBit 1 sat + putField 19 d + putField 12 a)
  | .fcvtSE4m3 rm sel d a => some (0x94000100 + putField 2 rm + putField 5 sel + putField 19 d + putField 12 a)
  | .fcvtSE5m2 rm sel d a => some (0x94000180 + putField 2 rm + putField 5 sel + putField 19 d + putField 12 a)
  | .fcvtSDpt8 rm sel d a => some (0x94000200 + putField 2 rm + putField 5 sel + putField 19 d + putField 12 a)
  | .fcvtSSpt4Low rm sel d a => some (0x94000280 + putField 2 rm + putField 5 sel + putField 19 d + putField 12 a)
  | .fcvtSSpt4High rm sel d a => some (0x94000300 + putField 2 rm + putField 5 sel + putField 19 d + putField 12 a)
  | .fcvtI32S rm sat d a => some (0x94000380 + putField 2 rm + putBit 1 sat + putField 19 d + putField 12 a)
  | .fcvtN32S rm sat d a => some (0x940003a0 + putField 2 rm + putBit 1 sat + putField 19 d + putField 12 a)
  | .fcvtSI32 rm d a => some (0x940003c0 + putField 2 rm + putField 19 d + putField 12 a)
  | .fcvtSN32 rm d a => some (0x940003e0 + putField 2 rm + putField 19 d + putField 12 a)
  | .fcvtI32D rm sat d a => some (0x94000400 + putField 2 rm + putBit 1 sat + putField 19 d + putField 12 a)
  | .fcvtN32D rm sat d a => some (0x94000420 + putField 2 rm + putBit 1 sat + putField 19 d + putField 12 a)
  | .fcvtDI32 rm d a => some (0x94000440 + putField 2 rm + putField 19 d + putField 12 a)
  | .fcvtDN32 rm d a => some (0x94000460 + putField 2 rm + putField 19 d + putField 12 a)
  | .fcvtI64D rm sat d a => some (0x94000480 + putField 2 rm + putBit 1 sat + putField 19 d + putField 12 a)
  | .fcvtN64D rm sat d a => some (0x940004a0 + putField 2 rm + putBit 1 sat + putField 19 d + putField 12 a)
  | .fcvtDI64 rm d a => some (0x940004c0 + putField 2 rm + putField 19 d + putField 12 a)
  | .fcvtDN64 rm d a => some (0x940004e0 + putField 2 rm + putField 19 d + putField 12 a)
  | .fpackH2 rm d a b => some (0x98000000 + putField 2 rm + putField 19 d + putField 12 a + putField 5 b)
  | .fpackB2 rm d a b => some (0x98000001 + putField 2 rm + putField 19 d + putField 12 a + putField 5 b)
  | .fpackE4m3 rm d a b => some (0x98000002 + putField 2 rm + putField 19 d + putField 12 a + putField 5 b)
  | .fpackE5m2 rm d a b => some (0x98000003 + putField 2 rm + putField 19 d + putField 12 a + putField 5 b)
  | .fdotH2 rm d a b => some (0x9c000000 + putField 2 rm + putField 19 d + putField 12 a + putField 5 b)
  | .fdotB2 rm d a b => some (0x9c000001 + putField 2 rm + putField 19 d + putField 12 a + putField 5 b)
  | .fdotE4m3 rm d a b => some (0x9c000002 + putField 2 rm + putField 19 d + putField 12 a + putField 5 b)
  | .fdotE5m2 rm d a b => some (0x9c000003 + putField 2 rm + putField 19 d + putField 12 a + putField 5 b)
  | .fqntDpt8 rm d a b => some (0xa0000000 + putField 2 rm + putField 19 d + putField 12 a + putField 5 b)
  | .fqntSpt4 rm d a b => some (0xa0000001 + putField 2 rm + putField 19 d + putField 12 a + putField 5 b)
  | .fqntScale rm d a => some (0xa0000002 + putField 2 rm + putField 19 d + putField 12 a)
  | .ld pol w d a b => some (0xa4000000 + putField 3 pol + putField 0 w + putField 19 d + putField 12 a + putField 5 b)
  | .ldi w d a off => some (0xa8000000 + putField 9 w + putField 19 d + putField 12 a + putField 0 off)
  | .st pol w d a b => some (0xac000000 + putField 3 pol + putField 0 w + putField 19 d + putField 12 a + putField 5 b)
  | .sti w d a off => some (0xb0000000 + putField 9 w + putField 19 d + putField 12 a + putField 0 off)
  | .scrLd w d a b => some (0xb4000000 + putField 0 w + putField 19 d + putField 12 a + putField 5 b)
  | .scrSt w d a b => some (0xb4000010 + putField 0 w + putField 19 d + putField 12 a + putField 5 b)
  | .acpG2s size d a b => some (0xb8000000 + putField 2 size + putField 19 d + putField 12 a + putField 5 b)
  | .acpS2g size d a b => some (0xb8000001 + putField 2 size + putField 19 d + putField 12 a + putField 5 b)
  | .atomAdd d a b => some (0xbc000000 + putField 19 d + putField 12 a + putField 5 b)
  | .atomAnd d a b => some (0xbc000001 + putField 19 d + putField 12 a + putField 5 b)
  | .atomOr d a b => some (0xbc000002 + putField 19 d + putField 12 a + putField 5 b)
  | .atomXor d a b => some (0xbc000003 + putField 19 d + putField 12 a + putField 5 b)
  | .atomMinI32 d a b => some (0xbc000004 + putField 19 d + putField 12 a + putField 5 b)
  | .atomMaxI32 d a b => some (0xbc000005 + putField 19 d + putField 12 a + putField 5 b)
  | .atomMinN32 d a b => some (0xbc000006 + putField 19 d + putField 12 a + putField 5 b)
  | .atomMaxN32 d a b => some (0xbc000007 + putField 19 d + putField 12 a + putField 5 b)
  | .atomXchg d a b => some (0xbc000008 + putField 19 d + putField 12 a + putField 5 b)
  | .atomCas d a b => some (0xbc000009 + putField 19 d + putField 12 a + putField 5 b)
  | .atomIncw d a b => some (0xbc00000a + putField 19 d + putField 12 a + putField 5 b)
  | .atomDecw d a b => some (0xbc00000b + putField 19 d + putField 12 a + putField 5 b)
  | .atomFaddS d a b => some (0xbc00000c + putField 19 d + putField 12 a + putField 5 b)
  | .atomFminS d a b => some (0xbc00000d + putField 19 d + putField 12 a + putField 5 b)
  | .atomFmaxS d a b => some (0xbc00000e + putField 19 d + putField 12 a + putField 5 b)
  | .atomFaddH2 d a b => some (0xbc00000f + putField 19 d + putField 12 a + putField 5 b)
  | .atomFaddB2 d a b => some (0xbc000010 + putField 19 d + putField 12 a + putField 5 b)
  | .atom64Add d a b => some (0xc0000000 + putField 19 d + putField 12 a + putField 5 b)
  | .atom64And d a b => some (0xc0000001 + putField 19 d + putField 12 a + putField 5 b)
  | .atom64Or d a b => some (0xc0000002 + putField 19 d + putField 12 a + putField 5 b)
  | .atom64Xor d a b => some (0xc0000003 + putField 19 d + putField 12 a + putField 5 b)
  | .atom64MinI64 d a b => some (0xc0000004 + putField 19 d + putField 12 a + putField 5 b)
  | .atom64MaxI64 d a b => some (0xc0000005 + putField 19 d + putField 12 a + putField 5 b)
  | .atom64MinN64 d a b => some (0xc0000006 + putField 19 d + putField 12 a + putField 5 b)
  | .atom64MaxN64 d a b => some (0xc0000007 + putField 19 d + putField 12 a + putField 5 b)
  | .atom64Xchg d a b => some (0xc0000008 + putField 19 d + putField 12 a + putField 5 b)
  | .atom64Cas d a b => some (0xc0000009 + putField 19 d + putField 12 a + putField 5 b)
  | .atom64Incw d a b => some (0xc000000a + putField 19 d + putField 12 a + putField 5 b)
  | .atom64Decw d a b => some (0xc000000b + putField 19 d + putField 12 a + putField 5 b)
  | .atom64FaddD d a b => some (0xc000000c + putField 19 d + putField 12 a + putField 5 b)
  | .atom64FminD d a b => some (0xc000000d + putField 19 d + putField 12 a + putField 5 b)
  | .atom64FmaxD d a b => some (0xc000000e + putField 19 d + putField 12 a + putField 5 b)
  | .redAdd a b => some (0xc4000000 + putField 12 a + putField 5 b)
  | .redAnd a b => some (0xc4000001 + putField 12 a + putField 5 b)
  | .redOr a b => some (0xc4000002 + putField 12 a + putField 5 b)
  | .redXor a b => some (0xc4000003 + putField 12 a + putField 5 b)
  | .redMinI32 a b => some (0xc4000004 + putField 12 a + putField 5 b)
  | .redMaxI32 a b => some (0xc4000005 + putField 12 a + putField 5 b)
  | .redMinN32 a b => some (0xc4000006 + putField 12 a + putField 5 b)
  | .redMaxN32 a b => some (0xc4000007 + putField 12 a + putField 5 b)
  | .redFaddS a b => some (0xc400000c + putField 12 a + putField 5 b)
  | .redFminS a b => some (0xc400000d + putField 12 a + putField 5 b)
  | .redFmaxS a b => some (0xc400000e + putField 12 a + putField 5 b)
  | .redFaddH2 a b => some (0xc400000f + putField 12 a + putField 5 b)
  | .redFaddB2 a b => some (0xc4000010 + putField 12 a + putField 5 b)
  | .redAdd64 a b => some (0xc4000014 + putField 12 a + putField 5 b)
  | .redFaddD a b => some (0xc4000015 + putField 12 a + putField 5 b)
  | .binit d a b => some (0xc8000000 + putField 19 d + putField 12 a + putField 5 b)
  | .arrive d a b => some (0xc8000001 + putField 19 d + putField 12 a + putField 5 b)
  | .arriveb d a b => some (0xc8000002 + putField 19 d + putField 12 a + putField 5 b)
  | .expect a b => some (0xc8000003 + putField 12 a + putField 5 b)
  | .bwait d a b => some (0xc8000004 + putField 19 d + putField 12 a + putField 5 b)
  | .btest d a b => some (0xc8000005 + putField 19 d + putField 12 a + putField 5 b)
  | .gsync => some (0xc8000006)
  | .tsync => some (0xc8000007)
  | .ringa d id => some (0xc8000008 + putField 19 d + putField 5 id)
  | .ringf d a id => some (0xc8000009 + putField 19 d + putField 12 a + putField 5 id)
  | .ringw d id => some (0xc800000a + putField 19 d + putField 5 id)
  | .ringe d a id => some (0xc800000b + putField 19 d + putField 12 a + putField 5 id)
  | .fenceAcq scope => some (0xcc000000 + putField 2 scope)
  | .fenceRel scope => some (0xcc000001 + putField 2 scope)
  | .fenceAr scope => some (0xcc000002 + putField 2 scope)
  | .fenceSc scope => some (0xcc000003 + putField 2 scope)
  | .fenceAcqDevPromote => some (0xcc000018)
  | .tbegin d a => some (0xd0000000 + putField 19 d + putField 12 a)
  | .tend => some (0xd0000001)
  | .tabort b => some (0xd0000002 + putField 5 b)
  | .tstat d => some (0xd0000003 + putField 19 d)
  | .cwb a b => some (0xd4000000 + putField 12 a + putField 5 b)
  | .cinv a b => some (0xd4000001 + putField 12 a + putField 5 b)
  | .cwbi a b => some (0xd4000002 + putField 12 a + putField 5 b)
  | .iinv a b => some (0xd4000003 + putField 12 a + putField 5 b)
  | .fetchb => some (0xd4000004)
  | .pref a b => some (0xd4000005 + putField 12 a + putField 5 b)
  | .acqr d a b => some (0xd8000000 + putField 19 d + putField 12 a + putField 5 b)
  | .relr d a => some (0xd8000001 + putField 19 d + putField 12 a)
  | .qryr d a => some (0xd8000002 + putField 19 d + putField 12 a)
  | .givr d a b => some (0xd8000003 + putField 19 d + putField 12 a + putField 5 b)
  | .poolGrow role d a b => some (0xdc000000 + putField 0 role + putField 19 d + putField 12 a + putField 5 b)
  | .poolShrink role d a b => some (0xdc000004 + putField 0 role + putField 19 d + putField 12 a + putField 5 b)
  | .poolQuery role d => some (0xdc000008 + putField 0 role + putField 19 d)
  | .poolMap d a => some (0xdc00000c + putField 19 d + putField 12 a)
  | .poolStat d => some (0xdc000010 + putField 19 d)
  | .tshape d a b => some (0xe0000000 + putField 19 d + putField 12 a + putField 5 b)
  | .tld d a b => some (0xe0000001 + putField 19 d + putField 12 a + putField 5 b)
  | .tldt d a b => some (0xe0000002 + putField 19 d + putField 12 a + putField 5 b)
  | .tst d a b => some (0xe0000003 + putField 19 d + putField 12 a + putField 5 b)
  | .tzero d => some (0xe0000004 + putField 19 d)
  | .trdr d a b => some (0xe0000005 + putField 19 d + putField 12 a + putField 5 b)
  | .twrr d a b => some (0xe0000006 + putField 19 d + putField 12 a + putField 5 b)
  | .tlatch d => some (0xe0000007 + putField 19 d)
  | .tlsf d a b => some (0xe0000008 + putField 19 d + putField 12 a + putField 5 b)
  | .mfence => some (0xe0000009)
  | .mwait b => some (0xe000000a + putField 5 b)
  | .mseq d a => some (0xe000000b + putField 19 d + putField 12 a)
  | .mcw d a => some (0xe000000c + putField 19 d + putField 12 a)
  | .mcrd d k => some (0xe000000d + putField 19 d + putField 5 k)
  | .tmov d a => some (0xe000000e + putField 19 d + putField 12 a)
  | .mmaWin lat acc d a b => some (0xe4000000 + putBit 4 lat + putField 2 acc + putField 19 d + putField 12 a + putField 5 b)
  | .mmaSeq lat acc d a b => some (0xe4000001 + putBit 4 lat + putField 2 acc + putField 19 d + putField 12 a + putField 5 b)
  | .engCpy d a => some (0xe8000000 + putField 19 d + putField 12 a)
  | .engBin d a => some (0xe8000001 + putField 19 d + putField 12 a)
  | .engMig d a => some (0xe8000002 + putField 19 d + putField 12 a)
  | .ewait b => some (0xe8000003 + putField 5 b)
  | .estat d a => some (0xe8000004 + putField 19 d + putField 12 a)
  | .nmcall d a b => some (0xec000000 + putField 19 d + putField 12 a + putField 5 b)
  | .nmret a => some (0xec000001 + putField 12 a)
  | .nmwalk d a b => some (0xec000002 + putField 19 d + putField 12 a + putField 5 b)
  | .fred op a b => some (0xec000003 + putField 19 op + putField 12 a + putField 5 b)
  | .qpush d a b => some (0xf0000000 + putField 19 d + putField 12 a + putField 5 b)
  | .qpop d a b => some (0xf0000001 + putField 19 d + putField 12 a + putField 5 b)
  | .qfree d a => some (0xf0000002 + putField 19 d + putField 12 a)
  | .launch d a => some (0xf0000003 + putField 19 d + putField 12 a)
  | .lrel d a => some (0xf0000004 + putField 19 d + putField 12 a)
  | .lpatch d a b => some (0xf0000005 + putField 19 d + putField 12 a + putField 5 b)
  | .waitw cond a b => some (0xf4000000 + putField 19 cond + putField 12 a + putField 5 b)
  | .yield => some (0xf4000001)
  | .sleep a => some (0xf4000002 + putField 12 a)
  | .waitx a b => some (0xf4000003 + putField 12 a + putField 5 b)
  | .rdsr d n => some (0xf8000000 + putField 19 d + putField 5 n)
  | .wrsr a n => some (0xf8000001 + putField 12 a + putField 5 n)
  | .tlbinv a b => some (0xf8000002 + putField 12 a + putField 5 b)
  | .vpurge a b => some (0xf8000003 + putField 12 a + putField 5 b)
  | .attrchg d a b => some (0xf8000004 + putField 19 d + putField 12 a + putField 5 b)
  | .tret => some (0xf8000005)
  | .haltc => some (0xf8000006)
  | .trap code => some (0xfc000000 + putField 0 code)
  | .brk => some (0xfc000000)
  | .evLoadLanding _ _ => none
  | .evSleepExpiry _ _ _ => none
  | .evAcpPartLanding _ _ => none
  | .evSliceAccess _ => none
  | .evL1Eviction _ _ _ => none
  | .evAlbFill _ _ _ => none
  | .evPageWalk _ _ => none
  | .evFaultRecordWrite _ => none
  | .evFaultReplyResume _ _ _ _ => none
  | .evFaultReplyDeliver _ _ _ _ => none
  | .evFaultReplyExit _ _ _ _ => none
  | .evFaultReplyAck _ _ => none
  | .evHolLaunch _ _ _ => none
  | .evInputQueuePop _ => none
  | .evPlaceTeam => none
  | .evTeamEnd _ => none
  | .evLaunchComplete _ => none
  | .evWaitSwapTimeout _ => none
  | .evTeamSave _ => none
  | .evPriorityAgeing _ => none
  | .evTeamRestore _ => none
  | .evWatchdogExpiry _ => none
  | .evContinue _ => none
  | .evKill _ => none
  | .evBankDrain _ => none
  | .evBankRelocation _ => none
  | .evShrinkQuiesce _ => none
  | .evPoolCommit _ => none
  | .evTlatchPerform _ => none
  | .evMmaComplete _ => none
  | .evMseqStep _ => none
  | .evCpyExecution _ => none
  | .evBinExecution _ => none
  | .evMigrationPage _ => none
  | .evCallStart _ => none
  | .evCallCompletion _ => none
  | .evCallBudgetExpiry _ => none
  | .evChannelComputeResume _ _ => none
  | .evWalkRecord _ => none
  | .evFredInMemory _ => none
  | .evLinkReadRequest _ _ _ => none
  | .evLinkWriteRequest _ _ _ _ => none
  | .evLinkAtomicRequest _ _ _ _ _ _ => none
  | .evLinkRefusedRequest _ => none
  | .evLinkCompletion _ _ _ => none
  | .evReductionPacket _ _ _ => none
  | .evExchangeClose _ => none
  | .evExchangeOptimise _ => none
  | .evExchangeBroadcast _ => none
  | .evExchangeErrorPath _ => none
  | .evDescriptorValidate _ => none
  | .evExchangeTableBase _ _ _ => none
  | .evDeviceReset => none
  | .evImageWrite _ _ => none
  | .evImageCheck => none
  | .evStackMapWrite _ _ => none
  | .evLivenessWrite _ _ _ => none
  | .evFirmwareStart => none
  | .evBootTrainingTimeout => none
  | .evTrainstRead _ _ => none
  | .evBootReady => none
  | .evPatctlWrite _ _ _ => none
  | .evPatternTestDone _ _ => none
  | .evRxdlyWrite _ _ _ _ => none
  | .evTxdlyWrite _ _ _ _ => none
  | .evLanemapWrite _ _ _ _ => none
  | .evTrainstWrite _ _ _ => none
  | .evLgcfgWrite _ _ _ => none
  | .evLaneTurnaroundDone _ _ => none
  | .evCounterClear _ _ _ => none
  | .evCapctlWrite _ _ => none
  | .evEvptrWrite _ _ => none
  | .evRegisterWrite _ _ => none
  | .evCaptureWindowEnd _ => none
  | .evDramAlert _ _ _ _ _ _ => none
  | .evRefreshInterval _ => none
  | .evRegionFillDone _ _ => none
  | .evHostRead _ _ => none
  | .evHostWrite _ _ => none
  | .evReadData _ _ => none
  | .evWriteAck _ => none
  | .evHolUnknownMessage => none
  | .evHolLinkDown => none
  | .evHolLinkUp => none
  | .evContextCreate _ _ _ _ _ _ => none
  | .evQueueCreate _ _ _ => none
  | .evQueueDestroy _ => none
  | .evAttestationRequest _ => none
  | .evIdentityRead => none
  | .evSecurityCounterRaise _ => none
  | .evOccupancyRead _ => none
  | .evPowerSample _ _ => none
  | .evThermalThrottle => none
  | .evThermalTrip => none
  | .evHolBadCrc => none
  | .evCoreReenable _ => none

end Sys2Proof
end

