-- ==== Sys2Proof/Config.lean ====
section
/-! DEFINITION. What an implementation fixes and the spec does not give: free values and fixed device functions. None of the
opaque constants has a body, so nothing can be proved about its values. Each is named in the assumption log (DESIGN CHOICE log 7). -/

namespace Sys2Proof.Config

/-- The n-th undefined byte the machine delivers, where the spec calls a value undefined (DESIGN CHOICE log 7). -/
opaque freeByte : Nat → Byte

/-- The error of the internal value of FRSQ, in units of 2^-72 of the last place and cut to the bound of R118: a fixed function of the
format (true for FP64) and the operand, the same in every mode, that R118 does not publish. -/
opaque rsqError : Bool → BitVec 64 → Int

/-- Which of the results R119 allows FTR delivers: a fixed function of operation, format, operand and mode. -/
opaque transChoice : BitVec 2 → Bool → BitVec 64 → BitVec 3 → Nat

/-- Whether a line with five or more symbol errors is taken for a correctable one (R459 gives no guarantee): the data bytes it
then delivers, or none. -/
opaque miscorrect : List (Nat × Byte) → List Byte → Option (List Byte)

/-- The result word of the n-th pattern test: the electrical state of 19 physical lanes (R447). -/
opaque laneTest : Nat → BitVec 32

/-- Whether the channel controller has to open the row of an access to DRAM, by the tick and the address: the spec gives a tracker that counts row
activations and not when a row is closed (R461). -/
opaque opensRow : Nat → Nat → Bool

/-- The hash of R393 of an ASID and the number of a line, of which a slice number takes the low bits. -/
opaque sliceHash : Nat → Nat → Nat

/-- The 256-bit fused device secret (R474). -/
opaque fusedSecret : BitVec 256

/-- The number that the root of trust derives from a fused secret for the identity key: R474 does not give the derivation. -/
opaque identityKey : BitVec 256 → Nat

/-- The Liaskaz certificate of the identity public key (R474). -/
opaque identityCertificate : List Byte

/-- The nonce of the ECDSA signature of a digest (R475 does not say how it is made). -/
opaque signNonce : List Byte → Nat

/-- The fused digests of the two public keys, ECDSA then LMS (R471). -/
opaque fusedKeyDigests : List Byte × List Byte

/-- The device serial of the fuses, 16 bytes (R475). -/
opaque deviceSerial : List Byte

/-- CRC-32C, optical framing and other link-level values are not modelled; the pod id of this device is a fuse of the device
(R426, R427 give ids 0 to 1,023 and not where the id comes from). -/
opaque deviceId : Nat

end Sys2Proof.Config
end

