-- ==== Sys2Proof/Machine/Flags.lean ====
section
/-! DEFINITION. The floating-point flags of %fx (01 R28, 04 R104), the rounding modes (01 R46), and the rounding of an exact
magnitude with the flags it reports (14 R326 to R330). -/

namespace Sys2Proof.Machine

open Sys2Proof

/-- NV, invalid operation: bit 0 of %fx (R28). -/
def fxNV : Word := 1
/-- DZ, divide by zero: bit 1. -/
def fxDZ : Word := 2
/-- OF, overflow: bit 2. -/
def fxOF : Word := 4
/-- UF, underflow: bit 3. -/
def fxUF : Word := 8
/-- NX, inexact: bit 4. -/
def fxNX : Word := 16
/-- LS, lost significance in a windowed sum: bit 5. -/
def fxLS : Word := 32

/-- `f` when `b`, else no flag. -/
def flagIf (b : Bool) (f : Word) : Word := if b then f else 0

/-- The rounding modes (R46). -/
inductive Rm where
  | rn | rz | ru | rd | ra | sr | ro
  deriving DecidableEq, Repr

/-- The mode of an rm field; 7 never reaches a meaning, because the decoder refuses it (R24, R46). -/
def rmOf (r : BitVec 3) : Rm :=
  match r.toNat with
  | 0 => .rn
  | 1 => .rz
  | 2 => .ru
  | 3 => .rd
  | 4 => .ra
  | 5 => .sr
  | _ => .ro

/-- One advance of a generator (R333). -/
def srNext (s : Word) : Word :=
  let a := s ^^^ (s <<< 13)
  let b := a ^^^ (a >>> 17)
  b ^^^ (b <<< 5)

/-- A seed as a generator state: 0 is taken as 1 (R78, R334). -/
def srSeed (s : Word) : Word := if s = 0 then 1 else s

/-- A positive magnitude: exactly m * 2^e, or, with `st`, some value strictly between m * 2^e and (m + 1) * 2^e. -/
structure Mag where
  m : Nat
  e : Int
  st : Bool
  deriving DecidableEq, Repr

/-- The exponent of the leading bit. -/
def Mag.lead (x : Mag) : Int := x.e + (Nat.log2 x.m : Int)

/-- What a magnitude is against the grid of step 2^k: the grid point below it, whether it is on the grid, how its distance to
the point below compares with half a step, and the first 32 bits of that distance with whether these are exact. -/
structure GridPos where
  lo : Nat
  exact : Bool
  half : Ordering
  frac : Nat
  fracExact : Bool
  deriving DecidableEq, Repr

def gridPos (x : Mag) (k : Int) : GridPos :=
  if k ≤ x.e then { lo := x.m * 2 ^ (x.e - k).toNat, exact := !x.st, half := .lt, frac := 0, fracExact := !x.st }
  else
    let sh := (k - x.e).toNat
    let r := x.m % 2 ^ sh
    let h := 2 ^ (sh - 1)
    { lo := x.m / 2 ^ sh, exact := r == 0 && !x.st,
      half := if r < h then .lt else if r == h && !x.st then .eq else .gt,
      frac := r * 2 ^ 32 / 2 ^ sh, fracExact := (r * 2 ^ 32 % 2 ^ sh == 0) && !x.st }

/-- R335 for a magnitude between two neighbours: whether the outer neighbour is delivered. `frac` counts from the inner one, so
for a negative value the fraction from `lo` is its complement. -/
def srOuter (neg : Bool) (frac : Nat) (fracExact : Bool) (s : Word) : Bool :=
  if neg then
    let f := if fracExact then 2 ^ 32 - frac else 2 ^ 32 - 1 - frac
    !decide (f > s.toNat)
  else decide (frac > s.toNat)

/-- R327 and R329: whether the neighbour of larger magnitude is chosen. -/
def roundsOut (rm : Rm) (neg : Bool) (s : Word) (g : GridPos) : Bool :=
  if g.exact then false
  else match rm with
    | .rn => match g.half with
      | .lt => false
      | .gt => true
      | .eq => g.lo % 2 == 1
    | .rz => false
    | .ru => !neg
    | .rd => neg
    | .ra => match g.half with
      | .lt => false
      | _ => true
    | .sr => srOuter neg g.frac g.fracExact s
    | .ro => g.lo % 2 == 0

/-- The grid point of step 2^k that `rm` chooses, and whether it differs from the magnitude. -/
def roundGrid (rm : Rm) (neg : Bool) (s : Word) (x : Mag) (k : Int) : Nat × Bool :=
  let g := gridPos x k
  (if roundsOut rm neg s g then g.lo + 1 else g.lo, !g.exact)

end Sys2Proof.Machine
end

