-- ==== Sys2Proof/Machine/Numbers.lean ====
section
/-! DEFINITION. Formats, decoding, rounding and exact arithmetic (14 R319 to R348) and the scalar operations of 04. -/

namespace Sys2Proof.Machine

open Sys2Proof

/-! ## Formats -/

/-- A binary format of R319: fraction and exponent widths, bias, and whether it is E4M3 (no infinity, one NaN fraction) or has
only quiet NaNs (R322). -/
structure Fmt where
  m : Nat
  eb : Nat
  bias : Nat
  e4m3 : Bool
  quiet : Bool
  deriving DecidableEq, Repr

def f64 : Fmt := { m := 52, eb := 11, bias := 1023, e4m3 := false, quiet := false }
def f32 : Fmt := { m := 23, eb := 8, bias := 127, e4m3 := false, quiet := false }
def f16 : Fmt := { m := 10, eb := 5, bias := 15, e4m3 := false, quiet := false }
def bf16 : Fmt := { m := 7, eb := 8, bias := 127, e4m3 := false, quiet := false }
def e5m2 : Fmt := { m := 2, eb := 5, bias := 15, e4m3 := false, quiet := true }
def e4m3 : Fmt := { m := 3, eb := 4, bias := 7, e4m3 := true, quiet := true }

/-- The precision, implicit bit counted. -/
def Fmt.p (f : Fmt) : Nat := f.m + 1

/-- The width in bits. -/
def Fmt.w (f : Fmt) : Nat := 1 + f.eb + f.m

/-- The exponent of the smallest normal. -/
def Fmt.emin (f : Fmt) : Int := 1 - f.bias

/-- The exponent of the smallest subnormal. -/
def Fmt.qmin (f : Fmt) : Int := 1 - f.bias - f.m

/-- The all-ones exponent field. -/
def Fmt.ones (f : Fmt) : Nat := 2 ^ f.eb - 1

/-- The largest finite magnitude M as (significand, exponent) (R321). -/
def Fmt.max (f : Fmt) : Nat × Int :=
  if f.e4m3 then (14, 5) else (2 ^ (f.m + 1) - 1, (f.ones : Int) - 1 - f.bias - f.m)

/-- The encoding of M without its sign. -/
def Fmt.maxBits (f : Fmt) : Nat := if f.e4m3 then 0x7e else f.ones * 2 ^ f.m - 1

/-- The encoding of infinity without its sign; E4M3 delivers its largest number in its place (R330). -/
def Fmt.infBits (f : Fmt) : Nat := if f.e4m3 then 0x7e else f.ones * 2 ^ f.m

/-- The canonical NaN (R105, R321). -/
def Fmt.nanBits (f : Fmt) : Nat := if f.e4m3 then 0x7f else f.ones * 2 ^ f.m + 2 ^ (f.m - 1)

/-- The sign bit at its place. -/
def Fmt.signBit (f : Fmt) (neg : Bool) : Nat := if neg then 2 ^ (f.eb + f.m) else 0

/-- An exact value: NaN, an infinity, or (-1)^neg * m * 2^e. A signalling NaN also stands for the NaN of an invalid product. -/
inductive Num where
  | nan (signalling : Bool)
  | inf (neg : Bool)
  | fin (neg : Bool) (m : Nat) (e : Int)
  deriving DecidableEq, Repr

/-- `decode(fmt, bits)` (R320). -/
def decodeNum (f : Fmt) (bits : Nat) : Num :=
  let neg := bits / 2 ^ (f.eb + f.m) % 2 == 1
  let e := bits / 2 ^ f.m % 2 ^ f.eb
  let fr := bits % 2 ^ f.m
  if e == 0 then .fin neg fr f.qmin
  else if e == f.ones && f.e4m3 && fr == 7 then .nan false
  else if e == f.ones && !f.e4m3 then
    if fr == 0 then .inf neg else .nan (!f.quiet && decide (fr < 2 ^ (f.m - 1)))
  else .fin neg (2 ^ f.m + fr) (e - f.bias - f.m)

def Num.isNan : Num → Bool
  | .nan _ => true
  | _ => false

def Num.isSnan : Num → Bool
  | .nan s => s
  | _ => false

def Num.isInf : Num → Bool
  | .inf _ => true
  | _ => false

def Num.isZero : Num → Bool
  | .fin _ m _ => m == 0
  | _ => false

def Num.neg : Num → Bool
  | .nan _ => false
  | .inf s => s
  | .fin s _ _ => s

/-- The value with its sign inverted; a NaN stays as it is. -/
def Num.negate : Num → Num
  | .nan s => .nan s
  | .inf s => .inf (!s)
  | .fin s m e => .fin (!s) m e

/-- A result: its encoding and the flags it sets. -/
structure FRes where
  bits : Nat
  flags : Word
  deriving DecidableEq, Repr

/-- The encoding of the grid point n * 2^k of the format: n below 2^p, or 2^p itself. -/
def Fmt.encodeGrid (f : Fmt) (neg : Bool) (n : Nat) (k : Int) : Nat :=
  f.signBit neg + (if n = 0 then 0 else ((k + f.m + f.bias).toNat * 2 ^ f.m + n - 2 ^ f.m))

/-- Whether n * 2^k exceeds M. -/
def Fmt.exceeds (f : Fmt) (n : Nat) (k : Int) : Bool :=
  let (mm, me) := f.max
  if k ≤ me then decide (n > mm * 2 ^ (me - k).toNat) else decide (n * 2 ^ (k - me).toNat > mm)

/-- What an overflow delivers (R327, R330). -/
def Fmt.overflowBits (f : Fmt) (rm : Rm) (neg : Bool) : Nat :=
  f.signBit neg + (match rm with
    | .rn | .ra | .sr => f.infBits
    | .rz | .ro => f.maxBits
    | .ru => if neg then f.maxBits else f.infBits
    | .rd => if neg then f.infBits else f.maxBits)

/-- `round` of a non-zero finite value given by its sign and magnitude (R326 to R328, R330). `sat` delivers the largest finite
magnitude on overflow (R122). UF follows the third bullet of R328, so also where the delivered value is the smallest normal and the rounding
with an unbounded exponent range stays below it (DEDUCED log 66). -/
def roundMag (f : Fmt) (rm : Rm) (s : Word) (sat : Bool) (neg : Bool) (x : Mag) : FRes :=
  let k0 := x.lead - f.m
  let k := if k0 < f.qmin then f.qmin else k0
  let (n, inexact) := roundGrid rm neg s x k
  if f.exceeds n k then
    { bits := if sat then f.signBit neg + f.maxBits else f.overflowBits rm neg, flags := fxOF ||| fxNX }
  else
    let (n0, _) := roundGrid rm neg s x k0
    let tiny := decide (k0 < f.qmin) && decide (n0 < 2 ^ (f.emin - k0).toNat)
    { bits := f.encodeGrid neg n k,
      flags := flagIf inexact fxNX ||| flagIf (inexact && tiny && n != 0) fxUF }

/-- `round` of any value; the sign of a zero is the one it carries (R106). -/
def roundNum (f : Fmt) (rm : Rm) (s : Word) (sat : Bool) : Num → FRes
  | .nan sig => { bits := f.nanBits, flags := flagIf sig fxNV }
  | .inf neg => { bits := f.signBit neg + f.infBits, flags := flagIf f.e4m3 (fxOF ||| fxNX) }
  | .fin neg m e =>
    if m = 0 then { bits := f.signBit neg, flags := 0 }
    else roundMag f rm s sat neg { m := m, e := e, st := false }

/-! ## Exact sums and products -/

/-- The value as a multiple of 2^e, for e at most its own exponent. -/
def scaledInt (neg : Bool) (m : Nat) (e0 e : Int) : Int :=
  let v : Int := m * 2 ^ (e0 - e).toNat
  if neg then -v else v

/-- An integer multiple of 2^e as a value; zero takes the sign given. -/
def Num.ofInt (v : Int) (e : Int) (zeroNeg : Bool) : Num :=
  if v = 0 then .fin zeroNeg 0 0 else .fin (decide (v < 0)) v.natAbs e

/-- The exact sum of two values, with the sign of a zero sum (R106) and the invalid cases (R109). -/
def addNum (rm : Rm) (x y : Num) : Num :=
  match x, y with
  | .nan a, .nan b => .nan (a || b)
  | .nan a, _ => .nan a
  | _, .nan b => .nan b
  | .inf a, .inf b => if a == b then .inf a else .nan true
  | .inf a, .fin _ _ _ => .inf a
  | .fin _ _ _, .inf b => .inf b
  | .fin a ma ea, .fin b mb eb =>
    let e := if ea ≤ eb then ea else eb
    let zneg := if ma == 0 && mb == 0 && a == b then a else rm == .rd
    Num.ofInt (scaledInt a ma ea e + scaledInt b mb eb e) e zneg

/-- The exact product (R109); 0 times infinity is the invalid NaN, whatever else. -/
def mulNum (x y : Num) : Num :=
  match x, y with
  | .nan a, .nan b => .nan (a || b)
  | .nan a, _ => .nan a
  | _, .nan b => .nan b
  | .inf a, .inf b => .inf (a != b)
  | .inf a, .fin b m _ => if m = 0 then .nan true else .inf (a != b)
  | .fin a m _, .inf b => if m = 0 then .nan true else .inf (a != b)
  | .fin a ma ea, .fin b mb eb => .fin (a != b) (ma * mb) (ea + eb)

/-! ## The arithmetic of FAR, FMA and FUN -/

/-- FADD (R109). -/
def fAdd (f : Fmt) (rm : Rm) (s : Word) (x y : Nat) : FRes :=
  roundNum f rm s false (addNum rm (decodeNum f x) (decodeNum f y))

/-- FSUB: FADD with the sign of y inverted (R109). -/
def fSub (f : Fmt) (rm : Rm) (s : Word) (x y : Nat) : FRes :=
  roundNum f rm s false (addNum rm (decodeNum f x) (decodeNum f y).negate)

/-- FMUL (R109). -/
def fMul (f : Fmt) (rm : Rm) (s : Word) (x y : Nat) : FRes :=
  roundNum f rm s false (mulNum (decodeNum f x) (decodeNum f y))

/-- The quotient of two non-zero magnitudes, to more than 100 bits. -/
def divMag (ma : Nat) (ea : Int) (mb : Nat) (eb : Int) : Mag :=
  let n := ma * 2 ^ 160
  { m := n / mb, e := ea - eb - 160, st := n % mb != 0 }

/-- Division (R109). -/
def divNum (f : Fmt) (rm : Rm) (s : Word) (x y : Num) : FRes :=
  match x, y with
  | .nan a, .nan b => { bits := f.nanBits, flags := flagIf (a || b) fxNV }
  | .nan a, _ => { bits := f.nanBits, flags := flagIf a fxNV }
  | _, .nan b => { bits := f.nanBits, flags := flagIf b fxNV }
  | .inf _, .inf _ => { bits := f.nanBits, flags := fxNV }
  | .inf a, .fin b _ _ => { bits := f.signBit (a != b) + f.infBits, flags := 0 }
  | .fin a _ _, .inf b => { bits := f.signBit (a != b), flags := 0 }
  | .fin a ma ea, .fin b mb eb =>
    if mb = 0 then
      if ma = 0 then { bits := f.nanBits, flags := fxNV }
      else { bits := f.signBit (a != b) + f.infBits, flags := fxDZ }
    else if ma = 0 then { bits := f.signBit (a != b), flags := 0 }
    else roundMag f rm s false (a != b) (divMag ma ea mb eb)

/-- FDIV. -/
def fDiv (f : Fmt) (rm : Rm) (s : Word) (x y : Nat) : FRes := divNum f rm s (decodeNum f x) (decodeNum f y)

/-- The sum of two exact terms, rounded once (R110). -/
def fmaNum (f : Fmt) (rm : Rm) (s : Word) (t1 t2 : Num) : FRes := roundNum f rm s false (addNum rm t1 t2)

/-- FMAC: d + a * b (R110). -/
def fMac (f : Fmt) (rm : Rm) (s : Word) (d a b : Nat) : FRes :=
  fmaNum f rm s (decodeNum f d) (mulNum (decodeNum f a) (decodeNum f b))

/-- FMSC: d - a * b. -/
def fMsc (f : Fmt) (rm : Rm) (s : Word) (d a b : Nat) : FRes :=
  fmaNum f rm s (decodeNum f d) (mulNum (decodeNum f a) (decodeNum f b)).negate

/-- FNMAC: -d - a * b. -/
def fNmac (f : Fmt) (rm : Rm) (s : Word) (d a b : Nat) : FRes :=
  fmaNum f rm s (decodeNum f d).negate (mulNum (decodeNum f a) (decodeNum f b)).negate

/-- FNMSC: a * b - d. -/
def fNmsc (f : Fmt) (rm : Rm) (s : Word) (d a b : Nat) : FRes :=
  fmaNum f rm s (mulNum (decodeNum f a) (decodeNum f b)) (decodeNum f d).negate

/-- Bit `i` and below of an integer square root of `n`, added to `r`. -/
def isqrtBits (n : Nat) : Nat → Nat → Nat
  | 0, r => r
  | i + 1, r =>
    let r' := r + 2 ^ i
    isqrtBits n i (if r' * r' ≤ n then r' else r)

/-- The integer square root of a number below 2^512. -/
def isqrt (n : Nat) : Nat := isqrtBits n 256 0

/-- The square root of a non-zero magnitude, to more than 100 bits. -/
def sqrtMag (m : Nat) (e : Int) : Mag :=
  let odd := e % 2 == 1
  let m' := (if odd then m * 2 else m) * 2 ^ 240
  let e' := (if odd then e - 1 else e) - 240
  let r := isqrt m'
  { m := r, e := e' / 2, st := r * r != m' }

/-- The reciprocal square root of a non-zero magnitude, to more than 100 bits. -/
def rsqMag (m : Nat) (e : Int) : Mag :=
  let odd := e % 2 == 1
  let m' := if odd then m * 2 else m
  let e' := if odd then e - 1 else e
  let r := isqrt (2 ^ 400 / m')
  { m := r, e := -(e' / 2) - 200, st := r * r * m' != 2 ^ 400 }

/-- FSQRT (R117). -/
def fSqrt (f : Fmt) (rm : Rm) (s : Word) (x : Nat) : FRes :=
  match decodeNum f x with
  | .nan sig => { bits := f.nanBits, flags := flagIf sig fxNV }
  | .inf neg => if neg then { bits := f.nanBits, flags := fxNV } else { bits := f.infBits, flags := 0 }
  | .fin neg m e =>
    if m = 0 then { bits := f.signBit neg, flags := 0 }
    else if neg then { bits := f.nanBits, flags := fxNV }
    else roundMag f rm s false false (sqrtMag m e)

/-- FRCP (R117). -/
def fRcp (f : Fmt) (rm : Rm) (s : Word) (x : Nat) : FRes := divNum f rm s (.fin false 1 0) (decodeNum f x)

/-- The internal value of FRSQ for the exact value v (R118): v with the error that the device makes for this operand and format, cut to
the bound of R118, 2^-(p + 8) of v, in units of 2^-72 of the last place, two of which the cut leaves out at each end (DESIGN CHOICE log 7). -/
def rsqValue (f : Fmt) (x : Nat) (v : Mag) : Mag :=
  let u := v.lead - f.p - 72
  let y0 : Nat := v.m * 2 ^ (v.e - u).toNat / 2 ^ (u - v.e).toNat
  let bound : Int := (y0 / 2 ^ (f.p + 8) : Nat) - 1
  let d := max (-bound) (min bound (Config.rsqError (f.m == 52) (BitVec.ofNat 64 x)))
  { m := ((y0 : Int) + d).toNat, e := u, st := false }

/-- FRSQ of a value whose exact result v is not representable (R118): the named side in RU, RD and RZ; in the other modes the internal value
rounded, kept to the two neighbours of v. -/
def rsqInexact (f : Fmt) (rm : Rm) (s : Word) (x : Nat) (v : Mag) : FRes :=
  let k := v.lead - f.m
  let lo := (gridPos v k).lo
  let n := match rm with
    | .ru => lo + 1
    | .rd => lo
    | .rz => lo
    | _ => Nat.max lo (Nat.min (lo + 1) (roundGrid rm false s (rsqValue f x v) k).1)
  { bits := f.encodeGrid false n k, flags := fxNX }

/-- FRSQ (R117, R118). -/
def fRsq (f : Fmt) (rm : BitVec 3) (s : Word) (x : Nat) : FRes :=
  match decodeNum f x with
  | .nan sig => { bits := f.nanBits, flags := flagIf sig fxNV }
  | .inf neg => if neg then { bits := f.nanBits, flags := fxNV } else { bits := 0, flags := 0 }
  | .fin neg m e =>
    if m = 0 then { bits := f.signBit neg + f.infBits, flags := fxDZ }
    else if neg then { bits := f.nanBits, flags := fxNV }
    else
      let v := rsqMag m e
      if v.st then rsqInexact f (rmOf rm) s x v else roundMag f .rz s false false v

/-- The integral rounding of R329: the magnitude as an integer and whether it changed. -/
def roundIntegral (rm : Rm) (neg : Bool) (s : Word) (m : Nat) (e : Int) : Nat × Bool :=
  if e ≥ 0 then (m * 2 ^ e.toNat, false) else roundGrid rm neg s { m := m, e := e, st := false } 0

/-- FRINT (R117): never UF or OF. -/
def fRint (f : Fmt) (rm : Rm) (s : Word) (x : Nat) : FRes :=
  match decodeNum f x with
  | .nan sig => { bits := f.nanBits, flags := flagIf sig fxNV }
  | .inf _ => { bits := x, flags := 0 }
  | .fin neg m e =>
    if e ≥ 0 || m == 0 then { bits := x, flags := 0 }
    else
      let (n, inexact) := roundIntegral rm neg s m e
      let r := if n = 0 then f.signBit neg
        else f.encodeGrid neg (n * 2 ^ (f.m - Nat.log2 n)) ((Nat.log2 n : Int) - f.m)
      { bits := r, flags := flagIf inexact fxNX }

/-! ## FMS: selection, sign, class and comparison (R111 to R116) -/

/-- x < y for two values that are no NaN. -/
def ltNum (x y : Num) : Bool :=
  match x, y with
  | .inf a, .inf b => a && !b
  | .inf a, _ => a
  | _, .inf b => !b
  | .fin a ma ea, .fin b mb eb =>
    let e := if ea ≤ eb then ea else eb
    decide (scaledInt a ma ea e < scaledInt b mb eb e)
  | _, _ => false

/-- x = y for two values that are no NaN; the two zeros are equal. -/
def eqNum (x y : Num) : Bool := !x.isNan && !y.isNan && !ltNum x y && !ltNum y x

/-- The smaller (or larger) encoding of two values that are no NaN, with -0 below +0 (R111, R112). -/
def pickBits (larger : Bool) (f : Fmt) (x y : Nat) : Nat :=
  let a := decodeNum f x
  let b := decodeNum f y
  let less := ltNum a b || (eqNum a b && a.neg && !b.neg)
  if less != larger then x else y

/-- FMIN, FMAX (R112). -/
def fMinMax (larger : Bool) (f : Fmt) (x y : Nat) : FRes :=
  let a := decodeNum f x
  let b := decodeNum f y
  { bits := if a.isNan || b.isNan then f.nanBits else pickBits larger f x y,
    flags := flagIf (a.isSnan || b.isSnan) fxNV }

/-- FMINNUM, FMAXNUM (R112). -/
def fMinMaxNum (larger : Bool) (f : Fmt) (x y : Nat) : FRes :=
  let a := decodeNum f x
  let b := decodeNum f y
  { bits := if a.isNan && b.isNan then f.nanBits else if a.isNan then y else if b.isNan then x else pickBits larger f x y,
    flags := flagIf (a.isSnan || b.isSnan) fxNV }

/-- The encoding with the given sign; a NaN becomes canonical (R112). -/
def withSign (f : Fmt) (x : Nat) (neg : Bool) : FRes :=
  { bits := if (decodeNum f x).isNan then f.nanBits else x % 2 ^ (f.eb + f.m) + f.signBit neg, flags := 0 }

/-- The sign bit of an encoding. -/
def signOf (f : Fmt) (x : Nat) : Bool := x / 2 ^ (f.eb + f.m) % 2 == 1

/-- FABS, FNEG, FCPSGN. -/
def fAbs (f : Fmt) (x : Nat) : FRes := withSign f x false
def fNeg (f : Fmt) (x : Nat) : FRes := withSign f x (!signOf f x)
def fCpsgn (f : Fmt) (x y : Nat) : FRes := withSign f x (signOf f y)

/-- FCLASS (R114). -/
def fClass (f : Fmt) (x : Nat) : Nat :=
  match decodeNum f x with
  | .nan sig => if sig then 2 ^ 8 else 2 ^ 9
  | .inf neg => if neg then 1 else 2 ^ 7
  | .fin neg m _ =>
    if m = 0 then (if neg then 2 ^ 3 else 2 ^ 4)
    else if m < 2 ^ f.m then (if neg then 2 ^ 2 else 2 ^ 5)
    else (if neg then 2 else 2 ^ 6)

/-- The comparisons of R113. -/
inductive FCmp where
  | eq | lt | le | un
  deriving DecidableEq, Repr

/-- FCEQ, FCLT, FCLE, FCUN: the truth and the flags (R113). -/
def fCompare (c : FCmp) (f : Fmt) (x y : Nat) : Bool × Word :=
  let a := decodeNum f x
  let b := decodeNum f y
  let nan := a.isNan || b.isNan
  let sig := a.isSnan || b.isSnan
  match c with
  | .eq => (!nan && eqNum a b, flagIf sig fxNV)
  | .lt => (!nan && ltNum a b, flagIf nan fxNV)
  | .le => (!nan && (ltNum a b || eqNum a b), flagIf nan fxNV)
  | .un => (nan, flagIf sig fxNV)

/-- FSCALB (R115). Beyond 8,192 either way the result no longer depends on the size of k. -/
def fScalb (f : Fmt) (x : Nat) (k0 : Int) : FRes :=
  let k : Int := if k0 > 8192 then 8192 else if k0 < -8192 then -8192 else k0
  match decodeNum f x with
  | .nan sig => { bits := f.nanBits, flags := flagIf sig fxNV }
  | .inf _ => { bits := x, flags := 0 }
  | .fin neg m e => if m = 0 then { bits := x, flags := 0 } else roundNum f .rn 0 false (.fin neg m (e + k))

/-! ## Conversions (R121 to R126) -/

/-- From one format to another. -/
def fConvert (src dst : Fmt) (rm : Rm) (s : Word) (sat : Bool) (x : Nat) : FRes :=
  roundNum dst rm s sat (decodeNum src x)

/-- The integer targets of R123. -/
structure IntTy where
  w : Nat
  signed : Bool
  deriving DecidableEq, Repr

def IntTy.lo (t : IntTy) : Int := if t.signed then -(2 ^ (t.w - 1) : Nat) else 0
def IntTy.hi (t : IntTy) : Int := if t.signed then (2 ^ (t.w - 1) : Nat) - 1 else (2 ^ t.w : Nat) - 1

/-- An integer as its two's-complement pattern of `w` bits. -/
def intBits (w : Nat) (v : Int) : Nat := (v % (2 ^ w : Nat)).toNat

/-- What an invalid conversion delivers without saturation (R123). -/
def IntTy.invalid (t : IntTy) : Nat := if t.signed then 2 ^ (t.w - 1) else 2 ^ t.w - 1

/-- Conversion to an integer (R123). -/
def fToInt (f : Fmt) (t : IntTy) (rm : Rm) (s : Word) (sat : Bool) (x : Nat) : FRes :=
  let bad (v : Int) : FRes := { bits := if sat then intBits t.w v else t.invalid, flags := fxNV }
  match decodeNum f x with
  | .nan _ => bad 0
  | .inf neg => bad (if neg then t.lo else t.hi)
  | .fin neg m e =>
    let (n, inexact) := roundIntegral rm neg s m e
    let v : Int := if neg then -(n : Int) else n
    if v > t.hi then bad t.hi
    else if v < t.lo then bad t.lo
    else { bits := intBits t.w v, flags := flagIf inexact fxNX }

/-- Conversion from an integer of value `v`. -/
def intToF (f : Fmt) (rm : Rm) (s : Word) (v : Int) : FRes := roundNum f rm s false (Num.ofInt v 0 false)

/-- The magnitude of a quantised term in units of 1/64 (R323, R324). -/
def termUnits (c : Nat) : Int := if c = 0 then 0 else 2 ^ (7 - c)

/-- A DPT8 byte in units of 1/64 (R323). -/
def dpt8Units (b : Nat) : Int :=
  let t1 := termUnits (b / 16 % 8)
  let t2 := termUnits (b % 8)
  (if b / 128 % 2 == 1 then -t1 else t1) + (if b / 8 % 2 == 1 then -t2 else t2)

/-- An SPT4 nibble in units of 1/64 (R324). -/
def spt4Units (n : Nat) : Int :=
  let t := termUnits (n % 8)
  if n / 8 % 2 == 1 then -t else t

/-- The exact values of the quantised codes, unscaled. -/
def dpt8Num (b : Nat) : Num := Num.ofInt (dpt8Units b) (-6) false
def spt4Num (n : Nat) : Num := Num.ofInt (spt4Units n) (-6) false

/-! ## Quantisation (R128 to R130) -/

/-- Whether `u`/64 is a sum of two terms. -/
def isDpt8 (u : Nat) : Bool :=
  (List.range 8).any fun c1 => (List.range 8).any fun c2 =>
    termUnits c1 + termUnits c2 == (u : Int) || termUnits c1 - termUnits c2 == (u : Int)

/-- Whether `u`/64 is one term. -/
def isSpt4 (u : Nat) : Bool := (List.range 8).any fun c => termUnits c == (u : Int)

/-- The non-negative members of the set, in units of 1/64, rising (R128). -/
def quantSet (dpt8 : Bool) : List Nat :=
  if dpt8 then (List.range 129).filter isDpt8 else (List.range 65).filter isSpt4

/-- The smallest non-zero term of the member `u`/64, taken over the encoding that makes it largest; 0 for zero (DEDUCED log 10). -/
def smallestTerm (dpt8 : Bool) (u : Nat) : Nat :=
  if u = 0 then 0
  else if isSpt4 u then u
  else if dpt8 then
    (List.range 8).foldl (fun best c1 => (List.range 8).foldl (fun best c2 =>
      let a := termUnits c1
      let b := termUnits c2
      if c1 ≠ 0 && c2 ≠ 0 && (a + b == (u : Int) || a - b == (u : Int)) then
        Nat.max best (Nat.min a.toNat b.toNat) else best) best) 0
  else u

/-- The canonical DPT8 code of `v`/64 (R129): the largest c1 whose rest is no larger term. -/
def dpt8Code (v : Int) : Nat :=
  if v = 0 then 0
  else
    let neg := decide (v < 0)
    let u : Int := v.natAbs
    (List.range 8).foldl (fun best c1 =>
      let rest := u - termUnits c1
      if c1 = 0 then best
      else match (List.range 8).find? (fun c2 => termUnits c2 == Int.ofNat rest.natAbs && decide (termUnits c2 ≤ termUnits c1)) with
        | some c2 =>
          (if neg then 128 else 0) + c1 * 16 + (if c2 ≠ 0 && (neg != decide (rest < 0)) then 8 else 0) + c2
        | none => best) 0

/-- The code of `v`/64 in SPT4. -/
def spt4Code (v : Int) : Nat :=
  if v = 0 then 0
  else (if v < 0 then 8 else 0) + ((List.range 8).find? (fun c => termUnits c == Int.ofNat v.natAbs)).getD 0

/-- `round_to_set` for the magnitude m * 2^e in units of 1/64: the chosen member and whether it differs (R128). -/
def roundToSet (dpt8 : Bool) (rm : Rm) (s : Word) (neg : Bool) (m : Nat) (e : Int) : Nat × Bool :=
  let d := 2 ^ (-e).toNat                      -- the magnitude is n / d
  let n := m * 2 ^ e.toNat
  let set := quantSet dpt8
  let lo := set.foldl (fun b u => if u * d ≤ n then u else b) 0
  if lo * d = n then (lo, false)
  else
    let hi := (set.find? (fun u => decide (u * d > n))).getD lo
    let up := match rm with
      | .rn => if n - lo * d < hi * d - n then false
          else if n - lo * d > hi * d - n then true
          else decide (smallestTerm dpt8 hi > smallestTerm dpt8 lo)
      | .sr =>
        if neg then !decide ((hi * d - n) * 2 ^ 32 / ((hi - lo) * d) > s.toNat)
        else decide ((n - lo * d) * 2 ^ 32 / ((hi - lo) * d) > s.toNat)
      | _ => false
    (if up then hi else lo, true)

/-- FQNT (R128): the code and the flags. -/
def fQuant (dpt8 : Bool) (rm : Rm) (s : Word) (a : Nat) (e : Nat) : Nat × Word :=
  let code (neg : Bool) (u : Nat) : Nat :=
    let v : Int := if neg then -(u : Int) else u
    if dpt8 then dpt8Code v else spt4Code v
  let top := if dpt8 then 128 else 64
  if e = 255 then (0, fxNV)
  else match decodeNum f32 a with
    | .nan _ => (0, fxNV)
    | .inf neg => (code neg top, fxOF ||| fxNX)
    | .fin neg m ea =>
      let k : Int := ea + 127 - e + 6            -- the magnitude is m * 2^k in units of 1/64
      if m * 2 ^ k.toNat > top * 2 ^ (-k).toNat then (code neg top, fxOF ||| fxNX)
      else
        let (u, inexact) := roundToSet dpt8 rm s neg m k
        let c := code neg u
        (c, flagIf inexact fxNX ||| flagIf (decide (m ≠ 0) && c == 0) fxUF)

/-- FQNT.SCALE (R130). -/
def fQuantScale (a : Nat) : Nat × Word :=
  match decodeNum f32 a with
  | .nan _ => (255, fxNV)
  | .inf _ => (254, fxOF)
  | .fin _ m e =>
    if m = 0 then (0, 0)
    else (((Nat.log2 m : Int) + e + 127).toNat, 0)

/-! ## Windowed sums (R337 to R340) -/

/-- `window(code)` (R337). -/
def windowOf (code : Nat) : Nat :=
  match code with
  | 0 => 24
  | 1 => 32
  | 2 => 40
  | 3 => 48
  | 4 => 64
  | 5 => 96
  | _ => 128

/-- The special rows of R339, first match: none when every term is finite. -/
def winSpecial (terms : List Num) : Option Num :=
  if terms.any (·.isSnan) then some (.nan true)
  else if terms.any (·.isNan) then some (.nan false)
  else if terms.any (fun t => t.isInf && t.neg) && terms.any (fun t => t.isInf && !t.neg) then some (.nan true)
  else terms.find? (·.isInf)

/-- The sign of a sum of zeros (R106, over all terms). -/
def zeroSumNeg (rm : Rm) (terms : List Num) : Bool :=
  if terms.all (·.neg) then true else if terms.any (·.neg) then rm == .rd else false

/-- The exponent of the leading bit of the largest non-zero term. -/
def winLead : List Num → Option Int
  | [] => none
  | t :: ts =>
    let rest := winLead ts
    match t with
    | .fin _ m e =>
      if m = 0 then rest
      else
        let l := e + (Nat.log2 m : Int)
        match rest with
        | none => some l
        | some r => some (if r < l then l else r)
    | _ => rest

/-- The sum of the terms truncated to multiples of 2^q, in units of 2^q, and whether any term lost a bit. -/
def winTruncSum (q : Int) : List Num → Int × Bool
  | [] => (0, false)
  | t :: ts =>
    let (acc, lost) := winTruncSum q ts
    match t with
    | .fin neg m e =>
      if e ≥ q then (acc + scaledInt neg m e q, lost)
      else
        let d := 2 ^ (q - e).toNat
        let v : Int := (m / d : Nat)
        (acc + (if neg then -v else v), lost || m % d != 0)
    | _ => (acc, lost)

/-- `winsum(terms, W, rm)` rounded to `f`: the result, whether a bit was lost, and whether a rounding took place (R338). -/
def winsum (f : Fmt) (w : Nat) (rm : Rm) (s : Word) (terms : List Num) : FRes × Bool × Bool :=
  match winSpecial terms with
  | some v => (roundNum f rm s false v, false, false)
  | none =>
    match winLead terms with
    | none => ({ bits := f.signBit (zeroSumNeg rm terms), flags := 0 }, false, false)
    | some lead =>
      let q := lead - w + 1
      let (sum, lost) := winTruncSum q terms
      if sum = 0 then ({ bits := f.signBit (rm == .rd), flags := flagIf lost (fxNX ||| fxLS) }, lost, false)
      else
        let r := roundNum f rm s false (Num.ofInt sum q false)
        ({ r with flags := r.flags ||| flagIf lost (fxNX ||| fxLS) }, lost, true)

/-! ## The long accumulator (R343 to R345) -/

/-- The sticky flags of a long accumulator. -/
def laccLS : Word := 1
def laccOV : Word := 2
def laccNV : Word := 4

/-- `lacc_add` (R344): the accumulator and its flag word after one contribution. -/
def laccAdd (a : Int) (fl : Word) (es : Int) (x : Num) : Int × Word :=
  match x with
  | .nan _ => (a, fl ||| laccNV)
  | .inf _ => (a, fl ||| laccNV)
  | .fin neg m e =>
    let q := es - 120
    let c : Nat := if e ≥ q then m * 2 ^ (e - q).toNat else m / 2 ^ (q - e).toNat
    let lost := decide (e < q) && m % 2 ^ (q - e).toNat != 0
    let fl' := if lost then fl ||| laccLS else fl
    if fl &&& laccOV ≠ 0 then (a, fl')
    else
      let t := a + (if neg then -(c : Int) else c)
      if t > (2 ^ 127 : Nat) - 1 then ((2 ^ 127 : Nat) - 1, fl' ||| laccOV)
      else if t < -(2 ^ 127 : Nat) then (-(2 ^ 127 : Nat), fl' ||| laccOV)
      else (t, fl')

/-- `lacc_round` (R345). -/
def laccRound (f : Fmt) (rm : Rm) (a : Int) (fl : Word) (es : Int) : FRes :=
  if fl &&& laccNV ≠ 0 then { bits := f.nanBits, flags := fxNV }
  else if fl &&& laccOV ≠ 0 then { bits := f.overflowBits rm (decide (a < 0)), flags := fxOF ||| fxNX }
  else if a = 0 then { bits := f.signBit (rm == .rd), flags := 0 }
  else
    let r := roundNum f rm 0 false (Num.ofInt a (es - 120) false)
    { r with flags := r.flags ||| flagIf (fl &&& laccLS ≠ 0) fxNX }

/-! ## Packed forms -/

/-- Element `i` of `w` bits of a packed register (`elem`, R348). -/
def elemOf (w i x : Nat) : Nat := x / 2 ^ (w * i) % 2 ^ w

/-- The generator state with which element 1, and the b conversion of FPACK, rounds (R107). -/
def srRot (s : Word) : Word := s.rotateLeft 16

/-- Two 16-bit results in one register, the flags of both (R104). -/
def pack2 (r0 r1 : FRes) : FRes := { bits := r1.bits * 2 ^ 16 + r0.bits, flags := r0.flags ||| r1.flags }

/-- A comparison result of `w` bits: 1, or all ones in the packed forms (R111, R116). -/
def cmpRes (packed : Bool) (r : Bool × Word) : FRes :=
  { bits := if r.1 then (if packed then 0xffff else 1) else 0, flags := r.2 }

/-- FPACK to 16-bit elements (R125). -/
def fPack16 (f : Fmt) (rm : Rm) (s : Word) (a b : Nat) : FRes :=
  pack2 (fConvert f32 f rm s false a) (fConvert f32 f rm (srRot s) false b)

/-- FPACK to bytes: d moves up by 16 bits (R125, R126). -/
def fPack8 (f : Fmt) (rm : Rm) (s : Word) (d a b : Nat) : FRes :=
  let r0 := fConvert f32 f rm s false a
  let r1 := fConvert f32 f rm (srRot s) false b
  { bits := d % 2 ^ 16 * 2 ^ 16 + r1.bits * 2 ^ 8 + r0.bits, flags := r0.flags ||| r1.flags }

/-- FDOT over `n` elements of format `f` (R127). -/
def fDot (f : Fmt) (n : Nat) (rm : Rm) (s : Word) (w d a b : Nat) : FRes :=
  let prods := (List.range n).map fun k => mulNum (decodeNum f (elemOf f.w k a)) (decodeNum f (elemOf f.w k b))
  (winsum f32 w rm s (decodeNum f32 d :: prods)).1

end Sys2Proof.Machine
end

