-- ==== Sys2Proof/Machine/State.lean ====
section
/-! DEFINITION. The state of the device: every piece of state the spec names, as plain data, and the state after reset. The
levels are those of 09 R237: thread, group, team, core, context, stack and device. INVENTORY.md lists every piece with its rule. -/

namespace Sys2Proof.Machine

open Sys2Proof

/-- Bytes by address, addresses strictly rising, no entry 0: an unlisted address reads 0 (DESIGN CHOICE log 3 for DRAM; R264, R414 elsewhere). -/
abbrev Mem := List (Nat × Byte)

/-! ## Registers -/

/-- The shape tag of a v register with its words (01 R33). -/
inductive Shape where
  | u (v : Word)
  | a (base stride : Word)
  | g (vs : List Word)
  deriving DecidableEq, Repr

/-- An error mark on one lane's register: the cause (0x0d or 0x0e) and the load's address (06 R166). -/
structure Mark where
  lane : Nat
  cause : BitVec 8
  addr : DWord
  deriving DecidableEq, Repr

/-- One allocation register of a group: shape and words, the lanes whose register is empty, the error marks. -/
structure VReg where
  shape : Shape
  empty : LaneMask
  marks : List Mark
  deriving DecidableEq, Repr

/-- A register as granted (R32): 0, U, full. -/
def VReg.fresh : VReg := { shape := .u 0, empty := 0, marks := [] }

/-- A common register of a team (09 R249). -/
structure CReg where
  val : Word
  empty : Bool
  mark : Option (BitVec 8 × DWord)
  deriving DecidableEq, Repr

def CReg.fresh : CReg := { val := 0, empty := false, mark := none }

/-! ## Threads -/

/-- A lane transaction (06 R191 to R194): where an abort goes, the register it writes, the words read and written by virtual
word address, and the instructions run so far. -/
structure Txn where
  handler : DWord
  dst : Reg
  reads : List (Nat × Word)
  writes : List (Nat × Word × BitVec 4)
  lines : List Nat
  count : Nat
  deriving DecidableEq, Repr

/-- A store held in the WO buffer (17 R381, 10 R284): its address, the frame address that its check found (none after a restore to
a page that does not translate), and the tick at which it was accepted (the model's own, DESIGN CHOICE log 1). -/
structure WoStore where
  va : Nat
  pa : Option Nat
  policy : BitVec 2
  data : List Byte
  born : Nat
  deriving DecidableEq, Repr

/-- The wait instructions of 09 R256, with what each waits for (10 R271): an object or word outside scratch also by its frame address,
since any name of the frame may change it. -/
inductive WaitKind where
  | bwait (va : Nat) (pa : Option Nat)
  | gsync
  | tsync
  | ring (id : Nat)
  | mwait (id : Word)
  | ewait (id : Nat)
  | word (va : Nat) (pa : Option Nat)
  | wordSys (va : Nat) (pa : Option Nat)
  | sleep (deadline : Nat)
  | yield
  | acqr (region : Nat)
  | poolGrow
  | poolShrink
  | queue (id : Nat)
  deriving DecidableEq, Repr

/-- Why a lane is parked and which record it waits for: the record's source and sequence; firmware parks have none (10 R280
to R282, 21 R484). -/
structure Park where
  unhandled : Bool
  cause : BitVec 8
  src : Nat
  seq : Nat
  recorded : Bool
  addr : DWord
  deriving DecidableEq, Repr

/-- What an instruction that has issued and stands has seen of the common registers (09 R248): their values and capability tags. `opened` says that
it is a load into one of them, which it has marked empty (R249). -/
structure Seen where
  vals : List Word
  tags : BitVec 4
  opened : Bool
  deriving DecidableEq, Repr

/-- One thread. `seen` is there while it stands at an instruction that has issued; `farExt` says whether the object that its BWAIT has read beyond a
link is EXTERNAL (10 R276, 20 R428). `waitSince` and `waitSwap` are the clock and the TSWAP at the start of its present wait (10 R268, R269). The
model's own (DESIGN CHOICE log 1): `age`, the tick since which it has been eligible without issuing (09 R240), and `stirred`, whether the condition it
waits for held when the present step began (10 R268); `needs`, the empty registers (lane and allocation register, or 64 and common register)
that its instruction, or the lane instruction it belongs to, is held for (01 R37, 03 R72); `lot`, the memory operation, by its tick, of
which the access of some lane is not accepted yet, and `lotOpen`, whether it is the thread's own (06 R163). `unfenced` is what it has
written to scratch (true) and to tile storage since its last MFENCE (05 R152, DESIGN CHOICE log 4). -/
structure Thread where
  pc : DWord
  meet : DWord
  arrived : Bool
  exited : Bool
  park : Option Park
  base : Nat
  rng : Word
  fx : Word
  sys : Bool
  inTrap : Bool
  tpc : DWord
  tcause : Word
  taddr : DWord
  capTags : BitVec 64
  txn : Option Txn
  wo : List WoStore
  fbuf : List (Nat × Word)
  wait : Option WaitKind
  synced : Bool
  waitSince : Nat
  waitSwap : Nat
  stirred : Bool
  unfenced : List (Bool × Nat × Nat)
  needs : List (Nat × Nat)
  lot : Option Nat
  lotOpen : Bool
  seen : Option Seen
  farExt : Bool
  age : Nat
  deriving DecidableEq, Repr

/-- The meeting value NONE (03 R92). -/
def meetNone : DWord := BitVec.allOnes 64

/-- A thread at its start (09 R237). -/
def Thread.start (entry : DWord) (rng : Word) (sys : Bool) : Thread :=
  { pc := entry, meet := meetNone, arrived := false, exited := false, park := none, base := 0, rng := rng, fx := 0,
    sys := sys, inTrap := false, tpc := 0, tcause := 0, taddr := 0, capTags := 0, txn := none, wo := [], fbuf := [],
    wait := none, synced := false, waitSince := 0, waitSwap := 0, stirred := false, unfenced := [], needs := [], lot := none,
    lotOpen := false, seen := none, farExt := false, age := 0 }

/-- The roles of 09 R245. -/
inductive Role where
  | general | copy | matrix | vector
  deriving DecidableEq, Repr

/-- One group. -/
structure Group where
  gcr : Word
  role : Role
  regs : List VReg
  threads : List Thread
  deriving DecidableEq, Repr

/-! ## Tiles and the engine queue -/

/-- A tile register with a shape: its number, shape word and MXS offset (01 R44, 10 R284). -/
structure Tile where
  num : Nat
  shape : Word
  off : Nat
  deriving DecidableEq, Repr

/-- The latched B copy: its shape word and its bytes in the layout of R144 (05 R154, 15 R354). -/
structure Latch where
  shape : Word
  data : Mem
  deriving DecidableEq, Repr

/-- The operations of the engine queue with what each captured at issue (05 R151, R155); of an operation, `unseen` is what no MFENCE had
brought to the engine's port by then (R152). -/
inductive EngKind where
  | tlatch (src : Tile)
  | mma (seq : Bool) (acc : Nat) (a : Option Tile) (b : Option Tile) (d : Tile)
  | mseq (block : List Byte) (blockOff : Nat) (a : Tile) (b : Option Tile) (d : Tile) (step : Nat) (barPa : Nat)
  deriving DecidableEq, Repr

structure EngOp where
  id : Word
  mcr : Word
  kind : EngKind
  born : Nat
  unseen : List (Bool × Nat × Nat)
  deriving DecidableEq, Repr

/-- A completed operation whose fault is still to be reported at an MWAIT (05 R155, 15 R362). -/
structure EngFault where
  id : Word
  cause : BitVec 8
  addr : DWord
  deriving DecidableEq, Repr

/-- The matrix state of a team. `stale` is the model's own: the halves of bytes [lo, hi) of the storage that are undefined through a tile,
because another tile that overlaps them has been written (05 R144). -/
structure TeamEng where
  tiles : List (Option Tile)
  mcr : Word
  mfx : Word
  latch : Option Latch
  latchIssued : Option Tile
  queue : List EngOp
  seq : Word
  issuedAny : Bool
  done : Word
  covered : List EngOp
  faults : List EngFault
  egen : Word
  stale : List (Nat × Nat × Nat)
  deriving DecidableEq, Repr

/-- The pool state of a team (13 R298, 05 R142): its banks (on each core of a pair), bytes, slot tags, flag plane (the halfwords
whose bit is set), the 32-bit words whose stored code shows an error that cannot be corrected, by offset (15 R362), and the STAT
counters; where its banks lie is in the bank maps. -/
structure TeamPool where
  scrBanks : Nat
  mxsBanks : Nat
  scr : Mem
  scrTags : List Nat
  scrErrs : List Nat
  mxs : Mem
  flags : List Nat
  mxsErrs : List Nat
  relocs : Nat
  waits : Nat
  refusals : Nat
  grants : Nat
  peakScr : Nat
  peakMxs : Nat
  peakReg : Nat
  deriving DecidableEq, Repr

/-- Where a team stands. -/
inductive Place where
  | queued                                          -- accepted and waiting to be placed for the first time
  | resident (core slot : Nat)                      -- on a core, or on the pair of the even core `core`
  | saved (at_ : Nat) (preempted held queued : Bool)   -- out since `at_`; held by the watchdog; back in its level
  | foehn (stack core : Nat)                        -- a near-memory call or firmware
  | ended
  deriving DecidableEq, Repr

/-- What a set of groups is: a team of a launch, a near-memory call, base-die firmware. -/
inductive TeamKind where
  | team | call | firmware
  deriving DecidableEq, Repr

/-- An arrival recorded for a team that is out (07 R211, 10 R284). -/
structure PendingArrival where
  off : Nat
  kind : Nat
  value : Word
  status : Word
  deriving DecidableEq, Repr

/-- Why a team is being taken off its core, or stands on it without issuing: a wait-swap (with whether an object it waits for has
changed since), a pre-emption, a watchdog stop, and such a stop whose save was abandoned (10 R269 to R276). -/
inductive Leaving where
  | swap (woken : Bool)
  | preempt | watchdog | stopped
  deriving DecidableEq, Repr

/-- A team, or the groups of a near-memory call or of firmware, which run the same instructions (09 R234, 20 R411, 21 R443). -/
structure Team where
  kind : TeamKind
  ctx : Nat
  handle : Nat
  index : Nat
  tmx : Nat
  tmy : Nat
  tmz : Nat
  gw : Nat
  nregs : Nat
  pair : Bool
  fusel1 : Bool
  prio : Nat
  curPrio : Nat
  savePrio : Nat
  seed : Word
  rings : List (Nat × Nat)
  argo : Nat
  place : Place
  placedAt : Nat
  groups : List Group
  cregs : List CReg
  ctags : BitVec 4
  pool : TeamPool
  eng : TeamEng
  cmdCounter : Nat
  arrivals : List PendingArrival
  leaving : Option Leaving
  recordAt : Nat
  saved : List Byte
  spillAt : Nat
  callId : Word
  deriving DecidableEq, Repr

/-! ## Cores -/

/-- The bank roles of 13 R298. -/
inductive BankRole where
  | reg | scr | cch | mxs
  deriving DecidableEq, Repr

inductive Holder where
  | free | reserve | team | store
  deriving DecidableEq, Repr

structure Bank where
  role : BankRole
  holder : Holder
  moving : Bool
  slot : Nat
  deriving DecidableEq, Repr

/-- The states of a pool request (13 R310); `leave` is the place of a team's end or save among the requests of its cores (R309). -/
inductive PoolPhase where
  | waiting | drain | move (next : Nat) | quiesce | commit | leave
  deriving DecidableEq, Repr

/-- A GROW or SHRINK in progress: who issued it, what it asks, its WAIT flag and level, and where its banks lie on the core, and on the
odd core of a pair (13 R309 to R311). -/
structure PoolReq where
  team : Nat
  grp : Nat
  lanes : LaneMask
  pc : DWord
  dst : Reg
  grow : Bool
  role : BankRole
  count : Nat
  discard : Bool
  phase : PoolPhase
  destBase : Nat
  destOdd : Nat
  relocates : Bool
  waited : Bool
  wait : Bool
  sys : Bool
  deriving DecidableEq, Repr

/-- One word of an L1: its name, the frame word it was filled from, its home slice, the data, dirty, and whether its page is IP (18 R392,
R393, R394). -/
structure L1Word where
  asid : Nat
  va : Nat
  pa : Nat
  slice : Nat
  data : Word
  dirty : Bool
  ip : Bool
  deriving DecidableEq, Repr

/-- One location of an update-only copy: name, frame address, home slice, RED function, the contributions accumulated so far (06 R177, 17
R385). -/
structure UpdWord where
  asid : Nat
  va : Nat
  pa : Nat
  slice : Nat
  op : Nat
  val : DWord
  deriving DecidableEq, Repr

/-- One word of an instruction cache: its name, the frame word it was filled from, and the data (18 R392). -/
structure CodeWord where
  asid : Nat
  va : Nat
  pa : Nat
  data : Word
  deriving DecidableEq, Repr

/-- An attribute-buffer entry (18 R396): ASID, page base and size, attribute, permissions, placement, and the home-slice hash input (the
ASID and VA[56:16] of the page, R393). -/
structure AlbEntry where
  asid : Nat
  base : Nat
  size : Nat
  attr : BitVec 2
  r : Bool
  w : Bool
  x : Bool
  pinned : Bool
  stack : Nat
  hash : Nat × Nat
  deriving DecidableEq, Repr

structure Core where
  banks : List Bank
  cchBanks : Nat
  req : Option PoolReq
  waiting : List PoolReq
  arrived : List PoolReq
  l1 : List L1Word
  upd : List UpdWord
  icache : List CodeWord
  alb : List AlbEntry
  accepting : Bool
  fused : Bool
  fetchAhead : Nat
  engNext : Nat
  deriving DecidableEq, Repr

/-- The bank map after reset (13 R299). -/
def bankReset (k : Nat) : Bank :=
  if k < 4 then { role := .reg, holder := .store, moving := false, slot := 0 }
  else if k < 46 then { role := .cch, holder := .free, moving := false, slot := 0 }
  else { role := .cch, holder := .reserve, moving := false, slot := 0 }

/-- A core after reset; `fetchAhead` is the model's own (DESIGN CHOICE log 2); `engNext` is the slot at which the engine looks first for
its next operation, 0 (15 R352; DESIGN CHOICE log 1). -/
def Core.reset : Core :=
  { banks := (List.range 48).map bankReset, cchBanks := 2, req := none, waiting := [], arrived := [], l1 := [], upd := [], icache := [],
    alb := [], accepting := true, fused := false, fetchAhead := 0, engNext := 0 }

/-! ## Contexts, launches, queues -/

/-- A fault-queue record before its bytes are laid out (10 R281). -/
structure FaultRecord where
  cause : BitVec 8
  kind : Nat
  srcType : Nat
  srcNum : Nat
  ctx : Nat
  mask : LaneMask
  addr : DWord
  pc : DWord
  seq : Nat
  handle : Nat
  team : Nat
  core : Nat
  grp : Nat
  time : DWord
  deriving DecidableEq, Repr

/-- A context (07 R225, 10 R281, R283, R485). Its watchdog counter is CLOCK less `watchdog`, the last cycle that returned it to 0
(R276). -/
structure Ctx where
  id : Nat
  asid : Nat
  tvec : DWord
  tswap : Nat
  wdt : Nat
  ptroot : Nat
  pinbase : Nat
  fqBase : Nat
  fqCap : Nat
  fqWritten : Nat
  fqConsumed : Nat
  held : List FaultRecord
  seqs : List (Nat × Nat)
  saveBase : Nat
  saveSize : Nat
  saveUsed : List (Nat × Nat)
  callIds : Nat
  watchdog : Nat
  stopped : Bool
  deriving DecidableEq, Repr

/-- A launch that has not completed (10 R258 to R263); `finished` is the tick of its last team's end so far, or of its release. -/
structure Launch where
  handle : Nat
  ctx : Nat
  order : Nat
  entry : DWord
  x : Nat
  y : Nat
  z : Nat
  held : Bool
  seed : Word
  inq : Nat
  outq : Nat
  args : List Byte
  gw : Nat
  groups : Nat
  nregs : Nat
  scr : Nat
  mxs : Nat
  pair : Bool
  fusel1 : Bool
  prio : Nat
  rings : List (Nat × Nat)
  roles : List Role
  viaHol : Bool
  input : Option (List Byte)
  placed : Nat
  ended : Nat
  poolRecord : Bool
  finished : Nat
  deriving DecidableEq, Repr

/-- A graph-edge queue (10 R262). -/
structure EdgeQueue where
  id : Nat
  ctx : Nat
  depth : Nat
  records : List (List Byte)
  deriving DecidableEq, Repr

/-- A region token (06 R198 to R201): the 2 MiB region by ASID and address, the holder, the waiting teams in order. -/
structure Token where
  die : Nat
  asid : Nat
  region : Nat
  holder : Option Nat
  waiters : List Nat
  deriving DecidableEq, Repr

/-! ## Work in flight

`born` is the model's own: the tick at which the work was accepted (DESIGN CHOICE log 1). -/

/-- One lane's landing value: its words, or the error its load met. -/
structure LoadLane where
  lane : Nat
  words : List Word
  err : Option (BitVec 8)
  addr : DWord
  tag : Bool
  deriving DecidableEq, Repr

/-- A load or returning atomic that has not landed: the first allocation register (v) or common register it writes (01 R37), and the
registers, by lane, that an abort has written since and that it no longer writes (06 R194); of a load into common registers, `rest` holds the
lanes that stand at it still, for which it waits (09 R249). -/
structure Load where
  team : Nat
  grp : Nat
  isC : Bool
  reg : Nat
  count : Nat
  width : BitVec 3
  lanes : List LoadLane
  dropped : List (Nat × Nat)
  rest : List Nat
  born : Nat
  deriving DecidableEq, Repr

/-- One part of a lane's async copy in flight, within one line (06 R172, R173): the bytes read at issue, an error the read met, whether an
answer from a link is still due, and whether its write is performed already; the parts of one copy share `lot`. `wo` holds the thread's held
WO stores at the issue of a part that reads over a link, `taint` the bytes of scratch, from first to end, that a thread has written
under a G2S part meanwhile, and `slice` the home slice of its line by the translation of its issue (18 R393). -/
structure Copy where
  id : Nat
  lot : Nat
  team : Nat
  grp : Nat
  lane : Nat
  toScr : Bool
  scrOff : Nat
  va : Nat
  pa : Nat
  attr : BitVec 2
  barrier : Nat
  barPa : Nat
  data : List Byte
  bad : Option (BitVec 8)
  link : Bool
  performed : Bool
  wo : List WoStore
  taint : List (Nat × Nat)
  slice : Nat
  born : Nat
  deriving DecidableEq, Repr

/-- A part of a copy that has landed, while the phase that has counted its bytes has not completed and been acquired: the part, and the PHASE
of its barrier object then, where this device holds the object (06 R173). -/
structure Landed where
  copy : Copy
  phase : Option Nat
  deriving DecidableEq, Repr

inductive CmdState where
  | held | queued | done
  deriving DecidableEq, Repr

/-- A translation that a command keeps (18 R404): the page, its frame and attribute, and the stack that it is pinned to, if it is (R393). -/
structure KeptPage where
  page : Nat
  frame : Nat
  attr : BitVec 2
  pin : Option Nat
  deriving DecidableEq, Repr

/-- A command of a core's command engine: kind 0 CPY, 1 BIN, 2 MIG, its block and state (07 R205 to R210); its pins as frames, its
translations, its progress in bytes or pages, and the counts of a BIN. -/
structure Cmd where
  team : Nat
  ctx : Nat
  kind : Nat
  id : Nat
  block : List Byte
  blockOff : Nat
  state : CmdState
  cause : BitVec 8
  pins : List Nat
  barPa : Nat
  tlb : List KeptPage
  pages : Nat
  started : Bool
  acc : List Nat
  core : Nat
  born : Nat
  deriving DecidableEq, Repr

/-- One entry of a call's extent table (20 R418): virtual range, frame base, the page it lies in, slot and direction. -/
structure Extent where
  lo : Nat
  hi : Nat
  pa : Nat
  page : Nat
  size : Nat
  slot : Nat
  out : Bool
  code : Bool
  attr : BitVec 2
  deriving DecidableEq, Repr

inductive CallState where
  | submitted | running | ended
  deriving DecidableEq, Repr

/-- A near-memory call or walk between steps 4 and 7 of 07 R215, with the words of OUT extents that the callee has written and
those that main-die stores have written meanwhile (R216), and the ranges `clash` in which an extent of another call that ran beside it
was written too (R424). -/
structure Call where
  id : Word
  ctx : Nat
  caller : Nat
  walk : Bool
  message : List Byte
  slots : List (Option QWord)
  barrier : Nat
  scratchBarrier : Bool
  stack : Nat
  core : Nat
  budget : Nat
  used : Nat
  extents : List Extent
  pins : List Nat
  barPa : Nat
  state : CallState
  status : Nat
  team : Nat
  record : Nat
  optimiser : Option Nat
  wrote : List Nat
  met : List Nat
  clash : List (Nat × Nat)
  deriving DecidableEq, Repr

/-- A FRED sent to the base die and not yet performed (20 R425). -/
structure PendingFred where
  ctx : Nat
  asid : Nat
  va : Nat
  pa : Nat
  op : Nat
  val : DWord
  deriving DecidableEq, Repr

/-- On whose behalf a link request is made: a lane, a copy, a command, the exchange unit for a shard, an instruction fetch, the device (a held store
or an update of a barrier object at `va`), the launch unit for the kernel record of a packet (of a lane's LAUNCH, or of the first held message) or
for the saved state of a team, or the fault queue for record `n`. -/
inductive LinkOwner where
  | lane (team grp lane : Nat)
  | copy (id : Nat)
  | cmd (team id : Nat)
  | shard (i : Nat)
  | fetch (core asid va : Nat)
  | device (va : Nat)
  | packet (lane : Option (Nat × Nat × Nat)) (va : Nat)
  | record (ctx n : Nat)
  | saved (team va : Nat)
  deriving DecidableEq, Repr

/-- A request of this device to a peer or to the host (17 R388, 20 R426, 23 R476, DESIGN CHOICE log 12): kind 0 read, 1 write, 2 atomic, 3 the
write half and 5 the read half of an atomic on host memory, 4 a step on a barrier object. A read or write names `n` bytes, naturally aligned, of
which the access is the `len` from `skip` on; a write has its byte enables. `old` is what a write half's read half brought. A `poison`ed write
carries data that could not be corrected (18 R406). A request to the host is `sent` once its message has gone out. Its answer is there
once `done` is. -/
structure LinkReq where
  id : Nat
  ctx : Nat
  owner : LinkOwner
  host : Bool
  kind : Nat
  pa : Nat
  n : Nat
  skip : Nat
  len : Nat
  data : List Byte
  enables : List Bool
  poison : Bool
  old : List Byte
  sent : Bool
  done : Option (Bool × List Byte)
  deriving DecidableEq, Repr

/-! ## Stacks -/

/-- A store to a register block that is not performed yet: the Foehn core that issued it (16 for one from outside), its address and value, and the
thread whose next instruction waits for it (21 R444, R446). -/
structure RegStore where
  core : Nat
  pa : Nat
  val : Word
  owner : Option (Nat × Nat × Nat)
  deriving DecidableEq, Repr

/-- A running pattern test: its channel and group, and the physical lanes' result (21 R446, R447). -/
structure PatternTest where
  stack : Nat
  ch : Nat
  group : Nat
  result : Word
  deriving DecidableEq, Repr

/-- A request held for a shard that is not accumulating (20 R436): a reduction packet (kind 0, its window offset) or a step on
the arrival barrier (kind 1), with its data. -/
structure HeldReq where
  peer : Nat
  kind : Nat
  addr : Nat
  data : List Byte
  link : Option Nat
  deriving DecidableEq, Repr

/-- A stack and its base die. `regq` holds the stores to its register blocks that a pattern test holds, and those behind them, in the order in
which each core issued them (21 R444, R446). -/
structure Stack where
  phy : List (Nat × Word)
  regq : List RegStore
  turning : List Nat
  capctl : Word
  captured : List (Nat × Nat × Nat × Nat)
  fullcnt : Nat
  evHead : Nat
  evOvf : Bool
  events : List (Nat × BitVec 64)
  window : Nat
  rowCounts : List ((Nat × Nat × Nat × Nat) × Nat)
  dead : List Nat
  filling : List Nat
  postponed : Nat
  allBank : Bool
  splits : Nat
  computeOff : List (Nat × List Nat)
  firmTvec : List (Nat × DWord)
  held : Bool
  halted : Bool
  firmware : List Byte
  firmLoad : Nat
  hold : List HeldReq
  ibuf : List (Nat × Nat × List Byte)
  deriving DecidableEq, Repr

/-- A stack after reset (22 R463, R468; DESIGN CHOICE log 3 and DESIGN CHOICE log 9 for what the spec does not give). -/
def Stack.reset : Stack :=
  { phy := [], regq := [], turning := [], capctl := 0x10400, captured := [], fullcnt := 0, evHead := 0, evOvf := false, events := [],
    window := 0, rowCounts := [], dead := [], filling := [], postponed := 0, allBank := false, splits := 0,
    computeOff := [], firmTvec := [], held := false, halted := false, firmware := [], firmLoad := 0, hold := [],
    ibuf := [] }

/-! ## Memory system -/

/-- One word of the L2 slices: virtual name, frame word, the slice that holds it, data, dirty (18 R392, R393). -/
structure L2Word where
  asid : Nat
  va : Nat
  pa : Nat
  slice : Nat
  data : Word
  dirty : Bool
  deriving DecidableEq, Repr

/-- A translation held by the slices (18 R397): ASID, page base and size, frame and the leaf's fields, and the slices that hold it. -/
structure TbEntry where
  asid : Nat
  base : Nat
  size : Nat
  frame : Nat
  attr : BitVec 2
  r : Bool
  w : Bool
  x : Bool
  pinned : Bool
  stack : Nat
  slices : List Nat
  deriving DecidableEq, Repr

/-- A mapping of a frame: ASID and 64 KiB page, and the lines of it (bit i: line i) that a VPURGE has met since they were last accessed
through it (17 R389). -/
structure DirMap where
  asid : Nat
  page : Nat
  purged : Nat
  deriving DecidableEq, Repr

/-- A frame's entry in the physical alias directory (18 R401): the frame, the attribute of its first access, and the mappings
through which it has been accessed since. -/
structure DirEntry where
  frame : Nat
  attr : BitVec 2
  maps : List DirMap
  deriving DecidableEq, Repr

/-- The lines of a stack from local address `lo` to `hi` whose code words were made under the same name: the granule `gran`, or the interleaved
set that begins with it (22 R453, R457). -/
structure CodeSpan where
  stack : Nat
  lo : Nat
  hi : Nat
  gran : Nat
  inter : Bool
  deriving DecidableEq, Repr

/-- A page that every access waits for: one that an ATTRCHG has marked changing (17 R390 step 1), or one that a migration moves over a link
(18 R406): its name, its frame, the thread whose instruction it is, or the command; and for a page of this device's DRAM that goes over a link,
where to. -/
structure AttrMark where
  asid : Nat
  base : Nat
  size : Nat
  frame : Nat
  team : Nat
  grp : Nat
  lane : Nat
  goes : Option Nat
  deriving DecidableEq, Repr

/-- The memory system. `dram` and `lineErrs` are keyed by the place of a byte or line in the stacks (`dramKey`), whatever names the stack map gives
it. `lineErrs` holds the symbol errors of what is stored of a line against the code word made for it: (position 0 to 79, difference). `codes`
says under which physical address that code word was made (22 R457); a line in none of them was not written yet. -/
structure Memory where
  dram : Mem
  lineErrs : List (Nat × List (Nat × Byte))
  codes : List CodeSpan
  l2 : List L2Word
  tb : List TbEntry
  dir : List DirEntry
  changing : List AttrMark
  pending : List (Nat × UpdWord)
  freds : List PendingFred
  stackMap : List (Nat × BitVec 16)
  deriving DecidableEq, Repr

/-! ## Boot, identity, links, power -/

structure Boot where
  step : Nat
  images : List (Nat × List Byte)
  accepted : List Nat
  measurements : List (Nat × List Byte)
  rejected : Bool
  secCounter : Nat
  bootCount : Nat
  fwClock : Nat
  deriving DecidableEq, Repr

/-- The exchange unit's tables (20 R431, R440): the descriptor table's base, none until it is written. -/
structure Exchange where
  descBase : Option Nat
  descCtx : Nat
  optBase : Nat
  opts : List (Nat × Nat)
  deriving DecidableEq, Repr

/-- A message the device sent over HOL: its type, context and sequence of 23 R476, its payload as numbers or as bytes, the count of payload bytes
and the CRC-32C. -/
structure HolMsg where
  type : Nat
  ctx : Nat
  seq : Nat
  fields : List Nat
  bytes : List Byte
  len : Nat
  crc : Word
  deriving DecidableEq, Repr

/-- A launch message, or the packet of a lane's LAUNCH, whose kernel record, or that of one before it, has not come over its link yet (10 R259,
R261). -/
structure HeldPacket where
  ctx : Nat
  who : Option (Nat × Nat × Nat)
  packet : List Byte
  args : List Byte
  deriving DecidableEq, Repr

/-- The host link, the parts the power controller slows (R10, R478), and the thermal trip (R479); `outbox` holds the messages that wait
for the link (R476), `inbox` the launches that wait for a kernel record, in the order in which they reached the launch unit. -/
structure Platform where
  holUp : Bool
  mgmtErrors : Nat
  throttled : List Nat
  tripped : Bool
  outbox : List HolMsg
  inbox : List HeldPacket
  deriving DecidableEq, Repr

/-- The answer of a link port to a peer's request (20 R426, R430). -/
structure LinkAnswer where
  peer : Nat
  refused : Bool
  data : List Byte
  deriving DecidableEq, Repr

/-- The operation being issued: the team, the group, the lanes of the class, their PC and window base, the word. -/
structure Op where
  team : Nat
  grp : Nat
  lanes : LaneMask
  pc : DWord
  base : Nat
  sys : Bool
  word : Word
  deriving DecidableEq, Repr

/-- The device. `stalled` are the requests of peers and of the host that stall at a page whose attribute changes (17 R390). The last seven
fields are the model's own (DESIGN CHOICE log 1, DESIGN CHOICE log 2, DESIGN CHOICE log 7). -/
structure State where
  clock : Nat
  cores : List Core
  baseDies : List Stack
  ctxs : List Ctx
  teams : List Team
  launches : List Launch
  nextHandle : Nat
  launchOrder : Nat
  queues : List EdgeQueue
  tokens : List Token
  loads : List Load
  copies : List Copy
  landed : List Landed
  cmds : List Cmd
  calls : List Call
  links : List LinkReq
  nextId : Nat
  tests : List PatternTest
  mem : Memory
  boot : Boot
  xchg : Exchange
  plat : Platform
  holOut : List HolMsg
  linkOut : List LinkAnswer
  stalled : List Instr
  cur : Option Op
  agenda : List Instr
  turn : Bool
  tick : Nat
  pace : List Nat
  freeCtr : Nat
  testCtr : Nat
  deriving DecidableEq, Repr

/-- Memory after reset: nothing listed (DESIGN CHOICE log 3). -/
def Memory.reset : Memory :=
  { dram := [], lineErrs := [], codes := [], l2 := [], tb := [], dir := [], changing := [], pending := [], freds := [], stackMap := [] }

/-- The device right after reset (23 R472): boot step 1, no context, no team; every core and stack as R299, R463 and R468 say. -/
def State.reset : State :=
  { clock := 0, cores := List.replicate 192 Core.reset, baseDies := List.replicate 16 Stack.reset, ctxs := [], teams := [],
    launches := [], nextHandle := 1, launchOrder := 0, queues := [], tokens := [], loads := [], copies := [], landed := [],
    cmds := [], calls := [], links := [], nextId := 0, tests := [], mem := Memory.reset,
    boot := { step := 1, images := [], accepted := [], measurements := [], rejected := false, secCounter := 0, bootCount := 0,
              fwClock := 0 },
    xchg := { descBase := none, descCtx := 0, optBase := 0, opts := [] },
    plat := { holUp := true, mgmtErrors := 0, throttled := [], tripped := false, outbox := [], inbox := [] },
    holOut := [], linkOut := [], stalled := [], cur := none, agenda := [], turn := false, tick := 0, pace := [], freeCtr := 0, testCtr := 0 }

/-! ## Stops -/

/-- The machine faults of this device are traps, parks and records, which are next states (10 R278 to R282). One stop is left. -/
inductive Fault where
  /-- Raised by the meaning of an instruction word when no operation is being issued, or the operation names no team, group or
  lane of the state. No step of the machine raises it. Safe: the model stops. -/
  | noOperation
  deriving DecidableEq, Repr

/-- Reasons an instruction has no meaning. -/
inductive Refusal where
  /-- Raised by an arm of the dispatch that has no meaning yet. Safe: the model stops. -/
  | notModelled (mnemonic : String)
  deriving DecidableEq, Repr

/-- The outcome of a meaning or a step. -/
abbrev Out := Host.Outcome State Fault Refusal

end Sys2Proof.Machine
end

