-- ==== Sys2Proof/Machine/Mem.lean ====
section
/-! DEFINITION. Bytes and numbers, the byte lists of memory, and DRAM with its end-to-end code (17 R369, 22 R452 to R464). -/

namespace Sys2Proof.Machine

open Sys2Proof

/-! ## Bytes and numbers -/

/-- Little-endian bytes of a number. -/
def bytesOf : Nat → Nat → List Byte
  | 0, _ => []
  | n + 1, v => BitVec.ofNat 8 v :: bytesOf n (v / 256)

/-- The number of little-endian bytes. -/
def natOf : List Byte → Nat
  | [] => 0
  | b :: r => b.toNat + 256 * natOf r

/-- Words of a number, lowest first. -/
def wordsOf : Nat → Nat → List Word
  | 0, _ => []
  | n + 1, v => BitVec.ofNat 32 v :: wordsOf n (v / 2 ^ 32)

/-- The number whose words these are, lowest first. -/
def natOfWords : List Word → Nat
  | [] => 0
  | w :: r => w.toNat + 2 ^ 32 * natOfWords r

/-- `v` of `w` bits read as two's complement. -/
def sextInt (w v : Nat) : Int := if v % 2 ^ w ≥ 2 ^ (w - 1) then (v % 2 ^ w : Nat) - (2 ^ w : Nat) else (v % 2 ^ w : Nat)

/-- The members of a lane mask, rising. -/
def lanesOf (m : LaneMask) : List Nat := (List.range 64).filter fun i => m.getLsbD i

/-- The mask of a list of lanes. -/
def maskOf (ls : List Nat) : LaneMask := ls.foldl (fun m i => m ||| (1 <<< i : LaneMask)) 0

/-- `l` with the element `i` changed; nothing when there is none. -/
def modAt (f : α → α) : List α → Nat → List α
  | [], _ => []
  | x :: r, 0 => f x :: r
  | x :: r, i + 1 => x :: modAt f r i

/-- The value of a key in an association list, or a default. -/
def assocGet [BEq κ] (d : ν) : List (κ × ν) → κ → ν
  | [], _ => d
  | (k, v) :: r, x => if k == x then v else assocGet d r x

/-- The association list with one key set. -/
def assocSet [BEq κ] (k : κ) (v : ν) : List (κ × ν) → List (κ × ν)
  | [] => [(k, v)]
  | (k', v') :: r => if k' == k then (k, v) :: r else (k', v') :: assocSet k v r

/-! ## Byte lists in canonical form -/

/-- The byte at an address; 0 where none is listed. -/
def memGet : Mem → Nat → Byte
  | [], _ => 0
  | (k, v) :: r, a => if a < k then 0 else if a = k then v else memGet r a

/-- The list with one byte written; writing 0 removes the entry. -/
def memSet : Mem → Nat → Byte → Mem
  | [], a, b => if b = 0 then [] else [(a, b)]
  | (k, v) :: r, a, b =>
    if a < k then (if b = 0 then (k, v) :: r else (a, b) :: (k, v) :: r)
    else if a = k then (if b = 0 then r else (a, b) :: r)
    else (k, v) :: memSet r a b

/-- `n` bytes from `a`. -/
def memRead (m : Mem) (a : Nat) : Nat → List Byte
  | 0 => []
  | n + 1 => memGet m a :: memRead m (a + 1) n

/-- Bytes written from `a`. -/
def memWrite (m : Mem) (a : Nat) : List Byte → Mem
  | [] => m
  | b :: r => memWrite (memSet m a b) (a + 1) r

/-- The entries outside [a, a + n). -/
def memClear (m : Mem) (a n : Nat) : Mem := m.filter fun e => decide (e.1 < a) || decide (e.1 ≥ a + n)

/-- Whether every address is above `a` and the list is canonical. -/
def memWfFrom (a : Nat) : Mem → Bool
  | [] => true
  | (k, v) :: r => decide (a ≤ k) && v != 0 && memWfFrom (k + 1) r

/-- The canonical form: addresses strictly rising, no byte 0. -/
def Memory.wf (m : Memory) : Bool := memWfFrom 0 m.dram

/-! ## Where a physical address lies (R452, R453) -/

/-- The classes of a physical address: DRAM aperture, register space, a peer's span, host memory (DESIGN CHOICE log 5). -/
inductive PaClass where
  | dram | registers | peer (id off : Nat) | host
  deriving DecidableEq, Repr

/-- The bases of R452, R466 and R427. -/
def dramTop : Nat := 0x100000000000
def regBase : Nat := 0x00f000000000
def peerBase : Nat := 0x0008000000000000
def peerTop : Nat := 0x0010000000000000
def peerSpan : Nat := 0x20000000000
def windowOff : Nat := 0x1f000000000

def paClass (pa : Nat) : PaClass :=
  if regBase ≤ pa ∧ pa < regBase + 0x40000000 then .registers
  else if pa < dramTop then .dram
  else if peerBase ≤ pa ∧ pa < peerTop then .peer ((pa - peerBase) / peerSpan) ((pa - peerBase) % peerSpan)
  else .host

/-- The device's own span of the peer window names its own memory (R427). -/
def localPa (pa : Nat) : Nat :=
  match paClass pa with
  | .peer id off => if id = Config.deviceId ∧ off < windowOff then off else pa
  | _ => pa

/-- The stack-map entry of a granule. -/
def granule (m : Memory) (g : Nat) : BitVec 16 := assocGet 0 m.stackMap g

/-- Whether the 16 entries of an interleaved set agree (R453). -/
def interleaveOk (m : Memory) (g : Nat) : Bool :=
  let e := granule m g
  (List.range 16).all fun i =>
    let x := granule m (g / 16 * 16 + i)
    x.getLsbD 15 && x.getLsbD 14 && x.extractLsb' 0 7 == e.extractLsb' 0 7

/-- The stack and the stack-local address of a physical address in DRAM; none where no valid granule holds it (R453). -/
def dramPlace (m : Memory) (pa : Nat) : Option (Nat × Nat) :=
  if pa ≥ dramTop then none
  else
    let g := pa / 2 ^ 30
    let e := granule m g
    if g = 0x3c0 || !e.getLsbD 15 then none
    else if e.getLsbD 14 then
      if interleaveOk m g then
        let o := pa % 2 ^ 34
        some (o / 2 ^ 10 % 16, (e.extractLsb' 0 7).toNat * 2 ^ 30 + (o / 2 ^ 14 * 2 ^ 10 + o % 2 ^ 10))
      else none
    else some ((e.extractLsb' 8 4).toNat, (e.extractLsb' 0 7).toNat * 2 ^ 30 + pa % 2 ^ 30)

/-- The key of a place of DRAM: its stack, and its stack-local address below 2^37. -/
def dramKey (stack loc : Nat) : Nat := stack * 2 ^ 37 + loc

/-- The key of a physical address; none where no valid granule holds it. -/
def dramAt (m : Memory) (pa : Nat) : Option Nat := (dramPlace m pa).map fun p => dramKey p.1 p.2

/-- `n` bytes of one line of DRAM, without their code: zeros where no valid granule holds them (DESIGN CHOICE log 75). -/
def Memory.bytesAt (m : Memory) (pa n : Nat) : List Byte :=
  match dramAt m pa with
  | some k => memRead m.dram k n
  | none => bytesOf n 0

/-- One byte of DRAM, without its code. -/
def Memory.byteAt (m : Memory) (pa : Nat) : Byte :=
  match dramAt m pa with
  | some k => memGet m.dram k
  | none => 0

/-- The channel of a stack-local address (R454). -/
def channelOf (loc : Nat) : Nat := loc / 2 ^ 6 % 32

/-- The pseudo-channel, the line in the row, the bank and the row of a stack-local address (R454). -/
def pseudoOf (loc : Nat) : Nat := loc / 2 ^ 11 % 2
def rowLineOf (loc : Nat) : Nat := loc / 2 ^ 12 % 16
def bankOf (loc : Nat) : Nat := loc / 2 ^ 16 % 64
def rowOf (loc : Nat) : Nat := loc / 2 ^ 22 % 2 ^ 15

/-- Channel, pseudo-channel, bank and row of a stack-local address: the row that an access opens (R454, R461). -/
def dramRow (loc : Nat) : Nat × Nat × Nat × Nat := (channelOf loc, pseudoOf loc, bankOf loc, rowOf loc)

/-- The Foehn core of a stack that serves a stack-local address, by its number on the device (R454). -/
def foehnOf (stack loc : Nat) : Nat := 16 * stack + channelOf loc / 2

/-! ## Channel registers and counters -/

/-- The reset value of a PHY register at offset `off` of a channel block: the delays read 64 (R445), LANEMAP and the others 0. -/
def phyReset (off : Nat) : Word := if 0x100 ≤ off ∧ off < 0x500 ∧ (off / 4 % 32) < 19 then 64 else 0

/-- A PHY register of a channel. -/
def phyGet (k : Stack) (ch off : Nat) : Word := assocGet (phyReset off) k.phy (ch * 0x10000 + off)

def phySet (k : Stack) (ch off : Nat) (v : Word) : Stack := { k with phy := assocSet (ch * 0x10000 + off) v k.phy }

def State.modStack (s : State) (i : Nat) (f : Stack → Stack) : State := { s with baseDies := modAt f s.baseDies i }

def State.getStack (s : State) (i : Nat) : Stack := (s.baseDies[i]?).getD Stack.reset

/-- One more event in a saturating channel counter (R467): offsets 0x10 CORCNT, 0x14 UNCCNT, 0x18 MISCNT, 0x1c NLRCNT. -/
def State.count (s : State) (stack ch off : Nat) : State :=
  s.modStack stack fun k => phySet k ch off (let v := phyGet k ch off; if v = BitVec.allOnes 32 then v else v + 1)

/-! ## The causes of R278 -/

def cIllegal : BitVec 8 := 0x01
def cPrivilege : BitVec 8 := 0x02
def cRole : BitVec 8 := 0x03
def cWindow : BitVec 8 := 0x04
def cEmptyRead : BitVec 8 := 0x05
def cMisaligned : BitVec 8 := 0x06
def cScratch : BitVec 8 := 0x07
def cCapability : BitVec 8 := 0x08
def cNotPresent : BitVec 8 := 0x09
def cProtection : BitVec 8 := 0x0a
def cAttribute : BitVec 8 := 0x0b
def cAlias : BitVec 8 := 0x0c
def cUncorrectable : BitVec 8 := 0x0d
def cMisdirected : BitVec 8 := 0x0e
def cTileShape : BitVec 8 := 0x0f
def cTileStorage : BitVec 8 := 0x10
def cEngine : BitVec 8 := 0x11
def cNmCall : BitVec 8 := 0x12
def cSoftware : BitVec 8 := 0x13
def cBreakpoint : BitVec 8 := 0x14
def cWatchdog : BitVec 8 := 0x15

/-- The outcome of reading memory: bytes, or the cause a consumer gets. -/
inductive Data where
  | ok (bytes : List Byte)
  | bad (cause : BitVec 8)
  deriving DecidableEq, Repr

def Data.bytes (n : Nat) : Data → List Byte
  | .ok b => b
  | .bad _ => bytesOf n 0

def Data.err : Data → Option (BitVec 8)
  | .ok _ => none
  | .bad c => some c

/-! ## The requeue watch of wait-swapped teams (10 R271) -/

/-- Whether a change to an object requeues a team: it is out, not held and not back in its level, or its wait-swap has begun. -/
def Team.watched (t : Team) : Bool :=
  match t.place, t.leaving with
  | .saved _ _ held queued, _ => !held && !queued
  | .resident _ _, some (.swap woken) => !woken
  | _, _ => false

/-- A team that is out put back in its level; one whose save has begun goes back as soon as it is out (R270). -/
def Team.queue (t : Team) : Team :=
  match t.place with
  | .saved a p h _ => { t with place := .saved a p h true }
  | _ => { t with leaving := some (.swap true) }

/-- A change to what waiting threads that `p` names wait for: their teams, if watched, return to their levels. -/
def State.requeue (s : State) (p : Team → Thread → Bool) : State :=
  if s.teams.any (fun t => t.groups.any fun g => g.threads.any fun th => th.wait.isSome || th.park.isSome) then
    let f (t : Team) : Team :=
      if t.watched then (if t.groups.any (fun g => g.threads.any fun th => !th.exited && p t th) then t.queue else t) else t
    { s with teams := s.teams.map f }
  else s

/-- Whether a thread waits in WAITW, WAITX or BWAIT on a word or object of the 64-byte line of a frame address. -/
def Thread.watchesLine (pa : Nat) (th : Thread) : Bool :=
  match th.wait with
  | some (.bwait _ (some p)) => p / 64 == pa / 64
  | some (.word _ (some p)) => p / 64 == pa / 64
  | some (.wordSys _ (some p)) => p / 64 == pa / 64
  | _ => false

/-- A write to the line of a frame address, under whatever name and by whatever agent. -/
def State.wakeLine (s : State) (pa : Nat) : State := s.requeue fun _ th => th.watchesLine pa

/-- Whether a thread waits on a word or a barrier object of [off, off + n) of its team's own scratch. -/
def Thread.watchesScratch (lo n : Nat) (th : Thread) : Bool :=
  match th.wait with
  | some (.word va none) => decide (va / 64 * 64 < lo + n) && decide (lo < va / 64 * 64 + 64)
  | some (.wordSys va none) => decide (va / 64 * 64 < lo + n) && decide (lo < va / 64 * 64 + 64)
  | some (.bwait va none) => decide (va < lo + n) && decide (lo < va + 16)
  | _ => false

/-- The first address of the scratch aperture (06 R162). -/
def apBase : Nat := 0xfffffe0000000000

/-- A change to [off, off + n) of a team's scratch (10 R270, R271). -/
def State.wakeScratch (s : State) (tm off n : Nat) : State :=
  match s.teams[tm]? with
  | some t =>
    let hit (th : Thread) : Bool := !th.exited && th.watchesScratch (apBase + off) n
    if t.groups.any (fun g => g.threads.any hit) then
      { s with teams := modAt (fun x => if x.watched then x.queue else x) s.teams tm } else s
  | none => s

/-! ## The end-to-end code (R457) -/

/-- Twice a symbol in GF(2^8) over the polynomial 0x11d. -/
def gfTwice (a : Nat) : Nat := if a < 128 then 2 * a else (2 * a) ^^^ 0x11d

/-- The product of two symbols: the first eight bits of `b`, lowest first. -/
def gfMul (a b : Nat) : Nat :=
  ((List.range 8).foldl (fun (r : Nat × Nat) i => (if b.testBit i then r.1 ^^^ r.2 else r.1, gfTwice r.2)) (0, a)).1

/-- The generator, the product of x - α^i for i = 0 to 7 with α = 2, highest coefficient first. -/
def rsGenerator : List Nat :=
  ((List.range 8).foldl (fun (r : List Nat × Nat) _ =>
    (List.zipWith (· ^^^ ·) (r.1 ++ [0]) (0 :: r.1.map (gfMul r.2)), gfTwice r.2)) ([1], 1)).1

/-- The remainder of M(x) · x^8 by the generator, for the message symbols in order, highest coefficient first. -/
def rsRemainder (m : List Nat) : List Nat :=
  m.foldl (fun (r : List Nat) x =>
    let q := x ^^^ r.headD 0
    List.zipWith (· ^^^ ·) (r.tail ++ [0]) (rsGenerator.tail.map (gfMul q))) (List.replicate 8 0)

/-- The eight address symbols m64 to m71 of a line. -/
def addrSymbols (pa : Nat) : List Byte := bytesOf 8 (pa / 64)

/-- The check bytes r0 to r7 of a line of data under its physical address. -/
def checkBytes (pa : Nat) (data : List Byte) : List Byte :=
  (rsRemainder ((data ++ addrSymbols pa).map (·.toNat))).map fun x => BitVec.ofNat 8 x

/-- Symbols with the errors of a list, from position `at` on. -/
def withErrs (errs : List (Nat × Byte)) (pos : Nat) : List Byte → List Byte
  | [] => []
  | b :: r => (b ^^^ assocGet 0 errs pos) :: withErrs errs (pos + 1) r

/-! Under which address a line's code word was made (R452, R453, R457, R469): a rewrite of the stack map leaves it. -/

/-- The physical address that a name gives a stack-local address. -/
def CodeSpan.pa (x : CodeSpan) (loc : Nat) : Nat :=
  let o := loc % 2 ^ 30
  if x.inter then x.gran * 2 ^ 30 + (o / 2 ^ 10 * 2 ^ 14 + x.stack * 2 ^ 10 + o % 2 ^ 10) else x.gran * 2 ^ 30 + o

/-- The span [lo, hi) of a stack under the name that reaches it by `pa`. -/
def Memory.spanOf (m : Memory) (pa stack lo hi : Nat) : CodeSpan :=
  let g := pa / 2 ^ 30
  let inter := (granule m g).getLsbD 14
  { stack := stack, lo := lo, hi := hi, gran := if inter then g / 16 * 16 else g, inter := inter }

/-- What is left of a span outside [lo, hi) of a stack. -/
def CodeSpan.without (stack lo hi : Nat) (x : CodeSpan) : List CodeSpan :=
  if x.stack != stack || decide (x.hi ≤ lo) || decide (hi ≤ x.lo) then [x]
  else (if x.lo < lo then [{ x with hi := lo }] else []) ++ (if hi < x.hi then [{ x with lo := hi }] else [])

/-- Whether two spans of one name touch. -/
def CodeSpan.joins (n x : CodeSpan) : Bool :=
  x.stack == n.stack && x.gran == n.gran && x.inter == n.inter && (x.hi == n.lo || x.lo == n.hi)

/-- A span coded anew: it takes its lines from every other span. -/
def codeSpan (n : CodeSpan) (cs : List CodeSpan) : List CodeSpan :=
  let rest := cs.flatMap (CodeSpan.without n.stack n.lo n.hi)
  let near := rest.filter n.joins
  { n with lo := near.foldl (fun a x => Nat.min a x.lo) n.lo, hi := near.foldl (fun a x => Nat.max a x.hi) n.hi } ::
    rest.filter fun x => !n.joins x

/-- The address for which the code word of the line of a place was made. -/
def Memory.codedAt (m : Memory) (stack loc : Nat) : Option Nat :=
  (m.codes.find? fun x => x.stack == stack && decide (x.lo ≤ loc) && decide (loc < x.hi)).map fun x => x.pa (loc / 64 * 64)

/-- What DRAM stores of the line of a place: its 64 data bytes and 8 check bytes; of one not written yet, those that match `pa`. The address
symbols, positions 64 to 71, are stored nowhere. -/
def Memory.storedLine (m : Memory) (pa stack loc : Nat) : List Byte :=
  let key := dramKey stack loc / 64 * 64
  let errs := assocGet [] m.lineErrs key
  let data := memRead m.dram key 64
  withErrs errs 0 data ++ withErrs errs 72 (checkBytes ((m.codedAt stack loc).getD (pa / 64 * 64)) data)

/-- The symbol errors of a line read under `line` whose code word was made for `coded` (R457, R469). -/
def addrErrs (coded line : Nat) : List (Nat × Byte) :=
  (((addrSymbols coded).zip (addrSymbols line)).mapIdx fun i x => (64 + i, x.1 ^^^ x.2)).filter fun e => e.2 != 0

/-- Errors on top of errors. -/
def addErrs (a b : List (Nat × Byte)) : List (Nat × Byte) :=
  (b.foldl (fun (l : List (Nat × Byte)) (e : Nat × Byte) => assocSet e.1 (assocGet 0 l e.1 ^^^ e.2) l) a).filter fun e => e.2 != 0

/-- The symbol errors of the line of a place, read as the line of `pa`: of what is stored against its code word, and of the addresses against each
other. A line not written yet counts as coded for every address (DESIGN CHOICE log 3). -/
def Memory.errsAt (m : Memory) (pa stack loc : Nat) : List (Nat × Byte) :=
  let errs := assocGet [] m.lineErrs (dramKey stack loc / 64 * 64)
  match m.codedAt stack loc with
  | none => errs
  | some c => if c = pa / 64 * 64 then errs else addErrs errs (addrErrs c (pa / 64 * 64))

/-- The lines [lo, hi) of a stack coded for the addresses by which `pa` reaches them, without an error. -/
def Memory.code (m : Memory) (pa stack lo hi : Nat) : Memory :=
  { m with lineErrs := m.lineErrs.filter fun e => !(decide (dramKey stack lo ≤ e.1) && decide (e.1 < dramKey stack hi)),
           codes := codeSpan (m.spanOf pa stack lo hi) m.codes }

/-- The line of a place coded for `pa`, without an error. -/
def Memory.codeLine (m : Memory) (pa stack loc : Nat) : Memory :=
  if m.codedAt stack loc == some (pa / 64 * 64) && (assocGet [] m.lineErrs (dramKey stack loc / 64 * 64)).isEmpty then m
  else m.code pa stack (loc / 64 * 64) (loc / 64 * 64 + 64)

/-! ## Row activations (R461, R468) -/

/-- An event of the log (R468): kind 0 ALERT, 1 CAPTURE_FULL, 2 SPLIT. -/
def logWord (window row bank pc ch : Nat) (sequencer : Bool) (kind : Nat) : DWord :=
  BitVec.ofNat 64 (window % 65536 * 2 ^ 48 + row % 32768 * 2 ^ 33 + bank % 64 * 2 ^ 27 + pc % 2 * 2 ^ 26 + ch % 32 * 2 ^ 21 +
    sequencer.toNat * 2 ^ 20 + kind * 2 ^ 16)

/-- An event logged at HEAD, where `go` holds. -/
def Stack.logIf (k : Stack) (go : Bool) (row bank pc ch : Nat) (sequencer : Bool) (kind : Nat) : Stack :=
  { k with events := if go then assocSet k.evHead (logWord k.window row bank pc ch sequencer kind) k.events else k.events,
           evHead := if go then (k.evHead + 1) % 256 else k.evHead, evOvf := k.evOvf || (go && k.evHead == 255) }

/-- An event logged at HEAD. -/
def Stack.log (k : Stack) (row bank pc ch : Nat) (sequencer : Bool) (kind : Nat) : Stack := k.logIf true row bank pc ch sequencer kind

/-- The capture threshold and enable of a stack. -/
def Stack.capTh (k : Stack) : Nat := (k.capctl.extractLsb' 0 16).toNat
def Stack.capEn (k : Stack) : Bool := k.capctl.getLsbD 16

/-- A row activated once more, where `go` holds: captured at the threshold, or, with the cache full, refreshed around and logged. A captured
row is never activated (R460). -/
def Stack.activateIf (k : Stack) (go : Bool) (ch pc bank row : Nat) : Stack :=
  let key := (ch, pc, bank, row)
  let counts := go && !k.captured.contains key
  let n := assocGet 0 k.rowCounts key + 1
  let hot := counts && k.capEn && decide (k.capTh ≤ n)
  let full := hot && decide (4096 ≤ k.captured.length)
  ({ k with rowCounts := if counts then assocSet key (if full then 0 else n) k.rowCounts else k.rowCounts,
            captured := if hot && !full then key :: k.captured else k.captured,
            fullcnt := if full then Nat.min (k.fullcnt + 1) 0xffff else k.fullcnt } : Stack).logIf full row bank pc ch false 1

def Stack.activate (k : Stack) (ch pc bank row : Nat) : Stack := k.activateIf true ch pc bank row

/-- An access to DRAM at `pa` reaches its row, if `go` holds: the controller opens it where `Config.opensRow` says so (R461, DESIGN CHOICE log 7). A
region that is not live is not accessed. -/
def State.openRow (s : State) (go : Bool) (pa : Nat) : State :=
  match dramPlace s.mem pa with
  | none => s
  | some (stack, loc) => s.modStack stack fun k =>
    k.activateIf (go && !k.dead.contains (loc / 2 ^ 20) && Config.opensRow s.tick pa) (channelOf loc) (pseudoOf loc) (bankOf loc) (rowOf loc)

/-! ## DRAM behind its code (R457 to R459, R464) -/

/-- The Foehn cycles since reset: 1.4 GHz beside the 2.1 GHz of the clock (00 R2, 03 R77, DESIGN CHOICE log 2). -/
def State.foehnClock (s : State) : Nat := s.clock * 2 / 3

/-- The next undefined byte (DESIGN CHOICE log 7). -/
def State.free (s : State) : Byte × State := (Config.freeByte s.freeCtr, { s with freeCtr := s.freeCtr + 1 })

/-- `n` undefined bytes. -/
def State.freeBytes (s : State) : Nat → List Byte × State
  | 0 => ([], s)
  | n + 1 =>
    let (b, s1) := s.free
    let (r, s2) := s1.freeBytes n
    (b :: r, s2)

/-- Bytes from address `a` with those at addresses [lo, hi) replaced by undefined ones. -/
def freeRange (s : State) (lo hi : Nat) : Nat → List Byte → State × List Byte
  | _, [] => (s, [])
  | a, b :: r =>
    let (s1, b1) := if lo ≤ a ∧ a < hi then s.free.swap else (s, b)
    let (s2, r2) := freeRange s1 lo hi (a + 1) r
    (s2, b1 :: r2)

def State.setMem (s : State) (m : Memory) : State := { s with mem := m }

/-- Bytes read at `pa`, undefined in the words of the ranges where extents of two calls overlap (20 R424). -/
def State.blur (s : State) (pa : Nat) (bs : List Byte) : State × List Byte :=
  if s.calls.all (·.clash.isEmpty) then (s, bs)
  else (s.calls.flatMap (·.clash)).foldl (fun (r : State × List Byte) (x : Nat × Nat) =>
    freeRange r.1 (x.1 / 4 * 4) ((x.1 + x.2 + 3) / 4 * 4) pa r.2) (s, bs)

/-- The errors of a line that the device itself stores with a failing code, for data it moves and could not correct (00 R13): an error beyond the
80 symbols, which no check corrects. -/
def failingCode : List (Nat × Byte) := [(80, 1)]

/-- The check of a line when a consumer reads it (R459): the state with the counters and corrections, and the cause if nothing is
delivered. Five errors and more are what `Config.miscorrect` makes of them. -/
def State.checkLine (s : State) (pa stack loc : Nat) : State × Option (BitVec 8) :=
  let ch := channelOf loc
  let key := dramKey stack loc / 64 * 64
  match s.mem.errsAt pa stack loc with
  | [] => (s, none)
  | errs =>
    let clean : State := s.setMem (s.mem.codeLine pa stack loc)
    if errs.any fun e => decide (80 ≤ e.1) then (s.count stack ch 0x14, some cUncorrectable)
    else if errs.length ≤ 4 then
      if errs.any fun e => decide (64 ≤ e.1) && decide (e.1 < 72) then (s.count stack ch 0x18, some cMisdirected)
      else (clean.count stack ch 0x10, none)
    else match Config.miscorrect errs (memRead s.mem.dram key 64) with
      | some d => ((clean.setMem { clean.mem with dram := memWrite clean.mem.dram key (d.take 64) }).count stack ch 0x10, none)
      | none => (s.count stack ch 0x14, some cUncorrectable)

/-- `n` bytes of one line read behind their code. A region that is not live reads zeros (R464), and so does an address that no valid granule
holds (DESIGN CHOICE log 75). -/
def State.dramLook (s : State) (pa n : Nat) : State × Data :=
  match dramPlace s.mem pa with
  | none => (s, .ok (bytesOf n 0))
  | some (stack, loc) =>
    if (s.getStack stack).dead.contains (loc / 2 ^ 20) then (s.count stack (channelOf loc) 0x1c, .ok (bytesOf n 0))
    else
      let (s1, e) := s.checkLine pa stack loc
      match e with
      | some c => (s1, .bad c)
      | none =>
        let (s2, b) := s1.blur pa (memRead s1.mem.dram (dramKey stack loc) n)
        (s2, .ok b)

/-- `n` bytes of one line read from DRAM, whose row the access may open (R461). -/
def State.dramRead (s : State) (pa n : Nat) : State × Data :=
  let (s1, d) := s.dramLook pa n
  (s1.openRow true pa, d)

/-- A write by way of `pa` makes its region live and fills it with zeros, which are coded for the addresses that go with `pa` (R457, R464). -/
def State.makeLive (s : State) (pa stack mib : Nat) : State :=
  if (s.getStack stack).dead.contains mib then
    let s1 := s.modStack stack fun k => { k with dead := k.dead.filter (· != mib), filling := mib :: k.filling }
    s1.setMem ({ s1.mem with dram := memClear s1.mem.dram (dramKey stack (mib * 2 ^ 20)) (2 ^ 20) }.code pa stack (mib * 2 ^ 20)
      (mib * 2 ^ 20 + 2 ^ 20))
  else s

/-- Pieces of one line, by physical address, put into the bytes of DRAM. -/
def putPieces (m : Memory) (ps : List (Nat × List Byte)) : Mem :=
  ps.foldl (fun (d : Mem) (p : Nat × List Byte) => match dramAt m p.1 with
    | some k => memWrite d k p.2
    | none => d) m.dram

/-- Pieces of the line of `pa` written to DRAM as one access, each an address and its bytes; `whole` says that they cover the line. A part of a
line is merged only into a line that reads correctly (R458, R459), and the outcome names the cause when it is not performed. The line is coded
for `pa` (R457). A write to an address that no valid granule holds is dropped (DESIGN CHOICE log 75). -/
def State.lineWrite (s : State) (pa : Nat) (whole : Bool) (ps : List (Nat × List Byte)) : State × Option (BitVec 8) :=
  match dramPlace s.mem pa with
  | none => (s, none)
  | some (stack, loc) =>
    let put (t : State) : State :=
      ((t.setMem ({ t.mem with dram := putPieces t.mem ps }.codeLine pa stack loc)).wakeLine pa).openRow true pa
    let s0 := s.makeLive pa stack (loc / 2 ^ 20)
    if whole then (put s0, none)
    else
      let (s1, e) := s0.checkLine pa stack loc
      match e with
      | some c => (s1, some c)
      | none => (put s1, none)

/-- Bytes of one line written to DRAM. -/
def State.dramWrite (s : State) (pa : Nat) (bytes : List Byte) : State × Option (BitVec 8) :=
  s.lineWrite pa (bytes.length == 64 && pa % 64 == 0) [(pa, bytes)]

/-- The pieces of [a, a + n) that lie in one line each, as (start, length), at most `fuel` of them. -/
def linePieces : Nat → Nat → Nat → List (Nat × Nat)
  | 0, _, _ => []
  | fuel + 1, a, n =>
    if n = 0 then []
    else
      let k := Nat.min n (64 - a % 64)
      (a, k) :: linePieces fuel (a + k) (n - k)

/-- [a, a + n) cut at line borders. -/
def piecesOf (a n : Nat) : List (Nat × Nat) := linePieces (n / 64 + 2) a n

/-- The words of [a, a + n): each word address with the first byte within it and the count. -/
def wordPieces : Nat → Nat → Nat → List (Nat × Nat × Nat)
  | 0, _, _ => []
  | fuel + 1, a, n =>
    if n = 0 then []
    else
      let k := Nat.min n (4 - a % 4)
      (a / 4 * 4, a % 4, k) :: wordPieces fuel (a + k) (n - k)

/-- [a, a + n) cut at word borders. -/
def wordsIn (a n : Nat) : List (Nat × Nat × Nat) := wordPieces (n / 4 + 2) a n

/-- Bytes of a word. -/
def wordBytes (w : Word) (off n : Nat) : List Byte := ((bytesOf 4 w.toNat).drop off).take n

/-- A word with bytes merged at `off`. -/
def mergeWord (w : Word) (off : Nat) (bs : List Byte) : Word :=
  let b := bytesOf 4 w.toNat
  BitVec.ofNat 32 (natOf (b.take off ++ bs ++ b.drop (off + bs.length)))

/-! ## Traffic that waits (R456) -/

/-- Offset of LGCFG in a channel block (R455). -/
def offLgcfg : Nat := 0x008

/-- The test that runs on a channel. -/
def State.testOn (s : State) (stack ch : Nat) : Option PatternTest := s.tests.find? fun t => t.stack == stack && t.ch == ch

/-- The lane groups that carry a direction under a mode of LGCFG (R455). -/
def groupsOf (mode : Nat) (write : Bool) : List Nat :=
  let reads := match mode with
    | 0 => 3
    | 1 => 2
    | _ => 1
  (List.range 4).filter fun g => (decide (g < reads)) != write

/-- Whether no channel of the device turns its groups around or runs a pattern test. -/
def State.channelsOpen (s : State) : Bool := s.tests.isEmpty && s.baseDies.all (·.turning.isEmpty)

/-- Whether a command of a direction waits at the channel of a frame address: the channel turns its groups around, or a pattern test holds the
only group of that direction. -/
def State.channelBusy (s : State) (write : Bool) (pa : Nat) : Bool :=
  if s.channelsOpen then false
  else match dramPlace s.mem pa with
  | none => false
  | some (st, loc) =>
    let k := s.getStack st
    let ch := channelOf loc
    k.turning.contains ch || match s.testOn st ch with
      | some t => groupsOf ((phyGet k ch offLgcfg).extractLsb' 0 2).toNat write == [t.group]
      | none => false

/-- Whether a line of [pa, pa + n) lies behind such a channel. -/
def State.rangeBusy (s : State) (write : Bool) (pa n : Nat) : Bool := (piecesOf pa n).any fun p => s.channelBusy write p.1

/-- Requests that stall come again (17 R390, 22 R456). -/
def State.resume (s : State) : State := { s with agenda := s.stalled ++ s.agenda, stalled := [] }

end Sys2Proof.Machine
end

