-- ==== Sys2Proof/Machine/Operands.lean ====
section
/-! DEFINITION. Operand forms: the register encodings of 01 R26, pairs and quads (R30), windows (R31), shape tags (R33 to R35),
full and empty registers with their marks (R37, 06 R166), capability tags (R40 to R43), common registers (09 R248, R249), and
the write of a result to a destination. -/

namespace Sys2Proof.Machine

open Sys2Proof

/-! ## Teams, groups and threads of a state -/

/-- A team that is not there. -/
def Team.blank : Team :=
  { kind := .team, ctx := 0, handle := 0, index := 0, tmx := 0, tmy := 0, tmz := 0, gw := 16, nregs := 96, pair := false,
    fusel1 := false, prio := 0, curPrio := 0, savePrio := 0, seed := 0, rings := [], argo := 0, place := .ended, placedAt := 0, groups := [],
    cregs := [], ctags := 0,
    pool := { scrBanks := 0, mxsBanks := 0, scr := [], scrTags := [], scrErrs := [], mxs := [], flags := [], mxsErrs := [],
              relocs := 0, waits := 0, refusals := 0, grants := 0, peakScr := 0, peakMxs := 0, peakReg := 0 },
    eng := { tiles := [], mcr := 0, mfx := 0, latch := none, latchIssued := none, queue := [], seq := 1, issuedAny := false,
             done := 0, covered := [], faults := [], egen := 1, stale := [] },
    cmdCounter := 1, arrivals := [], leaving := none, recordAt := 0, saved := [], spillAt := 0, callId := 0 }

def State.team (s : State) (tm : Nat) : Team := (s.teams[tm]?).getD Team.blank

def State.modTeam (s : State) (i : Nat) (f : Team → Team) : State := { s with teams := modAt f s.teams i }

def Team.modGroup (t : Team) (g : Nat) (f : Group → Group) : Team := { t with groups := modAt f t.groups g }

def Group.modThread (g : Group) (l : Nat) (f : Thread → Thread) : Group := { g with threads := modAt f g.threads l }

def State.modGroup (s : State) (t g : Nat) (f : Group → Group) : State := s.modTeam t fun x => x.modGroup g f

def State.modThread (s : State) (t g l : Nat) (f : Thread → Thread) : State := s.modGroup t g fun x => x.modThread l f

/-- The group with a change made to the threads of some lanes. -/
def Group.modLanes (g : Group) (ls : List Nat) (f : Nat → Thread → Thread) : Group :=
  { g with threads := g.threads.mapIdx fun i t => if ls.contains i then f i t else t }

/-- The threads that have not exited (R241). -/
def Group.live (g : Group) : List Nat := (List.range g.threads.length).filter fun i => match g.threads[i]? with
  | some t => !t.exited
  | none => false

/-- Threads of the team (%nthr, R235). -/
def Team.nthr (t : Team) : Nat := t.groups.length * t.gw

/-- Whether the team runs on a Foehn core: a near-memory call or firmware (R411). -/
def Team.onFoehn (t : Team) : Bool := t.kind != .team

/-- The core of a group: the odd core of a pair for an odd group (R236); 0 to 255 on base dies (R412). -/
def Team.coreOf (t : Team) (g : Nat) : Nat :=
  match t.place with
  | .resident c _ => if t.pair && g % 2 == 1 then c + 1 else c
  | .foehn st c => st * 16 + c
  | _ => 0

/-- Scratch bytes of the team: its SCR banks, or the local store of a Foehn core (R298, R414). -/
def Team.scrBytes (t : Team) : Nat := if t.onFoehn then 262144 else t.pool.scrBanks * 8192

/-! ## Register values -/

/-- The value of one lane. -/
def Shape.at (v : Shape) (lane : Nat) : Word :=
  match v with
  | .u x => x
  | .a b st => b + BitVec.ofNat 32 lane * st
  | .g vs => (vs[lane]?).getD 0

/-- The words of every lane of a group of width `gw`. -/
def Shape.expand (v : Shape) (gw : Nat) : List Word := (List.range gw).map v.at

/-- A register as an operation sees it: window base, team and group taken into account. -/
structure View where
  team : Team
  grp : Nat
  group : Group
  base : Nat
  deriving DecidableEq, Repr

/-- The allocation register behind a v encoding (R31). -/
def View.vreg (w : View) (r : Nat) : VReg := (w.group.regs[w.base + r]?).getD VReg.fresh

/-- The common register behind a c encoding. -/
def View.creg (w : View) (r : Nat) : CReg := (w.team.cregs[r - 96]?).getD CReg.fresh

/-- The special registers, with their tags (R26, R412). -/
def View.special (w : View) (r : Nat) : Shape :=
  let t := w.team
  let u (n : Nat) : Shape := .u (BitVec.ofNat 32 n)
  match r with
  | 112 => .a 0 1
  | 113 => u w.grp
  | 114 => u t.index
  | 115 => u t.gw
  | 116 => u t.nthr
  | 117 => u (t.coreOf w.grp)
  | 118 => .a (BitVec.ofNat 32 (w.grp * t.gw)) 1
  | 119 => u t.tmx
  | 120 => u t.tmy
  | 121 => u t.tmz
  | 122 => u t.argo
  | 123 => u t.ctx
  | 124 => .g (w.group.threads.map (·.fx))
  | _ => .u 0

/-- What the standing instruction of a lane has seen (R248). -/
def View.seen (w : View) (lane : Nat) : Option Seen := (w.group.threads[lane]?).bind (·.seen)

/-- Whether an encoding names a common register. -/
def isCommon (r : Nat) : Bool := decide (96 ≤ r) && decide (r < 112)

/-- A common register as a thread reads it: an instruction that has issued and stands goes on seeing what it held at its issue (R248). -/
def Thread.common (th : Thread) (r : Nat) (now : Word) : Word :=
  match th.seen with
  | some x => (x.vals[r - 96]?).getD 0
  | none => now

/-- A common register: one value, but where some threads of the group see an older one. -/
def View.common (w : View) (r : Nat) : Shape :=
  let v := (w.creg r).val
  match w.group.threads.filter fun th => !th.exited with
  | [] => .u v
  | th :: ths => if ths.all fun x => x.common r v == th.common r v then .u (th.common r v) else .g (w.group.threads.map fun x => x.common r v)

/-- The shape and values a register encoding reads (R26). -/
def View.shape (w : View) (r : Nat) : Shape :=
  if r < 96 then (w.vreg r).shape
  else if r < 112 then w.common r
  else w.special r

/-- `reg(L, n)`. -/
def View.reg (w : View) (r : Reg) (lane : Nat) : Word := (w.shape r.toNat).at lane

/-- The register `i` of a pair or quad: z stays z (R30), and every other special encoding from 112 on gives its value for each word; of the even ones
below z only TRDR and TWRR of an FP64 tile can name a pair, which R149 leaves an instruction (DESIGN CHOICE log 77). -/
def regPlus (r : Reg) (i : Nat) : Nat := if r.toNat ≥ 112 then r.toNat else r.toNat + i

/-- `pair(L, n)` as a number; z reads zero. -/
def View.pair (w : View) (r : Reg) (lane : Nat) : Nat :=
  ((w.shape (regPlus r 0)).at lane).toNat + 2 ^ 32 * ((w.shape (regPlus r 1)).at lane).toNat

/-- `quad(L, n)` as a number. -/
def View.quad (w : View) (r : Reg) (lane : Nat) : Nat :=
  natOfWords ((List.range 4).map fun i => (w.shape (regPlus r i)).at lane)

/-- The words of `n` registers from `r`. -/
def View.words (w : View) (r : Reg) (n lane : Nat) : List Word :=
  (List.range n).map fun i => (w.shape (regPlus r i)).at lane

/-! ## Shape rules (R34) -/

/-- The class of a source operand. -/
inductive Cls where
  | u | a | g
  deriving DecidableEq, Repr

def Shape.cls : Shape → Cls
  | .u _ => .u
  | .a _ _ => .a
  | .g _ => .g

/-- A source: its first register and how many registers it names. A pair or quad is U only when every register is. -/
def View.cls (w : View) (src : Reg × Nat) : Cls :=
  if src.2 = 1 then (w.shape src.1.toNat).cls
  else if (List.range src.2).all fun i => (w.shape (regPlus src.1 i)).cls == .u then .u else .g

/-- The result tag a description states: the table of R34, or U or G outright; `same` is the table for a result that lanes with
equal sources may find different, and then it is G. -/
inductive TagRule where
  | table | u | g | same
  | add (a b : Reg) | sub (a b : Reg) | mul (a b : Reg) | sll (a b : Reg) | mov (a : Reg)
  | addi (a : Reg) (k : Word) | slli (a : Reg) (n : Nat)
  | like (a : Reg)
  deriving DecidableEq, Repr

/-- The stride of a register, 0 for U. -/
def Shape.stride : Shape → Word
  | .a _ s => s
  | _ => 0

/-- The base of a register read as U or A. -/
def Shape.base : Shape → Word
  | .a b _ => b
  | .u v => v
  | .g vs => (vs[0]?).getD 0

/-- The A shape R34 gives these sources, if it does: one A and one U in either order for ADD, SUB and MUL; A by U for SLL; A
for MOV. -/
def View.affine (w : View) : TagRule → Option Shape
  | .add a b =>
    let x := w.shape a.toNat; let y := w.shape b.toNat
    if (x.cls == .a && y.cls == .u) || (x.cls == .u && y.cls == .a) then
      some (.a (x.base + y.base) (x.stride + y.stride)) else none
  | .sub a b =>
    let x := w.shape a.toNat; let y := w.shape b.toNat
    if (x.cls == .a && y.cls == .u) || (x.cls == .u && y.cls == .a) then
      some (.a (x.base - y.base) (x.stride - y.stride)) else none
  | .mul a b =>
    let x := w.shape a.toNat; let y := w.shape b.toNat
    if x.cls == .a && y.cls == .u then some (.a (x.base * y.base) (x.stride * y.base))
    else if x.cls == .u && y.cls == .a then some (.a (x.base * y.base) (y.stride * x.base)) else none
  | .sll a b =>
    let x := w.shape a.toNat; let y := w.shape b.toNat
    if x.cls == .a && y.cls == .u then
      some (.a (x.base <<< (y.base.toNat % 32)) (x.stride <<< (y.base.toNat % 32))) else none
  | .mov a =>
    let x := w.shape a.toNat
    if x.cls == .a then some x else none
  | .addi a k =>
    let x := w.shape a.toNat
    if x.cls == .a then some (.a (x.base + k) x.stride) else none
  | .slli a n =>
    let x := w.shape a.toNat
    if x.cls == .a then some (.a (x.base <<< n) (x.stride <<< n)) else none
  | _ => none

/-- The tag of a result over its sources: an A shape, or U, or G. -/
inductive ResTag where
  | u | g | same
  | a (v : Shape)
  deriving DecidableEq, Repr

def View.resTag (w : View) (rule : TagRule) (srcs : List (Reg × Nat)) : ResTag :=
  match rule with
  | .u => .u
  | .g => .g
  | .like a => if w.cls (a, 1) == .u then .u else .g
  | .same => if srcs.all fun x => w.cls x == .u then .same else .g
  | _ => match w.affine rule with
    | some v => .a v
    | none => if srcs.all fun x => w.cls x == .u then .u else .g

/-! ## Readiness (R37, R166, R249) -/

/-- What stands in the way of reading a register in a lane. -/
inductive Ready where
  | ok
  | empty
  | marked (cause : BitVec 8) (addr : DWord)
  deriving DecidableEq, Repr

def View.readiness (w : View) (r lane : Nat) : Ready :=
  if r < 96 then
    let v := w.vreg r
    match v.marks.find? (fun m => m.lane == lane) with
    | some m => .marked m.cause m.addr
    | none => if v.empty.getLsbD lane then .empty else .ok
  else if r < 112 then
    let c := w.creg r
    match c.mark with
    | some (k, a) => .marked k a
    | none => if c.empty then .empty else .ok
  else .ok

/-- What stands in the way of a source: an instruction that has issued has its common registers already (R248). -/
def View.sourceReady (w : View) (r lane : Nat) : Ready :=
  if isCommon r && (w.seen lane).isSome then .ok else w.readiness r lane

/-- Whether a destination is empty and the instruction waits for it (R37, R249); a standing load has marked its own empty itself. -/
def View.destEmpty (w : View) (r lane : Nat) : Bool :=
  w.readiness r lane == .empty && !(isCommon r && (w.seen lane).any (·.opened))

/-- The register numbers of operands. -/
def regsOf (ops : List (Reg × Nat)) : List Nat :=
  ops.flatMap fun o => (List.range o.2).map fun i => regPlus o.1 i

/-! ## Writing results -/

/-- How a lane leaves an instruction. -/
inductive LaneEnd where
  | next                                            -- continues at PC + 4
  | goto (pc : DWord)                               -- continues elsewhere
  | fault (cause : BitVec 8) (code : Nat) (addr : DWord)
  | park (addr : DWord)                             -- PAGE_NOT_PRESENT
  | stay                                            -- stands at the instruction and issues it again
  | pend                                            -- the same at a memory instruction whose access is not accepted yet (06 R163)
  | wait (k : WaitKind)                             -- stands at a wait instruction whose condition is false (09 R256)
  | exit
  | abort (code : Nat)                              -- the lane's transaction aborts (06 R194)
  deriving DecidableEq, Repr

/-- What an instruction does in one lane: its end, the words of its destination (none: no write), whether the destination quad's
capability tag is set, the %fx bits it adds and the generator state it leaves. -/
structure LaneOut where
  lane : Nat
  ends : LaneEnd
  vals : List Word
  tag : Bool
  fx : Word
  rng : Option Word
  deriving DecidableEq, Repr

/-- A lane that continues and writes `vals`. -/
def LaneOut.write (lane : Nat) (vals : List Word) : LaneOut :=
  { lane := lane, ends := .next, vals := vals, tag := false, fx := 0, rng := none }

/-- A lane that ends in `e` and writes nothing. -/
def LaneOut.only (lane : Nat) (e : LaneEnd) : LaneOut :=
  { lane := lane, ends := e, vals := [], tag := false, fx := 0, rng := none }

/-- A lane that faults. -/
def LaneOut.fault (lane : Nat) (cause : BitVec 8) (addr : Nat) : LaneOut :=
  .only lane (.fault cause 0 (BitVec.ofNat 64 addr))

def LaneEnd.isFault : LaneEnd → Bool
  | .fault _ _ _ => true
  | .park _ => true
  | _ => false

/-- The v register with word `i` of the written lanes stored: as U or A when the whole group writes that (R34), else as G in
the writing lanes only (R35). Written lanes become full and lose their marks. -/
def VReg.store (v : VReg) (gw : Nat) (outs : List LaneOut) (i : Nat) (whole : Option Shape) : VReg :=
  match whole with
  | some sh => { shape := sh, empty := 0, marks := [] }
  | none =>
    let old := v.shape.expand gw
    let put (l : Nat) (w : Word) : Word := match outs.find? (fun o => o.lane == l && !o.vals.isEmpty) with
      | some o => (o.vals[i]?).getD 0
      | none => w
    let ls := (outs.filter fun o => !o.vals.isEmpty).map (·.lane)
    { shape := .g (old.mapIdx put), empty := v.empty &&& ~~~(maskOf ls), marks := v.marks.filter fun m => !ls.contains m.lane }

/-- Word `i` of a whole-group result: U from the first lane, A only for single registers. -/
def wholeShape (outs : List LaneOut) (tag : ResTag) (i : Nat) : Option Shape :=
  match tag with
  | .g => none
  | .a v => some v
  | .u => match outs with
    | o :: _ => some (.u ((o.vals[i]?).getD 0))
    | [] => none
  | .same => match outs with
    | o :: r => if r.all fun x => x.vals == o.vals then some (.u ((o.vals[i]?).getD 0)) else none
    | [] => none

/-- The capability tag bits of the quads that allocation registers [r, r + n) touch. -/
def quadBits (r n : Nat) : BitVec 64 := maskOf ((List.range n).map fun i => (r + i) / 4)

/-- The highest lane that writes (R29). -/
def lastWriter : List LaneOut → Option LaneOut
  | [] => none
  | o :: r => match lastWriter r with
    | some x => some x
    | none => if o.vals.isEmpty then none else some o

/-- Allocation register `i` when `n` registers from `r` are written. -/
def VReg.storeAt (gw r n : Nat) (outs : List LaneOut) (whole : Bool) (tag : ResTag) (i : Nat) (v : VReg) : VReg :=
  if r ≤ i ∧ i < r + n then v.store gw outs (i - r) (if whole then wholeShape outs tag (i - r) else none) else v

/-- The capability tags of the thread of lane `l` after a write to the quads `q` (R41). -/
def Thread.tagWrite (q : BitVec 64) (outs : List LaneOut) (l : Nat) (th : Thread) : Thread :=
  match outs.find? (fun o => o.lane == l && !o.vals.isEmpty) with
  | some o => { th with capTags := if o.tag then th.capTags ||| q else th.capTags &&& ~~~q }
  | none => th

/-- The result of an operation written to `n` registers from `d` (R27, R29, R34, R35, R41, R248): nothing for the specials and
z; the highest lane's words for c registers; else each lane's words. `full` says that the operation held every non-exited
thread of the group. Lanes with no words write nothing. -/
def Team.writeRegs (t : Team) (grp base : Nat) (d : Reg) (n : Nat) (full : Bool) (tag : ResTag) (outs : List LaneOut) : Team :=
  let r := d.toNat
  if r ≥ 112 || n = 0 then t
  else if r ≥ 96 then
    match lastWriter outs with
    | none => t
    | some o =>
      let k := r - 96
      { t with cregs := t.cregs.mapIdx fun i c =>
                 if k ≤ i ∧ i < k + n then { val := (o.vals[i - k]?).getD 0, empty := false, mark := none } else c,
               ctags := if o.tag then t.ctags ||| (quadBits k n).setWidth 4 else t.ctags &&& ~~~((quadBits k n).setWidth 4) }
  else
    let whole := full && outs.all (fun o => !o.vals.isEmpty)
    let q := quadBits (base + r) n
    t.modGroup grp fun g =>
      { g with regs := g.regs.mapIdx (VReg.storeAt t.gw (base + r) n outs whole tag),
               threads := g.threads.mapIdx (Thread.tagWrite q outs) }

/-- The capability tag of the quad whose first register is `r`: the thread's, or the team's for c registers (R97). -/
def View.capTag (w : View) (r : Reg) (lane : Nat) : Bool :=
  let k := r.toNat
  if k ≥ 112 then false
  else if k ≥ 96 then (((w.seen lane).map (·.tags)).getD w.team.ctags).getLsbD ((k - 96) / 4)
  else match w.group.threads[lane]? with
    | some th => th.capTags.getLsbD ((w.base + k) / 4)
    | none => false

/-- The registers [d, d + n) made empty in the given lanes, as an async-producing instruction does at issue (R37, R249). -/
def Team.emptyRegs (t : Team) (grp base : Nat) (d : Reg) (n : Nat) (ls : List Nat) : Team :=
  let r := d.toNat
  if r ≥ 112 || ls.isEmpty then t
  else if r ≥ 96 then
    let k := r - 96
    { t with cregs := t.cregs.mapIdx fun i c => if k ≤ i ∧ i < k + n then { c with empty := true, mark := none } else c,
             ctags := t.ctags &&& ~~~((quadBits k n).setWidth 4) }
  else
    let q := quadBits (base + r) n
    t.modGroup grp fun g =>
      { g with regs := g.regs.mapIdx (fun i v =>
                 if base + r ≤ i ∧ i < base + r + n then
                   { v with empty := v.empty ||| maskOf ls, marks := v.marks.filter fun m => !ls.contains m.lane } else v),
               threads := g.threads.mapIdx (fun l th => if ls.contains l then { th with capTags := th.capTags &&& ~~~q } else th) }

end Sys2Proof.Machine
end

