-- ==== Sys2Proof/Machine/Translate.lean ====
section
/-! DEFINITION. Contexts, fault-queue postings, region tokens, and translation: the page-table walk, the slice translation buffer,
the attribute lookaside buffers and the alias directory (18 R392 to R403, 06 R163, 10 R281). -/

namespace Sys2Proof.Machine

open Sys2Proof

/-! ## Contexts -/

/-- A context by its id. -/
def State.ctxOf (s : State) (id : Nat) : Option Ctx := s.ctxs.find? (·.id == id)

def State.modCtx (s : State) (id : Nat) (f : Ctx → Ctx) : State :=
  { s with ctxs := s.ctxs.map fun c => if c.id == id then f c else c }

/-- The watchdog counters of a context, and of every context, return to 0 (10 R276). -/
def State.signal (s : State) (ctx : Nat) : State := s.modCtx ctx fun c => { c with watchdog := s.clock }

def State.signalAll (s : State) : State := { s with ctxs := s.ctxs.map fun c => { c with watchdog := s.clock } }

def State.asidOf (s : State) (id : Nat) : Nat := ((s.ctxOf id).map (·.asid)).getD 0

def State.modCore (s : State) (i : Nat) (f : Core → Core) : State := { s with cores := modAt f s.cores i }

def State.getCore (s : State) (i : Nat) : Core := (s.cores[i]?).getD Core.reset

/-! ## Fault records (R281, R485) -/

/-- The key of a record source: its type and number. -/
def srcKey (ty num : Nat) : Nat := ty * 65536 + num

/-- The next sequence number of a source, counted in each context (R281, DESIGN CHOICE log 62). -/
def Ctx.nextSeq (c : Ctx) (key : Nat) : Nat := assocGet 0 c.seqs key

/-- A record posted by its source: it takes the source's next sequence number and waits to be written (R281, R277). -/
def State.post (s : State) (r : FaultRecord) : State :=
  s.modCtx r.ctx fun c =>
    let key := srcKey r.srcType r.srcNum
    let n := c.nextSeq key
    { c with held := c.held ++ [{ r with seq := n }], seqs := assocSet key (n + 1) c.seqs }

/-- The empty record of a context, at the present clock. -/
def State.record (s : State) (ctx : Nat) (cause : BitVec 8) (kind srcType srcNum : Nat) : FaultRecord :=
  { cause := cause, kind := kind, srcType := srcType, srcNum := srcNum, ctx := ctx, mask := 0, addr := 0, pc := 0, seq := 0,
    handle := 0, team := 0, core := 0, grp := 0, time := BitVec.ofNat 64 s.clock }

/-- The slice number of a line, by the hash of R393 and the placement. -/
def sliceOf (asid va : Nat) (pinned : Bool) (stack : Nat) : Nat :=
  let h := Config.sliceHash asid (va / 64)
  if pinned then stack * 16 + h % 16 else h % 256

/-- A translation held by the slices covers `va`. -/
def TbEntry.covers (e : TbEntry) (asid va : Nat) : Bool := e.asid == asid && decide (e.base ≤ va) && decide (va < e.base + e.size)

/-- The home slice of a line by the translation that a copy or a command keeps for it (R393, R404). -/
def State.keptSlice (s : State) (asid va : Nat) : Option Nat :=
  match s.copies.find? fun c => c.va / 64 == va / 64 && s.asidOf (s.team c.team).ctx == asid with
  | some c => some c.slice
  | none => s.cmds.findSome? fun c => if s.asidOf c.ctx == asid then
      (c.tlb.find? fun e => e.page == va / 65536).map fun e => sliceOf asid va e.pin.isSome (e.pin.getD 0) else none

/-- The home slice of a line: the slice that holds it, or its copies' home; else by the translation that the slices hold for the page, or that
a copy or a command keeps (R393), and an interleaved one where none is held. -/
def State.homeSlice (s : State) (asid va : Nat) : Nat :=
  match s.mem.l2.find? fun w => w.asid == asid && w.va / 64 == va / 64 with
  | some w => w.slice
  | none => match s.cores.findSome? fun c => c.l1.find? fun w => w.asid == asid && w.va / 64 == va / 64 with
    | some w => w.slice
    | none => match s.mem.tb.find? (·.covers asid va) with
      | some e => sliceOf asid va e.pinned e.stack
      | none => (s.keptSlice asid va).getD (sliceOf asid va false 0)

/-- A STORE_ERROR record of the home slice of a line (R166). -/
def State.postStoreError (s : State) (ctx : Nat) (cause : BitVec 8) (va : Nat) : State :=
  s.post { s.record ctx cause 2 3 (s.homeSlice (s.asidOf ctx) va) with addr := BitVec.ofNat 64 va }

/-- A STORE_ERROR record of a slice, for whichever context has the ASID. -/
def State.postSliceError (s : State) (asid : Nat) (cause : BitVec 8) (va slice : Nat) : State :=
  match s.ctxs.find? (·.asid == asid) with
  | some c => s.post { s.record c.id cause 2 3 slice with addr := BitVec.ofNat 64 va }
  | none => s

/-- The same of the home slice. -/
def State.postAsidError (s : State) (asid : Nat) (cause : BitVec 8) (va : Nat) : State :=
  s.postSliceError asid cause va (s.homeSlice asid va)

/-! ## Addresses -/

/-- The end of the scratch aperture (R162). -/
def apTop : Nat := 0xffffff0000000000

def inAperture (va : Nat) : Bool := decide (apBase ≤ va) && decide (va < apTop)

/-- Whether bits [63:57] equal bit 56 (R482). -/
def canonicalVa (va : Nat) : Bool := decide (va < 2 ^ 56) || decide (va ≥ 2 ^ 64 - 2 ^ 56)

/-! ## The page table (R398 to R400) -/

/-- The end of a walk. -/
inductive WalkRes where
  | ok (e : TbEntry)
  | absent
  | fault (cause : BitVec 8)
  deriving DecidableEq, Repr

/-- The index bits and the page size of a level: low bit of the index, its width, the page shift. -/
def levelLow : Nat → Nat
  | 3 => 43
  | 2 => 30
  | 1 => 21
  | _ => 16

def levelBits : Nat → Nat
  | 3 => 14
  | 2 => 13
  | 1 => 9
  | _ => 5

/-- Whether a leaf names frames that the stack map allows (R400, R453): a pinned leaf only granules pinned to its stack, any
other leaf a valid granule or an address outside the DRAM aperture and the register space. -/
def leafFrameOk (m : Memory) (frame : Nat) (pinned : Bool) (stack : Nat) : Bool :=
  match paClass frame with
  | .registers => false
  | .dram =>
    let e := granule m (frame / 2 ^ 30)
    (dramPlace m frame).isSome &&
      (!pinned || (!e.getLsbD 14 && (e.extractLsb' 8 4).toNat == stack))
  | _ => !pinned

/-- One entry of a walk at `level` for `va`. -/
def readLeaf (m : Memory) (asid va level : Nat) (e : BitVec 64) : WalkRes :=
  let frame := (e.extractLsb' 12 40).toNat * 4096
  let pinned := e.getLsbD 57
  let stack := (e.extractLsb' 53 4).toNat
  let size := 2 ^ levelLow level
  let zeros := e.extractLsb' 58 5 == 0 && !e.getLsbD 52 && e.extractLsb' 1 5 == 0 && (pinned || stack == 0)
  if level == 3 || !zeros || frame % size != 0 || !leafFrameOk m frame pinned stack then .fault cProtection
  else .ok { asid := asid, base := va / size * size, size := size, frame := frame, attr := e.extractLsb' 10 2,
             r := e.getLsbD 7, w := e.getLsbD 8, x := e.getLsbD 9, pinned := pinned, stack := stack, slices := [] }

/-- The walk from `level` down (structural on the level), behind the end-to-end code (R397, R459). A table outside this device's DRAM reads as
zeros, of which no entry is valid (DESIGN CHOICE log 75). -/
def State.walkFrom (s : State) (asid va : Nat) : Nat → Nat → State × WalkRes
  | level, table =>
    let idx := va / 2 ^ levelLow level % 2 ^ levelBits level
    let (s1, d) := s.dramLook (table + 8 * idx) 8
    match d with
    | .bad c => (s1, .fault c)
    | .ok bs =>
      let e := BitVec.ofNat 64 (natOf bs)
      if !e.getLsbD 0 then (s1, .absent)
      else if e.getLsbD 6 then (s1, readLeaf s1.mem asid va level e)
      else match level with
        | 0 => (s1, .fault cProtection)
        | l + 1 =>
          if e.extractLsb' 52 12 != 0 || e.extractLsb' 7 5 != 0 || e.extractLsb' 1 5 != 0 then (s1, .fault cProtection)
          else s1.walkFrom asid va l (localPa ((e.extractLsb' 12 40).toNat * 4096))

/-- The entry that a table walk reads at an address, behind the code: none where it cannot be corrected. -/
def State.tableEntry (s : State) (a : Nat) : Option (BitVec 64) :=
  match (s.dramLook a 8).2 with
  | .ok bs => some (BitVec.ofNat 64 (natOf bs))
  | .bad _ => none

/-- The addresses of the entries that the walk for `va` reads. -/
def State.walkRows (s : State) (va : Nat) : Nat → Nat → List Nat
  | level, table =>
    let a := table + 8 * (va / 2 ^ levelLow level % 2 ^ levelBits level)
    a :: match s.tableEntry a, level with
      | some e, l + 1 => if e.getLsbD 0 && !e.getLsbD 6 then s.walkRows va l (localPa ((e.extractLsb' 12 40).toNat * 4096)) else []
      | _, _ => []

/-- The entry address of the leaf that maps `va`, found as the walk finds it: an error in a table line ends it as it ends a walk (R397), and
there may be no leaf. -/
def State.leafAddr (s : State) (va : Nat) : Nat → Nat → State × Except (Option (BitVec 8)) (Nat × Nat)
  | level, table =>
    let a := table + 8 * (va / 2 ^ levelLow level % 2 ^ levelBits level)
    let (s1, d) := s.dramRead a 8
    match d with
    | .bad c => (s1, .error (some c))
    | .ok bs =>
      let e := BitVec.ofNat 64 (natOf bs)
      if !e.getLsbD 0 then (s1, .error none)
      else if e.getLsbD 6 then (s1, .ok (a, 2 ^ levelLow level))
      else match level with
        | 0 => (s1, .error none)
        | l + 1 => s1.leafAddr va l (localPa ((e.extractLsb' 12 40).toNat * 4096))

/-- The entries of a table that are not 0, by index: KiB by KiB, each of which lies in one piece in its stack (R453). -/
def tableEntries (m : Memory) (table level : Nat) : List Nat :=
  (List.range ((8 * 2 ^ levelBits level + 1023) / 1024)).flatMap fun c => match dramAt m (table + 1024 * c) with
    | none => []
    | some k => ((m.dram.filter fun e => decide (k ≤ e.1) && decide (e.1 < k + Nat.min 1024 (8 * 2 ^ levelBits level))).map
        fun e => 128 * c + (e.1 - k) / 8).eraseDups

/-- Whether a leaf of attribute IP under a table maps the frame of `pa` (R383, R399); an entry that cannot be corrected maps nothing. -/
def State.ipLeafAt (s : State) (pa : Nat) : Nat → Nat → Bool
  | level, table => (tableEntries s.mem table level).any fun k =>
    match s.tableEntry (table + 8 * k) with
    | none => false
    | some e =>
      if !e.getLsbD 0 then false
      else if e.getLsbD 6 then
        match readLeaf s.mem 0 0 level e with
        | .ok x => x.attr == 3 && decide (localPa x.frame ≤ pa) && decide (pa < localPa x.frame + x.size)
        | _ => false
      else match level with
        | 0 => false
        | l + 1 => s.ipLeafAt pa l (localPa ((e.extractLsb' 12 40).toNat * 4096))

/-- Where the highest frame of this device's DRAM that a leaf under a table maps ends; 0 where none maps one (R404). -/
def State.leafTop (s : State) : Nat → Nat → Nat
  | level, table => (tableEntries s.mem table level).foldl (fun (top : Nat) (k : Nat) =>
    match s.tableEntry (table + 8 * k) with
    | none => top
    | some e =>
      if !e.getLsbD 0 then top
      else if e.getLsbD 6 then
        match readLeaf s.mem 0 0 level e with
        | .ok x => if paClass (localPa x.frame) == .dram then Nat.max top (localPa x.frame + x.size) else top
        | _ => top
      else match level with
        | 0 => top
        | l + 1 => Nat.max top (s.leafTop l (localPa ((e.extractLsb' 12 40).toNat * 4096)))) 0

/-- Whether some context maps the frame of `pa` as IP, by the page tables or by the alias directory (R383, R399, R401). -/
def State.frameIp (s : State) (pa : Nat) : Bool :=
  (s.mem.dir.any fun d => d.frame == pa / 65536 && d.attr == 3) || s.ctxs.any fun c => s.ipLeafAt pa 3 (localPa c.ptroot)

/-! ## The slices' translation buffers (R397) -/

/-- The entries of one slice's buffer. -/
def tbSize : Nat := 512

/-- Whether two entries give one translation, wherever they are held. -/
def TbEntry.same (e x : TbEntry) : Bool := ({ e with slices := [] } : TbEntry) == { x with slices := [] }

/-- Whether the home slice of `va` on the entry's page holds it. -/
def TbEntry.heldFor (asid va : Nat) (e : TbEntry) : Bool := e.slices.contains (sliceOf asid va e.pinned e.stack)

/-- The entry that leaves a slice's full buffer: the one that it has held longest (DESIGN CHOICE log 28). -/
def tbTrim (k : Nat) (l : List TbEntry) : List TbEntry :=
  match (l.filter (·.slices.contains k))[tbSize]? with
  | some old => (l.map fun x => if x.same old then { x with slices := x.slices.filter (· != k) } else x).filter fun x => !x.slices.isEmpty
  | none => l

/-- A translation put into a slice's buffer. -/
def tbInstall (k : Nat) (e : TbEntry) (l : List TbEntry) : List TbEntry :=
  let l1 := match l.find? e.same with
    | some x => { x with slices := k :: x.slices.filter (· != k) } :: l.filter fun y => !e.same y
    | none => { e with slices := [k] } :: l
  if l1.length ≤ tbSize then l1 else tbTrim k l1

/-- A translation installed at the home slice of `va`. -/
def State.tbPut (s : State) (asid va : Nat) (e : TbEntry) : State :=
  s.setMem { s.mem with tb := tbInstall (sliceOf asid va e.pinned e.stack) e s.mem.tb }

/-- Rows of table entries that a walk reads, if `go` holds (R461). -/
def State.openRows (s : State) (go : Bool) (as : List Nat) : State := as.foldl (fun (t : State) (a : Nat) => t.openRow go a) s

/-- Translation at the home slice of `va`: its buffer, else a walk, which installs what it finds (R397). Where every slice that holds a
translation of the page holds the one that a walk finds, it is that one, whichever slice asks. -/
def State.translate (s : State) (ctx va : Nat) : State × WalkRes :=
  match s.ctxOf ctx with
  | none => (s, .absent)
  | some c =>
    let (s1, r) := s.walkFrom c.asid va 3 (localPa c.ptroot)
    let rows := s.walkRows va 3 (localPa c.ptroot)
    let es := s.mem.tb.filter (·.covers c.asid va)
    let slow : State × WalkRes := match es.find? (·.heldFor c.asid va) with
      | some x => (s, .ok { x with slices := [] })
      | none => match r with
        | .ok e => ((s1.openRows true rows).tbPut c.asid va e, r)
        | _ => (s1.openRows true rows, r)
    match r with
    | .ok e =>
      if es.isEmpty then ((s1.openRows true rows).tbPut c.asid va e, r)
      else if es.all e.same && s1.mem.lineErrs == s.mem.lineErrs && s1.mem.codes == s.mem.codes then
        ((s.openRows (!es.any (·.heldFor c.asid va)) rows).tbPut c.asid va e, r)
      else slow
    | _ => if es.isEmpty then (s1.openRows true rows, r) else slow

/-- Whether a translation of `va` has to be walked for and a line of a table lies behind a channel that does not take the read now (22 R456). -/
def State.walkStalls (s : State) (ctx va : Nat) : Bool :=
  if s.tests.isEmpty && s.baseDies.all (·.turning.isEmpty) then false
  else match s.ctxOf ctx with
  | none => false
  | some c => !(s.mem.tb.any fun e => e.covers c.asid va && e.heldFor c.asid va) &&
      (s.walkRows va 3 (localPa c.ptroot)).any (s.channelBusy false)

def TbEntry.pa (e : TbEntry) (va : Nat) : Nat := localPa (e.frame + (va - e.base))

/-! ## The attribute lookaside buffer (R396) -/

def AlbEntry.covers (e : AlbEntry) (asid va : Nat) : Bool := e.asid == asid && decide (e.base ≤ va) && decide (va < e.base + e.size)

def AlbEntry.ofTb (e : TbEntry) : AlbEntry :=
  { asid := e.asid, base := e.base, size := e.size, attr := e.attr, r := e.r, w := e.w, x := e.x, pinned := e.pinned,
    stack := e.stack, hash := (e.asid, e.base % 2 ^ 57 / 65536) }

/-- A buffer of 64 entries with one put in front (the oldest leaves). -/
def albPut (e : AlbEntry) (l : List AlbEntry) : List AlbEntry := (e :: l).take 64

/-- The attribute and permissions of a page as the core sees them: its buffer, else a fill from the home slice. -/
def State.albLookup (s : State) (core ctx va : Nat) : State × Except (Option (BitVec 8)) AlbEntry :=
  match (s.getCore core).alb.find? (·.covers (s.asidOf ctx) va) with
  | some e => (s, .ok e)
  | none =>
    let (s1, r) := s.translate ctx va
    match r with
    | .ok e => (s1.modCore core fun c => { c with alb := albPut (.ofTb e) c.alb }, .ok (.ofTb e))
    | .absent => (s1, .error none)
    | .fault c => (s1, .error (some c))

/-! ## Region tokens -/

def regionSize : Nat := 0x200000

/-- The token of the region of `va`. -/
def State.tokenOf (s : State) (asid va : Nat) : Option Token :=
  s.tokens.find? fun t => t.asid == asid && t.region == va / regionSize

/-- Whether a team holds the token of the region of `va` (R382). -/
def State.holds (s : State) (team asid va : Nat) : Bool :=
  match s.tokenOf asid va with
  | some t => t.holder == some team
  | none => false

/-! ## Checks 4 to 7 of R163 -/

/-- Which cached line spares an access its translation (R392, R397): one of the core's L1, or else of the slice; of the slice, where the access is
performed there; of the instruction cache, or else of the slice; or none, where a slice performs it without allocation (`direct`) and where
an engine or a barrier names the page (`named`, R404). -/
inductive Via where
  | l1 | slice | code | direct | named
  deriving DecidableEq, Repr

/-- What an access needs of the page (R163 check 5, R279), whether it may reach a reduction window (R429), and its way. -/
structure Need where
  r : Bool
  w : Bool
  x : Bool
  win : Bool
  via : Via
  deriving DecidableEq, Repr

/-- The outcome of the checks: the page's attribute and the physical address; a stall while the page's attribute changes (R390). -/
inductive Chk where
  | ok (attr : BitVec 2) (pa : Nat)
  | stay
  | park
  | fault (cause : BitVec 8)
  deriving DecidableEq, Repr

/-- The four attributes (R399). -/
def attrSC : BitVec 2 := 0
def attrRC : BitVec 2 := 1
def attrWO : BitVec 2 := 2
def attrIP : BitVec 2 := 3

/-- Whether a mapping is that of the page of `va` under an ASID. -/
def DirMap.names (m : DirMap) (asid va : Nat) : Bool := m.asid == asid && m.page == va / 65536

/-- An access through a mapping to the line of `va`: the line waits for a VPURGE of its own again. -/
def DirMap.touch (va : Nat) (m : DirMap) : DirMap :=
  if m.purged.testBit (va / 64 % 1024) then { m with purged := m.purged - 2 ^ (va / 64 % 1024) } else m

/-- An access noted in the directory entry of its frame. -/
def DirEntry.note (asid va : Nat) (d : DirEntry) : DirEntry :=
  if d.maps.any (·.names asid va) then { d with maps := d.maps.map fun m => if m.names asid va then m.touch va else m }
  else { d with maps := { asid := asid, page := va / 65536, purged := 0 } :: d.maps }

/-- The alias directory at an access (R389, R401): whether the frame is held under another attribute; else the access is noted. -/
def State.aliasCheck (s : State) (asid va pa : Nat) (attr : BitVec 2) : State × Bool :=
  let f := pa / 65536
  match s.mem.dir.find? (·.frame == f) with
  | some d =>
    if d.attr != attr then (s, true)
    else (s.setMem { s.mem with dir := s.mem.dir.map fun x => if x.frame == f then x.note asid va else x }, false)
  | none => (s.setMem { s.mem with
      dir := { frame := f, attr := attr, maps := [{ asid := asid, page := va / 65536, purged := 0 }] } :: s.mem.dir }, false)

/-- The frame address under which a core reaches `va` while its L1 `l1`, or the L2, holds the line: the translation of the line's fill
stays in force, and a hit needs none (R392). -/
def State.heldPa (s : State) (l1 asid va : Nat) : Option Nat :=
  match (s.getCore l1).l1.find? fun w => w.asid == asid && w.va / 64 == va / 64 with
  | some w => some (w.pa / 64 * 64 + va % 64)
  | none => (s.mem.l2.find? fun w => w.asid == asid && w.va / 64 == va / 64).map fun w => w.pa / 64 * 64 + va % 64

/-- The stack that a page is pinned to, by the translation that its home slice has just given (R393). -/
def State.pagePin (s : State) (asid va : Nat) : Option Nat :=
  ((s.mem.tb.find? fun e => e.covers asid va && e.heldFor asid va).orElse fun _ => s.mem.tb.find? (·.covers asid va)).bind fun e =>
    if e.pinned then some e.stack else none

/-- The same for an access that the slice performs: a dirty L1 copy goes there before it, a clean one is dropped (R371). -/
def State.slicePa (s : State) (l1 asid va : Nat) : Option Nat :=
  match s.mem.l2.find? fun w => w.asid == asid && w.va / 64 == va / 64 with
  | some w => some (w.pa / 64 * 64 + va % 64)
  | none => ((s.getCore l1).l1.find? fun w => w.dirty && w.asid == asid && w.va / 64 == va / 64).map fun w => w.pa / 64 * 64 + va % 64

/-- The frame address that an instruction cache's line of `va` was filled from. -/
def State.codeHeld (s : State) (core asid va : Nat) : Option Nat :=
  ((s.getCore core).icache.find? fun e => e.asid == asid && e.va / 64 == va / 64).map fun e => e.pa / 64 * 64 + va % 64

/-- The way of an access on a page of an attribute (R371): on IP, and for a store that the WO buffer holds, that of a .c access; at the home slice
on SC. -/
def Need.way (k : Need) (attr : BitVec 2) : Via :=
  match k.via with
  | .named => .named
  | .code => .code
  | v => if attr == attrIP || (attr == attrWO && k.w && !k.r) then .l1 else if attr == attrSC && v == .l1 then .slice else v

/-- Whether two marked pages share an address or a byte of a frame. -/
def AttrMark.meets (a b : AttrMark) : Bool :=
  (a.asid == b.asid && decide (a.base < b.base + b.size) && decide (b.base < a.base + a.size)) ||
    (decide (a.frame < b.frame + b.size) && decide (b.frame < a.frame + a.size))

/-- Whether a mark is that of a thread, or of a command. -/
def AttrMark.owned (tm grp lane : Nat) (m : AttrMark) : Bool := m.team == tm && m.grp == grp && m.lane == lane

/-- The mark of an owner put behind those that stand already; one owner has one mark (R390 step 1). -/
def State.markPage (s : State) (m : AttrMark) : State :=
  if s.mem.changing.contains m then s
  else s.setMem { s.mem with changing := (s.mem.changing.filter fun x => !x.owned m.team m.grp m.lane) ++ [m] }

/-- Marks that `p` names taken away; the requests that stalled come again (R390 step 4). -/
def State.dropMarks (s : State) (p : AttrMark → Bool) : State :=
  s.resume.setMem { s.mem with changing := s.mem.changing.filter fun x => !p x }

def State.unmarkPage (s : State) (tm grp lane : Nat) : State := s.dropMarks (AttrMark.owned tm grp lane)

/-- Whether no mark of its page stands before a mark (R390: one after another, in the order of arrival). -/
def State.markFirst (s : State) (m : AttrMark) : Bool := s.mem.changing.find? m.meets == some m

/-- Whether the page of `va` is marked changing (R390). -/
def State.changingVa (s : State) (asid va : Nat) : Bool :=
  s.mem.changing.any fun m => m.asid == asid && decide (m.base ≤ va) && decide (va < m.base + m.size)

/-- Whether a frame address lies in a page marked changing, by whatever name it is reached. -/
def State.changingPa (s : State) (pa : Nat) : Bool :=
  s.mem.changing.any fun m => decide (m.frame ≤ pa) && decide (pa < m.frame + m.size)

/-- The L1 that holds a line for the threads of a core: the fused L1's part VA[7:6] under `.fusel1` (R395). -/
def l1Core (t : Team) (core va : Nat) : Nat := if t.fusel1 then core / 4 * 4 + va / 64 % 4 else core

/-- The L1 of the holder team's IP accesses: the even core's for a pair team (R382). -/
def ipCore (t : Team) (core va : Nat) : Nat :=
  if t.fusel1 then l1Core t core va else if t.pair then core / 2 * 2 else core

/-- The physical address of an access: the frame that a held line reaches (R392), else the slices' translation. -/
def State.framePa (s : State) (core ctx team va : Nat) (need : Need) (attr : BitVec 2) : State × Except Chk Nat :=
  let asid := s.asidOf ctx
  let t := s.team team
  let l1 := if attr == attrIP then ipCore t core va else l1Core t core va
  let held := match need.way attr with
    | .l1 => s.heldPa l1 asid va
    | .slice => s.slicePa l1 asid va
    | .code => (s.codeHeld core asid va).orElse fun _ => s.slicePa l1 asid va
    | _ => none
  match held with
  | some pa => (s, .ok pa)
  | none =>
    if s.walkStalls ctx va then (s, .error .stay) else
    let (s1, r) := s.translate ctx va
    match r with
    | .absent => (s1, .error .park)
    | .fault c => (s1, .error (.fault c))
    | .ok tb => (s1, .ok (tb.pa va))

/-- Check 6 and 7 at the frame (R163, R383, R388, R429): reduction windows, the attribute, IP beyond a link, aliases. -/
def State.frameCheck (s : State) (asid team va pa : Nat) (need : Need) (attrOk : BitVec 2 → Bool → Bool) (attr : BitVec 2) : State × Chk :=
  let window := match paClass pa with
    | .peer _ off => decide (off ≥ windowOff)
    | _ => false
  if window && (attr != attrWO || !need.win) then (s, .fault cProtection)
  else if !attrOk attr (s.holds team asid va) || (attr == attrIP && paClass pa != .dram) then (s, .fault cAttribute)
  else if paClass pa == .dram then
    let (s1, clash) := s.aliasCheck asid va pa attr
    if clash then (s1, .fault cAlias) else (s1, .ok attr pa)
  else (s, .ok attr pa)

/-- Checks 4 to 7 for one address outside the aperture. `attrOk` gets the attribute and whether the team holds the token. An access to a
page whose attribute changes stalls, and is checked again afterwards (R390); so does one whose walk finds a channel turning its groups (22
R456). -/
def State.pageCheck (s : State) (core ctx team va : Nat) (need : Need) (attrOk : BitVec 2 → Bool → Bool) : State × Chk :=
  if !canonicalVa va then (s, .fault cProtection)
  else if s.changingVa (s.asidOf ctx) va then (s, .stay)
  else if !(s.getCore core).alb.any (·.covers (s.asidOf ctx) va) && s.walkStalls ctx va then (s, .stay)
  else
    let (s1, r) := s.albLookup core ctx va
    match r with
    | .error none => (s1, .park)
    | .error (some c) => (s1, .fault c)
    | .ok e =>
      if (need.r && !e.r) || (need.w && !e.w) || (need.x && !e.x) then (s1, .fault cProtection)
      else
        let (s2, f) := s1.framePa core ctx team va need e.attr
        match f with
        | .error c => (s2, c)
        | .ok pa => if s2.changingPa pa then (s2, .stay) else s2.frameCheck (s2.asidOf ctx) team va pa need attrOk e.attr

/-- A check of an access that was accepted before the pages it meets were marked, where `on` says so: it is performed as it stands (R390 step 3). -/
def State.throughMarks (s : State) (on : Bool) (f : State → State × Chk) : State × Chk :=
  if on then
    let (s1, c) := f (s.setMem { s.mem with changing := [] })
    (s1.setMem { s1.mem with changing := s.mem.changing }, c)
  else f s

/-- The checks over every line of a longer access; the first fault stands (R172). -/
def State.pageChecks (s : State) (core ctx team : Nat) (need : Need) (attrOk : BitVec 2 → Bool → Bool) :
    List (Nat × Nat) → State × Chk
  | [] => (s, .ok 0 0)
  | [(a, _)] => s.pageCheck core ctx team a need attrOk
  | (a, _) :: r =>
    let (s1, c) := s.pageCheck core ctx team a need attrOk
    match c with
    | .ok attr pa =>
      let (s2, c2) := s1.pageChecks core ctx team need attrOk r
      match c2 with
      | .ok _ _ => (s2, .ok attr pa)
      | other => (s2, other)
    | other => (s1, other)

end Sys2Proof.Machine
end

