-- ==== Sys2Proof/Machine/Cache.lean ====
section
/-! DEFINITION. The memory hierarchy: atomic functions (06 R174), home slices and synonyms (18 R392, R401), update-only copies
(17 R385), the L1s (R371, R372), the WO buffer (R381), fences' work (06 R189), and purges. Accesses are performed when they are
accepted (DESIGN CHOICE log 4). -/

namespace Sys2Proof.Machine

open Sys2Proof

/-! ## Atomic functions (R174, R175, R177) -/

/-- The operations of ATOM, ATOM64, RED and FRED. -/
inductive AtomOp where
  | add | and | or | xor | minS | maxS | minU | maxU | xchg | cas | incw | decw | fadd | fmin | fmax | faddH2 | faddB2
  deriving DecidableEq, Repr

/-- The operation of a RED or FRED function code (R57); 20 and 21 are the 64-bit ADD64 and FADD.D. -/
def redOpOf (code : Nat) : AtomOp :=
  match code with
  | 0 => .add
  | 1 => .and
  | 2 => .or
  | 3 => .xor
  | 4 => .minS
  | 5 => .maxS
  | 6 => .minU
  | 7 => .maxU
  | 12 => .fadd
  | 13 => .fmin
  | 14 => .fmax
  | 15 => .faddH2
  | 16 => .faddB2
  | 20 => .add
  | _ => .fadd

/-- Whether a RED code takes a 64-bit operand (R177). -/
def redCodeWide (code : Nat) : Bool := code == 20 || code == 21

/-- Whether a RED code computes in floating point. -/
def redCodeFloat (code : Nat) : Bool := decide (12 ≤ code) && decide (code ≤ 16) || code == 21

/-- The new value of a location of `w` bits (32 or 64) that holds x, under operand y and compare value c (R174, R175). -/
def atomNew (op : AtomOp) (w x y c : Nat) : Nat :=
  let f := if w = 64 then f64 else f32
  match op with
  | .add => (x + y) % 2 ^ w
  | .and => x &&& y
  | .or => x ||| y
  | .xor => x ^^^ y
  | .minS => if sextInt w x ≤ sextInt w y then x else y
  | .maxS => if sextInt w x ≥ sextInt w y then x else y
  | .minU => if x ≤ y then x else y
  | .maxU => if x ≥ y then x else y
  | .xchg => y
  | .cas => if x = c then y else x
  | .incw => if x ≥ y then 0 else x + 1
  | .decw => if x = 0 ∨ x > y then y else x - 1
  | .fadd => (fAdd f .rn 0 x y).bits
  | .fmin => (fMinMaxNum false f x y).bits
  | .fmax => (fMinMaxNum true f x y).bits
  | .faddH2 => (pack2 (fAdd f16 .rn 0 (elemOf 16 0 x) (elemOf 16 0 y)) (fAdd f16 .rn 0 (elemOf 16 1 x) (elemOf 16 1 y))).bits
  | .faddB2 => (pack2 (fAdd bf16 .rn 0 (elemOf 16 0 x) (elemOf 16 0 y)) (fAdd bf16 .rn 0 (elemOf 16 1 x) (elemOf 16 1 y))).bits

/-! ## L2 words -/

def State.l2Find (s : State) (asid va : Nat) : Option L2Word := s.mem.l2.find? fun w => w.asid == asid && w.va == va

/-- Whether a slot's extent holds a byte of [pa, pa + n); entry 0, which maps the page of the code entry, is no slot's (20 R418). -/
def Extent.meets (e : Extent) (pa n : Nat) : Bool := decide (e.slot < 8) && decide (e.pa < pa + n) && decide (pa < e.pa + (e.hi - e.lo))

/-- Whether [pa, pa + n) lies in an OUT extent of a call that runs. -/
def Call.outMeets (c : Call) (pa n : Nat) : Bool := c.state == .running && c.extents.any fun e => e.out && e.meets pa n

/-- The words that [pa, pa + n) touches. -/
def wordsAt (pa n : Nat) : List Nat := (wordsIn pa n).map (·.1)

/-- The words of an OUT extent that a main-die store to [pa, pa + n) writes, noted in a call (R216). -/
def Call.noteMet (pa n : Nat) (c : Call) : Call :=
  let ws := (wordsAt pa n).filter fun w => c.outMeets w 4
  { c with met := ws ++ c.met.filter fun x => !ws.contains x }

/-- Whether an operation of a matrix engine is an MSEQ. -/
def EngOp.sequence (o : EngOp) : Bool := match o.kind with
  | .mseq .. => true
  | _ => false

/-- Whether an engine of a context runs (R404): a command engine with a command that is not held, a matrix engine with an MSEQ, a call or a walk. -/
def State.enginesRun (s : State) (ctx : Nat) : Bool :=
  s.cmds.any (fun c => c.ctx == ctx && c.state == .queued) || s.calls.any (fun c => c.ctx == ctx && (c.state != .ended || !c.pins.isEmpty)) ||
    s.teams.any fun t => t.ctx == ctx && t.eng.queue.any EngOp.sequence

/-- The page-lock tables that software may not write now, each with its base and its count of frames: up to the highest frame that the context
maps (R404). -/
def State.pinTables (s : State) : List (Nat × Nat) :=
  if s.cmds.isEmpty && s.calls.isEmpty && s.teams.all (fun t => t.eng.queue.isEmpty) then []
  else (s.ctxs.filter fun c => s.enginesRun c.id).map fun c => (c.pinbase, s.leafTop 3 (localPa c.ptroot) / 65536)

/-- The count that a byte lies in. -/
def pinSlot (tables : List (Nat × Nat)) (a : Nat) : Option Nat :=
  tables.findSome? fun t => if t.1 ≤ a ∧ a < t.1 + 2 * t.2 then some (a - (a - t.1) % 2) else none

/-- Bytes of one line that software's store leaves: undefined in the counts of a page-lock table that it touches, each whole, while an engine of the
context runs (R404). The device's own updates of a count are no such store. -/
def State.pinSpoil (s : State) (pa : Nat) (bs : List Byte) : State × Nat × List Byte :=
  let ts := if bs.isEmpty then [] else s.pinTables.filter fun t => decide (t.1 < pa + bs.length)
  if ts.isEmpty then (s, pa, bs)
  else
    let lo := Nat.max (pa / 64 * 64) ((pinSlot ts pa).getD pa)
    let last := pa + bs.length - 1
    let hi := Nat.min (last / 64 * 64 + 64) (((pinSlot ts last).map (· + 2)).getD (last + 1))
    let put (r : State × List Byte) (k : Nat) : State × List Byte :=
      if (pinSlot ts (lo + k)).isSome then
        let (b, s1) := r.1.free
        (s1, r.2 ++ [b])
      else (r.1, r.2 ++ (bs[lo + k - pa]?).toList)
    let (s1, b) := (List.range (hi - lo)).foldl put (s, [])
    (s1, lo, b)

/-- Bytes that a main-die store leaves (R216): undefined in the words of an OUT extent that the callee writes too. -/
def State.mainWrite (s : State) (pa : Nat) (bs : List Byte) : State × List Byte :=
  if s.calls.isEmpty || !(s.calls.any fun c => c.outMeets pa bs.length) then (s, bs)
  else
    let both := (wordsAt pa bs.length).filter fun w => s.calls.any fun c => c.outMeets w 4 && c.wrote.contains w
    both.foldl (fun (r : State × List Byte) (w : Nat) => freeRange r.1 w (w + 4) pa r.2)
      ({ s with calls := s.calls.map (Call.noteMet pa bs.length) }, bs)

/-- The check of the stored copy of a line that words of it reach at their slice, where a dirty one is new to the slice and they do not cover the
line: the cause when they cannot be merged (R166, R459). A region that is not live is not checked (R464). -/
def State.mergeCheck (s : State) (ws : List L2Word) : State × Option (BitVec 8) :=
  match ws with
  | [] => (s, none)
  | w :: _ =>
    if ws.all (fun x => !x.dirty || (s.l2Find x.asid x.va).isSome) || (ws.filter (·.dirty)).length == 16 then (s, none)
    else match dramPlace s.mem w.pa with
      | none => (s, none)
      | some (stack, loc) =>
        if (s.getStack stack).dead.contains (loc / 2 ^ 20) then (s, none) else s.checkLine w.pa stack loc

/-- The line of a physical address. -/
def lineOf (a : Nat) : Nat := a / 64

/-- The Foehn core of the base die that serves a physical address, by its number on the device (22 R454). -/
def State.foehnAt (s : State) (pa : Nat) : Nat :=
  match dramPlace s.mem pa with
  | some (stack, loc) => foehnOf stack loc
  | none => 0

/-- A pending FRED performed in memory as one step (20 R425); into a line that cannot be corrected it is not performed, and the Foehn core that
serves the line posts a STORE_ERROR record (06 R166, 07 R219). In an OUT extent of a running call it leaves undefined bytes. -/
def State.fredPerform (s : State) (f : PendingFred) : State :=
  let n := if redCodeWide f.op then 8 else 4
  let note (t : State) (c : BitVec 8) : State := t.post { t.record f.ctx c 2 5 (t.foehnAt f.pa) with addr := BitVec.ofNat 64 f.va }
  let (s1, d) := s.dramRead f.pa n
  match d with
  | .ok b =>
    let out := !s1.calls.isEmpty && s1.calls.any fun c => c.outMeets f.pa n
    let (nb, s2) := if out then s1.freeBytes n else (bytesOf n (atomNew (redOpOf f.op) (8 * n) (natOf b) f.val.toNat 0), s1)
    let (s2, pa, nb) := s2.pinSpoil f.pa nb
    let (s3, e) := s2.dramWrite pa nb
    match e with
    | some c => note s3 c
    | none => s3
  | .bad c => note s1 c

/-- The pending FREDs of a line performed before the line is reached (20 R425). -/
def State.fredsDue (s : State) (pa : Nat) : State :=
  let due := s.mem.freds.filter fun f => lineOf f.pa == lineOf pa
  let s1 := s.setMem { s.mem with freds := s.mem.freds.filter fun f => lineOf f.pa != lineOf pa }
  due.foldl State.fredPerform s1

/-- The dirty words of one line written to memory as one access; the cause where they would merge into a line that cannot be corrected. -/
def State.drainTry (s : State) (ws : List L2Word) : State × Option (BitVec 8) :=
  match ws.filter (·.dirty) with
  | [] => (s, none)
  | w :: r => s.lineWrite w.pa (r.length == 15) ((w :: r).map fun x => (x.pa, bytesOf 4 x.data.toNat))

/-- What a slice does with a write of words of one line that is not performed: a STORE_ERROR record (R166). -/
def State.sliceFails (r : State × Option (BitVec 8)) (ws : List L2Word) : State :=
  match r.2, ws with
  | some c, w :: _ => r.1.postSliceError w.asid c w.va w.slice
  | _, _ => r.1

/-- The dirty words of one line written to memory by their slice. -/
def State.lineDrain (s : State) (ws : List L2Word) : State := State.sliceFails (s.drainTry ws) (ws.filter (·.dirty))

/-- Whether two words of the slices belong to one line of one name. -/
def L2Word.near (w x : L2Word) : Bool := x.asid == w.asid && x.va / 64 == w.va / 64

/-- The line of a word of the slices written back to memory and removed. -/
def State.l2Evict (s : State) (w : L2Word) : State :=
  (s.setMem { s.mem with l2 := s.mem.l2.filter fun x => !w.near x }).lineDrain (s.mem.l2.filter w.near)

/-- The frame line under which the slices hold the line of a name (R392). -/
def State.l2Frame (s : State) (asid va : Nat) : Option Nat :=
  (s.mem.l2.find? fun w => w.asid == asid && w.va / 64 == va / 64).map fun w => w.pa / 64

/-- The lines of a slice of 1 MiB (00 R3). -/
def sliceLines : Nat := 16384

/-- The first word of each line that a slice holds, the line stored to last first. -/
def sliceHeads (k : Nat) : List L2Word → List L2Word
  | [] => []
  | w :: r =>
    let rest := sliceHeads k r
    if w.slice == k then w :: rest.filter fun x => !w.near x else rest

/-- A slice that holds more than its lines writes the oldest one back (00 R3, DESIGN CHOICE log 28), once its channel takes the write (22 R456). -/
def State.l2Trim (s : State) (k : Nat) : State :=
  if s.mem.l2.length ≤ sliceLines then s
  else match (sliceHeads k s.mem.l2)[sliceLines]? with
    | some old => if s.channelBusy true old.pa then s else s.l2Evict old
    | none => s

/-- A word put into its home slice; a dirty word stays dirty. -/
def State.l2Store (s : State) (w0 : L2Word) : State :=
  let (s, b) := if w0.dirty then s.mainWrite w0.pa (bytesOf 4 w0.data.toNat) else (s, bytesOf 4 w0.data.toNat)
  let w := { w0 with data := BitVec.ofNat 32 (natOf b) }
  let was := match s.l2Find w.asid w.va with
    | some x => x.dirty
    | none => false
  let s1 := if w.dirty then s.wakeLine w.pa else s
  (s1.setMem { s1.mem with
    l2 := { w with dirty := w.dirty || was } :: s1.mem.l2.filter fun x => !(x.asid == w.asid && x.va == w.va) }).l2Trim w.slice

/-- Words of one line put into its home slice as one access; the cause where dirty ones would merge into a line whose stored copy cannot be
corrected, and none is performed (R166). Pending FREDs of the line are performed before it (20 R425). While the slices hold the line of the
name under another frame, clean words are not kept and dirty ones go to their own frame (R392). -/
def State.l2Try (s0 : State) (ws : List L2Word) : State × Option (BitVec 8) :=
  match ws with
  | [] => (s0, none)
  | w :: _ =>
    let s := s0.fredsDue w.pa
    if (s.l2Frame w.asid w.va).any (· != w.pa / 64) then s.drainTry ws
    else
      let (s1, e) := s.mergeCheck ws
      match e with
      | some c => (s1, some c)
      | none => (ws.foldl State.l2Store s1, none)

/-- The same on a core's behalf, with a STORE_ERROR record of what is not performed. -/
def State.l2Put (s : State) (ws : List L2Word) : State := State.sliceFails (s.l2Try ws) ws

/-- Words cut into lines of one name, in order of their first word. -/
def l2Lines : List L2Word → List (List L2Word)
  | [] => []
  | w :: r =>
    let rest := l2Lines r
    match rest.find? (fun l => l.any w.near) with
    | some _ => rest.map fun l => if l.any w.near then w :: l else l
    | none => [w] :: rest

/-- Whether the write-back of a dirty cached word that `p` names, by its ASID, virtual and frame address, waits at its channel (22 R456). -/
def State.backWaits (s : State) (p : Nat → Nat → Nat → Bool) : Bool :=
  !s.channelsOpen && (s.mem.l2.any (fun w => w.dirty && p w.asid w.va w.pa && s.channelBusy true w.pa) ||
    s.cores.any fun c => c.l1.any fun w => w.dirty && p w.asid w.va w.pa && s.channelBusy true w.pa)

/-- Every L2 word that satisfies `p` written back and removed, line by line. -/
def State.l2EvictAll (s : State) (p : L2Word → Bool) : State :=
  (l2Lines (s.mem.l2.filter p)).foldl State.lineDrain (s.setMem { s.mem with l2 := s.mem.l2.filter fun w => !p w })

/-! ## L1 words -/

def State.l1Find (s : State) (core asid va : Nat) : Option L1Word :=
  (s.getCore core).l1.find? fun w => w.asid == asid && w.va == va

def State.l1Put (s : State) (core : Nat) (w : L1Word) : State :=
  s.modCore core fun c => { c with l1 := w :: c.l1.filter fun x => !(x.asid == w.asid && x.va == w.va) }

/-- A dirty L1 word as its slice gets it (R394). -/
def L1Word.toL2 (w : L1Word) : L2Word := { asid := w.asid, va := w.va, pa := w.pa, slice := w.slice, data := w.data, dirty := true }

/-- Dirty L1 words merged at their slices, line by line (R394). -/
def State.l1Merge (s : State) (ws : List L1Word) : State :=
  (l2Lines ((ws.filter (·.dirty)).map L1Word.toL2)).foldl State.l2Put s

/-! ## Synonyms (R401) -/

/-- Every other name of the line resolved as one step: its L1 copies merged at its slice and dropped, its instruction-cache copies dropped, then
its L2 words written back and dropped. So a location has at most one name in the caches. -/
def State.resolve (s : State) (asid va pa : Nat) : State :=
  let other (a v p : Nat) : Bool := lineOf p == lineOf pa && !(a == asid && lineOf v == lineOf va)
  let other1 (w : L1Word) : Bool := other w.asid w.va w.pa
  let otherC (w : CodeWord) : Bool := other w.asid w.va w.pa
  let s1 := if s.cores.any (fun c => c.l1.any other1) then
    let s' := s.cores.foldl (fun (t : State) (c : Core) => t.l1Merge (c.l1.filter other1)) s
    { s' with cores := s'.cores.map fun c => { c with l1 := c.l1.filter fun w => !other1 w } } else s
  let s2 : State := if s1.cores.any (fun c => c.icache.any otherC) then
    { s1 with cores := s1.cores.map fun c => { c with icache := c.icache.filter fun w => !otherC w } } else s1
  if s2.mem.l2.any (fun w => other w.asid w.va w.pa) then s2.l2EvictAll fun w => other w.asid w.va w.pa else s2

/-- What the directory records of a line beside its frame's attribute (R401): the name under which the L2, an L1 or an instruction cache holds it,
and the cores whose L1 does. -/
def State.dirName (s : State) (pa : Nat) : Option (Nat × Nat) :=
  match s.mem.l2.find? fun w => lineOf w.pa == lineOf pa with
  | some w => some (w.asid, lineOf w.va)
  | none => match s.cores.findSome? fun c => c.l1.find? fun w => lineOf w.pa == lineOf pa with
    | some w => some (w.asid, lineOf w.va)
    | none => (s.cores.findSome? fun c => c.icache.find? fun w => lineOf w.pa == lineOf pa).map fun w => (w.asid, lineOf w.va)

def State.dirCores (s : State) (pa : Nat) : List Nat :=
  (List.range s.cores.length).filter fun i => (s.getCore i).l1.any fun w => lineOf w.pa == lineOf pa

/-! ## Update-only copies (R385) -/

/-- A contribution added into copies that are held newest first: into the copy of its own location and function, or as a new copy before
what overlaps it. -/
def updAddRev (u : UpdWord) : List UpdWord → List UpdWord
  | [] => [u]
  | x :: r =>
    let n (y : UpdWord) : Nat := if redCodeWide y.op then 8 else 4
    if x.asid == u.asid && x.va == u.va && x.pa == u.pa && x.op == u.op then
      { x with val := BitVec.ofNat 64 (atomNew (redOpOf u.op) (8 * n u) x.val.toNat u.val.toNat 0) } :: r
    else if x.pa < u.pa + n u && u.pa < x.pa + n x then u :: x :: r
    else x :: updAddRev u r

/-- A contribution added into a core's copies in RN: into the latest copy of its location where that has the same function (R177, R385). -/
def updAdd (us : List UpdWord) (u : UpdWord) : List UpdWord := (updAddRev u us.reverse).reverse

/-- The slice's word of a name, where it reaches the frame `pa`. -/
def State.l2At (s : State) (asid va pa : Nat) : Option L2Word := (s.l2Find asid va).filter fun w => w.pa == pa

/-- The words of [va, va + n), which lies in one line, that the slice does not hold: from the first to behind the last (R394: a request names a
span). -/
def State.l2Missing (s : State) (asid va pa n : Nat) : Option (Nat × Nat) :=
  let ws := (wordsAt va n).filter fun a => (s.l2At asid a (pa / 64 * 64 + a % 64)).isNone
  ws.head?.map fun a => (a, (ws.getLast?.getD a) + 4 - a)

/-- The bytes of [va, va + n) in one line: the slice's words, and where it holds none those of a span read from memory. -/
def State.l2Gather (s : State) (asid va pa n lo : Nat) (b : List Byte) : List Byte :=
  (wordsIn va n).flatMap fun (a, off, k) =>
    let w := match s.l2At asid a (pa / 64 * 64 + a % 64) with
      | some x => bytesOf 4 x.data.toNat
      | none => (b.drop (a - lo)).take 4
    (w.drop off).take k

/-- The bytes of [va, va + n) in one line at its home below the L1s: what the slice holds, and the rest as one read of memory. -/
def State.rawWords (s : State) (asid va pa n : Nat) : State × Data :=
  match s.l2Missing asid va pa n with
  | none => (s, .ok (s.l2Gather asid va pa n va []))
  | some (lo, k) =>
    let (s1, d) := s.dramRead (pa / 64 * 64 + lo % 64) k
    match d with
    | .ok b => (s1, .ok (s1.l2Gather asid va pa n lo b))
    | .bad c => (s1, .bad c)

/-- One copy combined into its location, in RN (R177), under its name; into a line that cannot be corrected it is not performed, and a
STORE_ERROR record is posted (R166). -/
def State.combineOne (s0 : State) (u : UpdWord) : State :=
  let s := s0.resolve u.asid u.va u.pa
  let wide := redCodeWide u.op
  let n := if wide then 2 else 1
  let (s2, d) := s.rawWords u.asid u.va u.pa (4 * n)
  match d with
  | .ok b =>
    let v := atomNew (redOpOf u.op) (32 * n) (natOf b) u.val.toNat 0
    let (s3, pa, b2) := s2.pinSpoil u.pa (bytesOf (4 * n) v)
    s3.l2Put ((List.range n).map fun i =>
      { asid := u.asid, va := u.va + 4 * i, pa := u.pa + 4 * i, slice := u.slice,
        data := BitVec.ofNat 32 (natOf ((b2.drop (u.pa - pa + 4 * i)).take 4)), dirty := true })
  | .bad c => s2.postSliceError u.asid c u.va u.slice

/-- The copies of one core sent home, where they wait in a pending copy held for that core: a second copy is added into the first (R385). -/
def State.sendUpdates (s : State) (core : Nat) (p : UpdWord → Bool) : State :=
  let us := (s.getCore core).upd.filter p
  if us.isEmpty then s
  else
    let s1 := s.modCore core fun c => { c with upd := c.upd.filter fun u => !p u }
    let mine := (s1.mem.pending.filter fun e => e.1 == core).map (·.2)
    s1.setMem { s1.mem with
      pending := (s1.mem.pending.filter fun e => e.1 != core) ++ (us.foldl updAdd mine).map fun u => (core, u) }

/-- Every copy of a line, recalled from the L1s or pending, combined in ascending core number, each core's in the order it made them
(R385, DESIGN CHOICE log 11). -/
def State.combineLine (s0 : State) (pa : Nat) : State :=
  let s := s0.fredsDue pa
  let hit (u : UpdWord) : Bool := lineOf u.pa == lineOf pa
  if s.cores.any (fun c => c.upd.any hit) || s.mem.pending.any (fun e => hit e.2) then
    let s1 := (List.range s.cores.length).foldl (fun t i => if (t.getCore i).upd.any hit then t.sendUpdates i hit else t) s
    let mine := s1.mem.pending.filter fun e => hit e.2
    let s2 := s1.setMem { s1.mem with pending := s1.mem.pending.filter fun e => !hit e.2 }
    (List.range s.cores.length).foldl (fun t i => (mine.filter fun e => e.1 == i).foldl (fun t e => t.combineOne e.2) t) s2
  else s

/-- A line evicted by the directory, which cannot hold a further one: its L1 copies recalled and merged at their slice, then the line written back
and invalidated in every cache (R401). -/
def State.dirEvict (s0 : State) (pa : Nat) : State :=
  let s := s0.combineLine pa
  let s1 := s.cores.foldl (fun (t : State) (c : Core) => t.l1Merge (c.l1.filter fun w => lineOf w.pa == lineOf pa)) s
  let s2 : State := { s1 with cores := s1.cores.map fun c =>
    { c with l1 := c.l1.filter (fun w => lineOf w.pa != lineOf pa), icache := c.icache.filter fun w => lineOf w.pa != lineOf pa } }
  s2.l2EvictAll fun w => lineOf w.pa == lineOf pa

/-! ## Write-backs of an L1 -/

/-- The words of a core's L1 that satisfy `p`, dirty ones merged at their slices line by line: an access at home, before which the line's
update-only copies are combined (R385). All of them are removed when `inv`, else left clean. -/
def State.l1Write (s : State) (core : Nat) (p : L1Word → Bool) (inv : Bool) : State :=
  let lines := ((((s.getCore core).l1.filter fun w => p w && w.dirty).map fun w => lineOf w.pa)).eraseDups
  let s1 := lines.foldl (fun (t : State) (l : Nat) =>
    let t1 := t.combineLine (64 * l)
    t1.l1Merge ((t1.getCore core).l1.filter fun w => p w && lineOf w.pa == l)) s
  s1.modCore core fun c => { c with l1 := if inv then c.l1.filter (fun w => !p w)
                                          else c.l1.map fun w => if p w then { w with dirty := false } else w }

/-- The same in every core. -/
def State.l1WriteAll (s : State) (p : L1Word → Bool) (inv : Bool) : State :=
  (List.range s.cores.length).foldl (fun t i => if (t.getCore i).l1.any p then t.l1Write i p inv else t) s

/-! ## Accesses at the home slice -/

/-- A line made ready for an access at home: pending FREDs performed, update-only copies combined, synonyms resolved. -/
def State.homeLine (s : State) (asid va pa : Nat) : State := (s.combineLine pa).resolve asid va pa

/-- The words of [va, va + n) that a slice does not hold yet, clean, with the bytes of a span from `lo`. -/
def State.freshWords (s : State) (asid va pa n lo : Nat) (b : List Byte) : List L2Word :=
  ((wordsAt va n).filter fun a => (s.l2At asid a (pa / 64 * 64 + a % 64)).isNone).map fun a =>
    { asid := asid, va := a, pa := pa / 64 * 64 + a % 64, slice := s.homeSlice asid va,
      data := BitVec.ofNat 32 (natOf ((b.drop (a - lo)).take 4)), dirty := false }

/-- Bytes of one line read at home, as one access; with `alloc` the slice keeps what it fetches. -/
def State.homePiece (s : State) (asid va pa n : Nat) (alloc : Bool) : State × Data :=
  let s0 := s.homeLine asid va pa
  match s0.l2Missing asid va pa n with
  | none => (s0, .ok (s0.l2Gather asid va pa n va []))
  | some (lo, k) =>
    let (s1, d) := s0.dramRead (pa / 64 * 64 + lo % 64) k
    match d with
    | .bad c => (s1, .bad c)
    | .ok b =>
      let data := s1.l2Gather asid va pa n lo b
      (if alloc then s1.l2Put (s1.freshWords asid va pa n lo b) else s1, .ok data)

/-- Bytes read line by line with one access each, with the frame address of the first; an error ends it. -/
def readPieces (f : State → Nat → Nat → Nat → State × Data) (va0 pa0 : Nat) : List (Nat × Nat) → State → State × Data
  | [], s => (s, .ok [])
  | (a, n) :: r, s =>
    let (s1, d) := f s a (pa0 + (a - va0)) n
    match d with
    | .bad c => (s1, .bad c)
    | .ok b =>
      let (s2, rest) := readPieces f va0 pa0 r s1
      match rest with
      | .ok bs => (s2, .ok (b ++ bs))
      | .bad c => (s2, .bad c)

/-- `n` bytes at `va` (frame address `pa`) read at home. -/
def State.homeRead (s : State) (asid va pa n : Nat) (alloc : Bool) : State × Data :=
  readPieces (fun t a p k => t.homePiece asid a p k alloc) va pa (piecesOf va n) s

/-- The words of [va, va + n) with the bytes written over what they hold: (word address, new value). -/
def writtenWords (va : Nat) (old : Nat → List Byte) (bs : List Byte) : List (Nat × Word) :=
  ((wordsIn va bs.length).foldl (fun (r : List (Nat × Word) × List Byte) (x : Nat × Nat × Nat) =>
    let (a, off, k) := x
    (r.1 ++ [(a, mergeWord (BitVec.ofNat 32 (natOf (old a))) off (r.2.take k))], r.2.drop k)) ([], bs)).1

/-- Bytes of one line written at home, as one access; the cause when they are not performed. The bytes of words that the slice does not hold
go to memory without `alloc`; with it, a word written in part is fetched first. -/
def State.homePut (s : State) (asid va0 pa0 : Nat) (bs0 : List Byte) (alloc : Bool) : State × Option (BitVec 8) :=
  let (s0, pa, bs) := (s.homeLine asid va0 pa0).pinSpoil pa0 bs0
  let va := va0 + pa - pa0
  let frame := pa / 64 * 64
  let held (t : State) (a : Nat) : Option L2Word := t.l2At asid a (frame + a % 64)
  let old (t : State) (b : List Byte) (a : Nat) : List Byte := match held t a with
    | some w => bytesOf 4 w.data.toNat
    | none => (b.drop (a - va / 4 * 4)).take 4
  let word (t : State) (x : Nat × Word) : L2Word :=
    { asid := asid, va := x.1, pa := frame + x.1 % 64, slice := t.homeSlice asid va, data := x.2, dirty := true }
  if alloc then
    if (wordsIn va bs.length).any fun x => x.2.2 != 4 && (held s0 x.1).isNone then
      let (s1, d) := s0.homePiece asid (va / 4 * 4) (pa / 4 * 4) ((va + bs.length + 3) / 4 * 4 - va / 4 * 4) true
      match d with
      | .bad c => (s1, some c)
      | .ok b => s1.l2Try ((writtenWords va (old s1 b) bs).map (word s1))
    else s0.l2Try ((writtenWords va (old s0 []) bs).map (word s0))
  else
    let mine := ((writtenWords va (old s0 []) bs).filter fun x => (held s0 x.1).isSome).map (word s0)
    let rest := (wordsIn va bs.length).filter fun x => (held s0 x.1).isNone
    let (s1, e) := s0.l2Try mine
    if e.isSome || rest.isEmpty then (s1, e)
    else if mine.isEmpty then
      let (s2, b) := s1.mainWrite pa bs
      s2.dramWrite pa b
    else
      let (s2, b) := s1.mainWrite pa bs
      s2.lineWrite pa false (rest.map fun x => (frame + (x.1 + x.2.1) % 64, (b.drop (x.1 + x.2.1 - va)).take x.2.2))

/-- Bytes written line by line; the addresses of the parts that are not performed, with the causes. -/
def writePieces (f : State → Nat → Nat → List Byte → State × Option (BitVec 8)) (va0 pa0 : Nat) (bs : List Byte) :
    List (Nat × Nat) → State → State × List (Nat × BitVec 8)
  | [], s => (s, [])
  | (a, n) :: r, s =>
    let (s1, e) := f s a (pa0 + (a - va0)) ((bs.drop (a - va0)).take n)
    let (s2, es) := writePieces f va0 pa0 bs r s1
    (s2, (e.toList.map fun c => (a, c)) ++ es)

/-- Bytes written at home for an agent that takes the errors itself. -/
def State.homeTry (s : State) (asid va pa : Nat) (bs : List Byte) (alloc : Bool) : State × List (Nat × BitVec 8) :=
  writePieces (fun t a p b => t.homePut asid a p b alloc) va pa bs (piecesOf va bs.length) s

/-- A STORE_ERROR record of its home slice for each part of a write that was not performed (R166). -/
def State.writeFails (asid : Nat) (r : State × List (Nat × BitVec 8)) : State :=
  r.2.foldl (fun (t : State) (x : Nat × BitVec 8) => t.postAsidError asid x.2 x.1) r.1

/-- Bytes of a store written at home. -/
def State.homeWrite (s : State) (asid va pa : Nat) (bs : List Byte) (alloc : Bool) : State :=
  State.writeFails asid (s.homeTry asid va pa bs alloc)

/-- The slice's copies of the lines of [va, va + n) written back and invalidated, before memory is reached directly: a .y access (R371). -/
def State.slicePurge (s : State) (asid va pa n : Nat) : State :=
  (piecesOf va n).foldl (fun t p =>
    (t.homeLine asid p.1 (pa + (p.1 - va))).l2EvictAll fun w => w.asid == asid && w.va / 64 == p.1 / 64) s

def State.memReadY (s : State) (asid va pa n : Nat) : State × Data := (s.slicePurge asid va pa n).dramRead pa n

def State.memWriteY (s : State) (asid va pa0 : Nat) (bs0 : List Byte) : State :=
  let (s', pa, bs) := (s.slicePurge asid va pa0 bs0.length).pinSpoil pa0 bs0
  let (s0, b) := s'.mainWrite pa bs
  let (s1, e) := s0.dramWrite pa b
  match e with
  | some c => s1.postAsidError asid c va
  | none => s1

/-! ## The L1 of a thread's accesses -/

/-- A .c access recalls update-only copies of its line when the core holds one (R385). -/
def State.recallOwn (s : State) (core pa : Nat) : State :=
  if (s.getCore core).upd.any (fun u => lineOf u.pa == lineOf pa) then s.combineLine pa else s

/-- The words of [va, va + n), which lies in one line, that an L1 does not hold. -/
def State.l1Missing (s : State) (core asid va n : Nat) : List Nat := (wordsAt va n).filter fun a => (s.l1Find core asid a).isNone

/-- Words of a line put into an L1: (word address, value), for the frame line of `pa`. -/
def State.l1Fill (s : State) (core asid pa : Nat) (ip dirty : Bool) (ws : List (Nat × Word)) : State :=
  ws.foldl (fun (t : State) (x : Nat × Word) => t.l1Put core
    { asid := asid, va := x.1, pa := pa / 64 * 64 + x.1 % 64, slice := s.homeSlice asid x.1, data := x.2, dirty := dirty, ip := ip }) s

/-- The bytes of [va, va + n) as an L1 holds them. -/
def State.l1Gather (s : State) (core asid va n : Nat) : List Byte :=
  (wordsIn va n).flatMap fun (a, off, k) => match s.l1Find core asid a with
    | some x => wordBytes x.data off k
    | none => []

/-- Bytes of one line read in an L1: one request to home for the span of the words that it does not hold, of which it keeps those (R394). -/
def State.l1Piece (core asid : Nat) (ip : Bool) (s : State) (va pa n : Nat) : State × Data :=
  let s0 := s.recallOwn core pa
  match s0.l1Missing core asid va n with
  | [] => (s0, .ok (s0.l1Gather core asid va n))
  | lo :: r =>
    let k := (r.getLast?.getD lo) + 4 - lo
    let (s1, d) := s0.homePiece asid lo (pa / 64 * 64 + lo % 64) k true
    match d with
    | .bad c => (s1, .bad c)
    | .ok b =>
      let s2 := s1.l1Fill core asid pa ip false ((s1.l1Missing core asid va n).map fun a => (a, BitVec.ofNat 32 (natOf ((b.drop (a - lo)).take 4))))
      (s2, .ok (s2.l1Gather core asid va n))

/-- `n` bytes at `va` read in an L1. -/
def State.l1Read (s : State) (core asid va pa n : Nat) (ip : Bool) : State × Data :=
  readPieces (State.l1Piece core asid ip) va pa (piecesOf va n) s

/-- Bytes of one line written in an L1: each word they touch becomes valid and dirty; a word written in part is fetched first, and is not written
where that meets an error (R394), whose cause is the outcome. The line gets the one name of the access (R401). -/
def State.l1PutPiece (s : State) (core asid : Nat) (ip : Bool) (va0 pa0 : Nat) (bs0 : List Byte) : State × Option (BitVec 8) :=
  let (s0, pa, bs) := ((s.recallOwn core pa0).resolve asid va0 pa0).pinSpoil pa0 bs0
  let va := va0 + pa - pa0
  let part := ((wordsIn va bs.length).filter fun x => x.2.2 != 4 && (s0.l1Find core asid x.1).isNone).map (·.1)
  let (s1, e) := part.foldl (fun (r : State × Option (BitVec 8)) (a : Nat) =>
    let (t1, d) := State.l1Piece core asid ip r.1 a (pa / 64 * 64 + a % 64) 4
    (t1, r.2.orElse fun _ => d.err)) (s0, none)
  let old (a : Nat) : List Byte := match s1.l1Find core asid a with
    | some w => bytesOf 4 w.data.toNat
    | none => []
  (s1.l1Fill core asid pa ip true ((writtenWords va old bs).filter fun x => !(part.contains x.1 && (old x.1).isEmpty)), e)

/-- Bytes at `va` written in an L1 for an agent that takes the errors itself. -/
def State.l1Try (s : State) (core asid va pa : Nat) (ip : Bool) (bs : List Byte) : State × List (Nat × BitVec 8) :=
  writePieces (fun t a p b => t.l1PutPiece core asid ip a p b) va pa bs (piecesOf va bs.length) s

/-- Bytes of a store written in an L1. -/
def State.l1PutAll (s : State) (core asid va pa : Nat) (ip : Bool) (bs : List Byte) : State :=
  State.writeFails asid (s.l1Try core asid va pa ip bs)

/-- The L1 words of [va, va + n) written back and invalidated before a .d, .s or .y access (R170). -/
def State.l1Bypass (s : State) (core asid va n : Nat) : State :=
  let p (w : L1Word) : Bool := w.asid == asid && decide (va / 4 * 4 ≤ w.va) && decide (w.va < va + n)
  if (s.getCore core).l1.any p then s.l1Write core p true else s

/-! ## Releases and acquires (R188 to R190, R378, R379) -/

/-- The cores whose L1 a release of a thread of `core` writes back: the cluster's four under `.fusel1` (R395). -/
def l1Set (t : Team) (core : Nat) : List Nat :=
  if t.fusel1 then (List.range 4).map fun i => core / 4 * 4 + i else [core]

/-- The next id of a copy or link request. -/
def State.fresh (s : State) : Nat × State := (s.nextId, { s with nextId := s.nextId + 1 })

/-- The smallest naturally aligned block of 4 to 256 bytes that holds [pa, pa + n): what a request names (20 R426). -/
def linkBlock (pa n : Nat) : Nat × Nat :=
  match [4, 8, 16, 32, 64, 128, 256].find? fun k => decide (pa % k + n ≤ k) with
  | some k => (pa / k * k, k)
  | none => (pa, n)

/-- A request put on a link (R388, R426, R476) for [pa, pa + n), which lies in one line: a read or write names the block that holds it. A
write wakes what waits on the line (10 R271). -/
def State.linkPost (s : State) (ctx : Nat) (o : LinkOwner) (kind pa n : Nat) (data : List Byte) : State :=
  let (id, s1) := s.fresh
  let (a, k) := if kind == 2 || kind == 4 then (pa, n) else linkBlock pa n
  let skip := pa - a
  let write := kind == 1 || kind == 3
  let r : LinkReq :=
    { id := id, ctx := ctx, owner := o, host := paClass pa == .host, kind := kind, pa := a, n := k, skip := skip, len := n,
      data := if write then List.replicate skip 0 ++ data ++ List.replicate (k - skip - n) 0 else data,
      enables := if write then List.replicate skip false ++ List.replicate n true ++ List.replicate (k - skip - n) false else [],
      poison := false, old := [], sent := paClass pa != .host, done := none }
  let s2 : State := { s1 with links := s1.links ++ [r] }
  if kind == 0 || kind == 5 then s2 else s2.wakeLine pa

/-- The answer to a request, once it is there: refused or not, and of a read the bytes that the access asked for. -/
def LinkReq.answer (r : LinkReq) : Option (Bool × List Byte) :=
  r.done.map fun d => (d.1, if r.kind == 0 || r.kind == 5 then (d.2.drop r.skip).take r.len else d.2)

/-- One held WO store of a thread written to its home, or to memory for .y, past the L1 words that its core holds (R165, R170, R381). A page
that no longer translates posts a STORE_ERROR record. -/
def State.writeWo (s : State) (t : Team) (g : Nat) (w : WoStore) : State :=
  let asid := s.asidOf t.ctx
  let l1 := l1Core t (t.coreOf g) w.va
  let put (st : State) (pa : Nat) : State :=
    if paClass pa != .dram then st.linkPost t.ctx (.device w.va) 1 pa w.data.length w.data
    else
      let s1 := st.l1Bypass l1 asid w.va w.data.length
      if w.policy == 3 then s1.memWriteY asid w.va pa w.data else s1.homeWrite asid w.va pa w.data true
  match if w.policy == 3 then none else s.heldPa l1 asid w.va with
  | some pa => put s pa
  | none =>
    let (s1, r) := s.translate t.ctx w.va
    match r with
    | .ok e => put s1 (e.pa w.va)
    | .absent => s1.postStoreError t.ctx cNotPresent w.va
    | .fault c => s1.postStoreError t.ctx c w.va

/-- The held WO stores of a thread that satisfy `p` released, in its program order (R381). -/
def State.releaseWoIf (s : State) (tm g l : Nat) (p : WoStore → Bool) : State :=
  match s.teams[tm]? with
  | none => s
  | some t =>
    match (t.groups[g]?).bind (·.threads[l]?) with
    | none => s
    | some th =>
      if th.wo.any p then
        (th.wo.filter p).foldl (fun (st : State) (w : WoStore) => st.writeWo t g w)
          (s.modThread tm g l fun x => { x with wo := x.wo.filter fun w => !p w })
      else s

/-- Every held WO store of a thread released. -/
def State.releaseWo (s : State) (tm g l : Nat) : State := s.releaseWoIf tm g l fun _ => true

/-- What a release at DEV or SYS scope sends out of a core: the dirty RC words of the ASID and the context's update-only copies. -/
def State.releaseCore (s : State) (t : Team) (core : Nat) : State :=
  let asid := s.asidOf t.ctx
  (l1Set t core).foldl (fun st c =>
    (if (st.getCore c).l1.any (fun w => w.asid == asid && w.dirty && !w.ip) then
       st.l1Write c (fun w => w.asid == asid && w.dirty && !w.ip) false else st).sendUpdates c (fun u => u.asid == asid)) s

/-- A release by a thread at DEV or SYS scope (R189, R381, R385). -/
def State.releaseDev (s : State) (tm g l : Nat) : State :=
  match s.teams[tm]? with
  | none => s
  | some t => if t.onFoehn then s else (s.releaseCore t (t.coreOf g)).releaseWo tm g l

/-- An acquire at DEV or SYS scope: every RC word of the ASID leaves the core's L1, dirty ones merged first (R189). -/
def State.acquireDev (s : State) (tm g : Nat) : State :=
  match s.teams[tm]? with
  | none => s
  | some t =>
    if t.onFoehn then s
    else
      let asid := s.asidOf t.ctx
      (l1Set t (t.coreOf g)).foldl (fun st c =>
        if (st.getCore c).l1.any (fun w => w.asid == asid && !w.ip) then st.l1Write c (fun w => w.asid == asid && !w.ip) true else st) s

/-- A release at TEAM scope: on a core pair, the core's dirty RC words (R379). -/
def State.releaseTeam (s : State) (tm g : Nat) : State :=
  match s.teams[tm]? with
  | none => s
  | some t =>
    if t.pair && !t.onFoehn then
      let asid := s.asidOf t.ctx
      (l1Set t (t.coreOf g)).foldl (fun st c => st.l1Write c (fun w => w.asid == asid && w.dirty && !w.ip) false) s
    else s

/-- An acquire at TEAM scope: on a core pair, the RC words of the ASID (R189). -/
def State.acquireTeam (s : State) (tm g : Nat) : State :=
  match s.teams[tm]? with
  | none => s
  | some t => if t.pair && !t.onFoehn then s.acquireDev tm g else s

/-- Every core writes back the context's dirty RC words (R190). -/
def State.promote (s : State) (ctx : Nat) : State :=
  let asid := s.asidOf ctx
  s.l1WriteAll (fun w => w.asid == asid && w.dirty && !w.ip) false

/-! ## Drains and purges -/

/-- The IP words of a region, in every L1, written back to home and dropped (R200, R201). -/
def State.drainIp (s : State) (asid region : Nat) : State :=
  s.l1WriteAll (fun w => w.ip && w.asid == asid && w.va / regionSize == region) true

/-- Whether a range of `n` bytes at `lo` meets the 64-byte line of `va`. -/
def lineMeets (va lo n : Nat) : Bool := decide (n > 0) && decide (va / 64 * 64 < lo + n) && decide (lo < va / 64 * 64 + 64)

/-- The instruction-cache words of a range dropped. -/
def Core.dropCode (asid lo n : Nat) (c : Core) : Core :=
  { c with icache := c.icache.filter fun e => !(e.asid == asid && lineMeets e.va lo n) }

/-- The lines of a range of `n` bytes at `lo` in a 64 KiB page, by their bits. -/
def purgeMask (page lo n : Nat) : Nat :=
  let a := Nat.max (lo / 64 * 64) (page * 65536)
  let b := Nat.min ((lo + n + 63) / 64 * 64) (page * 65536 + 65536)
  if n > 0 ∧ a < b then (2 ^ ((b - a) / 64) - 1) * 2 ^ ((a - page * 65536) / 64) else 0

/-- A VPURGE of a range noted in a directory entry: a mapping goes once every line of it has been purged (R389). -/
def DirEntry.forget (asid lo n : Nat) (d : DirEntry) : DirEntry :=
  { d with maps := (d.maps.map fun m => if m.asid == asid then { m with purged := m.purged ||| purgeMask m.page lo n } else m).filter fun m =>
      m.purged != 2 ^ 1024 - 1 }

/-- Whether a cache of the device holds a word of a 64 KiB frame (R389). -/
def State.frameCached (s : State) (f : Nat) : Bool :=
  s.mem.l2.any (fun w => w.pa / 65536 == f) || s.mem.pending.any (fun e => e.2.pa / 65536 == f) || s.cores.any fun c =>
    c.l1.any (fun w => w.pa / 65536 == f) || c.icache.any (fun w => w.pa / 65536 == f) || c.upd.any fun u => u.pa / 65536 == f

/-- VPURGE of a range under an ASID (R403): update-only copies combined, L1 and L2 words written back and invalidated,
instruction-cache words dropped, and the frames' directory entries emptied when nothing else holds them (R389). -/
def State.purgeRange (s : State) (asid lo n : Nat) : State :=
  let s0 := (s.cores.flatMap (fun c => c.upd.filter fun u => u.asid == asid && lineMeets u.va lo n) ++
      (s.mem.pending.map (·.2)).filter (fun u => u.asid == asid && lineMeets u.va lo n)).foldl
    (fun (t : State) (u : UpdWord) => t.combineLine u.pa) s
  let s1 := s0.l1WriteAll (fun w => w.asid == asid && lineMeets w.va lo n) true
  let s2 := s1.l2EvictAll fun w => w.asid == asid && lineMeets w.va lo n
  let s3 : State := { s2 with cores := s2.cores.map (Core.dropCode asid lo n) }
  s3.setMem { s3.mem with dir := (s3.mem.dir.map (DirEntry.forget asid lo n)).filter fun d => !d.maps.isEmpty || s3.frameCached d.frame }

/-- The held WO stores that satisfy `p`, of every thread, written to home; `p` gets the ASID of the store. -/
def State.releaseWoWhere (s : State) (p : Nat → WoStore → Bool) : State :=
  (List.range s.teams.length).foldl (fun st tm => match st.teams[tm]? with
    | none => st
    | some t => (List.range t.groups.length).foldl (fun st g => match t.groups[g]? with
        | none => st
        | some gr => (List.range gr.threads.length).foldl (fun st l => st.releaseWoIf tm g l (p (st.asidOf t.ctx))) st) st) s

/-- The held WO stores of a range under an ASID, of every thread, written to home; the other stores of those threads stay held (R403, R390). -/
def State.releaseWoRange (s : State) (asid lo n : Nat) : State := s.releaseWoWhere fun a w => a == asid && lineMeets w.va lo n

/-- TLBINV of a range (R403): translations and attribute-buffer entries of the pages it meets. -/
def State.tlbInvalidate (s : State) (asid lo n : Nat) : State :=
  let hit (base size : Nat) : Bool := decide (n > 0) && decide (base < lo + n) && decide (lo < base + size)
  let s1 := s.setMem { s.mem with tb := s.mem.tb.filter fun e => !(e.asid == asid && hit e.base e.size) }
  { s1 with cores := s1.cores.map fun (c : Core) => { c with alb := c.alb.filter fun e => !(e.asid == asid && hit e.base e.size) } }

end Sys2Proof.Machine
end

