-- ==== Sys2Proof/Machine/Ops.lean ====
section
/-! DEFINITION. The named operations every meaning is built from: issuing an operation with the checks of 01 R25 and R37, the end
of each of its lanes, taking a trap (10 R280) and returning from one (07 R227), parking with a record (10 R281, R282), aborting a
transaction (06 R194), and the release of a meeting (03 R94). -/

namespace Sys2Proof.Machine

open Sys2Proof

/-! ## Roles (R132, R167, R203, R246) -/

def rolesAll : Role → Bool
  | _ => true

/-- Floating point: not COPY (R246). -/
def rolesFloat : Role → Bool
  | .copy => false
  | _ => true

/-- LD, ST, ATOM, RED, TXN, CACHE, REGN and the queue instructions: not MATRIX (R167, R203). -/
def rolesMemory : Role → Bool
  | .matrix => false
  | _ => true

/-- ACP, ENG, NMCALL, NMWALK and FRED: GENERAL and COPY (R167, R203). -/
def rolesCopy : Role → Bool
  | .general => true
  | .copy => true
  | _ => false

/-- Matrix work: GENERAL and MATRIX (R132). -/
def rolesMatrix : Role → Bool
  | .general => true
  | .matrix => true
  | _ => false

/-! ## What an instruction is to the issue stage -/

/-- Which cores, levels and roles run it, whether it runs inside a transaction (R192), whether it is one operation over the whole
class (R72), its sources in order, its destination and the tag rule of its result. -/
structure Form where
  main : Bool
  foehn : Bool
  priv : Bool
  roles : Role → Bool
  txn : Bool
  laneOp : Bool
  srcs : List (Reg × Nat)
  dst : Option (Reg × Nat)
  rule : TagRule

/-- A form that every core, level and role runs, also inside a transaction. -/
def Form.plain (srcs : List (Reg × Nat)) (dst : Option (Reg × Nat)) (rule : TagRule) : Form :=
  { main := true, foehn := true, priv := false, roles := rolesAll, txn := true, laneOp := false, srcs := srcs, dst := dst,
    rule := rule }

/-- An operation as its body sees it: its team, group and registers before it, the lanes that perform it, whether these are every
non-exited thread of the group (R241), and the state's clock. -/
structure Iss where
  op : Op
  view : View
  lanes : List Nat
  full : Bool
  deriving DecidableEq, Repr

def Iss.team (i : Iss) : Team := i.view.team
def Iss.thread (i : Iss) (l : Nat) : Thread := (i.view.group.threads[l]?).getD (Thread.start 0 0 false)

/-- A body that computes each lane by itself and changes nothing else. -/
def perLane (f : Iss → Nat → LaneOut) : Iss → State → State × List LaneOut :=
  fun i s => (s, i.lanes.map (f i))

/-! ## Calls and firmware that end (R217, R229, R484) -/

/-- Every thread of a team stopped. -/
def Team.stopAll (t : Team) : Team :=
  { t with groups := t.groups.map fun g => { g with threads := g.threads.map fun th => { th with exited := true, wait := none } } }

/-- A near-memory call ended with a status; its groups stop (R217, R229). -/
def State.endCall (s : State) (tm status : Nat) : State :=
  let s1 := s.modTeam tm Team.stopAll
  { s1 with calls := s1.calls.map fun c =>
      if c.team == tm && c.state == .running then { c with state := .ended, status := status } else c }

/-! ## Traps and parks -/

/-- Where a thread's traps enter: the context's TVEC, or the Foehn core's own in firmware (R225, R484). 0 means none. -/
def State.tvecOf (s : State) (t : Team) : DWord :=
  match t.kind, t.place with
  | .firmware, .foehn st c => assocGet 0 (s.getStack st).firmTvec c
  | .team, _ => ((s.ctxOf t.ctx).map (·.tvec)).getD 0
  | _, _ => 0

/-- Whether a fault now would fall inside a handler: SYSTEM level on a main core, trap state in firmware (R280, R484). -/
def Thread.inHandler (th : Thread) (firmware : Bool) : Bool := if firmware then th.inTrap else th.sys

/-- TRAP ENTRY (R280): the saved PC, the cause with its code and the address, SYSTEM level, trap state, and the PC at TVEC. The
arrival test stays suspended until TRET (R95). -/
def Thread.trapEnter (th : Thread) (tvec pc : DWord) (cause : BitVec 8) (code : Nat) (addr : DWord) : Thread :=
  { th with tpc := pc, tcause := BitVec.ofNat 32 (cause.toNat + code * 256), taddr := addr, sys := true, inTrap := true,
            pc := tvec, arrived := false, wait := none, seen := none, fbuf := [] }

/-- A change of PC with the arrival test (R93, R95). -/
def Thread.moveTo (th : Thread) (pc : DWord) : Thread :=
  { th with pc := pc, arrived := !th.inTrap && th.meet != meetNone && th.meet == pc, wait := none, seen := none }

/-- RETURN FROM A TRAP (R227): USER level (SYSTEM in firmware, R484) and the trap state ended; the thread then goes on at TPC, with the arrival
test on it (R95). -/
def Thread.trapReturn (th : Thread) (firmware : Bool) : Thread := { th with sys := firmware, inTrap := false }

/-- Whether the thread is waiting by instruction, has arrived, or is parked (R268). -/
def Thread.waiting (th : Thread) : Bool := th.wait.isSome || th.arrived || th.park.isSome

/-- The start of a wait noted: the clock and TSWAP (R268, R269). -/
def Thread.noteWait (th : Thread) (was : Bool) (clock tswap : Nat) : Thread :=
  if th.waiting && !was then { th with waitSince := clock, waitSwap := tswap } else th

/-- Whether the lane is done with the instruction (R72). -/
def LaneEnd.retires : LaneEnd → Bool
  | .next => true
  | .goto _ => true
  | .exit => true
  | _ => false

/-- The end of one lane, traps, parks and aborts apart (these are settled before): its thread after it. A transaction counts the
instructions it has run (R192). -/
def Thread.finish (th : Thread) (pc : DWord) (o : LaneOut) : Thread :=
  let th1 := { th with fx := th.fx ||| o.fx, rng := o.rng.getD th.rng, stirred := false,
                       txn := th.txn.map fun x => if o.ends.retires then { x with count := x.count + 1 } else x }
  match o.ends with
  | .next => { th1.moveTo (pc + 4) with fbuf := th1.fbuf }
  | .goto p => { th1.moveTo p with fbuf := [] }
  | .wait k => { th1 with wait := some k }
  | .exit => { th1 with exited := true, arrived := false, wait := none, seen := none, fbuf := [], txn := none }
  | _ => th1

/-- The record source of a core: type 0 on a main core, 5 on a Foehn core (R281). -/
def Team.recordSrc (t : Team) (g : Nat) : Nat × Nat := (if t.onFoehn then 5 else 0, t.coreOf g)

/-- The address of the lowest of some lanes. -/
def lowestAddr : List (Nat × DWord) → Option (Nat × DWord)
  | [] => none
  | x :: r => match lowestAddr r with
    | some y => if x.1 < y.1 then some x else some y
    | none => some x

/-- Lanes parked with one record for all of them (R280, R281): kind 0 PARK, or 1 UNHANDLED; the address is the lowest masked lane's. -/
def State.parkLanes (s : State) (op : Op) (unhandled : Bool) (cause : BitVec 8) (lanes : List (Nat × DWord)) : State :=
  match s.teams[op.team]?, lowestAddr lanes with
  | some t, some (_, a0) =>
    let (ty, num) := t.recordSrc op.grp
    let key := srcKey ty num
    let firm := t.kind == .firmware
    let seq := ((s.ctxOf t.ctx).map (·.nextSeq key)).getD 0
    let tswap := ((s.ctxOf t.ctx).map (·.tswap)).getD 0
    let park : Park := { unhandled := unhandled, cause := cause, src := key, seq := seq, recorded := !firm, addr := a0 }
    let s1 := s.modGroup op.team op.grp fun g => g.modLanes (lanes.map (·.1)) fun _ th =>
      ({ th with park := some park, wait := none, seen := none, arrived := false } : Thread).noteWait th.waiting s.clock tswap
    if firm then s1
    else s1.post { s1.record t.ctx cause (if unhandled then 1 else 0) ty num with
        mask := maskOf (lanes.map (·.1)), addr := a0, pc := op.pc, handle := t.handle, team := t.index,
        core := t.coreOf op.grp, grp := op.grp }
  | _, _ => s

/-- The status word of an abort (R194). -/
def abortWord (code sub : Nat) : Word := BitVec.ofNat 32 (code + 256 * sub)

/-! ## Threads that may not issue (R37, R72, R163) -/

/-- Whether a register that some thread is held for is no longer empty: full, or marked. -/
def Team.regFull (t : Team) (g : Group) (x : Nat × Nat) : Bool :=
  if x.1 < 64 then
    match g.regs[x.2]? with
    | some v => !v.empty.getLsbD x.1 || v.marks.any (·.lane == x.1)
    | none => true
  else match t.cregs[x.2]? with
    | some c => !c.empty || c.mark.isSome
    | none => true

/-- A thread after registers have been filled: with its last empty one filled, it is eligible from now on (09 R240). -/
def Thread.feed (now : Nat) (full : Nat × Nat → Bool) (l : Nat) (th : Thread) : Thread :=
  if th.needs.isEmpty then th
  else
    let left := th.needs.filter fun x => !full x
    { th with needs := left, age := if left.isEmpty && th.needs.any (fun x => x.1 == l || x.1 == 64) then now else th.age }

/-- The threads of a team after registers have been filled. -/
def Team.feed (now : Nat) (t : Team) : Team :=
  { t with groups := t.groups.map fun g => { g with threads := g.threads.mapIdx (Thread.feed now (t.regFull g)) } }

/-- Lanes held for the registers that each names. -/
def State.starve (s : State) (op : Op) : List (Nat × List (Nat × Nat)) → State
  | [] => s
  | h :: r => s.modGroup op.team op.grp fun g => g.modLanes ((h :: r).map (·.1)) fun l th => { th with needs := assocGet [] (h :: r) l }

/-- The lots of a group after an operation (R163): the lanes whose accesses are not accepted yet, and those that wait for them, have one lot; a
thread whose lot has no such lane left goes on. -/
def Group.lots (now : Nat) (outs : List LaneOut) (g : Group) : Group :=
  let pend (l : Nat) : Bool := outs.any fun o => o.lane == l && o.ends == .pend
  let held := outs.any fun o => o.ends == .pend
  if !held && g.threads.all (·.lot.isNone) then g
  else
    let old := ((g.threads.mapIdx fun l th => if pend l then th.lot else none).filterMap id)
    let set (l : Nat) (th : Thread) : Thread :=
      if outs.any (·.lane == l) then
        { th with lot := if held && (pend l || outs.any fun o => o.lane == l && o.ends == .next) then some now else none, lotOpen := pend l }
      else if th.lot.any old.contains then { th with lot := some now } else th
    let ths := g.threads.mapIdx set
    { g with threads := ths.map fun th =>
        if th.lotOpen || ths.any (fun x => x.lotOpen && x.lot == th.lot) then th else { th with lot := none } }

/-! ## Aborts (06 R194) -/

/-- A load in flight that no longer writes a register of a lane, since an abort has written it (R37, R194). -/
def Load.drop (tm grp lane base : Nat) (d : Reg) (x : Load) : Load :=
  let r := d.toNat
  let k := if x.isC then r - 96 else base + r
  if x.team == tm && (if x.isC then decide (96 ≤ r ∧ r < 112) else x.grp == grp && decide (r < 96)) && decide (x.reg ≤ k) && decide (k < x.reg + x.count)
  then { x with dropped := (lane, k) :: x.dropped } else x

/-- ABORT of a lane's transaction (R194): the stores it held are dropped, the register of its TBEGIN gets the status (a load of the
transaction into it no longer lands there), and the lane continues at its handler. -/
def State.abortLane (s : State) (tm grp lane code sub : Nat) : State :=
  match s.teams[tm]? with
  | none => s
  | some t =>
    match (t.groups[grp]?).bind (·.threads[lane]?) with
    | none => s
    | some th => match th.txn with
      | none => s
      | some x =>
        let t1 := t.writeRegs grp th.base x.dst 1 false .g [.write lane [abortWord code sub]]
        let s1 := ({ s with loads := s.loads.map (Load.drop tm grp lane th.base x.dst) } : State).modTeam tm fun _ => t1
        (s1.modThread tm grp lane fun h => { ({ h with txn := none } : Thread).moveTo x.handler with fbuf := [], needs := [] }).modTeam tm
          (Team.feed s.tick)

/-! ## Meetings (R94) -/

/-- Whether every thread that meets at `x` has arrived or exited. -/
def Group.meetComplete (g : Group) (x : DWord) : Bool := g.threads.all fun th => th.meet != x || th.arrived || th.exited

/-- The release test: each arrived thread whose meeting set is complete loses its meeting and its arrival, and is eligible from now on. -/
def Group.release (now : Nat) (g : Group) : Group :=
  { g with threads := g.threads.map fun th =>
      if th.arrived && !th.exited && g.meetComplete th.meet then { th with meet := meetNone, arrived := false, age := now } else th }

/-- The release test run in every group of a team. -/
def State.releaseAll (s : State) (tm : Nat) : State := s.modTeam tm fun t => { t with groups := t.groups.map (Group.release s.tick) }

/-! ## The end of an operation -/

/-- The distinct causes of a list, in order. -/
def causesOf : List (BitVec 8) → List (BitVec 8)
  | [] => []
  | c :: r => c :: (causesOf r).filter (· != c)

/-- Whether a faulting lane traps; else it parks with an UNHANDLED record (R280). -/
def Team.delivers (t : Team) (tvec : DWord) (th : Thread) : Bool := tvec != 0 && !th.inHandler (t.kind == .firmware)

/-- Faulting lanes that trap (R280). -/
def State.trapLanes (s : State) (op : Op) (outs : List LaneOut) : State :=
  match s.teams[op.team]? with
  | none => s
  | some t =>
    let tvec := s.tvecOf t
    s.modGroup op.team op.grp fun g =>
      { g with threads := g.threads.mapIdx fun l th => match outs.find? (fun o => o.lane == l) with
        | some o => match o.ends with
          | .fault c code a => if t.delivers tvec th then th.trapEnter tvec op.pc c code a else th
          | _ => th
        | none => th }

/-- The lanes and addresses of outcomes that park: PAGE_NOT_PRESENT ones, or undelivered faults of one cause. -/
def parkedLanes (outs : List LaneOut) : List (Nat × DWord) :=
  outs.filterMap fun o => match o.ends with
    | .park a => some (o.lane, a)
    | _ => none

def undelivered (t : Team) (tvec : DWord) (g : Group) (c : BitVec 8) (outs : List LaneOut) : List (Nat × DWord) :=
  outs.filterMap fun o => match o.ends, g.threads[o.lane]? with
    | .fault c' _ a, some th => if c' == c && !t.delivers tvec th then some (o.lane, a) else none
    | _, _ => none

/-- Whether a lane is inside a transaction. -/
def Group.inTxn (g : Group) (l : Nat) : Bool := ((g.threads[l]?).bind (·.txn)).isSome

/-- Whether it has run the 4,096 instructions that a transaction may (R192). -/
def Group.txnFull (g : Group) (l : Nat) : Bool := ((g.threads[l]?).bind (·.txn)).any fun x => decide (x.count ≥ 4096)

/-- The cause of a fault. -/
def LaneEnd.faultCause : LaneEnd → Option (BitVec 8)
  | .fault c _ _ => some c
  | _ => none

/-- Whether the lane's words reach the destination: neither a fault nor an abort. -/
def LaneEnd.delivers (e : LaneEnd) : Bool :=
  !e.isFault && match e with
    | .abort _ => false
    | _ => true

/-- Whether a thread stands in a wait during which its context's watchdog does not count: WAITX or SLEEP (10 R276). -/
def Thread.unwatched (th : Thread) : Bool :=
  match th.wait with
  | some (.wordSys _ _) => true
  | some (.sleep _) => true
  | _ => false

/-- Every lane's end performed: register writes are done before. A lane that has issued goes to the end of the order (09 R240). A fault in a
near-memory call ends the call with FAULT (R229). An instruction retired, or the end of a wait in WAITX or SLEEP, returns the watchdog counter
of the context to 0 (10 R276). -/
def State.finish (s : State) (op : Op) (outs : List LaneOut) : State :=
  match s.teams[op.team]? with
  | none => s
  | some t =>
    match t.groups[op.grp]? with
    | none => s
    | some g0 =>
      if t.kind == .call && outs.any (fun o => o.ends.isFault) then s.endCall op.team 3
      else
        -- a fault inside a transaction, ATTRIBUTE_ILLEGAL_OP and SCRATCH_BOUNDS among them, aborts it with FAULT (R192, DESIGN CHOICE log 49)
        let outs1 := outs.map fun o => if o.ends.isFault && g0.inTxn o.lane then { o with ends := .abort 5 } else o
        let tswap := ((s.ctxOf t.ctx).map (·.tswap)).getD 0
        let s1 := s.modGroup op.team op.grp fun g =>
          { g with threads := g.threads.mapIdx fun l th => match outs1.find? (fun o => o.lane == l) with
            | some o => { (th.finish op.pc o).noteWait th.waiting s.clock tswap with age := s.tick }
            | none => th }
        let tvec := s.tvecOf t
        let causes := causesOf (outs1.filterMap fun o => o.ends.faultCause)
        let s2 := causes.foldl (fun st c => st.parkLanes op true c (undelivered t tvec g0 c outs1)) (s1.trapLanes op outs1)
        let s3 := s2.parkLanes op false cNotPresent (parkedLanes outs1)
        let s4 := outs1.foldl (fun st o => match o.ends with
          | .abort code => st.abortLane op.team op.grp o.lane (code % 256) (code / 256)
          | _ => st) s3
        let alive := outs1.any fun o => o.ends.retires || (o.ends.isFault && (g0.threads[o.lane]?).any Thread.unwatched)
        (if alive then s4.signal t.ctx else s4).modGroup op.team op.grp fun g => (g.release s.tick).lots s.tick outs1

/-! ## Issue -/

/-- The obstacle, if any, that an operand of a lane puts up: held on an empty register, or a fault (R37, R166). -/
inductive Obstacle where
  | none
  | held
  | fault (o : LaneOut)
  deriving DecidableEq, Repr

def Obstacle.faulted (x : Obstacle) : Option LaneOut :=
  match x with
  | .fault o => some o
  | _ => Option.none

/-- The first faulting source of a lane: which fault a lane takes whose sources would raise different ones is not said, and the first of them in the
order of the operands, d, a, b, stands (DESIGN CHOICE log 78). -/
def sourceFault (w : View) (trap : Bool) (lane : Nat) : List Nat → Option LaneOut
  | [] => none
  | r :: rs => match w.sourceReady r lane with
    | .ok => sourceFault w trap lane rs
    | .empty => if trap then some (.fault lane cEmptyRead r) else sourceFault w trap lane rs
    | .marked c a => some (.fault lane c a.toNat)

/-- What the operands of a lane put up. Under EMPTYTRAP a register that is both source and destination and is empty raises EMPTY_READ at once, though
its write would wait (DESIGN CHOICE log 79). -/
def obstacle (w : View) (f : Form) (lane : Nat) : Obstacle :=
  let trap := w.group.gcr.getLsbD 3
  let srcs := regsOf f.srcs
  let dsts := regsOf f.dst.toList
  if (!trap && srcs.any fun r => w.sourceReady r lane == .empty) || dsts.any fun r => w.destEmpty r lane && !(trap && srcs.contains r)
  then .held
  else match sourceFault w trap lane srcs with
    | some o => .fault o
    | none => .none

/-- The empty registers that hold a lane at an instruction. -/
def emptyRegs (w : View) (f : Form) (lane : Nat) : List (Nat × Nat) :=
  let srcs := regsOf f.srcs
  let held (r : Nat) : Bool := w.destEmpty r lane && !(w.group.gcr.getLsbD 3 && srcs.contains r)
  let rs := (if w.group.gcr.getLsbD 3 then [] else srcs.filter fun r => w.sourceReady r lane == .empty) ++ (regsOf f.dst.toList).filter held
  rs.map fun r => if r < 96 then (lane, w.base + r) else (64, r - 96)

/-- What the threads that stand at a lane instruction outside the operation are held for: it is performed with them (R72). -/
def standing (g : Group) (op : Op) : List (Nat × Nat) :=
  g.threads.flatMap fun th =>
    if th.pc == op.pc && th.base == op.base && !th.exited && th.park.isNone && !th.arrived then th.needs else []

/-- The lanes of an operation all end in one fault. -/
def State.faultAll (s : State) (op : Op) (cause : BitVec 8) (addr : Nat) : State :=
  s.finish op ((lanesOf op.lanes).map fun l => .fault l cause addr)

/-- Whether a lane stands at its instruction, which has issued. -/
def LaneEnd.stands : LaneEnd → Bool
  | .stay => true
  | .pend => true
  | .wait _ => true
  | _ => false

/-- What the lanes that stand have seen of the common registers noted, at their first try, and whether theirs is a load into one of them (09 R248,
R249). -/
def State.standLanes (s : State) (i : Iss) (outs : List LaneOut) : State :=
  if outs.any (·.ends.stands) then
    let opened (l : Nat) : Bool := s.loads.any fun d => d.team == i.op.team && d.grp == i.op.grp && d.rest.contains l
    s.modGroup i.op.team i.op.grp fun g => g.modLanes ((outs.filter (·.ends.stands)).map (·.lane)) fun l th =>
      { th with seen := some { (th.seen.getD { vals := i.team.cregs.map (·.val), tags := i.team.ctags, opened := false }) with opened := opened l } }
  else s

/-- The outcome of an operation whose body has run: results written, then every lane's end. -/
def State.complete (s : State) (i : Iss) (f : Form) (outs : List LaneOut) : State :=
  let good := outs.filter fun o => o.ends.delivers
  let full := i.full && good.length == outs.length
  let s1 := match f.dst with
    | some (d, n) =>
      if good.all (·.vals.isEmpty) then s
      else s.modTeam i.op.team fun t =>
        t.writeRegs i.op.grp i.op.base d n full (i.view.resTag f.rule f.srcs) good
    | none => s
  (s1.finish i.op outs).standLanes i outs

/-- ISSUE of one operation (R24, R25, R37, R72, R192): ILLEGAL_INSTRUCTION, PRIVILEGE and ROLE for every lane alike; then the
operands of each lane; then the body over the lanes that are ready. -/
def issue (f : Form) (body : Iss → State → State × List LaneOut) (s : State) : Out :=
  match s.cur with
  | none => .fault .noOperation
  | some op =>
    match s.teams[op.team]? with
    | none => .fault .noOperation
    | some t =>
      match t.groups[op.grp]? with
      | none => .fault .noOperation
      | some g =>
        if op.lanes = 0 then .fault .noOperation
        else if (if t.onFoehn then !f.foehn else !f.main) then .next (s.faultAll op cIllegal op.word.toNat)
        else if f.priv && !op.sys then .next (s.faultAll op cPrivilege op.word.toNat)
        else if !op.sys && !f.roles g.role then .next (s.faultAll op cRole op.word.toNat)
        else
          let w : View := { team := t, grp := op.grp, group := g, base := op.base }
          let lanes := lanesOf op.lanes
          let aborts := lanes.filter fun l => g.inTxn l && (!f.txn || g.txnFull l)
          let rest := lanes.filter fun l => !aborts.contains l
          let obs := rest.map fun l => (l, obstacle w f l)
          let needs := (obs.filter fun x => x.2 == .held).map fun x => (x.1, emptyRegs w f x.1)
          let all := if f.laneOp then standing g op ++ needs.flatMap (·.2) else []
          let ready := (obs.filter fun x => x.2 == .none).map (·.1)
          let faults := obs.filterMap fun x => x.2.faulted
          let ends := faults ++ aborts.map fun l => LaneOut.only l (.abort 3)
          if !all.isEmpty then .next (s.starve op (lanes.map fun l => (l, all)))
          else if ready.isEmpty then .next ((s.finish op ends).starve op needs)
          else
            let i : Iss := { op := op, view := w, lanes := ready, full := ready == g.live }
            let (s1, outs) := body i s
            .next ((s1.complete { i with full := i.full && ends.isEmpty } f (outs ++ ends)).starve op needs)

/-- An instruction that is nothing on any core: every lane raises ILLEGAL_INSTRUCTION (R24). -/
def issueIllegal (s : State) : Out :=
  match s.cur with
  | none => .fault .noOperation
  | some op => if op.lanes = 0 then .fault .noOperation else .next (s.faultAll op cIllegal op.word.toNat)

end Sys2Proof.Machine
end

