-- ==== Sys2Proof/Machine/Integer.lean ====
section
/-! DEFINITION. Majors 0x00 to 0x0D and 0x0F: SYS, integer and bit-field arithmetic, the 64-bit forms (03 R73 to R86). -/

namespace Sys2Proof.Machine

open Sys2Proof

/-! ## Shared shapes -/

/-- d := f(a, b), one register each. -/
def alu (rule : TagRule) (d a b : Reg) (f : Word → Word → Word) : State → Out :=
  issue (Form.plain [(a, 1), (b, 1)] (some (d, 1)) rule) (perLane fun i l => .write l [f (i.view.reg a l) (i.view.reg b l)])

/-- d := f(a). -/
def alu1 (rule : TagRule) (d a : Reg) (f : Word → Word) : State → Out :=
  issue (Form.plain [(a, 1)] (some (d, 1)) rule) (perLane fun i l => .write l [f (i.view.reg a l)])

/-- Pair d := f(a, b) with operand sizes `na` and `nb`; pairs and registers arrive as numbers. -/
def alu64 (d a b : Reg) (nd na nb : Nat) (f : Nat → Nat → Nat) : State → Out :=
  issue (Form.plain [(a, na), (b, nb)] (some (d, nd)) .table) (perLane fun i l =>
    .write l (wordsOf nd (f (natOfWords (i.view.words a na l)) (natOfWords (i.view.words b nb l)))))

/-- 1 for true, 0 for false. -/
def truth (b : Bool) : Word := if b then 1 else 0

/-- A shift amount: bits [4:0]. -/
def amount (y : Word) : Nat := y.toNat % 32

/-- A signed value clamped to 32 bits (ADDS, SUBS). -/
def clamp32 (v : Int) : Word :=
  BitVec.ofInt 32 (if v > 2147483647 then 2147483647 else if v < -2147483648 then -2147483648 else v)

/-- Signed quotient, truncated toward zero; the edge cases of R81. -/
def divS (x y : Word) : Word := if y = 0 then BitVec.allOnes 32 else BitVec.ofInt 32 (x.toInt.tdiv y.toInt)

/-- Signed remainder: x minus y times the quotient; x for a divisor of 0. -/
def remS (x y : Word) : Word := if y = 0 then x else BitVec.ofInt 32 (x.toInt.tmod y.toInt)

def divU (x y : Word) : Word := if y = 0 then BitVec.allOnes 32 else BitVec.ofNat 32 (x.toNat / y.toNat)
def remU (x y : Word) : Word := if y = 0 then x else BitVec.ofNat 32 (x.toNat % y.toNat)

/-- Leading zero bits of the low `n` bits (32 for 0). -/
def clzFrom (x : Word) : Nat → Nat
  | 0 => 32
  | n + 1 => if x.getLsbD n then 31 - n else clzFrom x n

/-- Trailing zero bits, looking at bits n - k upward. -/
def ctzFrom (x : Word) : Nat → Nat → Nat
  | 0, _ => 32
  | n + 1, i => if x.getLsbD i then i else ctzFrom x n (i + 1)

/-- The number of set bits among the low `n`. -/
def popcFrom (x : Word) : Nat → Nat
  | 0 => 0
  | n + 1 => (if x.getLsbD n then 1 else 0) + popcFrom x n

/-- The bytes reversed. -/
def byteSwap (x : Word) : Word := BitVec.ofNat 32 (natOf (bytesOf 4 x.toNat).reverse)

/-- Bits [hi:pos] of x with zeros above bit 31, hi = pos + len - 1 (R84). -/
def bitField (x : Word) (pos len : Nat) : Nat := x.toNat / 2 ^ pos % 2 ^ len

/-- BFXS: the field extended from bit hi, which reads 0 above bit 31 (R84). -/
def bitFieldS (x : Word) (pos len : Nat) : Word :=
  if pos + len > 32 then BitVec.ofNat 32 (bitField x pos len) else BitVec.ofInt 32 (sextInt len (bitField x pos len))

/-- BFI: bits pos to min(31, hi) of d replaced by the low bits of a (R84). -/
def bitInsert (d a : Word) (pos len : Nat) : Word :=
  let m : Word := BitVec.ofNat 32 ((2 ^ len - 1) * 2 ^ pos)
  (d &&& ~~~m) ||| ((a <<< pos) &&& m)

/-! ## SYS (R73 to R80) -/

/-- ILL: nothing but ILLEGAL_INSTRUCTION (R24). -/
def execIll (s : State) : Out := issueIllegal s

/-- NOP (R73). -/
def execNop (s : State) : Out := issue (Form.plain [] none .table) (perLane fun _ l => .only l .next) s

/-- MOV (R73). -/
def execMov (d a : Reg) (s : State) : Out := alu1 (.mov a) d a (fun x => x) s

/-- SEL: d is the condition before it is written (R73). -/
def execSel (d a b : Reg) (s : State) : Out :=
  issue (Form.plain [(d, 1), (a, 1), (b, 1)] (some (d, 1)) .table) (perLane fun i l =>
    .write l [if i.view.reg d l ≠ 0 then i.view.reg a l else i.view.reg b l]) s

/-- The threads of some lanes changed. -/
def State.onLanes (s : State) (op : Op) (ls : List Nat) (f : Nat → Thread → Thread) : State :=
  s.modGroup op.team op.grp fun g => g.modLanes ls f

/-- MSET (R92): an unaligned value other than NONE raises MISALIGNED. -/
def execMset (d a : Reg) (s : State) : Out :=
  issue (Form.plain [(a, 2)] (some (d, 2)) .g) (fun i s =>
    let bad (l : Nat) : Bool := i.view.pair a l != meetNone.toNat && i.view.pair a l % 4 != 0
    let good := i.lanes.filter fun l => !bad l
    (s.onLanes i.op good fun l th => { th with meet := BitVec.ofNat 64 (i.view.pair a l) },
     i.lanes.map fun l => if bad l then .fault l cMisaligned (i.view.pair a l)
       else .write l (wordsOf 2 (i.thread l).meet.toNat))) s

/-- MGET (R92). -/
def execMget (d : Reg) (s : State) : Out :=
  issue (Form.plain [] (some (d, 2)) .g) (perLane fun i l => .write l (wordsOf 2 (i.thread l).meet.toNat)) s

/-- EXIT (R74); inside a transaction it aborts with CAPACITY (R192). -/
def execExit (s : State) : Out :=
  issue { Form.plain [] none .table with txn := false } (perLane fun _ l => .only l .exit) s

/-- WBASE (R75): main cores only; a changed base drops every capability tag of the lane. While a granted SHRINK.REG has not committed, the base is
held against the old P (DESIGN CHOICE log 68). -/
def execWbase (a : Reg) (s : State) : Out :=
  issue { Form.plain [(a, 1)] none .table with foehn := false, txn := false } (fun i s =>
    let v (l : Nat) : Nat := (i.view.reg a l).toNat
    let ok (l : Nat) : Bool := v l % 8 == 0 && decide (v l + 96 ≤ i.team.nregs)
    (s.onLanes i.op (i.lanes.filter ok) fun l th =>
       { th with base := v l, capTags := if th.base = v l then th.capTags else 0 },
     i.lanes.map fun l => if ok l then .only l .next else .fault l cWindow (v l))) s

/-- Whether every non-exited thread of the issuing group has one window base (R76). -/
def sameBase (s : State) : Bool :=
  match s.cur with
  | none => true
  | some op => match (s.teams[op.team]?).bind (·.groups[op.grp]?) with
    | none => true
    | some g => g.threads.all fun th => th.exited || th.base == op.base

/-- WINQ (R76). -/
def execWinq (d : Reg) (s : State) : Out :=
  issue (Form.plain [] (some (d, 1)) (if sameBase s then .u else .g)) (perLane fun i l =>
    .write l [BitVec.ofNat 32 (i.team.nregs * 65536 + i.op.base)]) s

/-- The TAGQ word of a register in a lane (R76): v registers by shape and bit; common registers, z and the specials as R26 tags
them, full. -/
def tagWord (w : View) (r lane : Nat) : Word :=
  let code : Shape → Nat
    | .u _ => 0
    | .a _ _ => 1
    | .g _ => 2
  if r < 96 then (if w.readiness r lane == .ok then BitVec.ofNat 32 (256 + code (w.vreg r).shape) else 2)
  else if r < 112 then 256
  else BitVec.ofNat 32 (256 + code (w.special r))

/-- TAGQ (R76): reads a register's state and does not wait for it. -/
def execTagq (d a : Reg) (s : State) : Out :=
  issue (Form.plain [] (some (d, 1)) .g) (perLane fun i l => .write l [tagWord i.view a.toNat l]) s

/-- RDY (R37): never waits; a marked register is not ready (R166). -/
def execRdy (d a : Reg) (s : State) : Out :=
  issue (Form.plain [] (some (d, 1)) .g) (perLane fun i l => .write l [truth (i.view.readiness a.toNat l == .ok)]) s

/-- The counter CLOCK reads: device cycles, or Foehn cycles of the base die (R77). -/
def clockOf (s : State) (t : Team) : Nat :=
  match t.place with
  | .foehn _ _ => s.foehnClock
  | _ => s.clock

/-- CLOCK (R77). -/
def execClock (d : Reg) (s : State) : Out :=
  issue (Form.plain [] (some (d, 2)) .u) (fun i s => (s, i.lanes.map fun l => .write l (wordsOf 2 (clockOf s i.team)))) s

/-- RNGR (R78). -/
def execRngr (d : Reg) (s : State) : Out :=
  issue (Form.plain [] (some (d, 1)) .g) (perLane fun i l => .write l [(i.thread l).rng]) s

/-- RNGW: 0 is stored as 1 (R78). -/
def execRngw (a : Reg) (s : State) : Out :=
  issue (Form.plain [(a, 1)] none .table) (perLane fun i l =>
    { LaneOut.only l .next with rng := some (srSeed (i.view.reg a l)) }) s

/-- FXCLR (R79). -/
def execFxclr (d a : Reg) (s : State) : Out :=
  issue (Form.plain [(a, 1)] (some (d, 1)) .g) (fun i s =>
    (s.onLanes i.op i.lanes fun l th => { th with fx := th.fx &&& ~~~(i.view.reg a l &&& 0x3f) },
     i.lanes.map fun l => .write l [(i.thread l).fx])) s

/-- Whether GCR accepts a value (R38). -/
def gcrOk (v : Word) : Bool := decide (v.toNat < 16) && v.toNat % 8 != 7

/-- GCW (R80): the value of the highest active lane, for the whole group. -/
def execGcw (d a : Reg) (s : State) : Out :=
  issue (Form.plain [(a, 1)] (some (d, 1)) .u) (fun i s =>
    let v := match i.lanes.getLast? with
      | some l => i.view.reg a l
      | none => 0
    if gcrOk v then
      (s.modGroup i.op.team i.op.grp fun g => { g with gcr := v }, i.lanes.map fun l => .write l [i.view.group.gcr])
    else (s, i.lanes.map fun l => .fault l cIllegal i.op.word.toNat)) s

/-! ## IOP (R81) -/

/-- ADD (R81). -/
def execAdd (d a b : Reg) (s : State) : Out := alu (.add a b) d a b (fun x y => x + y) s

/-- SUB (R81). -/
def execSub (d a b : Reg) (s : State) : Out := alu (.sub a b) d a b (fun x y => x - y) s

/-- MUL (R81). -/
def execMul (d a b : Reg) (s : State) : Out := alu (.mul a b) d a b (fun x y => x * y) s

/-- MULH.i32 (R81). -/
def execMulhI32 (d a b : Reg) (s : State) : Out := alu .table d a b (fun x y => BitVec.ofInt 32 ((x.toInt * y.toInt) / 2 ^ 32)) s

/-- MULH.n32 (R81). -/
def execMulhN32 (d a b : Reg) (s : State) : Out := alu .table d a b (fun x y => BitVec.ofNat 32 (x.toNat * y.toNat / 2 ^ 32)) s

/-- AND (R81). -/
def execAnd (d a b : Reg) (s : State) : Out := alu .table d a b (fun x y => x &&& y) s

/-- OR (R81). -/
def execOr (d a b : Reg) (s : State) : Out := alu .table d a b (fun x y => x ||| y) s

/-- XOR (R81). -/
def execXor (d a b : Reg) (s : State) : Out := alu .table d a b (fun x y => x ^^^ y) s

/-- ANDN (R81). -/
def execAndn (d a b : Reg) (s : State) : Out := alu .table d a b (fun x y => x &&& ~~~y) s

/-- ORN (R81). -/
def execOrn (d a b : Reg) (s : State) : Out := alu .table d a b (fun x y => x ||| ~~~y) s

/-- SLL: the amount is bits [4:0] (R81). -/
def execSll (d a b : Reg) (s : State) : Out := alu (.sll a b) d a b (fun x y => x <<< amount y) s

/-- SRL (R81). -/
def execSrl (d a b : Reg) (s : State) : Out := alu .table d a b (fun x y => x >>> amount y) s

/-- SRA (R81). -/
def execSra (d a b : Reg) (s : State) : Out := alu .table d a b (fun x y => x.sshiftRight (amount y)) s

/-- ROL (R81). -/
def execRol (d a b : Reg) (s : State) : Out := alu .table d a b (fun x y => x.rotateLeft (amount y)) s

/-- MIN.i32 (R81). -/
def execMinI32 (d a b : Reg) (s : State) : Out := alu .table d a b (fun x y => if x.toInt ≤ y.toInt then x else y) s

/-- MAX.i32 (R81). -/
def execMaxI32 (d a b : Reg) (s : State) : Out := alu .table d a b (fun x y => if x.toInt ≥ y.toInt then x else y) s

/-- MIN.n32 (R81). -/
def execMinN32 (d a b : Reg) (s : State) : Out := alu .table d a b (fun x y => if x.toNat ≤ y.toNat then x else y) s

/-- MAX.n32 (R81). -/
def execMaxN32 (d a b : Reg) (s : State) : Out := alu .table d a b (fun x y => if x.toNat ≥ y.toNat then x else y) s

/-- ADDS.i32 (R81). -/
def execAddsI32 (d a b : Reg) (s : State) : Out := alu .table d a b (fun x y => clamp32 (x.toInt + y.toInt)) s

/-- SUBS.i32 (R81). -/
def execSubsI32 (d a b : Reg) (s : State) : Out := alu .table d a b (fun x y => clamp32 (x.toInt - y.toInt)) s

/-- DIV.i32 (R81). -/
def execDivI32 (d a b : Reg) (s : State) : Out := alu .table d a b (fun x y => divS x y) s

/-- DIV.n32 (R81). -/
def execDivN32 (d a b : Reg) (s : State) : Out := alu .table d a b (fun x y => divU x y) s

/-- REM.i32 (R81). -/
def execRemI32 (d a b : Reg) (s : State) : Out := alu .table d a b (fun x y => remS x y) s

/-- REM.n32 (R81). -/
def execRemN32 (d a b : Reg) (s : State) : Out := alu .table d a b (fun x y => remU x y) s

/-- CEQ (R81). -/
def execCeq (d a b : Reg) (s : State) : Out := alu .table d a b (fun x y => truth (x == y)) s

/-- CNE (R81). -/
def execCne (d a b : Reg) (s : State) : Out := alu .table d a b (fun x y => truth (x != y)) s

/-- CLT.i32 (R81). -/
def execCltI32 (d a b : Reg) (s : State) : Out := alu .table d a b (fun x y => truth (decide (x.toInt < y.toInt))) s

/-- CLE.i32 (R81). -/
def execCleI32 (d a b : Reg) (s : State) : Out := alu .table d a b (fun x y => truth (decide (x.toInt ≤ y.toInt))) s

/-- CLT.n32 (R81). -/
def execCltN32 (d a b : Reg) (s : State) : Out := alu .table d a b (fun x y => truth (decide (x.toNat < y.toNat))) s

/-- CLE.n32 (R81). -/
def execCleN32 (d a b : Reg) (s : State) : Out := alu .table d a b (fun x y => truth (decide (x.toNat ≤ y.toNat))) s

/-! ## Immediates (R82 to R84) -/

/-- ADDI: imm12 sign-extended (R82). -/
def execAddi (d a : Reg) (imm : BitVec 12) (s : State) : Out :=
  alu1 (.addi a (imm.signExtend 32)) d a (fun x => x + imm.signExtend 32) s

/-- ANDI: imm12 zero-extended (R82). -/
def execAndi (d a : Reg) (imm : BitVec 12) (s : State) : Out := alu1 .table d a (fun x => x &&& imm.zeroExtend 32) s

/-- ORI (R82). -/
def execOri (d a : Reg) (imm : BitVec 12) (s : State) : Out := alu1 .table d a (fun x => x ||| imm.zeroExtend 32) s

/-- XORI (R82). -/
def execXori (d a : Reg) (imm : BitVec 12) (s : State) : Out := alu1 .table d a (fun x => x ^^^ imm.zeroExtend 32) s

/-- SLLI (R82). -/
def execSlli (d a : Reg) (n : BitVec 5) (s : State) : Out := alu1 (.slli a n.toNat) d a (fun x => x <<< n.toNat) s

/-- SRLI (R82). -/
def execSrli (d a : Reg) (n : BitVec 5) (s : State) : Out := alu1 .table d a (fun x => x >>> n.toNat) s

/-- SRAI (R82). -/
def execSrai (d a : Reg) (n : BitVec 5) (s : State) : Out := alu1 .table d a (fun x => x.sshiftRight n.toNat) s

/-- ROLI (R82). -/
def execRoli (d a : Reg) (n : BitVec 5) (s : State) : Out := alu1 .table d a (fun x => x.rotateLeft n.toNat) s

/-- CEQI: imm9 zero-extended (R64) (R82). -/
def execCeqi (d a : Reg) (imm : BitVec 9) (s : State) : Out := alu1 .table d a (fun x => truth (x == imm.zeroExtend 32)) s

/-- CNEI (R82). -/
def execCnei (d a : Reg) (imm : BitVec 9) (s : State) : Out := alu1 .table d a (fun x => truth (x != imm.zeroExtend 32)) s

/-- CLTI.i32: imm9 sign-extended (R82). -/
def execCltiI32 (d a : Reg) (imm : BitVec 9) (s : State) : Out := alu1 .table d a (fun x => truth (decide (x.toInt < imm.toInt))) s

/-- CLEI.i32 (R82). -/
def execCleiI32 (d a : Reg) (imm : BitVec 9) (s : State) : Out := alu1 .table d a (fun x => truth (decide (x.toInt ≤ imm.toInt))) s

/-- CGTI.i32 (R82). -/
def execCgtiI32 (d a : Reg) (imm : BitVec 9) (s : State) : Out := alu1 .table d a (fun x => truth (decide (x.toInt > imm.toInt))) s

/-- CLTI.n32: imm9 zero-extended (R82). -/
def execCltiN32 (d a : Reg) (imm : BitVec 9) (s : State) : Out := alu1 .table d a (fun x => truth (decide (x.toNat < imm.toNat))) s

/-- CLEI.n32 (R82). -/
def execCleiN32 (d a : Reg) (imm : BitVec 9) (s : State) : Out := alu1 .table d a (fun x => truth (decide (x.toNat ≤ imm.toNat))) s

/-- CGTI.n32 (R82). -/
def execCgtiN32 (d a : Reg) (imm : BitVec 9) (s : State) : Out := alu1 .table d a (fun x => truth (decide (x.toNat > imm.toNat))) s

/-- LUI (R83). -/
def execLui (d : Reg) (imm : BitVec 19) (s : State) : Out :=
  issue (Form.plain [] (some (d, 1)) .u) (perLane fun _ l => .write l [imm.zeroExtend 32 <<< 13]) s

/-- AUIPC: the pair PC plus the sign-extended low 32 bits of i << 13 (R83). -/
def execAuipc (d : Reg) (imm : BitVec 19) (s : State) : Out :=
  issue (Form.plain [] (some (d, 2)) .u) (perLane fun i l =>
    .write l (wordsOf 2 (i.op.pc + (imm.zeroExtend 32 <<< 13 : Word).signExtend 64).toNat)) s

/-- BFX (R84). -/
def execBfx (d a : Reg) (pos len : BitVec 5) (s : State) : Out :=
  alu1 .table d a (fun x => BitVec.ofNat 32 (bitField x pos.toNat (len.toNat + 1))) s

/-- BFXS (R84). -/
def execBfxs (d a : Reg) (pos len : BitVec 5) (s : State) : Out :=
  alu1 .table d a (fun x => bitFieldS x pos.toNat (len.toNat + 1)) s

/-- BFI: reads d (R84). -/
def execBfi (d a : Reg) (pos len : BitVec 5) (s : State) : Out := alu .table d d a (fun x y => bitInsert x y pos.toNat (len.toNat + 1)) s

/-! ## IOP64 (R85) -/

/-- ADD64 (R85). -/
def execAdd64 (d a b : Reg) (s : State) : Out := alu64 d a b 2 2 2 (fun x y => x + y) s

/-- SUB64 (R85). -/
def execSub64 (d a b : Reg) (s : State) : Out := alu64 d a b 2 2 2 (fun x y => x + (2 ^ 64 - y)) s

/-- MUL64 (R85). -/
def execMul64 (d a b : Reg) (s : State) : Out := alu64 d a b 2 2 2 (fun x y => x * y) s

/-- MULW.i32 (R85). -/
def execMulwI32 (d a b : Reg) (s : State) : Out := alu64 d a b 2 1 1 (fun x y => intBits 64 (sextInt 32 x * sextInt 32 y)) s

/-- MULW.n32 (R85). -/
def execMulwN32 (d a b : Reg) (s : State) : Out := alu64 d a b 2 1 1 (fun x y => x * y) s

/-- MADW.n32: reads the pair d (R85). -/
def execMadwN32 (d a b : Reg) (s : State) : Out :=
  issue (Form.plain [(a, 1), (b, 1), (d, 2)] (some (d, 2)) .table) (perLane fun i l =>
    .write l (wordsOf 2 (i.view.pair d l + (i.view.reg a l).toNat * (i.view.reg b l).toNat))) s

/-- ADDW.i32 (R85). -/
def execAddwI32 (d a b : Reg) (s : State) : Out := alu64 d a b 2 2 1 (fun x y => intBits 64 (x + sextInt 32 y)) s

/-- ADDW.n32 (R85). -/
def execAddwN32 (d a b : Reg) (s : State) : Out := alu64 d a b 2 2 1 (fun x y => x + y) s

/-- SLL64: the amount is bits [5:0] (R85). -/
def execSll64 (d a b : Reg) (s : State) : Out := alu64 d a b 2 2 1 (fun x y => x * 2 ^ (y % 64)) s

/-- SRL64 (R85). -/
def execSrl64 (d a b : Reg) (s : State) : Out := alu64 d a b 2 2 1 (fun x y => x / 2 ^ (y % 64)) s

/-- SRA64 (R85). -/
def execSra64 (d a b : Reg) (s : State) : Out := alu64 d a b 2 2 1 (fun x y => intBits 64 (sextInt 64 x / (2 ^ (y % 64) : Nat))) s

/-- CEQ64 (R85). -/
def execCeq64 (d a b : Reg) (s : State) : Out := alu64 d a b 1 2 2 (fun x y => if x = y then 1 else 0) s

/-- CLT64.i64 (R85). -/
def execClt64I64 (d a b : Reg) (s : State) : Out := alu64 d a b 1 2 2 (fun x y => if sextInt 64 x < sextInt 64 y then 1 else 0) s

/-- CLT64.n64 (R85). -/
def execClt64N64 (d a b : Reg) (s : State) : Out := alu64 d a b 1 2 2 (fun x y => if x < y then 1 else 0) s

/-- MIN64.n64 (R85). -/
def execMin64N64 (d a b : Reg) (s : State) : Out := alu64 d a b 2 2 2 (fun x y => Nat.min x y) s

/-- MAX64.n64 (R85). -/
def execMax64N64 (d a b : Reg) (s : State) : Out := alu64 d a b 2 2 2 (fun x y => Nat.max x y) s

/-! ## IUN (R86) -/

/-- CLZ (R86). -/
def execClz (d a : Reg) (s : State) : Out := alu1 .table d a (fun x => BitVec.ofNat 32 (clzFrom x 32)) s

/-- CTZ (R86). -/
def execCtz (d a : Reg) (s : State) : Out := alu1 .table d a (fun x => BitVec.ofNat 32 (ctzFrom x 32 0)) s

/-- POPC (R86). -/
def execPopc (d a : Reg) (s : State) : Out := alu1 .table d a (fun x => BitVec.ofNat 32 (popcFrom x 32)) s

/-- BREV (R86). -/
def execBrev (d a : Reg) (s : State) : Out := alu1 .table d a (fun x => x.reverse) s

/-- BSWAP (R86). -/
def execBswap (d a : Reg) (s : State) : Out := alu1 .table d a (fun x => byteSwap x) s

/-- SEXT8 (R86). -/
def execSext8 (d a : Reg) (s : State) : Out := alu1 .table d a (fun x => (x.truncate 8 : Byte).signExtend 32) s

/-- SEXT16 (R86). -/
def execSext16 (d a : Reg) (s : State) : Out := alu1 .table d a (fun x => (x.truncate 16 : BitVec 16).signExtend 32) s

/-- ABS (R86). -/
def execAbs (d a : Reg) (s : State) : Out := alu1 .table d a (fun x => if x.msb then -x else x) s

/-- NEG (R86). -/
def execNeg (d a : Reg) (s : State) : Out := alu1 .table d a (fun x => -x) s

/-- NOT (R86). -/
def execNot (d a : Reg) (s : State) : Out := alu1 .table d a (fun x => ~~~x) s

end Sys2Proof.Machine
end

