-- ==== Sys2Proof/Machine/Transcend.lean ====
section
/-! DEFINITION. FTR: base-2 exponential and logarithm, sine and cosine of pi x (04 R119, R120). The exact value is bracketed in
fixed point; the results R119 allows are listed, and `Config.transChoice` picks one (DESIGN CHOICE log 8). -/

namespace Sys2Proof.Machine

open Sys2Proof

/-- 2^256, the fixed-point unit. -/
def fixOne : Nat := 2 ^ 256

/-- ln 2 and pi in that unit, rounded down. -/
def fixLn2 : Nat := 80260960185991308862233904206310070533990667611589946606122867505419956976171
def fixPi : Nat := 363771576891766324280234942777729862653393377328392429958772151117938894466185

/-- The product of two fixed-point numbers. -/
def fixMul (a b : Nat) : Nat := a * b / fixOne

/-- Partial sums of the exponential series: `term` is t^i / i!. -/
def expSeries (t : Nat) : Nat → Nat → Nat → Nat → Nat
  | 0, _, _, acc => acc
  | n + 1, i, term, acc => expSeries t n (i + 1) (fixMul term t / i) (acc + term)

/-- 2^f for a fixed-point f below 1. -/
def fixExp2 (f : Nat) : Nat := let t := fixMul f fixLn2; expSeries t 70 1 fixOne 0

/-- Partial sums of the inverse hyperbolic tangent: `zp` is z^i for odd i. -/
def atanhSeries (z2 : Nat) : Nat → Nat → Nat → Nat → Nat
  | 0, _, _, acc => acc
  | n + 1, i, zp, acc => atanhSeries z2 n (i + 2) (fixMul zp z2) (acc + zp / i)

/-- log2 of a fixed-point number from 1 to 2. -/
def fixLog2 (x : Nat) : Nat :=
  let z := (x - fixOne) * fixOne / (x + fixOne)
  2 * atanhSeries (fixMul z z) 90 1 z 0 * fixOne / fixLn2

/-- Alternating partial sums: `term` is t^i / i! with i rising by two. -/
def trigSeries (t2 : Nat) : Nat → Nat → Nat → Int → Int → Int
  | 0, _, _, _, acc => acc
  | n + 1, i, term, sgn, acc => trigSeries t2 n (i + 2) (fixMul term t2 / ((i + 1) * (i + 2))) (-sgn) (acc + sgn * term)

/-- Sine and cosine of pi r for a fixed-point r up to 1/2. -/
def fixSinPi (r : Nat) : Nat := let t := fixMul r fixPi; (trigSeries (fixMul t t) 45 1 t 1 0).toNat
def fixCosPi (r : Nat) : Nat := let t := fixMul r fixPi; (trigSeries (fixMul t t) 45 0 fixOne 1 0).toNat

/-- Just above, and just below, one. -/
def magAboveOne : Mag := { m := 2 ^ 200, e := -200, st := true }
def magBelowOne : Mag := { m := 2 ^ 200 - 1, e := -200, st := true }

/-- The operations of FTR (R66 order). -/
inductive Trans where
  | exp2 | log2 | sinpi | cospi
  deriving DecidableEq, Repr

def Trans.code : Trans → BitVec 2
  | .exp2 => 0
  | .log2 => 1
  | .sinpi => 2
  | .cospi => 3

/-- 2^x for a finite x = (-1)^neg * m * 2^e that is no integer, or is too large for a result in any format. -/
def exp2Mag (neg : Bool) (m : Nat) (e : Int) : Mag :=
  let lead := e + (Nat.log2 m : Int)
  if lead ≥ 13 then (if neg then { m := 1, e := -9000, st := true } else { m := 1, e := 9000, st := true })
  else if lead < -100 then (if neg then magBelowOne else magAboveOne)
  else
    let v : Int := scaledInt neg (m * 2 ^ (256 + e).toNat / 2 ^ (-(256 + e)).toNat) 0 0
    let n := v.fdiv fixOne
    { m := fixExp2 (v.fmod fixOne).toNat, e := n - 256, st := true }

/-- log2 of m * 2^e, no power of two: its sign and magnitude. -/
def log2Mag (m : Nat) (e : Int) : Bool × Mag :=
  let l := Nat.log2 m
  let v : Int := (e + l) * fixOne + fixLog2 (m * 2 ^ (256 - l))
  (decide (v < 0), { m := v.natAbs, e := -256, st := true })

/-- A finite |x| modulo 2 in fixed point, for |x| at least 2^-100 and below 2^53. -/
def mod2Fix (m : Nat) (e : Int) : Nat := (m * 2 ^ (256 + e).toNat / 2 ^ (-(256 + e)).toNat) % (2 * fixOne)

/-- sin(pi r) and cos(pi r) for r in [0, 2): sign and fixed-point magnitude. -/
def sinFix (r : Nat) : Bool × Nat :=
  let neg := decide (r ≥ fixOne)
  let q := if neg then r - fixOne else r
  let h := if q ≤ fixOne / 2 then q else fixOne - q
  (neg, if h ≤ fixOne / 4 then fixSinPi h else fixCosPi (fixOne / 2 - h))

def cosFix (r : Nat) : Bool × Nat := sinFix ((r + fixOne / 2) % (2 * fixOne))

/-- sin(pi x) for x > 0 that is no multiple of 1/2: sign and magnitude. -/
def sinMag (m : Nat) (e : Int) : Bool × Mag :=
  if e + (Nat.log2 m : Int) < -100 then (false, { m := m * fixPi - 1, e := e - 256, st := true })
  else let (n, v) := sinFix (mod2Fix m e); (n, { m := v, e := -256, st := true })

def cosMag (m : Nat) (e : Int) : Bool × Mag :=
  if e + (Nat.log2 m : Int) < -100 then (false, magBelowOne)
  else let (n, v) := cosFix (mod2Fix m e); (n, { m := v, e := -256, st := true })

/-- The results R119 allows for an exact value of magnitude y: multiples j of half an ulp within k2 half-ulps (R331), on the
side the mode names, that the format holds. The step is 2^h. -/
def transCandidates (f : Fmt) (k2 : Nat) (rm : Rm) (neg : Bool) (y : Mag) : List Nat × Int :=
  let k0 := y.lead - f.m
  let k := if k0 < f.qmin then f.qmin else k0
  let h := k - 1
  let lo := (gridPos y h).lo
  let js := (List.range (2 * k2 + 1)).map (fun i => lo + i + 1 - k2)
  let js := js.filter fun j => decide (j + k2 ≥ lo + 1) && decide (j ≤ lo + k2)
  let side (j : Nat) : Bool := match rm with
    | .ru => if neg then decide (j ≤ lo) else decide (j > lo)
    | .rd => if neg then decide (j > lo) else decide (j ≤ lo)
    | .rz => decide (j ≤ lo)
    | _ => true
  let fits (j : Nat) : Bool :=
    (decide (j < 2 ^ f.p) && decide (h ≥ f.qmin)) || (j % 2 == 0 && decide (j / 2 ≤ 2 ^ f.p)) || j % 4 == 0
  ((js.filter fun j => side j && fits j).eraseDups, h)

/-- The inexact result of an FTR operation (R119): never exact, so NX is set. -/
def transInexact (op : Trans) (f : Fmt) (rm : BitVec 3) (x : Nat) (neg : Bool) (y : Mag) : FRes :=
  let r := rmOf rm
  let ovfl : FRes := { bits := f.overflowBits r neg, flags := fxOF ||| fxNX }
  if f.exceeds 1 (y.lead) then ovfl
  else
    let (js, h) := transCandidates f (if f.m == 52 then 3 else 2) r neg y
    let i := Config.transChoice op.code (f.m == 52) (BitVec.ofNat 64 x) rm
    let j := (js[i % js.length]?).getD 0
    if f.exceeds j h then ovfl
    else
      let l := Nat.log2 j
      let k := if h + l - f.m < f.qmin then f.qmin else h + l - f.m
      let n := if k ≤ h then j * 2 ^ (h - k).toNat else j / 2 ^ (k - h).toNat
      { bits := f.encodeGrid neg n k,
        flags := fxNX ||| flagIf (n != 0 && decide (k = f.qmin) && decide (n < 2 ^ f.m)) fxUF }

/-- A small integer as an encoding of the format. -/
def intF (f : Fmt) (v : Int) : Nat := (intToF f .rn 0 v).bits

/-- The exact value of a finite magnitude in units of 1/2, when it is a multiple of 1/2 (modulo 4 units when it is large). -/
def halfUnits (m : Nat) (e : Int) : Option Nat :=
  if e ≥ 1 then some 0
  else if e ≥ -1 then some (m * 2 ^ (e + 1).toNat)
  else if m % 2 ^ (-1 - e).toNat = 0 then some (m / 2 ^ (-1 - e).toNat) else none

/-- FEXP2 of a finite non-zero operand: exact for an integer whose power the format holds (R120); what lies below the smallest subnormal
is rounded for integers below 2^13 and chosen within the bound of R119 for the others, and a result 0 sets NX alone (DESIGN CHOICE log 67). -/
def exp2Fin (f : Fmt) (rm : BitVec 3) (x : Nat) (neg : Bool) (m : Nat) (e : Int) : FRes :=
  let isInt := decide (e ≥ 0) || m % 2 ^ (-e).toNat == 0
  let big := decide (e + (Nat.log2 m : Int) ≥ 13)
  if isInt && !big then
    let a : Nat := if e ≥ 0 then m * 2 ^ e.toNat else m / 2 ^ (-e).toNat
    let n : Int := if neg then -(a : Int) else a
    roundNum f (rmOf rm) 0 false (.fin false 1 n)
  else transInexact .exp2 f rm x false (exp2Mag neg m e)

/-- FTR (R119, R120). -/
def fTrans (op : Trans) (f : Fmt) (rm : BitVec 3) (x : Nat) : FRes :=
  let nan : FRes := { bits := f.nanBits, flags := fxNV }
  let exact (b : Nat) : FRes := { bits := b, flags := 0 }
  match decodeNum f x with
  | .nan sig => { bits := f.nanBits, flags := flagIf sig fxNV }
  | .inf neg =>
    match op with
    | .exp2 => exact (if neg then 0 else f.infBits)
    | .log2 => if neg then nan else exact f.infBits
    | .sinpi => nan
    | .cospi => nan
  | .fin neg m e =>
    match op with
    | .exp2 => if m = 0 then exact (intF f 1) else exp2Fin f rm x neg m e
    | .log2 =>
      if m = 0 then { bits := f.signBit true + f.infBits, flags := fxDZ }
      else if neg then nan
      else if m = 2 ^ Nat.log2 m then exact (intF f (e + Nat.log2 m))
      else let (n, y) := log2Mag m e; transInexact .log2 f rm x n y
    | .sinpi =>
      if m = 0 then exact x
      else match halfUnits m e with
        | some u => exact (if u % 2 = 0 then f.signBit neg else f.signBit (neg != (u % 4 == 3)) + intF f 1)
        | none => let (n, y) := sinMag m e; transInexact .sinpi f rm x (n != neg) y
    | .cospi =>
      if m = 0 then exact (intF f 1)
      else match halfUnits m e with
        | some u => exact (if u % 2 = 1 then 0 else f.signBit (u % 4 == 2) + intF f 1)
        | none => let (n, y) := cosMag m e; transInexact .cospi f rm x n y

end Sys2Proof.Machine
end

