-- ==== Sys2Proof/Machine/Float.lean ====
section
/-! DEFINITION. Majors 0x16 to 0x28: the floating-point instructions (04 R102 to R130). -/

namespace Sys2Proof.Machine

open Sys2Proof

/-! ## What every floating-point instruction shares (R102, R104, R107, R108) -/

/-- An operand of `n` registers as a number. -/
def Iss.num (i : Iss) (a : Reg) (n l : Nat) : Nat := natOfWords (i.view.words a n l)

/-- A floating-point form: not for COPY groups (R246); under SR the result is G (R34, R107). -/
def floatForm (srcs : List (Reg × Nat)) (dst : Reg × Nat) (sr : Bool) : Form :=
  { Form.plain srcs (some dst) (if sr then .g else .table) with roles := rolesFloat }

/-- A result written with its flags, and the generator's advance under SR. -/
def LaneOut.float (lane n : Nat) (r : FRes) (g : Option Word) : LaneOut :=
  { LaneOut.write lane (wordsOf n r.bits) with fx := r.flags, rng := g }

/-- One operation in each lane: `f` gets the mode, the generator state with which the lane rounds, and the lane. -/
def floatOp (form : Form) (n : Nat) (rm : Rm) (f : Rm → Word → Iss → Nat → FRes) : State → Out :=
  issue form (perLane fun i l =>
    let g := if rm == .sr then srNext (i.thread l).rng else 0
    LaneOut.float l n (f rm g i l) (if rm == .sr then some g else none))

/-- d := f(a, b), each of `n` registers, in mode `rm`. -/
def float2 (n : Nat) (rm : BitVec 3) (d a b : Reg) (f : Rm → Word → Nat → Nat → FRes) : State → Out :=
  floatOp (floatForm [(a, n), (b, n)] (d, n) (rmOf rm == .sr)) n (rmOf rm) fun m g i l => f m g (i.num a n l) (i.num b n l)

/-- d := f(d, a, b). -/
def float3 (n : Nat) (rm : BitVec 3) (d a b : Reg) (f : Rm → Word → Nat → Nat → Nat → FRes) : State → Out :=
  floatOp (floatForm [(d, n), (a, n), (b, n)] (d, n) (rmOf rm == .sr)) n (rmOf rm) fun m g i l =>
    f m g (i.num d n l) (i.num a n l) (i.num b n l)

/-- d (`nd` registers) := f(a) (`na` registers). -/
def float1 (nd na : Nat) (rm : BitVec 3) (d a : Reg) (f : Rm → Word → Nat → FRes) : State → Out :=
  floatOp (floatForm [(a, na)] (d, nd) (rmOf rm == .sr)) nd (rmOf rm) fun m g i l => f m g (i.num a na l)

/-- A form with no rounding mode: d (`nd`) := f(a (`na`), b (`nb`)). -/
def floatSel (nd na nb : Nat) (d a b : Reg) (f : Nat → Nat → FRes) : State → Out :=
  floatOp (floatForm [(a, na), (b, nb)] (d, nd) false) nd .rn fun _ _ i l => f (i.num a na l) (i.num b nb l)

def floatSel1 (nd na : Nat) (d a : Reg) (f : Nat → FRes) : State → Out :=
  floatOp (floatForm [(a, na)] (d, nd) false) nd .rn fun _ _ i l => f (i.num a na l)

/-- The two elements of packed operands by themselves; element 1 rounds with the rotated state (R102, R107). -/
def packed2 (f : Word → Nat → Nat → FRes) (s : Word) (a b : Nat) : FRes :=
  pack2 (f s (elemOf 16 0 a) (elemOf 16 0 b)) (f (srRot s) (elemOf 16 1 a) (elemOf 16 1 b))

def packed3 (f : Word → Nat → Nat → Nat → FRes) (s : Word) (d a b : Nat) : FRes :=
  pack2 (f s (elemOf 16 0 d) (elemOf 16 0 a) (elemOf 16 0 b)) (f (srRot s) (elemOf 16 1 d) (elemOf 16 1 a) (elemOf 16 1 b))

/-- A packed form with no rounding (R116). -/
def packedSel (f : Nat → Nat → FRes) (a b : Nat) : FRes := packed2 (fun _ => f) 0 a b

/-- A class mask as a result with no flag (R114). -/
def classRes (f : Fmt) (x : Nat) : FRes := { bits := fClass f x, flags := 0 }

/-! ## FAR (R109) -/

/-- FADD.D. -/
def execFaddD (rm : BitVec 3) (d a b : Reg) (s : State) : Out :=
  float2 2 rm d a b (fun m g => fAdd f64 m g) s

/-- FSUB.D. -/
def execFsubD (rm : BitVec 3) (d a b : Reg) (s : State) : Out :=
  float2 2 rm d a b (fun m g => fSub f64 m g) s

/-- FMUL.D. -/
def execFmulD (rm : BitVec 3) (d a b : Reg) (s : State) : Out :=
  float2 2 rm d a b (fun m g => fMul f64 m g) s

/-- FDIV.D. -/
def execFdivD (rm : BitVec 3) (d a b : Reg) (s : State) : Out :=
  float2 2 rm d a b (fun m g => fDiv f64 m g) s

/-- FADD.S. -/
def execFaddS (rm : BitVec 3) (d a b : Reg) (s : State) : Out :=
  float2 1 rm d a b (fun m g => fAdd f32 m g) s

/-- FSUB.S. -/
def execFsubS (rm : BitVec 3) (d a b : Reg) (s : State) : Out :=
  float2 1 rm d a b (fun m g => fSub f32 m g) s

/-- FMUL.S. -/
def execFmulS (rm : BitVec 3) (d a b : Reg) (s : State) : Out :=
  float2 1 rm d a b (fun m g => fMul f32 m g) s

/-- FDIV.S. -/
def execFdivS (rm : BitVec 3) (d a b : Reg) (s : State) : Out :=
  float2 1 rm d a b (fun m g => fDiv f32 m g) s

/-- FADD.H. -/
def execFaddH (rm : BitVec 3) (d a b : Reg) (s : State) : Out :=
  float2 1 rm d a b (fun m => packed2 (fAdd f16 m)) s

/-- FSUB.H. -/
def execFsubH (rm : BitVec 3) (d a b : Reg) (s : State) : Out :=
  float2 1 rm d a b (fun m => packed2 (fSub f16 m)) s

/-- FMUL.H. -/
def execFmulH (rm : BitVec 3) (d a b : Reg) (s : State) : Out :=
  float2 1 rm d a b (fun m => packed2 (fMul f16 m)) s

/-- FDIV.H. -/
def execFdivH (rm : BitVec 3) (d a b : Reg) (s : State) : Out :=
  float2 1 rm d a b (fun m => packed2 (fDiv f16 m)) s

/-- FADD.B. -/
def execFaddB (rm : BitVec 3) (d a b : Reg) (s : State) : Out :=
  float2 1 rm d a b (fun m => packed2 (fAdd bf16 m)) s

/-- FSUB.B. -/
def execFsubB (rm : BitVec 3) (d a b : Reg) (s : State) : Out :=
  float2 1 rm d a b (fun m => packed2 (fSub bf16 m)) s

/-- FMUL.B. -/
def execFmulB (rm : BitVec 3) (d a b : Reg) (s : State) : Out :=
  float2 1 rm d a b (fun m => packed2 (fMul bf16 m)) s

/-- FDIV.B. -/
def execFdivB (rm : BitVec 3) (d a b : Reg) (s : State) : Out :=
  float2 1 rm d a b (fun m => packed2 (fDiv bf16 m)) s

/-! ## FMA (R110) -/

/-- FMAC.D. -/
def execFmacD (rm : BitVec 3) (d a b : Reg) (s : State) : Out :=
  float3 2 rm d a b (fun m g => fMac f64 m g) s

/-- FMSC.D. -/
def execFmscD (rm : BitVec 3) (d a b : Reg) (s : State) : Out :=
  float3 2 rm d a b (fun m g => fMsc f64 m g) s

/-- FNMAC.D. -/
def execFnmacD (rm : BitVec 3) (d a b : Reg) (s : State) : Out :=
  float3 2 rm d a b (fun m g => fNmac f64 m g) s

/-- FNMSC.D. -/
def execFnmscD (rm : BitVec 3) (d a b : Reg) (s : State) : Out :=
  float3 2 rm d a b (fun m g => fNmsc f64 m g) s

/-- FMAC.S. -/
def execFmacS (rm : BitVec 3) (d a b : Reg) (s : State) : Out :=
  float3 1 rm d a b (fun m g => fMac f32 m g) s

/-- FMSC.S. -/
def execFmscS (rm : BitVec 3) (d a b : Reg) (s : State) : Out :=
  float3 1 rm d a b (fun m g => fMsc f32 m g) s

/-- FNMAC.S. -/
def execFnmacS (rm : BitVec 3) (d a b : Reg) (s : State) : Out :=
  float3 1 rm d a b (fun m g => fNmac f32 m g) s

/-- FNMSC.S. -/
def execFnmscS (rm : BitVec 3) (d a b : Reg) (s : State) : Out :=
  float3 1 rm d a b (fun m g => fNmsc f32 m g) s

/-- FMAC.H. -/
def execFmacH (rm : BitVec 3) (d a b : Reg) (s : State) : Out :=
  float3 1 rm d a b (fun m => packed3 (fMac f16 m)) s

/-- FMSC.H. -/
def execFmscH (rm : BitVec 3) (d a b : Reg) (s : State) : Out :=
  float3 1 rm d a b (fun m => packed3 (fMsc f16 m)) s

/-- FNMAC.H. -/
def execFnmacH (rm : BitVec 3) (d a b : Reg) (s : State) : Out :=
  float3 1 rm d a b (fun m => packed3 (fNmac f16 m)) s

/-- FNMSC.H. -/
def execFnmscH (rm : BitVec 3) (d a b : Reg) (s : State) : Out :=
  float3 1 rm d a b (fun m => packed3 (fNmsc f16 m)) s

/-- FMAC.B. -/
def execFmacB (rm : BitVec 3) (d a b : Reg) (s : State) : Out :=
  float3 1 rm d a b (fun m => packed3 (fMac bf16 m)) s

/-- FMSC.B. -/
def execFmscB (rm : BitVec 3) (d a b : Reg) (s : State) : Out :=
  float3 1 rm d a b (fun m => packed3 (fMsc bf16 m)) s

/-- FNMAC.B. -/
def execFnmacB (rm : BitVec 3) (d a b : Reg) (s : State) : Out :=
  float3 1 rm d a b (fun m => packed3 (fNmac bf16 m)) s

/-- FNMSC.B. -/
def execFnmscB (rm : BitVec 3) (d a b : Reg) (s : State) : Out :=
  float3 1 rm d a b (fun m => packed3 (fNmsc bf16 m)) s

/-! ## FMS: selection, sign, class, comparison, scaling (R111 to R116) -/

/-- FMIN.D. -/
def execFminD (d a b : Reg) (s : State) : Out :=
  floatSel 2 2 2 d a b (fMinMax false f64) s

/-- FMAX.D. -/
def execFmaxD (d a b : Reg) (s : State) : Out :=
  floatSel 2 2 2 d a b (fMinMax true f64) s

/-- FMINNUM.D. -/
def execFminnumD (d a b : Reg) (s : State) : Out :=
  floatSel 2 2 2 d a b (fMinMaxNum false f64) s

/-- FMAXNUM.D. -/
def execFmaxnumD (d a b : Reg) (s : State) : Out :=
  floatSel 2 2 2 d a b (fMinMaxNum true f64) s

/-- FABS.D. -/
def execFabsD (d a : Reg) (s : State) : Out :=
  floatSel1 2 2 d a (fAbs f64) s

/-- FNEG.D. -/
def execFnegD (d a : Reg) (s : State) : Out :=
  floatSel1 2 2 d a (fNeg f64) s

/-- FCPSGN.D. -/
def execFcpsgnD (d a b : Reg) (s : State) : Out :=
  floatSel 2 2 2 d a b (fCpsgn f64) s

/-- FCLASS.D. -/
def execFclassD (d a : Reg) (s : State) : Out :=
  floatSel1 1 2 d a (classRes f64) s

/-- FCEQ.D. -/
def execFceqD (d a b : Reg) (s : State) : Out :=
  floatSel 1 2 2 d a b (fun x y => cmpRes false (fCompare .eq f64 x y)) s

/-- FCLT.D. -/
def execFcltD (d a b : Reg) (s : State) : Out :=
  floatSel 1 2 2 d a b (fun x y => cmpRes false (fCompare .lt f64 x y)) s

/-- FCLE.D. -/
def execFcleD (d a b : Reg) (s : State) : Out :=
  floatSel 1 2 2 d a b (fun x y => cmpRes false (fCompare .le f64 x y)) s

/-- FCUN.D. -/
def execFcunD (d a b : Reg) (s : State) : Out :=
  floatSel 1 2 2 d a b (fun x y => cmpRes false (fCompare .un f64 x y)) s

/-- FSCALB.D. -/
def execFscalbD (d a b : Reg) (s : State) : Out :=
  floatSel 2 2 1 d a b (fun x k => fScalb f64 x (sextInt 32 k)) s

/-- FMIN.S. -/
def execFminS (d a b : Reg) (s : State) : Out :=
  floatSel 1 1 1 d a b (fMinMax false f32) s

/-- FMAX.S. -/
def execFmaxS (d a b : Reg) (s : State) : Out :=
  floatSel 1 1 1 d a b (fMinMax true f32) s

/-- FMINNUM.S. -/
def execFminnumS (d a b : Reg) (s : State) : Out :=
  floatSel 1 1 1 d a b (fMinMaxNum false f32) s

/-- FMAXNUM.S. -/
def execFmaxnumS (d a b : Reg) (s : State) : Out :=
  floatSel 1 1 1 d a b (fMinMaxNum true f32) s

/-- FABS.S. -/
def execFabsS (d a : Reg) (s : State) : Out :=
  floatSel1 1 1 d a (fAbs f32) s

/-- FNEG.S. -/
def execFnegS (d a : Reg) (s : State) : Out :=
  floatSel1 1 1 d a (fNeg f32) s

/-- FCPSGN.S. -/
def execFcpsgnS (d a b : Reg) (s : State) : Out :=
  floatSel 1 1 1 d a b (fCpsgn f32) s

/-- FCLASS.S. -/
def execFclassS (d a : Reg) (s : State) : Out :=
  floatSel1 1 1 d a (classRes f32) s

/-- FCEQ.S. -/
def execFceqS (d a b : Reg) (s : State) : Out :=
  floatSel 1 1 1 d a b (fun x y => cmpRes false (fCompare .eq f32 x y)) s

/-- FCLT.S. -/
def execFcltS (d a b : Reg) (s : State) : Out :=
  floatSel 1 1 1 d a b (fun x y => cmpRes false (fCompare .lt f32 x y)) s

/-- FCLE.S. -/
def execFcleS (d a b : Reg) (s : State) : Out :=
  floatSel 1 1 1 d a b (fun x y => cmpRes false (fCompare .le f32 x y)) s

/-- FCUN.S. -/
def execFcunS (d a b : Reg) (s : State) : Out :=
  floatSel 1 1 1 d a b (fun x y => cmpRes false (fCompare .un f32 x y)) s

/-- FSCALB.S. -/
def execFscalbS (d a b : Reg) (s : State) : Out :=
  floatSel 1 1 1 d a b (fun x k => fScalb f32 x (sextInt 32 k)) s

/-- FMIN.H. -/
def execFminH (d a b : Reg) (s : State) : Out :=
  floatSel 1 1 1 d a b (packedSel (fMinMax false f16)) s

/-- FMAX.H. -/
def execFmaxH (d a b : Reg) (s : State) : Out :=
  floatSel 1 1 1 d a b (packedSel (fMinMax true f16)) s

/-- FMINNUM.H. -/
def execFminnumH (d a b : Reg) (s : State) : Out :=
  floatSel 1 1 1 d a b (packedSel (fMinMaxNum false f16)) s

/-- FMAXNUM.H. -/
def execFmaxnumH (d a b : Reg) (s : State) : Out :=
  floatSel 1 1 1 d a b (packedSel (fMinMaxNum true f16)) s

/-- FABS.H. -/
def execFabsH (d a : Reg) (s : State) : Out :=
  floatSel1 1 1 d a (fun x => packedSel (fun x _ => fAbs f16 x) x 0) s

/-- FNEG.H. -/
def execFnegH (d a : Reg) (s : State) : Out :=
  floatSel1 1 1 d a (fun x => packedSel (fun x _ => fNeg f16 x) x 0) s

/-- FCPSGN.H. -/
def execFcpsgnH (d a b : Reg) (s : State) : Out :=
  floatSel 1 1 1 d a b (packedSel (fCpsgn f16)) s

/-- FCLASS.H. -/
def execFclassH (d a : Reg) (s : State) : Out :=
  floatSel1 1 1 d a (fun x => packedSel (fun x _ => classRes f16 x) x 0) s

/-- FCEQ.H. -/
def execFceqH (d a b : Reg) (s : State) : Out :=
  floatSel 1 1 1 d a b (packedSel fun x y => cmpRes true (fCompare .eq f16 x y)) s

/-- FCLT.H. -/
def execFcltH (d a b : Reg) (s : State) : Out :=
  floatSel 1 1 1 d a b (packedSel fun x y => cmpRes true (fCompare .lt f16 x y)) s

/-- FCLE.H. -/
def execFcleH (d a b : Reg) (s : State) : Out :=
  floatSel 1 1 1 d a b (packedSel fun x y => cmpRes true (fCompare .le f16 x y)) s

/-- FCUN.H. -/
def execFcunH (d a b : Reg) (s : State) : Out :=
  floatSel 1 1 1 d a b (packedSel fun x y => cmpRes true (fCompare .un f16 x y)) s

/-- FSCALB.H. -/
def execFscalbH (d a b : Reg) (s : State) : Out :=
  floatSel 1 1 1 d a b (packedSel fun x k => fScalb f16 x (sextInt 16 k)) s

/-- FMIN.B. -/
def execFminB (d a b : Reg) (s : State) : Out :=
  floatSel 1 1 1 d a b (packedSel (fMinMax false bf16)) s

/-- FMAX.B. -/
def execFmaxB (d a b : Reg) (s : State) : Out :=
  floatSel 1 1 1 d a b (packedSel (fMinMax true bf16)) s

/-- FMINNUM.B. -/
def execFminnumB (d a b : Reg) (s : State) : Out :=
  floatSel 1 1 1 d a b (packedSel (fMinMaxNum false bf16)) s

/-- FMAXNUM.B. -/
def execFmaxnumB (d a b : Reg) (s : State) : Out :=
  floatSel 1 1 1 d a b (packedSel (fMinMaxNum true bf16)) s

/-- FABS.B. -/
def execFabsB (d a : Reg) (s : State) : Out :=
  floatSel1 1 1 d a (fun x => packedSel (fun x _ => fAbs bf16 x) x 0) s

/-- FNEG.B. -/
def execFnegB (d a : Reg) (s : State) : Out :=
  floatSel1 1 1 d a (fun x => packedSel (fun x _ => fNeg bf16 x) x 0) s

/-- FCPSGN.B. -/
def execFcpsgnB (d a b : Reg) (s : State) : Out :=
  floatSel 1 1 1 d a b (packedSel (fCpsgn bf16)) s

/-- FCLASS.B. -/
def execFclassB (d a : Reg) (s : State) : Out :=
  floatSel1 1 1 d a (fun x => packedSel (fun x _ => classRes bf16 x) x 0) s

/-- FCEQ.B. -/
def execFceqB (d a b : Reg) (s : State) : Out :=
  floatSel 1 1 1 d a b (packedSel fun x y => cmpRes true (fCompare .eq bf16 x y)) s

/-- FCLT.B. -/
def execFcltB (d a b : Reg) (s : State) : Out :=
  floatSel 1 1 1 d a b (packedSel fun x y => cmpRes true (fCompare .lt bf16 x y)) s

/-- FCLE.B. -/
def execFcleB (d a b : Reg) (s : State) : Out :=
  floatSel 1 1 1 d a b (packedSel fun x y => cmpRes true (fCompare .le bf16 x y)) s

/-- FCUN.B. -/
def execFcunB (d a b : Reg) (s : State) : Out :=
  floatSel 1 1 1 d a b (packedSel fun x y => cmpRes true (fCompare .un bf16 x y)) s

/-- FSCALB.B. -/
def execFscalbB (d a b : Reg) (s : State) : Out :=
  floatSel 1 1 1 d a b (packedSel fun x k => fScalb bf16 x (sextInt 16 k)) s

/-! ## FUN (R117, R118) -/

/-- FSQRT.D. -/
def execFsqrtD (rm : BitVec 3) (d a : Reg) (s : State) : Out :=
  float1 2 2 rm d a (fSqrt f64) s

/-- FRCP.D. -/
def execFrcpD (rm : BitVec 3) (d a : Reg) (s : State) : Out :=
  float1 2 2 rm d a (fRcp f64) s

/-- FRINT.D. -/
def execFrintD (rm : BitVec 3) (d a : Reg) (s : State) : Out :=
  float1 2 2 rm d a (fRint f64) s

/-- FRSQ.D: which neighbour is a fixed function the spec does not publish (R118). -/
def execFrsqD (rm : BitVec 3) (d a : Reg) (s : State) : Out :=
  float1 2 2 rm d a (fun m g => fRsq f64 rm (if m == .sr then g else 0)) s

/-- FSQRT.S. -/
def execFsqrtS (rm : BitVec 3) (d a : Reg) (s : State) : Out :=
  float1 1 1 rm d a (fSqrt f32) s

/-- FRCP.S. -/
def execFrcpS (rm : BitVec 3) (d a : Reg) (s : State) : Out :=
  float1 1 1 rm d a (fRcp f32) s

/-- FRINT.S. -/
def execFrintS (rm : BitVec 3) (d a : Reg) (s : State) : Out :=
  float1 1 1 rm d a (fRint f32) s

/-- FRSQ.S: which neighbour is a fixed function the spec does not publish (R118). -/
def execFrsqS (rm : BitVec 3) (d a : Reg) (s : State) : Out :=
  float1 1 1 rm d a (fun m g => fRsq f32 rm (if m == .sr then g else 0)) s

/-! ## FTR (R119, R120) -/

/-- FEXP2.D, which no Foehn core accepts (R56). -/
def execFexp2D (rm : BitVec 3) (d a : Reg) (s : State) : Out :=
  floatOp { floatForm [(a, 2)] (d, 2) false with foehn := false } 2 (rmOf rm) (fun _ _ i l => fTrans .exp2 f64 rm (i.num a 2 l)) s

/-- FLOG2.D, which no Foehn core accepts (R56). -/
def execFlog2D (rm : BitVec 3) (d a : Reg) (s : State) : Out :=
  floatOp { floatForm [(a, 2)] (d, 2) false with foehn := false } 2 (rmOf rm) (fun _ _ i l => fTrans .log2 f64 rm (i.num a 2 l)) s

/-- FSINPI.D, which no Foehn core accepts (R56). -/
def execFsinpiD (rm : BitVec 3) (d a : Reg) (s : State) : Out :=
  floatOp { floatForm [(a, 2)] (d, 2) false with foehn := false } 2 (rmOf rm) (fun _ _ i l => fTrans .sinpi f64 rm (i.num a 2 l)) s

/-- FCOSPI.D, which no Foehn core accepts (R56). -/
def execFcospiD (rm : BitVec 3) (d a : Reg) (s : State) : Out :=
  floatOp { floatForm [(a, 2)] (d, 2) false with foehn := false } 2 (rmOf rm) (fun _ _ i l => fTrans .cospi f64 rm (i.num a 2 l)) s

/-- FEXP2.S. -/
def execFexp2S (rm : BitVec 3) (d a : Reg) (s : State) : Out :=
  floatOp (floatForm [(a, 1)] (d, 1) false) 1 (rmOf rm) (fun _ _ i l => fTrans .exp2 f32 rm (i.num a 1 l)) s

/-- FLOG2.S. -/
def execFlog2S (rm : BitVec 3) (d a : Reg) (s : State) : Out :=
  floatOp (floatForm [(a, 1)] (d, 1) false) 1 (rmOf rm) (fun _ _ i l => fTrans .log2 f32 rm (i.num a 1 l)) s

/-- FSINPI.S. -/
def execFsinpiS (rm : BitVec 3) (d a : Reg) (s : State) : Out :=
  floatOp (floatForm [(a, 1)] (d, 1) false) 1 (rmOf rm) (fun _ _ i l => fTrans .sinpi f32 rm (i.num a 1 l)) s

/-- FCOSPI.S. -/
def execFcospiS (rm : BitVec 3) (d a : Reg) (s : State) : Out :=
  floatOp (floatForm [(a, 1)] (d, 1) false) 1 (rmOf rm) (fun _ _ i l => fTrans .cospi f32 rm (i.num a 1 l)) s

/-! ## FCVT (R121 to R124) -/

/-- FCVT.S.D. -/
def execFcvtSD (rm : BitVec 3) (sat : Bool) (d a : Reg) (s : State) : Out :=
  float1 1 2 rm d a (fun m g => fConvert f64 f32 m g sat) s

/-- FCVT.D.S. -/
def execFcvtDS (rm : BitVec 3) (d a : Reg) (s : State) : Out :=
  float1 2 1 rm d a (fun m g => fConvert f32 f64 m g false) s

/-- FCVT.S.H of the selected half. -/
def execFcvtSH (rm : BitVec 3) (hi : Bool) (d a : Reg) (s : State) : Out :=
  float1 1 1 rm d a (fun m g x => fConvert f16 f32 m g false (elemOf 16 hi.toNat x)) s

/-- FCVT.S.BF of the selected half. -/
def execFcvtSBf (rm : BitVec 3) (hi : Bool) (d a : Reg) (s : State) : Out :=
  float1 1 1 rm d a (fun m g x => fConvert bf16 f32 m g false (elemOf 16 hi.toNat x)) s

/-- FCVT.H.S. -/
def execFcvtHS (rm : BitVec 3) (sat : Bool) (d a : Reg) (s : State) : Out :=
  float1 1 1 rm d a (fun m g => fConvert f32 f16 m g sat) s

/-- FCVT.B.S. -/
def execFcvtBS (rm : BitVec 3) (sat : Bool) (d a : Reg) (s : State) : Out :=
  float1 1 1 rm d a (fun m g => fConvert f32 bf16 m g sat) s

/-- FCVT.S.E4M3 of the selected byte. -/
def execFcvtSE4m3 (rm : BitVec 3) (sel : BitVec 2) (d a : Reg) (s : State) : Out :=
  float1 1 1 rm d a (fun m g x => fConvert e4m3 f32 m g false (elemOf 8 sel.toNat x)) s

/-- FCVT.S.E5M2 of the selected byte. -/
def execFcvtSE5m2 (rm : BitVec 3) (sel : BitVec 2) (d a : Reg) (s : State) : Out :=
  float1 1 1 rm d a (fun m g x => fConvert e5m2 f32 m g false (elemOf 8 sel.toNat x)) s

/-- FCVT.S.DPT8 of the selected byte. -/
def execFcvtSDpt8 (rm : BitVec 3) (sel : BitVec 2) (d a : Reg) (s : State) : Out :=
  float1 1 1 rm d a (fun m g x => roundNum f32 m g false (dpt8Num (elemOf 8 sel.toNat x))) s

/-- FCVT.S.SPT4 of nibbles 0 to 3. -/
def execFcvtSSpt4Low (rm : BitVec 3) (sel : BitVec 2) (d a : Reg) (s : State) : Out :=
  float1 1 1 rm d a (fun m g x => roundNum f32 m g false (spt4Num (elemOf 4 sel.toNat x))) s

/-- FCVT.S.SPT4 of nibbles 4 to 7. -/
def execFcvtSSpt4High (rm : BitVec 3) (sel : BitVec 2) (d a : Reg) (s : State) : Out :=
  float1 1 1 rm d a (fun m g x => roundNum f32 m g false (spt4Num (elemOf 4 (sel.toNat + 4) x))) s

/-- FCVT.I32.S. -/
def execFcvtI32S (rm : BitVec 3) (sat : Bool) (d a : Reg) (s : State) : Out :=
  float1 1 1 rm d a (fun m g => fToInt f32 { w := 32, signed := true } m g sat) s

/-- FCVT.S.I32. -/
def execFcvtSI32 (rm : BitVec 3) (d a : Reg) (s : State) : Out :=
  float1 1 1 rm d a (fun m g x => intToF f32 m g (sextInt 32 x)) s

/-- FCVT.I32.D. -/
def execFcvtI32D (rm : BitVec 3) (sat : Bool) (d a : Reg) (s : State) : Out :=
  float1 1 2 rm d a (fun m g => fToInt f64 { w := 32, signed := true } m g sat) s

/-- FCVT.D.I32. -/
def execFcvtDI32 (rm : BitVec 3) (d a : Reg) (s : State) : Out :=
  float1 2 1 rm d a (fun m g x => intToF f64 m g (sextInt 32 x)) s

/-- FCVT.N32.S. -/
def execFcvtN32S (rm : BitVec 3) (sat : Bool) (d a : Reg) (s : State) : Out :=
  float1 1 1 rm d a (fun m g => fToInt f32 { w := 32, signed := false } m g sat) s

/-- FCVT.S.N32. -/
def execFcvtSN32 (rm : BitVec 3) (d a : Reg) (s : State) : Out :=
  float1 1 1 rm d a (fun m g x => intToF f32 m g (x : Int)) s

/-- FCVT.N32.D. -/
def execFcvtN32D (rm : BitVec 3) (sat : Bool) (d a : Reg) (s : State) : Out :=
  float1 1 2 rm d a (fun m g => fToInt f64 { w := 32, signed := false } m g sat) s

/-- FCVT.D.N32. -/
def execFcvtDN32 (rm : BitVec 3) (d a : Reg) (s : State) : Out :=
  float1 2 1 rm d a (fun m g x => intToF f64 m g (x : Int)) s

/-- FCVT.I64.D. -/
def execFcvtI64D (rm : BitVec 3) (sat : Bool) (d a : Reg) (s : State) : Out :=
  float1 2 2 rm d a (fun m g => fToInt f64 { w := 64, signed := true } m g sat) s

/-- FCVT.D.I64. -/
def execFcvtDI64 (rm : BitVec 3) (d a : Reg) (s : State) : Out :=
  float1 2 2 rm d a (fun m g x => intToF f64 m g (sextInt 64 x)) s

/-- FCVT.N64.D. -/
def execFcvtN64D (rm : BitVec 3) (sat : Bool) (d a : Reg) (s : State) : Out :=
  float1 2 2 rm d a (fun m g => fToInt f64 { w := 64, signed := false } m g sat) s

/-- FCVT.D.N64. -/
def execFcvtDN64 (rm : BitVec 3) (d a : Reg) (s : State) : Out :=
  float1 2 2 rm d a (fun m g x => intToF f64 m g (x : Int)) s

/-! ## FPACK (R125, R126) -/

/-- FPACK.H2. -/
def execFpackH2 (rm : BitVec 3) (d a b : Reg) (s : State) : Out :=
  float2 1 rm d a b (fPack16 f16) s

/-- FPACK.B2. -/
def execFpackB2 (rm : BitVec 3) (d a b : Reg) (s : State) : Out :=
  float2 1 rm d a b (fPack16 bf16) s

/-- FPACK.E4M3. -/
def execFpackE4m3 (rm : BitVec 3) (d a b : Reg) (s : State) : Out :=
  float3 1 rm d a b (fPack8 e4m3) s

/-- FPACK.E5M2. -/
def execFpackE5m2 (rm : BitVec 3) (d a b : Reg) (s : State) : Out :=
  float3 1 rm d a b (fPack8 e5m2) s

/-! ## FDOT (R127) -/

/-- FDOT of `n` elements of a format, with the window of GCR.DWIN (R38). -/
def dot (f : Fmt) (n : Nat) (rm : BitVec 3) (d a b : Reg) : State → Out :=
  floatOp (floatForm [(d, 1), (a, 1), (b, 1)] (d, 1) (rmOf rm == .sr)) 1 (rmOf rm) fun m g i l =>
    fDot f n m g (windowOf (i.view.group.gcr.toNat % 8)) (i.num d 1 l) (i.num a 1 l) (i.num b 1 l)

/-- FDOT.H2. -/
def execFdotH2 (rm : BitVec 3) (d a b : Reg) (s : State) : Out :=
  dot f16 2 rm d a b s

/-- FDOT.B2. -/
def execFdotB2 (rm : BitVec 3) (d a b : Reg) (s : State) : Out :=
  dot bf16 2 rm d a b s

/-- FDOT.E4M3. -/
def execFdotE4m3 (rm : BitVec 3) (d a b : Reg) (s : State) : Out :=
  dot e4m3 4 rm d a b s

/-- FDOT.E5M2. -/
def execFdotE5m2 (rm : BitVec 3) (d a b : Reg) (s : State) : Out :=
  dot e5m2 4 rm d a b s

/-! ## FQNT (R128 to R130) -/

/-- The code shifted into d from the right. -/
def shiftIn (w : Nat) (d : Nat) (q : Nat × Word) : FRes := { bits := (d * 2 ^ w + q.1) % 2 ^ 32, flags := q.2 }

/-- FQNT.DPT8. -/
def execFqntDpt8 (rm : BitVec 3) (d a b : Reg) (s : State) : Out :=
  float3 1 rm d a b (fun m g x y e => shiftIn 8 x (fQuant true m g y (e % 256))) s

/-- FQNT.SPT4. -/
def execFqntSpt4 (rm : BitVec 3) (d a b : Reg) (s : State) : Out :=
  float3 1 rm d a b (fun m g x y e => shiftIn 4 x (fQuant false m g y (e % 256))) s

/-- FQNT.SCALE. Of an infinity it sets OF alone, as the table of R130 has it, although R104 joins NX to every OF (DESIGN CHOICE log 83). -/
def execFqntScale (rm : BitVec 3) (d a : Reg) (s : State) : Out :=
  float1 1 1 rm d a (fun _ _ x => { bits := (fQuantScale x).1, flags := (fQuantScale x).2 }) s

end Sys2Proof.Machine
end

