-- ==== Sys2Proof/Machine/Lane.lean ====
section
/-! DEFINITION. Majors 0x0E and 0x10 to 0x15: lane exchanges, branches and jumps, the meeting register, capabilities (03 R87 to
R100). -/

namespace Sys2Proof.Machine

open Sys2Proof

/-! ## Lane instructions (R72, R87 to R90) -/

/-- A lane instruction: one operation over the whole class. -/
def laneForm (srcs : List (Reg × Nat)) (dst : Option (Reg × Nat)) (rule : TagRule) : Form :=
  { Form.plain srcs dst rule with laneOp := true }

/-- A lane instruction with one result for every lane. -/
def reduce (d a : Reg) (n : Nat) (f : List Word → Nat) : State → Out :=
  issue (laneForm [(a, 1)] (some (d, n)) .u) (fun i s =>
    let v := f (i.lanes.map fun j => i.view.reg a j)
    (s, i.lanes.map fun l => .write l (wordsOf n v)))

/-- BALLOT. -/
def execBallot (d a : Reg) (s : State) : Out :=
  issue (laneForm [(a, 1)] (some (d, 2)) .u) (perLane fun i l =>
    .write l (wordsOf 2 (maskOf (i.lanes.filter fun j => i.view.reg a j ≠ 0)).toNat)) s

/-- VANY. -/
def execVany (d a : Reg) (s : State) : Out := reduce d a 1 (fun vs => if vs.any (· ≠ 0) then 1 else 0) s

/-- VALL. -/
def execVall (d a : Reg) (s : State) : Out := reduce d a 1 (fun vs => if vs.all (· ≠ 0) then 1 else 0) s

/-- RFL: the lowest participating lane (R36). -/
def execRfl (d a : Reg) (s : State) : Out := reduce d a 1 (fun vs => (vs.headD 0).toNat) s

/-- A shuffle: the lane takes a(j) of its source lane when that participates, else its own a. -/
def shuffle (d a b : Reg) (src : Nat → Nat → Word → Option Nat) : State → Out :=
  issue (laneForm [(a, 1), (b, 1)] (some (d, 1)) (.like a)) (perLane fun i l =>
    match src i.team.gw l (i.view.reg b l) with
    | some j => .write l [i.view.reg a (if i.lanes.contains j then j else l)]
    | none => .write l [i.view.reg a l])

/-- SHFL: j = b mod gw. -/
def execShfl (d a b : Reg) (s : State) : Out := shuffle d a b (fun gw _ y => some (y.toNat % gw)) s

/-- SHFLU: j = L - n(b). -/
def execShflu (d a b : Reg) (s : State) : Out := shuffle d a b (fun _ l y => if y.toNat ≤ l then some (l - y.toNat) else none) s

/-- SHFLD: j = L + n(b). -/
def execShfld (d a b : Reg) (s : State) : Out := shuffle d a b (fun _ l y => some (l + y.toNat)) s

/-- SHFLX: j = L xor b<5:0>. -/
def execShflx (d a b : Reg) (s : State) : Out := shuffle d a b (fun _ l y => some (Nat.xor l (y.toNat % 64))) s

/-- ACTIVE. -/
def execActive (d : Reg) (s : State) : Out :=
  issue (laneForm [] (some (d, 2)) .u) (perLane fun i l => .write l (wordsOf 2 (maskOf i.lanes).toNat)) s

/-- ELECT. -/
def execElect (d : Reg) (s : State) : Out :=
  issue (laneForm [] (some (d, 1)) .g) (perLane fun i l => .write l [truth (i.lanes.headD l == l)]) s

/-- The sum of words modulo 2^32. -/
def sumWords (vs : List Word) : Word := vs.foldl (· + ·) 0

/-- SCANADD: the sum over participating lanes below. -/
def execScanadd (d a : Reg) (s : State) : Out :=
  issue (laneForm [(a, 1)] (some (d, 1)) .g) (perLane fun i l =>
    .write l [sumWords ((i.lanes.filter (· < l)).map fun j => i.view.reg a j)]) s

/-- RADD. -/
def execRadd (d a : Reg) (s : State) : Out := reduce d a 1 (fun vs => (sumWords vs).toNat) s

/-- The least, or greatest, of a list under a comparison that says when the second replaces the first. -/
def pickWord (better : Word → Word → Bool) (vs : List Word) : Nat :=
  (vs.tail.foldl (fun m v => if better v m then v else m) (vs.headD 0)).toNat

/-- RMIN.i32. -/
def execRminI32 (d a : Reg) (s : State) : Out := reduce d a 1 (pickWord fun v m => decide (v.toInt < m.toInt)) s

/-- RMAX.i32. -/
def execRmaxI32 (d a : Reg) (s : State) : Out := reduce d a 1 (pickWord fun v m => decide (v.toInt > m.toInt)) s

/-- RMAX.n32. -/
def execRmaxN32 (d a : Reg) (s : State) : Out := reduce d a 1 (pickWord fun v m => decide (v.toNat > m.toNat)) s

/-- LMASKLT: (1 << L) - 1. -/
def execLmasklt (d : Reg) (s : State) : Out :=
  issue (laneForm [] (some (d, 2)) .g) (perLane fun _ l => .write l (wordsOf 2 (2 ^ l - 1))) s

/-! ## Branches and jumps (R91) -/

/-- PC + sext(imm19) * 4 (R23). -/
def branchTarget (pc : DWord) (imm : BitVec 19) : DWord := pc + (imm.signExtend 64 <<< 2)

/-- BZ. -/
def execBz (a : Reg) (imm : BitVec 19) (s : State) : Out :=
  issue (Form.plain [(a, 1)] none .table) (perLane fun i l =>
    .only l (if i.view.reg a l = 0 then .goto (branchTarget i.op.pc imm) else .next)) s

/-- BNZ. -/
def execBnz (a : Reg) (imm : BitVec 19) (s : State) : Out :=
  issue (Form.plain [(a, 1)] none .table) (perLane fun i l =>
    .only l (if i.view.reg a l ≠ 0 then .goto (branchTarget i.op.pc imm) else .next)) s

/-- JAL: the link PC + 4, tagged U. -/
def execJal (d : Reg) (imm : BitVec 19) (s : State) : Out :=
  issue (Form.plain [] (some (d, 2)) .u) (perLane fun i l =>
    { LaneOut.write l (wordsOf 2 (i.op.pc + 4).toNat) with ends := .goto (branchTarget i.op.pc imm) }) s

/-- JR: to the pair a; MISALIGNED when its bits [1:0] are not zero. The link follows R34 over the source. -/
def execJr (d a : Reg) (s : State) : Out :=
  issue (Form.plain [(a, 2)] (some (d, 2)) .table) (perLane fun i l =>
    let t := i.view.pair a l
    if t % 4 ≠ 0 then .fault l cMisaligned t
    else { LaneOut.write l (wordsOf 2 (i.op.pc + 4).toNat) with ends := .goto (BitVec.ofNat 64 t) }) s

/-- MEET: d := M, then M := PC + sext(imm19) * 4 (R92). -/
def execMeet (d : Reg) (imm : BitVec 19) (s : State) : Out :=
  issue (Form.plain [] (some (d, 2)) .g) (fun i s =>
    (s.onLanes i.op i.lanes fun _ th => { th with meet := branchTarget i.op.pc imm },
     i.lanes.map fun l => .write l (wordsOf 2 (i.thread l).meet.toNat))) s

/-! ## Capabilities (R40, R41, R97 to R100) -/

/-- BASE, LEN, the permissions R, W, ATOMIC, NMCALL and PASS from bit 0, and ESZ (R40). -/
def capBase (c : Nat) : Nat := c % 2 ^ 64
def capLen (c : Nat) : Nat := c / 2 ^ 64 % 2 ^ 40
def capPerm (c : Nat) : Nat := c / 2 ^ 104 % 32
def capEsz (c : Nat) : Nat := c / 2 ^ 112 % 8

/-- The permission bits. -/
def permR : Nat := 1
def permW : Nat := 2
def permAtomic : Nat := 4
def permNmcall : Nat := 8
def permPass : Nat := 16

/-- A capability with another base and length; the other bits pass unchanged. -/
def capWith (c base len : Nat) : Nat := c / 2 ^ 104 * 2 ^ 104 + len % 2 ^ 40 * 2 ^ 64 + base % 2 ^ 64

/-- A capability with other permissions. -/
def capWithPerm (c p : Nat) : Nat := c / 2 ^ 109 * 2 ^ 109 + p % 32 * 2 ^ 104 + c % 2 ^ 104

/-- A quad written with its tag. -/
def LaneOut.quad (lane v : Nat) (tag : Bool) : LaneOut := { LaneOut.write lane (wordsOf 4 v) with tag := tag }

/-- CMOV: the quad with its tag as it stands. -/
def execCmov (d a : Reg) (s : State) : Out :=
  issue (Form.plain [(a, 4)] (some (d, 4)) .table) (perLane fun i l => .quad l (i.view.quad a l) (i.view.capTag a l)) s

/-- CNARROW (R98). -/
def execCnarrow (d a b : Reg) (s : State) : Out :=
  issue (Form.plain [(a, 4), (b, 4)] (some (d, 4)) .table) (perLane fun i l =>
    let c := i.view.quad a l
    let off := i.view.quad b l % 2 ^ 64
    let len := i.view.quad b l / 2 ^ 64
    if !i.view.capTag a l || decide (off + len > capLen c) then .fault l cCapability (capBase c)
    else .quad l (capWith c (capBase c + off) len) true) s

/-- CPERM (R98). -/
def execCperm (d a b : Reg) (s : State) : Out :=
  issue (Form.plain [(a, 4), (b, 1)] (some (d, 4)) .table) (perLane fun i l =>
    let c := i.view.quad a l
    let p := (i.view.reg b l).toNat
    if !i.view.capTag a l || decide (p ≥ 32) || decide (Nat.land p (31 - capPerm c) ≠ 0) then .fault l cCapability (capBase c)
    else .quad l (capWithPerm c p) true) s

/-- CGET: BASE and LEN write a pair, PERM and ESZ a register (R99). -/
def execCget (d a : Reg) (sel : BitVec 2) (s : State) : Out :=
  issue (Form.plain [(a, 4)] (some (d, if sel.toNat < 2 then 2 else 1)) .table) (perLane fun i l =>
    let c := i.view.quad a l
    match sel.toNat with
    | 0 => .write l (wordsOf 2 (capBase c))
    | 1 => .write l (wordsOf 2 (capLen c))
    | 2 => .write l (wordsOf 1 (capPerm c))
    | _ => .write l (wordsOf 1 (capEsz c))) s

/-- CTAG (R97). -/
def execCtag (d a : Reg) (s : State) : Out :=
  issue (Form.plain [(a, 4)] (some (d, 1)) .g) (perLane fun i l => .write l [truth (i.view.capTag a l)]) s

/-- CCLR: the tag of d is cleared in the active lanes, the bits stay. -/
def execCclr (d : Reg) (s : State) : Out :=
  issue (Form.plain [] (some (d, 4)) .table) (fun i s =>
    let r := d.toNat
    (if r ≥ 112 then s
     else if r ≥ 96 then s.modTeam i.op.team fun t => { t with ctags := t.ctags &&& ~~~((quadBits (r - 96) 4).setWidth 4) }
     else s.onLanes i.op i.lanes fun _ th => { th with capTags := th.capTags &&& ~~~(quadBits (i.op.base + r) 4) },
     i.lanes.map fun l => .only l .next)) s

/-- CMINT: SYSTEM only, main cores only; CAPABILITY when a zero field of the result would not be zero (R41, R100). -/
def execCmint (d a : Reg) (s : State) : Out :=
  issue { Form.plain [(a, 4)] (some (d, 4)) .table with foehn := false, priv := true } (perLane fun i l =>
    let c := i.view.quad a l
    if c / 2 ^ 115 ≠ 0 ∨ c / 2 ^ 109 % 8 ≠ 0 then .fault l cCapability (capBase c) else .quad l c true) s

end Sys2Proof.Machine
end

