-- ==== Sys2Proof/Machine/Registers.lean ====
section
/-! DEFINITION. The register space of the stacks: the PHY blocks (21 R444 to R449, 22 R455, R467), pattern tests, and the base-die
block with the liveness bitmap and the event log (22 R461 to R468). -/

namespace Sys2Proof.Machine

open Sys2Proof

/-! ## Where a register address lies (R444, R466) -/

/-- A place in the register space: an offset of a channel's block, an offset of a base-die block, or no block. -/
inductive RegPlace where
  | phy (stack ch off : Nat)
  | base (stack off : Nat)
  | hole
  deriving DecidableEq, Repr

def regPlace (pa : Nat) : RegPlace :=
  if pa < regBase then .hole
  else
    let o := pa - regBase
    let st := o / 0x1000000
    let x := o % 0x1000000
    if st ≥ 16 then .hole
    else if x < 0x200000 then .phy st (x / 0x10000) (x % 0x10000)
    else if x ≥ 0x800000 then .base st (x - 0x800000)
    else .hole

/-! ## Pattern tests (R445 to R448) -/

def offTrainst : Nat := 0x000
def offPatctl : Nat := 0x040
def offPatres : Nat := 0x044
def offLanemap (g : Nat) : Nat := 0x060 + 4 * g
def offRxdly (slot : Nat) : Nat := 0x100 + 4 * slot
def offTxdly (slot : Nat) : Nat := 0x300 + 4 * slot

/-- The PATRES word of a test whose physical lanes answered `phys`, under the LANEMAP in force when it started; SPARE is masked when it is read
(R447, R448). -/
def patres (phys lanemap : Word) : Word :=
  let en := lanemap.getLsbD 5
  let lane := (lanemap.extractLsb' 0 5).toNat
  let bit (l : Nat) : Nat := if phys.getLsbD (if en && l == lane then 18 else l) then 2 ^ l else 0
  BitVec.ofNat 32 (((List.range 18).map bit).sum + (if phys.getLsbD 18 then 2 ^ 18 else 0))

/-- A store to PATCTL (R446): performed only when no test runs and its zero fields are zero. The test's outcome is the lanes'
electrical state (R447, DESIGN CHOICE log 7). -/
def State.patctlWrite (s : State) (stack ch : Nat) (v : Word) : State :=
  let k := s.getStack stack
  if (phyGet k ch offPatctl).getLsbD 31 || v.extractLsb' 12 18 != 0 || v.getLsbD 2 then s
  else
    let g := (v.extractLsb' 0 2).toNat
    let t : PatternTest := { stack := stack, ch := ch, group := g,
                             result := patres (Config.laneTest s.testCtr) (phyGet k ch (offLanemap g)) }
    { s.modStack stack fun k => phySet k ch offPatctl ((v &&& 0xffb) ||| 0x80000000) with
      tests := t :: s.tests, testCtr := s.testCtr + 1 }

/-- The lane group a DLY or LANEMAP offset belongs to. -/
def groupOfOff (off : Nat) : Option Nat :=
  if 0x60 ≤ off ∧ off < 0x70 then some ((off - 0x60) / 4)
  else if 0x100 ≤ off ∧ off < 0x500 then some ((off / 128 + 2) % 4)
  else none

/-- Whether a store to a DLY or LANEMAP register has to wait for the test on its group (R446). -/
def State.heldByTest (s : State) (stack ch off : Nat) : Bool :=
  match s.testOn stack ch, groupOfOff off with
  | some t, some g => t.group == g
  | _, _ => false

/-- A store to a DLY or LANEMAP register that no test holds (R445, R448). -/
def State.trimWrite (s : State) (stack ch off : Nat) (v : Word) : State :=
  let ok :=
    if off < 0x70 then v.extractLsb' 6 26 == 0 && !(v.getLsbD 5 && decide ((v.extractLsb' 0 5).toNat > 17))
    else decide (off / 4 % 32 < 19) && v.extractLsb' 7 25 == 0
  if ok then s.modStack stack fun k => phySet k ch off v else s

/-- PATRES as it reads: 0 while a test runs; SPARE reads 0 while the spare of the tested group replaces a lane (R447). -/
def patresRead (k : Stack) (ch : Nat) : Word :=
  let ctl := phyGet k ch offPatctl
  if ctl.getLsbD 31 then 0
  else
    let r := phyGet k ch offPatres
    if (phyGet k ch (offLanemap (ctl.extractLsb' 0 2).toNat)).getLsbD 5 then r &&& 0x3ffff else r

/-! ## Other PHY registers -/

/-- TRAINST (R449). -/
def State.trainstWrite (s : State) (stack ch : Nat) (v : Word) : State :=
  if v.extractLsb' 12 20 != 0 then s else s.modStack stack fun k => phySet k ch offTrainst v

/-- LGCFG (R455, R456): the channel then turns its groups around. -/
def State.lgcfgWrite (s : State) (stack ch : Nat) (v : Word) : State :=
  if v.toNat ≥ 3 then s
  else s.modStack stack fun k => { phySet k ch offLgcfg v with turning := ch :: k.turning.filter (· != ch) }

/-- A channel counter cleared (R467). -/
def State.counterClear (s : State) (stack ch off : Nat) : State := s.modStack stack fun k => phySet k ch off 0

/-! ## The base-die block -/

/-- CAPCTL (R468). -/
def State.capctlWrite (s : State) (stack : Nat) (v : Word) : State :=
  if v.extractLsb' 17 15 != 0 || v.extractLsb' 0 16 == 0 then s else s.modStack stack fun k => { k with capctl := v }

def capstat (k : Stack) : Word := BitVec.ofNat 32 (k.captured.length * 65536 + k.fullcnt)

def evptr (k : Stack) : Word := BitVec.ofNat 32 ((if k.evOvf then 256 else 0) + k.evHead)

/-- EVPTR: a store of 0 clears HEAD and OVF (R468). -/
def State.evptrWrite (s : State) (stack : Nat) (v : Word) : State :=
  if v = 0 then s.modStack stack fun k => { k with evHead := 0, evOvf := false } else s

/-- Liveness bit of local MiB `mib` written (R463, R464): clearing discards the captured rows of the region. -/
def State.setLive (s : State) (stack mib : Nat) (live : Bool) : State :=
  let isDead := (s.getStack stack).dead.contains mib
  if mib ≥ 98304 then s
  else if live then (if isDead then s.modStack stack fun k => { k with dead := k.dead.filter (· != mib) } else s)
  else if isDead then s
  else s.modStack stack fun k =>
    { k with dead := mib :: k.dead, filling := k.filling.filter (· != mib),
             captured := k.captured.filter fun c => !(c.2.2.2 == mib / 4 && c.2.2.1 / 16 == mib % 4) }

/-- 32 bits of the liveness bitmap. -/
def liveWord (k : Stack) (i : Nat) : Word :=
  BitVec.ofNat 32 (((List.range 32).map fun b => if k.dead.contains (32 * i + b) then 0 else 2 ^ b).sum)

def State.liveWrite (s : State) (stack i : Nat) (v : Word) : State :=
  (List.range 32).foldl (fun (st : State) (b : Nat) => st.setLive stack (32 * i + b) (v.getLsbD b)) s

/-! ## Reads and writes by address -/

/-- The value a word of a register block reads; offsets no table names read 0 (R444, R466). -/
def State.regRead (s : State) : RegPlace → Word
  | .phy st ch off =>
    let k := s.getStack st
    if off = offTrainst ∨ off = offLgcfg ∨ (0x10 ≤ off ∧ off < 0x20) ∨ off = offPatctl ∨ (0x60 ≤ off ∧ off < 0x70) ∨
        (0x100 ≤ off ∧ off < 0x500 ∧ off / 4 % 32 < 19) then phyGet k ch off
    else if off = offPatres then patresRead k ch
    else 0
  | .base st off =>
    let k := s.getStack st
    if off = 0 then k.capctl
    else if off = 8 then capstat k
    else if off = 0x10 then evptr k
    else if 0x1000 ≤ off ∧ off < 0x1800 then
      let e := assocGet (0 : DWord) k.events ((off - 0x1000) / 8)
      if off % 8 < 4 then e.extractLsb' 0 32 else e.extractLsb' 32 32
    else if 0x10000 ≤ off ∧ off < 0x13000 then liveWord k ((off - 0x10000) / 4)
    else 0
  | .hole => 0

/-- A store to a word of a register block performed; stores to read-only and unnamed offsets are not performed. -/
def State.regWrite (s : State) (p : RegPlace) (v : Word) : State :=
  match p with
  | .phy st ch off =>
    if off = offTrainst then s.trainstWrite st ch v
    else if off = offLgcfg then s.lgcfgWrite st ch v
    else if 0x10 ≤ off ∧ off < 0x20 then s.counterClear st ch off
    else if off = offPatctl then s.patctlWrite st ch v
    else if (0x60 ≤ off ∧ off < 0x70) ∨ (0x100 ≤ off ∧ off < 0x500) then s.trimWrite st ch off v
    else s
  | .base st off =>
    if off = 0 then s.capctlWrite st v
    else if off = 0x10 then s.evptrWrite st v
    else if 0x10000 ≤ off ∧ off < 0x13000 then s.liveWrite st ((off - 0x10000) / 4) v
    else s
  | .hole => s

/-! ## The order of register stores (R444, R446) -/

/-- Whether a test holds a store to a place. -/
def State.regHeld (s : State) : RegPlace → Bool
  | .phy st ch off => s.heldByTest st ch off
  | _ => false

/-- The stores of a stack's queue performed in order: one that a test holds stays, with everything its core issued after it. -/
def State.regDrain (s : State) (st : Nat) : State :=
  let r := (s.getStack st).regq.foldl (fun (r : State × List RegStore) (x : RegStore) =>
    if r.2.any (·.core == x.core) || r.1.regHeld (regPlace x.pa) then (r.1, r.2 ++ [x]) else (r.1.regWrite (regPlace x.pa) x.val, r.2)) (s, [])
  r.1.modStack st fun k => { k with regq := r.2 }

/-- A store to a register block of a stack issued: performed at once where nothing holds it. -/
def State.regStore (s : State) (st : Nat) (x : RegStore) : State :=
  (s.modStack st fun k => { k with regq := k.regq ++ [x] }).regDrain st

/-- Whether stores of a core are still to be performed. -/
def State.regBusy (s : State) (st core : Nat) : Bool := (s.getStack st).regq.any (·.core == core)

/-- The address of an offset of a channel's block. -/
def phyAddr (st ch off : Nat) : Nat := regBase + st * 0x1000000 + ch * 0x10000 + off

/-- The address of an offset of a base-die block. -/
def baseAddr (st off : Nat) : Nat := regBase + st * 0x1000000 + 0x800000 + off

/-- Whether firmware runs on a stack: it alone stores to register blocks, on Foehn core 0 (R443, R444, R449). -/
def State.firmwareOn (s : State) (stack : Nat) : Bool :=
  s.teams.any fun t => t.kind == .firmware && match t.place with
    | .foehn st _ => st == stack
    | _ => false

/-- A store of a stack's firmware to its register blocks, in the order of the core's accesses (R444). -/
def State.firmStore (s : State) (st pa : Nat) (v : Word) : State :=
  if s.firmwareOn st then s.regStore st { core := 0, pa := pa, val := v, owner := none } else s

/-- Such a store to an offset of a channel's block. -/
def State.phyStore (s : State) (st ch off : Nat) (v : Word) : State := if ch < 32 then s.firmStore st (phyAddr st ch off) v else s

/-- The end of a test: DONE, the result, and the held stores (R446, R447). -/
def State.testDone (s : State) (stack ch : Nat) : State :=
  match s.testOn stack ch with
  | none => s
  | some t =>
    let s1 : State := { s with tests := s.tests.filter fun x => !(x.stack == stack && x.ch == ch) }
    (s1.modStack stack fun k =>
      phySet (phySet k ch offPatctl ((phyGet k ch offPatctl &&& 0x7fffffff) ||| 0x40000000)) ch offPatres t.result).regDrain stack

end Sys2Proof.Machine
end

