-- ==== Sys2Proof/Machine/Access.lean ====
section
/-! DEFINITION. One lane's access to memory: where it goes and the checks of 06 R161 to R163 with 01 R42, the scratch of a team
(01 R43, 13 R300 to R302), the extents of a call (20 R415), the place where each policy performs it on each attribute (17 R371,
R381, R382, R388), and the requests that go over a link (20 R426, 23 R476). -/

namespace Sys2Proof.Machine

open Sys2Proof

/-! ## Scratch -/

/-- Where the upper halves of a pair team's scratch and tile storage begin (R301). -/
def halfScr : Nat := 327680
def halfMxs : Nat := 262144

/-- The bound of the scratch half in which an access at `off` begins (R162, R301, R414). -/
def Team.scrLimit (t : Team) (off : Nat) : Nat :=
  if t.pair && decide (off ≥ halfScr) then halfScr + t.scrBytes else t.scrBytes

/-- Whether [off, off + n) lies in the team's scratch. -/
def Team.scrIn (t : Team) (off n : Nat) : Bool := decide (off + n ≤ t.scrLimit off)

def State.modPool (s : State) (tm : Nat) (f : TeamPool → TeamPool) : State := s.modTeam tm fun t => { t with pool := f t.pool }

/-- Whether a relocation of the team's banks is in progress: its pool accesses stall until the grant (R138). -/
def State.relocating (s : State) (tm : Nat) : Bool :=
  s.cores.any fun c => match c.req with
    | some r => r.team == tm && match r.phase with
      | .move _ => true
      | .commit => r.relocates
      | _ => false
    | none => false

/-- The slots of 16 bytes that [off, off + n) touches. -/
def slotsOf (off n : Nat) : List Nat := if n = 0 then [] else (List.range ((off + n - 1) / 16 - off / 16 + 1)).map (· + off / 16)

/-- The first word of [off, off + n) that cannot be corrected (15 R362). -/
def badWord (errs : List Nat) (off n : Nat) : Option Nat := errs.find? fun w => decide (w < off + n) && decide (off < w + 4)

/-- The words in error after [off, off + n) is written: one written whole is coded anew (DESIGN CHOICE log 24). -/
def recodeWords (errs : List Nat) (off n : Nat) : List Nat := errs.filter fun w => !(decide (off ≤ w) && decide (w + 4 ≤ off + n))

/-- Whether [off, off + n) of the team's scratch holds a word that cannot be corrected. -/
def Team.scrBad (t : Team) (off n : Nat) : Bool := (badWord t.pool.scrErrs off n).isSome

/-- Bytes stored in a pool: written slots lose their tag, or get it (R43). -/
def TeamPool.scrStore (p : TeamPool) (off : Nat) (bs : List Byte) (tag : Bool) : TeamPool :=
  let kept := if p.scrTags.isEmpty then [] else p.scrTags.filter fun k => !(slotsOf off bs.length).contains k
  { p with scr := memWrite p.scr off bs, scrTags := if tag then off / 16 :: kept else kept, scrErrs := recodeWords p.scrErrs off bs.length }

/-- Whether a copy in flight touches [off, off + n) of the team's scratch (R173). -/
def Copy.touches (c : Copy) (tm off n : Nat) : Bool :=
  c.team == tm && decide (c.scrOff < off + n) && decide (off < c.scrOff + c.data.length)

/-- Scratch bytes as the engine reads them: bytes that an async copy in flight targets are undefined (R173). -/
def State.scrReadEng (s : State) (tm off n : Nat) : State × List Byte :=
  (s.copies.filter fun c => c.toScr && c.touches tm off n).foldl
    (fun (r : State × List Byte) (c : Copy) => freeRange r.1 c.scrOff (c.scrOff + c.data.length) off r.2)
    (s, memRead (s.team tm).pool.scr off n)

/-- Where step `k` of an MSEQ reads scratch: the first byte, length and element size of each row of A and B (05 R155). -/
def mseqRows (block : List Byte) (a : Tile) (b : Option Tile) (k : Nat) : List (Int × Nat × Nat) :=
  let f (o : Nat) : Nat := natOf ((block.drop o).take 4)
  let rows (t : Tile) (off : Nat) : List (Int × Nat × Nat) :=
    let cols := (t.shape.extractLsb' 8 8).toNat + 1
    let bits := match (t.shape.extractLsb' 16 4).toNat with
      | 0 => 64
      | 1 => 32
      | 2 => 16
      | 3 => 16
      | 7 => 4
      | _ => 8
    (List.range ((t.shape.extractLsb' 0 8).toNat + 1)).map fun (r : Nat) =>
      ((f off : Int) + k * sextInt 32 (f (off + 4)) + r * sextInt 32 (f (off + 8)), (cols * bits + 7) / 8, Nat.max 1 (bits / 8))
  rows a 8 ++ match b with
    | some t => rows t 20
    | none => []

/-- The scratch that the MSEQs not yet covered by an MWAIT read (R157). -/
def Team.engScr (t : Team) : List (Int × Nat × Nat) :=
  (t.eng.queue ++ t.eng.covered).flatMap fun o => match o.kind with
    | .mseq block _ a b _ _ _ => (List.range (natOf (block.take 4))).flatMap fun k => mseqRows block a b k
    | _ => []

/-- Bytes from `off` with those that an uncovered MSEQ reads made undefined (R157). -/
def State.engFree (s : State) (tm off : Nat) (bs : List Byte) : State × List Byte :=
  (s.team tm).engScr.foldl (fun (r : State × List Byte) (x : Int × Nat × Nat) =>
    freeRange r.1 x.1.toNat (x.1 + x.2.1).toNat off r.2) (s, bs)

/-- The elements of a row of an uncovered MSEQ that an access to [off, off + n) touches in part: their first byte and the end (R157). -/
def rowTouched (x : Int × Nat × Nat) (off n : Nat) : Option (Nat × Nat) :=
  let lo := Max.max x.1 off
  let hi := Min.min (x.1 + x.2.1) (off + n)
  if lo ≥ hi then none
  else
    let e : Int := x.2.2
    some ((x.1 + (lo - x.1) / e * e).toNat, (Min.min (x.1 + x.2.1) (x.1 + (hi - x.1 + e - 1) / e * e)).toNat)

/-- The elements that uncovered MSEQs read and an access to [off, off + n) of scratch has written a part of, left undefined whole (R157). -/
def State.engSpoil (s : State) (tm off n : Nat) : State :=
  ((s.team tm).engScr.filterMap fun x => rowTouched x off n).foldl (fun (st : State) (r : Nat × Nat) =>
    let (b, st1) := st.freeBytes (r.2 - r.1)
    st1.modPool tm fun p => { p with scr := memWrite p.scr r.1 b }) s

/-! ## Held stores and copies beside an access -/

/-- Where a held store's bytes lie beside an access at `va` with frame address `pa`: its own frame address, or by its name where it has none. -/
def WoStore.base (w : WoStore) (va pa : Nat) : Nat := w.pa.getD (if va ≤ w.va + pa then w.va + pa - va else 0)

/-- Held WO stores of a thread laid over bytes read at `va`, whose frame address is `pa` (R165, R381, R389). -/
def overlayWo (wo : List WoStore) (va pa : Nat) (bs : List Byte) : List Byte :=
  wo.foldl (fun (acc : List Byte) (w : WoStore) => acc.mapIdx fun j b =>
    let p := w.base va pa
    if p ≤ pa + j ∧ pa + j < p + w.data.length then (w.data[pa + j - p]?).getD b else b) bs

def State.threadOf (s : State) (i : Iss) (l : Nat) : Thread :=
  (((s.team i.op.team).groups[i.op.grp]?).bind (·.threads[l]?)).getD (Thread.start 0 0 false)

/-- Bytes at an address cut into stores of 16, 8, 4, 2 and 1 bytes, naturally aligned, as a save record holds them (10 R284). -/
def WoStore.cut (w : WoStore) : Nat → Nat → List Byte → List WoStore
  | 0, _, _ => []
  | _ + 1, _, [] => []
  | fuel + 1, o, bs =>
    let k := ([16, 8, 4, 2].find? fun k => (w.va + o) % k == 0 && decide (k ≤ bs.length)).getD 1
    { w with va := w.va + o, pa := w.pa.map (· + o), data := bs.take k } :: w.cut fuel (o + k) (bs.drop k)

/-- The bytes of a held WO store outside the `n` bytes of an access at `va`, frame address `pa`. -/
def WoStore.trim (va pa n : Nat) (w : WoStore) : List WoStore :=
  let p := w.base va pa
  if p + w.data.length ≤ pa ∨ pa + n ≤ p then [w]
  else w.cut 16 0 (w.data.take (pa - p)) ++ w.cut 16 (pa + n - p) (w.data.drop (pa + n - p))

/-- The write of one part of an S2G copy, as .d stores, and the error that it meets (R184, 22 R459); on a WO page it is its own release (R172). -/
def State.copyWrite (s : State) (c : Copy) : State × Option (BitVec 8) :=
  let first (r : State × List (Nat × BitVec 8)) : State × Option (BitVec 8) := (r.1, r.2.head?.map (·.2))
  let t := s.team c.team
  let core := t.coreOf c.grp
  let asid := s.asidOf t.ctx
  let n := c.data.length
  if c.attr == attrIP then first (s.l1Try (ipCore t core c.va) asid c.va c.pa true c.data)
  else
    let s0 := s.l1Bypass (l1Core t core c.va) asid c.va n
    let s1 := if c.attr == attrWO then
      s0.modThread c.team c.grp c.lane fun th => { th with wo := th.wo.flatMap (WoStore.trim c.va c.pa n) } else s0
    first (s1.homeTry asid c.va c.pa c.data true)

/-- The data of a write over a link that carries an S2G part, made undefined with the part's (R173), unless its message has gone out (R476). -/
def LinkReq.spoil (c : Copy) (r : LinkReq) : LinkReq :=
  if r.owner == .copy c.id && r.kind == 1 && r.done.isNone && !(r.host && r.sent) then
    { r with data := r.data.take r.skip ++ c.data ++ r.data.drop (r.skip + c.data.length) } else r

/-- The bytes of a copy in flight that [off, off + n) covers made undefined: at once, or, of a G2S part over a link, when it lands (R173). -/
def taintCopies (tm off n : Nat) : State → List Copy → State × List Copy
  | s, [] => (s, [])
  | s, c :: r =>
    let (s1, c1) := if c.touches tm off n then
      let (s', d) := freeRange s off (off + n) c.scrOff c.data
      let c' := { c with data := d, performed := false, taint := if c.toScr then (off, off + n) :: c.taint else c.taint }
      (if c.toScr then s' else { s' with links := s'.links.map (LinkReq.spoil c') }, c') else (s, c)
    let (s2, r2) := taintCopies tm off n s1 r
    (s2, c1 :: r2)

/-- The S2G parts in flight whose source a landing G2S part writes: undefined at their destination in those bytes (R173). -/
def State.taintSources (s : State) (tm off n : Nat) : State :=
  if s.copies.any (fun c => !c.toScr && c.touches tm off n) then
    let (s1, cs) := taintCopies tm off n s (s.copies.filter fun c => !c.toScr)
    { s1 with copies := s1.copies.map fun c => (cs.find? fun x => x.id == c.id).getD c }
  else s

/-- The part of a landed S2G copy whose source [off, off + n) covers, undefined at its destination in this device's DRAM (R173). -/
def State.spoilDest (s : State) (tm off n : Nat) (x : Landed) : State :=
  let c := x.copy
  let lo := Nat.max off c.scrOff
  let hi := Nat.min (off + n) (c.scrOff + c.data.length)
  if c.toScr || !c.touches tm off n || paClass c.pa != .dram || hi ≤ lo then s
  else
    let (b, s1) := s.freeBytes (hi - lo)
    (s1.copyWrite { c with va := c.va + (lo - c.scrOff), pa := c.pa + (lo - c.scrOff), scrOff := lo, data := b }).1

/-- Bytes from `off` of scratch, undefined where a G2S copy of the team has landed and is not acquired yet (R173). -/
def State.landedFree (s : State) (tm off : Nat) (bs : List Byte) : State × List Byte :=
  (s.landed.filter fun x => x.copy.toScr && x.copy.touches tm off bs.length).foldl (fun (r : State × List Byte) (x : Landed) =>
    freeRange r.1 x.copy.scrOff (x.copy.scrOff + x.copy.data.length) off r.2) (s, bs)

/-- Scratch bytes as a thread reads them. -/
def State.scrRead (s : State) (tm off n : Nat) : State × List Byte :=
  let (s1, b1) := s.scrReadEng tm off n
  let (s2, b2) := s1.landedFree tm off b1
  s2.engFree tm off b2

/-- Bytes put into scratch by a thread's instruction; a copy over them then moves undefined ones, in flight or landed and not acquired yet (R173),
and those that an uncovered MSEQ reads are undefined (R157). -/
def State.scrPut (s : State) (tm off : Nat) (bs : List Byte) (tag : Bool) : State :=
  let s1 := if s.copies.any (fun c => c.touches tm off bs.length) then
    let (s', cs) := taintCopies tm off bs.length s s.copies
    { s' with copies := cs } else s
  let s2 := s1.landed.foldl (fun (t : State) (x : Landed) => t.spoilDest tm off bs.length x) s1
  let (s3, b) := s2.landedFree tm off bs
  ((s3.modPool tm fun p => p.scrStore off b tag).engSpoil tm off bs.length).wakeScratch tm off bs.length

/-- A store by a thread into scratch: a ring object is left undefined (R186). -/
def State.scrWrite (s : State) (tm off : Nat) (bs : List Byte) (tag : Bool) : State :=
  let (s1, b) := (s.team tm).rings.foldl (fun (r : State × List Byte) (x : Nat × Nat) =>
    freeRange r.1 (16 * x.1) (16 * x.1 + 16) off r.2) (s, bs)
  s1.scrPut tm off b tag

/-- A range put among the ranges of one store, merged with those it meets. -/
def addSpan (x : Bool × Nat × Nat) (l : List (Bool × Nat × Nat)) : List (Bool × Nat × Nat) :=
  let near (y : Bool × Nat × Nat) : Bool := y.1 == x.1 && decide (y.2.1 ≤ x.2.2) && decide (x.2.1 ≤ y.2.2)
  (x.1, (l.filter near).foldl (fun (m : Nat) (y : Bool × Nat × Nat) => Nat.min m y.2.1) x.2.1,
    (l.filter near).foldl (fun (m : Nat) (y : Bool × Nat × Nat) => Nat.max m y.2.2) x.2.2) :: l.filter fun y => !near y

/-- A range taken out of the ranges of one store. -/
def dropSpan (l : List (Bool × Nat × Nat)) (x : Bool × Nat × Nat) : List (Bool × Nat × Nat) :=
  l.flatMap fun y =>
    if y.1 != x.1 || decide (y.2.2 ≤ x.2.1) || decide (x.2.2 ≤ y.2.1) then [y]
    else (if y.2.1 < x.2.1 then [(y.1, y.2.1, x.2.1)] else []) ++ (if x.2.2 < y.2.2 then [(y.1, x.2.2, y.2.2)] else [])

/-- The ranges a team's threads have noted: those of one thread changed by `own`, those of the others by `other`. -/
def Team.modUnfenced (t : Team) (g l : Nat) (own other : List (Bool × Nat × Nat) → List (Bool × Nat × Nat)) : Team :=
  { t with groups := t.groups.mapIdx fun gi x => { x with threads := x.threads.mapIdx fun li th =>
      { th with unfenced := if gi == g && li == l then own th.unfenced else other th.unfenced } } }

/-- A write of a thread to `n` bytes at `off` of scratch or of tile storage noted until its next MFENCE: before that the write may not have
been performed at the engine's port (R152). It replaces the earlier writes of other threads to those bytes, unless the same bytes are written by
the next lane of one instruction (`same`). -/
def State.noteSame (s : State) (tm g l : Nat) (scr : Bool) (off n : Nat) (same : Bool) : State :=
  if (s.team tm).onFoehn || n = 0 then s
  else s.modTeam tm fun t => t.modUnfenced g l (addSpan (scr, off, off + n)) fun x => if same then x else dropSpan x (scr, off, off + n)

/-- A lane's own write to scratch or tile storage noted. -/
def State.noteWrite (s : State) (tm g l : Nat) (scr : Bool) (off n : Nat) : State := s.noteSame tm g l scr off n false

/-- MFENCE: every earlier write of the thread is at the engine's port, and with it every earlier write to the same bytes (R152). -/
def State.fenceWrites (s : State) (tm g l : Nat) : State :=
  let mine := ((((s.team tm).groups[g]?).bind (·.threads[l]?)).map (·.unfenced)).getD []
  s.modTeam tm fun t => t.modUnfenced g l (fun _ => []) fun x => mine.foldl dropSpan x

/-! ## Where an access goes -/

/-- The place of a checked access: scratch, a page, a call's extent, a register block. -/
inductive Spot where
  | scr (off : Nat)
  | page (attr : BitVec 2) (pa : Nat)
  | extent (pa : Nat)
  | reg (p : RegPlace)
  deriving DecidableEq, Repr

/-- What an instruction asks of the checks: size and alignment, the capability permissions, the page needs, and what the
attribute must be, given whether the team holds the region's token (R163). -/
structure Ask where
  size : Nat
  align : Nat
  perm : Nat
  need : Need
  attrOk : BitVec 2 → Bool → Bool

/-- The same for an access of a policy (R47, R371): .c goes to the L1 where the attribute has it so, .d to the slice, .s and .y past it (R397). -/
def Ask.policy (k : Ask) (pol : BitVec 2) : Ask :=
  { k with need := { k.need with via := if pol = 0 then k.need.via else if pol = 1 then .slice else .direct } }

/-- The attributes a load or store may meet: IP only for the token holder (R170). -/
def attrPlain (a : BitVec 2) (holder : Bool) : Bool := a != attrIP || holder

/-- The attributes an atomic may meet: no WO, IP only for the holder (R176, R177). -/
def attrAtomic (a : BitVec 2) (holder : Bool) : Bool := a != attrWO && (a != attrIP || holder)

/-- The attributes a barrier object may lie on: SC and RC (R178). -/
def attrBarrier (a : BitVec 2) (_ : Bool) : Bool := a == attrSC || a == attrRC

def askLoad (n : Nat) : Ask :=
  { size := n, align := n, perm := permR, need := { r := true, w := false, x := false, win := false, via := .l1 }, attrOk := attrPlain }
def askStore (n : Nat) : Ask :=
  { size := n, align := n, perm := permW, need := { r := false, w := true, x := false, win := false, via := .l1 }, attrOk := attrPlain }
def askAtom (n : Nat) : Ask :=
  { size := n, align := n, perm := permR + permW + permAtomic, need := { r := true, w := true, x := false, win := false, via := .slice },
    attrOk := attrAtomic }
def askRed (n : Nat) : Ask :=
  { size := n, align := n, perm := permW + permAtomic, need := { r := true, w := true, x := false, win := false, via := .slice },
    attrOk := attrAtomic }
def askBarrier : Ask :=
  { size := 16, align := 16, perm := permR + permW + permAtomic, need := { r := true, w := true, x := false, win := false, via := .slice },
    attrOk := attrBarrier }

/-- The capability check of R42: through the low pair of a tagged quad, offset + size within LEN, and every permission. -/
def capOk (i : Iss) (l : Nat) (a : Reg) (off size perm : Nat) : Bool :=
  if a.toNat < 112 && a.toNat % 4 == 0 && i.view.capTag a l then
    let c := i.view.quad a l
    decide (off + size ≤ capLen c) && decide (Nat.land perm (capPerm c) = perm)
  else true

/-- The running call of a Foehn team. -/
def State.callOf (s : State) (tm : Nat) : Option Call := s.calls.find? fun c => c.team == tm && c.state == .running

/-- The permissions of a call's slot. -/
def Call.slotPerm (c : Call) (k : Nat) : Nat := match c.slots[k]? with
  | some (some q) => capPerm q.toNat
  | _ => 0

/-- The frame address an extent gives [va, va + n) for a load, a store or an arrival (R415, R416). -/
def Call.extentPa (c : Call) (va n perm : Nat) (store : Bool) : Option Nat :=
  (c.extents.find? fun e => decide (e.lo ≤ va) && decide (va + n ≤ e.hi) && (!store || e.out) &&
    decide (Nat.land perm (c.slotPerm e.slot) = perm)).map fun e => e.pa + (va - e.lo)

/-- Whether a copy of a lane over a link to or from an SC page is not acknowledged yet: the thread's later accesses wait for it (17 R378). -/
def State.scCopy (s : State) (i : Iss) (l : Nat) : Bool :=
  s.copies.any fun c => c.link && c.attr == attrSC && c.team == i.op.team && c.grp == i.op.grp && c.lane == l &&
    s.links.any fun r => r.owner == .copy c.id && r.done.isNone

/-- THE CHECKS of one lane's access, in order (R163): alignment, capability, scratch bounds, then the page's; or, on a Foehn
core, the call's extents (R415) or the register blocks (R444). -/
def State.check (s : State) (i : Iss) (l va : Nat) (a : Reg) (capOff : Nat) (k : Ask) : State × Except LaneEnd Spot :=
  let fault (c : BitVec 8) (x : Nat) : State × Except LaneEnd Spot := (s, .error (.fault c 0 (BitVec.ofNat 64 x)))
  let t := s.team i.op.team
  if va % k.align ≠ 0 then fault cMisaligned va
  else if !capOk i l a capOff k.size k.perm then fault cCapability va
  else if inAperture va then
    if s.relocating i.op.team then (s, .error .pend)
    else if t.scrIn (va - apBase) k.size then (s, .ok (.scr (va - apBase)))
    else fault cScratch (va - apBase)
  else match t.kind, t.place with
    | .firmware, .foehn st _ =>
      let p := regPlace va
      let mine := match p with
        | .phy x _ _ => x == st
        | .base x _ => x == st
        | .hole => false
      if mine && k.size == 4 then (s, .ok (.reg p)) else fault cProtection va
    | .call, _ =>
      match (s.callOf i.op.team).bind fun c => c.extentPa va k.size (Nat.land k.perm (permR + permW)) k.need.w with
      | some pa => (s, .ok (.extent pa))
      | none => fault cProtection va
    | _, _ =>
      if s.scCopy i l then (s, .error .pend) else
      let (s1, c) := s.throughMarks (s.links.any fun r => r.owner == .lane i.op.team i.op.grp l) fun st =>
        st.pageCheck (t.coreOf i.op.grp) t.ctx i.op.team va k.need k.attrOk
      match c with
      | .stay => (s1, .error .pend)
      | .park => (s1, .error (.park (BitVec.ofNat 64 va)))
      | .fault cause => (s1, .error (.fault cause 0 (BitVec.ofNat 64 va)))
      | .ok attr pa => (s1, .ok (.page attr pa))

/-! ## Requests over a link (R388, R426, R476; DESIGN CHOICE log 12) -/

/-- What a request that a lane waits for has come to. -/
inductive LinkState where
  | pending
  | refused
  | answered (data : List Byte)
  deriving DecidableEq, Repr

/-- A request made for an owner that has none outstanding; the answer is taken when it is there. -/
def State.linkCall (s : State) (ctx : Nat) (o : LinkOwner) (kind pa n : Nat) (data : List Byte) : State × LinkState :=
  match s.links.find? fun r => r.owner == o && r.kind == kind with
  | some r => match r.answer with
    | none => (s, .pending)
    | some (bad, d) => ({ s with links := s.links.filter fun x => x.id != r.id }, if bad then .refused else .answered d)
  | none => (s.linkPost ctx o kind pa n data, .pending)

/-- The bytes that the owner's read half of an atomic brought, kept until its write half is acknowledged. -/
def State.linkAtomOld (s : State) (o : LinkOwner) : Option (List Byte) :=
  (s.links.find? fun r => r.owner == o && r.kind == 3).map (·.old)

/-- The read half of an atomic on host memory becomes its write half where it stands, so that no other request of the device to those bytes
comes between (R377, R384). -/
def LinkReq.writeHalf (o : LinkOwner) (old new : List Byte) (r : LinkReq) : LinkReq :=
  if r.owner == o && r.kind == 5 then
    { r with kind := 3, old := old, data := new, enables := List.replicate new.length true, sent := false, done := none } else r

/-! ## Extents of other calls (R216, R424) -/

/-- Whether [pa, pa + n) lies in an OUT extent of a running call. -/
def State.inExtent (s : State) (pa n : Nat) : Bool := s.calls.any fun c => c.outMeets pa n

/-- Whether [pa, pa + n) meets a word of a range in which the extents of two calls overlap, until both have completed (R424). -/
def Call.clashes (c : Call) (pa n : Nat) : Bool :=
  c.clash.any fun r => decide (r.1 / 4 * 4 < pa + n) && decide (pa < (r.1 + r.2 + 3) / 4 * 4)

/-- Whether a word of [pa, pa + n) is one that the callee or walker of a running call has written (R216, DESIGN CHOICE log 51), or lies in a
range that another call overlaps: what a main-die load of it returns is undefined. -/
def State.inOut (s : State) (pa n : Nat) : Bool :=
  !s.calls.isEmpty && s.calls.any fun c => c.clashes pa n ||
    (wordsAt pa n).any fun w => c.outMeets w 4 && c.wrote.contains w

/-- Bytes as a main-die load gets them: undefined in the words that `inOut` names. -/
def State.outRead (s : State) (pa : Nat) (bs : List Byte) : State × List Byte :=
  if s.inOut pa bs.length then
    ((wordsAt pa bs.length).filter fun w => s.inOut w 4).foldl (fun (r : State × List Byte) (w : Nat) => freeRange r.1 w (w + 4) pa r.2) (s, bs)
  else (s, bs)

/-- The bytes a callee's store leaves, with the word noted as written: undefined where a main-die store has written the word
meanwhile (R216). -/
def State.callStore (s : State) (tm pa : Nat) (bs : List Byte) : State × List Byte :=
  let ws := wordsAt pa bs.length
  let mine (c : Call) : Bool := c.team == tm && c.state == .running
  let undef := s.calls.any fun c => mine c && ws.any c.met.contains
  let note (c : Call) : Call := if mine c then { c with wrote := ws ++ c.wrote.filter fun x => !ws.contains x } else c
  let s1 : State := { s with calls := s.calls.map note }
  if undef then
    let (b, s2) := s1.freeBytes bs.length
    (s2, b)
  else (s1, bs)

/-! ## Bytes read and written at a spot -/

/-- What one lane's access to memory brings: bytes, an error mark, or another end of the lane (a wait for a link, a refusal). -/
inductive Got where
  | data (d : Data)
  | ends (e : LaneEnd)
  deriving DecidableEq, Repr

/-- One S2G part performed before it lands; an error that its write meets is recorded at the landing (R184). -/
def State.doPart (s : State) (c : Copy) : State :=
  let (s1, e) := s.copyWrite c
  { s1 with copies := s1.copies.map fun x => if x.id == c.id then { x with performed := true, bad := e } else x }

/-- The S2G parts to this device's DRAM that satisfy `p`, performed in the order of their issue. -/
def State.doWhere (s : State) (p : Copy → Bool) : State :=
  let hit (c : Copy) : Bool := !c.toScr && !c.performed && c.bad.isNone && paClass c.pa == .dram && p c
  if s.copies.any hit then (s.copies.filter hit).foldl State.doPart s else s

/-- The S2G parts to some frames that were accepted before these change (17 R390 step 3, 18 R406). -/
def State.performCopies (s : State) (pa n : Nat) : State := s.doWhere fun c => decide (pa ≤ c.pa) && decide (c.pa < pa + n)

/-- The S2G parts of a thread that satisfy `p`. -/
def State.doCopies (s : State) (tm g l : Nat) (p : Copy → Bool) : State :=
  s.doWhere fun c => c.team == tm && c.grp == g && c.lane == l && p c

/-- A release by a thread at DEV or SYS scope (R188, R189): its S2G parts and FREDs (R219) performed, then the release of its core and its held
stores. -/
def State.relDev (s : State) (tm g l : Nat) : State :=
  let s0 := s.doCopies tm g l fun _ => true
  let ctx := (s.team tm).ctx
  let s2 := (s0.mem.freds.filter fun f => f.ctx == ctx).foldl (fun (st : State) (f : PendingFred) => st.fredsDue f.pa) s0
  s2.releaseDev tm g l

/-- A release by a thread at TEAM scope: its S2G parts performed, and on a core pair the core's dirty RC words (R188, 17 R379). -/
def State.relTeam (s : State) (tm g l : Nat) : State := (s.doCopies tm g l fun _ => true).releaseTeam tm g

/-- The S2G parts of this lane that meet [pa, pa + n) performed before a later access of the same thread to those bytes, under whatever name
(R165, R389). -/
def State.ownCopies (s : State) (i : Iss) (l pa n : Nat) : State :=
  s.doCopies i.op.team i.op.grp l fun c => decide (c.pa < pa + n) && decide (pa < c.pa + c.data.length)

/-- A read of a page of this device's DRAM, where its attribute and policy perform it (R371). -/
def State.readLocal (s : State) (i : Iss) (l va pa n : Nat) (attr pol : BitVec 2) : State × Data :=
  let t := s.team i.op.team
  let core := t.coreOf i.op.grp
  let asid := s.asidOf t.ctx
  if attr == attrIP then s.l1Read (ipCore t core va) asid va pa n true
  else if attr == attrSC then
    let s1 := s.relDev i.op.team i.op.grp l
    if pol == 3 then s1.memReadY asid va pa n else s1.homeRead asid va pa n (pol != 2)
  else if pol == 0 then s.l1Read (l1Core t core va) asid va pa n false
  else
    let s1 := s.l1Bypass (l1Core t core va) asid va n
    if pol == 3 then s1.memReadY asid va pa n else s1.homeRead asid va pa n (pol != 2)

/-- A write to a page of this device's DRAM (R371): on a WO page it is held (R381). -/
def State.writeLocal (s : State) (i : Iss) (l va pa : Nat) (attr pol : BitVec 2) (bs : List Byte) : State :=
  let t := s.team i.op.team
  let core := t.coreOf i.op.grp
  let asid := s.asidOf t.ctx
  if attr == attrIP then s.l1PutAll (ipCore t core va) asid va pa true bs
  else if attr == attrSC then
    let s1 := s.relDev i.op.team i.op.grp l
    if pol == 3 then s1.memWriteY asid va pa bs else s1.homeWrite asid va pa bs (pol != 2)
  else if attr == attrWO then
    (s.l1Bypass (l1Core t core va) asid va bs.length).modThread i.op.team i.op.grp l fun th =>
      { th with wo := th.wo ++ [{ va := va, pa := some pa, policy := pol, data := bs, born := s.tick }] }
  else if pol == 0 then s.l1PutAll (l1Core t core va) asid va pa false bs
  else
    let s1 := s.l1Bypass (l1Core t core va) asid va bs.length
    if pol == 3 then s1.memWriteY asid va pa bs else s1.homeWrite asid va pa bs (pol != 2)

/-- A lane's read of this device's DRAM: the thread's own held stores over what memory holds, undefined in an OUT extent. -/
def State.readDram (s : State) (i : Iss) (l va pa n : Nat) (attr pol : BitVec 2) : State × Data :=
  let (s1, d) := (s.ownCopies i l pa n).readLocal i l va pa n attr pol
  match d with
  | .ok b =>
    let (s2, b2) := s1.outRead pa b
    (s2, .ok (overlayWo (s2.threadOf i l).wo va pa b2))
  | .bad c => (s1, .bad c)

/-- Whether an access of a lane has to reach memory at a channel that does not take it now (R456): a read of words that neither the L1 nor the L2
holds, a write that goes past them, or the write-back of the line that a .y access or another name of it needs first. -/
def State.memoryWaits (s : State) (i : Iss) (va pa n : Nat) (attr pol : BitVec 2) (write : Bool) : Bool :=
  let t := s.team i.op.team
  let core := t.coreOf i.op.grp
  let asid := s.asidOf t.ctx
  let inL1 (a : Nat) : Bool := attr != attrSC && (attr == attrIP || pol == 0) &&
    (s.l1Find (if attr == attrIP then ipCore t core va else l1Core t core va) asid a).isSome
  let inL2 (a : Nat) : Bool := pol != 3 && (s.l2At asid a (pa / 64 * 64 + a % 64)).isSome
  let needs (x : Nat × Nat × Nat) : Bool := !inL1 x.1 && !inL2 x.1
  let back (w : L2Word) : Bool := w.dirty && w.pa / 64 == pa / 64 && (pol == 3 || !(w.asid == asid && w.va / 64 == va / 64))
  let inside (x : Nat × Nat × Nat) : Bool := inL1 x.1 || (write && (attr == attrWO || (x.2.2 == 4 && (attr == attrIP || (attr == attrRC && pol == 0)))))
  if !(wordsIn va n).all inside && s.channelBusy true pa && s.mem.l2.any back then true
  else if write then
    if pol == 2 || pol == 3 then attr != attrWO && attr != attrIP && (wordsIn va n).any needs && s.channelBusy true pa
    else attr != attrWO && (wordsIn va n).any (fun x => x.2.2 != 4 && needs x) && s.channelBusy false pa
  else (wordsIn va n).any needs && s.channelBusy false pa

/-- A lane's read of `n` bytes at a checked spot. -/
def State.readSpot (s : State) (i : Iss) (l va n : Nat) (pol : BitVec 2) (p : Spot) : State × Got :=
  match p with
  | .scr off =>
    if (s.team i.op.team).scrBad off n then (s, .data (.bad cUncorrectable))
    else
      let (s1, b) := s.scrRead i.op.team off n
      (s1, .data (.ok b))
  | .reg q =>
    -- in the order of the core's accesses (R444)
    match i.team.place with
    | .foehn st c => if s.regBusy st c then (s, .ends .stay) else (s, .data (.ok (bytesOf n (s.regRead q).toNat)))
    | _ => (s, .data (.ok (bytesOf n (s.regRead q).toNat)))
  | .extent pa =>
    if s.channelBusy false pa then (s, .ends .stay)
    else
      let (s1, d) := s.dramRead pa n
      (s1, .data d)
  | .page attr pa =>
    if paClass pa == .dram then
      if s.memoryWaits i va pa n attr pol false then (s, .ends .stay)
      else
        let (s1, d) := s.readDram i l va pa n attr pol
        (s1, .data d)
    else
      let t := s.team i.op.team
      let s0 := if attr == attrSC then s.relDev i.op.team i.op.grp l else s
      let (s1, r) := s0.linkCall t.ctx (.lane i.op.team i.op.grp l) 0 pa n []
      match r with
      | .pending => (s1, .ends .stay)
      | .refused => (s1, .ends (.fault cProtection 0 (BitVec.ofNat 64 va)))
      | .answered b => (s1, .data (.ok (overlayWo (s1.threadOf i l).wo va pa b)))

/-- A lane's write at a checked spot. `tag` is the tag an SCR store of width Q leaves (R43). -/
def State.writeSpot (s : State) (i : Iss) (l va : Nat) (pol : BitVec 2) (p : Spot) (bs : List Byte) (tag : Bool) : State × LaneEnd :=
  match p with
  | .scr off => ((s.scrWrite i.op.team off bs tag).noteWrite i.op.team i.op.grp l true off bs.length, .next)
  | .reg _ =>
    match i.team.place with
    | .foehn st c => (s.regStore st { core := c, pa := va, val := BitVec.ofNat 32 (natOf bs), owner := some (i.op.team, i.op.grp, l) }, .next)
    | _ => (s, .next)
  | .extent pa =>
    if s.channelBusy true pa then (s, .stay) else
    let (s0, b) := s.callStore i.op.team pa bs
    let (s1, e) := s0.dramWrite pa b
    match e with
    | some c =>
      let t := s1.team i.op.team
      (s1.post { s1.record t.ctx c 2 5 (t.coreOf i.op.grp) with addr := BitVec.ofNat 64 va }, .next)
    | none => (s1, .next)
  | .page attr pa =>
    if paClass pa == .dram then
      if s.memoryWaits i va pa bs.length attr pol true then (s, .stay)
      else ((s.ownCopies i l pa bs.length).writeLocal i l va pa attr pol bs, .next)
    else if attr == attrWO then
      (s.modThread i.op.team i.op.grp l fun th => { th with wo := th.wo ++ [{ va := va, pa := some pa, policy := pol, data := bs, born := s.tick }] }, .next)
    else
      let t := s.team i.op.team
      let s0 := if attr == attrSC then s.relDev i.op.team i.op.grp l else s
      let (s1, r) := s0.linkCall t.ctx (.lane i.op.team i.op.grp l) 1 pa bs.length bs
      match r with
      | .pending => (s1, .stay)
      | .refused => (s1, .fault cProtection 0 (BitVec.ofNat 64 va))
      | .answered _ => (s1, .next)

/-- The ATOM function code of an operation (R174). -/
def AtomOp.code : AtomOp → Nat
  | .add => 0
  | .and => 1
  | .or => 2
  | .xor => 3
  | .minS => 4
  | .maxS => 5
  | .minU => 6
  | .maxU => 7
  | .xchg => 8
  | .cas => 9
  | .incw => 10
  | .decw => 11
  | .fadd => 12
  | .fmin => 13
  | .fmax => 14
  | .faddH2 => 15
  | .faddB2 => 16

/-- An atomic on a page beyond a link: one atomic request to a peer, which takes no float operation (R426); a read and a write
to the host. -/
def State.atomLink (s : State) (i : Iss) (l va pa n : Nat) (op : AtomOp) (y c : Nat) : State × Got :=
  let ctx := (s.team i.op.team).ctx
  let o : LinkOwner := .lane i.op.team i.op.grp l
  let refuse : LaneEnd := .fault cProtection 0 (BitVec.ofNat 64 va)
  if paClass pa != .host then
    if op.code ≥ 12 then (s, .ends (.fault cAttribute 0 (BitVec.ofNat 64 va)))
    else
      let (s1, r) := s.linkCall ctx o 2 pa n (bytesOf 1 op.code ++ bytesOf n y ++ bytesOf n c)
      match r with
      | .pending => (s1, .ends .stay)
      | .refused => (s1, .ends refuse)
      | .answered b => (s1, .data (.ok b))
  else match s.linkAtomOld o with
    | some old =>
      let (s1, r) := s.linkCall ctx o 3 pa n []
      match r with
      | .pending => (s1, .ends .stay)
      | .refused => (s1, .ends refuse)
      | .answered _ => (s1, .data (.ok old))
    | none =>
      match s.links.find? fun r => r.owner == o && r.kind == 5 with
      | none => (s.linkPost ctx o 5 pa n [], .ends .stay)
      | some r => match r.answer with
        | none => (s, .ends .stay)
        | some (true, _) => ({ s with links := s.links.filter fun x => x.id != r.id }, .ends refuse)
        | some (false, b) =>
          let new := bytesOf n (atomNew op (8 * n) (natOf b) y c)
          (({ s with links := s.links.map (LinkReq.writeHalf o b new) } : State).wakeLine pa, .ends .stay)

/-- An atomic at a location of this device's DRAM (R176): at home, or for an IP page in the holder's L1. -/
def State.atomLocal (s : State) (i : Iss) (l va pa n : Nat) (attr : BitVec 2) (f : Nat → Nat) : State × Data :=
  let t := s.team i.op.team
  let core := t.coreOf i.op.grp
  let asid := s.asidOf t.ctx
  if attr == attrIP then
    let (s1, d) := s.l1Read (ipCore t core va) asid va pa n true
    match d with
    | .ok b => (s1.l1PutAll (ipCore t core va) asid va pa true (bytesOf n (f (natOf b))), d)
    | .bad _ => (s1, d)
  else
    let s0 := if attr == attrSC then s.relDev i.op.team i.op.grp l else s.l1Bypass (l1Core t core va) asid va n
    let (s1, d0) := s0.homeRead asid va pa n true
    match d0 with
    | .ok b0 =>
      let (s2, b) := s1.outRead pa b0
      (s2.homeWrite asid va pa (bytesOf n (f (natOf b))) true, .ok b)
    | .bad _ => (s1, d0)

/-- One lane's atomic at a checked spot: the old bytes (R164, R174 to R177). -/
def State.atomSpot (s : State) (i : Iss) (l va n : Nat) (op : AtomOp) (y c : Nat) (p : Spot) : State × Got :=
  let f (x : Nat) : Nat := atomNew op (8 * n) x y c
  match p with
  | .scr off =>
    if (s.team i.op.team).scrBad off n then (s, .data (.bad cUncorrectable))
    else
      let (s1, b) := s.scrRead i.op.team off n
      ((s1.scrWrite i.op.team off (bytesOf n (f (natOf b))) false).noteWrite i.op.team i.op.grp l true off n, .data (.ok b))
  | .reg _ => (s, .ends (.fault cProtection 0 (BitVec.ofNat 64 va)))
  | .extent _ => (s, .ends (.fault cProtection 0 (BitVec.ofNat 64 va)))
  | .page attr pa =>
    if paClass pa == .dram then
      if s.memoryWaits i va pa n attr (if attr == attrIP then 0 else 1) false then (s, .ends .stay)
      else
        let (s1, d) := (s.ownCopies i l pa n).atomLocal i l va pa n attr f
        (s1, .data d)
    else (if attr == attrSC then s.relDev i.op.team i.op.grp l else s).atomLink i l va pa n op y c

/-! ## Lanes in ascending order (R164) -/

/-- A body that runs the lanes one after another through the state. -/
def eachLane (f : Iss → State → Nat → State × LaneOut) (i : Iss) (s : State) : State × List LaneOut :=
  i.lanes.foldl (fun (r : State × List LaneOut) (l : Nat) =>
    let (s1, o) := f i r.1 l
    (s1, r.2 ++ [o])) (s, [])

end Sys2Proof.Machine
end

