-- ==== Sys2Proof/Machine/Memory.lean ====
section
/-! DEFINITION. Majors 0x29 to 0x31 and 0x34: loads, stores, scratch, async copies, atomics, reductions, transactions (06 R161 to
R177, R191 to R194). -/

namespace Sys2Proof.Machine

open Sys2Proof

/-! ## Widths (R47) -/

/-- Bytes of a width code. -/
def widthBytes (w : Nat) : Nat :=
  match w with
  | 0 => 1
  | 1 => 1
  | 2 => 2
  | 3 => 2
  | 4 => 4
  | 5 => 8
  | _ => 16

/-- Registers of a width code. -/
def widthRegs (w : Nat) : Nat := if w = 5 then 2 else if w = 6 then 4 else 1

/-- The words a load of a width delivers: I8 and I16 sign-extend. -/
def extendLoad (w : Nat) (b : List Byte) : List Word :=
  match w with
  | 1 => [BitVec.ofInt 32 (sextInt 8 (natOf b))]
  | 3 => [BitVec.ofInt 32 (sextInt 16 (natOf b))]
  | _ => wordsOf (widthRegs w) (natOf b)

/-- pair + idx * size modulo 2^64, and idx * size as the capability check takes it (R42, R161). -/
def address (base : Nat) (idx : Int) (size : Nat) : Nat × Nat :=
  let off := ((idx * size) % (2 ^ 64 : Nat)).toNat
  ((base + off) % 2 ^ 64, off)

/-! ## Transactions: the accesses inside (R192) -/

/-- The bytes of a word with the ones that the mask names taken from another. -/
def maskMerge (old new : Word) (m : BitVec 4) : Word :=
  let sel (k : Nat) : Nat := ((if m.getLsbD k then new else old).toNat / 2 ^ (8 * k) % 256) * 2 ^ (8 * k)
  BitVec.ofNat 32 (sel 0 + sel 1 + sel 2 + sel 3)

/-- Bytes [off, off + n) of a word as a mask. -/
def byteMask (off n : Nat) : BitVec 4 := BitVec.ofNat 4 ((2 ^ n - 1) * 2 ^ off)

/-- The limits of R192: 16 words read, 8 written, 4 lines. -/
def Txn.fits (x : Txn) : Bool := decide ((x.reads.map (·.1)).eraseDups.length ≤ 16) && decide (x.writes.length ≤ 8) && decide (x.lines.length ≤ 4)

def Txn.touch (x : Txn) (va : Nat) : Txn := if x.lines.contains (va / 64) then x else { x with lines := va / 64 :: x.lines }

/-- A word with its value put into the read set: a second value of a word stands beside the first, and validation then finds a mismatch. -/
def Txn.read (x : Txn) (va : Nat) (w : Word) : Txn := if x.reads.contains (va, w) then x else { x with reads := (va, w) :: x.reads }

/-- One word as the transaction sees it: its own stores over what the home slice holds now. A word that the lane's own stores cover whole is
not read and joins no read set, a point on which the spec is silent (DESIGN CHOICE log 70). -/
def txnWord (s : State) (i : Iss) (l va pa : Nat) (attr : BitVec 2) (x : Txn) : State × Data × Txn :=
  let own (w : Word) : List Byte := bytesOf 4 (match x.writes.find? (fun (w : Nat × Word × BitVec 4) => w.1 == va) with
    | some (_, v, m) => maskMerge w v m
    | none => w).toNat
  match x.writes.find? (fun (w : Nat × Word × BitVec 4) => w.1 == va) with
  | some (_, v, 15) => (s, .ok (bytesOf 4 v.toNat), x)
  | _ =>
    let (s1, d) := (s.ownCopies i l pa 4).readLocal i l va pa 4 attr 1
    match d with
    | .ok b => (s1, .ok (own (BitVec.ofNat 32 (natOf b))), x.read va (BitVec.ofNat 32 (natOf b)))
    | .bad c => (s1, .bad c, x)

/-- The words of a load inside a transaction. -/
def txnLoadWords (s : State) (i : Iss) (l va0 pa0 : Nat) (attr : BitVec 2) (x : Txn) : List (Nat × Nat × Nat) → State × Data × Txn
  | [] => (s, .ok [], x)
  | (a, off, n) :: r =>
    let (s1, d, x1) := txnWord s i l a (pa0 + (a + off - va0) - off) attr (x.touch a)
    match d with
    | .bad c => (s1, .bad c, x1)
    | .ok b =>
      let (s2, rest, x2) := txnLoadWords s1 i l va0 pa0 attr x1 r
      match rest with
      | .ok bs => (s2, .ok ((b.drop off).take n ++ bs), x2)
      | .bad c => (s2, .bad c, x2)

/-- A store inside a transaction, held word by word. -/
def txnStoreWords (x : Txn) (bs : List Byte) : List (Nat × Nat × Nat) → Txn
  | [] => x
  | (a, off, n) :: r =>
    let new := mergeWord 0 off (bs.take n)
    let m := byteMask off n
    let ws := match x.writes.find? (fun (w : Nat × Word × BitVec 4) => w.1 == a) with
      | some (_, v, m0) => x.writes.map fun (w : Nat × Word × BitVec 4) => if w.1 == a then (a, maskMerge v new m, m0 ||| m) else w
      | none => (a, new, m) :: x.writes
    txnStoreWords ({ x with writes := ws }.touch a) (bs.drop n) r

/-- The policy under which an access of a lane is performed: inside a transaction .d, at the home slice (R192). -/
def State.polOf (s : State) (i : Iss) (l : Nat) (pol : BitVec 2) : BitVec 2 := if (s.threadOf i l).txn.isSome then 1 else pol

def State.setTxn (s : State) (i : Iss) (l : Nat) (x : Txn) : State :=
  s.modThread i.op.team i.op.grp l fun th => { th with txn := some x }

/-- Where an access may not join: WO and IP pages and scratch abort with ATTRIBUTE; a page beyond a link has no home slice to
hold the transaction's words, and aborts with CAPACITY (R192, DEDUCED log 14). -/
def txnSpot : Spot → Except Nat (BitVec 2 × Nat)
  | .page attr pa => if attr == attrWO || attr == attrIP then .error 6 else if paClass pa == .dram then .ok (attr, pa) else .error 3
  | _ => .error 6

def txnRead (s : State) (i : Iss) (l va n : Nat) (p : Spot) (x : Txn) : State × Got :=
  match txnSpot p with
  | .error c => (s, .ends (.abort c))
  | .ok (attr, pa) =>
    if s.memoryWaits i va pa n attr 1 false then (s, .ends .stay)
    else
      let (s1, d, x1) := txnLoadWords s i l va pa attr x (wordsIn va n)
      if x1.fits then (s1.setTxn i l x1, .data d) else (s1, .ends (.abort 3))

def txnWrite (s : State) (i : Iss) (l va : Nat) (p : Spot) (bs : List Byte) (x : Txn) : State × LaneEnd :=
  match txnSpot p with
  | .error c => (s, .abort c)
  | .ok _ =>
    let x1 := txnStoreWords x bs (wordsIn va bs.length)
    if x1.fits then (s.setTxn i l x1, .next) else (s, .abort 3)

/-! ## Loads (R37, R168, R171) -/

/-- The lanes of an operation that stand at it still. -/
def standingOf (outs : List LaneOut) : List Nat := (outs.filter (·.ends.stands)).map (·.lane)

/-- The value of the highest lane. -/
def highest (lanes : List LoadLane) : List LoadLane :=
  (lanes.foldl (fun (r : Option LoadLane) (y : LoadLane) => match r with
    | some x => if x.lane < y.lane then some y else r
    | none => some y) none).toList

/-- A load into common registers to which lanes of an operation belong that stood at it: what they bring now is added, and it waits for those that
stand on (R249). -/
def Load.join (ran : List Nat) (lanes : List LoadLane) (standing : List Nat) (d : Load) : Load :=
  { d with lanes := highest (d.lanes ++ lanes), rest := d.rest.filter (fun l => !ran.contains l) ++ standing }

/-- The load of an operation, as it waits to land, with its registers emptied: z takes nothing (R27), a c register the highest
lane, for which it waits while lanes stand (R249). -/
def State.startLoad (s : State) (i : Iss) (d : Reg) (w : BitVec 3) (lanes : List LoadLane) (standing : List Nat) : State :=
  let n := widthRegs w.toNat
  let r := d.toNat
  let isC := decide (r ≥ 96)
  let mine (x : Load) : Bool := x.isC && x.team == i.op.team && x.grp == i.op.grp && x.reg == r - 96 && x.rest.any i.lanes.contains
  if r ≥ 112 || (lanes.isEmpty && !isC) then s
  else if isC && s.loads.any mine then
    { s with loads := s.loads.map fun x => if mine x then x.join i.lanes lanes standing else x }
  else if lanes.isEmpty && standing.isEmpty then s
  else
    let keep := if isC then highest lanes else lanes
    let s1 := s.modTeam i.op.team fun t => t.emptyRegs i.op.grp i.op.base d n (lanes.map (·.lane) ++ if isC then standing else [])
    { s1 with loads := s1.loads ++ [{ team := i.op.team, grp := i.op.grp, isC := isC,
                                       reg := if isC then r - 96 else i.op.base + r, count := n, width := w, lanes := keep,
                                       dropped := [], rest := if isC then standing else [], born := s.tick }] }

/-- What one lane's load brought: a landing value or error mark, or another end. -/
def loadLane (l va : Nat) (w : BitVec 3) (tag : Bool) : Got → Except LaneEnd LoadLane
  | .ends e => .error e
  | .data (.ok b) => .ok { lane := l, words := extendLoad w.toNat b, err := none, addr := BitVec.ofNat 64 va, tag := tag }
  | .data (.bad c) => .ok { lane := l, words := [], err := some c, addr := BitVec.ofNat 64 va, tag := false }

/-- The memory requests of a core that are outstanding: the lanes of its loads that have not landed and the parts of its copies (00 R3). -/
def State.outstanding (s : State) (core : Nat) : Nat :=
  s.loads.foldl (fun n d => if (s.team d.team).coreOf d.grp = core then n + d.lanes.length else n) 0 +
    (s.copies.filter fun c => (s.team c.team).coreOf c.grp == core).length

/-- Whether a core can take `n` more of the 4,096 requests that it may have outstanding (00 R3); an operation beyond them waits. -/
def State.takes (s : State) (i : Iss) (n : Nat) : Bool := decide (s.outstanding (i.team.coreOf i.op.grp) + n ≤ 4096)

/-- A loading body: each lane in order brings a landing value or ends otherwise. -/
def loadBody (d : Reg) (w : BitVec 3) (f : Iss → State → Nat → State × Except LaneEnd LoadLane) (i : Iss) (s : State) :
    State × List LaneOut :=
  if !s.takes i i.lanes.length then (s.startLoad i d w [] i.lanes, i.lanes.map fun l => LaneOut.only l .pend)
  else
  let (s1, outs, lanes) := i.lanes.foldl (fun (r : State × List LaneOut × List LoadLane) (l : Nat) =>
    let (s1, x) := f i r.1 l
    match x with
    | .ok y => (s1, r.2.1 ++ [LaneOut.only l .next], r.2.2 ++ [y])
    | .error e => (s1, r.2.1 ++ [LaneOut.only l e], r.2.2)) (s, [], [])
  (s1.startLoad i d w lanes (standingOf outs), outs)

/-- Whether the slot of a scratch spot holds a capability tag (R43). -/
def State.slotTag (s : State) (tm : Nat) (w : BitVec 3) : Spot → Bool
  | .scr off => w == 6 && (s.team tm).pool.scrTags.contains (off / 16)
  | _ => false

/-- A load in each lane from the global address `addr`, checked and performed (R168). -/
def loadFrom (pol : BitVec 2) (w : BitVec 3) (d a : Reg) (srcs : List (Reg × Nat)) (addr : Iss → Nat → Nat × Nat) : State → Out :=
  let n := widthBytes w.toNat
  issue { Form.plain srcs (some (d, widthRegs w.toNat)) .g with roles := rolesMemory }
    (loadBody d w fun i s l =>
      let (va, off) := addr i l
      let (s1, c) := s.check i l va a off ((askLoad n).policy (s.polOf i l pol))
      match c with
      | .error e => (s1, .error e)
      | .ok p =>
        let (s2, g) := match (s1.threadOf i l).txn with
          | some x => txnRead s1 i l va n p x
          | none => s1.readSpot i l va n pol p
        (s2, loadLane l va w (s1.slotTag i.op.team w p) g))

/-- LD (R168). -/
def execLd (pol : BitVec 2) (w : BitVec 3) (d a b : Reg) (s : State) : Out :=
  loadFrom pol w d a [(a, 2), (b, 1)] (fun i l => address (i.view.pair a l) (i.view.reg b l).toInt (widthBytes w.toNat)) s

/-- LDI: always policy .c. -/
def execLdi (w : BitVec 3) (d a : Reg) (off : BitVec 9) (s : State) : Out :=
  loadFrom 0 w d a [(a, 2)] (fun i l => address (i.view.pair a l) off.toInt (widthBytes w.toNat)) s

/-! ## Stores (R169, R444) -/

/-- The bytes a store takes from its source. -/
def storeBytes (i : Iss) (d : Reg) (w : BitVec 3) (l : Nat) : List Byte :=
  bytesOf (widthBytes w.toNat) (natOfWords (i.view.words d (widthRegs w.toNat) l))

/-- Whether a lower lane of the operation stores to the same PATCTL: the store of this lane is then not performed (R446). -/
def regOrder (i : Iss) (addr : Iss → Nat → Nat × Nat) (l va : Nat) : Bool :=
  match regPlace va with
  | .phy _ _ off => off == offPatctl && i.lanes.any (fun j => decide (j < l) && (addr i j).1 == va)
  | _ => false

/-- A store in each lane to the global address `addr` (R169). -/
def storeTo (pol : BitVec 2) (w : BitVec 3) (d a : Reg) (srcs : List (Reg × Nat)) (addr : Iss → Nat → Nat × Nat) : State → Out :=
  let n := widthBytes w.toNat
  issue { Form.plain srcs none .table with roles := rolesMemory } (eachLane fun i s l =>
    let (va, off) := addr i l
    let (s1, c) := s.check i l va a off ((askStore n).policy (s.polOf i l pol))
    match c with
    | .error e => (s1, .only l e)
    | .ok p =>
      let bs := storeBytes i d w l
      let (s2, e) := match p, (s1.threadOf i l).txn with
        | .reg _, _ => if regOrder i addr l va then (s1, .next) else s1.writeSpot i l va pol p bs false
        | _, some x => txnWrite s1 i l va p bs x
        | _, none => s1.writeSpot i l va pol p bs false
      (s2, .only l e))

/-- ST (R169). -/
def execSt (pol : BitVec 2) (w : BitVec 3) (d a b : Reg) (s : State) : Out :=
  storeTo pol w d a [(a, 2), (b, 1), (d, widthRegs w.toNat)]
    (fun i l => address (i.view.pair a l) (i.view.reg b l).toInt (widthBytes w.toNat)) s

/-- STI: policy .c. -/
def execSti (w : BitVec 3) (d a : Reg) (off : BitVec 9) (s : State) : Out :=
  storeTo 0 w d a [(a, 2), (d, widthRegs w.toNat)] (fun i l => address (i.view.pair a l) off.toInt (widthBytes w.toNat)) s

/-! ## Scratch (R161, R171) -/

/-- The scratch offset n(a) + s(b) * size, exact; below 0 it lies outside (R161). -/
def scrOffset (i : Iss) (a b : Reg) (w : BitVec 3) (l : Nat) : Int :=
  (i.view.reg a l).toNat + (i.view.reg b l).toInt * widthBytes w.toNat

/-- Checks 1 and 3 of R163 for a scratch offset; during a relocation the access stalls before its bounds are tested (05 R138). -/
def State.checkScr (s : State) (i : Iss) (off : Int) (n align : Nat) : Option LaneEnd :=
  if off % align ≠ 0 then some (.fault cMisaligned 0 (BitVec.ofInt 64 off))
  else if s.relocating i.op.team then some .pend
  else if off < 0 ∨ !(s.team i.op.team).scrIn off.toNat n then some (.fault cScratch 0 (BitVec.ofInt 64 off))
  else none

/-- SCR.LD (R171): performed at once inside a transaction too (R192). -/
def execScrLd (w : BitVec 3) (d a b : Reg) (s : State) : Out :=
  issue (Form.plain [(a, 1), (b, 1)] (some (d, widthRegs w.toNat)) .g)
    (loadBody d w fun i s l =>
      let off := scrOffset i a b w l
      match s.checkScr i off (widthBytes w.toNat) (widthBytes w.toNat) with
      | some e => (s, .error e)
      | none =>
        let (s1, g) := s.readSpot i l off.toNat (widthBytes w.toNat) 0 (.scr off.toNat)
        (s1, loadLane l off.toNat w (s.slotTag i.op.team w (.scr off.toNat)) g)) s

/-- SCR.ST (R43, R171): a quad whose capability has PASS leaves its tag in the slot. -/
def execScrSt (w : BitVec 3) (d a b : Reg) (s : State) : Out :=
  issue (Form.plain [(a, 1), (b, 1), (d, widthRegs w.toNat)] none .table) (eachLane fun i s l =>
    let off := scrOffset i a b w l
    match s.checkScr i off (widthBytes w.toNat) (widthBytes w.toNat) with
    | some e => (s, .only l e)
    | none =>
      let tag := w == 6 && i.view.capTag d l && decide (Nat.land permPass (capPerm (i.view.quad d l)) ≠ 0)
      ((s.scrWrite i.op.team off.toNat (storeBytes i d w l) tag).noteWrite i.op.team i.op.grp l true off.toNat (widthBytes w.toNat),
       .only l .next)) s

end Sys2Proof.Machine
end

