-- ==== Sys2Proof/Machine/Record.lean ====
section
/-! DEFINITION. The record of a saved team (10 R283 to R286), and the sizes of a tile that it needs (01 R44, 05 R144). -/

namespace Sys2Proof.Machine

open Sys2Proof

/-! ## Tiles -/

/-- Bits of an element (R44). -/
def elemBits (fmt : Nat) : Nat :=
  match fmt with
  | 0 => 64
  | 1 => 32
  | 2 => 16
  | 3 => 16
  | 7 => 4
  | _ => 8

/-- Fields of a shape word (R44). -/
def shapeRows (w : Word) : Nat := (w.extractLsb' 0 8).toNat + 1
def shapeCols (w : Word) : Nat := (w.extractLsb' 8 8).toNat + 1
def shapeFmt (w : Word) : Nat := (w.extractLsb' 16 4).toNat
def shapeScale (w : Word) : Nat := (w.extractLsb' 20 8).toNat

/-- Bytes for one row's elements, and the row size rounded up to 4. -/
def rowBytes (w : Word) : Nat := (shapeCols w * elemBits (shapeFmt w) + 7) / 8
def rowSize (w : Word) : Nat := (rowBytes w + 3) / 4 * 4
def tileBytes (w : Word) : Nat := shapeRows w * rowSize w

/-! ## Sections -/

/-- Bytes followed by zeros up to a multiple of 64. -/
def pad64 (b : List Byte) : List Byte := b ++ List.replicate ((64 - b.length % 64) % 64) 0

/-- Size rounded up to a multiple of 64. -/
def up64 (n : Nat) : Nat := (n + 63) / 64 * 64

def CReg.isMarked (c : CReg) : Bool := c.mark.isSome

/-- The marked common registers, 16 bytes each (R284). -/
def cregMarks : Nat → List CReg → List Byte
  | _, [] => []
  | i, c :: r =>
    (match c.mark with
      | some (k, a) => bytesOf 1 i ++ bytesOf 1 k.toNat ++ bytesOf 6 0 ++ bytesOf 8 a.toNat
      | none => []) ++ cregMarks (i + 1) r

/-- A group record (R285). -/
def Role.code : Role → Nat
  | .general => 0
  | .copy => 1
  | .matrix => 2
  | .vector => 3

def Group.recordBytes (g : Group) : List Byte := bytesOf 4 g.gcr.toNat ++ bytesOf 1 g.role.code ++ bytesOf 11 0

/-- A thread record (R285). -/
def Thread.recordBytes (th : Thread) : List Byte :=
  let flags := th.exited.toNat + 2 * th.arrived.toNat + 4 * th.park.isSome.toNat + 8 * th.sys.toNat + 16 * th.wait.isSome.toNat
  bytesOf 8 th.pc.toNat ++ bytesOf 8 th.meet.toNat ++ bytesOf 8 th.tpc.toNat ++ bytesOf 8 th.taddr.toNat ++ bytesOf 4 th.tcause.toNat ++
    bytesOf 4 th.fx.toNat ++ bytesOf 4 th.rng.toNat ++ bytesOf 2 th.base ++ bytesOf 1 flags ++ bytesOf 9 0 ++ bytesOf 8 th.capTags.toNat

/-- A register record (R286); a marked register is stored as G with its mask. -/
def VReg.recordBytes (gw : Nat) (v : VReg) : List Byte :=
  let words (vs : List Word) : List Byte := vs.flatMap fun w => bytesOf 4 w.toNat
  if v.marks.isEmpty then
    match v.shape with
    | .u x => bytesOf 1 0 ++ words [x]
    | .a b s => bytesOf 1 1 ++ words [b, s]
    | .g vs => bytesOf 1 2 ++ words vs
  else bytesOf 1 6 ++ words (v.shape.expand gw) ++ bytesOf 8 (maskOf (v.marks.map (·.lane))).toNat

/-- `n` bytes of a memory from `a`, one pass over its entries. -/
def imageFrom (m : Mem) (a : Nat) : Nat → List Byte
  | 0 => []
  | n + 1 => match m with
    | [] => 0 :: imageFrom [] (a + 1) n
    | (k, v) :: r => if k = a then v :: imageFrom r (a + 1) n else 0 :: imageFrom ((k, v) :: r) (a + 1) n

/-- Bytes [a, a + n) of a memory. -/
def image (m : Mem) (a n : Nat) : List Byte := imageFrom (m.filter fun e => decide (a ≤ e.1)) a n

/-- The image of `banks` banks, on both halves of a pair team, the upper half from `half` on. -/
def bankImage (m : Mem) (pair : Bool) (half banks : Nat) : List Byte :=
  image m 0 (8192 * banks) ++ if pair then image m half (8192 * banks) else []

/-- The slot tags of `banks` banks, a bit for each 16 bytes. -/
def tagImage (tags : List Nat) (first : Nat) (banks : Nat) : List Byte :=
  (List.range (64 * banks)).map fun k =>
    BitVec.ofNat 8 (((List.range 8).map fun j => if tags.contains (first + 8 * k + j) then 2 ^ j else 0).sum)

/-- The latched B section: shape word, zeros, data (R283). -/
def Latch.recordBytes (l : Latch) : List Byte := pad64 (bytesOf 4 l.shape.toNat ++ bytesOf 60 0 ++ image l.data 0 (tileBytes l.shape))

/-- A pending arrival (R284). -/
def PendingArrival.bytes (p : PendingArrival) : List Byte :=
  bytesOf 4 p.off ++ bytesOf 1 p.kind ++ bytesOf 3 0 ++ bytesOf 4 p.value.toNat ++ bytesOf 4 p.status.toNat

/-- A held WO store of thread `tid` (R284). -/
def WoStore.recordBytes (tid : Nat) (w : WoStore) : List Byte :=
  bytesOf 8 w.va ++ bytesOf 4 tid ++ bytesOf 1 w.data.length ++ bytesOf 1 w.policy.toNat ++ bytesOf 2 0 ++
    w.data ++ List.replicate (16 - w.data.length) 0

/-- A store put among others by age, after those as old. -/
def putByAge (x : Nat × WoStore) : List (Nat × WoStore) → List (Nat × WoStore)
  | [] => [x]
  | y :: r => if x.2.born < y.2.born then x :: y :: r else y :: putByAge x r

/-- Every held WO store of a team with the number of its thread, oldest first (R270, R284). -/
def Team.heldWo (t : Team) : List (Nat × WoStore) :=
  ((t.groups.mapIdx fun g gr => (gr.threads.mapIdx fun l th =>
    th.wo.map fun w => (g * t.gw + l, w)).flatten).flatten).foldl (fun r x => putByAge x r) []

/-- A tile of the header (R284). -/
def tileBytes8 (x : Option Tile) : List Byte :=
  match x with
  | some t => bytesOf 4 t.shape.toNat ++ bytesOf 4 t.off
  | none => bytesOf 4 0xffffffff ++ bytesOf 4 0

/-- Whether the saved team was pre-empted, whether the watchdog holds it, and the clock of its save. -/
def Team.savedAs (t : Team) : Bool × Bool × Nat :=
  match t.place with
  | .saved c p h _ => (p, h, c)
  | _ => (false, false, 0)

/-- The register section before padding. -/
def Team.registerBytes (t : Team) : List Byte := t.groups.flatMap fun g => g.regs.flatMap (VReg.recordBytes t.gw)

/-- The current priority that the header holds: of a team that is out, the one at its save (R284). -/
def Team.headPrio (t : Team) : Nat :=
  match t.place with
  | .saved _ _ _ _ => t.savePrio
  | _ => t.curPrio

/-- The header (R284). -/
def Team.header (t : Team) : List Byte :=
  let (pre, held, clock) := t.savedAs
  let marked := (t.cregs.filter CReg.isMarked).length
  let e := t.eng
  bytesOf 4 t.handle ++ bytesOf 4 t.index ++ bytesOf 2 t.ctx ++ bytesOf 1 t.prio ++ bytesOf 1 t.headPrio ++ bytesOf 1 t.groups.length ++
    bytesOf 1 (t.pair.toNat + 2 * pre.toNat + 4 * held.toNat + 8 * marked) ++ bytesOf 1 (t.nregs / 8) ++ bytesOf 1 t.gw ++
    bytesOf 8 clock ++ bytesOf 1 t.pool.scrBanks ++ bytesOf 1 t.pool.mxsBanks ++ bytesOf 2 t.heldWo.length ++
    bytesOf 4 t.registerBytes.length ++ bytesOf 4 ((e.latch.map fun l => l.recordBytes.length).getD 0) ++
    bytesOf 4 t.arrivals.length ++ bytesOf 4 e.queue.length ++ bytesOf 4 e.mcr.toNat ++ bytesOf 4 e.mfx.toNat ++
    bytesOf 4 e.seq.toNat ++ bytesOf 4 t.cmdCounter ++ bytesOf 4 e.egen.toNat ++
    t.cregs.flatMap (fun c => bytesOf 4 (if c.isMarked then 0 else c.val.toNat)) ++ e.tiles.flatMap tileBytes8

/-- The record without its last section; `half` and `halfM` are where the upper halves of scratch and tile storage begin. In a pair's record
the upper half of a section stands behind the lower, and the header counts one core's banks (R283, DESIGN CHOICE log 61). -/
def Team.recordBytes (t : Team) (half halfM : Nat) : List Byte :=
  let p := t.pool
  t.header ++ pad64 (cregMarks 0 t.cregs) ++ pad64 (t.groups.flatMap Group.recordBytes) ++
    t.groups.flatMap (fun g => g.threads.flatMap Thread.recordBytes) ++ pad64 t.registerBytes ++
    bankImage p.scr t.pair half p.scrBanks ++
    (tagImage p.scrTags 0 p.scrBanks ++ if t.pair then tagImage p.scrTags (half / 16) p.scrBanks else []) ++
    bankImage p.mxs t.pair halfM p.mxsBanks ++ (t.eng.latch.map Latch.recordBytes).getD [] ++
    pad64 (t.arrivals.flatMap PendingArrival.bytes) ++ pad64 (t.heldWo.flatMap fun w => w.2.recordBytes w.1)

end Sys2Proof.Machine
end

