-- ==== Sys2Proof/Machine/Barrier.lean ====
section
/-! DEFINITION. Barrier objects (06 R178 to R184): their 16 bytes, the indivisible steps on them and the places where these are
performed; pins of the page-lock table (18 R404); the checks of an object that an agent will reach later (R483). -/

namespace Sys2Proof.Machine

open Sys2Proof

/-! ## The object (R178) -/

/-- A barrier object; `pendBytes` as a 32-bit pattern. -/
structure BarObj where
  expArr : Nat
  pendArr : Nat
  pendBytes : Word
  expBytes : Nat
  phase : Nat
  ext : Bool
  err : Bool
  origin : Nat
  code : Nat
  deriving DecidableEq, Repr

/-- The object of four words. -/
def BarObj.ofBytes (b : List Byte) : BarObj :=
  let w (k : Nat) : Nat := natOf ((b.drop (4 * k)).take 4)
  { expArr := w 0 / 65536, pendArr := w 0 % 65536, pendBytes := BitVec.ofNat 32 (w 1), expBytes := w 2 / 256, phase := w 2 % 256,
    ext := w 3 / 2 ^ 31 % 2 == 1, err := w 3 / 2 ^ 30 % 2 == 1, origin := w 3 / 256 % 256, code := w 3 % 256 }

/-- The status word at +12, EXTERNAL in bit 31 (06 R178); the WATCHDOG row of 20 R441 shows a receiver's without it (DEDUCED log 74). -/
def BarObj.status (o : BarObj) : Word :=
  BitVec.ofNat 32 (o.ext.toNat * 2 ^ 31 + o.err.toNat * 2 ^ 30 + o.origin * 256 + o.code)

def BarObj.bytes (o : BarObj) : List Byte :=
  bytesOf 4 (o.expArr * 65536 + o.pendArr) ++ bytesOf 4 o.pendBytes.toNat ++ bytesOf 4 (o.expBytes * 256 + o.phase) ++
    bytesOf 4 o.status.toNat

/-! ## Steps (R179, R181, R182, R184) -/

inductive BarStep where
  | init (arr exp : Nat) (ext : Bool)
  | arrive (n : Nat)
  | arriveBytes (v : Word)
  | expect (v : Word)
  | land (n : Nat)
  | error (origin code : Nat)
  deriving DecidableEq, Repr

/-- The test after a step: both counts zero advance the phase and re-arm the object (R179). -/
def BarObj.test (o : BarObj) : BarObj :=
  if o.pendArr = 0 ∧ o.pendBytes = 0 then
    { o with phase := (o.phase + 1) % 256, pendArr := o.expArr, pendBytes := BitVec.ofNat 32 o.expBytes }
  else o

/-- One step. Arrivals beyond PEND_ARR are discarded; a count of 0 is no arrival. -/
def BarStep.apply (k : BarStep) (o : BarObj) : BarObj :=
  match k with
  | .init arr exp ext =>
    let n := if arr = 0 then 1 else arr
    { expArr := n, pendArr := n, pendBytes := BitVec.ofNat 32 exp, expBytes := exp, phase := 0, ext := ext, err := false,
      origin := 0, code := 0 }
  | .arrive n => if n = 0 then o else ({ o with pendArr := o.pendArr - n } : BarObj).test
  | .arriveBytes v => ({ o with pendArr := o.pendArr - 1, pendBytes := o.pendBytes + v } : BarObj).test
  | .expect v => ({ o with pendBytes := o.pendBytes + v } : BarObj).test
  | .land n => ({ o with pendBytes := o.pendBytes - BitVec.ofNat 32 n } : BarObj).test
  | .error origin code => if o.err then o else { o with err := true, origin := origin, code := code }

/-- A step as the payload of a link request (R428): its number and its values. -/
def BarStep.payload : BarStep → List Byte
  | .init a e x => bytesOf 1 0 ++ bytesOf 4 a ++ bytesOf 4 e ++ bytesOf 1 x.toNat
  | .arrive n => bytesOf 1 1 ++ bytesOf 4 n
  | .arriveBytes v => bytesOf 1 2 ++ bytesOf 4 v.toNat
  | .expect v => bytesOf 1 3 ++ bytesOf 4 v.toNat
  | .land n => bytesOf 1 4 ++ bytesOf 4 n
  | .error o c => bytesOf 1 5 ++ bytesOf 1 o ++ bytesOf 1 c

/-- The step of a payload. -/
def BarStep.ofPayload (b : List Byte) : BarStep :=
  let w (o n : Nat) : Nat := natOf ((b.drop o).take n)
  match w 0 1 with
  | 0 => .init (w 1 4) (w 5 4) (w 9 1 == 1)
  | 1 => .arrive (w 1 4)
  | 2 => .arriveBytes (BitVec.ofNat 32 (w 1 4))
  | 3 => .expect (BitVec.ofNat 32 (w 1 4))
  | 4 => .land (w 1 4)
  | _ => .error (w 1 1) (w 2 1)

/-- A step as a pending arrival of a team that is out (R211, R284): kind 0 ARRIVE, 1 BYTES, 2 ERROR. -/
def BarStep.pending (off : Nat) : BarStep → PendingArrival
  | .land n => { off := off, kind := 1, value := BitVec.ofNat 32 n, status := 0 }
  | .error o c => { off := off, kind := 2, value := 0, status := BitVec.ofNat 32 (2 ^ 30 + o * 256 + c) }
  | .arrive n => { off := off, kind := 0, value := BitVec.ofNat 32 n, status := 0 }
  | _ => { off := off, kind := 0, value := 0, status := 0 }

/-- The step a pending arrival stands for. -/
def PendingArrival.step (p : PendingArrival) : BarStep :=
  if p.kind = 0 then .arrive p.value.toNat
  else if p.kind = 1 then .land p.value.toNat
  else .error (p.status.toNat / 256 % 256) (p.status.toNat % 256)

/-! ## Where steps are performed (R179) -/

/-- A step on an object in a team's scratch; the cause when a word of it cannot be corrected (00 R13). The slot loses its tag (R43). -/
def State.barScratch (s : State) (tm off : Nat) (k : BarStep) : State × Except (BitVec 8) BarObj :=
  if (s.team tm).scrBad off 16 then (s, .error cUncorrectable)
  else
    let (s1, b) := s.scrRead tm off 16
    let o := BarObj.ofBytes b
    (s1.scrWrite tm off (k.apply o).bytes false, .ok o)

/-- A step on an object at home; the cause when the object cannot be read. In an OUT extent of a running call a main core's
step leaves it undefined (R216, R416). -/
def State.barHome (s : State) (asid va pa : Nat) (mainThread : Bool) (k : BarStep) : State × Except (BitVec 8) BarObj :=
  let (s1, d) := s.homeRead asid va pa 16 true
  match d with
  | .bad c => (s1, .error c)
  | .ok b =>
    let o := BarObj.ofBytes b
    let (nb, s2) := if mainThread && s1.inExtent pa 16 then s1.freeBytes 16 else ((k.apply o).bytes, s1)
    (s2.homeWrite asid va pa nb true, .ok o)

/-- A step on an object in memory, by a thread of a call (R416): the home slice's copy of the line goes back first; the object is undefined
where the main die has written it meanwhile (R216). -/
def State.barMemory (s : State) (tm asid va pa : Nat) (k : BarStep) : State × Except (BitVec 8) BarObj :=
  let (s1, d) := s.memReadY asid va pa 16
  match d with
  | .bad c => (s1, .error c)
  | .ok b =>
    let o := BarObj.ofBytes b
    let (s2, nb) := s1.callStore tm pa (k.apply o).bytes
    ((s2.dramWrite pa nb).1, .ok o)

/-! ## Accesses by physical address (20 R416, R430, R476) -/

/-- The lines of [pa, pa + n) read in memory, every cached name of them written back first. -/
def State.physLines (s : State) : List (Nat × Nat) → State × Data
  | [] => (s, .ok [])
  | (a, n) :: r =>
    let (s1, d) := (s.homeLine 4096 a a).dramRead a n
    match d with
    | .bad c => (s1, .bad c)
    | .ok b =>
      let (s2, rest) := s1.physLines r
      (s2, match rest with
        | .ok l => .ok (b ++ l)
        | .bad c => .bad c)

def State.physRead (s : State) (pa n : Nat) : State × Data := s.physLines (piecesOf pa n)

/-- The group under which the mark of a migration stands, which is no group's. -/
def migLane : Nat := 2 ^ 16

/-- A write of an agent other than a core to a page that is being moved over a link, forwarded to the page's new place (18 R406). -/
def State.forward (s : State) (pa : Nat) (b : List Byte) : State :=
  match s.mem.changing.find? fun m => m.goes.isSome && decide (m.frame ≤ pa) && decide (pa < m.frame + m.size) with
  | some m => (piecesOf pa b.length).foldl (fun (t : State) (p : Nat × Nat) =>
      t.linkPost (t.team m.team).ctx (.cmd m.team m.lane) 1 (m.goes.getD 0 + (p.1 - m.frame)) p.2 ((b.drop (p.1 - pa)).take p.2)) s
  | none => s

/-- Bytes written in memory line by line; the cause of the first line that cannot take them. -/
def State.physStore (s : State) : List (Nat × Nat) → List Byte → State × Option (BitVec 8)
  | [], _ => (s, none)
  | (a, n) :: r, b =>
    let (s1, nb) := (s.homeLine 4096 a a).mainWrite a (b.take n)
    let (s2, e) := s1.dramWrite a nb
    let (s3, e2) := (s2.forward a nb).physStore r (b.drop n)
    (s3, e.or e2)

def State.physWrite (s : State) (pa : Nat) (b : List Byte) : State × Option (BitVec 8) := s.physStore (piecesOf pa b.length) b

/-- Whether such an access waits at a channel (22 R456): the read of a line, that of a write of part of a line, the write, or the write-back of
what the caches hold of the line. -/
def State.physWaits (s : State) (write : Bool) (pa n : Nat) : Bool :=
  !s.channelsOpen && (piecesOf pa n).any fun p =>
    (!(write && p.2 == 64) && s.channelBusy false p.1) || (write && s.channelBusy true p.1) || s.backWaits fun _ _ a => lineOf a == lineOf p.1

/-- Bytes written by the exchange unit; the base die that cannot merge them into a line posts a STORE_ERROR record (22 R459). -/
def State.exchWrite (s : State) (pa : Nat) (b : List Byte) : State :=
  let (s1, e) := s.physWrite pa b
  match e with
  | some c => s1.post { s1.record s1.xchg.descCtx c 2 5 (s1.foehnAt pa) with addr := BitVec.ofNat 64 pa }
  | none => s1

/-! ## Accesses by the launch unit and the exchange unit through a context (R259, R283, R436) -/

/-- The 64 KiB pages of a range: the first byte the range has in each. -/
def pagesOf (va n : Nat) : List Nat :=
  if n = 0 then []
  else (List.range ((va + n - 1) / 65536 - va / 65536 + 1)).map fun k => (if k = 0 then va else (va / 65536 + k) * 65536) % 2 ^ 64

/-- The pieces of [va, va + n) that lie in one page each. -/
def pagePieces (va n : Nat) : List (Nat × Nat) :=
  (pagesOf va n).map fun a => (a, Nat.min (va + n - a) (65536 - a % 65536))

/-- `n` bytes of a context read by the launch unit; none when a page or the data cannot be read (R259). -/
def State.unitRead (s : State) (ctx : Nat) : List (Nat × Nat) → State × Option (List Byte)
  | [] => (s, some [])
  | (va, n) :: r =>
    if !canonicalVa va || inAperture va then (s, none)
    else
      let (s1, t) := s.translate ctx va
      match t with
      | .ok e =>
        if paClass (e.pa va) != .dram then (s1, none)
        else
          let (s2, d) := s1.homeRead (s1.asidOf ctx) va (e.pa va) n true
          match d with
          | .bad _ => (s2, none)
          | .ok b =>
            let (s3, rest) := s2.unitRead ctx r
            (s3, rest.map (b ++ ·))
      | _ => (s1, none)

/-- Bytes written by a unit of the device through a context, over the link on a host or peer page (17 R388); a page that does not translate
posts a STORE_ERROR record. -/
def State.unitWrite (s : State) (ctx : Nat) : List (Nat × Nat) → List Byte → State
  | [], _ => s
  | (va, n) :: r, b =>
    let (s1, t) := if canonicalVa va && !inAperture va then s.translate ctx va else (s, .fault cProtection)
    let s2 := match t with
      | .ok e => if paClass (e.pa va) == PaClass.dram then
            (s1.homeWrite (s1.asidOf ctx) va (e.pa va) (b.take n) true).forward (e.pa va) (b.take n)
          else (piecesOf va n).foldl (fun (t : State) (p : Nat × Nat) =>
            t.linkPost ctx (.device p.1) 1 (e.pa p.1) p.2 ((b.drop (p.1 - va)).take p.2)) s1
      | .absent => s1.postStoreError ctx cNotPresent va
      | .fault c => s1.postStoreError ctx c va
    s2.unitWrite ctx r (b.drop n)

/-- Whether an access of such a unit waits at a channel (22 R456). -/
def State.unitWaits (s : State) (ctx : Nat) (write : Bool) (va n : Nat) : Bool :=
  !s.channelsOpen && (pagePieces va n).any fun p => match (s.translate ctx p.1).2 with
    | .ok e => paClass (e.pa p.1) == .dram && s.physWaits write (e.pa p.1) p.2
    | _ => false

/-- The lines of a record that have changed, as (offset, length). -/
def changedLines (old new : List Byte) : List (Nat × Nat) :=
  (piecesOf 0 new.length).filter fun p => (old.drop p.1).take p.2 != (new.drop p.1).take p.2

/-- Whether a byte of [va, va + n) of a context lies on a host or peer page. -/
def State.beyondLink (s : State) (ctx va n : Nat) : Bool := (pagesOf va n).any fun a => match (s.translate ctx a).2 with
  | .ok e => paClass (e.pa a) != .dram
  | _ => false

/-- The record of a team that is out written again after a change to the team; one that software has written meanwhile is left
as it is and forgotten (R283). Of one beyond a link only the lines that changed are written (DESIGN CHOICE log 23), and what has been read of it
for a restore is read again. -/
def State.rewriteRecord (s : State) (tm : Nat) : State :=
  let t := s.team tm
  if t.saved.isEmpty then s
  else if s.beyondLink t.ctx t.recordAt t.saved.length then
    let b := t.recordBytes halfScr halfMxs ++ t.saved.drop (t.saved.length - 64 * t.eng.queue.length)
    let mine (r : LinkReq) : Bool := match r.owner with
      | .saved x _ => x == tm
      | _ => false
    let s1 := (changedLines t.saved b).foldl (fun (st : State) (p : Nat × Nat) =>
      st.unitWrite t.ctx [(t.recordAt + p.1, p.2)] ((b.drop p.1).take p.2)) { s with links := s.links.filter fun r => !mine r }
    s1.modTeam tm fun t => { t with saved := b }
  else
    let (s1, m) := s.unitRead t.ctx (piecesOf t.recordAt t.saved.length)
    if m != some t.saved then s1.modTeam tm fun t => { t with saved := [] }
    else
      let b := t.recordBytes halfScr halfMxs ++ t.saved.drop (t.saved.length - 64 * t.eng.queue.length)
      (s1.unitWrite t.ctx (pagePieces t.recordAt b.length) b).modTeam tm fun t => { t with saved := b }

/-! ## Shards of the exchange (20 R431, R432, R436) -/

/-- A descriptor entry. -/
structure Descriptor where
  valid : Bool
  ctl : Nat
  count : Nat
  stack : Nat
  opt : Nat
  es : Int
  zero : Bool
  deriving DecidableEq, Repr

def Descriptor.ofBytes (b : List Byte) : Descriptor :=
  let v := natOf b
  { valid := v / 2 ^ 64 % 2 == 1, ctl := v / 2 ^ 18 % 2 ^ 46 * 64, count := v / 2 ^ 74 % 2 ^ 22 + 1, stack := v / 2 ^ 96 % 16,
    opt := v / 2 ^ 100 % 2 ^ 12, es := sextInt 16 (v / 2 ^ 112), zero := v % 2 ^ 18 == 0 && v / 2 ^ 65 % 2 ^ 9 == 0 }

/-- A descriptor of no table. -/
def Descriptor.blank : Descriptor := .ofBytes (bytesOf 16 0)

/-- The address of entry `i` of the table; none before the table's base has been written. -/
def State.entryAddr (s : State) (i : Nat) : Option Nat := s.xchg.descBase.map fun b => localPa (b + 16 * i)

/-- Descriptor `i` read from the table in memory; one that cannot be read is not valid (DESIGN CHOICE log 20). -/
def State.readDescriptor (s : State) (i : Nat) : State × Descriptor :=
  match s.entryAddr i with
  | none => (s, .blank)
  | some a =>
    let (s1, d) := s.physRead a 16
    (s1, .ofBytes (d.bytes 16))

/-- Descriptor `i` as a read of the table finds it. -/
def State.descriptor (s : State) (i : Nat) : Descriptor := (s.readDescriptor i).2

def State.setShard (s : State) (d : Descriptor) (v : Nat) : State := s.exchWrite (d.ctl + 20) (bytesOf 1 v)

/-- The header of a shard; undefined where it cannot be read (DESIGN CHOICE log 20). -/
def State.header (s : State) (d : Descriptor) : State × List Byte :=
  let (s1, h) := s.physRead d.ctl 64
  match h with
  | .ok b => (s1, b)
  | .bad _ => (s1.freeBytes 64).swap

/-- The state byte of a shard's header, as a read of it finds it. -/
def State.shardState (s : State) (d : Descriptor) : Nat := natOf (((s.header d).2.drop 20).take 1)

/-- Whether the PHASE of the arrival barrier has advanced since the round began. -/
def headerAdvanced (h : List Byte) : Bool := natOf ((h.drop 8).take 1) != natOf ((h.drop 28).take 1)

/-- Whether a shard of a header is ACCUMULATING: it is CLOSING from when PHASE advances (R436). -/
def accumulates (h : List Byte) : Bool := natOf ((h.drop 20).take 1) == 0 && !headerAdvanced h

/-- Whether a packet or an arrival has to wait: the shard is, or is about to be, in CLOSING, OPTIMISING or BROADCASTING. -/
def State.shardBusy (s : State) (d : Descriptor) : State × Bool :=
  let (s1, h) := s.header d
  let st := natOf ((h.drop 20).take 1)
  (s1, decide (1 ≤ st) && decide (st ≤ 3) || headerAdvanced h)

/-- The valid shard whose arrival barrier lies at `pa`. -/
def State.shardAt (s : State) (pa : Nat) : Option Descriptor :=
  if s.xchg.descBase.isNone then none
  else ((List.range 4096).map s.descriptor).find? fun d => d.valid && d.ctl == pa

/-- Whether a step on the object at `pa` has to wait for a shard. -/
def State.stepHeld (s : State) (pa : Nat) : State × Option Descriptor :=
  match s.shardAt pa with
  | none => (s, none)
  | some d =>
    let (s1, busy) := s.shardBusy d
    (s1, if busy then some d else none)

/-- A request put into a stack's hold buffer. -/
def State.holdReq (s : State) (d : Descriptor) (r : HeldReq) : State :=
  s.modStack d.stack fun k => { k with hold := k.hold ++ [r] }

/-- The requests that a stack's hold buffer takes (20 R436). A request beyond them is not taken: the port holds its inbound requests back, and a
thread waits. A step that an agent of the device owes (`State.barAgent`) is put behind them all the same: it waits in its agent for a place. -/
def holdLimit : Nat := 256

/-- What stands for the address of a barrier where a command or an MSEQ block names none (R155, R206). -/
def noBarrier : Nat := 2 ^ 64

/-- Whether a step of the device on an object in its memory waits at a channel (22 R456): the object is in no cache. -/
def State.objectWaits (s : State) (va pa : Nat) : Bool :=
  va != noBarrier && !inAperture va && paClass pa == .dram && s.channelBusy false pa &&
    decide ((s.mem.l2.filter fun w => w.pa / 16 == pa / 16).length < 4)

/-- The barrier of a block's field, in which 0 means none. -/
def barrierOf (va : Nat) : Nat := if va = 0 then noBarrier else va

/-- A step that the device performs on an object in a team's scratch; where a word of it cannot be corrected, the team's core posts a STORE_ERROR
record (00 R13, DESIGN CHOICE log 24). -/
def State.agentScratch (s : State) (tm off : Nat) (k : BarStep) : State :=
  match s.barScratch tm off k with
  | (s1, .ok _) => s1
  | (s1, .error c) =>
    let t := s1.team tm
    let (ty, num) := match t.place with
      | .foehn st core => (5, 16 * st + core)
      | .resident core _ => (0, core)
      | _ => (0, 0)
    s1.post { s1.record t.ctx c 2 ty num with addr := BitVec.ofNat 64 (apBase + off) }

/-- The barrier object at an address, where this device holds it: in the scratch of a team or in its memory. -/
def State.objectAt (s : State) (tm ctx va pa : Nat) : Option BarObj :=
  if inAperture va then some (.ofBytes (memRead (s.team tm).pool.scr (va - apBase) 16))
  else if paClass pa == .dram then some (.ofBytes ((s.homeRead (s.asidOf ctx) va pa 16 false).2.bytes 16))
  else none

/-- Its PHASE. -/
def State.phaseAt (s : State) (tm ctx va pa : Nat) : Option Nat := (s.objectAt tm ctx va pa).map (·.phase)

/-- A step that an agent owes (R184, R206, R211, R265): on the scratch of a team that is out it is recorded for the restore; of an
ended team it is discarded; a global object is stepped at home or over the link. -/
def State.barAgent (s0 : State) (tm ctx va pa : Nat) (k : BarStep) : State :=
  let s := s0.signal ctx
  if va = noBarrier then s0
  else if inAperture va then
    let off := va - apBase
    match (s.team tm).place with
    | .resident _ _ => s.agentScratch tm off k
    | .foehn _ _ => s.agentScratch tm off k
    | .saved _ _ _ _ =>
      ((s.modTeam tm fun t => { t with arrivals := t.arrivals ++ [k.pending off] }).rewriteRecord tm).wakeScratch tm off 16
    | _ => s
  else if paClass pa == .dram then
    match s.stepHeld pa with
    | (s0, some d) => s0.holdReq d { peer := 2 ^ 16, kind := 1, addr := pa, data := k.payload, link := none }
    | (s0, none) =>
      let (s1, r) := s0.barHome (s0.asidOf ctx) va pa false k
      match r with
      | .ok _ => s1
      | .error c => s1.postStoreError ctx c va
  else s.linkPost ctx (.device va) 4 pa 16 k.payload

/-! ## Pins (R404) -/

/-- Where the count of a frame lies. -/
def State.pinAddr (s : State) (ctx pa : Nat) : Nat := ((s.ctxOf ctx).map (·.pinbase)).getD 0 + 2 * (pa / 65536)

/-- The count of a frame: its word read from memory, with every cached name of its line written back first; the cause when the line cannot
be corrected. -/
def State.pinCount (s : State) (ctx pa : Nat) : State × Except (BitVec 8) Nat :=
  let a := s.pinAddr ctx pa
  let (s1, d) := (s.homeLine 4096 a a).dramRead a 2
  match d with
  | .ok b => (s1, .ok (natOf b))
  | .bad c => (s1, .error c)

def State.pinWrite (s : State) (ctx pa n : Nat) : State := (s.dramWrite (s.pinAddr ctx pa) (bytesOf 2 n)).1

/-- Whether the leaf of `va` is marked MIGR (R399, R406), or the cause for which its table cannot be read. -/
def State.migrating (s : State) (ctx va : Nat) : State × Except (BitVec 8) Bool :=
  match s.ctxOf ctx with
  | none => (s, .ok false)
  | some c =>
    let (s1, a) := s.leafAddr va 3 (localPa c.ptroot)
    match a with
    | .ok (a, _) =>
      let (s2, d) := s1.dramRead (a + 7) 1
      (s2, match d with
        | .ok b => .ok ((b.headD 0).getLsbD 7)
        | .bad k => .error k)
    | .error (some k) => (s1, .error k)
    | .error none => (s1, .ok false)

/-- What an attempt to pin a frame comes to: done, a wait (a count of 0xffff, or a page being migrated or changed, R390), or the fault of a
count whose line cannot be corrected (00 R13). -/
inductive Pinned where
  | done
  | wait
  | fault (cause : BitVec 8)
  deriving DecidableEq, Repr

/-- One more pin on the frame of `pa`. -/
def State.pin (s : State) (ctx va pa : Nat) : State × Pinned :=
  if s.physWaits true (s.pinAddr ctx pa) 2 then (s, .wait) else
  let (s1, n) := s.pinCount ctx pa
  match n with
  | .error c => (s1, .fault c)
  | .ok n =>
    let (s2, m) := s1.migrating ctx va
    match m with
    | .error c => (s2, .fault c)
    | .ok m =>
      if n ≥ 0xffff || m || s2.changingVa (s2.asidOf ctx) va || s2.changingPa pa then (s2, .wait) else (s2.pinWrite ctx pa (n + 1), .done)

/-- One pin taken away. -/
def State.unpin (s : State) (ctx pa : Nat) : State :=
  let (s1, n) := s.pinCount ctx pa
  match n with
  | .ok n => s1.pinWrite ctx pa (n - 1)
  | .error _ => s1

def State.unpinAll (s : State) (ctx : Nat) (pas : List Nat) : State := pas.foldl (fun (t : State) (p : Nat) => t.unpin ctx p) s

/-- The frames of 64 KiB that [pa, pa + n) meets, by an address in each. -/
def framesOf (pa n : Nat) : List Nat :=
  if n = 0 then [] else (List.range ((pa + n - 1) / 65536 - pa / 65536 + 1)).map fun k => (pa / 65536 + k) * 65536

/-! ## The object an agent will reach (R483) -/

/-- The needs of a barrier instruction. -/
def needBarrier : Need := { r := true, w := true, x := false, win := false, via := .named }

/-- The check of an object's address when work that names it is accepted, behind a relocation of the team's scratch (05 R138); a global
object's frame is pinned, and its address returned (0 for scratch or no barrier). -/
def State.checkBarrier (s : State) (i : Iss) (va : Nat) : State × Except LaneEnd Nat :=
  let t := s.team i.op.team
  let fault (c : BitVec 8) (x : Nat) : State × Except LaneEnd Nat := (s, .error (.fault c 0 (BitVec.ofNat 64 x)))
  if va % 16 ≠ 0 then fault cMisaligned va
  else if inAperture va then
    if s.relocating i.op.team then (s, .error .pend)
    else if t.scrIn (va - apBase) 16 then (s, .ok 0) else fault cScratch (va - apBase)
  else
    let (s1, c) := s.pageCheck (t.coreOf i.op.grp) t.ctx i.op.team va needBarrier attrBarrier
    match c with
    | .stay => (s1, .error .pend)
    | .park => (s1, .error (.park (BitVec.ofNat 64 va)))
    | .fault k => (s1, .error (.fault k 0 (BitVec.ofNat 64 va)))
    | .ok _ pa =>
      let (s2, r) := s1.pin t.ctx va pa
      match r with
      | .done => (s2, .ok pa)
      | .wait => (s2, .error .pend)
      | .fault k => (s2, .error (.fault k 0 (BitVec.ofNat 64 va)))

/-- The pin of an object given back. -/
def State.unpinBarrier (s : State) (ctx va pa : Nat) : State := if va = noBarrier || inAperture va then s else s.unpin ctx pa

end Sys2Proof.Machine
end

