-- ==== Sys2Proof/Machine/Atomics.lean ====
section
/-! DEFINITION. Majors 0x2E to 0x31 and 0x34: async copies (06 R172, R173), atomics (R174 to R176), reductions (R177) and
transactions (R191 to R194). -/

namespace Sys2Proof.Machine

open Sys2Proof

/-! ## Async copies (R172) -/

/-- Bytes per lane of a size code (R66). -/
def copyBytes (size : BitVec 3) : Nat := 4 * 2 ^ size.toNat

/-- Checks 4 to 7 over every line of a lane's range: each piece with its attribute and address, or the fault of the lowest line that takes one, with
its address: the spec does not say which fault a lane takes whose lines fault at different checks (DESIGN CHOICE log 69). -/
def State.checkPieces (s : State) (i : Iss) (need : Need) : List (Nat × Nat) → State × Except LaneEnd (List (Nat × Nat × BitVec 2 × Nat))
  | [] => (s, .ok [])
  | (va, k) :: r =>
    let t := s.team i.op.team
    let (s1, c) := s.pageCheck (t.coreOf i.op.grp) t.ctx i.op.team va need attrPlain
    match c with
    | .stay => (s1, .error .pend)
    | .park => (s1, .error (.park (BitVec.ofNat 64 va)))
    | .fault cause => (s1, .error (.fault cause 0 (BitVec.ofNat 64 va)))
    | .ok attr pa =>
      let (s2, rest) := s1.checkPieces i need r
      match rest with
      | .ok l => (s2, .ok ((va, k, attr, pa) :: l))
      | .error e => (s2, .error e)

/-- The checks of one lane's copy, in the order of R163; the barrier's last (R483). `off` is the scratch offset. -/
def State.checkCopy (s : State) (i : Iss) (l va off bar n : Nat) (a : Reg) (toScr : Bool) :
    State × Except LaneEnd (List (Nat × Nat × BitVec 2 × Nat) × Nat) :=
  let fault (c : BitVec 8) (x : Nat) : State × Except LaneEnd (List (Nat × Nat × BitVec 2 × Nat) × Nat) :=
    (s, .error (.fault c 0 (BitVec.ofNat 64 x)))
  let align := Nat.min n 16
  if va % align ≠ 0 then fault cMisaligned va
  else if off % align ≠ 0 then fault cMisaligned off
  else if !capOk i l a 0 n (if toScr then permR else permW) then fault cCapability va
  else if inAperture va then fault cScratch (va - apBase)
  else if s.relocating i.op.team then (s, .error .pend)
  else if !(s.team i.op.team).scrIn off n then fault cScratch off
  else if s.scCopy i l then (s, .error .pend)
  else
    let (s1, p) := s.checkPieces i { r := toScr, w := !toScr, x := false, win := !toScr, via := .slice } (piecesOf va n)
    match p with
    | .error e => (s1, .error e)
    | .ok parts =>
      let (s2, b) := s1.checkBarrier i bar
      match b with
      | .error e => (s2, .error e)
      | .ok pa => (s2, .ok (parts, pa))

/-- Whether a physical address lies in a reduction window (R427). -/
def inWindow (pa : Nat) : Bool :=
  match paClass pa with
  | .peer _ off => decide (off ≥ windowOff)
  | _ => false

/-- One part of a lane's copy put in flight. A G2S read of this device's DRAM, and the scratch source of an S2G, are read at
once; a part beyond a link asks or writes there, on a WO page in the place of the thread's older held stores to those bytes (R165). A part on
an SC page is preceded by the release of an SC access, and a write of it to this device's DRAM takes its place in S at once, before every later
access of the thread; it is counted when it lands (17 R373, R377, R378). A part that is no packet of a reduction window is refused (R429). -/
def State.startPart (s : State) (i : Iss) (l lot off bar barPa : Nat) (toScr : Bool) (va k : Nat) (attr : BitVec 2) (pa : Nat) :
    State :=
  let ctx := (s.team i.op.team).ctx
  let local_ := paClass pa == .dram
  let link_ := !local_
  let (id, s1) := s.fresh
  let held := if link_ && toScr then (s.threadOf i l).wo else []
  let part (data : List Byte) (bad : Option (BitVec 8)) (link : Bool) : Copy :=
    { id := id, lot := lot, team := i.op.team, grp := i.op.grp, lane := l, toScr := toScr, scrOff := off, va := va, pa := pa,
      attr := attr, barrier := bar, barPa := barPa, data := data, bad := bad, link := link, performed := false, wo := held,
      taint := [], slice := s.homeSlice (s.asidOf ctx) va, born := s.tick }
  if toScr then
    if local_ then
      let (s2, d) := s1.readDram i l va pa k attr 1
      { s2 with copies := s2.copies ++ [part (d.bytes k) d.err false] }
    else
      let s2 := (if attr == attrSC then s1.relDev i.op.team i.op.grp l else s1).linkPost ctx (.copy id) 0 pa k []
      { s2 with copies := s2.copies ++ [part (bytesOf k 0) none true] }
  else
    let (s2, d) := s1.scrRead i.op.team off k
    if (s.team i.op.team).scrBad off k then { s2 with copies := s2.copies ++ [part d (some cUncorrectable) false] }
    else if local_ then
      let sc := attr == attrSC
      let s3 := if sc then s2.relDev i.op.team i.op.grp l else s2
      let s4 : State := { s3 with copies := s3.copies ++ [part d none false] }
      if sc then s4.doPart (part d none false) else s4
    else if inWindow pa && k ≠ 64 then { s2 with copies := s2.copies ++ [part d (some cProtection) false] }
    else
      let s3 := if attr == attrSC then s2.relDev i.op.team i.op.grp l
        else if attr == attrWO then s2.modThread i.op.team i.op.grp l fun th => { th with wo := th.wo.flatMap (WoStore.trim va pa k) }
        else s2
      let s3 := s3.linkPost ctx (.copy id) 1 pa k d
      { s3 with copies := s3.copies ++ [part d none true] }

/-- Whether the access that a part makes at once has to reach memory at a channel that does not take it now (22 R456): the read of a G2S, and the
write of an S2G on an SC page. -/
def State.partWaits (s : State) (i : Iss) (toScr : Bool) (va k : Nat) (attr : BitVec 2) (pa : Nat) : Bool :=
  paClass pa == .dram && (toScr || attr == attrSC) && s.memoryWaits i va pa k attr 1 (!toScr)

/-- ACP in each lane. -/
def asyncCopy (toScr : Bool) (size : BitVec 3) (d a b : Reg) : State → Out :=
  let n := copyBytes size
  issue { Form.plain [(d, 1), (a, 2), (b, 2)] none .table with foehn := false, roles := rolesCopy, txn := false }
    (eachLane fun i s l =>
      let va := i.view.pair a l
      let off := (i.view.reg d l).toNat
      let bar := i.view.pair b l
      if !s.takes i (piecesOf va n).length then (s, .only l .pend)
      else
      let (s1, c) := s.checkCopy i l va off bar n a toScr
      match c with
      | .error e => (s1, .only l e)
      | .ok (parts, barPa) =>
        if parts.any fun p => s1.partWaits i toScr p.1 p.2.1 p.2.2.1 p.2.2.2 then (s1.unpinBarrier i.team.ctx bar barPa, .only l .pend)
        else
        let lot := s1.nextId
        (parts.foldl (fun (st : State) (p : Nat × Nat × BitVec 2 × Nat) =>
          st.startPart i l lot (off + (p.1 - va)) bar barPa toScr p.1 p.2.1 p.2.2.1 p.2.2.2) s1, .only l .next))

/-- ACP.G2S (R172). -/
def execAcpG2s (size : BitVec 3) (d a b : Reg) (s : State) : Out := asyncCopy true size d a b s

/-- ACP.S2G (R172). -/
def execAcpS2g (size : BitVec 3) (d a b : Reg) (s : State) : Out := asyncCopy false size d a b s

/-! ## Atomics and reductions, once for every function -/

/-- A returning atomic: the old value lands in d (R174, R175). CAS reads d as its compare value. -/
def atomic (op : AtomOp) (wide : Bool) (d a b : Reg) : State → Out :=
  let n := if wide then 8 else 4
  let k := if wide then 2 else 1
  let w : BitVec 3 := if wide then 5 else 4
  let value (i : Iss) (r : Reg) (l : Nat) : Nat := if wide then i.view.pair r l else (i.view.reg r l).toNat
  issue { Form.plain ([(a, 2), (b, k)] ++ if op == .cas then [(d, k)] else []) (some (d, k)) .g with
            foehn := false, roles := rolesMemory, txn := false }
    (loadBody d w fun i s l =>
      let va := i.view.pair a l
      let (s1, c) := s.check i l va a 0 (askAtom n)
      match c with
      | .error e => (s1, .error e)
      | .ok p =>
        let (s2, g) := s1.atomSpot i l va n op (value i b l) (value i d l) p
        (s2, loadLane l va w false g))

/-- RED of a function code (R57): on an RC page the contribution goes into the core's update-only copy; elsewhere it is an
atomic without return (R177). One that meets a line that cannot be corrected is not performed, and is recorded (R166). -/
def reduction (code : Nat) (a b : Reg) : State → Out :=
  let wide := redCodeWide code
  let n := if wide then 8 else 4
  issue { Form.plain [(a, 2), (b, if wide then 2 else 1)] none .table with roles := rolesMemory, txn := false }
    (eachLane fun i s l =>
      let va := i.view.pair a l
      let y := if wide then i.view.pair b l else (i.view.reg b l).toNat
      let (s1, c) := s.check i l va a 0 (askRed n)
      let t := s.team i.op.team
      let update (pa : Nat) : State :=
        let asid := s1.asidOf t.ctx
        let core := l1Core t (t.coreOf i.op.grp) va
        ((s1.ownCopies i l pa n).l1Bypass core asid va n).modCore core fun k =>
          { k with upd := updAdd k.upd { asid := asid, va := va, pa := pa, slice := s1.homeSlice asid va, op := code, val := BitVec.ofNat 64 y } }
      let perform (p : Spot) : State × LaneOut :=
        let (s2, g) := s1.atomSpot i l va n (redOpOf code) y 0 p
        match g with
        | .ends e => (s2, .only l e)
        | .data (.ok _) => (s2, .only l .next)
        | .data (.bad k) => (s2.postStoreError t.ctx k va, .only l .next)
      match c with
      | .error e => (s1, .only l e)
      | .ok (.page attr pa) => if attr == attrRC && paClass pa == .dram then (update pa, .only l .next) else perform (.page attr pa)
      | .ok p => perform p)

/-! ## ATOM (R174) -/

/-- ATOM.Add (R174). -/
def execAtomAdd (d a b : Reg) (s : State) : Out := atomic .add false d a b s

/-- ATOM.And (R174). -/
def execAtomAnd (d a b : Reg) (s : State) : Out := atomic .and false d a b s

/-- ATOM.Or (R174). -/
def execAtomOr (d a b : Reg) (s : State) : Out := atomic .or false d a b s

/-- ATOM.Xor (R174). -/
def execAtomXor (d a b : Reg) (s : State) : Out := atomic .xor false d a b s

/-- ATOM.MinI32 (R174). -/
def execAtomMinI32 (d a b : Reg) (s : State) : Out := atomic .minS false d a b s

/-- ATOM.MaxI32 (R174). -/
def execAtomMaxI32 (d a b : Reg) (s : State) : Out := atomic .maxS false d a b s

/-- ATOM.MinN32 (R174). -/
def execAtomMinN32 (d a b : Reg) (s : State) : Out := atomic .minU false d a b s

/-- ATOM.MaxN32 (R174). -/
def execAtomMaxN32 (d a b : Reg) (s : State) : Out := atomic .maxU false d a b s

/-- ATOM.Xchg (R174). -/
def execAtomXchg (d a b : Reg) (s : State) : Out := atomic .xchg false d a b s

/-- ATOM.Cas (R174). -/
def execAtomCas (d a b : Reg) (s : State) : Out := atomic .cas false d a b s

/-- ATOM.Incw (R174). -/
def execAtomIncw (d a b : Reg) (s : State) : Out := atomic .incw false d a b s

/-- ATOM.Decw (R174). -/
def execAtomDecw (d a b : Reg) (s : State) : Out := atomic .decw false d a b s

/-- ATOM.FaddS (R174). -/
def execAtomFaddS (d a b : Reg) (s : State) : Out := atomic .fadd false d a b s

/-- ATOM.FminS (R174). -/
def execAtomFminS (d a b : Reg) (s : State) : Out := atomic .fmin false d a b s

/-- ATOM.FmaxS (R174). -/
def execAtomFmaxS (d a b : Reg) (s : State) : Out := atomic .fmax false d a b s

/-- ATOM.FaddH2 (R174). -/
def execAtomFaddH2 (d a b : Reg) (s : State) : Out := atomic .faddH2 false d a b s

/-- ATOM.FaddB2 (R174). -/
def execAtomFaddB2 (d a b : Reg) (s : State) : Out := atomic .faddB2 false d a b s

/-! ## ATOM64 (R175) -/

/-- ATOM64.Add (R175). -/
def execAtom64Add (d a b : Reg) (s : State) : Out := atomic .add true d a b s

/-- ATOM64.And (R175). -/
def execAtom64And (d a b : Reg) (s : State) : Out := atomic .and true d a b s

/-- ATOM64.Or (R175). -/
def execAtom64Or (d a b : Reg) (s : State) : Out := atomic .or true d a b s

/-- ATOM64.Xor (R175). -/
def execAtom64Xor (d a b : Reg) (s : State) : Out := atomic .xor true d a b s

/-- ATOM64.MinI64 (R175). -/
def execAtom64MinI64 (d a b : Reg) (s : State) : Out := atomic .minS true d a b s

/-- ATOM64.MaxI64 (R175). -/
def execAtom64MaxI64 (d a b : Reg) (s : State) : Out := atomic .maxS true d a b s

/-- ATOM64.MinN64 (R175). -/
def execAtom64MinN64 (d a b : Reg) (s : State) : Out := atomic .minU true d a b s

/-- ATOM64.MaxN64 (R175). -/
def execAtom64MaxN64 (d a b : Reg) (s : State) : Out := atomic .maxU true d a b s

/-- ATOM64.Xchg (R175). -/
def execAtom64Xchg (d a b : Reg) (s : State) : Out := atomic .xchg true d a b s

/-- ATOM64.Cas (R175). -/
def execAtom64Cas (d a b : Reg) (s : State) : Out := atomic .cas true d a b s

/-- ATOM64.Incw (R175). -/
def execAtom64Incw (d a b : Reg) (s : State) : Out := atomic .incw true d a b s

/-- ATOM64.Decw (R175). -/
def execAtom64Decw (d a b : Reg) (s : State) : Out := atomic .decw true d a b s

/-- ATOM64.FaddD (R175). -/
def execAtom64FaddD (d a b : Reg) (s : State) : Out := atomic .fadd true d a b s

/-- ATOM64.FminD (R175). -/
def execAtom64FminD (d a b : Reg) (s : State) : Out := atomic .fmin true d a b s

/-- ATOM64.FmaxD (R175). -/
def execAtom64FmaxD (d a b : Reg) (s : State) : Out := atomic .fmax true d a b s

/-! ## RED (R177) -/

/-- RED.Add, function 0 (R57, R177). -/
def execRedAdd (a b : Reg) (s : State) : Out := reduction 0 a b s

/-- RED.And, function 1 (R57, R177). -/
def execRedAnd (a b : Reg) (s : State) : Out := reduction 1 a b s

/-- RED.Or, function 2 (R57, R177). -/
def execRedOr (a b : Reg) (s : State) : Out := reduction 2 a b s

/-- RED.Xor, function 3 (R57, R177). -/
def execRedXor (a b : Reg) (s : State) : Out := reduction 3 a b s

/-- RED.MinI32, function 4 (R57, R177). -/
def execRedMinI32 (a b : Reg) (s : State) : Out := reduction 4 a b s

/-- RED.MaxI32, function 5 (R57, R177). -/
def execRedMaxI32 (a b : Reg) (s : State) : Out := reduction 5 a b s

/-- RED.MinN32, function 6 (R57, R177). -/
def execRedMinN32 (a b : Reg) (s : State) : Out := reduction 6 a b s

/-- RED.MaxN32, function 7 (R57, R177). -/
def execRedMaxN32 (a b : Reg) (s : State) : Out := reduction 7 a b s

/-- RED.FaddS, function 12 (R57, R177). -/
def execRedFaddS (a b : Reg) (s : State) : Out := reduction 12 a b s

/-- RED.FminS, function 13 (R57, R177). -/
def execRedFminS (a b : Reg) (s : State) : Out := reduction 13 a b s

/-- RED.FmaxS, function 14 (R57, R177). -/
def execRedFmaxS (a b : Reg) (s : State) : Out := reduction 14 a b s

/-- RED.FaddH2, function 15 (R57, R177). -/
def execRedFaddH2 (a b : Reg) (s : State) : Out := reduction 15 a b s

/-- RED.FaddB2, function 16 (R57, R177). -/
def execRedFaddB2 (a b : Reg) (s : State) : Out := reduction 16 a b s

/-- RED.Add64, function 20 (R57, R177). -/
def execRedAdd64 (a b : Reg) (s : State) : Out := reduction 20 a b s

/-- RED.FaddD, function 21 (R57, R177). -/
def execRedFaddD (a b : Reg) (s : State) : Out := reduction 21 a b s

/-! ## Transactions (R191 to R194) -/

/-- TBEGIN: inside a transaction it aborts with NEST; a handler that is no word address raises MISALIGNED. -/
def execTbegin (d a : Reg) (s : State) : Out :=
  issue { Form.plain [(a, 2)] (some (d, 1)) .table with foehn := false, roles := rolesMemory } (eachLane fun i s l =>
    let h := i.view.pair a l
    if (s.threadOf i l).txn.isSome then (s, .only l (.abort 4))
    else if h % 4 ≠ 0 then (s, .fault l cMisaligned h)
    else
      let x : Txn := { handler := BitVec.ofNat 64 h, dst := d, reads := [], writes := [], lines := [], count := 0 }
      (s.setTxn i l x, .write l [0])) s

/-- Whether a transaction reads or writes a word of another's write set (R193 step 1). -/
def Txn.clash (x lower : Txn) : Bool :=
  lower.writes.any fun (w : Nat × Word × BitVec 4) => x.reads.any (fun (r : Nat × Word) => r.1 == w.1) ||
    x.writes.any fun (v : Nat × Word × BitVec 4) => v.1 == w.1

/-- Step 1 of R193 over the committing lanes in order: those that stay, and those that abort with CONFLICT_INTRA. -/
def intra : List (Nat × Txn) → List (Nat × Txn) → List (Nat × Txn) × List Nat
  | _, [] => ([], [])
  | kept, (l, x) :: r =>
    if kept.any fun (k : Nat × Txn) => x.clash k.2 then
      let (a, b) := intra kept r
      (a, l :: b)
    else
      let (a, b) := intra (kept ++ [(l, x)]) r
      ((l, x) :: a, b)

/-- The frame address of a word of a transaction at home: the line that the slices hold, else the translation (18 R392). -/
def State.txnPa (s : State) (i : Iss) (va : Nat) : State × Option Nat :=
  let t := s.team i.op.team
  match s.slicePa (l1Core t (t.coreOf i.op.grp) va) (s.asidOf t.ctx) va with
  | some pa => (s, some pa)
  | none =>
    let (s1, r) := s.translate t.ctx va
    match r with
    | .ok e => (s1, some (e.pa va))
    | _ => (s1, none)

/-- Whether a word of a transaction lies in a page that changes or moves (17 R390, 18 R406), or behind a channel that does not take its access now
(22 R456): the commit waits. -/
def State.txnWaits (s : State) (i : Iss) (va : Nat) : Bool :=
  let asid := s.asidOf i.team.ctx
  s.changingVa asid va || s.walkStalls i.team.ctx va || match (s.txnPa i va).2 with
    | some pa => s.changingPa pa || ((s.l2At asid va pa).isNone && s.channelBusy false pa)
    | none => false

/-- Whether every word of the write set can be locked: its page translates still. -/
def State.lockable (s : State) (i : Iss) : List (Nat × Word × BitVec 4) → State × Bool
  | [] => (s, true)
  | w :: r => match s.txnPa i w.1 with
    | (s1, some _) => s1.lockable i r
    | (s1, none) => (s1, false)

/-- Step 2: each word read, compared with its value at home now. -/
def State.validate (s : State) (i : Iss) : List (Nat × Word) → State × Option Nat
  | [] => (s, none)
  | (va, w) :: r =>
    let (s1, t) := s.txnPa i va
    match t with
    | some pa =>
      let (s2, d) := s1.homeRead (s1.asidOf i.team.ctx) va pa 4 true
      match d with
      | .ok b => if BitVec.ofNat 32 (natOf b) = w then s2.validate i r else (s2, some 2)
      | .bad _ => (s2, some 5)
    | none => (s1, some 5)

/-- Step 3: the bytes of one word of the write set that the mask names, written at home. -/
def State.commitWord (s : State) (i : Iss) (va : Nat) (v : Word) (m : BitVec 4) : State :=
  let (s1, t) := s.txnPa i va
  let asid := s1.asidOf i.team.ctx
  match t with
  | some pa =>
    if m = 15 then s1.homeWrite asid va pa (bytesOf 4 v.toNat) true
    else
      let (s2, d) := s1.homeRead asid va pa 4 true
      match d with
      | .ok b => s2.homeWrite asid va pa (bytesOf 4 (maskMerge (BitVec.ofNat 32 (natOf b)) v m).toNat) true
      | .bad c => s2.postAsidError asid c va
  | none => s1

/-- One lane's commit (R193, 17 R386): a release at DEV scope, then as one step the test of the words read and the write of its own, with no
older copy of them left in the core's L1, and an acquire at DEV scope. A lane that aborts has released nothing; one of whose write set a page no
longer translates aborts with FAULT (DESIGN CHOICE log 80). -/
def State.commitLane (s : State) (i : Iss) (l : Nat) (x : Txn) : State × LaneEnd :=
  if (x.reads.map (·.1) ++ x.writes.map (·.1)).any (s.txnWaits i) then (s, .stay) else
  let (s0, locked) := s.lockable i x.writes
  let (s1, bad) := (s0.relDev i.op.team i.op.grp l).validate i x.reads
  match if locked then bad else some 5 with
  | some c => ((s0.validate i x.reads).1, .abort c)
  | none =>
    let s2 := x.writes.foldl (fun (st : State) (w : Nat × Word × BitVec 4) => st.commitWord i w.1 w.2.1 w.2.2) s1
    ((s2.acquireDev i.op.team i.op.grp).modThread i.op.team i.op.grp l fun th => { th with txn := none }, .next)

/-- TEND (R193): nothing outside a transaction. -/
def execTend (s : State) : Out :=
  issue { Form.plain [] none .table with foehn := false, roles := rolesMemory } (fun i s =>
    let open_ := i.lanes.filterMap fun l => (s.threadOf i l).txn.map fun x => (l, x)
    let (kept, lost) := intra [] open_
    let (s1, outs) := kept.foldl (fun (r : State × List LaneOut) (k : Nat × Txn) =>
      let (t, e) := r.1.commitLane i k.1 k.2
      (t, r.2 ++ [LaneOut.only k.1 e])) (s, [])
    (s1, i.lanes.map fun l =>
      if lost.contains l then .only l (.abort 1) else (outs.find? fun o => o.lane == l).getD (.only l .next))) s

/-- TABORT (R191): nothing outside a transaction. -/
def execTabort (b : Reg) (s : State) : Out :=
  issue { Form.plain [(b, 1)] none .table with foehn := false, roles := rolesMemory } (perLane fun i l =>
    if (i.thread l).txn.isSome then .only l (.abort (7 + 256 * ((i.view.reg b l).toNat % 256))) else .only l .next) s

/-- TSTAT (R191). -/
def execTstat (d : Reg) (s : State) : Out :=
  issue { Form.plain [] (some (d, 1)) .same with foehn := false, roles := rolesMemory } (perLane fun i l =>
    .write l [truth (i.thread l).txn.isSome]) s

end Sys2Proof.Machine
end

