-- ==== Sys2Proof/Machine/Fetch.lean ====
section
/-! DEFINITION. Instruction fetch: the fetch buffer and the instruction cache (06 R196), the fetch checks (10 R279), the fetches of
a near-memory call (20 R417) and of firmware (21 R443). -/

namespace Sys2Proof.Machine

open Sys2Proof

/-- A fetched word, or how every lane at that PC ends. -/
inductive Fetched where
  | word (w : Word)
  | ends (e : LaneEnd)
  deriving DecidableEq, Repr

def Fetched.fault (c : BitVec 8) (pc : DWord) : Fetched := .ends (.fault c 0 pc)

/-- A code word, or the way its fetch ends. -/
inductive CodeGot where
  | word (w : Word)
  | wait
  | bad (cause : BitVec 8)
  deriving DecidableEq, Repr

/-- A word kept in the instruction cache of a core. -/
def State.keepCode (s : State) (core asid va pa : Nat) (w : Word) : State :=
  s.modCore core fun c => { c with icache := { asid := asid, va := va, pa := pa, data := w } :: c.icache }

/-- A code word beyond a link: requested once, and kept when its answer is there (17 R388). -/
def State.codeLink (s : State) (ctx core asid va pa : Nat) : State × CodeGot :=
  match s.links.find? fun r => r.owner == .fetch core asid va with
  | none => (s.linkPost ctx (.fetch core asid va) 0 pa 4 [], .wait)
  | some r => match r.answer with
    | none => (s, .wait)
    | some (bad, d) =>
      let s1 : State := { s with links := s.links.filter fun x => x.id != r.id }
      let w : Word := BitVec.ofNat 32 (natOf d)
      if bad then (s1, .bad cProtection) else (s1.keepCode core asid va pa w, .word w)

/-- A code word from the instruction cache, else from its home slice, else over its link (R196). -/
def State.codeWord (s : State) (ctx core asid va pa : Nat) : State × CodeGot :=
  match (s.getCore core).icache.find? fun e => e.asid == asid && e.va == va with
  | some e => (s, .word e.data)
  | none =>
    if paClass pa == .dram then
      if (s.l2Find asid va).isNone && s.channelBusy false pa then (s, .wait)
      else
      let (s1, d) := s.homeRead asid va pa 4 true
      match d with
      | .ok b => (s1.keepCode core asid va pa (BitVec.ofNat 32 (natOf b)), .word (BitVec.ofNat 32 (natOf b)))
      | .bad c => (s1, .bad c)
    else s.codeLink ctx core asid va pa

/-- The fetch of a main-core thread at `pc` outside its buffer (R279, R482). -/
def State.fetchMain (s : State) (tm : Nat) (t : Team) (grp : Nat) (pc : DWord) : State × Fetched :=
  let va := pc.toNat
  if va % 4 ≠ 0 then (s, .fault cMisaligned pc)
  else if inAperture va then (s, .fault cProtection pc)
  else
    let core := t.coreOf grp
    let (s1, c) := s.pageCheck core t.ctx tm va { r := false, w := false, x := true, win := false, via := .code } fun a holder => a != attrIP || holder
    match c with
    | .stay => (s1, .ends .stay)
    | .park => (s1, .ends (.park pc))
    | .fault k => (s1, .fault k pc)
    | .ok _ pa =>
      let (s2, d) := s1.codeWord t.ctx core (s1.asidOf t.ctx) va pa
      match d with
      | .word w => (s2, .word w)
      | .wait => (s2, .ends .stay)
      | .bad k => (s2, .fault k pc)

/-- The words ahead of `pc` that the core has fetched into the buffer: `n` more, as long as their page answers (R196, DESIGN CHOICE log 2). -/
def State.fetchAheadFrom (s : State) (tm : Nat) (t : Team) (grp : Nat) : Nat → DWord → State × List (Nat × Word)
  | 0, _ => (s, [])
  | n + 1, pc =>
    let (s1, f) := s.fetchMain tm t grp pc
    match f with
    | .word w =>
      let (s2, r) := s1.fetchAheadFrom tm t grp n (pc + 4)
      (s2, (pc.toNat, w) :: r)
    | .ends _ => (s, [])

/-- The extent of a call that holds a code address (R417, R418). -/
def Call.codeExtent (c : Call) (va n : Nat) : Option Extent :=
  c.extents.find? fun e => e.code && decide (e.lo ≤ va) && decide (va + n ≤ e.hi)

/-- A line put into the instruction buffer of a Foehn core, of 8 KiB, where the oldest leaves (R411, R417). -/
def ibufPut (core line : Nat) (b : List Byte) (l : List (Nat × Nat × List Byte)) : List (Nat × Nat × List Byte) :=
  (core, line, b) :: ((l.filter fun e => e.1 == core).take 127 ++ l.filter fun e => e.1 != core)

/-- The word of a line at an address. -/
def lineWord (b : List Byte) (pa : Nat) : Word := BitVec.ofNat 32 (natOf ((b.drop (pa % 64)).take 4))

/-- The fetch of a near-memory call: only slot 0's range on pages with X, through the instruction buffer (R417). -/
def State.fetchCall (s : State) (tm : Nat) (stack core : Nat) (pc : DWord) : State × Fetched :=
  match s.calls.find? fun c => c.team == tm && c.state == .running with
  | none => (s, .fault cProtection pc)
  | some c =>
    if pc.toNat % 4 ≠ 0 then (s, .fault cMisaligned pc)
    else match c.codeExtent pc.toNat 4 with
      | none => (s, .fault cProtection pc)
      | some e =>
        let pa := e.pa + (pc.toNat - e.lo)
        match (s.getStack stack).ibuf.find? fun x => x.1 == core && x.2.1 == pa / 64 with
        | some x => (s, .word (lineWord x.2.2 pa))
        | none =>
          if s.channelBusy false pa then (s, .ends .stay)
          else
            let (s1, d) := s.dramRead (pa / 64 * 64) 64
            match d with
            | .ok b => (s1.modStack stack fun k => { k with ibuf := ibufPut core (pa / 64) b k.ibuf }, .word (lineWord b pa))
            | .bad k => (s1, .fault k pc)

/-- The fetch of firmware: its image on the base die, from the load address (R443). -/
def State.fetchFirmware (s : State) (stack : Nat) (pc : DWord) : Fetched :=
  let k := s.getStack stack
  let a := pc.toNat
  if a % 4 ≠ 0 then .fault cMisaligned pc
  else if a < k.firmLoad ∨ a + 4 > k.firmLoad + k.firmware.length then .fault cProtection pc
  else .word (BitVec.ofNat 32 (natOf ((k.firmware.drop (a - k.firmLoad)).take 4)))

/-- The word in a thread's fetch buffer for its PC. -/
def Thread.buffered (th : Thread) : Option Word := (th.fbuf.find? fun e => e.1 == th.pc.toNat).map (·.2)

/-- The word at `pc` for lanes whose fetch buffers do not hold it, with what these then hold. -/
def State.fetch (s : State) (tm grp : Nat) (lanes : List Nat) (pc : DWord) : State × Fetched :=
  match s.teams[tm]? with
  | some t =>
    match t.place with
    | .foehn st c => if t.kind == .firmware then (s, s.fetchFirmware st pc) else s.fetchCall tm st c pc
    | _ =>
      let (s1, f) := s.fetchMain tm t grp pc
      match f with
      | .ends _ => (s1, f)
      | .word _ =>
        let n := Nat.min (s.getCore (t.coreOf grp)).fetchAhead 16
        if n = 0 then (s1, f)
        else
          let (s2, ahead) := s1.fetchAheadFrom tm t grp n (pc + 4)
          (s2.modGroup tm grp fun g => g.modLanes lanes fun _ th => { th with fbuf := ahead }, f)
  | none => (s, .fault cProtection pc)

end Sys2Proof.Machine
end

