-- ==== Sys2Proof/Machine/Schedule.lean ====
section
/-! DEFINITION. The choice of the next operation (09 R238 to R241, DESIGN CHOICE log 1): the classes of eligible threads and the oldest of
them. -/

namespace Sys2Proof.Machine

open Sys2Proof

/-- Whether a thread is eligible, as far as it is known: no empty register holds it that an issue has found, and every lane's access of its last
memory instruction is accepted (R238, 06 R163). -/
def Thread.eligible (th : Thread) : Bool :=
  !th.exited && th.park.isNone && !th.arrived && th.needs.isEmpty && (th.lot.isNone || th.lotOpen)

/-- The region that a thread waits for in ACQR. -/
def Thread.region (th : Thread) : Option Nat :=
  match th.wait with
  | some (.acqr r) => some r
  | _ => none

/-- Whether the threads of a team issue at all. -/
def Team.issues (t : Team) : Bool :=
  t.leaving.isNone && match t.place with
    | .resident _ _ => true
    | .foehn _ _ => true
    | _ => false

/-- A candidate for issue: the age of a class and where its lowest lane stands. -/
structure Cand where
  age : Nat
  core : Nat
  team : Nat
  grp : Nat
  lane : Nat
  deriving DecidableEq, Repr

/-- Older first; ties go to the lower group on the core, then to the class that holds the lower lane (R240). Groups of different teams on a core have
no common numbers: the team that stands first in the state goes first, as does the lower core (DESIGN CHOICE log 81). -/
def Cand.before (a b : Cand) : Bool :=
  if a.age != b.age then decide (a.age < b.age)
  else if a.core != b.core then decide (a.core < b.core)
  else if a.team != b.team then decide (a.team < b.team)
  else if a.grp != b.grp then decide (a.grp < b.grp)
  else decide (a.lane < b.lane)

def Cand.best (a : Cand) : Option Cand → Cand
  | none => a
  | some b => if b.before a then b else a

/-- Whether the token that a thread waits for in ACQR is its team's, so that its condition holds (06 R199). -/
def State.acqrDone (s : State) (tm : Nat) (t : Team) (region : Nat) : Bool :=
  s.tokens.any fun k => k.asid == s.asidOf t.ctx && k.region == region && k.holder == some tm

/-- The eligible threads of one thread's PC, window base and privilege level (R238). Threads that wait in ACQR and whose condition is false,
which `done` answers by region, stand apart: they are not eligible (06 R199). -/
def classOf (done : Nat → Bool) (g : Group) (l : Nat) : List Nat :=
  match g.threads[l]? with
  | none => []
  | some th =>
    let key (x : Thread) : Option Nat := x.region.filter fun r => !done r
    (List.range g.threads.length).filter fun i => match g.threads[i]? with
      | some x => x.eligible && x.pc == th.pc && x.base == th.base && x.sys == th.sys && key x == key th
      | none => false

/-- The age of the oldest class of a group, and the lowest lane of such a class (R240). -/
def Group.oldest (done : Nat → Bool) (g : Group) : Option (Nat × Nat) :=
  let ages := (g.threads.filter Thread.eligible).map (·.age)
  match ages with
  | [] => none
  | a :: r =>
    let age := r.foldl Nat.min a
    ((List.range g.threads.length).find? fun l => (g.threads[l]?).any Thread.eligible &&
      (classOf done g l).any fun i => (g.threads[i]?).any (·.age == age)).map fun l => (age, l)

def bestGroup (done : Nat → Bool) (t : Team) (team : Nat) : Nat → List Group → Option Cand
  | _, [] => none
  | g, x :: r =>
    match x.oldest done with
    | some (a, l) => some (Cand.best { age := a, core := t.coreOf g, team := team, grp := g, lane := l } (bestGroup done t team (g + 1) r))
    | none => bestGroup done t team (g + 1) r

def State.bestTeam (s : State) : Nat → List Team → Option Cand
  | _, [] => none
  | i, t :: r =>
    if t.issues then
      match bestGroup (s.acqrDone i t) t i 0 t.groups with
      | some c => some (c.best (s.bestTeam (i + 1) r))
      | none => s.bestTeam (i + 1) r
    else s.bestTeam (i + 1) r

/-- The lanes of a class with a certain word, or none, in the fetch buffer. -/
def Group.holding (g : Group) (lanes : List Nat) (w : Option Word) : List Nat :=
  lanes.filter fun i => ((g.threads[i]?).map fun th => th.buffered == w).getD false

/-- Whether a lane stands in the middle of an access over a link. -/
def State.midway (s : State) (tm g l : Nat) : Bool := s.links.any fun r => r.owner == .lane tm g l

/-- Whether a thread's store to a register block is still to be performed: its next instruction waits for that (21 R444). -/
def State.regPending (s : State) (tm g l : Nat) : Bool := s.baseDies.any fun k => k.regq.any fun x => x.owner == some (tm, g, l)

/-- The frame address that a wait watches beyond this team's scratch. -/
def WaitKind.framePa : WaitKind → Option Nat
  | .bwait _ p => p
  | .word _ p => p
  | .wordSys _ p => p
  | _ => none

/-- Whether a thread stands in a wait whose condition was false when the step began: it is not eligible (R238, R256). One that watches something
beyond a link looks again whenever no request of its own is outstanding. -/
def State.idle (s : State) (tm g l : Nat) (th : Thread) : Bool :=
  match th.wait with
  | none => false
  | some k => !th.stirred && !(k.framePa.any (fun p => paClass p != .dram) &&
      s.links.all fun r => r.owner != .lane tm g l || r.done.isSome)

/-- The teams among which the choice is made: without the threads whose wait is not over and those whose register stores are pending, and of a
team that is leaving, only the lanes that have an access over a link to finish (06 R202). -/
def State.issuers (s : State) : List Team :=
  if s.links.isEmpty && s.baseDies.all (·.regq.isEmpty) && s.teams.all (fun t => t.groups.all fun g => g.threads.all (·.wait.isNone)) then s.teams
  else
    let out (t : Team) (tm g l : Nat) (th : Thread) : Bool :=
      s.regPending tm g l || s.idle tm g l th || (t.leaving.isSome && !s.midway tm g l)
    let thread (t : Team) (tm g l : Nat) (th : Thread) : Thread := if out t tm g l th then { th with exited := true } else th
    let group (t : Team) (tm g : Nat) (x : Group) : Group := { x with threads := x.threads.mapIdx (thread t tm g) }
    s.teams.mapIdx fun tm t =>
      if t.leaving.isSome && s.links.isEmpty then t
      else { t with leaving := none, groups := t.groups.mapIdx (group t tm) }

/-- The class of a candidate. -/
def State.classAt (s : State) (c : Cand) (g : Group) : List Nat := classOf (s.acqrDone c.team (s.team c.team)) g c.lane

/-- The operation of the oldest class, with the state after its fetch; or the state in which its fetch has faulted; or nothing to
issue. -/
inductive Picked where
  | nothing
  | op (s : State)
  | done (s : State)

/-- The word of a class and the lanes that issue it. A thread with the word in its fetch buffer takes it from there, the others from one fetch;
the class is those that get one word, the lead's (DESIGN CHOICE log 50). The state is that after the fetch, if there was one. -/
def State.classWord (s : State) (tm grp : Nat) (g : Group) (lead : Nat) (lanes : List Nat) (pc : DWord) : State × Fetched × List Nat :=
  let plain := g.holding lanes none
  match (g.threads[lead]?).bind (·.buffered) with
  | some w =>
    let same := g.holding lanes (some w)
    if plain.isEmpty then (s, .word w, same)
    else
      let (s1, f) := s.fetch tm grp plain pc
      (s1, .word w, if f == .word w then lanes.filter fun l => same.contains l || plain.contains l else same)
  | none =>
    let (s1, f) := s.fetch tm grp plain pc
    match f with
    | .word w =>
      let same := g.holding lanes (some w)
      (s1, f, lanes.filter fun l => same.contains l || plain.contains l)
    | .ends _ => (s1, f, plain)

def State.pick (s : State) : Picked :=
  match s.bestTeam 0 s.issuers with
  | none => .nothing
  | some c =>
    match (s.issuers[c.team]?).bind (·.groups[c.grp]?) with
    | none => .nothing
    | some g =>
      match g.threads[c.lane]? with
      | none => .nothing
      | some th =>
        let (s1, f, lanes) := s.classWord c.team c.grp g c.lane (s.classAt c g) th.pc
        let op (w : Word) : Op :=
          { team := c.team, grp := c.grp, lanes := maskOf lanes, pc := th.pc, base := th.base, sys := th.sys, word := w }
        match f with
        | .word w => .op { s1 with cur := some (op w) }
        | .ends e => .done (s1.finish (op 0) (lanes.map fun l => LaneOut.only l e))

end Sys2Proof.Machine
end

