-- ==== Sys2Proof/Machine/Teams.lean ====
section
/-! DEFINITION. A team at its start (09 R237, 10 R264, 14 R334), from the launch that asked for it; a near-memory call (20 R412,
R414) and firmware (21 R443) start theirs from a launch of one team. -/

namespace Sys2Proof.Machine

open Sys2Proof

/-- The initial state of a generator (R334): seed XOR (n * k), with 0 taken as 1. -/
def genStart (seed : Word) (n : Nat) (k : Word) : Word := srSeed (seed ^^^ (BitVec.ofNat 32 n * k))

def threadMix : Word := 0x9e3779b9
def teamMix : Word := 0x85ebca6b

/-- MCR after reset: WIN 4, rm 0, ZSKIP 0 (R156). -/
def mcrReset : Word := 4

def TeamEng.start (seed : Word) (index : Nat) : TeamEng :=
  { tiles := List.replicate 16 none, mcr := mcrReset, mfx := 0, latch := none, latchIssued := none, queue := [], seq := 1,
    issuedAny := false, done := 0, covered := [], faults := [], egen := genStart seed index teamMix, stale := [] }

/-- The pool state of a team that holds `scr` and `mxs` banks: zeros, and the counters at their launch values (R142). -/
def TeamPool.start (scr mxs nregs : Nat) : TeamPool :=
  { scrBanks := scr, mxsBanks := mxs, scr := [], scrTags := [], scrErrs := [], mxs := [], flags := [], mxsErrs := [], relocs := 0,
    waits := 0, refusals := 0, grants := 0, peakScr := scr, peakMxs := mxs, peakReg := nregs / 8 }

/-- Group `g` at its start (R237). -/
def Group.start (l : Launch) (g : Nat) (sys : Bool) : Group :=
  { gcr := 4, role := (l.roles[g]?).getD .general, regs := List.replicate l.nregs VReg.fresh,
    threads := (List.range l.gw).map fun i => Thread.start l.entry (genStart l.seed (g * l.gw + i) threadMix) sys }

/-- Scratch as the launch unit leaves it: the ring objects, the argument block at %argo and the input record (R186, R264). -/
def startScratch (l : Launch) (argo : Nat) : Mem :=
  let rings := l.rings.foldl (fun (m : Mem) (r : Nat × Nat) => memWrite m (16 * r.1) [0, 0, BitVec.ofNat 8 r.2, 0]) []
  let args := memWrite rings argo l.args
  match l.input with
  | some r => memWrite args (argo + 240) r
  | none => args

/-- Team `index` of a launch, not yet placed (R235, R237). -/
def Team.start (kind : TeamKind) (l : Launch) (index : Nat) (sys : Bool) : Team :=
  let argo := if l.rings.isEmpty then 0 else 128
  { kind := kind, ctx := l.ctx, handle := l.handle, index := index, tmx := index % l.x, tmy := index / l.x % l.y,
    tmz := index / l.x / l.y, gw := l.gw, nregs := l.nregs, pair := l.pair, fusel1 := l.fusel1, prio := l.prio,
    curPrio := l.prio, savePrio := 0, seed := l.seed, rings := l.rings, argo := argo, place := .queued, placedAt := 0,
    groups := (List.range l.groups).map fun g => Group.start l g sys, cregs := List.replicate 16 CReg.fresh, ctags := 0,
    pool := { TeamPool.start l.scr l.mxs l.nregs with scr := startScratch l argo }, eng := TeamEng.start l.seed index,
    cmdCounter := 1, arrivals := [], leaving := none, recordAt := 0, saved := [], spillAt := 0, callId := 0 }

/-- A launch of one team with the smallest shape. -/
def Launch.one (handle ctx : Nat) (entry : DWord) (seed : Word) (gw groups : Nat) : Launch :=
  { handle := handle, ctx := ctx, order := 0, entry := entry, x := 1, y := 1, z := 1, held := false, seed := seed, inq := 0xffff,
    outq := 0xffff, args := [], gw := gw, groups := groups, nregs := 96, scr := 0, mxs := 0, pair := false, fusel1 := false,
    prio := 0, rings := [], roles := [], viaHol := true, input := none, placed := 1, ended := 0, poolRecord := false,
    finished := 0 }

/-- Every thread of a team given the age of a clock tick (DESIGN CHOICE log 1). -/
def Team.age (t : Team) (n : Nat) : Team :=
  { t with groups := t.groups.map fun g => { g with threads := g.threads.map fun th => { th with age := n } } }

end Sys2Proof.Machine
end

