-- ==== Sys2Proof/Machine/Sync.lean ====
section
/-! DEFINITION. Majors 0x32, 0x33, 0x35, 0x36 and 0x3D: barriers and stage rings (06 R178 to R187), fences (R188 to R190), cache
maintenance (R195 to R197), region tokens (R198 to R201), waits (07 R224). -/

namespace Sys2Proof.Machine

open Sys2Proof

/-! ## Steps by a thread (R179, R183, R428) -/

/-- Whether a SYS-scope release of the context still waits for an acknowledgement of a store that the context has sent over a link (R189). -/
def State.linksDue (s : State) (ctx : Nat) : Bool :=
  s.links.any fun r => r.ctx == ctx && r.kind == 1 && r.done.isNone && match r.owner with
    | .device _ => true
    | _ => false

/-- Whether a part of a thread's S2G copies that goes over a link is not acknowledged yet: its release at SYS scope waits for it (R188, R189). -/
def State.partsDue (s : State) (tm g l : Nat) : Bool :=
  s.links.any fun r => r.kind == 1 && r.done.isNone && match r.owner with
    | .copy id => s.copies.any fun c => c.id == id && c.team == tm && c.grp == g && c.lane == l
    | _ => false

/-- Whether a release of a thread at SYS scope still waits (R189). -/
def State.sysDue (s : State) (ctx tm g l : Nat) : Bool := s.linksDue ctx || s.partsDue tm g l

/-- A release at TEAM scope by some threads of a group. -/
def State.relLanes (s : State) (tm g : Nat) (ls : List Nat) : State := ls.foldl (fun (st : State) (l : Nat) => st.relTeam tm g l) s

/-- A release at DEV scope by every thread of a team, which holds the tokens as a whole (R198, R200). -/
def State.releaseHolder (s : State) (tm : Nat) : State :=
  let t := s.team tm
  (List.range t.groups.length).foldl (fun (x : State) (g : Nat) =>
    (List.range t.gw).foldl (fun (y : State) (l : Nat) => y.relDev tm g l) x) s

/-- Whether an address reaches this device's memory through its own span of the peer window (R427, R428). -/
def State.viaSpan (s : State) (ctx va : Nat) : Bool :=
  match (s.translate ctx va).2 with
  | .ok e => match paClass (e.frame + (va - e.base)) with
    | .peer _ _ => true
    | _ => false
  | _ => false

/-- What a thread's access to a barrier object has come to: the object before the step, or another end of the lane. -/
inductive BarGot where
  | obj (o : BarObj)
  | ends (e : LaneEnd)
  deriving DecidableEq, Repr

/-- What an access to an SC page does first (17 R373, R378): everything that FENCE.REL.DEV completes. -/
def State.scRelease (s : State) (i : Iss) (l : Nat) (attr : BitVec 2) : State :=
  if attr == attrSC then s.relDev i.op.team i.op.grp l else s

/-- The object at a checked place, read as the waits and tests read it: at the pool port, at home, or over the link. -/
def State.barRead (s : State) (i : Iss) (l va : Nat) (p : Spot) : State × BarGot :=
  let t := s.team i.op.team
  let refuse (c : BitVec 8) : BarGot := .ends (.fault c 0 (BitVec.ofNat 64 va))
  match p with
  | .scr off =>
    if t.scrBad off 16 then (s, refuse cUncorrectable)
    else
      let (s1, b) := s.scrRead i.op.team off 16
      (s1, .obj (BarObj.ofBytes b))
  | .page attr pa =>
    if paClass pa == .dram && s.memoryWaits i va pa 16 attr 1 false then (s, .ends .stay) else
    let s0 := s.scRelease i l attr
    if paClass pa == .dram then
      let asid := s0.asidOf t.ctx
      let (s1, d) := (s0.l1Bypass (l1Core t (t.coreOf i.op.grp) va) asid va 16).homeRead asid va pa 16 true
      match d with
      | .ok b => (s1, .obj (BarObj.ofBytes b))
      | .bad c => (s1, refuse c)
    else
      let (s1, r) := s0.linkCall t.ctx (.lane i.op.team i.op.grp l) 0 pa 16 []
      match r with
      | .pending => (s1, .ends .stay)
      | .refused => (s1, refuse cProtection)
      | .answered b => (s1, .obj (BarObj.ofBytes b))
  | _ => (s, refuse cProtection)

/-- One step by a thread on the object at a checked place. -/
def State.barStep (s : State) (i : Iss) (l va : Nat) (p : Spot) (k : BarStep) : State × BarGot :=
  let t := s.team i.op.team
  let refuse (c : BitVec 8) : BarGot := .ends (.fault c 0 (BitVec.ofNat 64 va))
  let got (r : State × Except (BitVec 8) BarObj) : State × BarGot :=
    match r.2 with
    | .ok o => (r.1, .obj o)
    | .error c => (r.1, refuse c)
  match p with
  | .scr off => got (s.barScratch i.op.team off k)
  | .page attr pa =>
    if paClass pa == .dram && s.memoryWaits i va pa 16 attr 1 false then (s, .ends .stay) else
    let s' := s.scRelease i l attr
    if paClass pa == .dram then
      match s'.stepHeld pa with
      | (s0, some _) => (s0, .ends .stay)
      | (s0, none) =>
        let asid := s0.asidOf t.ctx
        got ((s0.l1Bypass (l1Core t (t.coreOf i.op.grp) va) asid va 16).barHome asid va pa true k)
    else
      let (s1, r) := s'.linkCall t.ctx (.lane i.op.team i.op.grp l) 4 pa 16 k.payload
      match r with
      | .pending => (s1, .ends .stay)
      | .refused => (s1, refuse cProtection)
      | .answered b => (s1, .obj (BarObj.ofBytes b))
  | _ => (s, refuse cProtection)

/-- The release an arrival is (R182, R183, R428): TEAM scope for scratch, DEV for a global object, SYS where it is EXTERNAL or reached through
a peer window, the device's own span included; whether it still waits. -/
def State.barRelease (s : State) (i : Iss) (l va : Nat) (p : Spot) : State × Bool :=
  match p with
  | .scr _ => (s.relTeam i.op.team i.op.grp l, false)
  | .page _ pa =>
    let ctx := (s.team i.op.team).ctx
    let due (t : State) : Bool := t.sysDue ctx i.op.team i.op.grp l
    let s1 := s.relDev i.op.team i.op.grp l
    if paClass pa == .dram then
      let (s2, g) := s1.barRead i l va p
      match g with
      | .obj o => (s2, (o.ext || s2.viaSpan ctx va) && due s2)
      | .ends _ => (s2, false)
    else (s1, due s1)
  | _ => (s, false)

/-- The acquire at an object's scope (R183). -/
def State.barAcquire (s : State) (i : Iss) (p : Spot) : State :=
  match p with
  | .scr _ => s.acquireTeam i.op.team i.op.grp
  | _ => s.acquireDev i.op.team i.op.grp

/-- A phase of an object acquired by a team: the bytes of its copies that completed phases of the object have counted are definite (R173). -/
def State.acquired (s : State) (tm va : Nat) (p : Spot) (o : BarObj) : State :=
  let here (c : Copy) : Bool := c.team == tm && match p with
    | .scr _ => c.barrier == va
    | .page _ pa => !inAperture c.barrier && c.barPa == pa
    | _ => false
  { s with landed := s.landed.filter fun x => !(here x.copy && x.phase != some o.phase) }

/-- Whether a copy in flight will decrement the object at `va` (R181). -/
def State.barCopied (s : State) (tm va : Nat) (p : Spot) : Bool :=
  s.copies.any fun c => match p with
    | .scr _ => c.team == tm && c.barrier == va
    | .page _ pa => !inAperture c.barrier && c.barPa == pa
    | _ => false

/-! ## Functions 0 to 5 (R180) -/

/-- A barrier instruction on the object at pair a, per lane in order. -/
def barOp (f : Form) (a : Reg) (body : Iss → State → Nat → Nat → Spot → State × LaneOut) : State → Out :=
  issue { f with txn := false } (eachLane fun i s l =>
    let va := i.view.pair a l
    let (s1, c) := s.check i l va a 0 askBarrier
    match c with
    | .error e => (s1, .only l e)
    | .ok p => body i s1 l va p)

/-- The form of a barrier instruction that no Foehn core accepts. -/
def barForm (srcs : List (Reg × Nat)) (dst : Option (Reg × Nat)) : Form := { Form.plain srcs dst .g with foehn := false }

/-- BINIT (R181): undefined words where a copy in flight will decrement the object. -/
def execBinit (d a b : Reg) (s : State) : Out :=
  barOp (barForm [(a, 2), (b, 1), (d, 1)] none) a (fun i s l va p =>
    let fl := i.view.reg d l
    let arr := (i.view.reg b l).toNat % 65536
    let (s1, g) := s.barStep i l va p (.init arr (fl.toNat / 256) (fl.getLsbD 0))
    match g with
    | .ends e => (s1, .only l e)
    | .obj _ =>
      if s.barCopied i.op.team va p then
        let (bs, s2) := s1.freeBytes 16
        match p with
        | .scr off => (s2.scrWrite i.op.team off bs false, .only l .next)
        | .page _ pa =>
          (if paClass pa == .dram then s2.homeWrite (s2.asidOf i.team.ctx) va pa bs true else s2, .only l .next)
        | _ => (s2, .only l .next)
      else (s1, .only l .next)) s

/-- An arrival or expectation: the release, the step, and the token where d takes one. -/
def barUpdate (arrival token : Bool) (k : BarStep) (i : Iss) (s : State) (l va : Nat) (p : Spot) : State × LaneOut :=
  let (s1, due) := if arrival then s.barRelease i l va p else (s, false)
  if due then (s1, .only l .stay)
  else
    let (s2, g) := s1.barStep i l va p k
    match g with
    | .ends e => (s2, .only l e)
    | .obj o => (s2, if token then .write l [BitVec.ofNat 32 o.phase] else .only l .next)

/-- The arrival of a call's thread (R416): on a call barrier only, in memory at the base die. -/
def callArrive (a : Reg) (n : Nat) (i : Iss) (s : State) (l va : Nat) : State × LaneOut :=
  let fault (c : BitVec 8) : State × LaneOut := (s, .fault l c va)
  if va % 16 ≠ 0 then fault cMisaligned
  else if !capOk i l a 0 16 (permR + permW + permAtomic) then fault cCapability
  else match s.callOf i.op.team with
    | none => fault cProtection
    | some c =>
      match c.extents.find? fun e => decide (e.lo ≤ va) && decide (va + 16 ≤ e.hi) && e.out && attrBarrier e.attr false &&
          decide (Nat.land (permW + permAtomic) (c.slotPerm e.slot) = permW + permAtomic) with
      | none => fault cProtection
      | some e =>
        if s.physWaits true (e.pa + (va - e.lo)) 16 then (s, .only l .stay) else
        let (s1, r) := s.barMemory i.op.team (s.asidOf i.team.ctx) va (e.pa + (va - e.lo)) (.arrive n)
        match r with
        | .ok o => (s1, .write l [BitVec.ofNat 32 o.phase])
        | .error k => (s1, .fault l k va)

/-- ARRIVE (R182, R416). -/
def execArrive (d a b : Reg) (s : State) : Out :=
  let f : Form := { Form.plain [(a, 2), (b, 1)] (some (d, 1)) .g with txn := false }
  issue f (eachLane fun i s l =>
    let va := i.view.pair a l
    let n := (i.view.reg b l).toNat % 65536
    if i.team.onFoehn then callArrive a n i s l va
    else
      let (s1, c) := s.check i l va a 0 askBarrier
      match c with
      | .error e => (s1, .only l e)
      | .ok p => barUpdate true true (.arrive n) i s1 l va p) s

/-- ARRIVEB (R182). -/
def execArriveb (d a b : Reg) (s : State) : Out :=
  barOp (barForm [(a, 2), (b, 1)] (some (d, 1))) a
    (fun i s l va p => barUpdate true true (.arriveBytes (i.view.reg b l)) i s l va p) s

/-- EXPECT (R182). -/
def execExpect (a b : Reg) (s : State) : Out :=
  barOp (barForm [(a, 2), (b, 1)] none) a (fun i s l va p => barUpdate false false (.expect (i.view.reg b l)) i s l va p) s

/-- The frame address by which a wait is known to whoever changes what it waits for; none for the team's own scratch (10 R271). -/
def Spot.framePa : Spot → Option Nat
  | .page _ pa => some pa
  | _ => none

/-- BWAIT (R183): a recorded fault of a copy, command or MSEQ is raised in the lane. -/
def execBwait (d a b : Reg) (s : State) : Out :=
  barOp (barForm [(a, 2), (b, 1)] (some (d, 1))) a (fun i s l va p =>
    let (s1, g) := s.barRead i l va p
    match g with
    | .ends .stay =>
      let same (th : Thread) : Bool := th.wait == some (.bwait va p.framePa)
      (s1.modThread i.op.team i.op.grp l fun th => { th with farExt := th.farExt && same th }, .only l (.wait (.bwait va p.framePa)))
    | .ends e => (s1, .only l e)
    | .obj o =>
      if o.phase = (i.view.reg b l).toNat % 256 then
        (s1.modThread i.op.team i.op.grp l fun th => { th with farExt := o.ext }, .only l (.wait (.bwait va p.framePa)))
      else
        let s2 := (s1.barAcquire i p).acquired i.op.team va p o
        if o.err && o.origin = 1 then (s2, .fault l (BitVec.ofNat 8 o.code) va) else (s2, .write l [o.status])) s

/-- BTEST (R183). -/
def execBtest (d a b : Reg) (s : State) : Out :=
  barOp (barForm [(a, 2), (b, 1)] (some (d, 1))) a (fun i s l va p =>
    let (s1, g) := s.barRead i l va p
    match g with
    | .ends e => (s1, .only l e)
    | .obj o =>
      if o.phase = (i.view.reg b l).toNat % 256 then (s1, .write l [0]) else ((s1.barAcquire i p).acquired i.op.team va p o, .write l [1])) s

/-! ## GSYNC and TSYNC (R185) -/

/-- Whether a thread has arrived at the group or team barrier `k`. -/
def Thread.atSync (k : WaitKind) (th : Thread) : Bool :=
  th.exited || (th.synced && th.wait == some k && th.park.isNone && !th.inTrap)

/-- A thread that executes the barrier: it has arrived, and it waits from now on when it did not before (R185, R268). -/
def Thread.sync (k : WaitKind) (clock tswap : Nat) (th : Thread) : Thread :=
  ({ th with synced := true, wait := some k } : Thread).noteWait th.waiting clock tswap

/-- The TSWAP of a team's context (10 R269). -/
def State.swapTime (s : State) (tm : Nat) : Nat := ((s.ctxOf (s.team tm).ctx).map (·.tswap)).getD 0

/-- Whether a load of one of some threads has not landed: a release waits for it (R188). -/
def State.loadsDue (s : State) (tm : Nat) (p : Nat → Nat → Bool) : Bool :=
  s.loads.any fun d => d.team == tm && d.lanes.any fun x => p d.grp x.lane

/-- The threads of lanes that execute the barrier: noted as arrived, or let go when the barrier has released them; its release is one of every
thread, at GRP or TEAM scope (R185, R188). -/
def syncBody (k : WaitKind) (whole : Bool) (i : Iss) (s : State) : State × List LaneOut :=
  let tm := i.op.team
  let freed := i.lanes.filter fun l => let th := s.threadOf i l
    th.wait == some k && !th.synced
  let new := i.lanes.filter fun l => !freed.contains l
  let s1 := s.modGroup tm i.op.grp fun g => g.modLanes new fun _ th => th.sync k s.clock (s.swapTime tm)
  let t := s1.team tm
  let all := if whole then t.groups.all fun g => g.threads.all (Thread.atSync k)
    else ((t.groups[i.op.grp]?).map fun g => g.threads.all (Thread.atSync k)).getD false
  let due := s1.loadsDue tm fun g _ => whole || g == i.op.grp
  if !new.isEmpty && all && !due then
    let lanes := List.range t.gw
    let s2 := if whole then
        (List.range t.groups.length).foldl (fun (st : State) (g : Nat) => (st.relLanes tm g lanes).acquireTeam tm g) s1
      else lanes.foldl (fun (st : State) (l : Nat) => st.doCopies tm i.op.grp l fun _ => true) s1
    let clear (g : Group) : Group := { g with threads := g.threads.map fun th => { th with synced := false } }
    let s3 := if whole then s2.modTeam tm fun t => { t with groups := t.groups.map clear } else s2.modGroup tm i.op.grp clear
    (s3, i.lanes.map fun l => .only l .next)
  else (s1, i.lanes.map fun l => .only l (if new.contains l then .wait k else .next))

/-- GSYNC (R185). -/
def execGsync (s : State) : Out := issue { barForm [] none with txn := false } (syncBody .gsync false) s

/-- TSYNC (R185). -/
def execTsync (s : State) : Out := issue { barForm [] none with txn := false } (syncBody .tsync true) s

/-! ## Stage rings (R186, R187) -/

/-- A ring object. -/
structure RingObj where
  depth : Nat
  ci : Nat
  pi : Nat
  state : Nat
  phases : Nat
  deriving DecidableEq, Repr

def RingObj.ofBytes (b : List Byte) : RingObj :=
  let w (k : Nat) : Nat := natOf ((b.drop (4 * k)).take 4)
  { depth := w 0 / 65536 % 256, ci := w 0 / 256 % 256, pi := w 0 % 256, state := w 1 % 65536, phases := w 2 % 256 }

def RingObj.bytes (r : RingObj) : List Byte :=
  bytesOf 4 (r.depth * 65536 + r.ci * 256 + r.pi) ++ bytesOf 4 r.state ++ bytesOf 4 r.phases ++ bytesOf 4 0

/-- The state of a slot: 0 EMPTY, 1 FILLING, 2 FULL, 3 DRAINING. -/
def RingObj.slot (r : RingObj) (k : Nat) : Nat := r.state / 4 ^ k % 4

/-- A slot put into another state. -/
def RingObj.set (r : RingObj) (k v : Nat) : RingObj := { r with state := r.state - r.slot k * 4 ^ k + v * 4 ^ k }

/-- The slot word s | phase(s) << 8. -/
def RingObj.word (r : RingObj) (k : Nat) : Word := BitVec.ofNat 32 (k + 256 * (r.phases / 2 ^ k % 2))

/-- A ring instruction over the whole class: ROLE for a ring the launch did not declare, else the object's new state with the
result, or a wait. -/
def ringOp (id : BitVec 3) (srcs : List (Reg × Nat)) (d : Reg)
    (f : Iss → RingObj → Option (RingObj × Word)) (after : State → Nat → Nat → List Nat → State) : State → Out :=
  issue { barForm srcs (some (d, 1)) with txn := false, laneOp := true } (fun i s =>
    let tm := i.op.team
    let t := s.team tm
    let k := id.toNat
    if !(t.rings.any fun r => r.1 == k) then (s, i.lanes.map fun l => .fault l cRole i.op.word.toNat)
    else if s.relocating tm then (s, i.lanes.map fun l => .only l .stay)
    else if t.scrBad (16 * k) 16 then (s, i.lanes.map fun l => .fault l cUncorrectable (apBase + 16 * k))
    else
      let (s0, b) := s.scrRead tm (16 * k) 16
      match f i (RingObj.ofBytes b) with
      | none => (s0, i.lanes.map fun l => .only l (.wait (.ring k)))
      | some (r, w) =>
        let s1 := if w = 1 && !srcs.isEmpty then s0 else after (s0.scrPut tm (16 * k) r.bytes false) tm i.op.grp i.lanes
        (s1, i.lanes.map fun l => .write l [w]))

/-- RINGA: takes slot PI once it is EMPTY. -/
def execRinga (d : Reg) (id : BitVec 3) (s : State) : Out :=
  ringOp id [] d (fun _ r => if r.slot r.pi = 0 then some ({ r.set r.pi 1 with pi := (r.pi + 1) % r.depth }, r.word r.pi) else none)
    (fun s _ _ _ => s) s

/-- RINGF: the slot of the lowest lane's a goes from FILLING to FULL, a release at TEAM scope. -/
def execRingf (d a : Reg) (id : BitVec 3) (s : State) : Out :=
  ringOp id [(a, 1)] d (fun i r =>
    let k := (i.view.reg a (i.lanes.headD 0)).toNat % 256
    if r.slot k = 1 then some (r.set k 2, 0) else some (r, 1)) (fun s t g ls => s.relLanes t g ls) s

/-- RINGW: takes slot CI once it is FULL, an acquire at TEAM scope. -/
def execRingw (d : Reg) (id : BitVec 3) (s : State) : Out :=
  ringOp id [] d (fun _ r => if r.slot r.ci = 2 then some ({ r.set r.ci 3 with ci := (r.ci + 1) % r.depth }, r.word r.ci) else none)
    (fun s t g _ => s.acquireTeam t g) s

/-- RINGE: the slot of the lowest lane's a goes from DRAINING to EMPTY and its phase flips, a release at TEAM scope. -/
def execRinge (d a : Reg) (id : BitVec 3) (s : State) : Out :=
  ringOp id [(a, 1)] d (fun i r =>
    let k := (i.view.reg a (i.lanes.headD 0)).toNat % 256
    if r.slot k = 3 then some ({ r.set k 0 with phases := Nat.xor r.phases (2 ^ k) % 256 }, 0) else some (r, 1))
    (fun s t g ls => s.relLanes t g ls) s

/-! ## Fences (R188 to R190) -/

/-- The release half of a fence at a scope: 0 GRP, 1 TEAM, 2 DEV, 3 SYS. -/
def State.fenceRel (s : State) (i : Iss) (scope l : Nat) : State :=
  match scope with
  | 0 => s.doCopies i.op.team i.op.grp l fun _ => true
  | 1 => s.relTeam i.op.team i.op.grp l
  | _ => s.relDev i.op.team i.op.grp l

/-- The acquire half. -/
def State.fenceAcq (s : State) (i : Iss) (scope : Nat) : State :=
  match scope with
  | 0 => s
  | 1 => s.acquireTeam i.op.team i.op.grp
  | _ => s.acquireDev i.op.team i.op.grp

/-- A fence per lane. A release waits for the thread's loads to land; one at SYS scope completes once the links have acknowledged. -/
def fence (rel acq : Bool) (scope : BitVec 2) : State → Out :=
  issue { barForm [] none with txn := false } (eachLane fun i s l =>
    if rel && s.loadsDue i.op.team (fun g x => g == i.op.grp && x == l) then (s, .only l .stay)
    else
    let s1 := if rel then s.fenceRel i scope.toNat l else s
    if rel && scope == 3 && s1.sysDue i.team.ctx i.op.team i.op.grp l then (s1, .only l .stay)
    else (if acq then s1.fenceAcq i scope.toNat else s1, .only l .next))

/-- FENCE.ACQ. -/
def execFenceAcq (scope : BitVec 2) (s : State) : Out := fence false true scope s

/-- FENCE.REL. -/
def execFenceRel (scope : BitVec 2) (s : State) : Out := fence true false scope s

/-- FENCE.AR. -/
def execFenceAr (scope : BitVec 2) (s : State) : Out := fence true true scope s

/-- FENCE.SC: AR; its place in the order of SC fences is that of its step. -/
def execFenceSc (scope : BitVec 2) (s : State) : Out := fence true true scope s

/-- FENCE.ACQ.DEV.PROMOTE (R190): every core writes back the context's dirty RC words first. -/
def execFenceAcqDevPromote (s : State) : Out :=
  issue { barForm [] none with txn := false } (eachLane fun i s l =>
    ((s.promote i.team.ctx).acquireDev i.op.team i.op.grp, .only l .next)) s

/-! ## Cache and instruction-fetch maintenance (R195 to R197) -/

/-- Whether a word lies in [lo, lo + n), in whole or in part. R195 gives the operations a range of bytes and says nothing of a word that lies in it
only in part: they act on the whole word (DESIGN CHOICE log 71). -/
def inRange (va lo n : Nat) : Bool := decide (va + 4 > lo) && decide (va < lo + n)

/-- A maintenance operation on the range [pair a, pair a + n(b)) per lane. -/
def cacheOp (a b : Reg) (f : Iss → State → Nat → Nat → State) : State → Out :=
  issue { Form.plain [(a, 2), (b, 1)] none .table with foehn := false, roles := rolesMemory, txn := false }
    (eachLane fun i s l =>
      let n := (i.view.reg b l).toNat
      (if n = 0 then s else f i s (i.view.pair a l) n, .only l .next))

/-- Words of the range in the executing core's L1 written back, and removed when `inv`. -/
def l1Maintain (inv : Bool) (i : Iss) (s : State) (lo n : Nat) : State :=
  let asid := s.asidOf i.team.ctx
  (l1Set i.team (i.team.coreOf i.op.grp)).foldl (fun (st : State) (c : Nat) =>
    st.l1Write c (fun w => w.asid == asid && inRange w.va lo n) inv) s

/-- CWB. -/
def execCwb (a b : Reg) (s : State) : Out := cacheOp a b (l1Maintain false) s

/-- CINV: dirty words are discarded. -/
def execCinv (a b : Reg) (s : State) : Out :=
  cacheOp a b (fun i s lo n =>
    let asid := s.asidOf i.team.ctx
    (l1Set i.team (i.team.coreOf i.op.grp)).foldl (fun (st : State) (c : Nat) =>
      st.modCore c fun k => { k with l1 := k.l1.filter fun w => !(w.asid == asid && inRange w.va lo n) }) s) s

/-- CWBI. -/
def execCwbi (a b : Reg) (s : State) : Out := cacheOp a b (l1Maintain true) s

/-- IINV: the range leaves the instruction caches of every core. -/
def execIinv (a b : Reg) (s : State) : Out :=
  cacheOp a b (fun i s lo n =>
    let asid := s.asidOf i.team.ctx
    ({ s with cores := s.cores.map (Core.dropCode asid lo n) } : State)) s

/-- FETCHB: the fetch buffers of the bundle's threads are emptied. -/
def execFetchb (s : State) : Out :=
  issue { Form.plain [] none .table with foehn := false, roles := rolesMemory, txn := false } (fun i s =>
    (s.modGroup i.op.team i.op.grp fun g => g.modLanes i.lanes fun _ th => { th with fbuf := [] }, i.lanes.map fun l => .only l .next)) s

/-- PREF: no effect on any value (R197). -/
def execPref (a b : Reg) (s : State) : Out := cacheOp a b (fun _ s _ _ => s) s

/-! ## Region tokens (R198 to R201) -/

/-- A token entry put in the place of the one for its region; one with no holder leaves the table. -/
def State.setToken (s : State) (k : Token) : State :=
  let rest := s.tokens.filter fun t => !(t.asid == k.asid && t.region == k.region)
  { s with tokens := if k.holder.isNone && k.waiters.isEmpty then rest else rest ++ [k] }

/-- A team that waits for a region's token returns to its level when it is out (10 R271). -/
def State.tokenWake (s : State) (region : Nat) : State := s.requeue fun _ th => th.wait == some (.acqr region)

/-- A token freed: the oldest waiting request takes it, or the entry goes. -/
def State.freeToken (s : State) (k : Token) : State :=
  (match k.waiters with
    | [] => s.setToken { k with holder := none }
    | w :: r => s.setToken { k with holder := some w, waiters := r }).tokenWake k.region

/-- The drain of a token (R200). -/
def State.drainToken (s : State) (k : Token) : State := s.drainIp k.asid k.region

/-- A REGN instruction, once per bundle with the lowest lane's operands: MISALIGNED, the region's first page, and then the result
word of every lane. -/
def regnOp (d a : Reg) (bs : List (Reg × Nat)) (f : Iss → State → Nat → TbEntry → State × Except LaneEnd Word) : State → Out :=
  issue { Form.plain ((a, 2) :: bs) (some (d, 1)) .table with foehn := false, roles := rolesMemory, txn := false }
    (fun i s =>
      let va := i.view.pair a (i.lanes.headD 0)
      let all (s : State) (e : LaneEnd) : State × List LaneOut := (s, i.lanes.map fun l => .only l e)
      let addr := BitVec.ofNat 64 va
      if va % regionSize ≠ 0 then all s (.fault cMisaligned 0 addr)
      else if !canonicalVa va then all s (.fault cProtection 0 addr)
      else
        let (s1, r) := s.translate i.team.ctx va
        match r with
        | .absent => all s1 (.park addr)
        | .fault c => all s1 (.fault c 0 addr)
        | .ok e =>
          let (s2, x) := f i s1 (va / regionSize) e
          match x with
          | .error e => all s2 e
          | .ok w => (s2, i.lanes.map fun l => .write l [w]))

/-- The die of a region's entry (R198). -/
def tokenDie (region : Nat) (e : TbEntry) : Nat := if e.pinned then e.stack / 8 else region % 2

/-- The team takes a token: an acquire at DEV scope on every core of the team (R200). -/
def State.tokenAcquire (s : State) (tm : Nat) : State :=
  (List.range (s.team tm).groups.length).foldl (fun (st : State) (g : Nat) => st.acquireDev tm g) s

/-- ACQR (R199). -/
def execAcqr (d a b : Reg) (s : State) : Out :=
  regnOp d a [(b, 1)] (fun i s region e =>
    let tm := i.op.team
    let asid := s.asidOf i.team.ctx
    let entry := s.tokenOf asid (region * regionSize)
    let die := tokenDie region e
    let mine := entry.bind (·.holder) == some tm
    let waiting := i.lanes.any fun l => (s.threadOf i l).wait == some (.acqr region)
    if waiting && mine then (s.tokenAcquire tm, .ok 0)
    else if e.attr != attrIP then (s, .ok 5)
    else if mine then (s, .ok 3)
    else if !waiting && (s.tokens.filter fun t => t.die == die).length ≥ 4096 then (s, .ok 2)
    else match entry with
      | none => ((s.setToken { die := die, asid := asid, region := region, holder := some tm, waiters := [] }).tokenAcquire tm, .ok 0)
      | some k =>
        if !(i.view.reg b (i.lanes.headD 0)).getLsbD 0 then (s, .ok 1)
        else (s.setToken { k with waiters := if k.waiters.contains tm then k.waiters else k.waiters ++ [tm] },
              .error (.wait (.acqr region)))) s

/-- The release of the old holder, which is the team, and the drain, before a token moves (R198, R200). -/
def State.tokenRelease (s : State) (i : Iss) (k : Token) : State := (s.releaseHolder i.op.team).drainToken k

/-- RELR (R200). R199 orders only the tests of ACQR: here, and in GIVR, NOT_IP comes first, then NOT_HOLDER, then NO_SUCH_TEAM (DESIGN
CHOICE log 52). -/
def execRelr (d a : Reg) (s : State) : Out :=
  regnOp d a [] (fun i s region e =>
    if e.attr != attrIP then (s, .ok 5)
    else match s.tokenOf (s.asidOf i.team.ctx) (region * regionSize) with
      | some k => if k.holder == some i.op.team then ((s.tokenRelease i k).freeToken k, .ok 0) else (s, .ok 4)
      | none => (s, .ok 4)) s

/-- QRYR (R200). -/
def execQryr (d a : Reg) (s : State) : Out :=
  regnOp d a [] (fun i s region _ =>
    match (s.tokenOf (s.asidOf i.team.ctx) (region * regionSize)).bind (·.holder) with
    | some h => (s, .ok (BitVec.ofNat 32 ((if h == i.op.team then 1 else 2) + 256 * (s.team h).index)))
    | none => (s, .ok 0)) s

/-- The live team `index` of a launch (R200): one not yet placed is there from its launch's acceptance. -/
def State.liveTeam (s : State) (handle index : Nat) : State × Option Nat :=
  match s.launches.find? (fun x => x.handle == handle) with
  | none => (s, none)
  | some l =>
    if index ≥ l.x * l.y * l.z then (s, none)
    else match s.teams.findIdx? (fun t => t.kind == .team && t.handle == handle && t.index == index) with
      | some k => (s, if (s.team k).place == .ended then none else some k)
      | none => ({ s with teams := s.teams ++ [Team.start .team l index false] }, some s.teams.length)

/-- GIVR (R200), its tests in the order of RELR's (DESIGN CHOICE log 52). -/
def execGivr (d a b : Reg) (s : State) : Out :=
  regnOp d a [(b, 1)] (fun i s region e =>
    if e.attr != attrIP then (s, .ok 5)
    else match s.tokenOf (s.asidOf i.team.ctx) (region * regionSize) with
      | none => (s, .ok 4)
      | some k =>
        if k.holder != some i.op.team then (s, .ok 4)
        else
          let (s1, t) := s.liveTeam i.team.handle (i.view.reg b (i.lanes.headD 0)).toNat
          match t with
          | none => (s1, .ok 6)
          | some dest =>
            let s2 := (s1.tokenRelease i k).setToken { k with holder := some dest, waiters := k.waiters.filter (· != dest) }
            ((s2.tokenAcquire dest).tokenWake region, .ok 0)) s

/-! ## Waits (07 R224) -/

/-- The wait conditions of R59. -/
def waitCond (cond : BitVec 2) (x y : Word) : Bool :=
  match cond.toNat with
  | 0 => x == y
  | 1 => x != y
  | 2 => decide (x.toNat ≥ y.toNat)
  | _ => decide (x.toNat < y.toNat)

/-- The attributes a word wait may meet: no WO, IP only for the holder. -/
def askWord : Ask := { askLoad 4 with attrOk := attrAtomic }

/-- A wait on the word at pair a, read at home (17 R372), until `f` holds. -/
def waitWord (a b : Reg) (kind : Nat → Option Nat → WaitKind) (f : Word → Word → Bool) : State → Out :=
  issue { Form.plain [(a, 2), (b, 1)] none .table with foehn := false, txn := false } (eachLane fun i s l =>
    let va := i.view.pair a l
    let (s1, c) := s.check i l va a 0 askWord
    match c with
    | .error e => (s1, .only l e)
    | .ok p =>
      let (s2, g) := s1.readSpot i l va 4 1 p
      match g with
      | .ends .stay => (s2, .only l (.wait (kind va p.framePa)))
      | .ends e => (s2, .only l e)
      | .data (.bad k) => (s2, .fault l k va)
      | .data (.ok bs) =>
        if f (BitVec.ofNat 32 (natOf bs)) (i.view.reg b l) then
          (match p with
            | .scr _ => if kind va none == .word va none then s2.acquireTeam i.op.team i.op.grp else s2.acquireDev i.op.team i.op.grp
            | _ => s2.acquireDev i.op.team i.op.grp, .only l .next)
        else (s2, .only l (.wait (kind va p.framePa))))

/-- WAITW. -/
def execWaitw (cond : BitVec 2) (a b : Reg) (s : State) : Out := waitWord a b .word (waitCond cond) s

/-- WAITX: until the word differs; an acquire at SYS scope. -/
def execWaitx (a b : Reg) (s : State) : Out := waitWord a b .wordSys (fun x y => x != y) s

/-- YIELD: every other class has had its turn when the thread's comes again. -/
def execYield (s : State) : Out :=
  issue { Form.plain [] none .table with txn := false } (perLane fun i l =>
    .only l (if (i.thread l).wait == some .yield then .next else .wait .yield)) s

/-- The clock a thread's SLEEP counts (R224). -/
def State.sleepClock (s : State) (t : Team) : Nat := if t.onFoehn then s.foehnClock else s.clock

/-- SLEEP. -/
def execSleep (a : Reg) (s : State) : Out :=
  issue { Form.plain [(a, 1)] none .table with txn := false } (fun i s =>
    (s, i.lanes.map fun l => .only l (match (i.thread l).wait with
      | some (.sleep deadline) => if s.sleepClock i.team ≥ deadline then .next else .wait (.sleep deadline)
      | _ =>
        let n := (i.view.reg a l).toNat
        if n = 0 then .next else .wait (.sleep (s.sleepClock i.team + n))))) s

end Sys2Proof.Machine
end

