-- ==== Sys2Proof/Machine/Pool.lean ====
section
/-! DEFINITION. Major 0x37 and the unified pool: bank maps, the tests of a request and its phases (05 R131 to R142, 13 R297 to
R317). -/

namespace Sys2Proof.Machine

open Sys2Proof

/-! ## Banks and runs (R297, R298, R311) -/

def Bank.isFree (b : Bank) : Bool := b.holder == .free && !b.moving

/-- Length of the run of free banks at the head of a list. -/
def freeRun : List Bank → Nat
  | [] => 0
  | b :: r => if b.isFree then freeRun r + 1 else 0

/-- The lowest index at which a run of `n` free banks begins, counted from `i`. -/
def firstRun (n : Nat) : Nat → List Bank → Option Nat
  | _, [] => none
  | i, b :: r => if freeRun (b :: r) ≥ n then some i else firstRun n (i + 1) r

def longestRun : List Bank → Nat
  | [] => 0
  | b :: r => Nat.max (freeRun (b :: r)) (longestRun r)

def Core.freeCount (c : Core) : Nat := (c.banks.filter Bank.isFree).length

/-- Whether a bank belongs to a team's range of a role. -/
def Bank.ofTeam (slot : Nat) (role : BankRole) (b : Bank) : Bool := b.holder == .team && b.slot == slot && b.role == role

/-- The lowest bank of a team's range on a core. -/
def Core.rangeBase (c : Core) (slot : Nat) (role : BankRole) : Nat := c.banks.findIdx (Bank.ofTeam slot role)

/-- Banks [i, i + n) changed. -/
def Core.setBanks (c : Core) (i n : Nat) (f : Bank → Bank) : Core :=
  { c with banks := c.banks.mapIdx fun k b => if i ≤ k ∧ k < i + n then f b else b }

/-- A bank given back: free, of the cache (R305). -/
def Bank.freed (_ : Bank) : Bank := { role := .cch, holder := .free, moving := false, slot := 0 }

def Bank.given (role : BankRole) (slot : Nat) (_ : Bank) : Bank := { role := role, holder := .team, moving := false, slot := slot }

/-- The first `n` banks that satisfy `p`, from the low end, changed. -/
def takeBanks (p : Bank → Bool) (f : Bank → Bank) : Nat → List Bank → List Bank
  | 0, l => l
  | _, [] => []
  | n + 1, b :: r => if p b then f b :: takeBanks p f n r else b :: takeBanks p f (n + 1) r

/-- The destination of a GROW of SCR or MXS by `n` on a range of `h` banks, and whether the range relocates (R311). -/
def Core.growDest (c : Core) (slot : Nat) (role : BankRole) (h n : Nat) : Option (Nat × Bool) :=
  if h = 0 then (firstRun n 0 c.banks).map fun i => (i, false)
  else
    let above := c.rangeBase slot role + h
    if freeRun (c.banks.drop above) ≥ n then some (above, false)
    else (firstRun (h + n) 0 c.banks).map fun i => (i, true)

/-! ## The register store (R303) -/

/-- The groups of a resident team that reside on a core (R236). -/
def Team.groupsOn (t : Team) (core : Nat) : Nat :=
  match t.place with
  | .resident c _ =>
    if t.pair then (if c = core then (t.groups.length + 1) / 2 else if c + 1 = core then t.groups.length / 2 else 0)
    else if c = core then t.groups.length else 0
  | _ => 0

/-- Words of register demand on a core. -/
def State.demand (s : State) (core : Nat) : Nat := (s.teams.map fun t => t.groupsOn core * t.nregs).sum

/-- Store banks for a demand. -/
def storeBanks (demand : Nat) : Nat := Nat.max 4 ((demand + 2047) / 2048)

def Core.storeCount (c : Core) : Nat := (c.banks.filter fun b => b.holder == .store).length

def Bank.toStore (_ : Bank) : Bank := { role := .reg, holder := .store, moving := false, slot := 0 }

/-- The store brought to `n` banks: the lowest free banks join it, its highest ones leave. -/
def Core.setStore (c : Core) (n : Nat) : Core :=
  let k := c.storeCount
  if k ≤ n then { c with banks := takeBanks Bank.isFree Bank.toStore (n - k) c.banks }
  else { c with banks := (takeBanks (fun b => b.holder == .store) Bank.freed (k - n) c.banks.reverse).reverse }

/-- The store of a core fitted to its demand. -/
def State.fitStore (s : State) (core : Nat) : State := s.modCore core fun c => c.setStore (storeBanks (s.demand core))

/-- The cores of a resident team. -/
def Team.cores (t : Team) : List Nat :=
  match t.place with
  | .resident c _ => if t.pair then [c, c + 1] else [c]
  | _ => []

def Team.slot (t : Team) : Nat :=
  match t.place with
  | .resident _ k => k
  | _ => 0

/-! ## What a request loses (R139) -/

/-- Offset ranges of banks [lo, hi) of a role, in both halves of a pair team (R301). -/
def Team.bankBytes (t : Team) (role : BankRole) (lo hi : Nat) : List (Nat × Nat) :=
  let half := if role == .mxs then halfMxs else halfScr
  (8192 * lo, 8192 * hi) :: if t.pair then [(half + 8192 * lo, half + 8192 * hi)] else []

/-- Whether [off, off + n) meets one of the ranges. -/
def meetsAny (rs : List (Nat × Nat)) (off n : Nat) : Bool := rs.any fun r => decide (off < r.2) && decide (r.1 < off + n)

/-- Rows of scratch: `count` of them, `len` bytes each, `stride` apart from `base` on. -/
structure Rows where
  base : Nat
  stride : Nat
  len : Nat
  count : Nat
  deriving DecidableEq, Repr

/-- Whether a row meets [lo, hi): the first row that ends above `lo` begins below `hi`. -/
def Rows.meet (x : Rows) (lo hi : Nat) : Bool :=
  let k := if x.base + x.len > lo then 0 else if x.stride = 0 then x.count else (lo - x.base - x.len) / x.stride + 1
  decide (x.len > 0) && decide (k < x.count) && decide (x.base + k * x.stride < hi)

/-- The rows of scratch an engine command names: source and destination of a CPY, the handle array of a BIN (07 R208, R209). -/
def Cmd.scratch (c : Cmd) : List Rows :=
  let f (o n : Nat) : Nat := natOf ((c.block.drop o).take n)
  let rows (base stride : Nat) : Rows := { base := base, stride := stride, len := f 20 4, count := f 16 4 }
  if c.kind = 0 ∧ f 16 4 ≠ 0 then
    (if f 32 1 / 2 % 2 = 1 then [rows (f 0 8 % 2 ^ 32) (f 24 4)] else []) ++
      (if f 32 1 / 4 % 2 = 1 then [rows (f 8 8 % 2 ^ 32) (f 28 4)] else [])
  else if c.kind = 1 ∧ f 24 4 ≠ 0xffffffff then [{ base := f 24 4, stride := 0, len := 4 * f 12 4, count := 1 }]
  else []

/-- The barrier address of a command block. -/
def blockBarrier (b : List Byte) : Nat := natOf ((b.drop 40).take 8)

/-- The barrier addresses that the team's operations still owe an arrival, and those its threads wait on (R139). -/
def State.liveObjects (s : State) (tm : Nat) : List Nat :=
  let t := s.team tm
  (s.copies.filter fun c => c.team == tm).map (·.barrier) ++
    (s.cmds.filter fun c => c.team == tm && c.state != .done).map (fun c => blockBarrier c.block) ++
    t.eng.queue.filterMap (fun o => match o.kind with
      | .mseq b _ _ _ _ _ _ => some (blockBarrier b)
      | _ => none) ++
    (s.calls.filter fun c => c.caller == tm).map (·.barrier) ++
    t.groups.flatMap (fun g => g.threads.filterMap fun th => match th.wait with
      | some (.bwait va _) => some va
      | _ => none)

/-- LIVE_BARRIER: a live object with a byte in the ranges. -/
def State.liveIn (s : State) (tm : Nat) (rs : List (Nat × Nat)) : Bool :=
  ((s.team tm).rings.any fun r => meetsAny rs (16 * r.1) 16) ||
    (s.liveObjects tm).any fun va => inAperture va && meetsAny rs (va - apBase) 16

/-- ENGINE_BUSY over the ranges of a role (R139). -/
def State.engineBusy (s : State) (tm : Nat) (role : BankRole) (rs : List (Nat × Nat)) : Bool :=
  match role with
  | .scr =>
    (s.copies.any fun c => c.team == tm && meetsAny rs c.scrOff c.data.length) ||
      s.cmds.any fun c => c.team == tm && c.state == .queued && c.scratch.any fun x => rs.any fun r => x.meet r.1 r.2
  | .mxs =>
    let e := (s.team tm).eng
    !e.queue.isEmpty || match e.latchIssued with
      | some t => meetsAny rs t.off (tileBytes t.shape)
      | none => false
  | _ => false

/-! ## The tests (R134 to R136) -/

inductive PoolTest where
  | refuse (code : Nat)
  | wait
  | granted                                 -- count 0: nothing to perform
  | pass (dest odd : Nat) (relocates : Bool)
  deriving DecidableEq, Repr

/-- What a team holds of a role on a core. -/
def State.held (s : State) (tm core : Nat) (role : BankRole) : Nat :=
  let t := s.team tm
  match role with
  | .reg => t.nregs / 8
  | .scr => t.pool.scrBanks
  | .mxs => t.pool.mxsBanks
  | .cch => (s.getCore core).cchBanks

/-- The limit of a role (R134, R140). -/
def roleLimit : BankRole → Nat
  | .reg => 32
  | .scr => 40
  | .mxs => 32
  | .cch => 42

/-- Whether a waiting GROW of the role by the team stands on the core. -/
def Core.waitsGrow (c : Core) (tm : Nat) (role : BankRole) : Bool := c.waiting.any fun r => r.team == tm && r.grow && r.role == role

/-- Whether a resident team holds banks of a role on a core: register banks are the store's, and the reserve is the cache's (13 R297). -/
def State.holdsRole (s : State) (tm core : Nat) (role : BankRole) : Bool :=
  (role == .scr || role == .mxs) && (s.team tm).cores.contains core && decide (s.held tm core role > 0)

/-- WOULD_DEADLOCK (R136) on one core. -/
def State.wouldDeadlock (s : State) (tm core : Nat) (role : BankRole) : Bool :=
  let others := (List.range s.teams.length).filter fun i => i != tm && s.holdsRole i core role
  !others.isEmpty && others.all fun i => (s.getCore core).waitsGrow i role

/-- A core's map as other requests see it: the destination banks of a GROW that has passed TEST are not free (R315, R316). -/
def State.openCore (s : State) (core : Nat) : Core :=
  let c := s.getCore core
  let mark (b : Bank) : Bank := { b with moving := true }
  match c.req with
  | none => c
  | some r =>
    if !r.grow then c
    else
      let t := s.team r.team
      match r.role with
      | .reg => { c with banks := takeBanks Bank.isFree mark (storeBanks (s.demand core + t.groupsOn core * (8 * r.count)) - c.storeCount) c.banks }
      | .cch => { c with banks := (takeBanks Bank.isFree mark r.count c.banks.reverse).reverse }
      | role =>
        let h := s.held r.team core role
        let dest := if t.cores.headD 0 == core then r.destBase else r.destOdd
        if h > 0 && dest != c.rangeBase t.slot role + h then c.setBanks dest (h + r.count) mark else c.setBanks dest r.count mark

/-- Whether the banks a GROW needs are free on one core, and where they lie. -/
def State.growFits (s : State) (tm core : Nat) (role : BankRole) (n : Nat) : Option (Nat × Bool) :=
  let c := s.openCore core
  let t := s.team tm
  match role with
  | .reg =>
    let need := storeBanks (s.demand core + t.groupsOn core * (8 * n))
    if need - c.storeCount ≤ c.freeCount then some (0, false) else none
  | .cch => if n ≤ c.freeCount then some (0, false) else none
  | _ => c.growDest t.slot role (s.held tm core role) n

/-- Orders 1 to 5 of R135 for a GROW. The rules do not say what a pair team's GROW is that grows in place on one core and relocates on the other:
it is a relocation, on both cores together (DESIGN CHOICE log 72). -/
def State.testGrow (s : State) (r : PoolReq) (wait sys : Bool) : PoolTest :=
  let t := s.team r.team
  let core := t.cores.headD 0
  let h := s.held r.team core r.role
  let whole := t.bankBytes r.role 0 h
  let discard := r.discard && (r.role == .scr || r.role == .mxs)
  if !sys && r.role == .cch then .refuse 7
  else if r.count = 0 then .granted
  else if t.cores.any (fun c => decide (s.held r.team c r.role + r.count > roleLimit r.role)) then .refuse 6
  else if discard && r.role == .scr && s.liveIn r.team whole then .refuse 3
  else if discard && s.engineBusy r.team r.role whole then (if wait then .wait else .refuse 4)
  else
    let fits := t.cores.map fun c => s.growFits r.team c r.role r.count
    match fits with
    | [some (a, m)] => .pass a 0 m
    | [some (a, m), some (b, m')] => .pass a b (m || m')
    | _ =>
      if !wait then .refuse 1
      else if t.cores.any fun c => s.wouldDeadlock r.team c r.role then .refuse 2 else .wait

/-- Orders 1 to 5 of R135 for a SHRINK. -/
def State.testShrink (s : State) (r : PoolReq) (wait sys : Bool) : PoolTest :=
  let t := s.team r.team
  let core := t.cores.headD 0
  let h := s.held r.team core r.role
  let least := match r.role with
    | .reg => 12
    | .cch => 2
    | _ => 0
  let lost := t.bankBytes r.role (h - r.count) h
  if !sys && r.role == .cch then .refuse 7
  else if r.count = 0 then .granted
  else if t.cores.any (fun c => decide (s.held r.team c r.role < least + r.count)) then .refuse 5
  else if r.role == .scr && s.liveIn r.team lost then .refuse 3
  else if s.engineBusy r.team r.role lost then (if wait then .wait else .refuse 4)
  else if r.role == .reg && t.groups.any (fun g => g.threads.any fun th => !th.exited && decide (th.base + 96 > t.nregs - 8 * r.count)) then
    .refuse 8
  else .pass 0 0 false

def State.testPool (s : State) (r : PoolReq) (wait sys : Bool) : PoolTest :=
  if r.grow then s.testGrow r wait sys else s.testShrink r wait sys

/-! ## Requests and their phases (R309, R310) -/

/-- A change to the controllers of every core of a team. -/
def State.modCores (s : State) (cs : List Nat) (f : Core → Core) : State := cs.foldl (fun (t : State) (c : Nat) => t.modCore c f) s

/-- The status of a request written to d of its lanes, which continue. -/
def State.poolAnswer (s : State) (r : PoolReq) (code : Nat) : State :=
  match (s.teams[r.team]?).bind (fun t => (t.groups[r.grp]?).map fun g => (t, g)) with
  | none => s
  | some (_, g) =>
    let ls := lanesOf r.lanes
    let base := (((ls.head?).bind fun l => g.threads[l]?).map (·.base)).getD 0
    let outs := ls.map fun l => LaneOut.write l [BitVec.ofNat 32 code]
    let s1 := s.modTeam r.team fun t => t.writeRegs r.grp base r.dst 1 (ls == g.live) .u outs
    s1.finish { team := r.team, grp := r.grp, lanes := r.lanes, pc := r.pc, base := base, sys := false, word := 0 } outs

def State.countPool (s : State) (tm : Nat) (f : TeamPool → TeamPool) : State := s.modPool tm f

/-- A counter of STAT one higher; it stops at 0xffff. -/
def bump (n : Nat) : Nat := Nat.min (n + 1) 0xffff

/-- A request that passed TEST occupies the controllers of its cores. -/
def State.beginPool (s : State) (r : PoolReq) (dest odd : Nat) (relocates : Bool) : State :=
  let phase : PoolPhase := if !r.grow then .quiesce else if r.role == .cch then .commit else .drain
  let r1 := { r with destBase := dest, destOdd := odd, relocates := relocates, phase := phase }
  s.modCores (s.team r.team).cores fun c => { c with req := some r1 }

/-- The same request in the waiting lists (the odd core of a pair holds a copy). -/
def PoolReq.same (a b : PoolReq) : Bool := a.team == b.team && a.grp == b.grp && a.lanes == b.lanes && a.pc == b.pc

/-- The controllers of a team's cores at work on a request, or with requests that arrived before and are not tested yet (R309). -/
def State.poolBusy (s : State) (tm : Nat) : Bool :=
  (s.team tm).cores.any fun c => (s.getCore c).req.isSome || !(s.getCore c).arrived.isEmpty

/-- A waiting request re-tested: it begins, is refused, or waits on; one whose team is being saved is about to be withdrawn (R315). The
outcome says whether it began. -/
def State.retestOne (s : State) (r : PoolReq) : State × Bool :=
  let t := s.team r.team
  let busy := t.cores.any fun c => (s.getCore c).req.isSome
  let leave (x : State) : State :=
    (x.modCores t.cores fun c => { c with waiting := c.waiting.filter fun w => !w.same r }).modGroup r.team r.grp fun g =>
      g.modLanes (lanesOf r.lanes) fun _ th => { th with wait := none }
  let waits := t.cores.all fun c => (s.getCore c).waiting.any r.same
  if busy || t.leaving.isSome || !waits then (s, false)
  else match s.testPool r true r.sys with
    | .pass d o m => ((leave s).beginPool r d o m, true)
    | .refuse c => (((leave s).countPool r.team fun p => { p with refusals := bump p.refusals }).poolAnswer r c, false)
    | _ => (s, false)

/-- Waiting requests re-tested in order until one begins; with `grants`, those that meet the test of R136 are left as they are, without it
they are refused. -/
def retestPass (grants : Bool) : State → List PoolReq → State × Bool
  | s, [] => (s, false)
  | s, r :: rest =>
    let skip := match s.testPool r true r.sys with
      | .refuse 2 => grants
      | _ => !grants
    if skip then retestPass grants s rest
    else
      let (s1, began) := s.retestOne r
      if began then (s1, true) else retestPass grants s1 rest

/-- The waiting requests of a core re-tested, oldest first; at most one begins (R312). Of those that the test of R136 refuses, the newest goes
first: it is the newest request that is refused. -/
def retestList (s : State) (l : List PoolReq) : State :=
  let (s1, began) := retestPass true s l
  if began then s1 else (retestPass false s1 l.reverse).1

def State.retest (s : State) (core : Nat) : State := retestList s (s.getCore core).waiting

/-- What TEST makes of a request that reaches its controllers (R310). -/
inductive Taken where
  | answer (code : Nat)
  | began
  | waits
  deriving DecidableEq, Repr

/-- TEST of a request: refused, granted at once, begun, or put to wait; when it begins to wait, the requests that wait on every core of its
team are re-tested (R136, R310, R312). -/
def State.takeReq (s : State) (r : PoolReq) : State × Taken :=
  let t := s.team r.team
  match s.testPool r r.wait r.sys with
  | .refuse c => (s.countPool r.team fun p => { p with refusals := bump p.refusals }, .answer c)
  | .granted => (s.countPool r.team fun p => { p with grants := bump p.grants }, .answer 0)
  | .pass d o m => (s.beginPool r d o m, .began)
  | .wait =>
    let s1 := if r.grow then s.countPool r.team fun p => { p with waits := bump p.waits } else s
    let s2 := s1.modCores t.cores fun c => { c with waiting := c.waiting ++ [{ r with waited := true }] }
    (t.cores.foldl (fun (st : State) (c : Nat) => retestList st ((s1.getCore c).waiting)) s2, .waits)

/-- The requests that arrived while controllers worked, taken at some cores in arrival order, until each of these is at work, has none left,
or has one at its head that another core does not take yet; a request of a pair team is followed by the next of both its cores (R309). The end or
save of a team keeps its place until TEAM_END or TEAM_SAVE performs it. -/
def takeArrived : Nat → List Nat → State → State
  | 0, _, s => s
  | _, [], s => s
  | n + 1, c :: rest, s =>
    match (s.getCore c).arrived.head? with
    | none => takeArrived n rest s
    | some r =>
      let cs := (s.team r.team).cores
      let first (c : Nat) : Bool := (s.getCore c).req.isNone && ((s.getCore c).arrived.head?).any r.same
      if r.phase == .leave || !cs.all first then takeArrived n rest s
      else
        let (s1, k) := (s.modCores cs fun c => { c with arrived := c.arrived.filter fun w => !w.same r }).takeReq r
        match k with
        | .answer code => takeArrived n (cs ++ rest) (s1.poolAnswer r code)
        | .began => takeArrived n rest s1
        | .waits => takeArrived n (cs ++ rest) s1

/-- The requests that have arrived at some cores taken. -/
def State.takeNext (s : State) (cs : List Nat) : State :=
  takeArrived (4 * (s.cores.map fun c => c.arrived.length).sum + cs.length + 1) cs s

/-- A core's controller with nothing to perform: the waiting requests re-tested, then those that arrived meanwhile (R309, R312). -/
def State.retestCore (s : State) (core : Nat) : State := (s.retest core).takeNext [core]

/-! ## Ends and saves of teams at the controllers (R306, R309) -/

/-- The place of a team's end or save among the requests of its cores. -/
def PoolReq.leave (tm : Nat) : PoolReq :=
  { team := tm, grp := 0, lanes := 0, pc := 0, dst := 0, grow := false, role := .reg, count := 0, discard := false, phase := .leave,
    destBase := 0, destOdd := 0, relocates := false, waited := false, wait := false, sys := false }

/-- Whether the controllers of a team's cores come to its end or save now. -/
def State.leaveTurn (s : State) (tm : Nat) : Bool :=
  (s.team tm).cores.all fun c => (s.getCore c).req.isNone && ((s.getCore c).arrived.head?).all fun r => r.team == tm && r.phase == .leave

/-- Whether the end or save of a team stands among the requests already. -/
def State.leaveQueued (s : State) (tm : Nat) : Bool :=
  (s.team tm).cores.any fun c => (s.getCore c).arrived.any fun r => r.team == tm && r.phase == .leave

/-- The end or save of a team put behind the requests that arrived before it. -/
def State.queueLeave (s : State) (tm : Nat) : State :=
  if s.leaveQueued tm then s else s.modCores (s.team tm).cores fun c => { c with arrived := c.arrived ++ [PoolReq.leave tm] }

/-- A team's requests gone from its cores, the waiting ones and those not tested yet (R310, R315); its threads stand at their POOL
instructions. -/
def State.dropRequests (s : State) (tm : Nat) : State :=
  s.modCores (s.team tm).cores fun c =>
    { c with waiting := c.waiting.filter fun r => r.team != tm, arrived := c.arrived.filter fun r => r.team != tm }

/-- A save begins: the team issues nothing more, and its waiting requests are withdrawn (R315). -/
def State.beginSave (s : State) (tm : Nat) (l : Leaving) : State :=
  ((s.dropRequests tm).modTeam tm fun t => { t with leaving := some l }).takeNext (s.team tm).cores

/-- The map of a core has changed: teams that are out and wait for banks return to their levels, and waiting requests are
re-tested (R271, R312). -/
def State.mapChanged (s : State) (cs : List Nat) : State :=
  cs.foldl (fun (t : State) (c : Nat) => t.retestCore c) (s.requeue fun _ th => th.wait == some .poolGrow)

/-- Work of a team has landed or completed: a request that waits for it is tested again (R135). -/
def State.workLanded (s : State) (tm : Nat) : State :=
  (s.team tm).cores.foldl (fun (t : State) (c : Nat) => if (t.getCore c).waiting.isEmpty then t else t.retestCore c) s

/-- A range of byte halves cut out of the stale ranges of one tile. -/
def cutStale (num lo hi : Nat) (x : Nat × Nat × Nat) : List (Nat × Nat × Nat) :=
  if x.1 ≠ num ∨ x.2.2 ≤ lo ∨ hi ≤ x.2.1 then [x]
  else (if x.2.1 < lo then [(num, x.2.1, lo)] else []) ++ if hi < x.2.2 then [(num, hi, x.2.2)] else []

/-- The stale ranges without the bytes of some ranges, of whichever tile. -/
def TeamEng.unmark (e : TeamEng) (rs : List (Nat × Nat)) : TeamEng :=
  { e with stale := e.stale.flatMap fun x =>
      rs.foldl (fun (l : List (Nat × Nat × Nat)) (r : Nat × Nat) => l.flatMap (cutStale x.1 (2 * r.1) (2 * r.2))) [x] }

/-- Scratch and its tags and marks zero in some ranges (R304). -/
def TeamPool.zeroScr (p : TeamPool) (rs : List (Nat × Nat)) : TeamPool :=
  { p with scr := rs.foldl (fun (m : Mem) (x : Nat × Nat) => memClear m x.1 (x.2 - x.1)) p.scr,
           scrTags := p.scrTags.filter (fun k => !meetsAny rs (16 * k) 16),
           scrErrs := p.scrErrs.filter fun w => !meetsAny rs w 4 }

/-- Tile storage, its flag plane and its marks zero in some ranges (R304, 15 R357). -/
def TeamPool.zeroMxs (p : TeamPool) (rs : List (Nat × Nat)) : TeamPool :=
  { p with mxs := rs.foldl (fun (m : Mem) (x : Nat × Nat) => memClear m x.1 (x.2 - x.1)) p.mxs,
           flags := p.flags.filter (fun k => !meetsAny rs (2 * k) 2),
           mxsErrs := p.mxsErrs.filter fun w => !meetsAny rs w 4 }

/-- The effect of a granted request on the team's registers, storage and sizes (R137, R139). -/
def Team.poolGrant (t : Team) (r : PoolReq) : Team :=
  let n := r.count
  let p := t.pool
  match r.role, r.grow with
  | .reg, true => { t with nregs := t.nregs + 8 * n, groups := t.groups.map (fun g => { g with regs := g.regs ++ List.replicate (8 * n) VReg.fresh }),
                           pool := { p with peakReg := Nat.max p.peakReg ((t.nregs + 8 * n) / 8) } }
  | .reg, false => { t with nregs := t.nregs - 8 * n, groups := t.groups.map fun g => { g with regs := g.regs.take (t.nregs - 8 * n) } }
  | .scr, true =>
    let zero := t.bankBytes .scr (if r.discard then 0 else p.scrBanks) (p.scrBanks + n)
    { t with pool := { p.zeroScr zero with scrBanks := p.scrBanks + n, peakScr := Nat.max p.peakScr (p.scrBanks + n) } }
  | .mxs, true =>
    let zero := t.bankBytes .mxs (if r.discard then 0 else p.mxsBanks) (p.mxsBanks + n)
    { t with pool := { p.zeroMxs zero with mxsBanks := p.mxsBanks + n, peakMxs := Nat.max p.peakMxs (p.mxsBanks + n) },
             eng := t.eng.unmark zero }
  | .scr, false => { t with pool := { p.zeroScr (t.bankBytes .scr (p.scrBanks - n) p.scrBanks) with scrBanks := p.scrBanks - n } }
  | .mxs, false =>
    let lost := t.bankBytes .mxs (p.mxsBanks - n) p.mxsBanks
    { t with pool := { p.zeroMxs lost with mxsBanks := p.mxsBanks - n }, eng := t.eng.unmark lost }
  | .cch, _ => t

/-- The bank map of one core at COMMIT; `h` is what the team held. -/
def Core.poolCommit (c : Core) (r : PoolReq) (slot h dest store : Nat) : Core :=
  match r.role, r.grow with
  | .reg, _ => c.setStore store
  | .cch, true => { c with cchBanks := c.cchBanks + r.count,
                           banks := (takeBanks Bank.isFree (fun b => { b with holder := .reserve }) r.count c.banks.reverse).reverse }
  | .cch, false => { c with cchBanks := c.cchBanks - r.count, banks := takeBanks (fun b => b.holder == .reserve) Bank.freed r.count c.banks }
  | role, true =>
    if h > 0 && dest != c.rangeBase slot role + h then ((c.setBanks (c.rangeBase slot role) h Bank.freed).setBanks dest (h + r.count) (Bank.given role slot))
    else c.setBanks dest r.count (Bank.given role slot)
  | role, false => c.setBanks (c.rangeBase slot role + h - r.count) r.count Bank.freed

/-- COMMIT: sizes, maps and counters; the lanes get GRANTED. A GROW that moves to a new place counts in RELOCS (R142), with DISCARD too,
which copies no bank (DESIGN CHOICE log 59). -/
def State.commitPool (s : State) (r : PoolReq) : State :=
  let t := s.team r.team
  let h := s.held r.team (t.cores.headD 0) r.role
  let s1 := s.modTeam r.team fun t => t.poolGrant r
  let dests := [r.destBase, r.destOdd]
  let s2 := (t.cores.zip dests).foldl (fun (st : State) (x : Nat × Nat) =>
    let store := storeBanks (st.demand x.1)
    st.modCore x.1 fun c => { c.poolCommit r t.slot h x.2 store with req := none }) s1
  let s3 := s2.countPool r.team fun p => { p with grants := bump p.grants, relocs := if r.grow && r.relocates then bump p.relocs else p.relocs }
  (s3.poolAnswer r 0).mapChanged t.cores

/-! ## GROW and SHRINK (R131, R133) -/

/-- The role of a code (R68). -/
def roleOf (k : BitVec 2) : BankRole :=
  match k.toNat with
  | 0 => .reg
  | 1 => .scr
  | 2 => .cch
  | _ => .mxs

/-- A request as a bundle makes it. -/
def poolRequest (grow : Bool) (role : BankRole) (d a b : Reg) (i : Iss) (ls : List Nat) : PoolReq :=
  { team := i.op.team, grp := i.op.grp, lanes := maskOf ls, pc := i.op.pc, dst := d, grow := grow, role := role,
    count := (i.view.reg b (ls.headD 0)).toNat, discard := (i.view.reg a (ls.headD 0)).getLsbD 1, phase := .waiting,
    destBase := 0, destOdd := 0, relocates := false, waited := false, wait := (i.view.reg a (ls.headD 0)).getLsbD 0, sys := i.op.sys }

/-- The lanes whose request waits or is being performed. -/
def State.poolPending (s : State) (i : Iss) (waitingOnly : Bool) : List Nat :=
  let c := s.getCore ((i.team.cores).headD 0)
  let rs := c.waiting ++ if waitingOnly then [] else c.req.toList ++ c.arrived
  i.lanes.filter fun l => rs.any fun r => r.team == i.op.team && r.grp == i.op.grp && r.lanes.getLsbD l

/-- A new request of lanes `ls`: put behind those that arrived before it while a controller works, else tested (R309). -/
def State.poolNew (s : State) (r : PoolReq) (ls : List Nat) : State × List LaneOut :=
  if s.poolBusy r.team then
    (s.modCores (s.team r.team).cores fun c => { c with arrived := c.arrived ++ [r] }, ls.map fun l => .only l .stay)
  else
    let (s1, k) := s.takeReq r
    (s1, ls.map fun l => match k with
      | .answer code => .write l [BitVec.ofNat 32 code]
      | .began => .only l .stay
      | .waits => .only l (.wait (if r.grow then .poolGrow else .poolShrink)))

/-- POOL GROW and SHRINK, once per bundle. -/
def poolOp (grow : Bool) (role : BankRole) (d a b : Reg) : State → Out :=
  issue { Form.plain [(a, 1), (b, 1)] (some (d, 1)) .u with foehn := false, txn := false } (fun i s =>
    let waiting := s.poolPending i true
    let pending := s.poolPending i false
    let new := i.lanes.filter fun l => !pending.contains l
    let old := pending.map fun l => LaneOut.only l (if waiting.contains l then .wait (if grow then .poolGrow else .poolShrink) else .stay)
    if new.isEmpty then (s, old)
    else
      let (s1, outs) := s.poolNew (poolRequest grow role d a b i new) new
      (s1, old ++ outs))

/-- POOL GROW. -/
def execPoolGrow (role : BitVec 2) (d a b : Reg) (s : State) : Out := poolOp true (roleOf role) d a b s

/-- POOL SHRINK. -/
def execPoolShrink (role : BitVec 2) (d a b : Reg) (s : State) : Out := poolOp false (roleOf role) d a b s

/-! ## QUERY, MAP and STAT (R140 to R142) -/

/-- INPLACE and RELOC of a role for a team on one core (R311). -/
def State.queryCore (s : State) (tm core : Nat) (role : BankRole) : Nat × Nat :=
  let c := s.openCore core
  let t := s.team tm
  let h := s.held tm core role
  let room := roleLimit role - h
  match role with
  | .reg =>
    let fit := ((List.range 33).filter fun n => (s.growFits tm core .reg n).isSome).length - 1
    (Nat.min fit room, Nat.min fit room)
  | .cch => (Nat.min c.freeCount room, Nat.min c.freeCount room)
  | _ =>
    let longest := longestRun c.banks
    let inplace := if h = 0 then longest else freeRun (c.banks.drop (c.rangeBase t.slot role + h))
    (Nat.min inplace room, Nat.min (Nat.max inplace (longest - h)) room)

/-- POOL QUERY. -/
def execPoolQuery (role : BitVec 2) (d : Reg) (s : State) : Out :=
  issue { Form.plain [] (some (d, 1)) .u with foehn := false, txn := false } (fun i s =>
    let r := roleOf role
    let qs := i.team.cores.map fun c => s.queryCore i.op.team c r
    let inplace := (qs.map (·.1)).foldl Nat.min 255
    let reloc := (qs.map (·.2)).foldl Nat.min 255
    let h := s.held i.op.team (i.team.coreOf i.op.grp) r
    (s, i.lanes.map fun l => .write l [BitVec.ofNat 32 (roleLimit r * 2 ^ 24 + reloc * 2 ^ 16 + inplace * 256 + h)])) s

/-- The role code that MAP reads. -/
def Bank.mapRole (b : Bank) : Nat :=
  match b.role with
  | .reg => 0
  | .scr => 1
  | .cch => 2
  | .mxs => 3

/-- The quad of MAP. -/
def Core.mapQuad (c : Core) (slot : Nat) (sel : Bool) : Nat :=
  let sum (f : Nat → Bank → Nat) : Nat := (c.banks.mapIdx f).sum
  if sel then
    sum (fun k b => if b.holder == .team && b.slot == slot then 2 ^ k else 0) +
      2 ^ 64 * sum fun k b => if b.holder == .team then 2 ^ k else 0
  else sum fun k b => b.mapRole * 4 ^ k

/-- POOL MAP, per lane by its selector. -/
def execPoolMap (d a : Reg) (s : State) : Out :=
  issue { Form.plain [(a, 1)] (some (d, 4)) .table with foehn := false, txn := false } (fun i s =>
    let c := s.getCore (i.team.coreOf i.op.grp)
    (s, i.lanes.map fun l => .write l (wordsOf 4 (c.mapQuad i.team.slot ((i.view.reg a l).getLsbD 0))))) s

/-- The quad of STAT. -/
def Team.stat (t : Team) : Nat :=
  let p := t.pool
  p.relocs * 2 ^ 112 + p.waits * 2 ^ 96 + p.refusals * 2 ^ 80 + p.grants * 2 ^ 64 + p.peakMxs * 2 ^ 56 + p.peakScr * 2 ^ 40 +
    p.peakReg * 2 ^ 32 + p.mxsBanks * 2 ^ 24 + p.scrBanks * 2 ^ 8 + t.nregs / 8

/-- POOL STAT. -/
def execPoolStat (d : Reg) (s : State) : Out :=
  issue { Form.plain [] (some (d, 4)) .table with foehn := false, txn := false } (perLane fun i l =>
    .write l (wordsOf 4 i.team.stat)) s

/-! ## The phases as events (R304, R310, R138) -/

/-- The core whose controller holds the record of a request: the even one for a pair team. -/
def State.reqOf (s : State) (core : Nat) : Option PoolReq := (s.getCore core).req

def State.setPhase (s : State) (r : PoolReq) (p : PoolPhase) : State :=
  s.modCores (s.team r.team).cores fun c => { c with req := some { r with phase := p } }

/-- The cache lines of a core leave its L1, update-only copies performed (R304; which lines a bank holds is not given, DESIGN CHOICE log 15). -/
def State.drainCore (s : State) (core : Nat) : State :=
  let us := (s.getCore core).upd
  let s1 := us.foldl (fun (t : State) (u : UpdWord) => t.combineLine u.pa) s
  s1.l1Write core (fun _ => true) true

/-- BANK_DRAIN: the destination banks are emptied; then the range moves, or the request commits. -/
def execEvBankDrain (core : Nat) (s : State) : Out :=
  match s.reqOf core with
  | some r =>
    if r.phase == .drain then
      let t := s.team r.team
      let s1 := t.cores.foldl (fun (st : State) (c : Nat) => st.drainCore c) s
      if r.relocates then
        let h := s.held r.team core r.role
        let mark (b : Bank) : Bank := { b with moving := true }
        let s2 := (t.cores.zip [r.destBase, r.destOdd]).foldl (fun (st : State) (x : Nat × Nat) =>
          st.modCore x.1 fun c => if x.2 == c.rangeBase t.slot r.role + h then c
            else (c.setBanks (c.rangeBase t.slot r.role) h mark).setBanks x.2 (h + r.count) mark) s1
        .next (s2.setPhase r (.move 0))
      else .next (s1.setPhase r .commit)
    else .next s
  | none => .next s

/-- BANK_RELOCATION: one more bank of the range is at its new place; MXS waits for the engine queue first (R138). -/
def execEvBankRelocation (core : Nat) (s : State) : Out :=
  match s.reqOf core with
  | some r =>
    match r.phase with
    | .move k =>
      if r.role == .mxs && k == 0 && !(s.team r.team).eng.queue.isEmpty then .next s
      else if k + 1 ≥ s.held r.team core r.role then .next (s.setPhase r .commit) else .next (s.setPhase r (.move (k + 1)))
    | _ => .next s
  | none => .next s

/-- Whether a register that a SHRINK of REG releases is empty (R139). -/
def State.releasedEmpty (s : State) (r : PoolReq) : Bool :=
  let t := s.team r.team
  r.role == .reg && t.groups.any fun g => (g.regs.drop (t.nregs - 8 * r.count)).any fun v => v.empty != 0

/-- SHRINK_QUIESCE: the accesses to the released part are performed. -/
def execEvShrinkQuiesce (core : Nat) (s : State) : Out :=
  match s.reqOf core with
  | some r => if r.phase == .quiesce && !s.releasedEmpty r then .next (s.setPhase r .commit) else .next s
  | none => .next s

/-- POOL_COMMIT. -/
def execEvPoolCommit (core : Nat) (s : State) : Out :=
  match s.reqOf core with
  | some r => if r.phase == .commit then .next (s.commitPool r) else .next s
  | none => .next s

/-! ## Occupancy (R317) -/

/-- The occupancy word of a core. -/
def State.occupancy (s : State) (core : Nat) : Word :=
  let c := s.openCore core
  let teams := (s.teams.filter fun t => t.cores.contains core).length
  BitVec.ofNat 32 (longestRun c.banks * 2 ^ 25 + c.freeCount * 2 ^ 19 + c.cchBanks * 2 ^ 13 + c.storeCount * 2 ^ 7 +
    Nat.min c.waiting.length 7 * 16 + teams)

end Sys2Proof.Machine
end

