-- ==== Sys2Proof/Machine/Tiles.lean ====
section
/-! DEFINITION. Majors 0x38 and 0x39: tile registers and storage (05 R143 to R150), the engine queue (R151 to R157), MMA (R158,
R159), the latch store and the flag plane (15 R354 to R357), MSEQ (R155, R359). -/

namespace Sys2Proof.Machine

open Sys2Proof

/-! ## Tile storage (R144 to R146) -/

def Team.mxsLimit (t : Team) (off : Nat) : Nat :=
  if t.pair && decide (off ≥ halfMxs) then halfMxs + t.pool.mxsBanks * 8192 else t.pool.mxsBanks * 8192

def Team.mxsIn (t : Team) (off n : Nat) : Bool := decide (off + n ≤ t.mxsLimit off)

/-- A fault with its TADDR. -/
abbrev Bad := BitVec 8 × Nat

/-- The checks of R146 on a tile register. -/
def Team.tileOf (t : Team) (k : Nat) : Except Bad Tile :=
  match t.eng.tiles[k]? with
  | some (some x) => if t.mxsIn x.off (tileBytes x.shape) then .ok x else .error (cTileStorage, k)
  | _ => .error (cTileShape, k)

def State.modEng (s : State) (tm : Nat) (f : TeamEng → TeamEng) : State := s.modTeam tm fun t => { t with eng := f t.eng }

/-- The tiles an operation names. -/
def EngKind.named : EngKind → List Tile
  | .tlatch a => [a]
  | .mma _ _ a b d => a.toList ++ b.toList ++ [d]
  | .mseq _ _ a b d _ _ => a :: d :: b.toList

/-- Storage that the operations not yet covered by an MWAIT name (R157), in halves of bytes; a performed TLATCH has let its source go (R154). -/
def Team.engMxs (t : Team) : List (Nat × Nat) :=
  (t.eng.queue ++ t.eng.covered.filter fun o => match o.kind with
    | .tlatch _ => false
    | _ => true).flatMap fun o => o.kind.named.map fun x => (2 * x.off, 2 * (x.off + tileBytes x.shape))

/-- Bytes of storage with the halves that lie in the ranges made undefined. -/
def freeHalves (rs : List (Nat × Nat)) : State → Nat → List Byte → State × List Byte
  | s, _, [] => (s, [])
  | s, a, b :: r =>
    let hit (k : Nat) : Bool := rs.any fun x => decide (x.1 ≤ k) && decide (k < x.2)
    let (s1, b1) := if hit (2 * a) || hit (2 * a + 1) then
      let (v, s') := s.free
      (s', (if hit (2 * a + 1) then v.extractLsb' 4 4 else b.extractLsb' 4 4) ++ (if hit (2 * a) then v.extractLsb' 0 4 else b.extractLsb' 0 4))
      else (s, b)
    let (s2, r2) := freeHalves rs s1 (a + 1) r
    (s2, b1 :: r2)

/-- The elements of a tile that a range of byte halves touches, whole. -/
def Tile.whole (t : Tile) (r : Nat × Nat) : Nat × Nat :=
  let e := elemBits (shapeFmt t.shape) / 4
  let o := 2 * t.off
  (o + (Nat.max r.1 o - o) / e * e, o + (Nat.min r.2 (o + 2 * tileBytes t.shape) - o + e - 1) / e * e)

/-- What a thread's access through a tile touches of the storage of operations not yet covered (R157). -/
def Team.engTouched (t : Team) (x : Tile) : List (Nat × Nat) := t.engMxs.map x.whole

/-- What is undefined through a tile. -/
def TeamEng.staleOf (e : TeamEng) (num : Nat) : List (Nat × Nat) := (e.stale.filter fun x => x.1 == num).map fun x => x.2

/-- The ranges of one store that an operation found unfenced when it was issued (R152): scratch in bytes, tile storage in halves. -/
def EngOp.unseenScr (o : EngOp) : List (Nat × Nat) := (o.unseen.filter fun x => x.1).map fun x => x.2
def EngOp.unseenMxs (o : EngOp) : List (Nat × Nat) := (o.unseen.filter fun x => !x.1).map fun x => (2 * x.2.1, 2 * x.2.2)

/-- Bytes [off, off + n) read through a tile, by a thread or by the engine, to which the ranges `unseen` are undefined (R152, R157, DESIGN
CHOICE log 4). -/
def State.tileRead (s : State) (tm : Nat) (t : Tile) (thread : Bool) (unseen : List (Nat × Nat)) (off n : Nat) : State × List Byte :=
  let team := s.team tm
  let rs := team.eng.staleOf t.num ++ (if thread then team.engTouched t else unseen.map t.whole)
  freeHalves rs s off (memRead team.pool.mxs off n)

/-- The stale ranges after a write of the halves [lo, hi) through tile `num`: defined through it; of the tiles it overlaps, the elements
it touches are undefined (R144). -/
def TeamEng.written (e : TeamEng) (num lo hi : Nat) : TeamEng :=
  let others := e.tiles.filterMap fun x => x.bind fun t =>
    if t.num ≠ num ∧ 2 * t.off < hi ∧ lo < 2 * (t.off + tileBytes t.shape) then some (t.num, t.whole (lo, hi)) else none
  { e with stale := (e.stale.flatMap (cutStale num lo hi)).filter (fun x => !others.contains x) ++ others }

/-- Bytes written through a tile, of which the halves [lo, hi) are its elements. -/
def State.tileWrite (s : State) (tm : Nat) (t : Tile) (thread : Bool) (off : Nat) (bs : List Byte) (lo hi : Nat) : State :=
  let rs := if thread then ((s.team tm).engTouched t).map fun r => (Nat.max r.1 lo, Nat.min r.2 hi) else []
  let (s1, b) := freeHalves rs s off bs
  (s1.modPool tm fun p => { p with mxs := memWrite p.mxs off b, mxsErrs := recodeWords p.mxsErrs off b.length }).modEng tm fun e =>
    e.written t.num lo hi

/-- The rows of a tile, all of whose words have been written, coded anew (15 R362): an engine writes them in parts. -/
def State.tileRecode (s : State) (tm : Nat) (t : Tile) : State :=
  let row (m : List Nat) (r : Nat) : List Nat := recodeWords m (t.off + r * rowSize t.shape) (rowBytes t.shape)
  s.modPool tm fun p => { p with mxsErrs := (List.range (shapeRows t.shape)).foldl row p.mxsErrs }

/-- The first word of a tile's storage that cannot be corrected (15 R362). -/
def Team.tileBad (t : Team) (x : Tile) : Option Nat := badWord t.pool.mxsErrs x.off (tileBytes x.shape)

/-- The first of some scratch ranges with a word that cannot be corrected. -/
def Team.rowsBad (t : Team) (rows : List (Int × Nat)) : Option Int :=
  (rows.find? fun r => t.scrBad r.1.toNat r.2).map (·.1)

/-- Tiles left undefined: nothing of what was to be written is finished (R362). -/
def State.tilesLost (s : State) (tm : Nat) (ts : List Tile) : State :=
  ts.foldl (fun (st : State) (t : Tile) =>
    let (b, st1) := st.freeBytes (tileBytes t.shape)
    st1.tileWrite tm t false t.off b (2 * t.off) (2 * (t.off + b.length))) s

def TeamPool.setFlag (p : TeamPool) (k : Nat) (v : Bool) : TeamPool :=
  { p with flags := (if v then [k] else []) ++ p.flags.filter (· != k) }

/-! ## Elements -/

/-- Byte offset of element (r, c) within a tile, and its halfword in the flag plane. -/
def elemOff (w : Word) (r c : Nat) : Nat := r * rowSize w + c * elemBits (shapeFmt w) / 8

def Tile.halfword (t : Tile) (r c : Nat) : Nat := (t.off + elemOff t.shape r c) / 2

/-- Whether elements of a format have a flag. -/
def hasFlags (w : Word) : Bool := elemBits (shapeFmt w) ≥ 16

/-- Whether halfword `k` of the flag plane is the flag of one of the tile's elements (15 R356). -/
def Tile.isFlag (t : Tile) (k : Nat) : Bool :=
  let rel := 2 * k - t.off
  let es := elemBits (shapeFmt t.shape) / 8
  let c := rel % rowSize t.shape
  hasFlags t.shape && decide (t.off ≤ 2 * k) && decide (rel / rowSize t.shape < shapeRows t.shape) && c % es == 0 &&
    decide (c / es < shapeCols t.shape)

/-- Element (r, c) of a tile's bytes. -/
def elemAt (w : Word) (bs : List Byte) (r c : Nat) : Nat :=
  let bits := elemBits (shapeFmt w)
  let b := bs.drop (elemOff w r c)
  if bits = 4 then natOf (b.take 1) / 16 ^ (c % 2) % 16 else natOf (b.take (bits / 8))

/-- The bytes of element (r, c) as they stand after it is written over `old`. -/
def elemBytes (w : Word) (c : Nat) (old : Byte) (v : Nat) : List Byte :=
  let bits := elemBits (shapeFmt w)
  if bits = 4 then
    let o := old.toNat
    [BitVec.ofNat 8 (if c % 2 = 0 then o / 16 * 16 + v % 16 else v % 16 * 16 + o % 16)]
  else bytesOf (bits / 8) v

/-- One element written through a tile. -/
def State.elemWrite (s : State) (tm : Nat) (t : Tile) (thread : Bool) (r c v : Nat) : State :=
  let off := t.off + elemOff t.shape r c
  let h := if elemBits (shapeFmt t.shape) = 4 then 2 * off + c % 2 else 2 * off
  s.tileWrite tm t thread off (elemBytes t.shape c (memGet (s.team tm).pool.mxs off) v) h (h + elemBits (shapeFmt t.shape) / 4)

/-- A row's bytes as a tile keeps them: the high nibble of an odd SPT4 row is not an element and stays (R147). -/
def rowKept (w : Word) (old : List Byte) (bs : List Byte) : List Byte :=
  if shapeFmt w = 7 ∧ shapeCols w % 2 = 1 then
    bs.take (bs.length - 1) ++ [BitVec.ofNat 8 ((old.getLastD 0).toNat / 16 * 16 + (bs.getLastD 0).toNat % 16)]
  else bs

/-- One row written through a tile. -/
def State.rowWrite (s : State) (tm : Nat) (t : Tile) (thread : Bool) (r : Nat) (bs : List Byte) : State :=
  let off := t.off + r * rowSize t.shape
  s.tileWrite tm t thread off (rowKept t.shape (memRead (s.team tm).pool.mxs off bs.length) bs) (2 * off)
    (2 * off + shapeCols t.shape * elemBits (shapeFmt t.shape) / 4)

def State.clearTileFlags (s : State) (tm : Nat) (t : Tile) : State :=
  s.modPool tm fun p => { p with flags := p.flags.filter fun k => !t.isFlag k }

/-- A tile written by a thread's instruction: noted until the thread's MFENCE (R152). -/
def State.tileNote (s : State) (i : Iss) (l : Nat) (t : Tile) : State :=
  s.noteWrite i.op.team i.op.grp l false t.off (tileBytes t.shape)

/-- A tile that every lane of one instruction writes with the same elements, noted (R148, R152). -/
def State.tileNoteSame (s : State) (i : Iss) (l : Nat) (t : Tile) : State :=
  s.noteSame i.op.team i.op.grp l false t.off (tileBytes t.shape) (i.lanes.headD l != l)

/-! ## The form of a tile instruction -/

def tileForm (roles : Role → Bool) (srcs : List (Reg × Nat)) (dst : Option (Reg × Nat)) (rule : TagRule) : Form :=
  { Form.plain srcs dst rule with foehn := false, roles := roles, txn := false }

/-- A tile instruction per lane; it stalls while the team's banks are relocated (R138). -/
def tileOp (roles : Role → Bool) (srcs : List (Reg × Nat)) (body : Iss → State → Nat → Except Bad (State × LaneOut)) : State → Out :=
  issue (tileForm roles srcs none .table) (eachLane fun i s l =>
    if s.relocating i.op.team then (s, .only l .stay)
    else match body i s l with
      | .ok r => r
      | .error (c, a) => (s, .fault l c a))

/-! ## TSHAPE, TLD, TLDT, TST, TZERO, TMOV (R145 to R148) -/

/-- Whether a shape word follows R45. -/
def shapeOk (w : Word) : Bool :=
  w.extractLsb' 28 4 == 0 && decide (shapeFmt w < 8) && decide (shapeScale w ≠ 255) && decide (shapeRows w ≤ 128) &&
    decide (shapeCols w ≤ 128)

/-- TSHAPE (R145). -/
def execTshape (d : Sys2Proof.Tile) (a b : Reg) (s : State) : Out :=
  issue (tileForm rolesAll [(a, 1), (b, 1)] none .table) (eachLane fun i s l =>
    let w := i.view.reg a l
    let off := (i.view.reg b l).toNat
    let k := d.toNat
    if !shapeOk w then (s, .fault l cTileShape k)
    else if off % 128 ≠ 0 then (s, .fault l cMisaligned off)
    else if !(s.team i.op.team).mxsIn off (tileBytes w) then (s, .fault l cTileStorage k)
    else
      let t : Tile := { num := k, shape := w, off := off }
      let s1 := s.modEng i.op.team fun e => { e with tiles := e.tiles.mapIdx fun j x => if j = k then some t else x }
      (s1.clearTileFlags i.op.team t, .only l .next)) s

/-- The first of some scratch ranges that lies outside the team's scratch (R147). -/
def Team.firstOutside (t : Team) (rows : List (Int × Nat)) : Option Int :=
  (rows.find? fun r => decide (r.1 < 0) || !t.scrIn r.1.toNat r.2).map (·.1)

/-- The checks of R147 after R146, over the ranges of scratch that a move reaches. -/
def moveCheck (t : Team) (off : Word) (stride : Word) (rows : List (Int × Nat)) : Option Bad :=
  if off.toNat % 4 ≠ 0 ∨ stride.toInt % 4 ≠ 0 then some (cMisaligned, off.toNat)
  else (t.firstOutside rows).map fun x => (cScratch, (BitVec.ofInt 64 x).toNat)

/-- A load of scratch into a tile meets data that cannot be corrected (00 R13). -/
def Team.loadBad (t : Team) (rows : List (Int × Nat)) : Option Bad :=
  (t.rowsBad rows).map fun x => (cUncorrectable, x.toNat)

/-- A read of a tile by a thread meets data that cannot be corrected (00 R13). -/
def Team.readBad (t : Team) (x : Tile) : Option Bad := (t.tileBad x).map fun w => (cUncorrectable, w)

/-- The scratch ranges of the rows of a TLD or TST. -/
def tileRows (t : Tile) (off : Nat) (stride : Int) : List (Int × Nat) :=
  (List.range (shapeRows t.shape)).map fun (r : Nat) => ((off : Int) + r * stride, rowBytes t.shape)

/-- The rows of scratch loaded into a tile, the flags cleared; to the engine the ranges `unseen` of scratch are undefined (R152). -/
def State.tileLoad (s : State) (tm : Nat) (t : Tile) (thread : Bool) (unseen : List (Nat × Nat)) (rows : List (Int × Nat)) : State :=
  let s1 := (rows.mapIdx fun r x => (r, x)).foldl (fun (st : State) (x : Nat × Int × Nat) =>
    let (st1, bs) := if thread then st.scrRead tm x.2.1.toNat x.2.2
      else
        let (st', b) := st.scrReadEng tm x.2.1.toNat x.2.2
        unseen.foldl (fun (r : State × List Byte) (y : Nat × Nat) => freeRange r.1 y.1 y.2 x.2.1.toNat r.2) (st', b)
    st1.rowWrite tm t thread x.1 bs) s
  s1.clearTileFlags tm t

/-- TLD (R147). -/
def execTld (d : Sys2Proof.Tile) (a b : Reg) (s : State) : Out :=
  tileOp rolesAll [(a, 1), (b, 1)] (fun i s l => do
    let t ← (s.team i.op.team).tileOf d.toNat
    let off := i.view.reg a l
    let rows := tileRows t off.toNat (i.view.reg b l).toInt
    match (moveCheck (s.team i.op.team) off (i.view.reg b l) rows).or ((s.team i.op.team).loadBad rows) with
    | some e => .error e
    | none => .ok ((s.tileLoad i.op.team t true [] rows).tileNote i l t, .only l .next)) s

/-- TLDT (R147): columns from scratch. -/
def execTldt (d : Sys2Proof.Tile) (a b : Reg) (s : State) : Out :=
  tileOp rolesAll [(a, 1), (b, 1)] (fun i s l => do
    let t ← (s.team i.op.team).tileOf d.toNat
    let off := i.view.reg a l
    let es := elemBits (shapeFmt t.shape) / 8
    let cols := (List.range (shapeCols t.shape)).map fun (c : Nat) =>
      ((off.toNat : Int) + c * (i.view.reg b l).toInt, shapeRows t.shape * es)
    if shapeFmt t.shape ≥ 6 then .error (cTileShape, d.toNat)
    else match (moveCheck (s.team i.op.team) off (i.view.reg b l) cols).or ((s.team i.op.team).loadBad cols) with
      | some e => .error e
      | none =>
        let s1 := (cols.mapIdx fun c x => (c, x)).foldl (fun (st : State) (x : Nat × Int × Nat) =>
          let (st1, bs) := st.scrRead i.op.team x.2.1.toNat x.2.2
          (List.range (shapeRows t.shape)).foldl (fun (u : State) (r : Nat) =>
            u.elemWrite i.op.team t true r x.1 (natOf ((bs.drop (r * es)).take es))) st1) s
        .ok (((s1.tileRecode i.op.team t).clearTileFlags i.op.team t).tileNote i l t, .only l .next)) s

/-- TST (R147): the high nibble after an odd SPT4 row is written as 0. -/
def execTst (d : Sys2Proof.Tile) (a b : Reg) (s : State) : Out :=
  tileOp rolesAll [(a, 1), (b, 1)] (fun i s l => do
    let t ← (s.team i.op.team).tileOf d.toNat
    let off := i.view.reg a l
    let rows := tileRows t off.toNat (i.view.reg b l).toInt
    match (moveCheck (s.team i.op.team) off (i.view.reg b l) rows).or ((s.team i.op.team).readBad t) with
    | some e => .error e
    | none =>
      .ok ((rows.mapIdx fun r x => (r, x)).foldl (fun (st : State) (x : Nat × Int × Nat) =>
        let (st1, bs) := st.tileRead i.op.team t true [] (t.off + x.1 * rowSize t.shape) x.2.2
        (st1.scrWrite i.op.team x.2.1.toNat (rowKept t.shape [0] bs) false).noteWrite i.op.team i.op.grp l true x.2.1.toNat x.2.2) s,
        .only l .next)) s

/-- TZERO (R148). -/
def execTzero (d : Sys2Proof.Tile) (s : State) : Out :=
  tileOp rolesFloat [] (fun i s l => do
    let t ← (s.team i.op.team).tileOf d.toNat
    let s1 := (List.range (shapeRows t.shape)).foldl (fun (st : State) (r : Nat) =>
      st.rowWrite i.op.team t true r (bytesOf (rowBytes t.shape) 0)) s
    .ok ((s1.clearTileFlags i.op.team t).tileNoteSame i l t, .only l .next)) s

/-- TMOV (R148): elements and flags; every fault names td (R486). -/
def execTmov (d a : Sys2Proof.Tile) (s : State) : Out :=
  tileOp rolesFloat [] (fun i s l =>
    let tm := i.op.team
    match (s.team tm).tileOf d.toNat, (s.team tm).tileOf a.toNat with
    | .error e, _ => .error e
    | _, .error (c, _) => .error (c, d.toNat)
    | .ok td, .ok ta =>
      if td.shape.extractLsb' 0 20 ≠ ta.shape.extractLsb' 0 20 then .error (cTileShape, d.toNat)
      else if d = a then .ok (s, .only l .next)
      else if let some e := (s.team tm).readBad ta then .error e
      else
        let w := ta.shape
        let (s1, bs) := s.tileRead tm ta true [] ta.off (tileBytes w)
        let fl := (s1.team tm).pool.flags
        let s2 := (List.range (shapeRows w)).foldl (fun (st : State) (r : Nat) =>
          st.rowWrite tm td true r ((bs.drop (r * rowSize w)).take (rowBytes w))) s1
        let s3 := if hasFlags w then
          (List.range (shapeRows w)).foldl (fun (st : State) (r : Nat) => (List.range (shapeCols w)).foldl (fun (u : State) (c : Nat) =>
            u.modPool tm fun p => p.setFlag (td.halfword r c) (fl.contains (ta.halfword r c))) st) s2
          else s2
        .ok (s3.tileNoteSame i l td, .only l .next)) s

/-! ## TRDR, TWRR, TLSF (R149) -/

/-- The row and first column of a lane's segment, or TILE_SHAPE. -/
def segment (t : Tile) (k : Nat) (b : Word) : Except Bad (Nat × Nat) :=
  if b.extractLsb' 16 16 ≠ 0 ∨ (b.extractLsb' 0 8).toNat ≥ shapeRows t.shape then .error (cTileShape, k)
  else .ok ((b.extractLsb' 0 8).toNat, (b.extractLsb' 8 8).toNat)

/-- The first column a lane reaches and how many. -/
def laneColumns (t : Tile) (c0 l : Nat) : Nat × Nat :=
  let bits := elemBits (shapeFmt t.shape)
  if bits = 64 then (c0 + l, 1) else (c0 + l * (32 / bits), 32 / bits)

/-- Whether an FP64 tile makes the register operand an odd pair. -/
def oddPair (t : Tile) (r : Reg) : Bool := shapeFmt t.shape == 0 && r.toNat % 2 == 1 && r.toNat != 127

/-- A row-segment instruction: the tile's checks come before the registers `b` and `reg` are waited for (R149). `n` gives the
operand's registers by the tile's format; `odd` says whether it is a pair that may not be odd; `dst` that it is the destination. -/
def segmentOp (k : Nat) (b reg : Reg) (n : Tile → Nat) (odd : Tile → Bool) (dst : Bool)
    (body : Iss → State → Nat → Tile → Nat → Nat → State × LaneOut) : State → Out :=
  issue (tileForm rolesFloat [] none .g) (fun i s =>
    let tm := i.op.team
    if s.relocating tm then (s, i.lanes.map fun l => .only l .stay)
    else match (s.team tm).tileOf k with
      | .error (c, a) => (s, i.lanes.map fun l => .fault l c a)
      | .ok t =>
        if odd t then (s, i.lanes.map fun l => .fault l cTileShape k)
        else
          let f := if dst then tileForm rolesFloat [] (some (reg, n t)) .g else tileForm rolesFloat [(reg, n t)] none .g
          let (s1, outs) := i.lanes.foldl (fun (r : State × List LaneOut) (l : Nat) =>
            match obstacle i.view (tileForm rolesFloat [(b, 1)] none .g) l with
            | .held => (r.1, r.2 ++ [.only l .stay])
            | .fault o => (r.1, r.2 ++ [o])
            | .none => match segment t k (i.view.reg b l) with
              | .error (c, a) => (r.1, r.2 ++ [.fault l c a])
              | .ok (row, c0) => match obstacle i.view f l with
                | .held => (r.1, r.2 ++ [.only l .stay])
                | .fault o => (r.1, r.2 ++ [o])
                | .none =>
                  let (s', o) := body i r.1 l t row c0
                  (s', r.2 ++ [o])) (s, [])
          (if dst then s1.modTeam tm fun x => x.writeRegs i.op.grp i.op.base reg (n t) false .g (outs.filter fun o => !o.ends.isFault)
           else s1, outs))

/-- Registers of a tile's row operand. -/
def segmentRegs (t : Tile) : Nat := if shapeFmt t.shape = 0 then 2 else 1

/-- TRDR; a lane faults for a word of its own segment that cannot be corrected (00 R13). -/
def execTrdr (d : Reg) (a : Sys2Proof.Tile) (b : Reg) (s : State) : Out :=
  segmentOp a.toNat b d segmentRegs (oddPair · d) true (fun i s l t row c0 =>
    let (c, n) := laneColumns t c0 l
    let bits := elemBits (shapeFmt t.shape)
    let mine := (Nat.min n (shapeCols t.shape - c) * bits + 7) / 8
    match if mine = 0 then none else badWord (s.team i.op.team).pool.mxsErrs (t.off + elemOff t.shape row c) mine with
    | some w => (s, .fault l cUncorrectable w)
    | none =>
      let (s1, bs) := s.tileRead i.op.team t true [] (t.off + row * rowSize t.shape) (rowSize t.shape)
      let v := ((List.range n).map fun j =>
        if c + j < shapeCols t.shape then elemAt t.shape bs 0 (c + j) * 2 ^ (bits * j) else 0).sum
      (s1, .write l (wordsOf (segmentRegs t) v))) s

/-- TWRR. -/
def execTwrr (d : Sys2Proof.Tile) (a b : Reg) (s : State) : Out :=
  segmentOp d.toNat b a segmentRegs (oddPair · a) false (fun i s l t row c0 =>
    let (c, n) := laneColumns t c0 l
    let bits := elemBits (shapeFmt t.shape)
    let v := natOfWords (i.view.words a (segmentRegs t) l)
    let m := Nat.min n (shapeCols t.shape - c)
    let s1 := (List.range m).foldl (fun (st : State) (j : Nat) =>
      let s1 := st.elemWrite i.op.team t true row (c + j) (v / 2 ^ (bits * j) % 2 ^ bits)
      if hasFlags t.shape then s1.modPool i.op.team fun p => p.setFlag (t.halfword row (c + j)) false else s1) s
    let off := t.off + elemOff t.shape row c
    let s2 := s1.modPool i.op.team fun p => { p with mxsErrs := recodeWords p.mxsErrs off (m * bits / 8) }
    (s2.noteWrite i.op.team i.op.grp l false off ((m * bits + 7) / 8), .only l .next)) s

/-- TLSF. -/
def execTlsf (d : Reg) (a : Sys2Proof.Tile) (b : Reg) (s : State) : Out :=
  segmentOp a.toNat b d (fun _ => 2) (fun _ => false) true (fun i s l t row c0 =>
    let p := (s.team i.op.team).pool
    let rs := (s.team i.op.team).engTouched t
    let touched (j : Nat) : Bool :=
      let h := 2 * (t.off + elemOff t.shape row (c0 + j))
      rs.any fun r => decide (r.1 ≤ h) && decide (h < r.2)
    let cols := if hasFlags t.shape then (List.range 64).filter fun j => c0 + j < shapeCols t.shape else []
    let (s1, open_) := if cols.any touched then
        let (bs, s') := s.freeBytes 8
        (s', natOf bs)
      else (s, 0)
    let flag (j : Nat) : Bool := if touched j then open_.testBit j else p.flags.contains (t.halfword row (c0 + j))
    (s1, .write l (wordsOf 2 ((cols.map fun j => if flag j then 2 ^ j else 0).sum)))) s

/-! ## The engine queue (R151 to R154) -/

/-- The next id: 0 is never one. -/
def nextSeq (n : Word) : Word := if n = BitVec.allOnes 32 then 1 else n + 1

/-- An operation entered in the queue (R151, R351). -/
def TeamEng.enqueue (e : TeamEng) (tick : Nat) (unseen : List (Bool × Nat × Nat)) (k : EngKind) : TeamEng :=
  { e with queue := e.queue ++ [{ id := e.seq, mcr := e.mcr, kind := k, born := tick, unseen := unseen }], seq := nextSeq e.seq, issuedAny := true }

/-- What the team's threads have written and not fenced (R152). -/
def Team.unfenced (t : Team) : List (Bool × Nat × Nat) := t.groups.flatMap fun g => g.threads.flatMap (·.unfenced)

/-- An operation issued by the team. -/
def State.engIssue (s : State) (tm : Nat) (k : EngKind) : State :=
  s.modEng tm fun e => e.enqueue s.tick (s.team tm).unfenced k

def TeamEng.isFull (e : TeamEng) : Bool := decide (e.queue.length ≥ 16)

/-- The id of the last operation issued, 0 before the first. -/
def TeamEng.last (e : TeamEng) : Word := if e.issuedAny then (if e.seq = 1 then BitVec.allOnes 32 else e.seq - 1) else 0

/-- TLATCH (R154, R354). -/
def execTlatch (d : Sys2Proof.Tile) (s : State) : Out :=
  tileOp rolesMatrix [] (fun i s l => do
    let t ← (s.team i.op.team).tileOf d.toNat
    if tileBytes t.shape > 32768 then .error (cTileShape, d.toNat)
    else if (s.team i.op.team).eng.isFull then .ok (s, .only l .stay)
    else .ok ((s.engIssue i.op.team (.tlatch t)).modEng i.op.team fun e => { e with latchIssued := some t }, .only l .next)) s

/-- MFENCE (R152): every earlier write of the thread is at the engine's port afterwards (log 4). -/
def execMfence (s : State) : Out :=
  issue (tileForm rolesAll [] none .table) (eachLane fun i s l =>
    (s.fenceWrites i.op.team i.op.grp l, .only l .next)) s

/-- Whether an operation stands at or before an id. -/
def upTo (id : Word) (x : Word) : Bool := decide ((id - x).toNat < 2 ^ 31)

/-- How far an id lies behind the counter of its team, which never stands at 0. -/
def TeamEng.behind (e : TeamEng) (id : Word) : Nat := (e.seq - id).toNat - (if id.toNat > e.seq.toNat then 1 else 0)

/-- MWAIT (R153): with z, every operation issued before it; id 0 is never issued. Of the faults that covered operations left, the oldest is
raised and the others are gone with it (R155, DESIGN CHOICE log 53). -/
def execMwait (b : Reg) (s : State) : Out :=
  issue (tileForm rolesAll [(b, 1)] none .table) (fun i s =>
    let e := (s.team i.op.team).eng
    let target (l : Nat) : Word := match (i.thread l).wait with
      | some (.mwait id) => if b.toNat = 127 then id else i.view.reg b l
      | _ => if b.toNat = 127 then e.last else i.view.reg b l
    let issued (id : Word) : Bool := e.issuedAny && id != 0 && e.behind id != 0 && decide (e.behind id ≤ 2 ^ 31)
    let held (l : Nat) : Bool := issued (target l) && e.queue.any fun o => upTo (target l) o.id
    let ids := (i.lanes.filter fun l => !held l && issued (target l)).map target
    let s1 := s.modEng i.op.team fun e =>
      { e with covered := e.covered.filter (fun o => !ids.any fun id => upTo id o.id),
               faults := e.faults.filter fun f => !ids.any fun id => upTo id f.id }
    (s1, i.lanes.map fun l =>
      if held l then .only l (.wait (.mwait (target l)))
      else match e.faults.find? fun f => issued (target l) && upTo (target l) f.id with
        | some f => .only l (.fault f.cause 0 f.addr)
        | none => .only l .next)) s

/-! ## MCW and MCRD (R156) -/

/-- MCW, per lane in order. -/
def execMcw (d a : Reg) (s : State) : Out :=
  issue (tileForm rolesMatrix [(a, 1)] (some (d, 1)) .same) (eachLane fun i s l =>
    let v := i.view.reg a l
    if v.extractLsb' 7 25 ≠ 0 ∨ v.extractLsb' 0 3 = 7 ∨ v.extractLsb' 3 3 = 7 then (s, .fault l cIllegal i.op.word.toNat)
    else (s.modEng i.op.team fun e => { e with mcr := v }, .write l [(s.team i.op.team).eng.mcr])) s

/-- MCRD: every lane of the bundle reads one value; k = 2 then clears MFX. -/
def execMcrd (d : Reg) (k : BitVec 3) (s : State) : Out :=
  issue (tileForm rolesAll [] (some (d, 1)) .table) (fun i s =>
    let e := (s.team i.op.team).eng
    let v := match k.toNat with
      | 0 => e.mcr
      | 1 => e.mfx
      | 2 => e.mfx
      | 3 => e.last
      | _ => e.egen
    (if k = 2 then s.modEng i.op.team fun e => { e with mfx := 0 } else s, i.lanes.map fun l => .write l [v])) s

/-! ## MMA (R158, R159) -/

/-- The row of R158's table: formats of A, B and D, and whether the mode is SEQ. -/
def mmaFormats (a b d : Nat) (seq : Bool) : Bool :=
  let fp8 (f : Nat) : Bool := f == 4 || f == 5
  let pairOk := match a with
    | 0 => b == 0
    | 1 => b == 1
    | 2 => b == 2
    | 3 => b == 3
    | _ => fp8 a && (fp8 b || b == 6 || b == 7)
  let dOk := if a = 0 then d == 0 else if seq then d == 1 else d == 1 || d == 2 || d == 3
  pairOk && dOk

/-- The checks of R158 on three shapes. -/
def mmaShapes (a b d : Word) (seq : Bool) : Bool :=
  shapeRows a == shapeRows d && shapeCols a == shapeRows b && shapeCols b == shapeCols d &&
    mmaFormats (shapeFmt a) (shapeFmt b) (shapeFmt d) seq

/-- The checks of R146 in the order A, B, D, and then of R158 (R486). `b` none means the latched copy. -/
def Team.mmaCheck (t : Team) (seq : Bool) (a : Nat) (b : Option Nat) (d : Nat) : Except Bad (Tile × Option Tile × Tile) := do
  let ta ← t.tileOf a
  let tb : Option Tile ← match b with
    | some k => (t.tileOf k).map some
    | none => match t.eng.latchIssued with
      | some _ => .ok none
      | none => .error (cTileShape, 16)
  let td ← t.tileOf d
  let sb : Word := match tb, t.eng.latchIssued with
    | some x, _ => x.shape
    | none, some x => x.shape
    | none, none => 0
  if mmaShapes ta.shape sb td.shape seq then .ok (ta, tb, td) else .error (cTileShape, d)

/-- MMA in a mode, per lane. -/
def mma (seq lat : Bool) (acc : BitVec 2) (d a b : Sys2Proof.Tile) : State → Out :=
  tileOp rolesMatrix [] (fun i s l => do
    let t := s.team i.op.team
    let (ta, tb, td) ← t.mmaCheck seq a.toNat (if lat then none else some b.toNat) d.toNat
    if t.eng.isFull then .ok (s, .only l .stay)
    else .ok (s.engIssue i.op.team (.mma seq acc.toNat (some ta) tb td), .only l .next))

/-- MMA.WIN. -/
def execMmaWin (lat : Bool) (acc : BitVec 2) (d a b : Sys2Proof.Tile) (s : State) : Out := mma false lat acc d a b s

/-- MMA.SEQ. -/
def execMmaSeq (lat : Bool) (acc : BitVec 2) (d a b : Sys2Proof.Tile) (s : State) : Out := mma true lat acc d a b s

/-- The floating-point format of a tile format code. -/
def tileFmt (f : Nat) : Fmt :=
  match f with
  | 0 => f64
  | 1 => f32
  | 2 => f16
  | 3 => bf16
  | 4 => e4m3
  | _ => e5m2

/-- `decode` of an element (R320). -/
def elemNum (f v : Nat) : Num := if f = 6 then dpt8Num v else if f = 7 then spt4Num v else decodeNum (tileFmt f) v

/-- A number times 2^k. -/
def Num.scale (k : Int) : Num → Num
  | .fin n m e => .fin n m (e + k)
  | x => x

/-- scaleB of R159, as an exponent. -/
def scaleOf (w : Word) : Int := if shapeFmt w ≥ 6 then (shapeScale w : Int) - 127 else 0

/-- One element of D: its bits, the flags it adds, whether significance was lost, the generator after it. `acc` 0 ACC, 1 SET,
2 SUB. -/
def mmaElem (seq : Bool) (acc : Nat) (f : Fmt) (w : Nat) (rm : Rm) (gen : Word) (old : Num) (ps : List Num) : Nat × Word × Bool × Word :=
  let draw (g : Word) : Word := if rm == .sr then srNext g else g
  if seq then
    let (bits, fl, g) := ps.foldl (fun (r : Option Nat × Word × Word) (p : Num) =>
      let g := draw r.2.2
      let x := match r.1 with
        | none => if acc = 1 then roundNum f rm g false p else fmaNum f rm g old (if acc = 2 then p.negate else p)
        | some b => fmaNum f rm g (decodeNum f b) (if acc = 2 then p.negate else p)
      (some x.bits, r.2.1 ||| x.flags, g)) (none, 0, gen)
    (bits.getD 0, fl, false, g)
  else
    let g := draw gen
    let terms := if acc = 1 then ps else if acc = 2 then old :: ps.map Num.negate else old :: ps
    let (r, lost, _) := winsum f w rm g terms
    (r.bits, r.flags, lost, g)

/-- An MMA performed by the engine: every source read first, then each element of D in order, with its flag, MFX and the
generator (R159); `ua` and `ud` are undefined in its factors and in D (R152). -/
def State.mmaPerform (s : State) (tm : Nat) (mcr : Word) (seq : Bool) (acc : Nat) (a : Tile) (b : Option Tile) (d : Tile)
    (ua ud : List (Nat × Nat)) : State :=
  let (s1, ab) := s.tileRead tm a false ua a.off (tileBytes a.shape)
  let (s2, bw, bb) := match b with
    | some t =>
      let (x, y) := s1.tileRead tm t false ua t.off (tileBytes t.shape)
      (x, t.shape, y)
    | none => match (s1.team tm).eng.latch with
      | some t => (s1, t.shape, memRead t.data 0 (tileBytes t.shape))
      | none => (s1, 0, [])
  let (s3, db) := s2.tileRead tm d false ud d.off (tileBytes d.shape)
  let f := tileFmt (shapeFmt d.shape)
  let rm := rmOf (mcr.extractLsb' 3 3)
  let w := windowOf (mcr.extractLsb' 0 3).toNat
  let fl0 := (s3.team tm).pool.flags
  let s4 := (List.range (shapeRows d.shape)).foldl (fun (st : State) (r : Nat) => (List.range (shapeCols d.shape)).foldl (fun (u : State) (c : Nat) =>
    let ps := (List.range (shapeCols a.shape)).map fun k =>
      (mulNum (elemNum (shapeFmt a.shape) (elemAt a.shape ab r k)) (elemNum (shapeFmt bw) (elemAt bw bb k c))).scale (scaleOf bw)
    let old := elemNum (shapeFmt d.shape) (elemAt d.shape db r c)
    let (bits, fl, lost, g) := mmaElem seq acc f w rm (u.team tm).eng.egen old ps
    let h := d.halfword r c
    let flag := if seq then acc != 1 && fl0.contains h else if acc = 1 then lost else lost || fl0.contains h
    ((u.elemWrite tm d false r c bits).modPool tm fun p => p.setFlag h flag).modEng tm fun e =>
      { e with egen := g, mfx := e.mfx ||| fl }) st) s3
  s4.tileRecode tm d

/-! ## MSEQ (R155) -/

/-- A 4-byte field of a block. -/
def blockWord (b : List Byte) (o : Nat) : Nat := natOf ((b.drop o).take 4)
def blockByte (b : List Byte) (o : Nat) : Nat := natOf ((b.drop o).take 1)

def blockZero (b : List Byte) (o n : Nat) : Bool := ((b.drop o).take n).all (· == 0)

/-- Check 3 of R155. -/
def mseqBlockOk (b : List Byte) : Bool :=
  let w := blockWord b
  let fl := blockByte b 7
  decide (1 ≤ w 0) && decide (w 0 ≤ 65535) && decide (blockByte b 4 < 16) && decide (blockByte b 5 < 16) &&
    (fl / 16 % 2 == 1 || decide (blockByte b 6 < 16)) && decide (fl / 32 = 0) && decide (fl % 4 < 2) && decide (fl / 4 % 4 < 3) &&
    [8, 12, 16, 20, 24, 28].all (fun o => w o % 4 == 0) && decide (1 ≤ w 32) && decide (w 32 ≤ 65535) && decide (w 36 ≤ 65535) &&
    decide (blockBarrier b % 16 = 0) && blockZero b 48 16

/-- MSEQ, per lane: the checks of R155 in order, then the queue; its result is an async-producing one's (01 R34). -/
def execMseq (d a : Reg) (s : State) : Out :=
  issue (tileForm rolesMatrix [(a, 1)] (some (d, 1)) .g) (eachLane fun i s l =>
    let tm := i.op.team
    let off := (i.view.reg a l).toNat
    let t := s.team tm
    if off % 64 ≠ 0 then (s, .fault l cMisaligned off)
    else if s.relocating tm then (s, .only l .pend)
    else if !t.scrIn off 64 then (s, .fault l cScratch off)
    else if t.eng.isFull then (s, .only l .stay)
    else if t.scrBad off 64 then (s, .fault l cUncorrectable off)
    else
      let (s1, blk) := s.scrRead tm off 64
      let fl := blockByte blk 7
      let lat := fl / 16 % 2 == 1
      if !mseqBlockOk blk then (s1, .fault l cEngine off)
      else match t.mmaCheck (fl % 4 == 1) (blockByte blk 5) (if lat then none else some (blockByte blk 6)) (blockByte blk 4) with
        | .error (c, x) => (s1, .fault l c x)
        | .ok (ta, tb, td) =>
          let bar := blockBarrier blk
          let (s2, pa) := if bar = 0 then (s1, .ok 0) else s1.checkBarrier i bar
          match pa with
          | .error e => (s2, .only l e)
          | .ok pa => (s2.engIssue tm (.mseq blk off ta tb td 0 pa), .write l [t.eng.seq])) s

/-! ## The engine at work (R352, R359) -/

/-- The head of the queue completed. -/
def TeamEng.retire (e : TeamEng) : TeamEng :=
  match e.queue with
  | o :: r => { e with queue := r, done := o.id, covered := e.covered ++ [o] }
  | [] => e

/-- An operation ended by data that cannot be corrected, its fault kept for MWAIT with the offset of the word (R362). -/
def TeamEng.retireBad (e : TeamEng) (id : Word) (w : Nat) : TeamEng :=
  { e.retire with faults := e.faults ++ [{ id := id, cause := cUncorrectable, addr := BitVec.ofNat 64 w }] }

/-- The first word that an MMA cannot correct: in A, in B where it is a tile, and in D unless it is SET. -/
def Team.mmaBad (t : Team) (acc : Nat) (a : Tile) (b : Option Tile) (d : Tile) : Option Nat :=
  ((t.tileBad a).or (b.bind t.tileBad)).or (if acc = 1 then none else t.tileBad d)

/-- Whether the engine stands where a save may find it: no MSEQ between two of its split points (R360). -/
def TeamEng.atSplit (e : TeamEng) : Bool :=
  match e.queue with
  | o :: _ => match o.kind with
    | .mseq blk _ _ _ _ k _ => k == 0 || k % blockWord blk 32 == 0
    | _ => true
  | [] => true

/-- Whether the engine may take the head of a team's queue, or its next step: not while the team is out, nor, once it is leaving, from a
split point on (R360). -/
def Team.engineOn (t : Team) : Bool :=
  !t.cores.isEmpty && (t.leaving.isNone || t.leaving == some .stopped || !t.eng.atSplit)

/-- The queue of a team from which the engine may take an operation. -/
def Team.ready (t : Team) : List EngOp := if t.engineOn then t.eng.queue else []

/-- How far a slot lies from the one at which an engine looks first. -/
def slotAfter (next slot : Nat) : Nat := (slot + 16 - next) % 16

/-- Whether an engine serves a team now: of the teams of its core with work, the first from the slot where it looks (R352). -/
def State.engineServes (s : State) (tm : Nat) : Bool :=
  match (s.team tm).place with
  | .resident core slot =>
    let next := (s.getCore core).engNext
    s.teams.all fun u => match u.place with
      | .resident c sl => c != core || u.ready.isEmpty || decide (slotAfter next slot ≤ slotAfter next sl)
      | _ => true
  | _ => true

/-- The engine looks next at the slot after the team's (R352). -/
def State.engineMoves (s : State) (tm : Nat) : State :=
  match (s.team tm).place with
  | .resident core slot => s.modCore core fun c => { c with engNext := (slot + 1) % 16 }
  | _ => s

/-- The operations of a team that its engine may go on with, and the state in which it has turned to the next team. -/
def State.engineHead (s : State) (tm : Nat) : State × List EngOp :=
  if s.engineServes tm then (s.engineMoves tm, (s.team tm).ready) else (s, [])

/-- What follows an operation that has left the queue: the watchdog sees a signal (10 R276), and pool requests that waited for it are tested
again (R135). -/
def State.engDone (s : State) (tm : Nat) : State := (s.signal (s.team tm).ctx).workLanded tm

/-- TLATCH performed; with a word it cannot correct, the copy is undefined (R362). -/
def execEvTlatchPerform (team : Nat) (s0 : State) : Out :=
  let (s, queue) := s0.engineHead team
  match queue with
  | o :: _ => match o.kind with
    | .tlatch t =>
      match (s.team team).tileBad t with
      | some w =>
        let (bs, s1) := s.freeBytes (tileBytes t.shape)
        .next ((s1.modEng team fun e => { e.retireBad o.id w with latch := some { shape := t.shape, data := memWrite [] 0 bs } }).engDone team)
      | none =>
      let (s1, bs) := s.tileRead team t false o.unseenMxs t.off (tileBytes t.shape)
      .next ((s1.modEng team fun e => { e.retire with latch := some { shape := t.shape, data := memWrite [] 0 bs } }).engDone team)
    | _ => .next s0
  | [] => .next s0

/-- MMA performed; with a word it cannot correct, D is undefined (R362). -/
def execEvMmaComplete (team : Nat) (s0 : State) : Out :=
  let (s, queue) := s0.engineHead team
  match queue with
  | o :: _ => match o.kind with
    | .mma seq acc (some a) b d => match (s.team team).mmaBad acc a b d with
      | some w => .next (((s.tilesLost team [d]).modEng team fun e => e.retireBad o.id w).engDone team)
      | none => .next (((s.mmaPerform team o.mcr seq acc a b d o.unseenMxs o.unseenMxs).modEng team TeamEng.retire).engDone team)
    | _ => .next s0
  | [] => .next s0

/-- The end of an MSEQ: its error, if any, its arrival, and its barrier's pin; or a fault kept for MWAIT (R155, R184). -/
def State.mseqEnd (s : State) (tm : Nat) (o : EngOp) (blk : List Byte) (off pa : Nat) (cause : Option (BitVec 8)) : State :=
  let t := s.team tm
  let bar := blockBarrier blk
  let s1 := (s.modEng tm TeamEng.retire).engDone tm
  if bar = 0 then match cause with
    | some c => s1.modEng tm fun e => { e with faults := e.faults ++ [{ id := o.id, cause := c, addr := BitVec.ofNat 64 off }] }
    | none => s1
  else
    let s2 := match cause with
      | some c => s1.barAgent tm t.ctx bar pa (.error 1 c.toNat)
      | none => s1
    (s2.barAgent tm t.ctx bar pa (.arrive (blockWord blk 36))).unpinBarrier t.ctx bar pa

/-- A TLD of a step: its tile's storage, its rows and their words checked, then loaded (R147, R155, R362). -/
def State.stepLoad (s : State) (tm : Nat) (x : Tile) (unseen : List (Nat × Nat)) (rows : List (Int × Nat)) : State × Option (BitVec 8) :=
  let t := s.team tm
  if !t.mxsIn x.off (tileBytes x.shape) then (s, some cTileStorage)
  else if (t.firstOutside rows).isSome then (s, some cScratch)
  else if (t.rowsBad rows).isSome then (s, some cUncorrectable)
  else (s.tileLoad tm x false unseen rows, none)

/-- What stops the MMA of a step: D outside storage, or a word that cannot be corrected (R362). -/
def Team.stepFault (t : Team) (acc : Nat) (a : Tile) (b : Option Tile) (d : Tile) : Option (BitVec 8) :=
  if !t.mxsIn d.off (tileBytes d.shape) then some cTileStorage else (t.mmaBad acc a b d).map fun _ => cUncorrectable

/-- One step of an MSEQ: TLD A, TLD B, MMA (R359), each checked as it comes; with a word it cannot correct the sequence ends, its tiles
undefined (R362). -/
def execEvMseqStep (team : Nat) (s0 : State) : Out :=
  let (s, queue) := s0.engineHead team
  match queue with
  | o :: r => match o.kind with
    | .mseq blk off a b d k pa =>
      let f (x : Nat) : Nat := blockWord blk x
      let rowsOf (x : Tile) (o : Nat) : List (Int × Nat) :=
        (List.range (shapeRows x.shape)).map fun (r : Nat) =>
          ((f o : Int) + k * sextInt 32 (f (o + 4)) + r * sextInt 32 (f (o + 8)), rowBytes x.shape)
      let fl := blockByte blk 7
      let acc := if k = 0 then fl / 4 % 4 else 0
      let (s1, ea) := s.stepLoad team a o.unseenScr (rowsOf a 8)
      let (s2, eb) := match ea, b with
        | none, some x => s1.stepLoad team x o.unseenScr (rowsOf x 20)
        | e, _ => (s1, e)
      match eb.or ((s2.team team).stepFault acc a b d) with
      | some c => .next ((if c = cUncorrectable then s2.tilesLost team (a :: b.toList ++ [d]) else s2).mseqEnd team o blk off pa (some c))
      | none =>
        let s3 := s2.mmaPerform team o.mcr (fl % 4 == 1) acc a b d [] (if k = 0 then o.unseenMxs else [])
        if k + 1 = f 0 then .next (s3.mseqEnd team o blk off pa none)
        else .next (s3.modEng team fun e => { e with queue := { o with kind := .mseq blk off a b d (k + 1) pa } :: r })
    | _ => .next s0
  | [] => .next s0

end Sys2Proof.Machine
end

