-- ==== Sys2Proof/Machine/Launch.lean ====
section
/-! DEFINITION. Major 0x3C: graph-edge queues, launch packets and their refusals (07 R220 to R223, 10 R258 to R263, 13 R308), and
the launch side of LREL and LPATCH. -/

namespace Sys2Proof.Machine

open Sys2Proof

/-! ## Queues (R220, R221, R262) -/

def State.queueOf (s : State) (ctx id : Nat) : Option EdgeQueue := s.queues.find? fun q => q.ctx == ctx && q.id == id

def State.setQueue (s : State) (q : EdgeQueue) : State :=
  { s with queues := s.queues.map fun x => if x.id == q.id then q else x }

/-- Teams that are out and wait at a queue return to their levels (R271). -/
def State.queueWake (s : State) (ctx id : Nat) : State :=
  s.requeue fun t th => t.ctx == ctx && th.wait == some (.queue id)

/-- A record appended to a queue that has room. -/
def State.queuePush (s : State) (q : EdgeQueue) (r : List Byte) : State :=
  (s.setQueue { q with records := q.records ++ [r] }).queueWake q.ctx q.id

def queueForm (srcs : List (Reg × Nat)) (d : Reg) : Form :=
  { Form.plain srcs (some (d, 1)) .same with foehn := false, roles := rolesMemory, txn := false }

/-- A queue instruction with a record at the scratch offset in b, per lane: the checks of R220, NO_QUEUE, and then `f`; `code` is
the status of one that may not wait. -/
def queueOp (d a b : Reg) (code : Word) (f : Iss → State → Nat → EdgeQueue → Nat → Option State) : State → Out :=
  issue (queueForm [(a, 1), (b, 1)] d) (eachLane fun i s l =>
    let flags := i.view.reg a l
    let off := (i.view.reg b l).toNat
    if off % 16 ≠ 0 then (s, .fault l cMisaligned off)
    else if !(s.team i.op.team).scrIn off 16 then (s, .fault l cScratch off)
    else if s.relocating i.op.team then (s, .only l .stay)
    else if code = 1 ∧ (s.team i.op.team).scrBad off 16 then (s, .fault l cUncorrectable off)
    else match s.queueOf i.team.ctx (flags.extractLsb' 0 10).toNat with
      | none => (s, .write l [3])
      | some q => match f i s l q off with
        | some s1 => (s1, .write l [0])
        | none => (s, if flags.getLsbD 16 then .only l (.wait (.queue q.id)) else .write l [code]))

/-- QPUSH: a release at DEV scope, then the record. -/
def execQpush (d a b : Reg) (s : State) : Out :=
  queueOp d a b 1 (fun i s l q off =>
    if q.records.length ≥ q.depth then none
    else
      let (s1, r) := (s.relDev i.op.team i.op.grp l).scrRead i.op.team off 16
      some (s1.queuePush q r)) s

/-- QPOP: the oldest record, and an acquire. -/
def execQpop (d a b : Reg) (s : State) : Out :=
  queueOp d a b 2 (fun i s l q off =>
    match q.records with
    | [] => none
    | r :: rest =>
      some (((((s.setQueue { q with records := rest }).queueWake q.ctx q.id).acquireDev i.op.team i.op.grp).scrWrite
        i.op.team off r false).noteWrite i.op.team i.op.grp l true off 16)) s

/-- QFREE. -/
def execQfree (d a : Reg) (s : State) : Out :=
  issue (queueForm [(a, 1)] d) (fun i s =>
    (s, i.lanes.map fun l => .write l [match s.queueOf i.team.ctx ((i.view.reg a l).extractLsb' 0 10).toNat with
      | some q => BitVec.ofNat 32 (q.depth * 65536 + (q.depth - q.records.length))
      | none => 0])) s

/-! ## The launch packet (R258 to R260) -/

/-- A number of `n` bytes at offset `o` of a packet. -/
def fieldOf (b : List Byte) (o n : Nat) : Nat := natOf ((b.drop o).take n)

/-- The limits of the launch part, bytes +0 to +35. -/
def packetHeadOk (p : List Byte) : Bool :=
  let f := fieldOf p
  let dim (v : Nat) : Bool := decide (1 ≤ v) && decide (v ≤ 2 ^ 20)
  let queue (v : Nat) : Bool := decide (v < 1024) || v == 0xffff
  f 0 8 % 4 == 0 && dim (f 8 4) && dim (f 12 4) && dim (f 16 4) && decide (f 8 4 * f 12 4 * f 16 4 ≤ 2 ^ 20) &&
    decide (f 20 1 < 4) && f 21 3 == 0 && queue (f 28 2) && queue (f 30 2) && f 32 2 % 4 == 0 &&
    decide (f 32 2 ≤ if f 28 2 = 0xffff then 256 else 240) && f 34 2 == 0

/-- The limits of the kernel part, bytes +36 to +63. -/
def packetKernelOk (p : List Byte) : Bool :=
  let f := fieldOf p
  [16, 32, 64].contains (f 36 1) && decide (1 ≤ f 37 1) && decide (f 37 1 ≤ 64) && decide (96 ≤ f 38 2) && decide (f 38 2 ≤ 256) &&
    f 38 2 % 8 == 0 && decide (f 40 1 ≤ 40) && decide (f 41 1 ≤ 32) && decide (f 42 1 < 4) && decide (f 43 1 < 8) &&
    (List.range 8).all fun k => let r := f 44 4 / 16 ^ k % 16
      r == 0 || (decide (2 ≤ r) && decide (r ≤ 8))

/-- The role of a code of R258. -/
def roleOfCode (n : Nat) : Role :=
  match n with
  | 1 => .copy
  | 2 => .matrix
  | 3 => .vector
  | _ => .general

/-- The role field of group `g`, its two bits. -/
def packetRole (p : List Byte) (g : Nat) : Nat := fieldOf p 48 16 / 4 ^ g % 4

/-- The rings a packet declares: id and depth. -/
def packetRings (p : List Byte) : List (Nat × Nat) :=
  (List.range 8).filterMap fun k => let r := fieldOf p 44 4 / 16 ^ k % 16
    if r = 0 then none else some (k, r)

/-- Whether a request never fits (R308). -/
def neverFits (scr mxs groups nregs : Nat) (pair : Bool) : Bool :=
  let g := if pair then (groups + 1) / 2 else groups
  decide (scr + mxs + storeBanks (g * nregs) + 2 > 48)

/-- What two parts of one read have come to: it waits for both, and needs both. -/
def LinkState.join : LinkState → LinkState → LinkState
  | .pending, _ => .pending
  | _, .pending => .pending
  | .refused, _ => .refused
  | _, .refused => .refused
  | .answered a, .answered b => .answered (a ++ b)

/-- A piece of a line of a context as the launch unit reads it: from the device's memory, once its channel takes the read (22 R456), or over the
link on a host or peer page (17 R388), where the answer stays until its owner takes it. -/
def State.unitLine (s : State) (ctx : Nat) (owner : LinkOwner) (va n : Nat) : State × LinkState :=
  if !canonicalVa va || inAperture va then (s, .refused)
  else if s.unitWaits ctx false va n then (s, .pending)
  else
    let (s1, t) := s.translate ctx va
    match t with
    | .ok e =>
      if paClass (e.pa va) == .dram then
        let (s2, d) := s1.homeRead (s1.asidOf ctx) va (e.pa va) n true
        (s2, match d with
          | .bad _ => .refused
          | .ok b => .answered b)
      else match s1.links.find? fun y => y.owner == owner with
        | none => (s1.linkPost ctx owner 0 (e.pa va) n [], .pending)
        | some y => (s1, match y.answer with
          | none => .pending
          | some (bad, d) => if bad then .refused else .answered d)
    | _ => (s1, .refused)

/-- Pieces read so, each with its own outcome. -/
def State.unitLines (s : State) (ctx : Nat) (owner : Nat → LinkOwner) : List (Nat × Nat) → State × List LinkState
  | [] => (s, [])
  | (va, n) :: r =>
    let (s1, x) := s.unitLine ctx (owner va) va n
    let (s2, xs) := s1.unitLines ctx owner r
    (s2, x :: xs)

/-- The pieces of a kernel record, all of them needed. -/
def State.recordPieces (s : State) (ctx : Nat) (who : Option (Nat × Nat × Nat)) (ps : List (Nat × Nat)) : State × LinkState :=
  let (s1, xs) := s.unitLines ctx (.packet who) ps
  (s1, xs.foldr LinkState.join (.answered []))

/-- The kernel record at entry - 64, its requests gone once the launch unit has it. -/
def State.kernelRecord (s : State) (ctx : Nat) (who : Option (Nat × Nat × Nat)) (entry : Nat) : State × LinkState :=
  let (s1, x) := s.recordPieces ctx who (piecesOf ((entry + 2 ^ 64 - 64) % 2 ^ 64) 64)
  let mine (r : LinkReq) : Bool := match r.owner with
    | .packet w _ => w == who
    | _ => false
  (if x = .pending then s1 else { s1 with links := s1.links.filter fun r => !mine r }, x)

/-- The kernel part of a packet: its own, or the record at entry - 64. The outcome is a refusal code, or the whole packet; none while the record has
not come. -/
def State.packetOf (s : State) (ctx : Nat) (who : Option (Nat × Nat × Nat)) (p : List Byte) : State × Option (Except Nat (List Byte)) :=
  let record := fieldOf p 20 1 / 2 % 2 == 1
  if !packetHeadOk p || !(if record then blockZero p 36 28 else packetKernelOk p) then (s, some (.error 1))
  else if !record then (s, some (.ok p))
  else
    let (s1, r) := s.kernelRecord ctx who (fieldOf p 0 8)
    (s1, match r with
      | .pending => none
      | .refused => some (.error 2)
      | .answered b => some (if blockZero b 0 36 && packetKernelOk b then .ok (p.take 36 ++ b.drop 36) else .error 2))

/-- The refusals of R260 that follow KERNEL_RECORD, in its order; 0 accepts. -/
def State.packetRefusal (s : State) (ctx : Nat) (p : List Byte) : Nat :=
  let f := fieldOf p
  let groups := f 37 1
  let pair := f 42 1 % 2 == 1
  let missing (o : Nat) : Bool := f o 2 != 0xffff && (s.queueOf ctx (f o 2)).isNone
  if f 40 1 = 0 ∧ (f 32 2 ≠ 0 ∨ f 28 2 ≠ 0xffff) then 1
  else if groups * f 36 1 > 2048 && !pair then 3
  else if (List.range 64).any fun g => decide (g ≥ groups) && packetRole p g != 0 then 4
  else if f 44 4 ≠ 0 ∧ f 40 1 = 0 then 5
  else if neverFits (f 40 1) (f 41 1) groups (f 38 2) pair then 6
  else if missing 28 || missing 30 then 7
  else if s.launches.length ≥ 4096 then 8
  else 0

/-- The launch that a whole packet with its arguments stands for. -/
def packetLaunch (handle ctx order : Nat) (p args : List Byte) (viaHol : Bool) : Launch :=
  let f := fieldOf p
  { handle := handle, ctx := ctx, order := order, entry := BitVec.ofNat 64 (f 0 8), x := f 8 4, y := f 12 4, z := f 16 4,
    held := f 20 1 % 2 == 1, seed := BitVec.ofNat 32 (f 24 4), inq := f 28 2, outq := f 30 2, args := args, gw := f 36 1,
    groups := f 37 1, nregs := f 38 2, scr := f 40 1, mxs := f 41 1, pair := f 42 1 % 2 == 1, fusel1 := f 42 1 / 2 % 2 == 1,
    prio := f 43 1, rings := packetRings p, roles := (List.range (f 37 1)).map fun g => roleOfCode (packetRole p g),
    viaHol := viaHol, input := none, placed := 0, ended := 0, poolRecord := false,
    finished := 0 }

/-- The next handle, from 1 to 0x7fffffff, that no live launch of the device has. -/
def freeHandle (ls : List Launch) : Nat → Nat → Nat
  | 0, h => h
  | fuel + 1, h =>
    let n := if h ≥ 0x7fffffff ∨ h = 0 then 1 else h
    if ls.any (fun l => l.handle == n) then freeHandle ls fuel (n + 1) else n

/-- A packet submitted to the launch unit by a lane, or over HOL: the code of R260 and the handle (0 when refused); none while its record has not
come. -/
def State.submit (s : State) (ctx : Nat) (who : Option (Nat × Nat × Nat)) (p args : List Byte) : State × Option (Nat × Nat) :=
  let (s1, r) := s.packetOf ctx who p
  match r with
  | none => (s1, none)
  | some (.error c) => (s1, some (c, 0))
  | some (.ok whole) => match s1.packetRefusal ctx whole with
    | 0 =>
      let h := freeHandle s1.launches (s1.launches.length + 1) s1.nextHandle
      ({ s1 with launches := s1.launches ++ [packetLaunch h ctx s1.launchOrder whole args who.isNone], nextHandle := h + 1,
                 launchOrder := s1.launchOrder + 1 }, some (0, h))
    | c => (s1, some (c, 0))

/-- Whether a launch that waits is that of a lane. -/
def HeldPacket.ofLane (tm g l : Nat) (m : HeldPacket) : Bool := m.who == some (tm, g, l)

/-- The next step of a lane's LAUNCH whose packet waits: it is submitted once it stands first. -/
def State.launchAgain (s : State) (m : HeldPacket) (l : Nat) : State × LaneOut :=
  if (s.plat.inbox.head?).any fun x => x.who == m.who then
    let (s1, r) := s.submit m.ctx m.who m.packet m.args
    match r with
    | none => (s1, .only l .stay)
    | some (_, h) => ({ s1 with plat := { s1.plat with inbox := s1.plat.inbox.tail } }, .write l [BitVec.ofNat 32 h])
  else (s, .only l .stay)

/-- A packet of a lane reaches the launch unit: it is submitted at once, unless launches wait there or its kernel record has to come; then it waits
behind them, in the order of arrival (R259, R261). -/
def State.launchNew (s : State) (m : HeldPacket) (l : Nat) : State × LaneOut :=
  let wait (t : State) : State × LaneOut := ({ t with plat := { t.plat with inbox := t.plat.inbox ++ [m] } }, .only l .stay)
  if !s.plat.inbox.isEmpty then wait s
  else
    let (s1, r) := s.submit m.ctx m.who m.packet m.args
    match r with
    | none => wait s1
    | some (_, h) => (s1, .write l [BitVec.ofNat 32 h])

/-- LAUNCH (R222), per lane: a release at DEV scope, the packet and its arguments from scratch. -/
def execLaunch (d a : Reg) (s : State) : Out :=
  issue (queueForm [(a, 1)] d) (eachLane fun i s l =>
    let tm := i.op.team
    let off := (i.view.reg a l).toNat
    let t := s.team tm
    match s.plat.inbox.find? (HeldPacket.ofLane tm i.op.grp l) with
    | some m => s.launchAgain m l
    | none =>
    if off % 64 ≠ 0 then (s, .fault l cMisaligned off)
    else if !t.scrIn off 64 then (s, .fault l cScratch off)
    else if s.relocating tm then (s, .only l .stay)
    else if t.scrBad off 64 then (s, .fault l cUncorrectable off)
    else
      let (s1, p) := s.scrRead tm off 64
      let n := fieldOf p 32 2
      if n ≤ 256 && !t.scrIn (off + 64) n then (s1, .fault l cScratch (off + 64))
      else if n ≤ 256 && t.scrBad (off + 64) n then (s1, .fault l cUncorrectable (off + 64))
      else
        let (s2, args) := s1.scrRead tm (off + 64) (if n ≤ 256 then n else 0)
        (s2.relDev tm i.op.grp l).launchNew { ctx := t.ctx, who := some (tm, i.op.grp, l), packet := p, args := args } l) s

/-! ## Held launches (R223, R263) -/

def State.modLaunch (s : State) (ctx h : Nat) (f : Launch → Launch) : State :=
  { s with launches := s.launches.map fun l => if l.ctx == ctx && l.handle == h then f l else l }

/-- LREL of a launch: the status. -/
def State.launchRelease (s : State) (ctx h : Nat) : State × Nat :=
  match s.launches.find? fun l => l.ctx == ctx && l.handle == h with
  | none => (s, 2)
  | some l => if l.held then (s.modLaunch ctx h fun l => { l with held := false, finished := s.tick }, 0) else (s, 1)

/-- LPATCH of a launch: the status. -/
def State.launchPatch (s : State) (ctx h v : Nat) : State × Nat :=
  match s.launches.find? fun l => l.ctx == ctx && l.handle == h with
  | none => (s, 2)
  | some l =>
    if !l.held then (s, 1)
    else if v > 2 ^ 20 / (l.y * l.z) then (s, 3)
    else (s.modLaunch ctx h fun l => { l with x := v }, 0)

end Sys2Proof.Machine
end

