-- ==== Sys2Proof/Machine/Engine.lean ====
section
/-! DEFINITION. Major 0x3A: the command engine (07 R205 to R211), its copies, binnings and migrations (18 R404 to R406), and LREL and
LPATCH (R223), which BIN uses too. -/

namespace Sys2Proof.Machine

open Sys2Proof

/-! ## Command blocks (R208 to R210) -/

/-- The fields that every block has: arrivals, barrier address, the zeros behind them. -/
def blockTailOk (b : List Byte) : Bool :=
  decide (blockWord b 36 ≤ 65535) && blockBarrier b % 16 == 0 && blockZero b 48 16

def cpyBlockOk (b : List Byte) : Bool :=
  decide (blockWord b 16 ≤ 65535) && decide (1 ≤ blockWord b 20) && decide (blockWord b 20 ≤ 16777215) &&
    decide (blockByte b 32 < 8) && blockZero b 33 3 && blockTailOk b

def binBlockOk (b : List Byte) : Bool :=
  fieldOf b 0 8 % 4 == 0 && decide (blockWord b 8 ≤ 16777215) && decide (1 ≤ blockWord b 12) && decide (blockWord b 12 ≤ 4096) &&
    fieldOf b 16 8 % 4 == 0 && (blockWord b 24 == 0xffffffff || blockWord b 24 % 4 == 0) && decide (blockByte b 28 < 2) &&
    blockZero b 29 7 && blockTailOk b

def migBlockOk (b : List Byte) : Bool :=
  fieldOf b 0 8 % 65536 == 0 && decide (1 ≤ blockWord b 8) && decide (blockWord b 8 ≤ 65535) && decide (blockByte b 12 ≤ 3) &&
    decide (blockByte b 13 ≤ 15) && decide (fieldOf b 14 2 ≤ 1023) && fieldOf b 16 8 % 65536 == 0 && blockZero b 24 12 &&
    blockTailOk b

def engineBlockOk (kind : Nat) (b : List Byte) : Bool :=
  match kind with
  | 0 => cpyBlockOk b
  | 1 => binBlockOk b
  | _ => migBlockOk b

/-- Whether a command waits for LREL: the HOLD flag of a copy. -/
def heldBlock (kind : Nat) (b : List Byte) : Bool := kind == 0 && blockByte b 32 % 2 == 1

/-- The source and the destination of a copy lie in scratch. -/
def Cmd.srcScr (c : Cmd) : Bool := blockByte c.block 32 / 2 % 2 == 1
def Cmd.dstScr (c : Cmd) : Bool := blockByte c.block 32 / 4 % 2 == 1

/-- Where row `r` of a copy begins, at its source and at its destination. Strides add without sign, addresses modulo 2^64 and
scratch offsets without (DEDUCED log 17). -/
def Cmd.srcRow (c : Cmd) (r : Nat) : Nat :=
  let o := r * blockWord c.block 24
  if c.srcScr then blockWord c.block 0 + o else (fieldOf c.block 0 8 + o) % 2 ^ 64

def Cmd.dstRow (c : Cmd) (r : Nat) : Nat :=
  let o := r * blockWord c.block 28
  if c.dstScr then blockWord c.block 8 + o else (fieldOf c.block 8 8 + o) % 2 ^ 64

/-- The global ranges a command names: start, bytes, whether it writes them. -/
def Cmd.ranges (c : Cmd) : List (Nat × Nat × Bool) :=
  match c.kind with
  | 0 =>
    let n := blockWord c.block 20
    (List.range (blockWord c.block 16)).flatMap fun r =>
      (if c.srcScr then [] else [(c.srcRow r, n, false)]) ++ if c.dstScr then [] else [(c.dstRow r, n, true)]
  | 1 => [(fieldOf c.block 0 8, 4 * blockWord c.block 8, false), (fieldOf c.block 16 8, 4 * blockWord c.block 12, true)]
  | _ => (List.range (blockWord c.block 8)).map fun k => ((fieldOf c.block 0 8 + 65536 * k) % 2 ^ 64, 1, false)

/-! ## Translation and pins at submission (R206, R404) -/

/-- What a submission's translation has come to. -/
inductive Admit where
  | ok
  | ends (e : LaneEnd)
  deriving DecidableEq, Repr

/-- What a command needs of a page it names: to read it or to write it; a migration, neither. -/
def Cmd.need (c : Cmd) (write : Bool) : Need :=
  let data := decide (c.kind < 2)
  { r := data && !write, w := data && write, x := false, win := data && write, via := .named }

/-- One page of a command translated and checked; its translation and its pin are noted in the command (R404). A migration does not pin the pages
it is to move, whose counts must be 0 (R210, DEDUCED log 18). -/
def State.pinPage (s : State) (c : Cmd) (va : Nat) (write : Bool) : State × Cmd × Admit :=
  let addr := BitVec.ofNat 64 va
  if inAperture va then (s, c, .ends (.fault cProtection 0 addr))
  else
    let (s1, k) := s.pageCheck c.core c.ctx c.team va (c.need write) attrPlain
    match k with
    | .stay => (s1, c, .ends .pend)
    | .park => (s1, c, .ends (.park addr))
    | .fault x => (s1, c, .ends (.fault x 0 addr))
    | .ok attr pa =>
      let frame := pa / 65536 * 65536
      let kept : KeptPage := { page := va / 65536, frame := frame, attr := attr, pin := s1.pagePin (s1.asidOf c.ctx) va }
      let c1 := { c with tlb := if c.tlb.any (fun e => e.page == kept.page) then c.tlb else kept :: c.tlb }
      if c.kind ≥ 2 || c.pins.contains frame then (s1, c1, .ok)
      else
        let (s2, p) := s1.pin c.ctx va pa
        match p with
        | .done => (s2, { c1 with pins := frame :: c.pins }, .ok)
        | .wait => (s2, c, .ends .pend)
        | .fault x => (s2, c, .ends (.fault x 0 addr))

/-- Pages in order, until one does not answer. -/
def State.pinPages (s : State) (c : Cmd) : List (Nat × Bool) → State × Cmd × Admit
  | [] => (s, c, .ok)
  | (va, w) :: r =>
    let (s1, c1, p) := s.pinPage c va w
    match p with
    | .ok => s1.pinPages c1 r
    | e => (s1, c1, e)

/-- Every global range of a command translated and pinned; on any other outcome the pins are taken back. -/
def State.pinCommand (s : State) (c : Cmd) : State × Cmd × Admit :=
  let (s1, c1, p) := s.pinPages c (c.ranges.flatMap fun r => (pagesOf r.1 r.2.1).map fun va => (va, r.2.2))
  match p with
  | .ok => (s1, c1, .ok)
  | e => (s1.unpinAll c.ctx c1.pins, c, e)

/-! ## Commands (R207) -/

def State.cmdOf (s : State) (tm id : Nat) : Option Cmd := s.cmds.find? fun c => c.team == tm && c.id == id

def State.modCmd (s : State) (tm id : Nat) (f : Cmd → Cmd) : State :=
  { s with cmds := s.cmds.map fun c => if c.team == tm && c.id == id then f c else c }

/-- A command at its end: pins released, the error recorded, the arrival made, the barrier's pin released (R207, R183), and what waits for
it looks again: EWAITs of a team that is out (10 R271) and pool requests (R135). -/
def State.endCmd (s : State) (c : Cmd) (cause : Option (BitVec 8)) : State :=
  let bar := barrierOf (blockBarrier c.block)
  let s1 := (s.modCmd c.team c.id fun x => { x with state := .done, cause := cause.getD 0, pins := [], tlb := [] }).unpinAll c.ctx c.pins
  let s2 := match cause with
    | some k => s1.barAgent c.team c.ctx bar c.barPa (.error 1 k.toNat)
    | none => s1
  let s3 := (s2.barAgent c.team c.ctx bar c.barPa (.arrive (blockWord c.block 36))).unpinBarrier c.ctx bar c.barPa
  let mine (t : Team) : Bool := t.handle == (s.team c.team).handle && t.index == (s.team c.team).index
  (s3.requeue fun t th => mine t && match th.wait with
    | some (.ewait _) => true
    | _ => false).workLanded c.team

/-- A fault in a command at work: it ends with it once the writes it has made over links are acknowledged (17 R374). -/
def State.failCmd (s : State) (c : Cmd) (x : BitVec 8) : State := s.modCmd c.team c.id fun k => { k with cause := x, started := true }

/-- How the end of a lane is recorded in a barrier by a held command's release: PAGE_NOT_PRESENT or the fault (R207). -/
def LaneEnd.cause : LaneEnd → Option (BitVec 8)
  | .park _ => some cNotPresent
  | .fault c _ _ => some c
  | _ => none

/-- LREL of an engine command of a team: the status, or none when its pins have to wait. -/
def State.cmdRelease (s : State) (tm id : Nat) : State × Option Nat :=
  match s.cmdOf tm id with
  | none => (s, some 2)
  | some c =>
    if c.state != .held then (s, some 1)
    else
      let (s1, c1, p) := s.pinCommand c
      match p with
      | .ok => (s1.modCmd tm id fun _ => { c1 with state := .queued }, some 0)
      | .ends e => match e.cause with
        | some k => (s1.endCmd c (some k), some 0)
        | none => (s1, none)

/-- LPATCH of an engine command of a team: the status; NOT_HELD is tested before OUT_OF_RANGE (R223, DESIGN CHOICE log 60). -/
def State.cmdPatch (s : State) (tm id v : Nat) : State × Nat :=
  match s.cmdOf tm id with
  | none => (s, 2)
  | some c =>
    if c.kind ≠ 0 then (s, 3)
    else if c.state != .held then (s, 1)
    else if v > 65535 then (s, 3)
    else (s.modCmd tm id fun x => { x with block := x.block.take 16 ++ bytesOf 4 v ++ x.block.drop 20 }, 0)

/-- LREL of a handle; none waits. -/
def State.handleRelease (s : State) (tm h : Nat) : State × Option Nat :=
  if h ≥ 2 ^ 31 then s.cmdRelease tm (h - 2 ^ 31)
  else
    let (s1, c) := s.launchRelease (s.team tm).ctx h
    (s1, some c)

/-- LPATCH of a handle. -/
def State.handlePatch (s : State) (tm h v : Nat) : State × Nat :=
  if h ≥ 2 ^ 31 then s.cmdPatch tm (h - 2 ^ 31) v else s.launchPatch (s.team tm).ctx h v

/-- LREL (R221, R223). -/
def execLrel (d a : Reg) (s : State) : Out :=
  issue (queueForm [(a, 1)] d) (eachLane fun i s l =>
    let (s1, c) := s.handleRelease i.op.team (i.view.reg a l).toNat
    (s1, match c with
      | some k => .write l [BitVec.ofNat 32 k]
      | none => .only l .stay)) s

/-- LPATCH (R221, R223). -/
def execLpatch (d a b : Reg) (s : State) : Out :=
  issue (queueForm [(a, 1), (b, 1)] d) (eachLane fun i s l =>
    let (s1, c) := s.handlePatch i.op.team (i.view.reg a l).toNat (i.view.reg b l).toNat
    (s1, .write l [BitVec.ofNat 32 c])) s

/-! ## ENG (R205, R206) -/

/-- The next command id. -/
def nextCmd (n : Nat) : Nat := if n ≥ 0x7fffffff then 1 else n + 1

/-- A command queued, or held, with its handle. Once the counter has wrapped its id is that of a command completed long ago, which goes
(R207). -/
def State.queueCmd (s : State) (tm : Nat) (c : Cmd) : State × Nat :=
  let old (x : Cmd) : Bool := x.team == tm && x.id == c.id && x.state == .done
  ({ s.modTeam tm fun t => { t with cmdCounter := nextCmd t.cmdCounter } with cmds := (s.cmds.filter fun x => !old x) ++ [c] },
   if c.state == .held then c.id + 2 ^ 31 else c.id)

/-- One lane's command: the checks of R206 in order, the release, translation and pins, the barrier, the queue. -/
def engineLane (kind : Nat) (a : Reg) (i : Iss) (s : State) (l : Nat) : State × LaneOut :=
  let tm := i.op.team
  let off := (i.view.reg a l).toNat
  let t := s.team tm
  if off % 64 ≠ 0 then (s, .fault l cMisaligned off)
  else if s.relocating tm then (s, .only l .pend)
  else if !t.scrIn off 64 then (s, .fault l cScratch off)
  else if t.scrBad off 64 then (s, .fault l cUncorrectable off)
  else
    let (s1, blk) := s.scrRead tm off 64
    if !engineBlockOk kind blk then (s1, .fault l cEngine off)
    else
      let bar := barrierOf (blockBarrier blk)
      let c : Cmd := { team := tm, ctx := t.ctx, kind := kind, id := t.cmdCounter, block := blk, blockOff := off,
                       state := if heldBlock kind blk then .held else .queued, cause := 0, pins := [], barPa := 0, tlb := [],
                       pages := 0, started := false, acc := [], core := t.coreOf i.op.grp, born := s.tick }
      let (s2, c1, p) := if c.state == .held then (s1.relDev tm i.op.grp l, c, .ok) else (s1.relDev tm i.op.grp l).pinCommand c
      match p with
      | .ends e => (s2, .only l e)
      | .ok =>
        let (s3, pa) := if bar = noBarrier then (s2, .ok 0) else s2.checkBarrier i bar
        match pa with
        | .error e => (s3.unpinAll t.ctx c1.pins, .only l e)
        | .ok pa =>
          let (s4, h) := s3.queueCmd tm { c1 with barPa := pa }
          (s4, .write l [BitVec.ofNat 32 h])

def engineForm (priv : Bool) (srcs : List (Reg × Nat)) (dst : Option (Reg × Nat)) : Form :=
  { Form.plain srcs dst .same with foehn := false, priv := priv, roles := rolesCopy, txn := false }

/-- ENG.CPY. -/
def execEngCpy (d a : Reg) (s : State) : Out := issue (engineForm false [(a, 1)] (some (d, 1))) (eachLane (engineLane 0 a)) s

/-- ENG.BIN. -/
def execEngBin (d a : Reg) (s : State) : Out := issue (engineForm false [(a, 1)] (some (d, 1))) (eachLane (engineLane 1 a)) s

/-- ENG.MIG: SYSTEM only. -/
def execEngMig (d a : Reg) (s : State) : Out := issue (engineForm true [(a, 1)] (some (d, 1))) (eachLane (engineLane 2 a)) s

/-- How far a command id lies behind the counter of its team. -/
def behind (counter id : Nat) : Nat := (counter + 0x7fffffff - id) % 0x7fffffff

/-- Whether EWAIT has to wait (R207): on the command itself, unless `all`, and on every one that is not held from it back. Id 0 is never issued. -/
def State.ewaitDue (s : State) (tm id : Nat) (all : Bool) : Bool :=
  let n := (s.team tm).cmdCounter
  let k := behind n id
  if id = 0 ∨ k = 0 ∨ k > 2 ^ 30 then false
  else s.cmds.any fun c => c.team == tm && ((c.state == .queued && decide (behind n c.id ≥ k)) || (!all && c.state == .held && c.id == id))

/-- EWAIT. The wait for every command keeps the last id issued when it began, with bit 31 set. -/
def execEwait (b : Reg) (s : State) : Out :=
  issue (engineForm false [(b, 1)] none) (fun i s =>
    (s, i.lanes.map fun l =>
      let t := i.team
      let last := if t.cmdCounter = 1 then 0x7fffffff else t.cmdCounter - 1
      let key := match (i.thread l).wait with
        | some (.ewait k) => k
        | _ => if b = 127 then 2 ^ 31 + last else (i.view.reg b l).toNat % 2 ^ 31
      .only l (if s.ewaitDue i.op.team (key % 2 ^ 31) (key ≥ 2 ^ 31) then .wait (.ewait key) else .next))) s

/-- ESTAT. -/
def execEstat (d a : Reg) (s : State) : Out :=
  issue (engineForm false [(a, 1)] (some (d, 1))) (fun i s =>
    (s, i.lanes.map fun l => .write l [match s.cmdOf i.op.team ((i.view.reg a l).toNat % 2 ^ 31) with
      | some c => BitVec.ofNat 32 (match c.state with
        | .done => c.cause.toNat * 256
        | .queued => 1
        | .held => 2)
      | none => 0])) s

/-! ## The engine's accesses (R404, R383) -/

/-- The frame address and attribute that a command translated for `va`. -/
def Cmd.frame (c : Cmd) (va : Nat) : Nat × BitVec 2 :=
  match c.tlb.find? fun e => e.page == va / 65536 with
  | some e => (e.frame + va % 65536, e.attr)
  | none => (va, 0)

/-- What an access of the engine has come to. -/
inductive EngGot where
  | data (b : List Byte)
  | wait
  | bad (cause : BitVec 8)
  deriving DecidableEq, Repr

/-- The L1 in which an access of a command to an IP page is performed: that of its team, while the team is on its core and holds the token, where
it holds the line under no other frame than the command's (R382, R404). Else the access is performed at home (R201, DESIGN CHOICE log 76). -/
def State.engL1 (s : State) (c : Cmd) (va pa : Nat) (attr : BitVec 2) : Option Nat :=
  let t := s.team c.team
  let asid := s.asidOf c.ctx
  match t.place with
  | .resident _ _ =>
    let k := ipCore t (t.coreOf 0) va
    if attr == attrIP && s.holds c.team asid va &&
        ((s.getCore k).l1.find? fun w => w.asid == asid && w.va / 64 == va / 64).all (fun w => w.pa / 64 == pa / 64) then some k else none
  | _ => none

/-- A piece of one line read in this device's DRAM as a .d load. -/
def State.engRead (s : State) (c : Cmd) (va pa n : Nat) (attr : BitVec 2) : State × Data :=
  let t := s.team c.team
  let asid := s.asidOf c.ctx
  let (s1, d) := match s.engL1 c va pa attr with
    | some k => s.l1Read k asid va pa n true
    | none => (s.l1Bypass (l1Core t c.core va) asid va n).homeRead asid va pa n true
  match d with
  | .ok b =>
    let (s2, b2) := s1.outRead pa b
    (s2, .ok b2)
  | .bad x => (s1, .bad x)

/-- A piece of one line written in this device's DRAM as .d stores; on a WO page it is released at once. The cause where it would merge into a
line that cannot be corrected, and is not performed (07 R184, 22 R459). -/
def State.engWrite (s : State) (c : Cmd) (va pa : Nat) (attr : BitVec 2) (b : List Byte) : State × Option (BitVec 8) :=
  let t := s.team c.team
  let asid := s.asidOf c.ctx
  let (s1, es) := match s.engL1 c va pa attr with
    | some k => s.l1Try k asid va pa true b
    | none => (s.l1Bypass (l1Core t c.core va) asid va b.length).homeTry asid va pa b true
  (s1, es.head?.map (·.2))

/-- The link requests of a command of one kind. -/
def State.cmdLinks (s : State) (c : Cmd) (kind : Nat) : List LinkReq :=
  s.links.filter fun r => r.owner == .cmd c.team c.id && r.kind == kind

def State.dropCmdLinks (s : State) (c : Cmd) (kind : Nat) : State :=
  { s with links := s.links.filter fun r => !(r.owner == .cmd c.team c.id && r.kind == kind) }

/-- Whether a piece of a line would have to reach memory at a channel that does not take it now (22 R456): a read of words that no cache holds,
or a write of part of such a word. -/
def State.engWaits (s : State) (c : Cmd) (va n : Nat) (write : Bool) : Bool :=
  let (pa, attr) := c.frame va
  let asid := s.asidOf c.ctx
  let held (a : Nat) : Bool := (s.engL1 c va pa attr).any (fun k => (s.l1Find k asid a).isSome) || (s.l2At asid a (pa / 64 * 64 + a % 64)).isSome
  paClass pa == .dram && (wordsIn va n).any (fun x => !(write && x.2.2 == 4) && !held x.1) && s.channelBusy false pa

/-- One piece of a line read where its page lies: at home, or over the link once its answer is there. -/
def State.engPiece (s : State) (c : Cmd) (va n : Nat) : State × EngGot :=
  let (pa, attr) := c.frame va
  if s.engWaits c va n false then (s, .wait)
  else if paClass pa == .dram then
    let (s1, d) := s.engRead c va pa n attr
    (s1, match d with
      | .ok b => .data b
      | .bad k => .bad k)
  else match (s.cmdLinks c 0).find? fun r => r.pa + r.skip == pa && r.len == n with
    | none => (s.linkPost c.ctx (.cmd c.team c.id) 0 pa n [], .wait)
    | some r => match r.answer with
      | none => (s, .wait)
      | some (bad, d) => (s, if bad then .bad cProtection else .data d)

/-- All pieces of a range, in order: every one is asked for before the answer is whole. -/
def State.engPieces (s : State) (c : Cmd) : List (Nat × Nat) → State × EngGot
  | [] => (s, .data [])
  | (va, n) :: r =>
    let (s1, g) := s.engPiece c va n
    match g with
    | .bad k => (s1, .bad k)
    | _ =>
      let (s2, g2) := s1.engPieces c r
      (s2, match g, g2 with
        | .data b, .data b2 => .data (b ++ b2)
        | _, .bad k => .bad k
        | _, _ => .wait)

/-- A global range read line by line (18 R395); the requests it made go once it is whole. -/
def State.engFetch (s : State) (c : Cmd) (va n : Nat) : State × EngGot :=
  let (s1, g) := s.engPieces c (piecesOf va n)
  match g with
  | .wait => (s1, .wait)
  | _ => (s1.dropCmdLinks c 0, g)

/-- The pieces of a global range written, at home or over the link; the first cause of one that is not performed. -/
def State.engStore (s : State) (c : Cmd) : List (Nat × Nat) → List Byte → State × Option (BitVec 8)
  | [], _ => (s, none)
  | (va, n) :: r, b =>
    let (pa, attr) := c.frame va
    let (s1, e) := if paClass pa == .dram then s.engWrite c va pa attr (b.take n)
      else (s.linkPost c.ctx (.cmd c.team c.id) 1 pa n (b.take n), none)
    let (s2, e2) := s1.engStore c r (b.drop n)
    (s2, e.or e2)

/-- The writes over links that a command still waits for: none, some, or one refused (R426). -/
def State.engAcks (s : State) (c : Cmd) : EngGot :=
  let ws := s.cmdLinks c 1
  if ws.any fun r => r.done.isNone then .wait
  else if ws.any fun r => (r.done.map (·.1)).getD false then .bad cProtection
  else .data []

/-! ## CPY (R208) -/

/-- Whether a byte lies in the source rows, or in the destination rows, of a copy whose rows share one space. -/
def Cmd.inRows (c : Cmd) (start : Nat → Nat) (a : Nat) : Bool :=
  (List.range (blockWord c.block 16)).any fun r => decide (start r ≤ a) && decide (a < start r + blockWord c.block 20)

/-- The bytes of a piece from `src` to `dst`: undefined where source and destination overlap (R208), and where the byte comes from that overlap
(DEDUCED log 54). -/
def copyOverlap (c : Cmd) (src dst : Nat) : State → Nat → List Byte → State × List Byte
  | s, _, [] => (s, [])
  | s, k, b :: r =>
    let (s1, b1) := if c.inRows c.srcRow (dst + k) || c.inRows c.dstRow (src + k) then s.free.swap else (s, b)
    let (s2, r2) := copyOverlap c src dst s1 (k + 1) r
    (s2, b1 :: r2)

/-- The length of the piece of a row at position `k`: up to a line of the destination. -/
def Cmd.pieceLen (c : Cmd) (dst k : Nat) : Nat :=
  let left := blockWord c.block 20 - k
  if c.dstScr then Nat.min left 64 else Nat.min left (64 - dst % 64)

/-- Whether a piece may go where it goes: a reduction window takes whole packets of a copy whose destination and rows are multiples
of 64 (R429). -/
def Cmd.windowOk (c : Cmd) (dst : Nat) : Bool :=
  c.dstScr || !inWindow (c.frame dst).1 ||
    ((List.range (blockWord c.block 16)).all (fun r => c.dstRow r % 64 == 0) && blockWord c.block 20 % 64 == 0)

/-- The source bytes of a piece. -/
def State.cpySource (s : State) (c : Cmd) (src n : Nat) : State × EngGot :=
  if c.srcScr then
    if (s.team c.team).scrBad src n then (s, .bad cUncorrectable)
    else
      let (s1, b) := s.scrRead c.team src n
      (s1, .data b)
  else s.engFetch c src n

/-- One piece of a copy performed; after the last the command ends. -/
def State.cpyPiece (s : State) (c : Cmd) : State :=
  let n := blockWord c.block 20
  let row := c.pages / n
  let k := c.pages % n
  let src := (c.srcRow row + k) % 2 ^ 64
  let dst := (c.dstRow row + k) % 2 ^ 64
  let t := s.team c.team
  if (c.srcScr && !t.scrIn (c.srcRow row) n) || (c.dstScr && !t.scrIn (c.dstRow row) n) then s.failCmd c cScratch
  else if !c.windowOk dst then s.failCmd c cProtection
  else if (c.srcScr || c.dstScr) && s.relocating c.team then s
  else if !c.dstScr && s.engWaits c dst (c.pieceLen dst k) true then s
  else
    let len := c.pieceLen dst k
    let (s1, g) := s.cpySource c src len
    match g with
    | .wait => s1
    | .bad cause => s1.failCmd c cause
    | .data b =>
      let (s2, b2) := if c.srcScr == c.dstScr then copyOverlap c src dst s1 0 b else (s1, b)
      let (s3, e) := if c.dstScr then (s2.scrWrite c.team dst b2 false, none) else s2.engStore c [(dst, len)] b2
      match e with
      | some x => s3.failCmd c x
      | none => s3.modCmd c.team c.id fun x => { x with pages := c.pages + len, started := true }

/-- Whether a command may start, or go on: every earlier one of its team has started or is held (R207), and the channel behind its barrier takes
accesses (22 R456). -/
def State.mayStart (s : State) (k : Nat) (c : Cmd) : Bool :=
  !s.objectWaits (barrierOf (blockBarrier c.block)) c.barPa && (c.started || !((s.cmds.take k).any fun x => x.team == c.team && x.state == .queued && !x.started))

/-- The end of a command whose work is done, or which has met a fault, once its writes over links are acknowledged. -/
def State.closeCmd (s : State) (c : Cmd) : State :=
  match s.engAcks c with
  | .wait => s
  | .bad x => (s.dropCmdLinks c 1).endCmd c (some (if c.cause = 0 then x else c.cause))
  | .data _ => (s.dropCmdLinks c 1).endCmd c (if c.cause = 0 then none else some c.cause)

/-- CPY_EXECUTION: one piece of the copy; after the last, and the acknowledgements of its writes, the end. -/
def execEvCpyExecution (k : Nat) (s : State) : Out :=
  match s.cmds[k]? with
  | some c =>
    if c.kind ≠ 0 || c.state != .queued || !s.mayStart k c then .next s
    else if c.cause = 0 ∧ c.pages < blockWord c.block 16 * blockWord c.block 20 then .next (s.cpyPiece c)
    else .next (s.closeCmd c)
  | none => .next s

/-! ## BIN (R209) -/

/-- The words of a byte string. -/
def wordList : Nat → List Byte → List Nat
  | 0, _ => []
  | n + 1, b => natOf (b.take 4) :: wordList n (b.drop 4)

/-- One count higher at a key. -/
def countKey (acc : List Nat) (k : Nat) : List Nat := modAt (· + 1) acc k

/-- What the handle phase of a BIN has come to: done, a release that has to wait at handle `k`, or a fault. -/
inductive Handles where
  | done
  | wait (k : Nat)
  | bad (cause : BitVec 8)
  deriving DecidableEq, Repr

/-- The handles of a BIN patched with their counts, and released under RELEASE; a refused one gets its status (R209). `k` counts on from
what is done. -/
def State.binHandles (s : State) (c : Cmd) : Nat → List Nat → State × Handles
  | _, [] => (s, .done)
  | k, v :: r =>
    let off := blockWord c.block 24 + 4 * k
    if (s.team c.team).scrBad off 4 then (s, .bad cUncorrectable)
    else
      let (s1, hb) := s.scrRead c.team off 4
      let h := natOf hb
      let (s2, st) := s1.handlePatch c.team h v
      if st ≠ 0 then (s2.scrWrite c.team off (bytesOf 4 st) false).binHandles c (k + 1) r
      else if blockByte c.block 28 % 2 = 1 then
        let (s3, rel) := s2.handleRelease c.team h
        match rel with
        | none => (s3, .wait k)
        | some _ => s3.binHandles c (k + 1) r
      else s2.binHandles c (k + 1) r

/-- The handle phase: from handle `pages - 1` on, then the acknowledgements and the end. The handle array is checked against the team's SCR
bytes when the phase begins, after the counts are written (DESIGN CHOICE log 55). -/
def State.binFinish (s : State) (c : Cmd) : State :=
  let done := c.pages - 1
  let use := blockWord c.block 24 ≠ 0xffffffff ∧ done < c.acc.length
  if c.cause ≠ 0 then s.closeCmd c
  else if use ∧ !(s.team c.team).scrIn (blockWord c.block 24) (4 * c.acc.length) then s.failCmd c cScratch
  else if use ∧ s.relocating c.team then s
  else
    let (s1, left) := if use then s.binHandles c done (c.acc.drop done) else (s, .done)
    match left with
    | .wait k => s1.modCmd c.team c.id fun x => { x with pages := k + 1 }
    | .bad x => s1.failCmd c x
    | .done => (s1.modCmd c.team c.id fun x => { x with pages := c.acc.length + 1 }).closeCmd c

/-- BIN_EXECUTION: the keys counted and the counts written, then the handles and the end. -/
def execEvBinExecution (k : Nat) (s : State) : Out :=
  match s.cmds[k]? with
  | some c =>
    if c.kind ≠ 1 || c.state != .queued || !s.mayStart k c then .next s
    else if c.pages = 0 then
      let items := blockWord c.block 8
      let (s1, g) := s.engFetch c (fieldOf c.block 0 8) (4 * items)
      match g with
      | .wait => .next (s1.modCmd c.team c.id fun x => { x with started := true })
      | .bad x => .next (s1.endCmd c (some x))
      | .data b =>
        let counts := (wordList items b).foldl countKey (List.replicate (blockWord c.block 12) 0)
        let at_ := fieldOf c.block 16 8
        let (s2, e) := s1.engStore c (piecesOf at_ (4 * counts.length)) (counts.flatMap (bytesOf 4))
        .next (s2.modCmd c.team c.id fun x => { x with pages := 1, started := true, acc := counts, cause := e.getD 0 })
    else .next (s.binFinish c)
  | none => .next s

/-! ## MIG (R210, R405, R406) -/

/-- The leaf that maps a page: its entry's address and the page's size; or why there is none. -/
def State.leafOf (s : State) (ctx va : Nat) : State × Except (Option (BitVec 8)) (Nat × Nat) :=
  match s.ctxOf ctx with
  | some c => s.leafAddr va 3 (localPa c.ptroot)
  | none => (s, .error none)

/-- A leaf entry read at its home below every copy, or the cause when its line cannot be corrected (00 R13); and one written by a .y
access. -/
def State.leafRead (s : State) (a : Nat) : State × Except (BitVec 8) (BitVec 64) :=
  let (s1, d) := (s.homeLine 4096 a a).dramRead a 8
  match d with
  | .ok b => (s1, .ok (BitVec.ofNat 64 (natOf b)))
  | .bad c => (s1, .error c)

def State.leafWrite (s : State) (a : Nat) (e : BitVec 64) : State := ((s.homeLine 4096 a a).dramWrite a (bytesOf 8 e.toNat)).1

/-- Whether every frame of a list has a pin count of 0; the cause when a count cannot be read. -/
def State.unpinned (s : State) (ctx : Nat) : List Nat → State × Except (BitVec 8) Bool
  | [] => (s, .ok true)
  | f :: r =>
    let (s1, n) := s.pinCount ctx f
    match n with
    | .error c => (s1, .error c)
    | .ok n => if n ≠ 0 then (s1, .ok false) else s1.unpinned ctx r

/-- The page that a migration stands at: what the leaf that maps its address maps (DESIGN CHOICE log 18), with the leaf's address and
entry, and where the page comes from and goes. -/
structure Moving where
  base : Nat
  size : Nat
  leaf : Nat
  entry : BitVec 64
  src : Nat
  dst : Nat
  deriving DecidableEq, Repr

def Cmd.migVa (c : Cmd) : Nat := (fieldOf c.block 0 8 + 65536 * c.pages) % 2 ^ 64

/-- The page of a migration, or the cause that ends it. It comes from the frame translated at submission (R404). Where it goes is the physical
address at +16 of the block alone; the target code counts only where it is 1, for PIN and STACK of the leaf, and the peer device at +14 not at
all: R210 and R405 do not say what they mean beside an address that disagrees with them (DESIGN CHOICE log 18). -/
def State.migPage (s : State) (c : Cmd) : State × Except (BitVec 8) Moving :=
  let va := c.migVa
  let (s1, f) := s.leafOf c.ctx va
  match f with
  | .error x => (s1, .error (x.getD cNotPresent))
  | .ok (leaf, size) =>
    let (s2, r) := s1.leafRead leaf
    match r with
    | .error x => (s2, .error x)
    | .ok e =>
      let base := va / size * size
      (s2, .ok { base := base, size := size, leaf := leaf, entry := e, src := (c.frame va).1 - (va - base),
                 dst := (fieldOf c.block 16 8 + 65536 * c.pages + 2 ^ 52 - (va - base)) % 2 ^ 52 })

/-- A line that could not be corrected copied with its symbol errors (R406); its new region is live then (22 R464). -/
def State.carryErrors (s : State) (src dst : Nat) : State :=
  let errs := match dramPlace s.mem src with
    | some (st, loc) => s.mem.errsAt src st loc
    | none => []
  let s1 := (s.dramWrite dst (s.mem.bytesAt src 64)).1
  match dramAt s1.mem dst with
  | some k => s1.setMem { s1.mem with lineErrs := (k, errs) :: s1.mem.lineErrs.filter fun e => e.1 != k }
  | none => s1

/-- A write over a link of a line that could not be corrected: it carries an uncorrectable code (R406). -/
def State.linkPoison (s : State) (c : Cmd) (dst : Nat) (b : List Byte) : State :=
  let id := s.nextId
  let s1 := s.linkPost c.ctx (.cmd c.team c.id) 1 dst b.length b
  { s1 with links := s1.links.map fun r => if r.id == id then { r with poison := true } else r }

/-- A line put into its destination: over whatever the caches hold of that, or over a link. -/
def State.lineIn (s : State) (c : Cmd) (dst : Nat) (b : List Byte) : State :=
  if paClass dst == .dram then ((s.homeLine 4096 dst dst).dramWrite dst b).1 else s.linkPost c.ctx (.cmd c.team c.id) 1 dst 64 b

/-- One line of this device's DRAM moved: every copy merged into the source frame, its 64 bytes copied (R405 step 3). -/
def State.moveLine (s : State) (c : Cmd) (src dst : Nat) : State :=
  let (s2, d) := (s.homeLine 4096 src src).dramRead src 64
  match d with
  | .ok b => s2.lineIn c dst b
  | .bad _ =>
    if paClass dst == .dram then (s2.homeLine 4096 dst dst).carryErrors src dst else s2.linkPoison c dst (s2.mem.bytesAt src 64)

/-- Parts of copies in flight that reach a moved page go on to its new frame (R406), as do held WO stores. -/
def WoStore.moved (src n dst : Nat) (w : WoStore) : WoStore :=
  { w with pa := w.pa.map fun p => if src ≤ p ∧ p < src + n then p - src + dst else p }

def Copy.moved (src n dst : Nat) (c : Copy) : Copy :=
  { c with pa := if src ≤ c.pa ∧ c.pa < src + n then c.pa - src + dst else c.pa, wo := c.wo.map (WoStore.moved src n dst) }

def Team.movedWo (src n dst : Nat) (t : Team) : Team :=
  let f (th : Thread) : Thread := { th with wo := th.wo.map (WoStore.moved src n dst) }
  { t with groups := t.groups.map fun g => { g with threads := g.threads.map f } }

/-- Steps 4 and 5 of R405: the leaf names the new frame, MIGR is clear, the page's translations are gone. -/
def State.leafSwitch (s : State) (c : Cmd) (m : Moving) : State :=
  let pinned : BitVec 64 := if blockByte c.block 12 = 1 then BitVec.ofNat 64 (2 ^ 57 + blockByte c.block 13 * 2 ^ 53) else 0
  let kept : BitVec 64 := m.entry &&& BitVec.ofNat 64 (2 ^ 12 - 1 + 2 ^ 52 + 31 * 2 ^ 58)
  let s4 := s.leafWrite m.leaf (kept ||| BitVec.ofNat 64 (m.dst / 4096 * 4096) ||| pinned)
  let s5 := s4.tlbInvalidate (s4.asidOf c.ctx) m.base m.size
  let stays (d : DirEntry) : Bool := !(decide (m.src / 65536 ≤ d.frame) && decide (d.frame < (m.src + m.size) / 65536))
  { s5 with copies := s5.copies.map (Copy.moved m.src m.size m.dst), teams := s5.teams.map (Team.movedWo m.src m.size m.dst),
            mem := { s5.mem with dir := s5.mem.dir.filter stays } }


/-- The mark of a page that goes or comes over a link, which keeps every access away until its leaf is switched (R406); it is the command's. -/
def State.migMark (s : State) (c : Cmd) (m : Moving) : AttrMark :=
  { asid := s.asidOf c.ctx, base := m.base, size := m.size, frame := m.src, team := c.team, grp := migLane, lane := c.id,
    goes := if paClass m.src == .dram then some m.dst else none }

def State.lockPage (s : State) (c : Cmd) (m : Moving) : State :=
  ((s.markPage (s.migMark c m)).performCopies m.src m.size).releaseWoRange (s.asidOf c.ctx) m.base m.size

def State.unlockPage (s : State) (c : Cmd) : State := s.unmarkPage c.team migLane c.id

/-- A page given up: MIGR cleared again, the page open, the command failed. -/
def State.migFail (s : State) (c : Cmd) (m : Moving) (x : BitVec 8) : State :=
  ((s.leafWrite m.leaf (m.entry &&& ~~~(1 <<< 63 : BitVec 64))).unlockPage c).failCmd c x

/-- The next page of the command begins. -/
def State.migNext (s : State) (c : Cmd) (m : Moving) : State :=
  s.modCmd c.team c.id fun x => { x with pages := c.pages + (m.base + m.size - c.migVa) / 65536, started := true, acc := [] }

/-- The lines of a page. -/
def Moving.lines (m : Moving) : List Nat := (List.range (m.size / 64)).map fun k => 64 * k

/-- Whether a migration waits at a channel: that of its leaf, of a line it moves, or of one it writes (22 R456). -/
def State.migWaits (s : State) (m : Moving) : Bool :=
  let at_ (write : Bool) (pa : Nat) : Bool := paClass pa == .dram && s.physWaits write pa m.size
  s.physWaits true m.leaf 8 || at_ false m.src || at_ true m.dst

/-- Steps 1 and 2, and step 3 where the page lies in this device's DRAM. A page that stays in it is moved whole, in this one step; a page that
goes to a peer or the host waits for the acknowledgements, and one that comes from there for its lines. -/
def State.migBegin (s : State) (c : Cmd) (m : Moving) : State :=
  let (s1, n) := s.unpinned c.ctx (framesOf m.src m.size)
  match n with
  | .error x => s1.failCmd c x
  | .ok false => s1.failCmd c cEngine
  | .ok true =>
    let s2 := s1.leafWrite m.leaf (m.entry ||| (1 <<< 63 : BitVec 64))
    let local_ := paClass m.src == .dram
    if local_ && paClass m.dst == .dram then
      ((m.lines.foldl (fun (st : State) (o : Nat) => st.moveLine c (m.src + o) (m.dst + o)) s2).leafSwitch c m).migNext c m
    else
      let s3 := s2.lockPage c m
      if local_ then
        (m.lines.foldl (fun (st : State) (o : Nat) => st.moveLine c (m.src + o) (m.dst + o)) s3).modCmd c.team c.id fun x =>
          { x with started := true, acc := [2] }
      else
        (m.lines.foldl (fun (st : State) (o : Nat) => st.linkPost c.ctx (.cmd c.team c.id) 0 (m.src + o) 64 []) s3).modCmd c.team c.id fun x =>
          { x with started := true, acc := [1] }

/-- The lines of a page beyond a link, once all are there, written to the destination. -/
def State.migLines (s : State) (c : Cmd) (m : Moving) : State :=
  let rs := s.cmdLinks c 0
  if rs.any fun r => r.answer.isNone then s
  else if rs.any fun r => (r.answer.map (·.1)).getD false then (s.dropCmdLinks c 0).migFail c m cProtection
  else
    let line (o : Nat) : List Byte := ((rs.find? fun r => r.pa == m.src + o).bind (·.answer)).elim (bytesOf 64 0) (·.2)
    (m.lines.foldl (fun (st : State) (o : Nat) => st.lineIn c (m.dst + o) (line o)) (s.dropCmdLinks c 0)).modCmd c.team c.id fun x =>
      { x with acc := [2] }

/-- The page's writes over a link acknowledged: steps 4 to 6. -/
def State.migAcked (s : State) (c : Cmd) (m : Moving) : State :=
  match s.engAcks c with
  | .wait => s
  | .bad x => (s.dropCmdLinks c 1).migFail c m x
  | .data _ => (((s.dropCmdLinks c 1).leafSwitch c m).unlockPage c).migNext c m

/-- MIGRATION_PAGE: the next page of a migration, the next part of one that goes over a link, or the end. -/
def execEvMigrationPage (k : Nat) (s : State) : Out :=
  match s.cmds[k]? with
  | some c =>
    if c.kind ≠ 2 || c.state != .queued || !s.mayStart k c then .next s
    else if c.cause ≠ 0 ∨ (c.acc = [] ∧ c.pages ≥ blockWord c.block 8) then .next (s.closeCmd c)
    else
      let (s1, r) := s.migPage c
      .next (match r with
        | .error x => (s1.unlockPage c).failCmd c x
        | .ok m =>
          if s1.migWaits m then s1
          else if c.acc = [] then (if s1.mem.changing.any (s1.migMark c m).meets then s1 else s1.migBegin c m)
          else if c.acc = [1] then s1.migLines c m
          else s1.migAcked c m)
  | none => .next s

end Sys2Proof.Machine
end

