-- ==== Sys2Proof/Machine/Near.lean ====
section
/-! DEFINITION. Major 0x3B: near-memory calls, the walker and FRED (07 R212 to R219, 20 R411 to R425): acceptance of a call, its
start on a Foehn core, its budget and completion, the records of a walk. -/

namespace Sys2Proof.Machine

open Sys2Proof

/-! ## The message (R213, R214) -/

def nearForm (srcs : List (Reg × Nat)) (dst : Option (Reg × Nat)) : Form :=
  { Form.plain srcs dst .same with foehn := false, roles := rolesCopy, txn := false }

/-- Whether slot `k` of a message is present, and whether it is OUT. -/
def msgPresent (m : List Byte) (k : Nat) : Bool := blockByte m 17 / 2 ^ k % 2 == 1
def msgOut (m : List Byte) (k : Nat) : Bool := blockByte m 16 / 2 ^ k % 2 == 1

/-- The capability word of slot `k`. -/
def msgSlot (m : List Byte) (k : Nat) : Nat := fieldOf m (64 + 16 * k) 16

/-- The limits of a message's fields; a walk has zeros where a call names its groups and its core. -/
def msgOk (walk : Bool) (m : List Byte) : Bool :=
  let f := fieldOf m
  (if walk then decide (1 ≤ f 0 4) && decide (f 0 4 ≤ 4096) && f 4 1 == 0 && f 5 1 == 0
   else f 0 4 % 4 == 0 && decide (1 ≤ f 4 1) && decide (f 4 1 ≤ 8) && f 5 1 / 16 % 8 == 0) &&
    f 6 2 == 0 && decide (1 ≤ f 8 8) && decide (f 8 8 < 2 ^ 40) && msgPresent m 0 && blockZero m 18 46

/-- Check 3 of R214: the first present slot without its tag or its permissions. -/
def badSlot (t : Team) (m : List Byte) (off : Nat) : Option Nat :=
  ((List.range 8).find? fun k => msgPresent m k &&
    !(t.pool.scrTags.contains ((off + 64) / 16 + k) &&
      (let need := permNmcall + if msgOut m k then permW else permR
       Nat.land need (capPerm (msgSlot m k)) == need))).map fun k => off + 64 + 16 * k

/-! ## The extent table (R215 step 2, R418) -/

/-- The parts of [va, hi) that lie in one page each, as extents of a slot, with their translations; at most `fuel` pages. The call waits for a
page whose attribute changes (17 R390). -/
def State.extentPages (s : State) (ctx slot : Nat) (out : Bool) (hi : Nat) : Nat → Nat → State × Except LaneEnd (List (Extent × TbEntry))
  | 0, _ => (s, .ok [])
  | fuel + 1, va =>
    let addr := BitVec.ofNat 64 va
    if va ≥ hi then (s, .ok [])
    else if !canonicalVa va || inAperture va then (s, .error (.fault cProtection 0 addr))
    else if s.changingVa (s.asidOf ctx) va then (s, .error .pend)
    else
      let (s1, r) := s.translate ctx va
      match r with
      | .absent => (s1, .error (.park addr))
      | .fault c => (s1, .error (.fault c 0 addr))
      | .ok e =>
        if s1.changingPa (e.pa va) then (s1, .error .pend) else
        let top := Nat.min hi (e.base + e.size)
        let x : Extent := { lo := va, hi := top, pa := e.pa va, page := e.base, size := e.size, slot := slot, out := out, code := slot == 0 && e.x, attr := e.attr }
        let (s2, rest) := s1.extentPages ctx slot out hi fuel top
        match rest with
        | .ok l => (s2, .ok ((x, e) :: l))
        | .error z => (s2, .error z)

/-- The extents of the slots from `k` on. -/
def State.slotExtents (s : State) (ctx : Nat) (m : List Byte) : List Nat → State × Except LaneEnd (List (Extent × TbEntry))
  | [] => (s, .ok [])
  | k :: r =>
    if !msgPresent m k then s.slotExtents ctx m r
    else
      let base := capBase (msgSlot m k)
      let hi := base + capLen (msgSlot m k)
      let (s1, x) := s.extentPages ctx k (msgOut m k) hi ((hi - base) / 65536 + 2) base
      match x with
      | .error z => (s1, .error z)
      | .ok l =>
        let (s2, rest) := s1.slotExtents ctx m r
        match rest with
        | .ok l2 => (s2, .ok (l ++ l2))
        | .error z => (s2, .error z)

/-- The code entry of a call (R213, R418). -/
def codeEntry (m : List Byte) : Nat := (capBase (msgSlot m 0) + fieldOf m 0 4) % 2 ^ 64

/-- Entry 0: the whole page of the code entry, belonging to no slot; a walk has none. -/
def State.codeExtent (s : State) (ctx : Nat) (walk : Bool) (m : List Byte) : State × Except LaneEnd (List (Extent × TbEntry)) :=
  if walk then (s, .ok [])
  else
    let va := codeEntry m
    let (s1, x) := s.extentPages ctx 8 false (va + 4) 1 va
    (s1, match x with
      | .ok [(_, e)] => .ok [({ lo := e.base, hi := e.base + e.size, pa := e.pa e.base, page := e.base, size := e.size, slot := 8, out := false, code := false,
                                attr := e.attr }, e)]
      | .ok _ => .ok []
      | .error z => .error z)

/-- The whole table. -/
def State.extentTable (s : State) (ctx : Nat) (walk : Bool) (m : List Byte) : State × Except LaneEnd (List (Extent × TbEntry)) :=
  let (s1, c) := s.codeExtent ctx walk m
  match c with
  | .error z => (s1, .error z)
  | .ok l =>
    let (s2, r) := s1.slotExtents ctx m (List.range 8)
    match r with
    | .ok l2 => (s2, .ok (l ++ l2))
    | .error z => (s2, .error z)

/-- The frame address of `n` bytes at `va` on a page that the table maps (R413, R418). -/
def pageAddr (xs : List Extent) (va n : Nat) : Option Nat :=
  (xs.find? fun e => decide (e.page ≤ va) && decide (va + n ≤ e.page + e.size)).map fun e => e.pa + va - e.lo

/-- The frames a call will touch, with an address that maps each: those of its slots, and those of its code entry and kernel
record. -/
def extentFrames (walk : Bool) (m : List Byte) (xs : List Extent) : List (Nat × Nat) :=
  let slots := (xs.filter fun x => x.slot < 8).flatMap fun x => (framesOf x.pa (x.hi - x.lo)).map fun f => (f, x.lo)
  let at_ (va n : Nat) : List (Nat × Nat) := match pageAddr xs va n with
    | some pa => (framesOf pa n).map fun f => (f, va)
    | none => []
  let all := (if walk then [] else at_ (codeEntry m) 4 ++ at_ (codeEntry m - 64) 64) ++ slots
  all.foldl (fun (l : List (Nat × Nat)) (f : Nat × Nat) => if l.any (fun y => y.1 == f.1) then l else l ++ [f]) []

/-- Frames pinned in order; on a wait or a fault the pins taken so far are given back. -/
def State.pinFrames (s : State) (ctx : Nat) (done : List Nat) : List (Nat × Nat) → State × Except LaneEnd (List Nat)
  | [] => (s, .ok done)
  | (f, va) :: r =>
    let (s1, p) := s.pin ctx va f
    match p with
    | .done => s1.pinFrames ctx (f :: done) r
    | .wait => (s1.unpinAll ctx done, .error .pend)
    | .fault c => (s1.unpinAll ctx done, .error (.fault c 0 (BitVec.ofNat 64 va)))

/-- The addresses by which the token regions of 2 MiB that a range meets are known (17 R382). -/
def tokenRegions (lo hi : Nat) : List Nat := (List.range ((hi - 1) / 2 ^ 21 + 1 - lo / 2 ^ 21)).map fun k => (lo / 2 ^ 21 + k) * 2 ^ 21

/-- The status with which a call ends at step 3, if it does (17 R382, R383, R418): NOT_LOCAL before FAULT. -/
def tableStatus (xs : List (Extent × TbEntry)) (holder : Nat → Bool) : Option Nat :=
  match xs with
  | [] => none
  | (_, e0) :: _ =>
    if xs.any fun x => !x.2.pinned || x.2.stack != e0.stack then some 1
    else if decide (xs.length > 64) || xs.any (fun x => x.2.attr == attrIP && !(tokenRegions x.1.lo x.1.hi).all holder) then some 3
    else none

/-- Whether a frame address lies in one of the extents, entry 0 apart; in an OUT one when `out`. -/
def inExtents (xs : List Extent) (out : Bool) (pa : Nat) : Bool := xs.any fun e => (!out || e.out) && e.meets pa 4

/-- Step 4: update-only copies and pending FREDs of the extents' lines combined, their L2 words written back and the copies of OUT
extents dropped. -/
def State.callFlush (s : State) (xs : List Extent) : State :=
  let line (u : Nat) : Bool := xs.any fun e => e.meets (u / 64 * 64) 64
  let us := (s.cores.flatMap fun (c : Core) => c.upd.filter fun u => line u.pa) ++ (s.mem.pending.map (·.2)).filter fun u => line u.pa
  let s1 := us.foldl (fun (t : State) (u : UpdWord) => t.combineLine u.pa) s
  let s2 := (s1.mem.freds.filter fun f => line f.pa).foldl (fun (t : State) (f : PendingFred) => t.fredsDue f.pa) s1
  s2.l2EvictAll fun w => inExtents xs false w.pa

/-! ## NMCALL and NMWALK (R214, R215 steps 1 to 4) -/

/-- The call that a message asks for. -/
def callOfMessage (walk : Bool) (m : List Byte) (ctx caller id bar barPa : Nat) : Call :=
  { id := BitVec.ofNat 32 id, ctx := ctx, caller := caller, walk := walk, message := m,
    slots := (List.range 8).map fun k => if msgPresent m k then some (BitVec.ofNat 128 (msgSlot m k)) else none,
    barrier := bar, scratchBarrier := inAperture bar, stack := 0, core := if fieldOf m 5 1 ≥ 128 then 16 else fieldOf m 5 1 % 16,
    budget := fieldOf m 8 8, used := 0, extents := [], pins := [], barPa := barPa, state := .submitted, status := 0,
    team := 2 ^ 64 + ctx * 2 ^ 32 + id, record := 0, optimiser := none, wrote := [], met := [], clash := [] }

/-- Steps 2 to 4: the table, the pins, the barrier `bar`, the flush; `c0` is the call before it. -/
def State.acceptCall (s : State) (c0 : Call) (holder : State → Nat → Bool) (bar : State → State × Except LaneEnd Nat) :
    State × Except LaneEnd Call :=
  let m := c0.message
  let (s1, t) := s.extentTable c0.ctx c0.walk m
  match t with
  | .error z => (s1, .error z)
  | .ok table =>
    let xs := table.map (·.1)
    if s1.backWaits fun _ _ a => inExtents xs false a then (s1, .error .pend) else
    let (s2, p) := s1.pinFrames c0.ctx [] (extentFrames c0.walk m xs)
    match p with
    | .error z => (s2, .error z)
    | .ok pins =>
      let (s3, b) := bar s2
      match b with
      | .error z => (s3.unpinAll c0.ctx pins, .error z)
      | .ok pa =>
        let stack := ((table.head?).map fun x => x.2.stack).getD 0
        match tableStatus table (holder s3) with
        | some st => (s3.unpinAll c0.ctx pins, .ok { c0 with barPa := pa, stack := stack, state := .ended, status := st })
        | none => (s3.callFlush xs, .ok { c0 with barPa := pa, stack := stack, extents := xs, pins := pins })

/-- The next call id of a context. -/
def nextCallId (n : Nat) : Nat := if n ≥ 0xffffffff then 1 else n + 1

/-- The range two extents share, if either call writes there. -/
def Extent.overlap (e f : Extent) : Option (Nat × Nat) :=
  let lo := Nat.max e.pa f.pa
  let hi := Nat.min (e.pa + (e.hi - e.lo)) (f.pa + (f.hi - f.lo))
  if decide (e.slot < 8) && decide (f.slot < 8) && (e.out || f.out) && decide (lo < hi) then some (lo, hi - lo) else none

def Call.overlaps (c d : Call) : List (Nat × Nat) := c.extents.flatMap fun e => d.extents.filterMap e.overlap

/-- A call submitted: what it shares with the others on its stack that have not completed is noted on both sides, whether they run or wait
(R424). -/
def State.addCall (s : State) (c : Call) : State :=
  let beside (d : Call) : Bool := d.stack == c.stack
  let all := (s.calls.map fun d => if beside d then c.overlaps d else []).flatten
  { s with calls := (s.calls.map fun d => if beside d then { d with clash := d.overlaps c ++ d.clash } else d) ++ [{ c with clash := all }] }

/-- One lane's call or walk. -/
def callLane (walk : Bool) (a b : Reg) (i : Iss) (s : State) (l : Nat) : State × LaneOut :=
  let tm := i.op.team
  let off := (i.view.reg a l).toNat
  let bar := i.view.pair b l
  let t := s.team tm
  if off % 64 ≠ 0 then (s, .fault l cMisaligned off)
  else if s.relocating tm then (s, .only l .pend)
  else if !t.scrIn off 256 then (s, .fault l cScratch off)
  else if t.scrBad off 256 then (s, .fault l cUncorrectable off)
  else
    let (s1, m) := s.scrRead tm off 256
    match badSlot t m off with
    | some x => (s1, .fault l cCapability x)
    | none =>
      if !msgOk walk m then (s1, .fault l cNmCall off)
      else if bar % 16 ≠ 0 then (s1, .fault l cMisaligned bar)
      else
        let id := ((s1.ctxOf t.ctx).map (·.callIds)).getD 1
        let c0 := callOfMessage walk m t.ctx tm id bar 0
        let (s2, r) := (s1.relDev tm i.op.grp l).acceptCall c0 (fun st va => st.holds tm (st.asidOf t.ctx) va)
          (fun st => st.checkBarrier i bar)
        match r with
        | .error z => (s2, .only l z)
        | .ok c =>
          ((s2.modCtx t.ctx fun x => { x with callIds := nextCallId id }).addCall c, .write l [BitVec.ofNat 32 id])

/-- NMCALL. -/
def execNmcall (d a b : Reg) (s : State) : Out := issue (nearForm [(a, 1), (b, 2)] (some (d, 1))) (eachLane (callLane false a b)) s

/-- NMWALK. -/
def execNmwalk (d a b : Reg) (s : State) : Out := issue (nearForm [(a, 1), (b, 2)] (some (d, 1))) (eachLane (callLane true a b)) s

/-! ## NMRET (R217) and the end of firmware (R227, R443) -/

/-- The firmware of a stack ended: its threads stop, and the stack counts as halted. -/
def State.endFirmware (s : State) (tm stack : Nat) : State :=
  (s.modTeam tm fun t => { t.stopAll with place := .ended }).modStack stack fun k => { k with halted := true }

/-- The status of NMRET's operand. -/
def nmretStatus (v : Word) : Nat :=
  let n := v.toNat % 256
  if n = 0 then 0 else if n = 5 then 5 else 3

/-- NMRET: Foehn cores only; the lowest lane's value, once. -/
def execNmret (a : Reg) (s : State) : Out :=
  issue { Form.plain [(a, 1)] none .table with main := false, txn := false } (fun i s =>
    let v := i.view.reg a (i.lanes.headD 0)
    (match i.team.kind, i.team.place with
      | .firmware, .foehn st _ => s.endFirmware i.op.team st
      | _, _ => s.endCall i.op.team (nmretStatus v), i.lanes.map fun l => .only l .exit)) s

/-! ## FRED (R219, R425) -/

/-- The attributes FRED may meet. -/
def askFred (n : Nat) : Ask := { askRed n with attrOk := attrBarrier }

/-- Whether a slice holds a word of the line of a frame address, under any name. -/
def State.lineCached (s : State) (pa : Nat) : Bool := s.mem.l2.any fun w => lineOf w.pa == lineOf pa

/-- FRED, per lane: at the slice when that holds the line, after the update-only copies of the line, else sent to the base die; in an OUT
extent of a running call it leaves undefined values (R219, R385, R425). A floating-point one may not go to a peer (R426). -/
def execFred (op : BitVec 7) (a b : Reg) (s : State) : Out :=
  let code := op.toNat
  let wide := redCodeWide code
  let n := if wide then 8 else 4
  issue (nearForm [(a, 2), (b, if wide then 2 else 1)] none) (eachLane fun i s l =>
    let va := i.view.pair a l
    let y := if wide then i.view.pair b l else (i.view.reg b l).toNat
    let (s1, c) := s.check i l va a 0 (askFred n)
    let t := s.team i.op.team
    let perform (st : State) (p : Spot) : State × LaneOut :=
      let (s2, g) := st.atomSpot i l va n (redOpOf code) y 0 p
      match g with
      | .ends e => (s2, .only l e)
      | .data (.ok _) => (s2, .only l .next)
      | .data (.bad k) => (s2.postStoreError t.ctx k va, .only l .next)
    match c with
    | .error e => (s1, .only l e)
    | .ok (.page attr pa) =>
      if paClass pa == .dram then
        let asid := s1.asidOf t.ctx
        let s2 := (if attr == attrSC then s1.relDev i.op.team i.op.grp l else s1).ownCopies i l pa n
        let s3 := (s2.l1Bypass (l1Core t (t.coreOf i.op.grp) va) asid va n).combineLine pa
        if s3.lineCached pa then
          let (s4, o) := perform s3 (.page attr pa)
          if s3.inExtent pa n then
            let (b, s5) := s4.freeBytes n
            (s5.homeWrite asid va pa b true, o)
          else (s4, o)
        else
          let f : PendingFred := { ctx := t.ctx, asid := asid, va := va, pa := pa, op := code, val := BitVec.ofNat 64 y }
          (s3.setMem { s3.mem with freds := s3.mem.freds ++ [f] }, .only l .next)
      else if redCodeFloat code && paClass pa != .host then (s1, .fault l cAttribute va)
      else perform s1 (.page attr pa)
    | .ok p => perform s1 p) s

/-- FRED_IN_MEMORY: the k-th pending reduction performed in memory. -/
def execEvFredInMemory (k : Nat) (s : State) : Out :=
  match s.mem.freds[k]? with
  | none => .next s
  | some f => .next (if s.channelBusy true f.pa then s else (s.setMem { s.mem with freds := s.mem.freds.eraseIdx k }).fredPerform f)

/-! ## The start of a call (R215 step 5, R407, R413, R420) -/

/-- Whether a Foehn core is idle: it runs no call and no firmware. -/
def State.foehnIdle (s : State) (stack core : Nat) : Bool :=
  !(s.getStack stack).held && !(s.teams.any fun t => t.place == .foehn stack core)

/-- The core a submitted call gets, if any. -/
def State.foehnFor (s : State) (c : Call) : Option Nat :=
  if c.core < 16 then (if s.foehnIdle c.stack c.core then some c.core else none)
  else (List.range 16).find? fun k => s.foehnIdle c.stack k

/-- Pieces read through the extents of a slot; the outcome says whether the data could not be corrected. -/
def State.extentRead (s : State) (c : Call) (slot : Nat) : List (Nat × Nat) → State × Except Bool (List Byte)
  | [] => (s, .ok [])
  | (va, n) :: r =>
    match c.extents.find? fun e => decide (e.lo ≤ va) && decide (va + n ≤ e.hi) && slot == e.slot with
    | none => (s, .error false)
    | some e =>
      let pa := e.pa + (va - e.lo)
      let (s1, d) := s.dramRead pa n
      match d with
      | .bad _ => (s1, .error true)
      | .ok b =>
        let (s2, rest) := s1.extentRead c slot r
        (s2, match rest with
          | .ok l => .ok (b ++ l)
          | .error z => .error z)

/-- The kernel record of a call (R413): a status, or none when it serves. -/
def State.callRecord (s : State) (c : Call) : State × Option Nat :=
  let entry := codeEntry c.message
  if entry % 64 ≠ 0 ∨ entry < 64 then (s, some 2)
  else
    match pageAddr c.extents (entry - 64) 64 with
    | none => (s, some 2)
    | some pa =>
      let (s1, d) := s.dramRead pa 64
      match d with
      | .bad _ => (s1, some 5)
      | .ok b => (s1, if blockByte b 42 / 4 % 2 = 1 ∧ blockByte b 36 = 16 ∧ fieldOf b 38 2 = 96 then none else some 2)

/-- Whether the kernel record of a call lies on a channel that takes no read now (22 R456). -/
def State.recordWaits (s : State) (c : Call) : Bool := (pageAddr c.extents (codeEntry c.message - 64) 64).any (s.channelBusy false)

/-- The groups of a call on a Foehn core, in the state of R407: the message in the local store, tags on its present slots. -/
def Team.ofCall (c : Call) (core : Nat) : Team :=
  let l := Launch.one 0 c.ctx (BitVec.ofNat 64 (codeEntry c.message)) c.id 16 (fieldOf c.message 4 1)
  let t := Team.start .call l 0 false
  { t with index := c.id.toNat, tmx := 0, tmy := 0, tmz := 0, argo := 192, place := .foehn c.stack core, callId := c.id,
           pool := { t.pool with scr := memWrite [] 0 c.message,
                                 scrTags := (List.range 8).filterMap fun k => if msgPresent c.message k then some (4 + k) else none } }

def State.modCall (s : State) (k : Nat) (f : Call → Call) : State := { s with calls := modAt f s.calls k }

/-- A call ended with a status before it ran. -/
def State.refuseCall (s : State) (k status : Nat) : State := s.modCall k fun c => { c with state := .ended, status := status }

/-- The groups started: the instruction buffer of the core is empty, and the budget counts from now (R414, R417, R421). -/
def State.startCall (s : State) (k : Nat) (c : Call) (core : Nat) : State :=
  let s1 := s.modStack c.stack fun x => { x with ibuf := x.ibuf.filter fun e => e.1 != core }
  let s2 := s1.modCall k fun c => { c with state := .running, core := core, team := s.teams.length, used := s.foehnClock }
  { s2 with teams := s2.teams ++ [(Team.ofCall c core).age s.tick] }

/-- An optimiser call that waits for an idle core takes it before any other call does (R420). -/
def State.optimiserWaits (s : State) (c : Call) (core : Nat) : Bool :=
  c.optimiser.isNone && s.calls.any fun x => x.optimiser.isSome && x.stack == c.stack && x.state == .submitted &&
    (decide (x.core ≥ 16) || x.core == core)

/-- The walks before the k-th call on its stack: whether one runs, and how many wait. -/
def State.walksAhead (s : State) (k : Nat) (c : Call) : Bool × Nat :=
  let ahead := (s.calls.take k).filter fun x => x.walk && x.stack == c.stack
  (ahead.any (·.state == .running) || s.calls.any (fun x => x.walk && x.stack == c.stack && x.state == .running),
   (ahead.filter (·.state == .submitted)).length)

/-- CALL_START: the groups start, or the call is refused. A walk starts when the walker is free; one that finds 16 waiting is
refused (R422). An optimiser call waits for a core. -/
def execEvCallStart (k : Nat) (s : State) : Out :=
  match s.calls[k]? with
  | some c =>
    if c.state != .submitted then .next s
    else if c.walk then
      let (busy, waiting) := s.walksAhead k c
      if !busy && waiting = 0 then .next (s.modCall k fun c => { c with state := .running, used := s.foehnClock })
      else if waiting ≥ 16 then .next (s.refuseCall k 6)
      else .next s
    else match s.foehnFor c with
      | none => .next (if c.optimiser.isSome then s else s.refuseCall k 6)
      | some core =>
        if s.optimiserWaits c core || s.recordWaits c then .next s
        else
        let (s1, bad) := s.callRecord c
        match bad with
        | some st => .next (s1.refuseCall k st)
        | none => .next (s1.startCall k c core)
  | none => .next s

/-! ## The walker (R218, R422, R423) -/

/-- The base and length of a slot; none when it is absent. -/
def Call.slotRange (c : Call) (k : Nat) : Option (Nat × Nat) :=
  if k < 8 && msgPresent c.message k then some (capBase (msgSlot c.message k), capLen (msgSlot c.message k)) else none

/-- `n` bytes at offset `off` of a slot whose capability holds R (R415, R422): the bytes, or the status that ends the walk (3 FAULT, 5 DATA_ERROR). -/
def State.slotRead (s : State) (c : Call) (slot off n : Nat) : State × Except Nat (List Byte) :=
  match c.slotRange slot with
  | none => (s, .error 3)
  | some (base, len) =>
    if off + n > len || Nat.land permR (capPerm (msgSlot c.message slot)) = 0 then (s, .error 3)
    else
      let (s1, r) := s.extentRead c slot (piecesOf (base + off) n)
      (s1, match r with
        | .ok b => .ok b
        | .error true => .error 5
        | .error false => .error 3)

/-- Bytes written at offset `off` of an OUT slot, line by line; a line that cannot take them posts a STORE_ERROR record. -/
def State.slotWrite (s : State) (c : Call) : List (Nat × Nat) → List Byte → State
  | [], _ => s
  | (va, n) :: r, b =>
    match c.extents.find? fun e => e.out && decide (e.lo ≤ va) && decide (va + n ≤ e.hi) with
    | none => s.slotWrite c r (b.drop n)
    | some e =>
      let pa := e.pa + (va - e.lo)
      let (s1, nb) := s.callStore c.team pa (b.take n)
      let (s2, x) := s1.dramWrite pa nb
      let s3 := match x with
        | some k => s2.post { s2.record c.ctx k 2 6 c.stack with addr := BitVec.ofNat 64 va }
        | none => s2
      s3.slotWrite c r (b.drop n)

/-- A record of a walk. -/
structure WalkRec where
  table : Nat
  index : Nat
  out : Nat
  pool : Nat
  fmt : Nat
  rowBytes : Nat
  count : Nat
  listOff : Nat
  outOff : Nat
  deriving DecidableEq, Repr

def WalkRec.ofBytes (b : List Byte) : WalkRec :=
  let f := fieldOf b
  { table := f 0 1, index := f 1 1, out := f 2 1, pool := f 3 1, fmt := f 4 1, rowBytes := f 8 4, count := f 12 4,
    listOff := f 16 8, outOff := f 24 8 }

/-- Bytes of an element. -/
def WalkRec.elem (w : WalkRec) : Nat := elemBits w.fmt / 8

/-- The limits of a record of a walk. -/
def WalkRec.ok (c : Call) (w : WalkRec) (b : List Byte) : Bool :=
  let slot (k : Nat) (out : Bool) : Bool := decide (1 ≤ k) && decide (k ≤ 7) && msgPresent c.message k && msgOut c.message k == out
  slot w.table false && slot w.index false && slot w.out true && decide (w.pool ≤ 2) && decide (1 ≤ w.fmt) && decide (w.fmt ≤ 5) &&
    blockZero b 5 3 && w.rowBytes % w.elem == 0 && decide (w.rowBytes ≤ 4096) && decide (1 ≤ w.count) && decide (w.count ≤ 65535) &&
    w.listOff % 4 == 0 && w.outOff % 4 == 0

/-- The rows of a record: for each index in turn, its word of the index list and then its row (R423). -/
def State.recordRows (s : State) (c : Call) (w : WalkRec) : List Nat → State × Except Nat (List (List Byte))
  | [] => (s, .ok [])
  | j :: rest =>
    let (s0, i) := s.slotRead c w.index (w.listOff + 4 * j) 4
    match i with
    | .error z => (s0, .error z)
    | .ok i =>
      let (s1, x) := s0.slotRead c w.table (natOf i * w.rowBytes) w.rowBytes
      match x with
      | .error z => (s1, .error z)
      | .ok b =>
        let (s2, y) := s1.recordRows c w rest
        (s2, match y with
          | .ok l => .ok (b :: l)
          | .error z => .error z)

/-- The windowed sum divided by a count, rounded once (R218). -/
def winMean (terms : List Num) (n : Nat) : Nat :=
  let v := match winSpecial terms with
    | some v => v
    | none => match winLead terms with
      | none => .fin (zeroSumNeg .rn terms) 0 0
      | some lead =>
        let q := lead - 63
        let sum := (winTruncSum q terms).1
        if sum = 0 then .fin false 0 0 else Num.ofInt sum q false
  (divNum f32 .rn 0 v (.fin false n 0)).bits

/-- One output word from the elements of a column, in index order. -/
def poolColumn (pool fmt : Nat) (es : List Nat) : Nat :=
  let f := tileFmt fmt
  match pool with
  | 0 => (winsum f32 64 .rn 0 (es.map (decodeNum f))).1.bits
  | 1 => winMean (es.map (decodeNum f)) es.length
  | _ => match es with
    | [] => 0
    | e :: r => (fConvert f f32 .rn 0 false (r.foldl (fun (m x : Nat) => (fMinMaxNum true f m x).bits) e)).bits

/-- The output bytes of a record. -/
def WalkRec.output (w : WalkRec) (rows : List (List Byte)) : List Byte :=
  (List.range (w.rowBytes / w.elem)).flatMap fun k =>
    bytesOf 4 (poolColumn w.pool w.fmt (rows.map fun r => natOf ((r.drop (k * w.elem)).take w.elem)))

/-- One record performed, or the status that ends the walk. -/
def State.walkRecord (s : State) (c : Call) : State × Option Nat :=
  let (s1, b) := s.slotRead c 0 (32 * c.record) 32
  match b with
  | .error z => (s1, some z)
  | .ok b =>
    let w := WalkRec.ofBytes b
    if !w.ok c b then (s1, some 3)
    else
      let (s3, rows) := s1.recordRows c w (List.range w.count)
      match rows with
      | .error z => (s3, some z)
      | .ok rows =>
        let o := w.output rows
        match c.slotRange w.out with
        | some (base, len) =>
          if w.outOff + o.length > len then (s3, some 3) else (s3.slotWrite c (piecesOf (base + w.outOff) o.length) o, none)
        | none => (s3, some 3)

/-- A channel of each kind that an extent reaches, by an address on it: a page holds all of them (22 R454). -/
def Extent.channels (e : Extent) : List Nat := (piecesOf e.pa (Nat.min (e.hi - e.lo) 4096)).map (·.1)

/-- Whether a channel that a walk's extents reach takes no command now (22 R456). -/
def State.walkWaits (s : State) (c : Call) : Bool := c.extents.any fun e => e.channels.any (s.channelBusy e.out)

/-- No all-bank command of a stack's sequencer is under way. -/
def State.endAllBank (s : State) (stack : Nat) : State := s.modStack stack fun k => { k with allBank := false, postponed := 0 }

/-- WALK_RECORD: the running walk of a stack takes its next record: the sequencer's all-bank command begins, and with the event after that it has
been performed (22 R465; DESIGN CHOICE log 46). -/
def execEvWalkRecord (stack : Nat) (s : State) : Out :=
  match s.calls.findIdx? fun c => c.walk && c.stack == stack && c.state == .running with
  | none => .next s
  | some k => match s.calls[k]? with
    | none => .next s
    | some c =>
      if s.walkWaits c then .next s
      else if !(s.getStack stack).allBank then .next (s.modStack stack fun x => { x with allBank := true })
      else
      let (s1, bad) := (s.endAllBank stack).walkRecord c
      match bad with
      | some st => .next (s1.refuseCall k st)
      | none =>
        if c.record + 1 ≥ fieldOf c.message 0 4 then .next (s1.refuseCall k 0)
        else .next (s1.modCall k fun c => { c with record := c.record + 1 })

/-! ## Completion (R215 step 7) -/

/-- Dirty words that main-die stores left in words the callee wrote are undefined (R216): in the L1s and at home. -/
def State.callRaces (s : State) (c : Call) : State :=
  let hit (pa : Nat) : Bool := c.wrote.contains pa && inExtents c.extents true pa
  if c.wrote.isEmpty || !(s.mem.l2.any (fun w => w.dirty && hit w.pa) || s.cores.any fun k => k.l1.any fun w => w.dirty && hit w.pa) then s
  else
    let word (n : Nat) : Word := BitVec.ofNat 32 (natOf ((List.range 4).map fun j => Config.freeByte (n + j)))
    let l1 (n : Nat) (w : L1Word) : L1Word := if w.dirty && hit w.pa then { w with data := word (n + w.pa) } else w
    let l2 (n : Nat) (w : L2Word) : L2Word := if w.dirty && hit w.pa then { w with data := word (n + w.pa) } else w
    let n := s.freeCtr
    let s1 : State := { s with freeCtr := n + 2 ^ 60, cores := s.cores.map fun k => { k with l1 := k.l1.map (l1 n) } }
    s1.setMem { s1.mem with l2 := s1.mem.l2.map (l2 n) }

/-- The end of a call's groups, if it had any. -/
def State.endCallTeam (s : State) (c : Call) : State :=
  if c.walk then s else s.modTeam c.team fun t => if t.kind == .call then { t.stopAll with place := .ended } else t

/-- Whether a running call's threads have all exited (R217). -/
def State.callExited (s : State) (c : Call) : Bool :=
  c.state == .running && !c.walk && (s.team c.team).groups.all fun g => g.threads.all (·.exited)

/-- The shard's optimiser call ended: BROADCASTING on OK; another status is kept for the error path (20 R436, R438). -/
def State.optimiserEnd (s : State) (i status : Nat) : State := { s with xchg := { s.xchg with opts := assocSet i status s.xchg.opts } }

/-- CALL_COMPLETION: step 7. The call leaves the list; its barrier receives the record and one arrival. -/
def execEvCallCompletion (k : Nat) (s : State) : Out :=
  match s.calls[k]? with
  | some c =>
    if (c.state != .ended && !s.callExited c) || s.objectWaits c.barrier c.barPa || s.backWaits (fun _ _ a => inExtents c.extents true a) then .next s
    else
      let s1 := (s.callRaces c).endCallTeam c
      let s2 : State := { s1 with calls := s1.calls.eraseIdx k }
      let s3 := (s2.l2EvictAll fun w => inExtents c.extents true w.pa).unpinAll c.ctx c.pins
      match c.optimiser with
      | some i => .next (s3.optimiserEnd i c.status)
      | none =>
        let s4 := if c.status = 0 then s3 else s3.barAgent c.caller c.ctx c.barrier c.barPa (.error 2 c.status)
        .next ((s4.barAgent c.caller c.ctx c.barrier c.barPa (.arrive 1)).unpinBarrier c.ctx c.barrier c.barPa)
  | none => .next s

/-! ## The budget (R421) -/

/-- Whether a running walk is reading a channel of a Foehn core's pair. R421 does not say which walks these are: every running walk with an
extent there that it may read, an IN extent or that of slot 0, which holds its records, whatever its current record names (DESIGN CHOICE log
73). -/
def State.walkReads (s : State) (c : Call) (core : Nat) : Bool :=
  (c.extents.filter fun e => !e.out || e.slot == 0).any fun e => e.channels.any fun a => match dramPlace s.mem a with
    | some (_, loc) => channelOf loc / 2 == core
    | none => false

/-- Shards with an accumulator line on a core's channels become INVALID, one that is BROADCASTING too: R436 gives that state one exit, the end of the
round, and R421 marks every shard; the model lets the mark stand, and the round ends by the error path (DESIGN CHOICE log 84). -/
def State.invalidateShards (s : State) (stack core : Nat) : State :=
  if s.xchg.descBase.isNone then s
  else (List.range 4096).foldl (fun (st : State) (i : Nat) =>
    let d := st.descriptor i
    let meets := (List.range ((d.count + 3) / 4)).any fun j => match dramPlace st.mem (d.ctl + 64 + 64 * j) with
      | some (_, loc) => channelOf loc / 2 == core
      | none => false
    if d.valid && d.stack == stack && meets then st.setShard d 4 else st) s

/-- CALL_BUDGET_EXPIRY: the channel watchdog stops a call whose budget has run out. A walk ends with WATCHDOG. -/
def execEvCallBudgetExpiry (k : Nat) (s : State) : Out :=
  match s.calls[k]? with
  | some c =>
    if c.state != .running || s.foehnClock - c.used < c.budget then .next s
    else if c.walk then .next ((s.refuseCall k 4).endAllBank c.stack)
    else
      let s1 := s.endCall c.team 4
      let hit (x : Call) : Bool := x.walk && x.stack == c.stack && x.state == .running && s.walkReads x c.core
      let s2 : State := { s1 with calls := s1.calls.map fun x => if hit x then { x with state := .ended, status := 4 } else x }
      let ended := c.team :: (s1.calls.filter hit).map (·.team)
      let off (x : Stack) : Stack := { x with computeOff := x.computeOff ++ [(c.core, ended)] }
      let s3 := if s1.calls.any hit then s2.endAllBank c.stack else s2
      .next ((s3.modStack c.stack off).invalidateShards c.stack c.core)
  | none => .next s

/-- Whether the calls and walks that an expiry ended have all come to step 7. -/
def State.expiryOver (s : State) (x : Nat × List Nat) : Bool := !s.calls.any fun c => x.2.contains c.team

/-- CHANNEL_COMPUTE_RESUME: the pair is back once every call and walk that its expiry ended has completed (R421). -/
def execEvChannelComputeResume (stack : Nat) (pair : Nat) (s : State) : Out :=
  .next (s.modStack stack fun x => { x with computeOff := x.computeOff.filter fun e => !(e.1 == pair && s.expiryOver e) })

end Sys2Proof.Machine
end

