-- ==== Sys2Proof/Machine/System.lean ====
section
/-! DEFINITION. Majors 0x3E and 0x3F: system registers, translation and page maintenance, return from a trap, HALTC, traps (07 R225 to
R228, 17 R390, 18 R403, 21 R484). -/

namespace Sys2Proof.Machine

open Sys2Proof

/-! ## System registers (R225) -/

/-- A system register: its number, its width, its low zero bits, its least value, and whether a main core, a Foehn core and WRSR know
it. -/
structure SysReg where
  num : Nat
  width : Nat
  zeros : Nat
  least : Nat
  main : Bool
  foehn : Bool
  writable : Bool
  deriving DecidableEq, Repr

def sysRegs : List SysReg :=
  [⟨0x00, 16, 0, 0, true, true, false⟩, ⟨0x01, 57, 2, 0, true, true, true⟩, ⟨0x02, 27, 0, 0, true, true, true⟩,
   ⟨0x03, 64, 0, 0, true, true, true⟩, ⟨0x04, 64, 0, 0, true, true, true⟩, ⟨0x05, 32, 0, 1024, true, true, true⟩,
   ⟨0x06, 40, 0, 1048576, true, true, true⟩, ⟨0x07, 52, 12, 0, true, true, true⟩] ++
  [⟨0x08, 12, 0, 0, true, true, true⟩, ⟨0x09, 52, 16, 0, true, true, true⟩, ⟨0x10, 6, 0, 0, true, false, false⟩,
   ⟨0x20, 4, 0, 0, false, true, false⟩]

/-- The register of a number on the kind of core that executes, for RDSR or WRSR. -/
def sysReg (n : Nat) (foehn write : Bool) : Option SysReg :=
  sysRegs.find? fun r => r.num == n && (if foehn then r.foehn else r.main) && (!write || r.writable)

/-- Whether WRSR may write a value (R225, DEDUCED log 19). -/
def SysReg.holds (r : SysReg) (v : Nat) : Bool := decide (v < 2 ^ r.width) && v % 2 ^ r.zeros == 0 && decide (v ≥ r.least)

/-- The value of a context register. -/
def Ctx.reg (c : Ctx) (n : Nat) : Nat :=
  match n with
  | 0x00 => c.id
  | 0x01 => c.tvec.toNat
  | 0x05 => c.tswap
  | 0x06 => c.wdt
  | 0x07 => c.ptroot
  | 0x08 => c.asid
  | 0x09 => c.pinbase
  | _ => 0

/-- A context register written. -/
def Ctx.setReg (c : Ctx) (n v : Nat) : Ctx :=
  match n with
  | 0x01 => { c with tvec := BitVec.ofNat 64 v }
  | 0x05 => { c with tswap := v }
  | 0x06 => { c with wdt := v }
  | 0x07 => { c with ptroot := v }
  | 0x08 => { c with asid := v }
  | 0x09 => { c with pinbase := v }
  | _ => c

/-- The thread registers TCAUSE, TPC and TADDR. -/
def Thread.sysGet (th : Thread) (n : Nat) : Option Nat :=
  match n with
  | 0x02 => some th.tcause.toNat
  | 0x03 => some th.tpc.toNat
  | 0x04 => some th.taddr.toNat
  | _ => none

def Thread.sysSet (th : Thread) (n v : Nat) : Thread :=
  match n with
  | 0x02 => { th with tcause := BitVec.ofNat 32 v }
  | 0x03 => { th with tpc := BitVec.ofNat 64 v }
  | 0x04 => { th with taddr := BitVec.ofNat 64 v }
  | _ => th

/-- The stack of a Foehn team. -/
def Team.stackOf (t : Team) : Nat :=
  match t.place with
  | .foehn st _ => st
  | _ => 0

/-- What RDSR reads in one lane. In firmware the context's registers read 0 and TVEC is the core's own (R484). -/
def State.sysRead (s : State) (i : Iss) (l n : Nat) : Nat :=
  let t := i.team
  match (i.thread l).sysGet n with
  | some v => v
  | none =>
    if n = 0x10 then (s.getCore (t.coreOf i.op.grp)).cchBanks
    else if n = 0x20 then t.stackOf
    else if t.kind == .firmware then (if n = 1 then (s.tvecOf t).toNat else 0)
    else ((s.ctxOf t.ctx).map (·.reg n)).getD 0

/-- What WRSR writes in one lane. -/
def State.sysWrite (s : State) (i : Iss) (l n v : Nat) : State :=
  let t := i.team
  if ((i.thread l).sysGet n).isSome then s.modThread i.op.team i.op.grp l fun th => th.sysSet n v
  else match t.kind, t.place with
    | .firmware, .foehn st c =>
      if n = 1 then s.modStack st fun k => { k with firmTvec := assocSet c (BitVec.ofNat 64 v) k.firmTvec } else s
    | _, _ => s.modCtx t.ctx fun c => c.setReg n v

/-- A PRIV instruction. -/
def privForm (foehn : Bool) (srcs : List (Reg × Nat)) (dst : Option (Reg × Nat)) : Form :=
  { Form.plain srcs dst .same with foehn := foehn, priv := true, txn := false }

/-- The form of an access to register `n`: ILLEGAL_INSTRUCTION, before PRIVILEGE, on a kind of core that does not know it (R24, R25). -/
def srForm (n : Nat) (write : Bool) (srcs : List (Reg × Nat)) (dst : Option (Reg × Nat)) : Form :=
  { privForm true srcs dst with main := (sysReg n false write).isSome, foehn := (sysReg n true write).isSome }

/-- RDSR. -/
def execRdsr (d : Reg) (n : BitVec 7) (s : State) : Out :=
  issue (srForm n.toNat false [] (some (d, 2))) (fun i s =>
    (s, i.lanes.map fun l => .write l (wordsOf 2 (s.sysRead i l n.toNat)))) s

/-- Whether the operation is one of firmware. -/
def State.curFirmware (s : State) : Bool := s.cur.any fun op => (s.team op.team).kind == .firmware

/-- The registers of a context. Firmware has none, and a WRSR of them has no effect there (R484). -/
def ctxRegs : List Nat := [0x00, 0x05, 0x06, 0x07, 0x08, 0x09]

/-- WRSR: a value outside the register's range raises ILLEGAL_INSTRUCTION and writes nothing (DEDUCED log 19). At USER level PRIVILEGE stands
before that test of the value, an order R25 does not say (DESIGN CHOICE log 82). -/
def execWrsr (a : Reg) (n : BitVec 7) (s : State) : Out :=
  let idle := s.curFirmware && ctxRegs.contains n.toNat
  issue { srForm n.toNat true [(a, 2)] none with foehn := (sysReg n.toNat true true).isSome || idle } (eachLane fun i s l =>
    let v := i.view.pair a l
    if idle then (s, .only l .next)
    else match sysReg n.toNat i.team.onFoehn true with
    | some r => if r.holds v then (s.sysWrite i l n.toNat v, .only l .next) else (s, .fault l cIllegal i.op.word.toNat)
    | none => (s, .fault l cIllegal i.op.word.toNat)) s

/-! ## Maintenance by range (R226, R403) -/

/-- TLBINV. -/
def execTlbinv (a b : Reg) (s : State) : Out :=
  issue (privForm false [(a, 2), (b, 1)] none) (eachLane fun i s l =>
    (s.tlbInvalidate (s.asidOf i.team.ctx) (i.view.pair a l) (i.view.reg b l).toNat, .only l .next)) s

/-- The fetch buffers of every thread of an address space emptied, but for the word of an ATTRCHG that waits: it has been issued. -/
def State.dropFetch (s : State) (asid : Nat) : State :=
  let drop (tm g l : Nat) (th : Thread) : Thread :=
    if s.mem.changing.any fun m => m.team == tm && m.grp == g && m.lane == l then th else { th with fbuf := [] }
  let group (tm g : Nat) (x : Group) : Group := { x with threads := x.threads.mapIdx (drop tm g) }
  { s with teams := s.teams.mapIdx fun tm t =>
      if t.kind == .team && s.asidOf t.ctx == asid then { t with groups := t.groups.mapIdx (group tm) } else t }

/-- VPURGE; it waits while a line it has to write back cannot reach its channel (22 R456). -/
def execVpurge (a b : Reg) (s : State) : Out :=
  issue (privForm false [(a, 2), (b, 1)] none) (eachLane fun i s l =>
    let asid := s.asidOf i.team.ctx
    let lo := i.view.pair a l
    let n := (i.view.reg b l).toNat
    if s.backWaits fun a va _ => a == asid && lineMeets va lo n then (s, .only l .stay)
    else (if n = 0 then s else ((s.releaseWoRange asid lo n).purgeRange asid lo n).dropFetch asid, .only l .next)) s

/-! ## ATTRCHG (R390) -/

/-- Every cached word of the frames [pa, pa + n) written back and dropped, under every name, with update-only copies and pending
FREDs combined and held WO stores written to home (R390 step 2). -/
def State.purgeFrames (s0 : State) (pa n : Nat) : State :=
  let hit (x : Nat) : Bool := decide (pa ≤ x) && decide (x < pa + n)
  let s := s0.releaseWoWhere fun _ w => w.pa.any hit
  let us := (s.cores.flatMap fun (c : Core) => c.upd.filter fun u => hit u.pa) ++ (s.mem.pending.map (·.2)).filter fun u => hit u.pa
  let s1 := us.foldl (fun (t : State) (u : UpdWord) => t.combineLine u.pa) s
  let s2 := (s1.mem.freds.filter fun f => hit f.pa).foldl (fun (t : State) (f : PendingFred) => t.fredsDue f.pa) s1
  let s3 := (s2.l1WriteAll (fun w => hit w.pa) true).l2EvictAll fun w => hit w.pa
  { s3 with cores := s3.cores.map fun (c : Core) => { c with icache := c.icache.filter fun w => !hit w.pa } }

/-- Transactions of an address space, of teams on their cores, with a word of [lo, lo + n) abort with CONFLICT_VALIDATE; the lanes that come
to their handlers so are tested for a meeting (03 R94). -/
def State.abortPage (s : State) (asid lo n : Nat) : State :=
  let inPage (va : Nat) : Bool := decide (lo ≤ va) && decide (va < lo + n)
  let touches (x : Txn) : Bool := x.reads.any (fun r => inPage r.1) || x.writes.any fun w => inPage w.1
  (List.range s.teams.length).foldl (fun (st : State) (tm : Nat) =>
    let t := s.team tm
    if t.kind != .team || t.cores.isEmpty || s.asidOf t.ctx != asid then st
    else ((List.range t.groups.length).foldl (fun (st : State) (g : Nat) => match t.groups[g]? with
      | none => st
      | some gr => (List.range gr.threads.length).foldl (fun (st : State) (l : Nat) =>
          match (gr.threads[l]?).bind (·.txn) with
          | some x => if touches x then st.abortLane tm g l 2 0 else st
          | none => st) st) st).releaseAll tm) s

/-- Steps 2 and 3 of R390 but for the wait: the accesses accepted before are performed, the page is purged under every name, its
translations are dropped, its transactions abort. -/
def State.attrPurge (s : State) (m : AttrMark) : State :=
  let s1 := ((s.performCopies m.frame m.size).releaseWoRange m.asid m.base m.size).purgeFrames m.frame m.size
  ((s1.purgeRange m.asid m.base m.size).abortPage m.asid m.base m.size).tlbInvalidate m.asid m.base m.size

/-- Step 4: the leaf gets the attribute, the directory entries go, and the mark with them; or the cause when the leaf cannot be read. -/
def State.attrWrite (s : State) (leaf : Nat) (m : AttrMark) (attr : BitVec 2) : State × Except (BitVec 8) Unit :=
  let (s1, e) := s.leafRead leaf
  match e with
  | .error c => (s1, .error c)
  | .ok e =>
    let s2 := s1.leafWrite leaf ((e &&& ~~~(3072 : BitVec 64)) ||| (attr.setWidth 64 <<< 10))
    let gone (d : DirEntry) : Bool := decide (m.frame / 65536 ≤ d.frame) && decide (d.frame < (m.frame + m.size) / 65536)
    (s2.setMem { s2.mem with dir := s2.mem.dir.filter fun d => !gone d }, .ok ())

/-- A lane that waits with its mark: it keeps the word it has issued, whatever page that lies on. -/
def attrWait (i : Iss) (l : Nat) (s : State) : State × LaneOut :=
  (s.modThread i.op.team i.op.grp l fun th => { th with fbuf := [(i.op.pc.toNat, i.op.word)] }, .only l .stay)

/-- Whether an access to a marked page that was accepted before the mark is not performed yet: a request over a link whose answer has not been
taken, or a write-back that waits at its channel (R390 step 3, 22 R456). -/
def State.attrBusy (s : State) (leaf : Nat) (m : AttrMark) : Bool :=
  let inside (pa : Nat) : Bool := decide (m.frame ≤ pa) && decide (pa < m.frame + m.size)
  s.physWaits true leaf 8 || s.links.any (fun r => inside r.pa) || s.backWaits fun _ _ a => inside a

/-- The change of a marked page whose turn it is: purged, and written once what came before it is performed and its pins are gone; until then
the lane waits with its mark. -/
def State.attrChange (s : State) (i : Iss) (l leaf : Nat) (m : AttrMark) (old attr : BitVec 2) : State × LaneOut :=
  if s.attrBusy leaf m then attrWait i l s else
  let s1 := s.attrPurge m
  let (s2, free) := s1.unpinned i.team.ctx (framesOf m.frame m.size)
  match free with
  | .error c => (s2.unmarkPage m.team m.grp m.lane, .fault l c m.base)
  | .ok false => attrWait i l s2
  | .ok true =>
    let (s3, r) := (s2.attrPurge m).attrWrite leaf m attr
    let s4 := s3.unmarkPage m.team m.grp m.lane
    match r with
    | .error c => (s4, .fault l c m.base)
    | .ok _ => (s4.acquireDev m.team m.grp, .write l [old.setWidth 32])

/-- ATTRCHG, per lane: a release and an acquire at DEV scope; the old code, or all ones for a page that is not present. The page is marked
at the first attempt, in the order of arrival, and the mark goes with the change or with an attempt that ends otherwise. An address in the scratch
aperture, which has no page, raises PAGE_PROTECTION (DESIGN CHOICE log 32). -/
def execAttrchg (d a b : Reg) (s : State) : Out :=
  issue (privForm false [(a, 2), (b, 1)] (some (d, 1))) (eachLane fun i s l =>
    let va := i.view.pair a l
    let ctx := i.team.ctx
    if !canonicalVa va || inAperture va then (s, .fault l cProtection va)
    else
      let (s1, t) := (s.relDev i.op.team i.op.grp l).translate ctx va
      let (s1b, f) := s1.leafOf ctx va
      match t, f with
      | .fault c, _ => (s1b.unmarkPage i.op.team i.op.grp l, .fault l c va)
      | _, .error (some c) => (s1b.unmarkPage i.op.team i.op.grp l, .fault l c va)
      | .ok e, .ok (leaf, _) =>
        let m : AttrMark := { asid := s1.asidOf ctx, base := va / e.size * e.size, size := e.size, frame := localPa e.frame,
                              team := i.op.team, grp := i.op.grp, lane := l, goes := none }
        let s2 := s1b.markPage m
        if s2.markFirst m then s2.attrChange i l leaf m e.attr ((i.view.reg b l).extractLsb' 0 2) else attrWait i l s2
      | _, _ => (s1b.unmarkPage i.op.team i.op.grp l, .write l [BitVec.allOnes 32])) s

/-! ## TRET and HALTC (R227) -/

/-- TRET: a jump to TPC out of the handler; a misaligned TPC raises MISALIGNED at the jump (01 R20). A Foehn core accepts it only of firmware,
which returns to SYSTEM level (R71, R484; DESIGN CHOICE log 38). -/
def execTret (s : State) : Out :=
  issue (privForm s.curFirmware [] none) (fun i s =>
    let ok (l : Nat) : Bool := (i.thread l).tpc.extractLsb' 0 2 == 0
    let firm := i.team.kind == .firmware
    (s.modGroup i.op.team i.op.grp fun g => g.modLanes (i.lanes.filter ok) fun _ th => th.trapReturn firm,
     i.lanes.map fun l => if ok l then .only l (.goto (i.thread l).tpc) else .fault l cMisaligned (i.thread l).tpc.toNat)) s

/-- HALTC: the threads end; a main core takes no new team until it is enabled again, and a Foehn core ends its firmware. -/
def execHaltc (s : State) : Out :=
  issue (privForm true [] none) (fun i s =>
    (match i.team.kind, i.team.place with
      | .firmware, .foehn st _ => s.endFirmware i.op.team st
      | _, _ => s.modCore (i.team.coreOf i.op.grp) fun c => { c with accepting := false },
     i.lanes.map fun l => .only l .exit)) s

/-! ## TRAP and BRK (R228) -/

/-- TRAP #code: SOFTWARE_TRAP with its code, TADDR 0. -/
def execTrap (code : BitVec 19) (s : State) : Out :=
  issue { Form.plain [] none .table with txn := false } (perLane fun _ l => .only l (.fault cSoftware code.toNat 0)) s

/-- BRK: BREAKPOINT, TADDR 0. -/
def execBrk (s : State) : Out :=
  issue { Form.plain [] none .table with txn := false } (perLane fun _ l => .only l (.fault cBreakpoint 0 0)) s

end Sys2Proof.Machine
end

