-- ==== Sys2Proof/Machine/Channels.lean ====
section
/-! DEFINITION. The events of the channels and base dies: pattern tests and training registers (21 R445 to R449), lane groups (22
R456), counters (R467), hot-row capture and alerts (R461, R462), liveness and refresh (R463 to R465). -/

namespace Sys2Proof.Machine

open Sys2Proof

/-! ## Register stores of a stack's firmware as events (R443, R444) -/

/-- PATCTL_WRITE (R446). -/
def execEvPatctlWrite (stack ch : Nat) (v : Word) (s : State) : Out := .next (s.phyStore stack ch offPatctl v)

/-- PATTERN_TEST_DONE (R446, R447): the traffic that waited for the test goes on. -/
def execEvPatternTestDone (stack ch : Nat) (s : State) : Out := .next (s.testDone stack ch).resume

/-- RXDLY_WRITE (R445): the slots of the four groups. -/
def execEvRxdlyWrite (stack ch slot : Nat) (v : Word) (s : State) : Out :=
  .next (if slot < 128 then s.phyStore stack ch (offRxdly slot) v else s)

/-- TXDLY_WRITE (R445). -/
def execEvTxdlyWrite (stack ch slot : Nat) (v : Word) (s : State) : Out :=
  .next (if slot < 128 then s.phyStore stack ch (offTxdly slot) v else s)

/-- LANEMAP_WRITE (R448). -/
def execEvLanemapWrite (stack ch g : Nat) (v : Word) (s : State) : Out :=
  .next (if g < 4 then s.phyStore stack ch (offLanemap g) v else s)

/-- TRAINST_WRITE (R449): only firmware writes it. -/
def execEvTrainstWrite (stack ch : Nat) (v : Word) (s : State) : Out := .next (s.phyStore stack ch offTrainst v)

/-- LGCFG_WRITE (R455, R456). -/
def execEvLgcfgWrite (stack ch : Nat) (v : Word) (s : State) : Out := .next (s.phyStore stack ch offLgcfg v)

/-- LANE_TURNAROUND_DONE (R456): the channel's traffic resumes. -/
def execEvLaneTurnaroundDone (stack ch : Nat) (s : State) : Out :=
  .next (s.modStack stack fun k => { k with turning := k.turning.filter (· != ch) }).resume

/-- COUNTER_CLEAR (R467): counter 0 CORCNT, 1 UNCCNT, 2 MISCNT, 3 NLRCNT. -/
def execEvCounterClear (stack ch which : Nat) (s : State) : Out :=
  .next (if which < 4 then s.phyStore stack ch (0x10 + 4 * which) 0 else s)

/-- CAPCTL_WRITE (R468). -/
def execEvCapctlWrite (stack : Nat) (v : Word) (s : State) : Out := .next (s.firmStore stack (baseAddr stack 0) v)

/-- EVPTR_WRITE (R468). -/
def execEvEvptrWrite (stack : Nat) (v : Word) (s : State) : Out := .next (s.firmStore stack (baseAddr stack 0x10) v)

/-- REGISTER_WRITE (R466): a store by address to a register block. -/
def execEvRegisterWrite (pa : Nat) (v : Word) (s : State) : Out :=
  .next (match regPlace pa with
    | .phy st _ _ => s.firmStore st pa v
    | .base st _ => s.firmStore st pa v
    | .hole => s)

/-- LIVENESS_WRITE, by the control node (R463, R464). -/
def execEvLivenessWrite (stack mib : Nat) (live : Bool) (s : State) : Out := .next (s.setLive stack mib live)

/-- REGION_FILL_DONE (R464). -/
def execEvRegionFillDone (stack mib : Nat) (s : State) : Out :=
  .next (s.modStack stack fun k => { k with filling := k.filling.filter (· != mib) })

/-! ## Hot rows (R461) -/

/-- CAPTURE_WINDOW_END: every row released, every count 0, the next window. -/
def execEvCaptureWindowEnd (stack : Nat) (s : State) : Out :=
  .next (s.modStack stack fun k => { k with captured := [], rowCounts := [], fullcnt := 0, window := k.window + 1 })

/-! ## Alerts and refresh (R462, R465) -/

/-- A SPLIT event: the spec gives no row, bank, pseudo-channel or channel for it (DESIGN CHOICE log 7). -/
def State.logSplit (s : State) (stack : Nat) : State :=
  let (b, s1) := s.freeBytes 4
  let n := natOf b
  s1.modStack stack fun k => ({ k with splits := k.splits + 1, postponed := 0 } : Stack).log (n % 32768) (n / 2 ^ 15 % 64)
    (n / 2 ^ 21 % 2) (n / 2 ^ 22 % 32) true 2

/-- DRAM_ALERT: logged with its source; an all-bank command is split. -/
def execEvDramAlert (stack ch pc bank row : Nat) (sequencer : Bool) (s : State) : Out :=
  let s1 := s.modStack stack fun k => k.log row bank pc ch sequencer 0
  .next (if (s.getStack stack).allBank then s1.logSplit stack else s1)

/-- REFRESH_INTERVAL: postponed during an all-bank command up to four times; the fifth splits it. -/
def execEvRefreshInterval (stack : Nat) (s : State) : Out :=
  let k := s.getStack stack
  if !k.allBank then .next (s.modStack stack fun k => { k with postponed := 0 })
  else if k.postponed < 4 then .next (s.modStack stack fun k => { k with postponed := k.postponed + 1 })
  else .next (s.logSplit stack)

end Sys2Proof.Machine
end

