-- ==== Sys2Proof/Machine/Links.lean ====
section
/-! DEFINITION. The link ports and the host optical link as targets and as sources: requests of peers and of the host (17 R383, 20
R426 to R430, 23 R476), completions of this device's own requests (17 R388, 06 R483), and reduction packets (20 R435). -/

namespace Sys2Proof.Machine

open Sys2Proof

/-! ## The port as a target -/

/-- What an address of a request names: the reduction window, this device's memory, or nothing a request may reach. -/
inductive PortSpot where
  | window (off : Nat)
  | memory (pa : Nat)
  | refused
  deriving DecidableEq, Repr

def State.portSpot (s : State) (pa n : Nat) : PortSpot :=
  match paClass pa with
  | .peer id off =>
    if id ≠ Config.deviceId then .refused
    else if off ≥ windowOff then .window (off - windowOff)
    else if (dramPlace s.mem off).isSome && !s.frameIp off && !s.frameIp (off + n - 1) then .memory off else .refused
  | .dram => if (dramPlace s.mem pa).isSome && !s.frameIp pa && !s.frameIp (pa + n - 1) then .memory pa else .refused
  | _ => .refused

/-- The sizes of a UALink request: 4 to 256 bytes, naturally aligned (R426). -/
def requestOk (pa n : Nat) : Bool := [4, 8, 16, 32, 64, 128, 256].contains n && pa % n == 0

def State.answer (s : State) (peer : Nat) (refused : Bool) (data : List Byte) : State :=
  { s with linkOut := s.linkOut ++ [{ peer := peer, refused := refused, data := data }] }

/-- Whether a request for bytes stalls: they lie in a page whose attribute changes (17 R390), or behind a channel that does not take it now (22
R456). -/
def State.stalls (s : State) (write : Bool) (pa n : Nat) : Bool :=
  s.physWaits write pa n || s.mem.changing.any fun m => m.grp != migLane && decide (m.frame < pa + n) && decide (pa < m.frame + m.size)

def State.stallRequest (s : State) (e : Instr) : State := { s with stalled := s.stalled ++ [e] }

/-- Bytes read for a request: undefined where a call may be writing them (R216); data that cannot be corrected is answered with an
access error (DESIGN CHOICE log 12). -/
def State.portRead (s : State) (pa n : Nat) : State × Option (List Byte) :=
  let (s1, d) := s.physRead pa n
  match d with
  | .bad _ => (s1, none)
  | .ok b =>
    if s1.inOut pa n then
      let (f, s2) := s1.freeBytes n
      (s2, some f)
    else (s1, some b)

/-- The bytes of a write request over the old ones, by its enables. -/
def mergeEnabled : List Byte → List Byte → List Bool → List Byte
  | o :: os, d :: ds, e :: es => (if e then d else o) :: mergeEnabled os ds es
  | os, _, _ => os

/-- Enabled bytes written; a byte range that cannot be read for the merge refuses the request (DESIGN CHOICE log 12). -/
def State.portWrite (s : State) (pa : Nat) (data : List Byte) (enables : List Bool) : State × Bool :=
  if enables.all id && enables.length == data.length then
    let (s1, e) := s.physWrite pa data
    (s1, e.isNone)
  else
    let (s1, d) := s.physRead pa data.length
    match d with
    | .bad _ => (s1, false)
    | .ok o =>
      let (s2, e) := s1.physWrite pa (mergeEnabled o data enables)
      (s2, e.isNone)

/-- A step on a barrier object by physical address; every team that is out and waits at a barrier looks again (R271). -/
def State.physBar (s : State) (pa : Nat) (k : BarStep) : State × Option (List Byte) :=
  let (s1, d) := s.physRead pa 16
  match d with
  | .bad _ => (s1, none)
  | .ok b =>
    let (nb, s2) := if s1.inOut pa 16 then s1.freeBytes 16 else ((k.apply (BarObj.ofBytes b)).bytes, s1)
    (((s2.physWrite pa nb).1).signalAll.requeue fun _ th => match th.wait with
      | some (.bwait _ _) => true
      | _ => false, some b)

/-- LINK_READ_REQUEST (R426). -/
def execEvLinkReadRequest (peer pa n : Nat) (s : State) : Out :=
  .next (if !requestOk pa n then s.answer peer true [] else match s.portSpot pa n with
    | .memory p =>
      if s.stalls false p n then s.stallRequest (.evLinkReadRequest peer pa n)
      else
        let (s1, b) := s.portRead p n
        s1.answer peer b.isNone (b.getD [])
    | _ => s.answer peer true [])

/-! ## Reduction packets (R429, R430, R435) -/

/-- The shard and first element of a packet at window offset `off`; none where it is refused. -/
def State.packetSpot (s : State) (off : Nat) (data : List Byte) : State × Option (Descriptor × Nat) :=
  let (s1, d) := s.readDescriptor (off / 2 ^ 24 % 4096)
  let e := off / 4 % 2 ^ 22
  (s1, if off % 64 ≠ 0 ∨ data.length ≠ 64 ∨ !d.valid ∨ e + 15 ≥ d.count ∨ off / 64 % 2 ^ 18 = 0x3ffff then none else some (d, e))

/-- A long accumulator of 16 bytes (R343). -/
def laccOf (b : List Byte) : Int := sextInt 128 (natOf b)
def laccBytes (a : Int) : List Byte := bytesOf 16 (a % 2 ^ 128).toNat

/-- Sixteen exact additions, or fewer: an accumulator line that cannot be corrected makes the shard INVALID, which discards the rest (22
R459); a flag word that cannot be corrected posts a STORE_ERROR record (R166, DESIGN CHOICE log 20). -/
def State.addValues (s : State) (d : Descriptor) : Nat → List Byte → Nat → State
  | _, _, 0 => s
  | e, data, n + 1 =>
    let a := d.ctl + 64 + 16 * e
    let (s1, acc) := s.physRead a 16
    let (s2, fw) := s1.physRead (d.ctl + 16) 4
    match acc, fw with
    | .ok b, .ok f =>
      let fl := BitVec.ofNat 32 (natOf f)
      let (v, fl2) := laccAdd (laccOf b) fl d.es (decodeNum f32 (natOf (data.take 4)))
      let s4 := s2.exchWrite a (laccBytes v)
      (if fl2 = fl then s4 else s4.exchWrite (d.ctl + 16) (bytesOf 4 fl2.toNat)).addValues d (e + 1) (data.drop 4) n
    | .bad _, _ => s2.setShard d 4
    | _, .bad c =>
      (s2.post { s2.record s2.xchg.descCtx c 2 5 (d.stack * 16) with addr := BitVec.ofNat 64 a }).addValues d (e + 1) (data.drop 4) n

/-- A packet performed; a shard that is INVALID discards it. -/
def State.packetAdd (s : State) (d : Descriptor) (e : Nat) (data : List Byte) : State :=
  let (s1, h) := s.header d
  if blockByte h 20 = 4 then s1 else s1.addValues d e data 16

/-- The offset in this device's own reduction window that a request of its own names: it never leaves the device (R427). -/
def LinkReq.ownWindow (r : LinkReq) : Option Nat :=
  match paClass r.pa with
  | .peer id off => if id = Config.deviceId ∧ off ≥ windowOff then some (off - windowOff) else none
  | _ => none

/-- Whether a packet of this device stands in a hold buffer. -/
def State.packetHeld (s : State) (r : LinkReq) : Bool := s.baseDies.any fun k => k.hold.any fun h => h.link == some r.id

/-- Whether a packet waits at a channel: that of its descriptor, of its shard's header or of its accumulators (22 R456). -/
def State.packetWaits (s : State) (off : Nat) (data : List Byte) : Bool :=
  !s.channelsOpen && ((s.entryAddr (off / 2 ^ 24 % 4096)).any (fun a => s.physWaits false a 16) || match (s.packetSpot off data).2 with
    | some (d, e) => s.physWaits true d.ctl 64 || s.physWaits true (d.ctl + 64 + 16 * e) 256
    | none => false)

/-- Whether a packet of this device has to wait: at a channel, or because it finds its shard busy and the hold buffer full. -/
def State.packetBlocked (s : State) (off : Nat) (data : List Byte) : Bool :=
  s.packetWaits off data || match (s.packetSpot off data).2 with
  | some (d, _) => (s.shardBusy d).2 && decide ((s.getStack d.stack).hold.length ≥ holdLimit)
  | none => false

/-- The first packet of this device to its own window that can go on: to its shard, or into the hold buffer (R436). -/
def State.ownPacket (s : State) : Option LinkReq :=
  s.links.find? fun r => r.done.isNone && r.kind == 1 && match r.ownWindow with
    | some off => !s.packetHeld r && !s.packetBlocked off r.data
    | none => false

/-- The completion of a packet: to the peer, or to this device's own agent. -/
def State.packetDone (s : State) (peer : Nat) (own : Option LinkReq) (refused : Bool) : State :=
  match own with
  | some r => { s with links := s.links.map fun x => if x.id == r.id then { x with done := some (refused, []) } else x }
  | none => s.answer peer refused []

/-- A packet at the port: refused, held for a shard that is busy, unless the buffer is full (back-pressure: it stays where it is), or
performed. One that waits at a channel stalls; this device's own stays where it is. -/
def State.packet (s : State) (peer off : Nat) (data : List Byte) (own : Option LinkReq) : State :=
  if s.packetWaits off data then (if own.isSome then s else s.stallRequest (.evReductionPacket peer off data)) else
  let (s0, spot) := s.packetSpot off data
  match spot with
  | none => s0.packetDone peer own true
  | some (d, e) =>
    let (s1, busy) := s0.shardBusy d
    if busy then
      if (s1.getStack d.stack).hold.length ≥ holdLimit then s1
      else s1.holdReq d { peer := peer, kind := 0, addr := off, data := data, link := own.map (·.id) }
    else (s1.packetAdd d e data).packetDone peer own false

/-- REDUCTION_PACKET: of a peer, or, where `peer` is this device, the first of its own that waits. -/
def execEvReductionPacket (peer off : Nat) (data : List Byte) (s : State) : Out :=
  .next (if peer = Config.deviceId then
      match s.ownPacket with
      | some r => match r.ownWindow with
        | some o => if r.enables.all id then s.packet peer o r.data (some r) else s.packetDone peer (some r) true
        | none => s
      | none => s
    else s.packet peer off data none)

/-- LINK_WRITE_REQUEST (R426, R429). -/
def execEvLinkWriteRequest (peer pa : Nat) (data : List Byte) (enables : List Bool) (s : State) : Out :=
  .next (if !requestOk pa data.length || enables.length != data.length then s.answer peer true [] else
    match s.portSpot pa data.length with
    | .window off => if data.length = 64 ∧ enables.all id then s.packet peer off data none else s.answer peer true []
    | .memory p =>
      if s.stalls true p data.length then s.stallRequest (.evLinkWriteRequest peer pa data enables)
      else
        let (s1, ok) := s.portWrite p data enables
        s1.answer peer (!ok) []
    | .refused => s.answer peer true [])

/-! ## Atomic requests (R426, R428) -/

/-- The operation of a request: the codes of R174 below 12; 16 and more carry the steps on barrier objects (DESIGN CHOICE log 12). -/
def portOp (n : Nat) : AtomOp :=
  match n with
  | 0 => .add
  | 1 => .and
  | 2 => .or
  | 3 => .xor
  | 4 => .minS
  | 5 => .maxS
  | 6 => .minU
  | 7 => .maxU
  | 8 => .xchg
  | 9 => .cas
  | 10 => .incw
  | _ => .decw

/-- The step on a barrier object that a request carries. -/
def portStep (op x c : Nat) : BarStep :=
  match op with
  | 16 => .init (x % 65536) (x / 65536 % 2 ^ 24) (c == 1)
  | 17 => .arrive x
  | 18 => .arriveBytes (BitVec.ofNat 32 x)
  | 19 => .expect (BitVec.ofNat 32 x)
  | 20 => .land x
  | _ => .error (x % 256) (c % 256)

/-- A step requested by a peer, which waits in the hold buffer of a busy shard; a full buffer does not take it. -/
def State.portBar (s : State) (peer pa : Nat) (k : BarStep) : State :=
  match s.stepHeld pa with
  | (s0, some d) =>
    if (s0.getStack d.stack).hold.length ≥ holdLimit then s0
    else s0.holdReq d { peer := peer, kind := 1, addr := pa, data := k.payload, link := none }
  | (s0, none) =>
    let (s1, o) := s0.physBar pa k
    s1.answer peer o.isNone (o.getD [])

/-- An atomic request on memory: a byte landing where it adds to the word at +4 of an EXTERNAL object, else the operation. -/
def State.portAtomic (s : State) (peer pa op n x c : Nat) : State :=
  let (s0, st) := if op = 0 ∧ n = 4 ∧ pa % 16 = 4 then s.physRead (pa + 8) 4 else (s, .ok (bytesOf 4 0))
  if natOf (st.bytes 4) ≥ 2 ^ 31 then s0.portBar peer (pa - 4) (.land ((2 ^ 32 - x % 2 ^ 32) % 2 ^ 32))
  else
    let (s1, b) := s0.portRead pa n
    match b with
    | none => s1.answer peer true []
    | some o =>
      let (s2, e) := s1.physWrite pa (bytesOf n (atomNew (portOp op) (8 * n) (natOf o) (x % 2 ^ (8 * n)) (c % 2 ^ (8 * n))))
      s2.answer peer e.isSome o

/-- LINK_ATOMIC_REQUEST. -/
def execEvLinkAtomicRequest (peer pa op : Nat) (wide : Bool) (x c : BitVec 64) (s : State) : Out :=
  let n := if op ≥ 16 then 16 else if wide then 8 else 4
  .next (if pa % n ≠ 0 ∨ (12 ≤ op ∧ op < 16) ∨ op > 21 then s.answer peer true [] else match s.portSpot pa n with
    | .memory p =>
      if s.stalls true p n then s.stallRequest (.evLinkAtomicRequest peer pa op wide x c)
      else if op ≥ 16 then s.portBar peer p (portStep op x.toNat c.toNat) else s.portAtomic peer p op n x.toNat c.toNat
    | _ => s.answer peer true [])

/-- LINK_REFUSED_REQUEST: any other request type (R426). -/
def execEvLinkRefusedRequest (peer : Nat) (s : State) : Out := .next (s.answer peer true [])

/-! ## Messages to the host (R476) -/

/-- One bit of the CRC-32C of a message (R476; its polynomial, bit order and initial value are PRESUMED, log 22). -/
def crcBit (c : Word) : Word := if c.getLsbD 0 then (c >>> 1) ^^^ 0x82f63b78 else c >>> 1

/-- The CRC-32C of some bytes. -/
def crc32c (b : List Byte) : Word :=
  ~~~(b.foldl (fun (c : Word) (x : Byte) => crcBit (crcBit (crcBit (crcBit (crcBit (crcBit (crcBit (crcBit (c ^^^ x.setWidth 32)))))))))
    0xffffffff)

/-- The payload of a message: its bytes, or its fields as words where it has none (DESIGN CHOICE log 22). -/
def holPayload (fields : List Nat) (bytes : List Byte) : List Byte := if bytes.isEmpty then fields.flatMap (bytesOf 4) else bytes

/-- The 16-byte header of a message (R476). -/
def holHeader (type ctx seq len : Nat) : List Byte :=
  bytesOf 1 type ++ bytesOf 1 0 ++ bytesOf 2 ctx ++ bytesOf 4 seq ++ bytesOf 4 len ++ bytesOf 4 0

/-- A message with its count of payload bytes and its CRC. -/
def HolMsg.of (type ctx seq : Nat) (fields : List Nat) (bytes : List Byte) : HolMsg :=
  let p := holPayload fields bytes
  { type := type, ctx := ctx, seq := seq, fields := fields, bytes := bytes, len := p.length,
    crc := crc32c (holHeader type ctx seq p.length ++ p) }

/-- A message to the host (R476), held while the link is down; its sequence counts those of its type from 0 (DESIGN CHOICE log 12). -/
def State.hol (s : State) (type ctx : Nat) (fields : List Nat) (bytes : List Byte) : State :=
  let seq := ((s.holOut ++ s.plat.outbox).filter fun m => m.type == type).length
  let m := HolMsg.of type ctx seq fields bytes
  if s.plat.holUp then { s with holOut := s.holOut ++ [m] }
  else { s with plat := { s.plat with outbox := s.plat.outbox ++ [m] } }

/-! ## The port as a source -/

/-- The k-th request answered. What the device owes (R483, R381) ends here, with a record where it was refused; every other owner
takes its answer itself. -/
def State.linkDone (s : State) (k : Nat) (refused : Bool) (data : List Byte) : State :=
  match s.links[k]? with
  | none => s
  | some r => match r.owner with
    | .device va =>
      let s1 : State := { s with links := s.links.eraseIdx k }
      if refused then s1.post { s1.record r.ctx cProtection 2 4 (r.id % 8) with addr := BitVec.ofNat 64 va } else s1
    | _ => { s with links := modAt (fun x => { x with done := some (refused, data) }) s.links k }

/-- Whether a request waits for an earlier one to bytes that both name, one of the two being half an atomic on host memory: no other access
of the device comes between the halves, from the read's being asked for to the write's acknowledgement (R377, R384). -/
def LinkReq.behind (r x : LinkReq) : Bool :=
  x.host && (x.done.isNone || x.kind == 5) && decide (x.pa < r.pa + r.n) && decide (r.pa < x.pa + x.n) && ([3, 5].contains x.kind || [3, 5].contains r.kind)

/-- The message of a request to the host: HOST_READ for a read and for the read half of an atomic, else HOST_WRITE (R476). -/
def LinkReq.holType (r : LinkReq) : Nat := if r.kind = 0 ∨ r.kind = 2 ∨ r.kind = 5 then 0x10 else 0x12

/-- Its payload: the address and the length, and of a write its byte enables and data (DESIGN CHOICE log 12). -/
def LinkReq.holBytes (r : LinkReq) : List Byte :=
  bytesOf 8 r.pa ++ bytesOf 4 r.n ++
    if r.holType = 0x10 then []
    else bytesOf 8 ((r.enables.mapIdx fun k e => if e then 2 ^ k else 0).sum) ++ r.data

/-- The requests to the host that stand behind no other go out as messages, while the link is up (R476). -/
def State.sendHost (s : State) : State :=
  if !s.plat.holUp || !s.links.any (fun r => r.host && !r.sent) then s
  else (List.range s.links.length).foldl (fun (t : State) (k : Nat) => match t.links[k]? with
    | some r =>
      if r.host && !r.sent && !((t.links.take k).any r.behind) then
        ({ t with links := modAt (fun x => { x with sent := true }) t.links k } : State).hol r.holType r.ctx [] r.holBytes
      else t
    | none => t) s

/-- Whether the k-th request waits for an answer from the host, to which it has been sent, or from a peer; one to the device's own window waits for
nothing outside. -/
def State.linkWaits (s : State) (k : Nat) (host : Bool) (kinds : List Nat) : Bool :=
  match s.links[k]? with
  | some r => r.done.isNone && r.ownWindow.isNone && r.host == host && (!host || r.sent) && kinds.contains r.kind && !((s.links.take k).any r.behind)
  | none => false

/-- Launch messages taken in the order in which they came, up to one whose kernel record has not, or to the packet of a LAUNCH, which its lane
takes (10 R259, R261). -/
def State.takeLaunches (s : State) : List HeldPacket → State
  | [] => { s with plat := { s.plat with inbox := [] } }
  | m :: r =>
    if m.who.isSome then { s with plat := { s.plat with inbox := m :: r } }
    else match s.submit m.ctx none m.packet m.args with
      | (s1, none) => { s1 with plat := { s1.plat with inbox := m :: r } }
      | (s1, some (code, h)) => (s1.hol 0x02 m.ctx (if code = 0 then [0, h] else [code]) []).takeLaunches r

/-- An answer come: the launch messages that waited for it go on. -/
def State.linkCome (s : State) (k : Nat) (refused : Bool) (data : List Byte) : State :=
  let s1 := s.linkDone k refused data
  s1.takeLaunches s1.plat.inbox

/-- Launches that wait at the launch unit go on, where the first of them is a message (10 R261). -/
def State.launchesGoOn (s : State) : State := if s.plat.inbox.isEmpty then s else s.takeLaunches s.plat.inbox

/-- LINK_COMPLETION (R388). -/
def execEvLinkCompletion (k : Nat) (data : List Byte) (refused : Bool) (s : State) : Out :=
  .next (if s.linkWaits k false [0, 1, 2, 3, 4] then s.linkCome k refused data else s)

/-- READ_DATA (R476): nothing arrives while the link is down. -/
def execEvReadData (k : Nat) (data : List Byte) (s : State) : Out :=
  .next (if s.plat.holUp && s.linkWaits k true [0, 2, 4, 5] then s.linkCome k false data else s)

/-- WRITE_ACK (R476). -/
def execEvWriteAck (k : Nat) (s : State) : Out :=
  .next (if s.plat.holUp && s.linkWaits k true [1, 3, 4] then s.linkCome k false [] else s)

/-! ## The host (R476, R383) -/

/-- Whether the device takes requests that are no management requests: not at step 1 of the boot order nor once an image is rejected (R472). -/
def State.holServes (s : State) : Bool := s.plat.holUp && s.boot.step != 1 && !s.boot.rejected

/-- The bytes that a message's payload holds at most (R476). -/
def holLimit : Nat := 4096

/-- HOST_READ: the bytes, or an access error. -/
def execEvHostRead (pa n : Nat) (s : State) : Out :=
  .next (if !s.holServes || decide (n > holLimit) then s else match s.portSpot pa n with
    | .memory p =>
      if s.stalls false p n then s.stallRequest (.evHostRead pa n)
      else
      let (s1, b) := s.portRead p n
      s1.hol 0x11 0 [b.isNone.toNat] (b.getD [])
    | _ => s.hol 0x11 0 [1] [])

/-- Undefined values in a shard: its header and its accumulators (R434). -/
def State.shardBlur (s : State) (d : Descriptor) : State :=
  let (b, s1) := s.freeBytes (64 + 16 * d.count)
  s1.exchWrite d.ctl b

/-- The entries of the descriptor table that [pa, pa + n) meets. -/
def State.entriesAt (s : State) (pa n : Nat) : List Nat :=
  match s.xchg.descBase with
  | none => []
  | some b =>
    let t := localPa b
    (List.range 4096).filter fun i => decide (t + 16 * i < pa + n) && decide (pa < t + 16 * i + 16)

/-- What a write of the control node to the descriptor table leaves: a shard that did not accumulate is undefined, whether the write clears V of
its entry or leaves a valid entry (R434). -/
def State.tableWritten (s : State) (pa n : Nat) (old : State) : State :=
  (s.entriesAt pa n).foldl (fun (t : State) (i : Nat) =>
    let d := old.descriptor i
    if d.valid && !accumulates (old.header d).2 then t.shardBlur d else t) s

/-- HOST_WRITE. -/
def execEvHostWrite (pa : Nat) (data : List Byte) (s : State) : Out :=
  .next (if !s.holServes || decide (data.length > holLimit) then s else match s.portSpot pa data.length with
    | .memory p =>
      if s.stalls true p data.length then s.stallRequest (.evHostWrite pa data)
      else
      let (s1, e) := s.physWrite p data
      (s1.tableWritten p data.length s).hol 0x13 0 [e.isSome.toNat] []
    | _ => s.hol 0x13 0 [1] [])

end Sys2Proof.Machine
end

