-- ==== Sys2Proof/Machine/Exchange.lean ====
section
/-! DEFINITION. The Levanter exchange: a shard's validation, its rounds, the broadcast and the error path (20 R431 to R439). -/

namespace Sys2Proof.Machine

open Sys2Proof

/-! ## Tables (R431, R433) -/

/-- EXCHANGE_TABLE_BASE: the descriptor table's base and owning context, or the optimiser table's base. -/
def execEvExchangeTableBase (optimiser : Bool) (base ctx : Nat) (s : State) : Out :=
  .next (if optimiser then { s with xchg := { s.xchg with optBase := base } }
    else if base % 65536 = 0 then { s with xchg := { s.xchg with descBase := some base, descCtx := ctx } } else s)

/-- The optimiser entry of a shard; none where it cannot be read (DESIGN CHOICE log 20). -/
def State.optRead (s : State) (d : Descriptor) : State × Option (List Byte) :=
  let (s1, r) := s.physRead (localPa (s.xchg.optBase + 256 * d.opt)) 256
  (s1, match r with
    | .ok b => some b
    | .bad _ => none)

/-- `n` zero bytes. -/
def zeros (n : Nat) : List Byte := List.replicate n 0

/-- Whether the exchange has a descriptor table. -/
def State.hasTable (s : State) : Bool := s.xchg.descBase.isSome

def msgBase (m : List Byte) (k : Nat) : Nat := capBase (msgSlot m k)
def msgLen (m : List Byte) (k : Nat) : Nat := capLen (msgSlot m k)

/-- Whether what the exchange unit does for an entry waits at a channel (22 R456): that of the entry, of its shard, of the optimiser entry, or of a
slot. -/
def State.shardWaits (s : State) (i : Nat) : Bool :=
  if s.channelsOpen then false
  else
    let d := s.descriptor i
    (s.entryAddr i).any (fun a => s.physWaits true a 16) || s.physWaits true d.ctl (64 + 16 * d.count) ||
      s.physWaits false (localPa (s.xchg.optBase + 256 * d.opt)) 256 || match (s.optRead d).2 with
        | some m => (List.range 8).any fun k => msgPresent m k && s.unitWaits s.xchg.descCtx (k == 1) (msgBase m k) (msgLen m k)
        | none => false

/-! ## Validation (R434) -/

/-- The limits of a header (R432). -/
def headerOk (h : List Byte) : Bool :=
  let f := fieldOf h
  decide (1 ≤ f 2 2) && decide (f 2 2 ≤ 1024) && f 15 1 ≥ 128 && f 21 1 == 0 && (f 22 2 == 0xffff || decide (f 22 2 ≤ 1023)) &&
    decide (f 24 2 ≤ 1023) && decide (1 ≤ f 26 2) && decide (f 24 2 + f 26 2 ≤ 1024) && f 32 8 % 64 == 0 && f 40 8 % 16 == 0 &&
    f 48 8 % 64 == 0 && blockZero h 56 8

/-- The roles of an optimiser entry's slots (R433). -/
def optimiserOk (d : Descriptor) (m : List Byte) : Bool :=
  msgOk false m && msgPresent m 1 && !msgOut m 1 && decide (msgLen m 1 ≥ 4 * d.count) && msgPresent m 2 && msgOut m 2

/-- Whether every slot range lies on pages pinned to the shard's stack. -/
def State.slotsLocal (s : State) (d : Descriptor) (m : List Byte) : State × Bool :=
  let (s1, t) := s.extentTable s.xchg.descCtx false m
  (s1, match t with
    | .ok l => l.all fun x => x.2.pinned && x.2.stack == d.stack
    | .error _ => false)

/-- Whether every line of the header and of the accumulators lies on the descriptor's stack: the map changes stacks at most every 1 KiB (22
R453). -/
def State.shardLocal (s : State) (d : Descriptor) : Bool :=
  (List.range ((d.ctl % 1024 + 64 + 16 * d.count + 1023) / 1024)).all fun k =>
    match dramPlace s.mem (if k = 0 then d.ctl else (d.ctl / 1024 + k) * 1024) with
    | some (x, _) => x == d.stack
    | none => false

/-- The accumulators and the flag word zeroed; whether an accumulator line could not be: that makes the shard INVALID (22 R459). -/
def State.shardClear (s : State) (d : Descriptor) : State × Bool :=
  let (s1, e) := s.physWrite (d.ctl + 64) (zeros (16 * d.count))
  (s1.exchWrite (d.ctl + 16) (zeros 4), e.isSome)

/-- The three steps of a success: zeroes, the barrier as BINIT leaves it, round 0 and ACCUMULATING. -/
def State.shardStart (s : State) (d : Descriptor) (h : List Byte) : State :=
  let o := (BarStep.init (fieldOf h 2 2) 0 true).apply (BarObj.ofBytes h)
  let (s1, bad) := s.shardClear d
  ((s1.exchWrite d.ctl o.bytes).exchWrite (d.ctl + 28) (zeros 4)).setShard d (if bad then 4 else 0)

/-- V set in the entry at an address. -/
def State.entryValid (s : State) (a : Nat) : State :=
  let (s1, e) := s.physRead a 16
  s1.exchWrite a (bytesOf 16 (natOf (e.bytes 16) ||| 2 ^ 64))

/-- DESCRIPTOR_VALIDATE, once its channels take the accesses (22 R456): the checks, the answer over HOL (0 for success), V. A valid entry written while its shard does not
accumulate leaves undefined values in the shard. -/
def execEvDescriptorValidate (i : Nat) (s : State) : Out :=
  match (if i < 4096 then s.entryAddr i else none) with
  | none => .next (s.hol 0x31 0 [6, i, 1] [])
  | some a =>
    if s.shardWaits i then .next (s.stallRequest (.evDescriptorValidate i)) else
    let (s0, d) := s.readDescriptor i
    let (s0b, om) := s0.optRead d
    let m := om.getD (zeros 256)
    let (s1, h) := s0b.header d
    let (s2, onStack) := s1.slotsLocal d m
    if om.isSome && d.zero && decide (d.count ≤ 4194288) && s2.shardLocal d && headerOk h && optimiserOk d m && onStack then
      let wasBusy := d.valid && !accumulates h
      let s3 := s2.shardStart d h
      let s5 := (if wasBusy then s3.shardBlur d else s3).entryValid a
      .next (({ s5 with xchg := { s5.xchg with opts := s5.xchg.opts.filter fun e => e.1 != i } } : State).hol 0x31 0 [6, i, 0] [])
    else .next (s2.hol 0x31 0 [6, i, 1] [])

/-! ## CLOSING (R436) -/

/-- The gradient words of accumulators k to COUNT - 1, rounded in RN; none where a line of them cannot be corrected. -/
def State.gradient (s : State) (d : Descriptor) (fl : Word) : Nat → Nat → State × Option (List Byte)
  | _, 0 => (s, some [])
  | k, n + 1 =>
    let (s1, acc) := s.physRead (d.ctl + 64 + 16 * k) 16
    match acc with
    | .ok b =>
      let (s2, r) := s1.gradient d fl (k + 1) n
      (s2, r.map (bytesOf 4 (laccRound f32 .rn (laccOf b) fl d.es).bits ++ ·))
    | .bad _ => (s1, none)

/-- EXCHANGE_CLOSE: PHASE has advanced, so the shard is CLOSING; the rounded gradients go into slot 1, and it is OPTIMISING. With an
accumulator line that cannot be corrected it is INVALID (22 R459). -/
def execEvExchangeClose (i : Nat) (s : State) : Out :=
  let (s0, d) := s.readDescriptor i
  let (s1, h) := s0.header d
  if !s.hasTable || !d.valid || s.shardWaits i then .next s
  else if blockByte h 20 = 0 ∧ headerAdvanced h then .next (s1.setShard d 1)
  else if blockByte h 20 = 1 then
    let (s2, g) := s1.gradient d (BitVec.ofNat 32 (blockWord h 16)) 0 d.count
    let (s3, om) := s2.optRead d
    .next (match g, om with
      | some g, some m => (s3.unitWrite s3.xchg.descCtx (pagePieces (msgBase m 1) g.length) g).setShard d 2
      | some _, none => s3.setShard d 2
      | none, _ => s3.setShard d 4)
  else .next s

/-! ## OPTIMISING (R433, R436) -/

/-- The call id of a round (R433). -/
def optimiserId (round i : Nat) : Nat := 0x80000000 + round % 2 ^ 19 * 2 ^ 12 + i

/-- The message of a round: the entry with its four arguments. -/
def optimiserMessage (m h : List Byte) (d : Descriptor) (i : Nat) : List Byte :=
  m.take 192 ++ bytesOf 4 i ++ bytesOf 4 (blockWord h 16) ++ bytesOf 4 d.count ++ bytesOf 4 (blockWord h 28) ++ m.drop 208

/-- The status kept for a shard: of its ended call in OPTIMISING, the next stage in BROADCASTING. -/
def State.optOf (s : State) (i : Nat) : Option Nat := (s.xchg.opts.find? (·.1 == i)).map (·.2)

def State.setOpt (s : State) (i v : Nat) : State := { s with xchg := { s.xchg with opts := assocSet i v s.xchg.opts } }

/-- EXCHANGE_OPTIMISE: the call is submitted through steps 1 to 4 of R215; one that cannot be takes FAULT (DESIGN CHOICE log 20). -/
def execEvExchangeOptimise (i : Nat) (s : State) : Out :=
  let (s0, d) := s.readDescriptor i
  let (s1a, h) := s0.header d
  let (s1, om) := s1a.optRead d
  if !s.hasTable || !d.valid || s.shardWaits i || blockByte h 20 ≠ 2 || (s.optOf i).isSome || s.calls.any (·.optimiser == some i) then .next s
  else if om.isNone then .next (s1.setOpt i 5)
  else
    let c := callOfMessage false (optimiserMessage (om.getD []) h d i) s1.xchg.descCtx 0 (optimiserId (blockWord h 28) i) 0 0
    let (s2, r) := s1.acceptCall { c with optimiser := some i } (fun _ _ => false) (fun st => (st, .ok 0))
    .next (match r with
      | .ok c2 => s2.addCall c2
      | .error .pend => s2
      | .error _ => s2.setOpt i 3)

/-! ## The end of a round (R436) -/

/-- A held request performed, or held on when the shard has become busy again. -/
def State.replayOne (s : State) (d : Descriptor) (r : HeldReq) : State :=
  let (s1, busy) := s.shardBusy d
  if busy then s1.holdReq d r
  else if r.kind = 0 then s1.packet r.peer r.addr r.data (r.link.bind fun id => s1.links.find? fun x => x.id == id)
  else
    let (s2, o) := s1.physBar r.addr (BarStep.ofPayload r.data)
    if r.peer < 2 ^ 16 then s2.answer r.peer o.isNone (o.getD []) else s2

/-- Whether a held request is for a shard. -/
def HeldReq.isFor (r : HeldReq) (d : Descriptor) (i : Nat) : Bool :=
  if r.kind = 0 then r.addr / 2 ^ 24 % 4096 == i else r.addr == d.ctl

/-- The accumulators zeroed, the round counted, ACCUMULATING, and what was held performed in order. -/
def State.endRound (s : State) (i : Nat) (d : Descriptor) (h : List Byte) : State :=
  let (s0, bad) := s.shardClear d
  let s1 := (s0.exchWrite (d.ctl + 28) (bytesOf 4 (blockWord h 28 + 1))).setShard d (if bad then 4 else 0)
  let s2 : State := { s1 with xchg := { s1.xchg with opts := s1.xchg.opts.filter fun e => e.1 != i } }
  let mine := (s2.getStack d.stack).hold.filter fun r => r.isFor d i
  let s3 := s2.modStack d.stack fun k => { k with hold := k.hold.filter fun r => !r.isFor d i }
  mine.foldl (fun (t : State) (r : HeldReq) => t.replayOne d r) s3

/-! ## BROADCASTING (R437) -/

/-- A physical address on a device of the pod. -/
def podPa (dev pa : Nat) : Nat := localPa (peerBase + dev * peerSpan + pa)

/-- Bytes written at a device's address, by lines. -/
def State.podWrite (s : State) (i dev : Nat) : List (Nat × Nat) → List Byte → State
  | [], _ => s
  | (a, n) :: r, b =>
    let pa := podPa dev a
    let s1 := if paClass pa == .dram then s.exchWrite pa (b.take n)
      else s.linkPost s.xchg.descCtx (.shard i) 1 pa n (b.take n)
    s1.podWrite i dev r (b.drop n)

/-- A byte landing of `n` on a receiver barrier (R428): an atomic add of -n to the word at +4. -/
def State.podLand (s : State) (dev bar n : Nat) : State :=
  let pa := podPa dev bar
  if paClass pa == .dram then (s.physBar pa (.land n)).1
  else s.linkPost s.xchg.descCtx (.device pa) 2 (pa + 4) 4 (bytesOf 1 0 ++ bytesOf 4 (2 ^ 32 - n % 2 ^ 32) ++ bytesOf 4 0)

/-- An error record of ORIGIN 2 on a receiver barrier (R438). -/
def State.podError (s : State) (dev bar code : Nat) : State :=
  let pa := podPa dev bar
  let k : BarStep := .error 2 code
  if paClass pa == .dram then (s.physBar pa k).1 else s.linkPost s.xchg.descCtx (.device pa) 4 pa 16 k.payload

/-- Whether the writes of a shard are all acknowledged. -/
def State.shardAcked (s : State) (i : Nat) : Bool := !s.links.any fun r => r.owner == .shard i && r.done.isNone

/-- The acknowledged writes gone; a refused one posts a STORE_ERROR record of its link port (DESIGN CHOICE log 20). -/
def State.shardDrop (s : State) (i : Nat) : State :=
  let mine := s.links.filter fun r => r.owner == .shard i
  let s1 : State := { s with links := s.links.filter fun r => r.owner != .shard i }
  mine.foldl (fun (t : State) (r : LinkReq) =>
    if (r.done.map (·.1)).getD false then t.post { t.record r.ctx cProtection 2 4 (r.id % 8) with addr := BitVec.ofNat 64 r.pa } else t) s1

/-- The bytes of the OUT slots from 3 on that are replicated behind slot 2. -/
def State.replica (s : State) (ctx : Nat) (m : List Byte) : List Nat → State × Option (List Byte)
  | [] => (s, some [])
  | k :: r =>
    if !(msgPresent m k && msgOut m k) then s.replica ctx m r
    else
      let (s1, b) := s.unitRead ctx (piecesOf (msgBase m k) (msgLen m k))
      match b with
      | none => (s1, none)
      | some b =>
        let (s2, rest) := s1.replica ctx m r
        (s2, rest.map (b ++ ·))

/-- ERROR PATH (R438): every receiver barrier gets the record and the landing, and the round ends. -/
def State.errorPath (s : State) (i : Nat) (d : Descriptor) (h : List Byte) (code : Nat) : State :=
  let (s0, om) := s.optRead d
  let n := msgLen (om.getD (zeros 256)) 2
  let bar := fieldOf h 40 8
  let s1 := (List.range (fieldOf h 26 2)).foldl (fun (t : State) (r : Nat) =>
    (t.podError (fieldOf h 24 2 + r) bar code).podLand (fieldOf h 24 2 + r) bar n) s0
  (s1.shardDrop i).endRound i d h

/-- One stage of the broadcast: 0 the buddy's replica, then each receiver's parameters after the acknowledgements of the stage
before, its landing, and after the last the end of the round. Data that cannot be read takes the error path (DESIGN CHOICE log 20). -/
def State.broadcast (s9 : State) (i : Nat) (d : Descriptor) (h : List Byte) (stage : Nat) : State :=
  let (s, om) := s9.optRead d
  let m := om.getD (zeros 256)
  let ctx := s.xchg.descCtx
  let count := fieldOf h 26 2
  let first := fieldOf h 24 2
  if !s.shardAcked i then s
  else if om.isNone then s.errorPath i d h 5
  else if stage = 0 then
    let buddy := fieldOf h 22 2
    if buddy = 0xffff then s.setOpt i 1
    else
      let (s1, b) := s.replica ctx m [2, 3, 4, 5, 6, 7]
      match b with
      | none => s1.errorPath i d h 5
      | some b => (s1.podWrite i buddy (piecesOf (fieldOf h 48 8) b.length) b).setOpt i 1
  else
    let s0 := s.shardDrop i
    let s1 := if stage ≥ 2 then s0.podLand (first + stage - 2) (fieldOf h 40 8) (msgLen m 2) else s0
    if stage - 1 ≥ count then s1.endRound i d h
    else
      let (s2, b) := s1.unitRead ctx (piecesOf (msgBase m 2) (msgLen m 2))
      let (s3, b2) := match b with
        | some b => (s2, b)
        | none => let (f, s') := s2.freeBytes (msgLen m 2); (s', f)
      (s3.podWrite i (first + stage - 1) (piecesOf (fieldOf h 32 8) b2.length) b2).setOpt i (stage + 1)

/-- EXCHANGE_BROADCAST: BROADCASTING after a call that ended OK, then its stages. -/
def execEvExchangeBroadcast (i : Nat) (s : State) : Out :=
  let (s0, d) := s.readDescriptor i
  let (s1, h) := s0.header d
  if !s.hasTable || !d.valid || s.shardWaits i then .next s
  else match s.optOf i with
    | none => .next s
    | some v =>
      if blockByte h 20 = 2 then .next (if v = 0 then s1.setShard d 3 else s)
      else if blockByte h 20 = 3 then .next (s1.broadcast i d h v)
      else .next s

/-- EXCHANGE_ERROR_PATH: after a call that ended otherwise, or for a shard that became INVALID, once PHASE has advanced. -/
def execEvExchangeErrorPath (i : Nat) (s : State) : Out :=
  let (s0, d) := s.readDescriptor i
  let (s1, h) := s0.header d
  if !s.hasTable || !d.valid || s.shardWaits i then .next s
  else if blockByte h 20 = 4 ∧ headerAdvanced h ∧ !s.calls.any (·.optimiser == some i) then .next (s1.errorPath i d h 4)
  else match s.optOf i with
    | some v => .next (if blockByte h 20 = 2 ∧ v ≠ 0 then s1.errorPath i d h v else s)
    | none => .next s

end Sys2Proof.Machine
end

