-- ==== Sys2Proof/Machine/Landing.lean ====
section
/-! DEFINITION. What comes back to a core: loads and atomics that land (01 R37, R166), parts of async copies (06 R172, R173), the end
of a SLEEP (07 R224), and the movements of lines and translations that happen on their own account (18 R392 to R402). -/

namespace Sys2Proof.Machine

open Sys2Proof

/-! ## Loads (R37, R166) -/

/-- An error mark on a register of a lane: it stays empty (R166). -/
def VReg.mark (v : VReg) (lane : Nat) (cause : BitVec 8) (addr : DWord) : VReg :=
  { v with marks := ⟨lane, cause, addr⟩ :: v.marks.filter fun m => m.lane != lane }

/-- The landing lanes that bring data, as results. -/
def landingOuts (ls : List LoadLane) : List LaneOut :=
  (ls.filter fun x => x.err.isNone).map fun x => { LaneOut.write x.lane x.words with tag := x.tag }

/-- Register `i` of a group after lanes of a load have landed. -/
def Load.landReg (d : Load) (ls : List LoadLane) (gw i : Nat) (v : VReg) : VReg :=
  if d.reg ≤ i ∧ i < d.reg + d.count then
    let here := ls.filter fun y => !d.dropped.contains (y.lane, i)
    let v1 := if (landingOuts here).isEmpty then v else v.store gw (landingOuts here) (i - d.reg) none
    here.foldl (fun (x : VReg) (y : LoadLane) => match y.err with
      | some c => x.mark y.lane c y.addr
      | none => x) v1
  else v

/-- A common register after a load has landed. -/
def Load.landCreg (d : Load) (y : LoadLane) (i : Nat) (c : CReg) : CReg :=
  if d.reg ≤ i ∧ i < d.reg + d.count ∧ !d.dropped.any (fun x => x.2 == i) then
    match y.err with
    | some e => { c with mark := some (e, y.addr) }
    | none => { val := (y.words[i - d.reg]?).getD 0, empty := false, mark := none }
  else c

/-- A common register that a load has emptied of which every lane has faulted in the end: it keeps its value. -/
def Load.fillCreg (d : Load) (i : Nat) (c : CReg) : CReg := if d.reg ≤ i ∧ i < d.reg + d.count then { c with empty := false } else c

/-- Register `i` of a group after the load of a thread that has exited has gone: it keeps its value and is full (R74). -/
def Load.dropReg (d : Load) (lanes : List Nat) (i : Nat) (v : VReg) : VReg :=
  if d.reg ≤ i ∧ i < d.reg + d.count then { v with empty := v.empty &&& ~~~(maskOf lanes) } else v

/-- A team after lanes of a load have landed. -/
def Load.land (d : Load) (now : List LoadLane) (t : Team) : Team :=
  let q := quadBits d.reg d.count
  let gone (y : LoadLane) : Bool := match (t.groups[d.grp]?).bind (·.threads[y.lane]?) with
    | some th => th.exited
    | none => true
  let ls := (if d.isC then now else now.filter fun y => !gone y).map fun y => { y with tag := y.tag && !d.dropped.any (·.1 == y.lane) }
  let left := (now.filter gone).map (·.lane)
  if d.isC then
    match ls.getLast? with
    | some y => { t with cregs := t.cregs.mapIdx (d.landCreg y),
                         ctags := if y.tag && y.err.isNone then t.ctags ||| q.setWidth 4 else t.ctags &&& ~~~(q.setWidth 4) }
    | none => if d.lanes.isEmpty then { t with cregs := t.cregs.mapIdx d.fillCreg } else t
  else t.modGroup d.grp fun g =>
    { g with regs := (g.regs.mapIdx (d.dropReg left)).mapIdx (d.landReg ls t.gw), threads := g.threads.mapIdx (Thread.tagWrite q (landingOuts ls)) }

/-- Whether a load into common registers waits for a lane that stands at it: the landing takes the value of the highest one (09 R249). A team that
leaves its core is not waited for, but for an access over a link. -/
def State.loadOpen (s : State) (d : Load) : Bool :=
  d.rest.any fun l => (!(s.team d.team).leaving.isSome || s.midway d.team d.grp l) &&
    (((s.team d.team).groups[d.grp]?).bind (·.threads[l]?)).any (·.seen.isSome)

/-- LOAD_LANDING: the lanes of `lanes` of the k-th load land. -/
def execEvLoadLanding (k : Nat) (lanes : LaneMask) (s : State) : Out :=
  match s.loads[k]? with
  | none => .next s
  | some d =>
    if s.loadOpen d then .next s else
    let now := d.lanes.filter fun x => lanes.getLsbD x.lane
    let rest := d.lanes.filter fun x => !lanes.getLsbD x.lane
    let s1 := s.modTeam d.team fun t => (d.land now t).feed s.tick
    .next { s1 with loads := if rest.isEmpty then s1.loads.eraseIdx k else modAt (fun (x : Load) => { x with lanes := rest }) s1.loads k }

/-! ## SLEEP (R224, R271) -/

/-- SLEEP_EXPIRY: the thread goes on, or its team, if it is out, returns to its level. For a thread that does not sleep, the launch unit
requeues its team although no awaited condition holds (R271). -/
def execEvSleepExpiry (team grp lane : Nat) (s : State) : Out :=
  match s.teams[team]? with
  | none => .next s
  | some t => match (t.groups[grp]?).bind (·.threads[lane]?) with
    | none => .next s
    | some th => match th.wait with
      | some (.sleep deadline) =>
        if s.sleepClock t < deadline then .next s
        else if t.watched then .next (s.modTeam team Team.queue)
        else if t.issues && th.eligible then
          .next ((s.modThread team grp lane fun x =>
            { x.moveTo (x.pc + 4) with fbuf := x.fbuf, age := if x.stirred then x.age else s.tick }).modGroup team grp (Group.release s.tick))
        else .next s
      | _ => .next (if t.watched then s.modTeam team Team.queue else s)

/-! ## Parts of copies (R172, R173) -/

/-- A part that has landed, noted until the phase that counts its bytes has completed and been acquired (R173). -/
def State.noteLanded (s : State) (c : Copy) : State :=
  { s with landed := ⟨c, s.phaseAt c.team (s.team c.team).ctx c.barrier c.barPa⟩ :: s.landed }

/-- The k-th copy part gone, with `n` of its bytes counted on its barrier; the last part of a lane's copy gives the pin back;
pool requests that wait for it are tested again (05 R135). -/
def State.partEnd (s : State) (k : Nat) (c : Copy) (n : Nat) (left : Option Copy) : State :=
  let ctx := (s.team c.team).ctx
  let s1 : State := match left with
    | some x => { s with copies := modAt (fun _ => x) s.copies k }
    | none => { s with copies := s.copies.eraseIdx k }
  let s2 := s1.barAgent c.team ctx c.barrier c.barPa (.land n)
  (if s2.copies.any fun x => x.lot == c.lot && x.team == c.team then s2 else s2.unpinBarrier ctx c.barrier c.barPa).workLanded c.team

/-- A part that fails: its bytes are counted, and the error is recorded (R173, R184, R426). -/
def State.partBad (s : State) (k : Nat) (c : Copy) (cause : BitVec 8) : State :=
  let s1 := s.barAgent c.team (s.team c.team).ctx c.barrier c.barPa (.error 1 cause.toNat)
  s1.partEnd k c c.data.length none

/-- A part that can be performed now: all of it, or the first `n` bytes of a G2S part. What an uncovered MSEQ reads is undefined then (05
R157). A G2S part over the source of an S2G copy leaves that one's destination undefined (R173). -/
def State.partGood (s : State) (k n : Nat) (c : Copy) : State :=
  let whole := c.data.length
  if c.toScr then
    let m := if n = 0 then whole else Nat.min n whole
    let s' := (s.landed.filter fun x => !x.copy.toScr).foldl (fun (t : State) (x : Landed) => t.spoilDest c.team c.scrOff m x)
      (s.taintSources c.team c.scrOff m)
    let s0 := s'.modPool c.team fun p => p.scrStore c.scrOff (c.data.take m) false
    let s1 := ((s0.engSpoil c.team c.scrOff m).wakeScratch c.team c.scrOff m).noteLanded { c with data := c.data.take m }
    s1.partEnd k c m (if m < whole then
      some { c with scrOff := c.scrOff + m, va := c.va + m, pa := c.pa + m, data := c.data.drop m } else none)
  else match if c.link || c.performed then (s, none) else s.copyWrite c with
    | (s1, some e) => s1.partBad k c e
    | (s1, none) => (s1.noteLanded c).partEnd k c whole none

/-- A G2S part with the data that a link brought, under the stores that the thread held (R172), undefined where a thread has written its target
since (R173). -/
def State.linkPart (s : State) (c : Copy) (d : List Byte) : State × Copy :=
  let (s1, b) := c.taint.foldl (fun (r : State × List Byte) (x : Nat × Nat) => freeRange r.1 x.1 x.2 c.scrOff r.2)
    (s, overlayWo c.wo c.va c.pa (d.take c.data.length))
  (s1, { c with data := b })

/-- ACP_PART_LANDING: the k-th part in flight lands, or `n` bytes of it (0: all). A part beyond a link lands with its answer; a team whose
scratch is being moved waits, as does a part whose page changes. -/
def execEvAcpPartLanding (k n : Nat) (s : State) : Out :=
  match s.copies[k]? with
  | none => .next s
  | some c =>
    if s.objectWaits c.barrier c.barPa || (c.toScr && s.relocating c.team) || (!c.toScr && !c.link && !c.performed && s.changingPa c.pa) then .next s
    else match c.bad with
      | some cause => .next (s.partBad k c cause)
      | none =>
        if !c.link then .next (s.partGood k n c)
        else match s.links.find? fun r => r.owner == .copy c.id with
          | none => .next s
          | some r => match r.answer with
            | none => .next s
            | some (refused, d) =>
              let s1 : State := { s with links := s.links.filter fun x => x.id != r.id }
              if refused then .next (s1.partBad k c cProtection)
              else
                let (s2, c1) := if c.toScr then s1.linkPart c d else (s1, c)
                .next (s2.partGood k 0 c1)

/-! ## Lines and translations (R392 to R402) -/

/-- A line brought into its home slice. -/
def State.sliceFill (s : State) (ctx va : Nat) : State :=
  let line := va / 64 * 64
  let (s1, t) := s.translate ctx line
  match t with
  | .ok e =>
    let pa := e.pa line
    if paClass pa == .dram && !s1.physWaits false pa 64 && (s1.mem.dir.all fun d => d.frame != pa / 65536 || d.attr == e.attr) then
      (s1.homeRead (s1.asidOf ctx) line pa 64 true).1
    else s1
  | _ => s1

/-- SLICE_ACCESS: what a home slice or a controller does by itself; no value that an access returns depends on it. -/
def execEvSliceAccess (r : SliceReq) (s : State) : Out :=
  .next (match r with
    | .evict pa => if s.backWaits fun _ _ a => lineOf a == lineOf pa then s else s.l2EvictAll fun w => lineOf w.pa == lineOf pa
    | .recall pa => if s.physWaits true pa 1 then s else s.dirEvict pa
    | .fill ctx va => s.sliceFill ctx va
    | .combine ctx va => match s.translate ctx va with
      | (s1, .ok e) => if s1.physWaits true (e.pa va) 1 then s1 else s1.combineLine (e.pa va)
      | (s1, _) => s1
    | .activate stack ch pc bank row => s.modStack stack fun k => k.activate ch pc bank row)

/-- L1_EVICTION: a line leaves an L1, its dirty words merged at its slice, its update-only copy sent (R385, R394). -/
def execEvL1Eviction (core asid va : Nat) (s : State) : Out :=
  let s1 := s.l1Write core (fun w => w.asid == asid && lineOf w.va == lineOf va) true
  .next (s1.sendUpdates core fun u => u.asid == asid && lineOf u.va == lineOf va)

/-- ALB_FILL (R396). -/
def execEvAlbFill (core ctx va : Nat) (s : State) : Out := .next (s.albLookup core ctx va).1

/-- PAGE_WALK (R397 to R400): the translation a walk finds is installed at the slices. -/
def execEvPageWalk (ctx va : Nat) (s : State) : Out := .next (s.translate ctx va).1

end Sys2Proof.Machine
end

