-- ==== Sys2Proof/Machine/Faults.lean ====
section
/-! DEFINITION. The fault queue and the control node's replies (10 R281, R282, R485). -/

namespace Sys2Proof.Machine

open Sys2Proof

/-! ## Records (R281) -/

/-- The 64 bytes of a record. -/
def FaultRecord.bytes (r : FaultRecord) : List Byte :=
  bytesOf 1 r.cause.toNat ++ bytesOf 1 r.kind ++ bytesOf 1 r.srcType ++ bytesOf 1 0 ++ bytesOf 2 r.srcNum ++ bytesOf 2 r.ctx ++
    bytesOf 8 r.mask.toNat ++ bytesOf 8 r.addr.toNat ++ bytesOf 8 r.pc.toNat ++ bytesOf 4 r.seq ++ bytesOf 4 r.handle ++
    bytesOf 4 r.team ++ bytesOf 2 r.core ++ bytesOf 1 r.grp ++ bytesOf 1 0 ++ bytesOf 8 r.time.toNat ++ bytesOf 8 0

/-- Record n written at its slot: the queue's base is an address of the context. On a host or peer page it is written over the link (17 R388), and is
written once the link has acknowledged it; a slot that does not translate, or that the link refuses, takes nothing (DEDUCED log 21). The answer
is whether it is written. -/
def State.recordWrite (s : State) (ctx n va : Nat) (b : List Byte) : State × Bool :=
  match s.links.find? fun r => r.owner == .record ctx n with
  | some r => if r.done.isNone then (s, false) else ({ s with links := s.links.filter fun x => x.id != r.id }, true)
  | none =>
    let (s1, t) := if canonicalVa va && !inAperture va then s.translate ctx va else (s, .absent)
    match t with
    | .ok e =>
      if paClass (e.pa va) == .dram then ((s1.homeWrite (s1.asidOf ctx) va (e.pa va) b true).forward (e.pa va) b, true)
      else (s1.linkPost ctx (.record ctx n) 1 (e.pa va) 64 b, false)
    | _ => (s1, true)

/-- Whether the next record of a context is on its way over a link. -/
def State.recordPosted (s : State) (c : Ctx) : Bool := s.links.any fun r => r.owner == .record c.id c.fqWritten && r.done.isNone

/-- FAULT_RECORD_WRITE: the oldest held record of a context is written as record n, if a slot is free, and the notice names n
(R485). -/
def execEvFaultRecordWrite (ctx : Nat) (s : State) : Out :=
  match s.ctxOf ctx with
  | none => .next s
  | some c => match c.held with
    | [] => .next s
    | r :: rest =>
      let n := c.fqWritten
      if n ≥ c.fqConsumed + c.fqCap || s.unitWaits ctx true (c.fqBase + 64 * (n % c.fqCap)) 64 then .next s
      else
        let (s1, written) := s.recordWrite ctx n (c.fqBase + 64 * (n % c.fqCap)) r.bytes
        .next (if written then (s1.modCtx ctx fun x => { x with held := rest, fqWritten := n + 1 }).hol 0x20 ctx [n] [] else s1)

/-! ## Replies (R282, R485) -/

/-- The consumed count of a reply: it never falls. -/
def State.consume (s : State) (ctx consumed : Nat) : State :=
  s.modCtx ctx fun c => { c with fqConsumed := Nat.max c.fqConsumed consumed }

/-- Whether a thread is parked under a record: that of a source with a sequence number. -/
def Thread.parkedUnder (src seq : Nat) (th : Thread) : Bool :=
  match th.park with
  | some p => p.recorded && p.src == src && p.seq == seq
  | none => false

/-- The groups of a context that hold lanes parked under a record, with those lanes. -/
def State.parkedGroups (s : State) (ctx src seq : Nat) : List (Nat × Nat × List Nat) :=
  (List.range s.teams.length).flatMap fun tm => match s.teams[tm]? with
    | none => []
    | some t =>
      if t.ctx != ctx then []
      else (List.range t.groups.length).filterMap fun g => match t.groups[g]? with
        | none => none
        | some gr =>
          let ls := (List.range gr.threads.length).filter fun l => ((gr.threads[l]?).map (Thread.parkedUnder src seq)).getD false
          if ls.isEmpty then none else some (tm, g, ls)

/-- A group after the answer has named lanes of it: these are eligible from now on, and the group is tested for a meeting; of a team that is
out, the record is written again, and the test waits for the restore (03 R96). -/
def State.answered (s : State) (tm g : Nat) (ls : List Nat) : State :=
  if (s.team tm).cores.isEmpty then s.rewriteRecord tm
  else s.modGroup tm g fun gr => Group.release s.tick (gr.modLanes ls fun _ th => { th with age := s.tick })

/-- An answer to an outstanding record: `f` acts on each group it names; a team that is out returns to its level (R271). -/
def State.reply (s : State) (ctx src seq consumed : Nat) (f : State → Nat → Nat → List Nat → State) : State :=
  let s1 := s.consume ctx consumed
  let unread := ((s1.ctxOf ctx).map (·.held)).getD []
  if unread.any fun r => srcKey r.srcType r.srcNum == src && r.seq == seq then s1
  else (s1.parkedGroups ctx src seq).foldl (fun (st : State) (x : Nat × Nat × List Nat) =>
    let s2 := ((f st x.1 x.2.1 x.2.2).answered x.1 x.2.1 x.2.2).signal ctx
    if (s2.team x.1).watched then s2.modTeam x.1 Team.queue else s2) s1

/-- A lane unparked: at its PC, or for UNHANDLED at TPC. -/
def Thread.resume (th : Thread) : Thread :=
  match th.park with
  | some p => if p.unhandled then { ({ th with park := none } : Thread).moveTo th.tpc with fbuf := [] } else { th with park := none }
  | none => th

/-- FAULT_REPLY_RESUME. -/
def execEvFaultReplyResume (ctx src seq consumed : Nat) (s : State) : Out :=
  .next (s.reply ctx src seq consumed fun st tm g ls => st.modGroup tm g fun gr => gr.modLanes ls fun _ th => th.resume)

/-- A lane ended as EXIT ends it (R74). -/
def Thread.leave (th : Thread) : Thread := { th with park := none, exited := true, arrived := false, wait := none, fbuf := [], txn := none }

def State.exitLanes (s : State) (tm g : Nat) (ls : List Nat) : State :=
  s.modGroup tm g fun gr => gr.modLanes ls fun _ th => th.leave

/-- FAULT_REPLY_EXIT. -/
def execEvFaultReplyExit (ctx src seq consumed : Nat) (s : State) : Out := .next (s.reply ctx src seq consumed State.exitLanes)

/-- DELIVER for one group: PARK lanes enter the trap handler, or park with an UNHANDLED record where no handler takes the fault;
UNHANDLED lanes exit. -/
def State.deliver (s : State) (tm g : Nat) (ls : List Nat) : State :=
  match (s.teams[tm]?).bind fun t => (t.groups[g]?).map fun gr => (t, gr) with
  | none => s
  | some (t, gr) =>
    let tvec := s.tvecOf t
    let park (l : Nat) : Option Park := (gr.threads[l]?).bind (·.park)
    let trapped := ls.filter fun l => match gr.threads[l]?, park l with
      | some th, some p => !p.unhandled && t.delivers tvec th
      | _, _ => false
    let dead := ls.filter fun l => ((park l).map (·.unhandled)).getD false
    let left := ls.filter fun l => !trapped.contains l && !dead.contains l
    let addr := (((ls.head?).bind park).map (·.addr)).getD 0
    let pc := (((ls.head?).bind fun l => gr.threads[l]?).map (·.pc)).getD 0
    let s1 := (s.exitLanes tm g dead).modGroup tm g fun gr =>
      gr.modLanes trapped fun _ th => ({ th with park := none } : Thread).trapEnter tvec pc cNotPresent 0 addr
    if left.isEmpty then s1
    else
      let op : Op := { team := tm, grp := g, lanes := maskOf left, pc := pc, base := 0, sys := false, word := 0 }
      s1.parkLanes op true cNotPresent (left.map fun l => (l, addr))

/-- FAULT_REPLY_DELIVER. -/
def execEvFaultReplyDeliver (ctx src seq consumed : Nat) (s : State) : Out := .next (s.reply ctx src seq consumed State.deliver)

/-- FAULT_REPLY_ACK: slots freed, nothing named (R485). -/
def execEvFaultReplyAck (ctx consumed : Nat) (s : State) : Out := .next (s.consume ctx consumed)

end Sys2Proof.Machine
end

