-- ==== Sys2Proof/Machine/Placement.lean ====
section
/-! DEFINITION. The launch unit: HOL launches, input records, the levels, fitting, pre-emption, placement, the end of a team and of a
launch (10 R261 to R267, R272, R273, 13 R303 to R308, 18 R395), contexts and queues. -/

namespace Sys2Proof.Machine

open Sys2Proof

/-! ## Contexts, queues, launches over HOL (R225, R261, R262, R281, R283) -/

/-- A context as the control node creates it. -/
def Ctx.create (id asid fqBase fqCap saveBase saveSize clock : Nat) : Ctx :=
  { id := id, asid := asid, tvec := 0, tswap := 42000, wdt := 2100000000, ptroot := 0, pinbase := 0, fqBase := fqBase,
    fqCap := fqCap, fqWritten := 0, fqConsumed := 0, held := [], seqs := [], saveBase := saveBase, saveSize := saveSize,
    saveUsed := [], callIds := 1, watchdog := clock, stopped := false }

/-- CONTEXT_CREATE: the control node's values, the registers at their reset values. -/
def execEvContextCreate (ctx asid fqBase fqCap saveBase saveSize : Nat) (s : State) : Out :=
  let bad := (s.ctxOf ctx).isSome || decide (ctx ≥ 65536) || decide (asid ≥ 4096) || fqBase % 64 != 0 || decide (fqCap < 64) ||
    decide (fqCap > 65536)
  .next (if !s.plat.holUp || bad then s else
    { s with ctxs := s.ctxs ++ [Ctx.create ctx asid fqBase fqCap saveBase saveSize s.clock] })

/-- QUEUE_CREATE. -/
def execEvQueueCreate (ctx id depth : Nat) (s : State) : Out :=
  let bad := decide (id ≥ 1024) || decide (depth = 0) || decide (depth > 65535) || s.queues.any (·.id == id)
  .next (if !s.plat.holUp || bad then s else { s with queues := s.queues ++ [{ id := id, ctx := ctx, depth := depth, records := [] }] })

/-- QUEUE_DESTROY. -/
def execEvQueueDestroy (id : Nat) (s : State) : Out :=
  .next (if s.plat.holUp then { s with queues := s.queues.filter fun q => q.id != id } else s)

/-- READY is reported (R472, DESIGN CHOICE log 22: boot step 9). -/
def State.ready (s : State) : Bool := decide (s.boot.step ≥ 9)

/-- HOL_LAUNCH (R261, R473): NOT_READY before READY; else the code and the handle. -/
def execEvHolLaunch (ctx : Nat) (packet args : List Byte) (s : State) : Out :=
  .next (if !s.plat.holUp then s
    else if !s.ready then s.hol 0x02 ctx [0xff] []
    else
      s.takeLaunches (s.plat.inbox ++ [⟨ctx, none, packet, args⟩]))

/-- INPUT_QUEUE_POP (R262): the oldest record of the launch's input queue becomes its input. -/
def execEvInputQueuePop (handle : Nat) (s : State) : Out :=
  match s.launches.find? fun l => l.handle == handle with
  | none => .next s
  | some l =>
    if l.held || l.inq = 0xffff || l.input.isSome then .next s
    else match s.queueOf l.ctx l.inq with
      | none => .next s
      | some q => match q.records with
        | [] => .next s
        | r :: rest =>
          .next (((((s.setQueue { q with records := rest }).queueWake q.ctx q.id).modLaunch l.ctx handle fun x =>
            { x with input := some r })).signal l.ctx)

/-- Teams of a launch. -/
def Launch.total (l : Launch) : Nat := l.x * l.y * l.z

/-- Whether a launch may place a team (R262, R263). -/
def Launch.placing (l : Launch) : Bool := !l.held && decide (l.placed < l.total) && (l.inq == 0xffff || l.input.isSome)

/-! ## The save pool (R267, R283) -/

/-- The lowest offset, a multiple of 64, at which `n` bytes are free among ranges that stand in order. -/
def freeOffset (n size : Nat) : Nat → List (Nat × Nat) → Option Nat
  | a, [] => if a + n ≤ size then some a else none
  | a, (o, m) :: r => if a + n ≤ o then some a else freeOffset n size (Nat.max a (up64 (o + m))) r

/-- A range put in order. -/
def insertRange (x : Nat × Nat) : List (Nat × Nat) → List (Nat × Nat)
  | [] => [x]
  | y :: r => if x.1 ≤ y.1 then x :: y :: r else y :: insertRange x r

/-- `n` bytes of a context's save pool: their address. -/
def State.saveAlloc (s : State) (ctx n : Nat) : Option (State × Nat) :=
  match s.ctxOf ctx with
  | none => none
  | some c => (freeOffset n c.saveSize 0 c.saveUsed).map fun o =>
    (s.modCtx ctx fun c => { c with saveUsed := insertRange (o, n) c.saveUsed }, c.saveBase + o)

/-- The range that begins at an address given back. -/
def State.saveFree (s : State) (ctx addr : Nat) : State :=
  s.modCtx ctx fun c => { c with saveUsed := c.saveUsed.filter fun r => c.saveBase + r.1 != addr }

/-- A SAVE_POOL record (R281); `core` is that of a resident team. -/
def State.postSavePool (s : State) (ctx handle team core : Nat) : State :=
  s.post { s.record ctx 0 4 7 0 with handle := handle, team := team, core := core }

def spillSize (l : Launch) : Nat := l.groups * 256 * l.gw * 4

/-! ## The levels (R266, R272) -/

/-- The current priority of a team (R272). -/
def State.priority (s : State) (t : Team) : Nat :=
  match t.place with
  | .saved since _ _ _ =>
    let sw := Nat.max 1 (((s.ctxOf t.ctx).map (·.tswap)).getD 42000)
    let out := Nat.max 1 (s.clock - since)
    Nat.min 7 (t.prio + (out + sw - 1) / sw - 1)
  | _ => t.curPrio

/-- PRIORITY_AGEING: the current priority noted. -/
def execEvPriorityAgeing (team : Nat) (s : State) : Out :=
  .next (s.modTeam team fun t => { t with curPrio := s.priority t })

/-- What waits for a core: the next team of a launch, or a saved team. -/
inductive Waiting where
  | fresh (l : Launch)
  | saved (tm : Nat) (t : Team)
  deriving DecidableEq, Repr

/-- The place in a level: the launch's acceptance, then %team. -/
structure WaitKey where
  order : Nat
  index : Nat
  what : Waiting
  deriving DecidableEq, Repr

/-- Everything that waits at level `q`. -/
def State.waitingAt (s : State) (q : Nat) : List WaitKey :=
  let runs (ctx : Nat) : Bool := !((s.ctxOf ctx).map (·.stopped)).getD true
  let fresh := (s.launches.filter fun l => l.placing && l.prio == q && runs l.ctx).map fun l =>
    { order := l.order, index := l.placed, what := .fresh l : WaitKey }
  let orderOf (h : Nat) : Nat := ((s.launches.find? fun l => l.handle == h).map (·.order)).getD 0
  let back := (List.range s.teams.length).filterMap fun tm => match s.teams[tm]? with
    | some t => match t.place with
      | .saved _ _ held queued =>
        if queued && !held && s.priority t == q && runs t.ctx then
          some { order := orderOf t.handle, index := t.index, what := .saved tm t : WaitKey } else none
      | _ => none
    | none => none
  fresh ++ back

def WaitKey.before (a b : WaitKey) : Bool := if a.order != b.order then decide (a.order < b.order) else decide (a.index ≤ b.index)

/-- The head of a level. -/
def headOf : List WaitKey → Option WaitKey
  | [] => none
  | k :: r => match headOf r with
    | some x => if k.before x then some k else some x
    | none => some k

/-! ## Fitting (R234, R236, R307, R395) -/

/-- What a team asks of a core. -/
structure Ask1 where
  groups : Nat
  gw : Nat
  nregs : Nat
  scr : Nat
  mxs : Nat
  pair : Bool
  fusel1 : Bool
  deriving DecidableEq, Repr

def Launch.asks (l : Launch) : Ask1 :=
  { groups := l.groups, gw := l.gw, nregs := l.nregs, scr := l.scr, mxs := l.mxs, pair := l.pair, fusel1 := l.fusel1 }

def Team.asks (t : Team) : Ask1 :=
  { groups := t.groups.length, gw := t.gw, nregs := t.nregs, scr := t.pool.scrBanks, mxs := t.pool.mxsBanks, pair := t.pair,
    fusel1 := t.fusel1 }

/-- The groups of a request on core `core` when its team is placed at `base`. -/
def Ask1.groupsOn (a : Ask1) (base core : Nat) : Nat :=
  if a.pair then (if core = base then (a.groups + 1) / 2 else a.groups / 2) else a.groups

/-- The cores a team at `base` stands on. -/
def Ask1.cores (a : Ask1) (base : Nat) : List Nat := if a.pair then [base, base + 1] else [base]

/-- The cores of the cluster of a core. -/
def clusterOf (core : Nat) : List Nat := (List.range 4).map fun i => core / 4 * 4 + i

/-- Whether a cluster holds a team that satisfies `p`. -/
def State.clusterHas (s : State) (core : Nat) (p : Team → Bool) : Bool :=
  s.teams.any fun t => p t && t.cores.any fun c => c / 4 == core / 4

/-- The slots that the teams on some cores have. -/
def State.slotsOn (s : State) (cores : List Nat) : List Nat := (s.teams.filter fun t => t.cores.any cores.contains).map Team.slot

/-- A slot from 0 to 7 that no team on the cores has (13 R298), or, where the two cores of a pair have none in common, one that is free on
the first. -/
def State.freeSlot (s : State) (cores : List Nat) : Nat :=
  match (List.range 8).find? fun k => !(s.slotsOn cores).contains k with
  | some k => k
  | none => ((List.range 8).find? fun k => !(s.slotsOn (cores.take 1)).contains k).getD 0

/-- A slot cleared for a pair team: the team that has it on the second core takes another slot of that core (DESIGN CHOICE log 56). -/
def State.clearSlot (s : State) (cores : List Nat) (slot : Nat) : State :=
  match (List.range s.teams.length).find? fun i => (s.team i).cores.any cores.contains && (s.team i).slot == slot with
  | none => s
  | some i =>
    let t := s.team i
    let k := s.freeSlot t.cores
    let move (b : Bank) : Bank := if b.holder == .team && b.slot == slot then { b with slot := k } else b
    (t.cores.foldl (fun (st : State) (c : Nat) => st.modCore c fun x => { x with banks := x.banks.map move }) s).modTeam i fun t =>
      match t.place with
      | .resident c _ => { t with place := .resident c k }
      | _ => t

/-- The bank map of a core with a request granted: the store first, then SCR and MXS in the lowest runs that serve. -/
def State.grantOn (s : State) (a : Ask1) (base core slot : Nat) : Option Core :=
  let c := s.getCore core
  let need := storeBanks (s.demand core + a.groupsOn base core * a.nregs)
  if need - c.storeCount > c.freeCount then none
  else
    let c1 := c.setStore (Nat.max need c.storeCount)
    match if a.scr = 0 then some 0 else firstRun a.scr 0 c1.banks with
    | none => none
    | some i =>
      let c2 := if a.scr = 0 then c1 else c1.setBanks i a.scr (Bank.given .scr slot)
      match if a.mxs = 0 then some 0 else firstRun a.mxs 0 c2.banks with
      | none => none
      | some j => some (if a.mxs = 0 then c2 else c2.setBanks j a.mxs (Bank.given .mxs slot))

/-- The limits of a core, its banks apart: eight teams, 64 groups, 2,048 threads, HALTC, and fusion. -/
def State.roomOn (s : State) (a : Ask1) (base core : Nat) : Bool :=
  let c := s.getCore core
  let here := s.teams.filter fun t => t.cores.contains core
  let groups := (here.map fun t => t.groupsOn core).sum
  let threads := (here.map fun t => t.groupsOn core * t.gw).sum
  let g := a.groupsOn base core
  c.accepting && decide (here.length < 8) && decide (groups + g ≤ 64) && decide (threads + g * a.gw ≤ 2048) &&
    (if a.fusel1 then c.fused || !s.clusterHas core (fun _ => true) else !c.fused)

/-- Whether the controller of a core takes a placement: it does after the requests that have arrived (13 R309, DESIGN CHOICE log 56). -/
def Core.controllerFree (c : Core) : Bool := c.req.isNone && c.arrived.isEmpty

/-- Whether a request fits at `base`. -/
def State.fitsAt (s : State) (a : Ask1) (base : Nat) : Bool :=
  let cs := a.cores base
  (!a.pair || base % 2 == 0) && cs.all fun c =>
    decide (c < s.cores.length) && (s.getCore c).controllerFree && s.roomOn a base c && (s.grantOn a base c (s.freeSlot cs)).isSome

/-- Whether a request would fit at `base` by the number of free banks, wherever they lie; banks in DRAIN or MOVE are not free (13 R315). -/
def State.countsAt (s : State) (a : Ask1) (base : Nat) : Bool :=
  let enough (c : Nat) : Bool :=
    let k := s.openCore c
    decide (storeBanks (s.demand c + a.groupsOn base c * a.nregs) - k.storeCount + a.scr + a.mxs ≤ k.freeCount)
  (!a.pair || base % 2 == 0) && (a.cores base).all fun c => decide (c < s.cores.length) && s.roomOn a base c && enough c

/-- A range of a resident team moved to a lower run, if there is one (R307). -/
def Core.compactAt (c : Core) (k : Nat) : Core :=
  match c.banks[k]? with
  | none => c
  | some b =>
    if b.holder != .team || (k > 0 && (c.banks[k - 1]?).map (fun x => x.ofTeam b.slot b.role) == some true) then c
    else
      let n := (c.banks.filter fun x => x.ofTeam b.slot b.role).length
      match firstRun n 0 c.banks with
      | some i => if i + n ≤ k then (c.setBanks k n Bank.freed).setBanks i n (Bank.given b.role b.slot) else c
      | none => c

/-- COMPACTION of a core: every range that can go lower is moved down, one at a time in ascending order of banks, whether or not the placement
needs that one (R307 leaves open which ranges move and in which order, DESIGN CHOICE log 43; R138). -/
def Core.compact (c : Core) : Core := (List.range 48).foldl (fun (x : Core) (k : Nat) => x.compactAt k) c

/-- Whether the ranges of a core may move: no engine work of its teams is queued (R138). -/
def State.compactible (s : State) (core : Nat) : Bool :=
  (s.getCore core).controllerFree && s.teams.all fun t => !t.cores.contains core || t.eng.queue.isEmpty

def State.compactCores (s : State) (cs : List Nat) : State :=
  if cs.all s.compactible then cs.foldl (fun (t : State) (c : Nat) => (t.drainCore c).modCore c Core.compact) s else s

/-- The lowest core on which a request fits (any may be chosen, R266; DESIGN CHOICE log 57); none. -/
def State.placeFor (s : State) (a : Ask1) : Option Nat := (List.range s.cores.length).find? fun c => s.fitsAt a c

/-- The state with a core compacted on which the request then fits, and that core. The requests that wait there are tested first, the map
having changed (13 R312): if one begins, no core is left. -/
def State.placeCompact (s : State) (a : Ask1) : Option (State × Option Nat) :=
  match (List.range s.cores.length).find? fun c =>
      (!a.pair || c % 2 == 0) && (s.compactCores (a.cores c)).fitsAt a c with
  | some c =>
    let s1 := (s.compactCores (a.cores c)).mapChanged (a.cores c)
    some (s1, if s1.fitsAt a c then some c else none)
  | none => none

/-! ## Banks given and given back (R264, R303 to R306, R395) -/

/-- The L1s of a cluster written back, emptied, and fused or not (R395). -/
def State.setFused (s : State) (core : Nat) (on : Bool) : State :=
  (clusterOf core).foldl (fun (t : State) (c : Nat) => (t.drainCore c).modCore c fun x => { x with fused := on }) s

/-- The banks of a request granted on the cores at `base`: drained first (R304), every L1 of the cluster where it is fused (18 R395) or has to
be. -/
def State.grantBanks (s : State) (a : Ask1) (base slot : Nat) : State :=
  let s0 := s.clearSlot (a.cores base) slot
  let s1 := if a.fusel1 && !(s0.getCore base).fused then s0.setFused base true else s0
  (a.cores base).foldl (fun (t : State) (c : Nat) =>
    let t1 := (if (t.getCore c).fused then clusterOf c else [c]).foldl State.drainCore t
    match t1.grantOn a base c slot with
    | some x => t1.modCore c fun _ => x
    | none => t1) s1

/-- The banks of a team that leaves its cores given back, the store fitted, the cluster unfused after its last fused team, waiting
requests re-tested; `gone` is the team as it stands afterwards. -/
def State.freeBanks (s : State) (tm : Nat) (gone : Team → Team) : State :=
  let t := s.team tm
  let give (b : Bank) : Bank := if b.holder == .team && b.slot == t.slot then b.freed else b
  let stays (r : PoolReq) : Bool := !(r.team == tm && r.phase == .leave)
  let s1 := (s.modCores t.cores fun c => { c with banks := c.banks.map give, arrived := c.arrived.filter stays }).modTeam tm gone
  let s2 := t.cores.foldl (fun (x : State) (c : Nat) => x.fitStore c) s1
  let s3 := match t.cores with
    | c :: _ => if (s2.getCore c).fused && !s2.clusterHas c (·.fusel1) then s2.setFused c false else s2
    | [] => s2
  s3.mapChanged t.cores

/-! ## Pre-emption (R273) -/

/-- Whether a pool request of a team occupies the controllers of its cores: no save of the team begins meanwhile (13 R315). -/
def State.atRequest (s : State) (tm : Nat) : Bool := (s.team tm).cores.any fun c => ((s.getCore c).req.map (·.team)) == some tm

/-- A team as if it had left its cores, for the tests of fitting; banks in DRAIN or MOVE are not counted as saved, those of the team's own
request among them (13 R315). -/
def State.without (s : State) (tm : Nat) : State :=
  let t := s.team tm
  let give (b : Bank) : Bank := if b.holder == .team && b.slot == t.slot && !b.moving then b.freed else b
  let s0 := if s.atRequest tm then t.cores.foldl (fun (x : State) (c : Nat) => x.modCore c fun _ => { s.openCore c with req := none }) s else s
  let s1 := (s0.modCores t.cores fun c => { c with banks := c.banks.map give }).modTeam tm fun t => { t with place := .ended }
  let s2 := t.cores.foldl (fun (x : State) (c : Nat) => x.fitStore c) s1
  s2.modCores (match t.cores with
    | c :: _ => if s2.clusterHas c (·.fusel1) then [] else clusterOf c
    | [] => []) fun c => { c with fused := false }

/-- The teams that a pre-emption saves counted as gone; none where no such save is under way. -/
def State.withoutLeaving (s : State) : Option State :=
  let going := (List.range s.teams.length).filter fun tm => (s.team tm).leaving == some .preempt && !(s.team tm).cores.isEmpty
  if going.isEmpty then none else some (going.foldl State.without s)

/-- Whether team `a` is saved before team `b`: ascending priority, the most recently placed first. -/
def State.savedBefore (s : State) (a b : Nat) : Bool :=
  let x := s.team a; let y := s.team b
  if s.priority x != s.priority y then decide (s.priority x < s.priority y) else decide (x.placedAt ≥ y.placedAt)

/-- A team put in the order in which teams are saved. -/
def State.insertVictim (s : State) (a : Nat) : List Nat → List Nat
  | [] => [a]
  | b :: r => if s.savedBefore a b then a :: b :: r else b :: s.insertVictim a r

/-- The teams of lower current priority, none of them leaving already. -/
def State.lower (s : State) (q : Nat) : List Nat :=
  (List.range s.teams.length).filter fun tm =>
    let t := s.team tm
    t.leaving.isNone && !t.cores.isEmpty && decide (s.priority t < q)

/-- Of the teams of lower priority, those on the cores a request would take, in the order in which they are saved. -/
def State.victims (s : State) (cs low : List Nat) : List Nat :=
  (low.filter fun tm => (s.team tm).cores.any cs.contains).foldr s.insertVictim []

/-- The shortest run of victims after which the request fits at `base`, its banks counted (13 R315). -/
def State.savedFor (s : State) (a : Ask1) (base : Nat) : List Nat → List Nat → Option (List Nat)
  | done, [] => if s.countsAt a base then some done else none
  | done, v :: r => if s.countsAt a base then some done else (s.without v).savedFor a base (done ++ [v]) r

/-- Banks of the teams saved, and the highest priority among them. -/
def State.cost (s : State) (vs : List Nat) : Nat × Nat :=
  (((vs.map fun v => let t := s.team v; (t.pool.scrBanks + t.pool.mxsBanks) * t.cores.length).sum),
   (vs.map fun v => s.priority (s.team v)).foldl Nat.max 0)

/-- The cheapest core for pre-emption: the fewest banks saved, the lowest of the highest priorities, the lowest core. -/
def State.preemptFor (s : State) (a : Ask1) (q : Nat) : Option (List Nat) :=
  let low := s.lower q
  let options := if low.isEmpty then [] else (List.range s.cores.length).filterMap fun c =>
    if a.pair && c % 2 != 0 then none
    else match s.victims (a.cores c) low with
      | [] => none
      | v :: vs => match s.savedFor a c [] (v :: vs) with
        | some vs => if vs.isEmpty then none else some (s.cost vs, vs)
        | none => none
  let best (x : Option ((Nat × Nat) × List Nat)) (y : (Nat × Nat) × List Nat) : Option ((Nat × Nat) × List Nat) :=
    match x with
    | none => some y
    | some z => if y.1.1 < z.1.1 ∨ (y.1.1 = z.1.1 ∧ y.1.2 < z.1.2) then some y else some z
  (options.foldl best none).map (·.2)

/-! ## Placement (R264, R266, R267) -/

/-- The next team of a launch placed on `core`: its spill area, its banks, its state at the start. -/
def State.placeFresh (s : State) (l : Launch) (core : Nat) : Option State :=
  match s.saveAlloc l.ctx (spillSize l) with
  | none => none
  | some (s1, spill) =>
    let slot := s1.freeSlot (l.asks.cores core)
    let s2 := s1.grantBanks l.asks core slot
    let t := ({ Team.start .team l l.placed false with place := .resident core slot, placedAt := s2.clock, spillAt := spill } : Team).age s2.tick
    let s3 : State := match s2.teams.findIdx? fun x => x.kind == .team && x.handle == l.handle && x.index == l.placed with
      | some k => s2.modTeam k fun _ => t
      | none => { s2 with teams := s2.teams ++ [t] }
    some (((s3.modLaunch l.ctx l.handle fun x => { x with placed := x.placed + 1 }).signal l.ctx).mapChanged (l.asks.cores core))

/-- The SAVE_POOL record of a launch whose team cannot be placed, once (R267). -/
def State.placeRefused (s : State) (l : Launch) : State :=
  if l.poolRecord then s
  else (s.postSavePool l.ctx l.handle l.placed 0).modLaunch l.ctx l.handle fun x => { x with poolRecord := true }

/-- What the launch unit does next for the head of a level. -/
inductive Move where
  | none                                            -- it fits nowhere, and nothing can be saved for it
  | hold                                            -- teams that a pre-emption saves, or will save, will make room
  | compacted (s : State)                           -- a core was compacted, and a request that waited there has taken the room
  | place (s : State) (core : Nat)
  | save (teams : List Nat)

def State.moveFor (s : State) (a : Ask1) (q : Nat) : Move :=
  match s.placeFor a with
  | some c => .place s c
  | none => match s.placeCompact a with
    | some (s1, some c) => .place s1 c
    | some (s1, none) => .compacted s1
    | none =>
      if s.withoutLeaving.any fun s1 => (List.range s.cores.length).any (s1.countsAt a) then .hold
      else match s.preemptFor a q with
        | some vs => if vs.any s.atRequest then .hold else .save vs
        | none => .none

/-- Whether the save pool has room for the spill area of a launch's next team. -/
def State.spillFits (s : State) (l : Launch) : Bool := (s.saveAlloc l.ctx (spillSize l)).isSome

/-- The choice of the launch unit: the levels from 7 down, the head of each. -/
inductive Choice where
  | none
  | refuse (l : Launch)
  | fresh (s : State) (l : Launch) (core : Nat)
  | back (s : State) (tm : Nat) (core : Nat)
  | save (teams : List Nat)
  | compacted (s : State)

/-- The choice at level `q`, or at the levels below it. -/
def State.choose (s : State) : Nat → Choice
  | 0 => .none
  | q + 1 =>
    match headOf (s.waitingAt q) with
    | none => s.choose q
    | some k => match k.what with
      | .fresh l => match s.moveFor l.asks q with
        | .place s1 c => if s.spillFits l then .fresh s1 l c else if l.poolRecord then s.choose q else .refuse l
        | .save vs => .save vs
        | .compacted s1 => .compacted s1
        | .hold => .none
        | .none => s.choose q
      | .saved tm t => match s.moveFor t.asks q with
        | .place s1 c => .back s1 tm c
        | .save vs => .save vs
        | .compacted s1 => .compacted s1
        | .hold => .none
        | .none => s.choose q

/-- Teams told to leave for a pre-emption. -/
def State.preempt (s : State) (vs : List Nat) : State :=
  vs.foldl (fun (t : State) (v : Nat) => t.beginSave v .preempt) s

/-- PLACE_TEAM: the team at the head of the highest level that fits starts, or room is made for it. -/
def execEvPlaceTeam (s : State) : Out :=
  .next (match s.choose 8 with
    | .fresh s1 l c => (s1.placeFresh l c).getD s
    | .refuse l => s.placeRefused l
    | .save vs => s.preempt vs
    | .compacted s1 => s1
    | _ => s)

/-! ## The end of a team (R265) -/

/-- The tokens of a team released, drained and freed, and its waiting requests gone (R200, R201). -/
def State.endTokens (s : State) (tm : Nat) : State :=
  let mine := s.tokens.filter fun k => k.holder == some tm
  let s0 := if mine.isEmpty then s else s.releaseHolder tm
  let s1 := mine.foldl (fun (t : State) (k : Token) => (t.drainToken k).freeToken k) s0
  { s1 with tokens := s1.tokens.map fun k => { k with waiters := k.waiters.filter (· != tm) } }

/-- Whether the device still owes work that names a team's banks: copies, commands on its scratch that are not held, a pool request of its own. -/
def State.busyTeam (s : State) (tm : Nat) : Bool :=
  s.copies.any (·.team == tm) || s.cmds.any (fun c => c.team == tm && c.state == .queued && !c.scratch.isEmpty) || s.atRequest tm

/-- Whether a held command names a team's scratch: it has not completed, so the banks stay (R265, DEDUCED log 63; R211
leaves it out, for a save). -/
def State.heldOnScratch (s : State) (tm : Nat) : Bool := s.cmds.any fun c => c.team == tm && c.state == .held && !c.scratch.isEmpty

/-- The held commands of an ended team, none of which names its scratch, gone with their barriers' pins. -/
def State.dropHeld (s : State) (tm : Nat) : State :=
  let mine := s.cmds.filter fun c => c.team == tm && c.state == .held
  let s1 : State := { s with cmds := s.cmds.filter fun c => !(c.team == tm && c.state == .held) }
  mine.foldl (fun (t : State) (c : Cmd) => t.unpinBarrier c.ctx (barrierOf (blockBarrier c.block)) c.barPa) s1

def Team.allExited (t : Team) : Bool := t.groups.all fun g => g.threads.all (·.exited)

/-- Whether every thread of a team has exited and the device owes it nothing. -/
def State.overNow (s : State) (tm : Nat) : Bool :=
  let t := s.team tm
  t.allExited && t.eng.queue.isEmpty && !s.busyTeam tm && !s.heldOnScratch tm

/-- The WATCHDOG record once no team of a stopped context is still to be saved (R276). -/
def State.watchdogPost (s : State) (ctx : Nat) : State :=
  if s.teams.any fun t => t.ctx == ctx && t.leaving == some .watchdog then s
  else s.post (s.record ctx cWatchdog 3 7 0)

/-- TEAM_END; a team that the watchdog was about to save ends instead (R276). Its banks go when the controllers of its cores come to it (R309). -/
def execEvTeamEnd (team : Nat) (s : State) : Out :=
  let t := s.team team
  match t.kind, t.place with
  | .team, .resident _ _ =>
    if !s.overNow team then .next s
    else if !s.leaveTurn team then .next (s.queueLeave team)
    else
      let s1 := (s.endTokens team).dropHeld team
      let s2 := s1.freeBanks team fun t => { t with place := .ended, leaving := none }
      let s3 : State := { s2 with loads := s2.loads.filter fun d => d.team != team, landed := s2.landed.filter fun x => x.copy.team != team }
      let s4 := ((s3.saveFree t.ctx t.spillAt).modLaunch t.ctx t.handle fun l => { l with ended := l.ended + 1, finished := s.tick }).signal t.ctx
      .next (if t.leaving == some .watchdog then s4.watchdogPost t.ctx else s4)
  | _, _ => .next s

/-! ## Completion (R262) -/

/-- The release at SYS scope of what a launch's teams stored: their held WO stores, the context's dirty words, update-only copies
and FREDs. -/
def State.completeRelease (s : State) (l : Launch) : State :=
  let asid := s.asidOf l.ctx
  let s1 := (List.range s.teams.length).foldl (fun (st : State) (tm : Nat) =>
    match st.teams[tm]? with
    | some t =>
      if t.kind == .team && t.handle == l.handle then
        (List.range t.groups.length).foldl (fun (x : State) (g : Nat) =>
          (List.range t.gw).foldl (fun (y : State) (k : Nat) => y.releaseWo tm g k) x) st
      else st
    | none => st) s
  let s2 := s1.promote l.ctx
  let s3 := (List.range s2.cores.length).foldl (fun (t : State) (c : Nat) =>
    if (t.getCore c).upd.any (·.asid == asid) then t.sendUpdates c fun u => u.asid == asid else t) s2
  (s3.mem.freds.filter fun f => f.ctx == l.ctx).foldl (fun (t : State) (f : PendingFred) => t.fredsDue f.pa) s3

/-- Whether every team of a launch has ended. -/
def Launch.isOver (l : Launch) : Bool := !l.held && decide (l.ended ≥ l.total)

/-- Whether the output queue of a launch has no place. -/
def State.outputFull (s : State) (l : Launch) : Bool :=
  l.outq != 0xffff && ((s.queueOf l.ctx l.outq).map fun q => decide (q.records.length ≥ q.depth)).getD false

/-- Whether a launch that ended before this one pushes to its queue, or sends its message, first (R277); one that waits for a place in another queue
is complete only then (R262). -/
def State.launchBehind (s : State) (l : Launch) : Bool :=
  s.launches.any fun m => m.isOver && decide (m.finished < l.finished) &&
    (l.outq != 0xffff && m.ctx == l.ctx && m.outq == l.outq || l.viaHol && m.viaHol && !s.outputFull m)

/-- LAUNCH_COMPLETE: every team has ended; the release, its acknowledgements, the output record, the message, the end. -/
def execEvLaunchComplete (handle : Nat) (s : State) : Out :=
  match s.launches.find? fun l => l.handle == handle with
  | none => .next s
  | some l =>
    if !l.isOver || s.launchBehind l then .next s
    else
      let s1 := s.completeRelease l
      if s1.linksDue l.ctx then .next s1
      else
        let out := if l.outq = 0xffff then none else s1.queueOf l.ctx l.outq
        if s1.outputFull l then .next s1
        else
          let s2 := match out with
            | some q => (s1.queuePush q (bytesOf 4 l.handle ++ bytesOf 4 l.total ++ bytesOf 8 0)).signal l.ctx
            | none => s1
          let old (t : Team) : Team := if t.kind == .team && t.handle == handle then { t with handle := 0 } else t
          let s3 : State := { s2 with launches := s2.launches.filter fun x => x.handle != handle, teams := s2.teams.map old }
          .next (if l.viaHol then s3.hol 0x03 l.ctx [l.handle, l.total] [] else s3)

/-! ## Cores (R227, R317) -/

/-- CORE_REENABLE. -/
def execEvCoreReenable (core : Nat) (s : State) : Out := .next (s.modCore core fun c => { c with accepting := true })

/-- OCCUPANCY_READ. -/
def execEvOccupancyRead (core : Nat) (s : State) : Out :=
  .next (if s.plat.holUp then s.hol 0x31 0 [2, core, (s.occupancy core).toNat] [] else s)

end Sys2Proof.Machine
end

