-- ==== Sys2Proof/Machine/Saves.lean ====
section
/-! DEFINITION. Wait-swap, saves, restores, the deadlock watchdog, CONTINUE and KILL (10 R268 to R276, R283, 15 R360). -/

namespace Sys2Proof.Machine

open Sys2Proof

/-! ## Wait-swap (R268, R269) -/

/-- The start of a group's wait and the TSWAP it measures against: those of the thread that began to wait last. None when a thread
of the group does not wait; a group whose threads have all exited has waited for ever. -/
def Group.waited (g : Group) : Option (Nat × Nat) :=
  g.threads.foldl (fun (x : Option (Nat × Nat)) (th : Thread) =>
    if th.exited then x
    else match x with
      | none => none
      | some (since, sw) => if !th.waiting then none else if th.waitSince ≥ since then some (th.waitSince, th.waitSwap) else some (since, sw))
    (some (0, 0))

/-- Whether a group has waited longer than its TSWAP. -/
def Group.waitedOut (clock : Nat) (g : Group) : Bool :=
  match g.waited with
  | some (since, sw) => decide (clock - since > sw)
  | none => false

/-- Whether the condition of some thread's wait holds: that thread is not waiting (R268). -/
def Group.stirring (g : Group) : Bool := g.threads.any fun th => !th.exited && th.stirred

/-- Whether a resident team is due for a wait-swap. -/
def State.swapDue (s : State) (t : Team) : Bool :=
  t.kind == .team && t.leaving.isNone && !t.cores.isEmpty && !t.allExited && !t.groups.any Group.stirring &&
    t.groups.all (Group.waitedOut s.clock)

/-- WAIT_SWAP_TIMEOUT: the team's save begins, and its requeue watch is armed; a waiting SHRINK requeues it at once (R271). -/
def execEvWaitSwapTimeout (team : Nat) (s : State) : Out :=
  let t := s.team team
  let shrink := t.groups.any fun g => g.threads.any fun th => th.wait == some .poolShrink
  .next (if s.swapDue t then s.beginSave team (.swap shrink) else s)

/-! ## The save (R270) -/

/-- Whether a lane may still issue when its team is leaving: it goes on with an access over a link (R202). -/
def Team.goesOn (t : Team) (g l : Nat) : Bool := (((t.groups[g]?).bind (·.threads[l]?)).map Thread.eligible).getD false

/-- Whether a team that is leaving has reached the point of R202 and R211: loads and copies landed, no atomic part-performed, no
command on its scratch, the engine at a split point, no pool request at work on its cores. -/
def State.quiet (s : State) (tm : Nat) : Bool :=
  let t := s.team tm
  !s.loads.any (·.team == tm) && !s.busyTeam tm && t.eng.atSplit && !s.links.any fun r => match r.owner with
    | .lane team g l => team == tm && t.goesOn g l
    | _ => false

/-- Every open transaction of a team aborted with PREEMPT (R192). -/
def State.abortAll (s : State) (tm : Nat) : State :=
  let t := s.team tm
  (List.range t.groups.length).foldl (fun (st : State) (g : Nat) =>
    ((List.range t.gw).foldl (fun (x : State) (l : Nat) => x.abortLane tm g l 8 0) st).modGroup tm g (Group.release s.tick)) s

/-- What its threads have begun and will begin again after the restore withdrawn: reads over a link, changes of an attribute that wait, launches
that wait (R202). -/
def State.withdraw (s : State) (tm : Nat) : State :=
  let read (r : LinkReq) : Bool := (r.kind == 0 || r.kind == 5) && match r.owner with
    | .lane team _ _ => team == tm
    | .packet (some (team, _, _)) _ => team == tm
    | _ => false
  let lane (m : HeldPacket) : Bool := (m.who.map (·.1)) == some tm
  let s1 : State := { s with links := s.links.filter fun r => !read r,
                             plat := { s.plat with inbox := s.plat.inbox.filter fun m => !lane m } }
  s1.dropMarks fun m => m.team == tm && m.grp != migLane

/-- Steps 4 and 5: IP words of the team's tokens to home, and the dirty RC words of the context's ASID. -/
def State.saveCaches (s : State) (tm : Nat) : State :=
  let t := s.team tm
  let asid := s.asidOf t.ctx
  let s1 := (s.tokens.filter fun k => k.holder == some tm).foldl (fun (st : State) (k : Token) => st.drainToken k) s
  (t.cores.flatMap (l1Set t)).foldl (fun (st : State) (c : Nat) => st.l1Write c (fun w => w.asid == asid && w.dirty && !w.ip) false) s1

/-- Room for the arrivals that commands and calls may still owe to a team's scratch while it is out (R211, DESIGN CHOICE log 23). -/
def State.owed (s : State) (tm : Nat) : Nat :=
  let n := (s.cmds.filter fun c => c.team == tm && c.state != .done).length + (s.calls.filter fun c => c.caller == tm).length
  up64 (32 * n)

/-- The flag plane of a team's tile storage: 512 bytes for a bank, those of a pair's upper half behind those of the lower (15 R357; DESIGN
CHOICE log 58). -/
def TeamPool.plane (p : TeamPool) (pair : Bool) : List Byte :=
  let half (first : Nat) : List Byte := (List.range (512 * p.mxsBanks)).map fun k =>
    BitVec.ofNat 8 (((List.range 8).map fun j => if p.flags.contains (first + 8 * k + j) then 2 ^ j else 0).sum)
  half 0 ++ if pair then half (halfMxs / 2) else []

/-- The flags that a plane's bytes set. -/
def planeFlags (first : Nat) (b : List Byte) : List Nat :=
  (b.mapIdx fun k x => ((List.range 8).filter fun j => x.getLsbD j).map fun j => first + 8 * k + j).flatten

/-- Bytes of a team's flag plane, both halves of a pair's. -/
def Team.planeLen (t : Team) : Nat := (if t.pair then 1024 else 512) * t.pool.mxsBanks

/-- The plane written to the start of the team's spill area (15 R357), whole: that of a pair team may be longer than its area, and goes on behind
it (DESIGN CHOICE log 58). -/
def State.savePlane (s : State) (tm : Nat) : State :=
  let t := s.team tm
  let b := t.pool.plane t.pair
  s.unitWrite t.ctx (pagePieces t.spillAt b.length) b

/-- The bytes of what has been read of pieces, with undefined ones where a piece cannot be read. -/
def State.readOr (s : State) : List (Nat × LinkState) → State × List Byte
  | [] => (s, [])
  | (n, x) :: r =>
    let (s1, b) := match x with
      | .answered b => (s, b)
      | _ => (s.freeBytes n).swap
    let (s2, b2) := s1.readOr r
    (s2, b ++ b2)

/-- The plane put back from what has been read of it; the flags of a line that cannot be read are undefined. -/
def State.restorePlane (s : State) (tm : Nat) (xs : List LinkState) : State :=
  let t := s.team tm
  let n := 512 * t.pool.mxsBanks
  let (s1, b) := s.readOr ((piecesOf t.spillAt t.planeLen).zipWith (fun p x => (p.2, x)) xs)
  if n = 0 then s
  else s1.modPool tm fun p => { p with flags := planeFlags 0 (b.take n) ++ planeFlags (halfMxs / 2) (b.drop n) }

/-! ## Lines of a record that cannot be corrected (00 R13; DESIGN CHOICE log 23) -/

/-- Where the sections of a record begin: the registers, the SCR image, the slot tags, the MXS image, and what follows that (R283). -/
structure Sections where
  regs : Nat
  scr : Nat
  tags : Nat
  mxs : Nat
  rest : Nat
  deriving DecidableEq, Repr

def Team.sections (t : Team) : Sections :=
  let k := if t.pair then 2 else 1
  let regs := 256 + (pad64 (cregMarks 0 t.cregs)).length + up64 (16 * t.groups.length) + 64 * (t.groups.map (·.threads.length)).sum
  let scr := regs + up64 t.registerBytes.length
  let tags := scr + 8192 * k * t.pool.scrBanks
  let mxs := tags + 64 * k * t.pool.scrBanks
  { regs := regs, scr := scr, tags := tags, mxs := mxs, rest := mxs + 8192 * k * t.pool.mxsBanks }

/-- The offset in a section's image of an address of a pool whose upper half begins at `half`, and back; a core has `per` bytes of it. -/
def imageOff (half per a : Nat) : Nat := if a < half then a else per + (a - half)
def imageAt (half per o : Nat) : Nat := if o < per then o else half + (o - per)

/-- The lines of a team's record, by their offsets, that hold a word in error of its scratch or tile storage: they are written with a code that
fails. -/
def Team.failing (t : Team) : List Nat :=
  let x := t.sections
  (t.pool.scrErrs.map (fun w => (x.scr + imageOff halfScr (8192 * t.pool.scrBanks) w) / 64 * 64) ++
    t.pool.mxsErrs.map fun w => (x.mxs + imageOff halfMxs (8192 * t.pool.mxsBanks) w) / 64 * 64).eraseDups

/-- A line of a context made to fail its check: in memory, or on its way over a link. -/
def State.failLine (s : State) (ctx va : Nat) : State :=
  match s.translate ctx va with
  | (s1, .ok e) =>
    let pa := e.pa va / 64 * 64
    if paClass pa == .dram then
      let s2 := s1.homeLine 4096 pa pa
      match dramAt s2.mem pa with
      | some k => s2.setMem { s2.mem with lineErrs := (k / 64 * 64, failingCode) :: s2.mem.lineErrs.filter fun e => e.1 != k / 64 * 64 }
      | none => s2
    else { s1 with links := s1.links.map fun r => if r.owner == .device (va / 64 * 64) && r.kind == 1 && r.done.isNone then { r with poison := true } else r }
  | (s1, _) => s1

/-- The registers of a team that a line of its record at offset `o` holds in part, marked in every lane (06 R166). -/
def Team.markRegs (t : Team) (o : Nat) : Team :=
  let lost : List Mark := (List.range t.gw).map fun l => { lane := l, cause := cUncorrectable, addr := BitVec.ofNat 64 (t.recordAt + o) }
  let reg (r : Nat × List VReg) (v : VReg) : Nat × List VReg :=
    let n := (v.recordBytes t.gw).length
    (r.1 + n, r.2 ++ [if r.1 < o + 64 ∧ o < r.1 + n then { v with marks := lost, empty := maskOf (List.range t.gw) } else v])
  let group (r : Nat × List Group) (g : Group) : Nat × List Group :=
    let x := g.regs.foldl reg (r.1, [])
    (x.1, r.2 ++ [{ g with regs := x.2 }])
  { t with groups := (t.groups.foldl group (t.sections.regs, [])).2 }

/-- A team whose record has lost lines, by their offsets, in the sections of its registers, scratch and tile storage: what they held is in error. -/
def Team.damaged (t : Team) (lost : List Nat) : Team :=
  let x := t.sections
  let words (lo hi half per : Nat) : List Nat := (lost.filter fun o => decide (lo ≤ o) && decide (o < hi)).flatMap fun o =>
    (List.range 16).map fun k => imageAt half per (o - lo + 4 * k)
  let t1 := (lost.filter fun o => decide (x.regs ≤ o) && decide (o < x.scr)).foldl Team.markRegs t
  let p := t.pool
  { t1 with pool := { p with scrErrs := (words x.scr x.tags halfScr (8192 * p.scrBanks) ++ p.scrErrs).eraseDups,
                             mxsErrs := (words x.mxs x.rest halfMxs (8192 * p.mxsBanks) ++ p.mxsErrs).eraseDups } }

/-- Whether a line of a record lies in one of those sections. -/
def Sections.holds (x : Sections) (o : Nat) : Bool := (decide (x.regs ≤ o) && decide (o < x.tags)) || (decide (x.mxs ≤ o) && decide (o < x.rest))

/-- A team as its save leaves it. -/
def Team.savedNow (t : Team) (clock : Nat) : Team :=
  let (pre, held, woken) := match t.leaving with
    | some .preempt => (true, false, true)
    | some (.swap w) => (false, false, w)
    | _ => (false, true, false)
  { t with place := .saved clock pre held (woken && !held), leaving := none, savePrio := t.curPrio }

/-- A save given up: the team resumes, its waits measured anew (DESIGN CHOICE log 23); one the watchdog stopped stays without issuing (R276). -/
def Team.resumed (t : Team) (clock : Nat) : Team :=
  match t.leaving with
  | some .watchdog => { t with leaving := some .stopped }
  | _ =>
    { t with leaving := none,
             groups := t.groups.map fun g => { g with threads := g.threads.map fun th => { th with waitSince := clock } } }

/-- TEAM_SAVE: steps 2 to 8, or the save given up with a SAVE_POOL record. It waits while a channel does not take the record (22 R456). -/
def execEvTeamSave (team : Nat) (s : State) : Out :=
  let t0 := s.team team
  if t0.cores.isEmpty || t0.leaving.isNone || t0.leaving == some .stopped || !s.quiet team then .next s
  else if !s.leaveTurn team then .next (s.queueLeave team)
  else
    let watchdog := t0.leaving == some .watchdog
    let s1 := ((s.abortAll team).withdraw team).saveCaches team
    let t := (s1.team team).savedNow s1.clock
    let (eng, s2) := s1.freeBytes (64 * t.eng.queue.length)
    let b := t.recordBytes halfScr halfMxs ++ eng
    .next (match s2.saveAlloc t.ctx (up64 b.length + s2.owed team) with
      | none =>
        let s3 := (((s2.dropRequests team).postSavePool t.ctx t.handle t.index (t0.cores.headD 0)).modTeam team fun t => t.resumed s2.clock).takeNext t0.cores
        if watchdog then s3.watchdogPost t.ctx else s3
      | some (s3, addr) =>
        if s3.unitWaits t.ctx true addr b.length || s3.unitWaits t.ctx true t.spillAt t.planeLen then s else
        let s4 := (t.failing.foldl (fun (st : State) (o : Nat) => st.failLine t.ctx (addr + o))
          (s3.unitWrite t.ctx (pagePieces addr b.length) b)).savePlane team
        let s5 := s4.freeBanks team fun t => { t.savedNow s1.clock with recordAt := addr, saved := b }
        if watchdog then s5.watchdogPost t.ctx else s5)

/-! ## The restore (R274) -/

/-- The arrivals recorded while the team was out, performed on its scratch in order (R211). -/
def State.performArrivals (s : State) (tm : Nat) : State :=
  let s1 := (s.team tm).arrivals.foldl (fun (st : State) (p : PendingArrival) => st.agentScratch tm p.off p.step) s
  s1.modTeam tm fun t => { t with arrivals := [] }

def freeWord (n : Nat) : Nat := natOf ((List.range 8).map fun j => Config.freeByte (n + j))

/-- A register with an undefined shape, undefined words and undefined marks, from the n-th undefined byte on: what any record of R286 may hold. -/
def freeReg (gw n at_ : Nat) : VReg :=
  let w (k : Nat) : Word := BitVec.ofNat 32 (freeWord (n + 8 * k))
  let marked (l : Nat) : Bool := (w 2).getLsbD 2 && (freeWord (n + 24 + l) % 2 == 1)
  { shape := match freeWord (n + 16) % 4 with
      | 0 => .u (w 0)
      | 1 => .a (w 0) (w 1)
      | _ => .g ((List.range gw).map fun l => BitVec.ofNat 32 (freeWord (n + 96 + 4 * l))),
    empty := maskOf ((List.range gw).filter marked),
    marks := ((List.range gw).filter marked).map fun l => { lane := l, cause := cUncorrectable, addr := BitVec.ofNat 64 at_ } }

/-- A common register with an undefined value and an undefined mark of R249, which leaves it empty. -/
def freeCreg (n : Nat) : CReg :=
  let marked := freeWord n % 2 == 1
  { val := BitVec.ofNat 32 (freeWord (n + 8)), empty := marked,
    mark := if marked then some (if freeWord (n + 16) % 2 = 0 then cUncorrectable else cMisdirected, BitVec.ofNat 64 (freeWord (n + 24))) else none }

/-- A tile register with an undefined shape and place: any tile that the team may have, or none (R283). -/
def Team.freeTile (t : Team) (num n : Nat) : Option Tile :=
  let w := BitVec.ofNat 32 (freeWord n)
  let off := 128 * (freeWord (n + 8) % 2 ^ 13)
  if shapeOk w && t.mxsIn off (tileBytes w) then some { num := num, shape := w, off := off } else none

/-- A memory with undefined bytes from `first` on. -/
def freeMem (m : Mem) (n first len : Nat) : Mem := memWrite m first ((List.range len).map fun k => Config.freeByte (n + k))

/-- Bits of undefined slot tags from `first` on. -/
def freeTags (n first len : Nat) : List Nat := ((List.range len).filter fun k => (Config.freeByte (n + k)).getLsbD 0).map (first + ·)

/-- The engine's state that a record holds, undefined (R283). -/
def TeamEng.scrambled (t : Team) (n : Nat) (e : TeamEng) : TeamEng :=
  let m := BitVec.ofNat 32 (freeWord n % 128)
  let w := BitVec.ofNat 32 (freeWord (n + 8))
  { e with mcr := if m.extractLsb' 0 3 = 7 ∨ m.extractLsb' 3 3 = 7 then 0 else m,
           mfx := BitVec.ofNat 32 (freeWord (n + 16) % 64), egen := srSeed (BitVec.ofNat 32 (freeWord (n + 24))),
           seq := srSeed (BitVec.ofNat 32 (freeWord (n + 32))),
           tiles := e.tiles.mapIdx fun k _ => t.freeTile k (n + 64 + 16 * k),
           latch := if shapeOk w then some { shape := w, data := freeMem [] (n + 2 ^ 16) 0 (tileBytes w) } else none,
           latchIssued := if shapeOk w then some { num := 0, shape := w, off := 0 } else none }

/-- A thread's state that a record holds, undefined: from the n-th undefined byte on (R283). Of a thread that the record calls parked or waiting, the
park or wait is the one the device knows, where it knows one (DESIGN CHOICE log 23). -/
def Thread.scrambled (nregs n : Nat) (x : Thread) : Thread :=
  let at_ (k : Nat) : Nat := freeWord (n + 8 * k)
  let flag (k : Nat) : Bool := (at_ 9).testBit k
  { x with pc := BitVec.ofNat 64 (at_ 0 / 4 * 4), meet := BitVec.ofNat 64 (at_ 1), tpc := BitVec.ofNat 64 (at_ 2),
           taddr := BitVec.ofNat 64 (at_ 3), tcause := BitVec.ofNat 32 (at_ 4), fx := BitVec.ofNat 32 (at_ 5 % 64),
           rng := srSeed (BitVec.ofNat 32 (at_ 6)), exited := flag 0, arrived := flag 1, park := if flag 2 then x.park else none, sys := flag 3,
           wait := if flag 4 then x.wait else none, base := 8 * (at_ 7 % ((nregs - 96) / 8 + 1)), capTags := BitVec.ofNat 64 (at_ 8), fbuf := [],
           wo := x.wo.mapIdx fun k w => { w with data := w.data.mapIdx fun j _ => Config.freeByte (n + 128 + 16 * k + j) } }

/-- A role of R258 from a number. -/
def freeRole (n : Nat) : Role :=
  match n % 4 with
  | 1 => .copy
  | 2 => .matrix
  | 3 => .vector
  | _ => .general

/-- A team whose record software has written: undefined values in its state (R283). What the record says of the held stores' addresses, of arrivals
and of the engine's queue is kept, and a word in error stays so (DESIGN CHOICE log 23). -/
def Team.scrambled (t : Team) (n : Nat) : Team :=
  let group (g : Nat) (x : Group) : Group :=
    let c := freeWord (n + 2 ^ 36 + 8 * g) % 16
    { x with gcr := if c % 8 = 7 then 0 else BitVec.ofNat 32 c, role := freeRole (freeWord (n + 2 ^ 37 + 8 * g)),
             regs := x.regs.mapIdx fun i _ => freeReg t.gw (n + 2 ^ 44 + (g * 256 + i) * 512) t.recordAt,
             threads := x.threads.mapIdx fun l th => th.scrambled t.nregs (n + 2 ^ 40 + (g * 64 + l) * 1024) }
  let both (half per k : Nat) : Mem :=
    let low := freeMem [] (n + k) 0 (8192 * per)
    if t.pair then freeMem low (n + k + 2 ^ 30) half (8192 * per) else low
  let p := t.pool
  { t with groups := t.groups.mapIdx group,
           cregs := t.cregs.mapIdx fun i _ => freeCreg (n + 32 * i),
           eng := t.eng.scrambled t (n + 2 ^ 34), cmdCounter := freeWord (n + 2 ^ 35) % (2 ^ 31 - 1) + 1,
           pool := { p with scr := both halfScr p.scrBanks (2 ^ 48), mxs := both halfMxs p.mxsBanks (2 ^ 50),
                            scrTags := freeTags (n + 2 ^ 52) 0 (512 * p.scrBanks) ++
                              if t.pair then freeTags (n + 2 ^ 53) (halfScr / 16) (512 * p.scrBanks) else [] } }

/-- A team back on a core: its waits are measured anew, its threads join the order of issue, their fetch buffers are empty. -/
def Team.back (t : Team) (core slot clock tick : Nat) (tswap : Nat) (prio : Nat) : Team :=
  { t with place := .resident core slot, placedAt := clock, leaving := none, curPrio := prio, saved := [], recordAt := 0,
           groups := t.groups.map fun g => { g with threads := g.threads.map fun th =>
             { th with age := tick, fbuf := [], unfenced := [], waitSince := clock, waitSwap := tswap, stirred := false, seen := none, needs := [], lot := none,
                       lotOpen := false } } }

/-- The frame addresses of a restored team's held WO stores, translated anew (R274, R283). -/
def State.woFrames (s : State) (tm : Nat) : State :=
  let t := s.team tm
  let at_ (w : WoStore) : WoStore := { w with pa := match (s.translate t.ctx w.va).2 with
    | .ok e => some (e.pa w.va)
    | _ => none }
  if t.groups.all fun g => g.threads.all fun th => th.wo.isEmpty then s
  else s.modTeam tm fun t => { t with groups := t.groups.map fun g => { g with threads := g.threads.map fun th => { th with wo := th.wo.map at_ } } }

/-- Whether a write of a team's record or plane is on its way over a link. -/
def State.savePosted (s : State) (tm : Nat) : Bool :=
  let t := s.team tm
  let inside (va lo n : Nat) : Bool := decide (lo ≤ va) && decide (va < lo + n)
  s.links.any fun r => r.ctx == t.ctx && match r.owner with
    | .device va => r.kind == 1 && (inside va t.recordAt t.saved.length || inside va t.spillAt t.planeLen)
    | _ => false

/-- The record and the plane of a team that is out, line by line, as far as they have come. -/
def State.fetchSaved (s : State) (tm : Nat) : State × List LinkState × List LinkState :=
  let t := s.team tm
  if s.savePosted tm then (s, [.pending], [])
  else
    let (s1, xs) := s.unitLines t.ctx (.saved tm) (piecesOf t.recordAt t.saved.length)
    let (s2, ys) := s1.unitLines t.ctx (.saved tm) (piecesOf t.spillAt t.planeLen)
    (s2, xs, ys)

/-- A team's state from what has been read of its record. As it was saved, where the lines that can be read are those of the save; what a line of
its registers, scratch or tile storage held that cannot be read is in error (00 R13). Undefined where software has written the record, or another
line of it cannot be read (R283, DESIGN CHOICE log 23). -/
def State.recall (s : State) (tm : Nat) (xs : List LinkState) : State :=
  let t := s.team tm
  let ps := (piecesOf t.recordAt t.saved.length).zip xs
  let lost := (ps.filter fun p => match p.2 with
    | .answered _ => false
    | _ => true).map fun p => p.1.1 - t.recordAt
  let same (p : (Nat × Nat) × LinkState) : Bool := match p.2 with
    | .answered b => b == (t.saved.drop (p.1.1 - t.recordAt)).take p.1.2 && !t.failing.contains (p.1.1 - t.recordAt)
    | _ => true
  let new := lost.filter fun o => !t.failing.contains o
  let s1 : State := if !t.saved.isEmpty && ps.all same && new.all t.sections.holds then s
    else { s.modTeam tm (fun t => t.scrambled s.freeCtr) with freeCtr := s.freeCtr + 2 ^ 60 }
  let mine (r : LinkReq) : Bool := match r.owner with
    | .saved x _ => x == tm
    | _ => false
  let s2 : State := { s1 with links := s1.links.filter fun r => !mine r }
  if new.isEmpty then s2 else s2.modTeam tm fun t => t.damaged new

/-- TEAM_RESTORE: the launch unit's choice is this team, whose record has been read. Every group is tested for a meeting (03 R96), and so are the
requests that wait on its cores, whose map has changed (13 R312). -/
def execEvTeamRestore (team : Nat) (s : State) : Out :=
  match s.choose 8 with
  | .back s1 tm core =>
    if tm ≠ team then .next s
    else if (s.fetchSaved tm).2.1.contains .pending || (s.fetchSaved tm).2.2.contains .pending then .next (s.fetchSaved tm).1
    else
      let t := s1.team tm
      let (s2, xs, ys) := s1.fetchSaved tm
      let s3 := s2.recall tm xs
      let slot := s3.freeSlot (t.asks.cores core)
      let s4 := (s3.grantBanks t.asks core slot).saveFree t.ctx t.recordAt
      let tswap := ((s4.ctxOf t.ctx).map (·.tswap)).getD 42000
      let s5 := s4.modTeam tm fun x => x.back core slot s4.clock s4.tick tswap (s.priority t)
      let s6 := (List.range t.groups.length).foldl (fun (st : State) (g : Nat) => st.acquireDev tm g) s5
      let s7 := ((s6.restorePlane tm ys).woFrames tm).performArrivals tm
      .next (((s7.releaseAll tm).signal t.ctx).mapChanged (t.asks.cores core))
  | .save vs => .next (s.preempt vs)
  | _ => .next s

/-! ## The watchdog (R276) -/

/-- Whether a thread of a context waits for an outside agent: WAITX, SLEEP, an EXTERNAL barrier, or parked. What an object beyond a link holds is
known from the read of its BWAIT (20 R428). -/
def State.outsideWait (s : State) (t : Team) (th : Thread) : Bool :=
  !th.exited && (th.park.isSome || match th.wait with
    | some (.wordSys _ _) => true
    | some (.sleep _) => true
    | some (.bwait va _) =>
      if inAperture va then (BarObj.ofBytes (memRead t.pool.scr (va - apBase) 16)).ext
      else match s.translate t.ctx va with
        | (s1, .ok e) => if paClass (e.pa va) != .dram then th.farExt
          else (BarObj.ofBytes ((s1.homeRead (s1.asidOf t.ctx) va (e.pa va) 16 false).2.bytes 16)).ext
        | _ => false
    | _ => false)

/-- Whether a context's counter stands at 0 in this cycle: no team of it is resident, or a thread of it waits for an outside agent. -/
def State.watchdogHeld (s : State) (c : Ctx) : Bool :=
  (!s.teams.any fun t => t.ctx == c.id && t.kind == .team && !t.cores.isEmpty) ||
    s.teams.any fun t => t.ctx == c.id && t.kind == .team && t.place != .ended && t.groups.any fun g => g.threads.any (s.outsideWait t)

/-- The counters of such contexts in the cycle that a step begins. -/
def State.noteWatchdogs (s : State) : State :=
  { s with ctxs := s.ctxs.map fun c => if s.watchdogHeld c then { c with watchdog := s.clock } else c }

/-- Whether the counter of a context has reached WDT. -/
def State.watchdogDue (s : State) (c : Ctx) : Bool := !c.stopped && decide (s.clock - c.watchdog ≥ c.wdt) && !s.watchdogHeld c

/-- WATCHDOG_EXPIRY: the context stops; its resident teams issue nothing and are saved. -/
def execEvWatchdogExpiry (ctx : Nat) (s : State) : Out :=
  match s.ctxOf ctx with
  | none => .next s
  | some c =>
    if !s.watchdogDue c then .next s
    else
      let stops (t : Team) : Bool := t.ctx == ctx && t.kind == .team && !t.cores.isEmpty
      let s1 := (List.range s.teams.length).foldl (fun (st : State) (k : Nat) => if stops (s.team k) then st.beginSave k .watchdog else st) s
      .next (s1.modCtx ctx fun x => { x with stopped := true })

/-- A team of a context that goes on. -/
def Team.continue (t : Team) : Team :=
  match t.place, t.leaving with
  | .saved c p true _, _ => { t with place := .saved c p false true }
  | _, some .watchdog => { t with leaving := none }
  | _, some .stopped => { t with leaving := none }
  | _, _ => t

/-- A save that does not happen any more gone from the requests of the team's cores, which take those that came after it (13 R309); the place
of a team that has ended stays. -/
def State.unqueueLeave (s : State) (tm : Nat) : State :=
  let cs := (s.team tm).cores
  if !s.leaveQueued tm || s.overNow tm then s
  else (s.modCores cs fun c => { c with arrived := c.arrived.filter fun r => !(r.team == tm && r.phase == .leave) }).takeNext cs

/-- CONTINUE. -/
def execEvContinue (ctx : Nat) (s : State) : Out :=
  .next (if !s.plat.holUp then s else
    let stopped := (List.range s.teams.length).filter fun k => (s.team k).ctx == ctx && (s.team k).leaving == some .watchdog
    let s1 := stopped.foldl State.unqueueLeave
      ({ s with teams := s.teams.map fun t => if t.ctx == ctx then t.continue else t } : State)
    (s1.modCtx ctx fun c => { c with stopped := false }).signal ctx)

/-- A migration given up: MIGR of the page under way is clear again. -/
def State.dropMigration (s : State) (c : Cmd) : State :=
  if c.kind ≠ 2 ∨ c.acc = [] then s
  else
    let (s1, r) := s.migPage c
    match r with
    | .ok m => s1.leafWrite m.leaf (m.entry &&& ~~~(1 <<< 63 : BitVec 64))
    | .error _ => s1

/-- A killed team's requests gone from a core, with the marks of a move under way. -/
def Core.forget (tm : Nat) (c : Core) : Core :=
  let c1 := { c with waiting := c.waiting.filter fun r => r.team != tm, arrived := c.arrived.filter fun r => r.team != tm }
  if (c.req.map (·.team)) == some tm then { c1 with req := none, banks := c1.banks.map fun b => { b with moving := false } } else c1

/-- Everything a killed team owns or owes goes: banks, tokens, areas, copies, commands, requests, pins and marks. -/
def State.killTeam (s : State) (tm : Nat) : State :=
  let t := s.team tm
  let mseqs := t.eng.queue.filterMap fun o => match o.kind with
    | .mseq b _ _ _ _ _ pa => some (barrierOf (blockBarrier b), pa)
    | _ => none
  let cmds := (s.cmds.filter fun c => c.team == tm && c.state != .done).map fun c => (barrierOf (blockBarrier c.block), c.barPa)
  let lots := (s.copies.filter fun c => c.team == tm).foldl (fun (l : List (Nat × Nat × Nat)) (c : Copy) =>
    if l.any (fun x => x.1 == c.lot) then l else (c.lot, c.barrier, c.barPa) :: l) []
  let bars := mseqs ++ cmds ++ lots.map fun x => (x.2.1, x.2.2)
  let pins := (s.cmds.filter fun c => c.team == tm).flatMap (·.pins)
  let s1 := bars.foldl (fun (st : State) (x : Nat × Nat) => st.unpinBarrier t.ctx x.1 x.2) (s.unpinAll t.ctx pins)
  let s1b := (s.cmds.filter fun c => c.team == tm).foldl State.dropMigration s1
  let s1c := s1b.dropMarks fun m => m.team == tm
  let s2 := (s1c.endTokens tm).modCores t.cores (Core.forget tm)
  let gone (t : Team) : Team := { t.stopAll with place := .ended, leaving := none, handle := 0, eng := { t.eng with queue := [] } }
  let s3 := if t.cores.isEmpty then s2.modTeam tm gone else s2.freeBanks tm gone
  let s4 := match t.place with
    | .resident _ _ => s3.saveFree t.ctx t.spillAt
    | .saved _ _ _ _ => (s3.saveFree t.ctx t.spillAt).saveFree t.ctx t.recordAt
    | _ => s3
  let mine (r : LinkReq) : Bool := match r.owner with
    | .lane team _ _ => team == tm
    | .cmd team _ => team == tm
    | .packet (some (team, _, _)) _ => team == tm
    | .saved team _ => team == tm
    | .copy id => s4.copies.any fun c => c.id == id && c.team == tm
    | _ => false
  { s4 with plat := { s4.plat with inbox := s4.plat.inbox.filter fun m => (m.who.map (·.1)) != some tm },
            loads := s4.loads.filter fun d => d.team != tm, landed := s4.landed.filter fun x => x.copy.team != tm, links := s4.links.filter fun r => !mine r,
            copies := s4.copies.filter fun c => c.team != tm, cmds := s4.cmds.filter fun c => c.team != tm }

/-- KILL: the context's launches end without completion records. -/
def execEvKill (ctx : Nat) (s : State) : Out :=
  if !s.plat.holUp then .next s
  else
    let s1 := (List.range s.teams.length).foldl (fun (st : State) (tm : Nat) =>
      let t := s.team tm
      if t.ctx == ctx && t.kind == .team && t.place != .ended then st.killTeam tm else st) s
    let s2 : State := { s1 with launches := s1.launches.filter fun l => l.ctx != ctx }
    .next ((s2.modCtx ctx fun c => { c with stopped := false }).signal ctx)

end Sys2Proof.Machine
end

