-- ==== Sys2Proof/Machine/Crypto.lean ====
section
/-! DEFINITION. The functions that the root of trust applies to images and reports (23 R470, R471, R475): SHA-256 and SHA-384, LMS verification for
SHA-256, M32, H15 and LM-OTS W4, ECDSA verification and signing on P-384. The spec names them; what they compute is PRESUMED from the standards of those names
(log 22). Words, points and integers in them have their most significant byte first. -/

namespace Sys2Proof.Machine

open Sys2Proof

/-! ## Bytes -/

/-- The number whose bytes stand most significant first. -/
def bigOf (b : List Byte) : Nat := natOf b.reverse

/-- `n` bytes of a number, most significant first. -/
def bigBytes (n v : Nat) : List Byte := (bytesOf n v).reverse

/-! ## The SHA-2 functions -/

/-- The first 80 primes. -/
def shaPrimes : List Nat :=
  (List.range 410).filter fun p => decide (2 ≤ p) && (List.range 21).all fun d => decide (d < 2) || decide (p ≤ d) || p % d != 0

/-- The largest number below `r + 2^bits` whose k-th power does not exceed `n`, for r^k at most n. -/
def rootFrom (k n : Nat) : Nat → Nat → Nat
  | 0, r => r
  | bits + 1, r => rootFrom k n bits (if (r + 2 ^ bits) ^ k ≤ n then r + 2 ^ bits else r)

/-- The first `w` bits behind the point of the k-th root of a number below 8^k. -/
def rootBits (w k p : Nat) : BitVec w := BitVec.ofNat w (rootFrom k (p * 2 ^ (k * w)) (w + 3) 0)

/-- The round constants: from the cube roots of the first primes, 64 of SHA-256 and 80 of SHA-384. -/
def shaKeys (w count : Nat) : List (BitVec w) := (shaPrimes.take count).map (rootBits w 3)

/-- The eight working words. -/
structure ShaState (w : Nat) where
  a : BitVec w
  b : BitVec w
  c : BitVec w
  d : BitVec w
  e : BitVec w
  f : BitVec w
  g : BitVec w
  h : BitVec w
  deriving DecidableEq, Repr

/-- The words before the first block: from the square roots of eight primes, the first eight for SHA-256 and the next eight for SHA-384. -/
def shaStart (w skip : Nat) : ShaState w :=
  let at_ (i : Nat) : BitVec w := rootBits w 2 ((shaPrimes[skip + i]?).getD 0)
  { a := at_ 0, b := at_ 1, c := at_ 2, d := at_ 3, e := at_ 4, f := at_ 5, g := at_ 6, h := at_ 7 }

/-- Three rotations of a word, or two and a shift, combined. -/
def rot3 (r : Nat × Nat × Nat) (x : BitVec w) : BitVec w := x.rotateRight r.1 ^^^ x.rotateRight r.2.1 ^^^ x.rotateRight r.2.2
def rotShift (r : Nat × Nat × Nat) (x : BitVec w) : BitVec w := x.rotateRight r.1 ^^^ x.rotateRight r.2.1 ^^^ (x >>> r.2.2)

/-- What SHA-256 and SHA-384 differ in: the round constants and the rotations of the rounds and of the schedule. -/
structure ShaKind (w : Nat) where
  keys : List (BitVec w)
  roundA : Nat × Nat × Nat
  roundE : Nat × Nat × Nat
  early : Nat × Nat × Nat
  late : Nat × Nat × Nat

def sha256Kind : ShaKind 32 := ⟨shaKeys 32 64, (2, 13, 22), (6, 11, 25), (7, 18, 3), (17, 19, 10)⟩
def sha384Kind : ShaKind 64 := ⟨shaKeys 64 80, (28, 34, 39), (14, 18, 41), (1, 8, 7), (19, 61, 6)⟩

/-- One round, with its constant and its word of the schedule. -/
def ShaState.round (k : ShaKind w) (key m : BitVec w) (x : ShaState w) : ShaState w :=
  let t := x.h + rot3 k.roundE x.e + ((x.e &&& x.f) ^^^ (~~~x.e &&& x.g)) + key + m
  let u := rot3 k.roundA x.a + ((x.a &&& x.b) ^^^ (x.a &&& x.c) ^^^ (x.b &&& x.c))
  { a := t + u, b := x.a, c := x.b, d := x.c, e := x.d + t, f := x.e, g := x.f, h := x.g }

/-- The next sixteen words of the schedule, one further. -/
def scheduleNext (k : ShaKind w) (ms : List (BitVec w)) : List (BitVec w) :=
  let at_ (i : Nat) : BitVec w := (ms[i]?).getD 0
  ms.drop 1 ++ [rotShift k.late (at_ 14) + at_ 9 + rotShift k.early (at_ 1) + at_ 0]

/-- The rounds over a list of constants. -/
def shaRounds (k : ShaKind w) : List (BitVec w) → List (BitVec w) → ShaState w → ShaState w
  | [], _, x => x
  | key :: r, ms, x => shaRounds k r (scheduleNext k ms) (x.round k key (ms.headD 0))

def ShaState.plus (x y : ShaState w) : ShaState w :=
  { a := x.a + y.a, b := x.b + y.b, c := x.c + y.c, d := x.d + y.d, e := x.e + y.e, f := x.f + y.f, g := x.g + y.g, h := x.h + y.h }

/-- The `n` words at the head of some bytes. -/
def shaWords (w : Nat) : Nat → List Byte → List (BitVec w)
  | 0, _ => []
  | n + 1, b => BitVec.ofNat w (bigOf (b.take (w / 8))) :: shaWords w n (b.drop (w / 8))

/-- `n` blocks of sixteen words taken in. -/
def shaBlocks (k : ShaKind w) : Nat → List Byte → ShaState w → ShaState w
  | 0, _, x => x
  | n + 1, b, x => shaBlocks k n (b.drop (2 * w)) (x.plus (shaRounds k k.keys (shaWords w 16 b) x))

/-- The padding of a message: a one bit, zeros, and the count of its bits in two words. -/
def shaPad (w : Nat) (b : List Byte) : List Byte :=
  b ++ [0x80] ++ List.replicate ((2 * w - (b.length + 1 + w / 4) % (2 * w)) % (2 * w)) 0 ++ bigBytes (w / 4) (8 * b.length)

def shaRun (k : ShaKind w) (start : ShaState w) (b : List Byte) : ShaState w :=
  let p := shaPad w b
  shaBlocks k (p.length / (2 * w)) p start

/-- SHA-256: 32 bytes. -/
def sha256 (b : List Byte) : List Byte :=
  let x := shaRun sha256Kind (shaStart 32 0) b
  [x.a, x.b, x.c, x.d, x.e, x.f, x.g, x.h].flatMap fun v => bigBytes 4 v.toNat

/-- SHA-384: 48 bytes. -/
def sha384 (b : List Byte) : List Byte :=
  let x := shaRun sha384Kind (shaStart 64 8) b
  [x.a, x.b, x.c, x.d, x.e, x.f].flatMap fun v => bigBytes 8 v.toNat

/-! ## LMS (R470): SHA-256, M32, H15, LM-OTS W4 -/

/-- The type codes of the two parts. -/
def lmsType : Nat := 7
def otsType : Nat := 3

/-- The 67 digits of a digest: its 64 halves of a byte, high one first, and three of the checksum. -/
def otsDigits (digest : List Byte) : List Nat :=
  let halves (b : List Byte) : List Nat := b.flatMap fun x => [x.toNat / 16, x.toNat % 16]
  let ds := halves digest
  let sum := (ds.map fun d => 15 - d).sum
  ds ++ (halves (bigBytes 2 (16 * sum))).take 3

/-- The rest of one hash chain from digit `d` on. -/
def otsChain (key : List Byte) (i : Nat) : Nat → Nat → List Byte → List Byte
  | 0, _, x => x
  | n + 1, d, x => otsChain key i n (d + 1) (sha256 (key ++ bigBytes 2 i ++ bigBytes 1 d ++ x))

/-- The candidate for a one-time public key: `key` is the identifier with the leaf number. -/
def otsCandidate (key c : List Byte) (y : List Byte) (message : List Byte) : List Byte :=
  let ds := otsDigits (sha256 (key ++ bigBytes 2 0x8181 ++ c ++ message))
  let ends := ds.mapIdx fun i d => otsChain key i (15 - d) d ((y.drop (32 * i)).take 32)
  sha256 (key ++ bigBytes 2 0x8080 ++ ends.flatten)

/-- The root above a node, by the nodes of a path. -/
def lmsRoot (ident : List Byte) : List (List Byte) → Nat → List Byte → List Byte
  | [], _, x => x
  | p :: r, node, x =>
    let both := if node % 2 = 1 then p ++ x else x ++ p
    lmsRoot ident r (node / 2) (sha256 (ident ++ bigBytes 4 (node / 2) ++ bigBytes 2 0x8383 ++ both))

/-- Whether an LMS signature of a message verifies under a public key: type, LM-OTS type, identifier and root. -/
def lmsVerify (pub message sig : List Byte) : Bool :=
  let part (b : List Byte) (off n : Nat) : List Byte := (b.drop off).take n
  let ident := part pub 8 16
  let q := bigOf (part sig 0 4)
  let ots := otsCandidate (ident ++ bigBytes 4 q) (part sig 8 32) (part sig 40 2144) message
  let leaf := sha256 (ident ++ bigBytes 4 (2 ^ 15 + q) ++ bigBytes 2 0x8282 ++ ots)
  let path := (List.range 15).map fun i => part sig (2188 + 32 * i) 32
  pub.length == 56 && sig.length == 2668 && bigOf (part pub 0 4) == lmsType && bigOf (part pub 4 4) == otsType &&
    bigOf (part sig 4 4) == otsType && bigOf (part sig 2184 4) == lmsType && decide (q < 2 ^ 15) &&
    lmsRoot ident path (2 ^ 15 + q) leaf == part pub 24 32

/-! ## ECDSA on P-384 (R470, R471) -/

/-- The field, the order of the base point, the curve y^2 = x^3 - 3x + b, and the base point. -/
def p384 : Nat := 2 ^ 384 - 2 ^ 128 - 2 ^ 96 + 2 ^ 32 - 1
def n384 : Nat := 0xffffffffffffffffffffffffffffffffffffffffffffffffc7634d81f4372ddf581a0db248b0a77aecec196accc52973
def b384 : Nat := 0xb3312fa7e23ee7e4988e056be3f82d19181d9c6efe8141120314088f5013875ac656398d8a2ed19d2a85c8edd3ec2aef
def base384 : Nat × Nat :=
  (0xaa87ca22be8b05378eb1c71ef320ad746e1d3b628ba79b9859f741e082542a385502f25dbf55296c3a545e3872760ab7,
   0x3617de4a96262c6f5d9e98bf9292dc29f8f41dbd289a147ce9da3113b5f0b8c00a60b1ce1d7e819d7a431d7c90ea0e5f)

/-- x^e modulo m, for e below 2^fuel. -/
def powMod (m : Nat) : Nat → Nat → Nat → Nat
  | 0, _, _ => 1 % m
  | n + 1, x, e =>
    let r := powMod m n (x * x % m) (e / 2)
    if e % 2 = 1 then x * r % m else r

/-- The inverse modulo a prime of 384 bits. -/
def invMod (m x : Nat) : Nat := powMod m 384 x (m - 2)

/-- A point of the curve; none is the neutral one. -/
abbrev Point := Option (Nat × Nat)

def onCurve (q : Nat × Nat) : Bool :=
  decide (q.1 < p384) && decide (q.2 < p384) && q.2 * q.2 % p384 == (q.1 * q.1 * q.1 + (p384 - 3) * q.1 + b384) % p384

/-- The third point of the line of slope `l` through two points, mirrored. -/
def chord (l : Nat) (x1 y1 x2 : Nat) : Nat × Nat :=
  let x := (l * l + 2 * p384 - x1 - x2) % p384
  (x, (l * (x1 + p384 - x) + p384 - y1) % p384)

def pointAdd (a b : Point) : Point :=
  match a, b with
  | none, _ => b
  | _, none => a
  | some (x1, y1), some (x2, y2) =>
    if x1 = x2 then
      if (y1 + y2) % p384 = 0 then none
      else some (chord ((3 * x1 * x1 + p384 - 3) * invMod p384 (2 * y1) % p384) x1 y1 x2)
    else some (chord ((y2 + p384 - y1) * invMod p384 (x2 + p384 - x1) % p384) x1 y1 x2)

/-- k times a point, for k below 2^fuel. -/
def pointMul : Nat → Nat → Point → Point
  | 0, _, _ => none
  | n + 1, k, a =>
    let r := pointMul n (k / 2) (pointAdd a a)
    if k % 2 = 1 then pointAdd a r else r

/-- Whether an ECDSA signature (r, then s) of a digest verifies under an uncompressed public point. -/
def ecdsaVerify (pub digest sig : List Byte) : Bool :=
  let q := (bigOf ((pub.drop 1).take 48), bigOf ((pub.drop 49).take 48))
  let r := bigOf (sig.take 48)
  let s := bigOf ((sig.drop 48).take 48)
  let v := invMod n384 s
  let at_ := pointAdd (pointMul 384 (bigOf digest * v % n384) (some base384)) (pointMul 384 (r * v % n384) (some q))
  pub.length == 97 && blockByte pub 0 == 4 && onCurve q && sig.length == 96 && decide (0 < r) && decide (r < n384) && decide (0 < s) &&
    decide (s < n384) && match at_ with
    | some x => x.1 % n384 == r
    | none => false

/-- A private key from a secret number, and its uncompressed public point (R474). -/
def ecdsaPrivate (x : Nat) : Nat := 1 + x % (n384 - 1)

def ecdsaPublic (d : Nat) : List Byte :=
  let q := (pointMul 384 d (some base384)).getD (0, 0)
  0x04 :: (bigBytes 48 q.1 ++ bigBytes 48 q.2)

/-- The signature (r, then s) of a digest under a private key, with the first of the nonces from `k` on that makes neither of them 0. -/
def ecdsaSign (d : Nat) (digest : List Byte) : Nat → Nat → List Byte
  | 0, _ => []
  | n + 1, k =>
    let r := ((pointMul 384 (ecdsaPrivate k) (some base384)).map fun q => q.1 % n384).getD 0
    let v := invMod n384 (ecdsaPrivate k) * (bigOf digest + r * d) % n384
    if r = 0 ∨ v = 0 then ecdsaSign d digest n (k + 1) else bigBytes 48 r ++ bigBytes 48 v

end Sys2Proof.Machine
end

