-- ==== Sys2Proof/Machine/Boot.lean ====
section
/-! DEFINITION. Bring-up: firmware images, the boot order, training firmware, identity and attestation, the state of the host link,
power and temperature (21 R443, 22 R452, 23 R470 to R479, DESIGN CHOICE log 22). -/

namespace Sys2Proof.Machine

open Sys2Proof

/-! ## Images (R470, R471) -/

/-- The fields of an image header. -/
def imageBodyBytes (im : List Byte) : Nat := fieldOf im 12 4
def imageVersion (im : List Byte) : Nat := fieldOf im 8 4
def imageLoad (im : List Byte) : Nat := fieldOf im 16 8
def imageEcdsaKey (im : List Byte) : List Byte := (im.drop 80).take 97
def imageLmsKey (im : List Byte) : List Byte := (im.drop 180).take 56

/-- The body, what both signatures cover, and the two signatures. -/
def imageBody (im : List Byte) : List Byte := (im.drop 256).take (imageBodyBytes im)
def imageSigned (im : List Byte) : List Byte := im.take (256 + imageBodyBytes im)
def imageEcdsa (im : List Byte) : List Byte := (im.drop (256 + imageBodyBytes im)).take 96
def imageLms (im : List Byte) : List Byte := (im.drop (352 + imageBodyBytes im)).take 2668

/-- Whether the bytes [off, off + n) of an image are zero. -/
def imageZero (im : List Byte) (off n : Nat) : Bool := ((im.drop off).take n).all (· == 0)

/-- Whether every field keeps its limits. -/
def imageLimits (kind counter : Nat) (im : List Byte) : Bool :=
  im.length == 3020 + imageBodyBytes im && fieldOf im 0 4 == 0x4b4d5a4f && blockByte im 4 == kind && imageZero im 5 3 &&
  decide (imageVersion im ≥ counter) && decide (1 ≤ imageBodyBytes im) && decide (imageBodyBytes im ≤ 16777216) &&
  imageBodyBytes im % 64 == 0 && imageLoad im % 64 == 0 && imageZero im 24 8 && blockByte im 80 == 4 && imageZero im 177 3 &&
  imageZero im 236 20

/-- Whether the root of trust accepts an image of a kind: limits, both keys, the body digest and both signatures (R471). -/
def imageAccepted (kind counter : Nat) (im : List Byte) : Bool :=
  imageLimits kind counter im &&
  sha384 (imageEcdsaKey im) == Config.fusedKeyDigests.1 && sha384 (imageLmsKey im) == Config.fusedKeyDigests.2 &&
  sha384 (imageBody im) == (im.drop 32).take 48 &&
  ecdsaVerify (imageEcdsaKey im) (sha384 (imageSigned im)) (imageEcdsa im) &&
  lmsVerify (imageLmsKey im) (imageSigned im) (imageLms im)

/-- The image of a kind in the boot buffer. -/
def Boot.image (b : Boot) (kind : Nat) : Option (List Byte) := (b.images.find? fun x => x.1 == kind).map (·.2)

def imageKinds : List Nat := [1, 2, 3, 4]

def State.modBoot (s : State) (f : Boot → Boot) : State := { s with boot := f s.boot }

/-- IMAGE_WRITE: the control node fills the boot buffer (steps 1 and 2). -/
def execEvImageWrite (kind : Nat) (image : List Byte) (s : State) : Out :=
  .next (if s.plat.holUp && imageKinds.contains kind && (s.boot.step == 1 || s.boot.step == 2) then
    s.modBoot fun b => { b with step := 2, images := assocSet kind image b.images }
  else s)

/-- IMAGE_CHECK: step 3, once all four images are there; a rejected image stops the sequence. -/
def execEvImageCheck (s : State) : Out :=
  let b := s.boot
  if b.step != 2 || !imageKinds.all (fun k => (b.image k).isSome) then .next s
  else
    let good := imageKinds.filter fun k => imageAccepted k b.secCounter ((b.image k).getD [])
    let all := good.length == 4
    .next (s.modBoot fun b => { b with
      accepted := good, measurements := good.map (fun k => (k, sha384 (imageBody ((b.image k).getD [])))),
      rejected := !all, step := if all then 4 else 3 })

/-! ## Stack map (R452, R473) -/

/-- The channels of a stack of which a group has failed, by TRAINST. -/
def Stack.failed (k : Stack) : Bool := (List.range 32).any fun ch => (phyGet k ch 0).extractLsb' 8 4 != 0

/-- Whether a stack may be named by a valid entry of the final map. -/
def Stack.usable (k : Stack) : Bool := !k.held && !k.failed

/-- Whether an entry keeps the form of R452. -/
def mapEntryOk (g : Nat) (e : BitVec 16) : Bool :=
  e.extractLsb' 12 2 == 0 && !e.getLsbD 7 && decide ((e.extractLsb' 0 7).toNat ≤ 95) &&
  (!e.getLsbD 14 || e.extractLsb' 8 4 == 0) && (g != 0x3c0 || !e.getLsbD 15)

/-- Whether a valid entry names only usable stacks: an interleaved one names all 16. -/
def State.mapEntryUsable (s : State) (e : BitVec 16) : Bool :=
  !e.getLsbD 15 ||
    if e.getLsbD 14 then s.baseDies.all Stack.usable else (s.getStack (e.extractLsb' 8 4).toNat).usable

/-- The step of the boot order in progress (R472, DESIGN CHOICE log 22): step 6 ends when every stack's firmware has halted or is held. -/
def State.bootStep (s : State) : Nat :=
  if s.boot.step = 6 ∧ s.baseDies.all (fun k => k.halted || k.held) then 7 else s.boot.step

/-- STACK_MAP_WRITE: provisional at step 4, final at step 7; not performed at any other time. A line that a stack stores stays where it is in the
stack, coded for the address by which it was written (R457, R469). -/
def execEvStackMapWrite (granule : Nat) (entry : BitVec 16) (s : State) : Out :=
  let ok := s.plat.holUp && decide (granule < 16384) && mapEntryOk granule entry &&
    (s.bootStep == 4 || (s.bootStep == 7 && s.mapEntryUsable entry))
  .next (if ok then s.setMem { s.mem with stackMap := assocSet granule entry s.mem.stackMap } else s)

/-! ## Training firmware (R443, R472) -/

/-- The launch whose one group is the firmware. -/
def firmwareLaunch (im : List Byte) : Launch := Launch.one 0 0 (BitVec.ofNat 64 (imageLoad im)) 0 16 1

/-- The firmware of a stack at its start. -/
def Team.ofFirmware (im : List Byte) (stack : Nat) : Team :=
  { Team.start .firmware (firmwareLaunch im) 0 true with argo := 192, place := .foehn stack 0 }

/-- A stack with the image in its firmware store. -/
def Stack.loadFirmware (im : List Byte) (k : Stack) : Stack :=
  { k with firmware := imageBody im, firmLoad := imageLoad im, halted := false, firmTvec := [] }

/-- FIRMWARE_START: step 5 on all 16 stacks, and the wait of step 6 begins. -/
def execEvFirmwareStart (s : State) : Out :=
  match s.boot.image 3 with
  | none => .next s
  | some im =>
    if s.boot.step != 4 then .next s
    else
      let s1 : State := { s with baseDies := s.baseDies.map (Stack.loadFirmware im) }
      let s2 : State := { s1 with teams := s1.teams ++ (List.range 16).map fun i => (Team.ofFirmware im i).age s.tick }
      .next (s2.modBoot fun b => { b with step := 6, fwClock := s.clock })

/-- Two seconds in cycles (R2, R472). -/
def trainingCycles : Nat := 4200000000

/-- A stack held in reset: its channels are recorded as FAILED (TRAINST 0xf00, R449). -/
def Stack.heldReset : Stack :=
  { Stack.reset with held := true, phy := (List.range 32).map fun ch => (ch * 0x10000, (0xf00 : Word)) }

/-- A team that ran on a stack which is held now, ended. -/
def Team.endOn (out : List Nat) (t : Team) : Team :=
  match t.place with
  | .foehn st _ => if out.contains st then { t.stopAll with place := .ended } else t
  | _ => t

/-- BOOT_TRAINING_TIMEOUT: at 2 s every stack that has not halted is held in reset. -/
def execEvBootTrainingTimeout (s : State) : Out :=
  if s.boot.step != 6 || s.clock - s.boot.fwClock < trainingCycles then .next s
  else
    let out := (List.range 16).filter fun i => !(s.getStack i).halted
    let s1 : State := { s with baseDies := s.baseDies.map fun k => if k.halted then k else Stack.heldReset }
    let s2 : State := { s1 with teams := s1.teams.map (Team.endOn out), tests := s1.tests.filter fun t => !out.contains t.stack }
    .next (s2.modBoot fun b => { b with step := 7 })

/-- TRAINST_READ: the management request of step 7. -/
def execEvTrainstRead (stack ch : Nat) (s : State) : Out :=
  .next (if s.plat.holUp && decide (stack < 16) && decide (ch < 32) then
    s.hol 0x31 0 [3, stack, ch, (phyGet (s.getStack stack) ch 0).toNat] [] else s)

/-- Whether the map is final: no valid entry names a stack that R473 forbids. -/
def State.mapFinal (s : State) : Bool := s.mem.stackMap.all fun e => s.mapEntryUsable e.2

/-- BOOT_READY: step 8, and READY over HOL. -/
def execEvBootReady (s : State) : Out :=
  .next (if s.bootStep == 7 && s.mapFinal then (s.modBoot fun b => { b with step := 9 }).hol 0x31 0 [1] [] else s)

/-- What survives a reset: the fuses and counts of manufacture, the sent messages and what the outside still sends (DESIGN CHOICE log 22). -/
def State.afterReset (s : State) : State :=
  { State.reset with
    boot := { State.reset.boot with secCounter := s.boot.secCounter, bootCount := s.boot.bootCount + 1 },
    plat := { State.reset.plat with holUp := s.plat.holUp },
    holOut := s.holOut, agenda := s.agenda, pace := s.pace, tick := s.tick, freeCtr := s.freeCtr, testCtr := s.testCtr }

/-- DEVICE_RESET (R472). -/
def execEvDeviceReset (s : State) : Out := .next s.afterReset

/-! ## Identity and attestation (R474, R475) -/

/-- The private part of the identity key, from the fused secret: the same at every boot (R474). -/
def identityPrivate : Nat := ecdsaPrivate (Config.identityKey Config.fusedSecret)

/-- `n` bytes of a byte string of the fuses, zeros after its end. -/
def fitBytes (n : Nat) (b : List Byte) : List Byte := (b ++ List.replicate n 0).take n

/-- The boot status of a report. -/
def State.bootStatus (s : State) : Nat :=
  if s.boot.rejected then 1
  else if s.boot.step ≠ 9 then 3
  else if s.baseDies.any (·.held) then 2
  else 0

/-- Bytes +0 to +287 of a report. -/
def State.reportBody (s : State) (nonce : List Byte) : List Byte :=
  bytesOf 4 1 ++ bytesOf 4 s.bootStatus ++ fitBytes 16 Config.deviceSerial ++ bytesOf 8 s.boot.bootCount ++ nonce ++
  bytesOf 4 s.boot.secCounter ++ List.replicate 12 0 ++
  imageKinds.flatMap fun k => fitBytes 48 (((s.boot.measurements.find? fun m => m.1 == k).map (·.2)).getD [])

/-- The 384-byte report: the body, and the signature of its digest under the identity key. -/
def State.report (s : State) (nonce : List Byte) : List Byte :=
  let b := s.reportBody nonce
  b ++ ecdsaSign identityPrivate (sha384 b) 256 (Config.signNonce (sha384 b))

/-- ATTESTATION_REQUEST: a 48-byte nonce. -/
def execEvAttestationRequest (nonce : List Byte) (s : State) : Out :=
  .next (if s.plat.holUp && nonce.length == 48 then s.hol 0x31 0 [5] (s.report nonce) else s)

/-- IDENTITY_READ: the public key and its certificate, up to the bytes of one message (R476). -/
def execEvIdentityRead (s : State) : Out :=
  let key := ecdsaPublic identityPrivate
  .next (if s.plat.holUp then s.hol 0x31 0 [4] (key ++ Config.identityCertificate.take (holLimit - key.length)) else s)

/-- SECURITY_COUNTER_RAISE: never above the version of an accepted image, and never down. -/
def execEvSecurityCounterRaise (version : Nat) (s : State) : Out :=
  let b := s.boot
  let ok := s.plat.holUp && !b.accepted.isEmpty && decide (version > b.secCounter) &&
    b.accepted.all fun k => decide (version ≤ imageVersion ((b.image k).getD []))
  .next (if ok then s.modBoot fun b => { b with secCounter := version } else s)

/-! ## The host optical link (R476) -/

def State.modPlat (s : State) (f : Platform → Platform) : State := { s with plat := f s.plat }

/-- HOL_UNKNOWN_MESSAGE: dropped and counted. -/
def execEvHolUnknownMessage (s : State) : Out :=
  .next (if s.plat.holUp then s.modPlat fun p => { p with mgmtErrors := p.mgmtErrors + 1 } else s)

/-- HOL_LINK_DOWN: from now on accesses to host memory wait. -/
def execEvHolLinkDown (s : State) : Out := .next (s.modPlat fun p => { p with holUp := false })

/-- HOL_LINK_UP: held messages go out and held accesses proceed. -/
def execEvHolLinkUp (s : State) : Out := .next { s with plat := { s.plat with holUp := true, outbox := [] }, holOut := s.holOut ++ s.plat.outbox }

/-- HOL_BAD_CRC: the message is dropped; the link sends it again in order, which is another event. -/
def execEvHolBadCrc (s : State) : Out := .next s

/-! ## Power and temperature (R478, R479) -/

/-- The parts of R10: the compute dies 0 and 1, the stacks 2 to 17, the base dies 18 to 33, the links 34, the bridge 35. -/
def powerParts : Nat := 36

/-- POWER_SAMPLE: a part above its share runs slower until its draw is within it; only timing changes. -/
def execEvPowerSample (part : Nat) (high : Bool) (s : State) : Out :=
  .next (if part < powerParts then
    s.modPlat fun p => { p with throttled := if high then part :: p.throttled.filter (· != part) else p.throttled.filter (· != part) }
  else s)

/-- THERMAL_THROTTLE: every part. -/
def execEvThermalThrottle (s : State) : Out := .next (s.modPlat fun p => { p with throttled := List.range powerParts })

/-- THERMAL_TRIP: everything stops and is lost, and the device holds itself in reset. -/
def execEvThermalTrip (s : State) : Out :=
  let s1 := if s.plat.holUp then s.hol 0x31 0 [7] [] else s
  let s2 := s1.afterReset
  .next { s2 with plat := { s2.plat with tripped := true }, boot := { s2.boot with bootCount := s.boot.bootCount } }

end Sys2Proof.Machine
end

