-- ==== Sys2Proof/Machine/Dispatch.lean ====
section
/-! DEFINITION. The dispatch: one arm per constructor of Instr. -/

namespace Sys2Proof.Machine

open Sys2Proof

def exec (i : Instr) (s : State) : Host.Outcome State Fault Refusal :=
  match i with
  | .evLoadLanding k lanes => Sys2Proof.Machine.execEvLoadLanding k lanes s
  | .evSleepExpiry team grp lane => Sys2Proof.Machine.execEvSleepExpiry team grp lane s
  | .evAcpPartLanding k n => Sys2Proof.Machine.execEvAcpPartLanding k n s
  | .evSliceAccess r => Sys2Proof.Machine.execEvSliceAccess r s
  | .evL1Eviction core asid va => Sys2Proof.Machine.execEvL1Eviction core asid va s
  | .evAlbFill core ctx va => Sys2Proof.Machine.execEvAlbFill core ctx va s
  | .evPageWalk ctx va => Sys2Proof.Machine.execEvPageWalk ctx va s
  | .evFaultRecordWrite ctx => Sys2Proof.Machine.execEvFaultRecordWrite ctx s
  | .evFaultReplyResume ctx src seq consumed => Sys2Proof.Machine.execEvFaultReplyResume ctx src seq consumed s
  | .evFaultReplyDeliver ctx src seq consumed => Sys2Proof.Machine.execEvFaultReplyDeliver ctx src seq consumed s
  | .evFaultReplyExit ctx src seq consumed => Sys2Proof.Machine.execEvFaultReplyExit ctx src seq consumed s
  | .evFaultReplyAck ctx consumed => Sys2Proof.Machine.execEvFaultReplyAck ctx consumed s
  | .evHolLaunch ctx packet args => Sys2Proof.Machine.execEvHolLaunch ctx packet args s
  | .evInputQueuePop handle => Sys2Proof.Machine.execEvInputQueuePop handle s
  | .evPlaceTeam => Sys2Proof.Machine.execEvPlaceTeam s
  | .evTeamEnd team => Sys2Proof.Machine.execEvTeamEnd team s
  | .evLaunchComplete handle => Sys2Proof.Machine.execEvLaunchComplete handle s
  | .evWaitSwapTimeout team => Sys2Proof.Machine.execEvWaitSwapTimeout team s
  | .evTeamSave team => Sys2Proof.Machine.execEvTeamSave team s
  | .evPriorityAgeing team => Sys2Proof.Machine.execEvPriorityAgeing team s
  | .evTeamRestore team => Sys2Proof.Machine.execEvTeamRestore team s
  | .evWatchdogExpiry ctx => Sys2Proof.Machine.execEvWatchdogExpiry ctx s
  | .evContinue ctx => Sys2Proof.Machine.execEvContinue ctx s
  | .evKill ctx => Sys2Proof.Machine.execEvKill ctx s
  | .evBankDrain core => Sys2Proof.Machine.execEvBankDrain core s
  | .evBankRelocation core => Sys2Proof.Machine.execEvBankRelocation core s
  | .evShrinkQuiesce core => Sys2Proof.Machine.execEvShrinkQuiesce core s
  | .evPoolCommit core => Sys2Proof.Machine.execEvPoolCommit core s
  | .evTlatchPerform team => Sys2Proof.Machine.execEvTlatchPerform team s
  | .evMmaComplete team => Sys2Proof.Machine.execEvMmaComplete team s
  | .evMseqStep team => Sys2Proof.Machine.execEvMseqStep team s
  | .evCpyExecution k => Sys2Proof.Machine.execEvCpyExecution k s
  | .evBinExecution k => Sys2Proof.Machine.execEvBinExecution k s
  | .evMigrationPage k => Sys2Proof.Machine.execEvMigrationPage k s
  | .evCallStart k => Sys2Proof.Machine.execEvCallStart k s
  | .evCallCompletion k => Sys2Proof.Machine.execEvCallCompletion k s
  | .evCallBudgetExpiry k => Sys2Proof.Machine.execEvCallBudgetExpiry k s
  | .evChannelComputeResume stack pair => Sys2Proof.Machine.execEvChannelComputeResume stack pair s
  | .evWalkRecord stack => Sys2Proof.Machine.execEvWalkRecord stack s
  | .evFredInMemory k => Sys2Proof.Machine.execEvFredInMemory k s
  | .evLinkReadRequest peer pa n => Sys2Proof.Machine.execEvLinkReadRequest peer pa n s
  | .evLinkWriteRequest peer pa data enables => Sys2Proof.Machine.execEvLinkWriteRequest peer pa data enables s
  | .evLinkAtomicRequest peer pa op wide x c => Sys2Proof.Machine.execEvLinkAtomicRequest peer pa op wide x c s
  | .evLinkRefusedRequest peer => Sys2Proof.Machine.execEvLinkRefusedRequest peer s
  | .evLinkCompletion k data refused => Sys2Proof.Machine.execEvLinkCompletion k data refused s
  | .evReductionPacket peer off data => Sys2Proof.Machine.execEvReductionPacket peer off data s
  | .evExchangeClose shard => Sys2Proof.Machine.execEvExchangeClose shard s
  | .evExchangeOptimise shard => Sys2Proof.Machine.execEvExchangeOptimise shard s
  | .evExchangeBroadcast shard => Sys2Proof.Machine.execEvExchangeBroadcast shard s
  | .evExchangeErrorPath shard => Sys2Proof.Machine.execEvExchangeErrorPath shard s
  | .evDescriptorValidate shard => Sys2Proof.Machine.execEvDescriptorValidate shard s
  | .evExchangeTableBase optimiser base ctx => Sys2Proof.Machine.execEvExchangeTableBase optimiser base ctx s
  | .evDeviceReset => Sys2Proof.Machine.execEvDeviceReset s
  | .evImageWrite kind image => Sys2Proof.Machine.execEvImageWrite kind image s
  | .evImageCheck => Sys2Proof.Machine.execEvImageCheck s
  | .evStackMapWrite granule entry => Sys2Proof.Machine.execEvStackMapWrite granule entry s
  | .evLivenessWrite stack mib live => Sys2Proof.Machine.execEvLivenessWrite stack mib live s
  | .evFirmwareStart => Sys2Proof.Machine.execEvFirmwareStart s
  | .evBootTrainingTimeout => Sys2Proof.Machine.execEvBootTrainingTimeout s
  | .evTrainstRead stack ch => Sys2Proof.Machine.execEvTrainstRead stack ch s
  | .evBootReady => Sys2Proof.Machine.execEvBootReady s
  | .evPatctlWrite stack ch v => Sys2Proof.Machine.execEvPatctlWrite stack ch v s
  | .evPatternTestDone stack ch => Sys2Proof.Machine.execEvPatternTestDone stack ch s
  | .evRxdlyWrite stack ch slot v => Sys2Proof.Machine.execEvRxdlyWrite stack ch slot v s
  | .evTxdlyWrite stack ch slot v => Sys2Proof.Machine.execEvTxdlyWrite stack ch slot v s
  | .evLanemapWrite stack ch g v => Sys2Proof.Machine.execEvLanemapWrite stack ch g v s
  | .evTrainstWrite stack ch v => Sys2Proof.Machine.execEvTrainstWrite stack ch v s
  | .evLgcfgWrite stack ch v => Sys2Proof.Machine.execEvLgcfgWrite stack ch v s
  | .evLaneTurnaroundDone stack ch => Sys2Proof.Machine.execEvLaneTurnaroundDone stack ch s
  | .evCounterClear stack ch which => Sys2Proof.Machine.execEvCounterClear stack ch which s
  | .evCapctlWrite stack v => Sys2Proof.Machine.execEvCapctlWrite stack v s
  | .evEvptrWrite stack v => Sys2Proof.Machine.execEvEvptrWrite stack v s
  | .evRegisterWrite pa v => Sys2Proof.Machine.execEvRegisterWrite pa v s
  | .evCaptureWindowEnd stack => Sys2Proof.Machine.execEvCaptureWindowEnd stack s
  | .evDramAlert stack ch pc bank row sequencer => Sys2Proof.Machine.execEvDramAlert stack ch pc bank row sequencer s
  | .evRefreshInterval stack => Sys2Proof.Machine.execEvRefreshInterval stack s
  | .evRegionFillDone stack mib => Sys2Proof.Machine.execEvRegionFillDone stack mib s
  | .evHostRead pa n => Sys2Proof.Machine.execEvHostRead pa n s
  | .evHostWrite pa data => Sys2Proof.Machine.execEvHostWrite pa data s
  | .evReadData k data => Sys2Proof.Machine.execEvReadData k data s
  | .evWriteAck k => Sys2Proof.Machine.execEvWriteAck k s
  | .evHolUnknownMessage => Sys2Proof.Machine.execEvHolUnknownMessage s
  | .evHolLinkDown => Sys2Proof.Machine.execEvHolLinkDown s
  | .evHolLinkUp => Sys2Proof.Machine.execEvHolLinkUp s
  | .evContextCreate ctx asid fqBase fqCap saveBase saveSize => Sys2Proof.Machine.execEvContextCreate ctx asid fqBase fqCap saveBase saveSize s
  | .evQueueCreate ctx id depth => Sys2Proof.Machine.execEvQueueCreate ctx id depth s
  | .evQueueDestroy id => Sys2Proof.Machine.execEvQueueDestroy id s
  | .evAttestationRequest nonce => Sys2Proof.Machine.execEvAttestationRequest nonce s
  | .evIdentityRead => Sys2Proof.Machine.execEvIdentityRead s
  | .evSecurityCounterRaise version => Sys2Proof.Machine.execEvSecurityCounterRaise version s
  | .evOccupancyRead core => Sys2Proof.Machine.execEvOccupancyRead core s
  | .evPowerSample part high => Sys2Proof.Machine.execEvPowerSample part high s
  | .evThermalThrottle => Sys2Proof.Machine.execEvThermalThrottle s
  | .evThermalTrip => Sys2Proof.Machine.execEvThermalTrip s
  | .evHolBadCrc => Sys2Proof.Machine.execEvHolBadCrc s
  | .evCoreReenable core => Sys2Proof.Machine.execEvCoreReenable core s
  | .ill => Sys2Proof.Machine.execIll s
  | .nop => Sys2Proof.Machine.execNop s
  | .mov d a => Sys2Proof.Machine.execMov d a s
  | .sel d a b => Sys2Proof.Machine.execSel d a b s
  | .mset d a => Sys2Proof.Machine.execMset d a s
  | .mget d => Sys2Proof.Machine.execMget d s
  | .exit => Sys2Proof.Machine.execExit s
  | .wbase a => Sys2Proof.Machine.execWbase a s
  | .winq d => Sys2Proof.Machine.execWinq d s
  | .tagq d a => Sys2Proof.Machine.execTagq d a s
  | .rdy d a => Sys2Proof.Machine.execRdy d a s
  | .clock d => Sys2Proof.Machine.execClock d s
  | .rngr d => Sys2Proof.Machine.execRngr d s
  | .rngw a => Sys2Proof.Machine.execRngw a s
  | .fxclr d a => Sys2Proof.Machine.execFxclr d a s
  | .gcw d a => Sys2Proof.Machine.execGcw d a s
  | .add d a b => Sys2Proof.Machine.execAdd d a b s
  | .sub d a b => Sys2Proof.Machine.execSub d a b s
  | .mul d a b => Sys2Proof.Machine.execMul d a b s
  | .mulhI32 d a b => Sys2Proof.Machine.execMulhI32 d a b s
  | .mulhN32 d a b => Sys2Proof.Machine.execMulhN32 d a b s
  | .and d a b => Sys2Proof.Machine.execAnd d a b s
  | .or d a b => Sys2Proof.Machine.execOr d a b s
  | .xor d a b => Sys2Proof.Machine.execXor d a b s
  | .andn d a b => Sys2Proof.Machine.execAndn d a b s
  | .orn d a b => Sys2Proof.Machine.execOrn d a b s
  | .sll d a b => Sys2Proof.Machine.execSll d a b s
  | .srl d a b => Sys2Proof.Machine.execSrl d a b s
  | .sra d a b => Sys2Proof.Machine.execSra d a b s
  | .rol d a b => Sys2Proof.Machine.execRol d a b s
  | .minI32 d a b => Sys2Proof.Machine.execMinI32 d a b s
  | .maxI32 d a b => Sys2Proof.Machine.execMaxI32 d a b s
  | .minN32 d a b => Sys2Proof.Machine.execMinN32 d a b s
  | .maxN32 d a b => Sys2Proof.Machine.execMaxN32 d a b s
  | .addsI32 d a b => Sys2Proof.Machine.execAddsI32 d a b s
  | .subsI32 d a b => Sys2Proof.Machine.execSubsI32 d a b s
  | .divI32 d a b => Sys2Proof.Machine.execDivI32 d a b s
  | .divN32 d a b => Sys2Proof.Machine.execDivN32 d a b s
  | .remI32 d a b => Sys2Proof.Machine.execRemI32 d a b s
  | .remN32 d a b => Sys2Proof.Machine.execRemN32 d a b s
  | .ceq d a b => Sys2Proof.Machine.execCeq d a b s
  | .cne d a b => Sys2Proof.Machine.execCne d a b s
  | .cltI32 d a b => Sys2Proof.Machine.execCltI32 d a b s
  | .cleI32 d a b => Sys2Proof.Machine.execCleI32 d a b s
  | .cltN32 d a b => Sys2Proof.Machine.execCltN32 d a b s
  | .cleN32 d a b => Sys2Proof.Machine.execCleN32 d a b s
  | .addi d a imm => Sys2Proof.Machine.execAddi d a imm s
  | .andi d a imm => Sys2Proof.Machine.execAndi d a imm s
  | .ori d a imm => Sys2Proof.Machine.execOri d a imm s
  | .xori d a imm => Sys2Proof.Machine.execXori d a imm s
  | .slli d a n => Sys2Proof.Machine.execSlli d a n s
  | .srli d a n => Sys2Proof.Machine.execSrli d a n s
  | .srai d a n => Sys2Proof.Machine.execSrai d a n s
  | .roli d a n => Sys2Proof.Machine.execRoli d a n s
  | .ceqi d a imm => Sys2Proof.Machine.execCeqi d a imm s
  | .cnei d a imm => Sys2Proof.Machine.execCnei d a imm s
  | .cltiI32 d a imm => Sys2Proof.Machine.execCltiI32 d a imm s
  | .cleiI32 d a imm => Sys2Proof.Machine.execCleiI32 d a imm s
  | .cgtiI32 d a imm => Sys2Proof.Machine.execCgtiI32 d a imm s
  | .cltiN32 d a imm => Sys2Proof.Machine.execCltiN32 d a imm s
  | .cleiN32 d a imm => Sys2Proof.Machine.execCleiN32 d a imm s
  | .cgtiN32 d a imm => Sys2Proof.Machine.execCgtiN32 d a imm s
  | .lui d imm => Sys2Proof.Machine.execLui d imm s
  | .auipc d imm => Sys2Proof.Machine.execAuipc d imm s
  | .bfx d a pos len => Sys2Proof.Machine.execBfx d a pos len s
  | .bfxs d a pos len => Sys2Proof.Machine.execBfxs d a pos len s
  | .bfi d a pos len => Sys2Proof.Machine.execBfi d a pos len s
  | .add64 d a b => Sys2Proof.Machine.execAdd64 d a b s
  | .sub64 d a b => Sys2Proof.Machine.execSub64 d a b s
  | .mul64 d a b => Sys2Proof.Machine.execMul64 d a b s
  | .mulwI32 d a b => Sys2Proof.Machine.execMulwI32 d a b s
  | .mulwN32 d a b => Sys2Proof.Machine.execMulwN32 d a b s
  | .madwN32 d a b => Sys2Proof.Machine.execMadwN32 d a b s
  | .addwI32 d a b => Sys2Proof.Machine.execAddwI32 d a b s
  | .addwN32 d a b => Sys2Proof.Machine.execAddwN32 d a b s
  | .sll64 d a b => Sys2Proof.Machine.execSll64 d a b s
  | .srl64 d a b => Sys2Proof.Machine.execSrl64 d a b s
  | .sra64 d a b => Sys2Proof.Machine.execSra64 d a b s
  | .ceq64 d a b => Sys2Proof.Machine.execCeq64 d a b s
  | .clt64I64 d a b => Sys2Proof.Machine.execClt64I64 d a b s
  | .clt64N64 d a b => Sys2Proof.Machine.execClt64N64 d a b s
  | .min64N64 d a b => Sys2Proof.Machine.execMin64N64 d a b s
  | .max64N64 d a b => Sys2Proof.Machine.execMax64N64 d a b s
  | .ballot d a => Sys2Proof.Machine.execBallot d a s
  | .vany d a => Sys2Proof.Machine.execVany d a s
  | .vall d a => Sys2Proof.Machine.execVall d a s
  | .rfl d a => Sys2Proof.Machine.execRfl d a s
  | .shfl d a b => Sys2Proof.Machine.execShfl d a b s
  | .shflu d a b => Sys2Proof.Machine.execShflu d a b s
  | .shfld d a b => Sys2Proof.Machine.execShfld d a b s
  | .shflx d a b => Sys2Proof.Machine.execShflx d a b s
  | .active d => Sys2Proof.Machine.execActive d s
  | .elect d => Sys2Proof.Machine.execElect d s
  | .scanadd d a => Sys2Proof.Machine.execScanadd d a s
  | .radd d a => Sys2Proof.Machine.execRadd d a s
  | .rminI32 d a => Sys2Proof.Machine.execRminI32 d a s
  | .rmaxI32 d a => Sys2Proof.Machine.execRmaxI32 d a s
  | .rmaxN32 d a => Sys2Proof.Machine.execRmaxN32 d a s
  | .lmasklt d => Sys2Proof.Machine.execLmasklt d s
  | .clz d a => Sys2Proof.Machine.execClz d a s
  | .ctz d a => Sys2Proof.Machine.execCtz d a s
  | .popc d a => Sys2Proof.Machine.execPopc d a s
  | .brev d a => Sys2Proof.Machine.execBrev d a s
  | .bswap d a => Sys2Proof.Machine.execBswap d a s
  | .sext8 d a => Sys2Proof.Machine.execSext8 d a s
  | .sext16 d a => Sys2Proof.Machine.execSext16 d a s
  | .abs d a => Sys2Proof.Machine.execAbs d a s
  | .neg d a => Sys2Proof.Machine.execNeg d a s
  | .not d a => Sys2Proof.Machine.execNot d a s
  | .bz a imm => Sys2Proof.Machine.execBz a imm s
  | .bnz a imm => Sys2Proof.Machine.execBnz a imm s
  | .jal d imm => Sys2Proof.Machine.execJal d imm s
  | .jr d a => Sys2Proof.Machine.execJr d a s
  | .meet d imm => Sys2Proof.Machine.execMeet d imm s
  | .cmov d a => Sys2Proof.Machine.execCmov d a s
  | .cnarrow d a b => Sys2Proof.Machine.execCnarrow d a b s
  | .cperm d a b => Sys2Proof.Machine.execCperm d a b s
  | .cget d a sel => Sys2Proof.Machine.execCget d a sel s
  | .ctag d a => Sys2Proof.Machine.execCtag d a s
  | .cclr d => Sys2Proof.Machine.execCclr d s
  | .cmint d a => Sys2Proof.Machine.execCmint d a s
  | .faddD rm d a b => Sys2Proof.Machine.execFaddD rm d a b s
  | .fsubD rm d a b => Sys2Proof.Machine.execFsubD rm d a b s
  | .fmulD rm d a b => Sys2Proof.Machine.execFmulD rm d a b s
  | .fdivD rm d a b => Sys2Proof.Machine.execFdivD rm d a b s
  | .faddS rm d a b => Sys2Proof.Machine.execFaddS rm d a b s
  | .fsubS rm d a b => Sys2Proof.Machine.execFsubS rm d a b s
  | .fmulS rm d a b => Sys2Proof.Machine.execFmulS rm d a b s
  | .fdivS rm d a b => Sys2Proof.Machine.execFdivS rm d a b s
  | .faddH rm d a b => Sys2Proof.Machine.execFaddH rm d a b s
  | .fsubH rm d a b => Sys2Proof.Machine.execFsubH rm d a b s
  | .fmulH rm d a b => Sys2Proof.Machine.execFmulH rm d a b s
  | .fdivH rm d a b => Sys2Proof.Machine.execFdivH rm d a b s
  | .faddB rm d a b => Sys2Proof.Machine.execFaddB rm d a b s
  | .fsubB rm d a b => Sys2Proof.Machine.execFsubB rm d a b s
  | .fmulB rm d a b => Sys2Proof.Machine.execFmulB rm d a b s
  | .fdivB rm d a b => Sys2Proof.Machine.execFdivB rm d a b s
  | .fmacD rm d a b => Sys2Proof.Machine.execFmacD rm d a b s
  | .fmscD rm d a b => Sys2Proof.Machine.execFmscD rm d a b s
  | .fnmacD rm d a b => Sys2Proof.Machine.execFnmacD rm d a b s
  | .fnmscD rm d a b => Sys2Proof.Machine.execFnmscD rm d a b s
  | .fmacS rm d a b => Sys2Proof.Machine.execFmacS rm d a b s
  | .fmscS rm d a b => Sys2Proof.Machine.execFmscS rm d a b s
  | .fnmacS rm d a b => Sys2Proof.Machine.execFnmacS rm d a b s
  | .fnmscS rm d a b => Sys2Proof.Machine.execFnmscS rm d a b s
  | .fmacH rm d a b => Sys2Proof.Machine.execFmacH rm d a b s
  | .fmscH rm d a b => Sys2Proof.Machine.execFmscH rm d a b s
  | .fnmacH rm d a b => Sys2Proof.Machine.execFnmacH rm d a b s
  | .fnmscH rm d a b => Sys2Proof.Machine.execFnmscH rm d a b s
  | .fmacB rm d a b => Sys2Proof.Machine.execFmacB rm d a b s
  | .fmscB rm d a b => Sys2Proof.Machine.execFmscB rm d a b s
  | .fnmacB rm d a b => Sys2Proof.Machine.execFnmacB rm d a b s
  | .fnmscB rm d a b => Sys2Proof.Machine.execFnmscB rm d a b s
  | .fminD d a b => Sys2Proof.Machine.execFminD d a b s
  | .fmaxD d a b => Sys2Proof.Machine.execFmaxD d a b s
  | .fminnumD d a b => Sys2Proof.Machine.execFminnumD d a b s
  | .fmaxnumD d a b => Sys2Proof.Machine.execFmaxnumD d a b s
  | .fabsD d a => Sys2Proof.Machine.execFabsD d a s
  | .fnegD d a => Sys2Proof.Machine.execFnegD d a s
  | .fcpsgnD d a b => Sys2Proof.Machine.execFcpsgnD d a b s
  | .fclassD d a => Sys2Proof.Machine.execFclassD d a s
  | .fceqD d a b => Sys2Proof.Machine.execFceqD d a b s
  | .fcltD d a b => Sys2Proof.Machine.execFcltD d a b s
  | .fcleD d a b => Sys2Proof.Machine.execFcleD d a b s
  | .fcunD d a b => Sys2Proof.Machine.execFcunD d a b s
  | .fscalbD d a b => Sys2Proof.Machine.execFscalbD d a b s
  | .fminS d a b => Sys2Proof.Machine.execFminS d a b s
  | .fmaxS d a b => Sys2Proof.Machine.execFmaxS d a b s
  | .fminnumS d a b => Sys2Proof.Machine.execFminnumS d a b s
  | .fmaxnumS d a b => Sys2Proof.Machine.execFmaxnumS d a b s
  | .fabsS d a => Sys2Proof.Machine.execFabsS d a s
  | .fnegS d a => Sys2Proof.Machine.execFnegS d a s
  | .fcpsgnS d a b => Sys2Proof.Machine.execFcpsgnS d a b s
  | .fclassS d a => Sys2Proof.Machine.execFclassS d a s
  | .fceqS d a b => Sys2Proof.Machine.execFceqS d a b s
  | .fcltS d a b => Sys2Proof.Machine.execFcltS d a b s
  | .fcleS d a b => Sys2Proof.Machine.execFcleS d a b s
  | .fcunS d a b => Sys2Proof.Machine.execFcunS d a b s
  | .fscalbS d a b => Sys2Proof.Machine.execFscalbS d a b s
  | .fminH d a b => Sys2Proof.Machine.execFminH d a b s
  | .fmaxH d a b => Sys2Proof.Machine.execFmaxH d a b s
  | .fminnumH d a b => Sys2Proof.Machine.execFminnumH d a b s
  | .fmaxnumH d a b => Sys2Proof.Machine.execFmaxnumH d a b s
  | .fabsH d a => Sys2Proof.Machine.execFabsH d a s
  | .fnegH d a => Sys2Proof.Machine.execFnegH d a s
  | .fcpsgnH d a b => Sys2Proof.Machine.execFcpsgnH d a b s
  | .fclassH d a => Sys2Proof.Machine.execFclassH d a s
  | .fceqH d a b => Sys2Proof.Machine.execFceqH d a b s
  | .fcltH d a b => Sys2Proof.Machine.execFcltH d a b s
  | .fcleH d a b => Sys2Proof.Machine.execFcleH d a b s
  | .fcunH d a b => Sys2Proof.Machine.execFcunH d a b s
  | .fscalbH d a b => Sys2Proof.Machine.execFscalbH d a b s
  | .fminB d a b => Sys2Proof.Machine.execFminB d a b s
  | .fmaxB d a b => Sys2Proof.Machine.execFmaxB d a b s
  | .fminnumB d a b => Sys2Proof.Machine.execFminnumB d a b s
  | .fmaxnumB d a b => Sys2Proof.Machine.execFmaxnumB d a b s
  | .fabsB d a => Sys2Proof.Machine.execFabsB d a s
  | .fnegB d a => Sys2Proof.Machine.execFnegB d a s
  | .fcpsgnB d a b => Sys2Proof.Machine.execFcpsgnB d a b s
  | .fclassB d a => Sys2Proof.Machine.execFclassB d a s
  | .fceqB d a b => Sys2Proof.Machine.execFceqB d a b s
  | .fcltB d a b => Sys2Proof.Machine.execFcltB d a b s
  | .fcleB d a b => Sys2Proof.Machine.execFcleB d a b s
  | .fcunB d a b => Sys2Proof.Machine.execFcunB d a b s
  | .fscalbB d a b => Sys2Proof.Machine.execFscalbB d a b s
  | .fsqrtD rm d a => Sys2Proof.Machine.execFsqrtD rm d a s
  | .frcpD rm d a => Sys2Proof.Machine.execFrcpD rm d a s
  | .frsqD rm d a => Sys2Proof.Machine.execFrsqD rm d a s
  | .frintD rm d a => Sys2Proof.Machine.execFrintD rm d a s
  | .fsqrtS rm d a => Sys2Proof.Machine.execFsqrtS rm d a s
  | .frcpS rm d a => Sys2Proof.Machine.execFrcpS rm d a s
  | .frsqS rm d a => Sys2Proof.Machine.execFrsqS rm d a s
  | .frintS rm d a => Sys2Proof.Machine.execFrintS rm d a s
  | .fexp2D rm d a => Sys2Proof.Machine.execFexp2D rm d a s
  | .flog2D rm d a => Sys2Proof.Machine.execFlog2D rm d a s
  | .fsinpiD rm d a => Sys2Proof.Machine.execFsinpiD rm d a s
  | .fcospiD rm d a => Sys2Proof.Machine.execFcospiD rm d a s
  | .fexp2S rm d a => Sys2Proof.Machine.execFexp2S rm d a s
  | .flog2S rm d a => Sys2Proof.Machine.execFlog2S rm d a s
  | .fsinpiS rm d a => Sys2Proof.Machine.execFsinpiS rm d a s
  | .fcospiS rm d a => Sys2Proof.Machine.execFcospiS rm d a s
  | .fcvtSD rm sat d a => Sys2Proof.Machine.execFcvtSD rm sat d a s
  | .fcvtDS rm d a => Sys2Proof.Machine.execFcvtDS rm d a s
  | .fcvtSH rm hi d a => Sys2Proof.Machine.execFcvtSH rm hi d a s
  | .fcvtSBf rm hi d a => Sys2Proof.Machine.execFcvtSBf rm hi d a s
  | .fcvtHS rm sat d a => Sys2Proof.Machine.execFcvtHS rm sat d a s
  | .fcvtBS rm sat d a => Sys2Proof.Machine.execFcvtBS rm sat d a s
  | .fcvtSE4m3 rm sel d a => Sys2Proof.Machine.execFcvtSE4m3 rm sel d a s
  | .fcvtSE5m2 rm sel d a => Sys2Proof.Machine.execFcvtSE5m2 rm sel d a s
  | .fcvtSDpt8 rm sel d a => Sys2Proof.Machine.execFcvtSDpt8 rm sel d a s
  | .fcvtSSpt4Low rm sel d a => Sys2Proof.Machine.execFcvtSSpt4Low rm sel d a s
  | .fcvtSSpt4High rm sel d a => Sys2Proof.Machine.execFcvtSSpt4High rm sel d a s
  | .fcvtI32S rm sat d a => Sys2Proof.Machine.execFcvtI32S rm sat d a s
  | .fcvtN32S rm sat d a => Sys2Proof.Machine.execFcvtN32S rm sat d a s
  | .fcvtSI32 rm d a => Sys2Proof.Machine.execFcvtSI32 rm d a s
  | .fcvtSN32 rm d a => Sys2Proof.Machine.execFcvtSN32 rm d a s
  | .fcvtI32D rm sat d a => Sys2Proof.Machine.execFcvtI32D rm sat d a s
  | .fcvtN32D rm sat d a => Sys2Proof.Machine.execFcvtN32D rm sat d a s
  | .fcvtDI32 rm d a => Sys2Proof.Machine.execFcvtDI32 rm d a s
  | .fcvtDN32 rm d a => Sys2Proof.Machine.execFcvtDN32 rm d a s
  | .fcvtI64D rm sat d a => Sys2Proof.Machine.execFcvtI64D rm sat d a s
  | .fcvtN64D rm sat d a => Sys2Proof.Machine.execFcvtN64D rm sat d a s
  | .fcvtDI64 rm d a => Sys2Proof.Machine.execFcvtDI64 rm d a s
  | .fcvtDN64 rm d a => Sys2Proof.Machine.execFcvtDN64 rm d a s
  | .fpackH2 rm d a b => Sys2Proof.Machine.execFpackH2 rm d a b s
  | .fpackB2 rm d a b => Sys2Proof.Machine.execFpackB2 rm d a b s
  | .fpackE4m3 rm d a b => Sys2Proof.Machine.execFpackE4m3 rm d a b s
  | .fpackE5m2 rm d a b => Sys2Proof.Machine.execFpackE5m2 rm d a b s
  | .fdotH2 rm d a b => Sys2Proof.Machine.execFdotH2 rm d a b s
  | .fdotB2 rm d a b => Sys2Proof.Machine.execFdotB2 rm d a b s
  | .fdotE4m3 rm d a b => Sys2Proof.Machine.execFdotE4m3 rm d a b s
  | .fdotE5m2 rm d a b => Sys2Proof.Machine.execFdotE5m2 rm d a b s
  | .fqntDpt8 rm d a b => Sys2Proof.Machine.execFqntDpt8 rm d a b s
  | .fqntSpt4 rm d a b => Sys2Proof.Machine.execFqntSpt4 rm d a b s
  | .fqntScale rm d a => Sys2Proof.Machine.execFqntScale rm d a s
  | .ld pol w d a b => Sys2Proof.Machine.execLd pol w d a b s
  | .ldi w d a off => Sys2Proof.Machine.execLdi w d a off s
  | .st pol w d a b => Sys2Proof.Machine.execSt pol w d a b s
  | .sti w d a off => Sys2Proof.Machine.execSti w d a off s
  | .scrLd w d a b => Sys2Proof.Machine.execScrLd w d a b s
  | .scrSt w d a b => Sys2Proof.Machine.execScrSt w d a b s
  | .acpG2s size d a b => Sys2Proof.Machine.execAcpG2s size d a b s
  | .acpS2g size d a b => Sys2Proof.Machine.execAcpS2g size d a b s
  | .atomAdd d a b => Sys2Proof.Machine.execAtomAdd d a b s
  | .atomAnd d a b => Sys2Proof.Machine.execAtomAnd d a b s
  | .atomOr d a b => Sys2Proof.Machine.execAtomOr d a b s
  | .atomXor d a b => Sys2Proof.Machine.execAtomXor d a b s
  | .atomMinI32 d a b => Sys2Proof.Machine.execAtomMinI32 d a b s
  | .atomMaxI32 d a b => Sys2Proof.Machine.execAtomMaxI32 d a b s
  | .atomMinN32 d a b => Sys2Proof.Machine.execAtomMinN32 d a b s
  | .atomMaxN32 d a b => Sys2Proof.Machine.execAtomMaxN32 d a b s
  | .atomXchg d a b => Sys2Proof.Machine.execAtomXchg d a b s
  | .atomCas d a b => Sys2Proof.Machine.execAtomCas d a b s
  | .atomIncw d a b => Sys2Proof.Machine.execAtomIncw d a b s
  | .atomDecw d a b => Sys2Proof.Machine.execAtomDecw d a b s
  | .atomFaddS d a b => Sys2Proof.Machine.execAtomFaddS d a b s
  | .atomFminS d a b => Sys2Proof.Machine.execAtomFminS d a b s
  | .atomFmaxS d a b => Sys2Proof.Machine.execAtomFmaxS d a b s
  | .atomFaddH2 d a b => Sys2Proof.Machine.execAtomFaddH2 d a b s
  | .atomFaddB2 d a b => Sys2Proof.Machine.execAtomFaddB2 d a b s
  | .atom64Add d a b => Sys2Proof.Machine.execAtom64Add d a b s
  | .atom64And d a b => Sys2Proof.Machine.execAtom64And d a b s
  | .atom64Or d a b => Sys2Proof.Machine.execAtom64Or d a b s
  | .atom64Xor d a b => Sys2Proof.Machine.execAtom64Xor d a b s
  | .atom64MinI64 d a b => Sys2Proof.Machine.execAtom64MinI64 d a b s
  | .atom64MaxI64 d a b => Sys2Proof.Machine.execAtom64MaxI64 d a b s
  | .atom64MinN64 d a b => Sys2Proof.Machine.execAtom64MinN64 d a b s
  | .atom64MaxN64 d a b => Sys2Proof.Machine.execAtom64MaxN64 d a b s
  | .atom64Xchg d a b => Sys2Proof.Machine.execAtom64Xchg d a b s
  | .atom64Cas d a b => Sys2Proof.Machine.execAtom64Cas d a b s
  | .atom64Incw d a b => Sys2Proof.Machine.execAtom64Incw d a b s
  | .atom64Decw d a b => Sys2Proof.Machine.execAtom64Decw d a b s
  | .atom64FaddD d a b => Sys2Proof.Machine.execAtom64FaddD d a b s
  | .atom64FminD d a b => Sys2Proof.Machine.execAtom64FminD d a b s
  | .atom64FmaxD d a b => Sys2Proof.Machine.execAtom64FmaxD d a b s
  | .redAdd a b => Sys2Proof.Machine.execRedAdd a b s
  | .redAnd a b => Sys2Proof.Machine.execRedAnd a b s
  | .redOr a b => Sys2Proof.Machine.execRedOr a b s
  | .redXor a b => Sys2Proof.Machine.execRedXor a b s
  | .redMinI32 a b => Sys2Proof.Machine.execRedMinI32 a b s
  | .redMaxI32 a b => Sys2Proof.Machine.execRedMaxI32 a b s
  | .redMinN32 a b => Sys2Proof.Machine.execRedMinN32 a b s
  | .redMaxN32 a b => Sys2Proof.Machine.execRedMaxN32 a b s
  | .redFaddS a b => Sys2Proof.Machine.execRedFaddS a b s
  | .redFminS a b => Sys2Proof.Machine.execRedFminS a b s
  | .redFmaxS a b => Sys2Proof.Machine.execRedFmaxS a b s
  | .redFaddH2 a b => Sys2Proof.Machine.execRedFaddH2 a b s
  | .redFaddB2 a b => Sys2Proof.Machine.execRedFaddB2 a b s
  | .redAdd64 a b => Sys2Proof.Machine.execRedAdd64 a b s
  | .redFaddD a b => Sys2Proof.Machine.execRedFaddD a b s
  | .binit d a b => Sys2Proof.Machine.execBinit d a b s
  | .arrive d a b => Sys2Proof.Machine.execArrive d a b s
  | .arriveb d a b => Sys2Proof.Machine.execArriveb d a b s
  | .expect a b => Sys2Proof.Machine.execExpect a b s
  | .bwait d a b => Sys2Proof.Machine.execBwait d a b s
  | .btest d a b => Sys2Proof.Machine.execBtest d a b s
  | .gsync => Sys2Proof.Machine.execGsync s
  | .tsync => Sys2Proof.Machine.execTsync s
  | .ringa d id => Sys2Proof.Machine.execRinga d id s
  | .ringf d a id => Sys2Proof.Machine.execRingf d a id s
  | .ringw d id => Sys2Proof.Machine.execRingw d id s
  | .ringe d a id => Sys2Proof.Machine.execRinge d a id s
  | .fenceAcq scope => Sys2Proof.Machine.execFenceAcq scope s
  | .fenceRel scope => Sys2Proof.Machine.execFenceRel scope s
  | .fenceAr scope => Sys2Proof.Machine.execFenceAr scope s
  | .fenceSc scope => Sys2Proof.Machine.execFenceSc scope s
  | .fenceAcqDevPromote => Sys2Proof.Machine.execFenceAcqDevPromote s
  | .tbegin d a => Sys2Proof.Machine.execTbegin d a s
  | .tend => Sys2Proof.Machine.execTend s
  | .tabort b => Sys2Proof.Machine.execTabort b s
  | .tstat d => Sys2Proof.Machine.execTstat d s
  | .cwb a b => Sys2Proof.Machine.execCwb a b s
  | .cinv a b => Sys2Proof.Machine.execCinv a b s
  | .cwbi a b => Sys2Proof.Machine.execCwbi a b s
  | .iinv a b => Sys2Proof.Machine.execIinv a b s
  | .fetchb => Sys2Proof.Machine.execFetchb s
  | .pref a b => Sys2Proof.Machine.execPref a b s
  | .acqr d a b => Sys2Proof.Machine.execAcqr d a b s
  | .relr d a => Sys2Proof.Machine.execRelr d a s
  | .qryr d a => Sys2Proof.Machine.execQryr d a s
  | .givr d a b => Sys2Proof.Machine.execGivr d a b s
  | .poolGrow role d a b => Sys2Proof.Machine.execPoolGrow role d a b s
  | .poolShrink role d a b => Sys2Proof.Machine.execPoolShrink role d a b s
  | .poolQuery role d => Sys2Proof.Machine.execPoolQuery role d s
  | .poolMap d a => Sys2Proof.Machine.execPoolMap d a s
  | .poolStat d => Sys2Proof.Machine.execPoolStat d s
  | .tshape d a b => Sys2Proof.Machine.execTshape d a b s
  | .tld d a b => Sys2Proof.Machine.execTld d a b s
  | .tldt d a b => Sys2Proof.Machine.execTldt d a b s
  | .tst d a b => Sys2Proof.Machine.execTst d a b s
  | .tzero d => Sys2Proof.Machine.execTzero d s
  | .trdr d a b => Sys2Proof.Machine.execTrdr d a b s
  | .twrr d a b => Sys2Proof.Machine.execTwrr d a b s
  | .tlatch d => Sys2Proof.Machine.execTlatch d s
  | .tlsf d a b => Sys2Proof.Machine.execTlsf d a b s
  | .mfence => Sys2Proof.Machine.execMfence s
  | .mwait b => Sys2Proof.Machine.execMwait b s
  | .mseq d a => Sys2Proof.Machine.execMseq d a s
  | .mcw d a => Sys2Proof.Machine.execMcw d a s
  | .mcrd d k => Sys2Proof.Machine.execMcrd d k s
  | .tmov d a => Sys2Proof.Machine.execTmov d a s
  | .mmaWin lat acc d a b => Sys2Proof.Machine.execMmaWin lat acc d a b s
  | .mmaSeq lat acc d a b => Sys2Proof.Machine.execMmaSeq lat acc d a b s
  | .engCpy d a => Sys2Proof.Machine.execEngCpy d a s
  | .engBin d a => Sys2Proof.Machine.execEngBin d a s
  | .engMig d a => Sys2Proof.Machine.execEngMig d a s
  | .ewait b => Sys2Proof.Machine.execEwait b s
  | .estat d a => Sys2Proof.Machine.execEstat d a s
  | .nmcall d a b => Sys2Proof.Machine.execNmcall d a b s
  | .nmret a => Sys2Proof.Machine.execNmret a s
  | .nmwalk d a b => Sys2Proof.Machine.execNmwalk d a b s
  | .fred op a b => Sys2Proof.Machine.execFred op a b s
  | .qpush d a b => Sys2Proof.Machine.execQpush d a b s
  | .qpop d a b => Sys2Proof.Machine.execQpop d a b s
  | .qfree d a => Sys2Proof.Machine.execQfree d a s
  | .launch d a => Sys2Proof.Machine.execLaunch d a s
  | .lrel d a => Sys2Proof.Machine.execLrel d a s
  | .lpatch d a b => Sys2Proof.Machine.execLpatch d a b s
  | .waitw cond a b => Sys2Proof.Machine.execWaitw cond a b s
  | .yield => Sys2Proof.Machine.execYield s
  | .sleep a => Sys2Proof.Machine.execSleep a s
  | .waitx a b => Sys2Proof.Machine.execWaitx a b s
  | .rdsr d n => Sys2Proof.Machine.execRdsr d n s
  | .wrsr a n => Sys2Proof.Machine.execWrsr a n s
  | .tlbinv a b => Sys2Proof.Machine.execTlbinv a b s
  | .vpurge a b => Sys2Proof.Machine.execVpurge a b s
  | .attrchg d a b => Sys2Proof.Machine.execAttrchg d a b s
  | .tret => Sys2Proof.Machine.execTret s
  | .haltc => Sys2Proof.Machine.execHaltc s
  | .trap code => Sys2Proof.Machine.execTrap code s
  | .brk => Sys2Proof.Machine.execBrk s

end Sys2Proof.Machine
end

