-- ==== Sys2Proof/Machine/Waits.lean ====
section
/-! DEFINITION. Whether the condition of a wait holds (10 R268): the wait instruction, if it were tried now, would end. -/

namespace Sys2Proof.Machine

open Sys2Proof

/-- The word at a thread's PC, from its fetch buffer or as a fetch would bring it. -/
def State.wordAt (s : State) (tm grp lane : Nat) (th : Thread) : Option Word :=
  match th.buffered with
  | some w => some w
  | none => match (s.fetch tm grp [lane] th.pc).2 with
    | .word w => some w
    | .ends _ => none

/-- Whether the wait instruction that a thread stands in would end now: its word tried for that lane alone. -/
noncomputable def State.waitOver (s : State) (tm grp lane : Nat) (th : Thread) : Bool :=
  match th.wait, s.wordAt tm grp lane th with
  | some _, some w => match decodeWord w.toNat with
    | none => false
    | some i =>
      let op : Op := { team := tm, grp := grp, lanes := maskOf [lane], pc := th.pc, base := th.base, sys := th.sys, word := w }
      match exec i { s with cur := some op } with
      | .next s1 => (((s1.team tm).groups[grp]?).bind (·.threads[lane]?)).all fun x => x.wait.isNone
      | _ => false
  | _, _ => false

/-- A thread with what is known of its wait: while the condition holds it does not wait, and its next wait begins when the condition is false
again (R268, R269). It is eligible since the step before, which made the condition true (09 R240). -/
noncomputable def State.noteWaiter (s : State) (tm tswap grp lane : Nat) (th : Thread) : Thread :=
  if th.wait.isNone || th.exited then th
  else if s.waitOver tm grp lane th then
    { th with stirred := true, waitSince := s.clock, waitSwap := tswap, age := if th.stirred then th.age else s.tick - 1 }
  else { th with stirred := false }

/-- A team with what is known of its waits; a change that falls during a wait-swap's save requeues it (R270). -/
noncomputable def State.noteTeam (s : State) (tm : Nat) (t : Team) : Team :=
  match t.place with
  | .resident _ _ =>
    let ended := t.groups.mapIdx fun g x => x.threads.mapIdx fun l th => s.waitOver tm g l th && !th.exited
    if t.leaving == some (.swap false) then (if ended.any fun r => r.any id then t.queue else t)
    else
      let tswap := ((s.ctxOf t.ctx).map (·.tswap)).getD 0
      { t with groups := t.groups.mapIdx fun g x => { x with threads := x.threads.mapIdx (s.noteWaiter tm tswap g) } }
  | .foehn _ _ => { t with groups := t.groups.mapIdx fun g x => { x with threads := x.threads.mapIdx (s.noteWaiter tm 0 g) } }
  | _ => t

/-- The waits of every resident team looked at: the launch unit sees at each step which conditions hold. -/
noncomputable def State.noteWaits (s : State) : State :=
  if s.teams.any fun t => t.groups.any fun g => g.threads.any fun th => th.wait.isSome then
    { s with teams := s.teams.mapIdx s.noteTeam }
  else s

end Sys2Proof.Machine
end

