-- ==== Sys2Proof/Machine/Work.lean ====
section
/-! DEFINITION. The internal events that are due, and the one that happens next (DESIGN CHOICE log 1). An event that only the outside or the passing
of an interval the model does not measure can bring about comes from the agenda instead. -/

namespace Sys2Proof.Machine

open Sys2Proof

/-- The indices at which a list satisfies a test, with the event each brings about. -/
def dueAt (l : List α) (p : Nat → α → Bool) (e : Nat → Instr) : List Instr :=
  (l.mapIdx fun k x => if p k x then [e k] else []).flatten

/-- Work in flight takes a few ticks (DESIGN CHOICE log 1). -/
def workLag : Nat := 8

/-- Whether work accepted at a tick may go on. -/
def State.ripe (s : State) (born : Nat) : Bool := decide (s.tick ≥ born + workLag)

/-! ## Of teams -/

/-- The engine goes on with the head of a team's queue, the team's turn having come (15 R352, R360). -/
def State.engineRuns (s : State) (tm : Nat) (t : Team) : Bool :=
  s.engineServes tm && ((t.ready.head?).map fun o => s.ripe o.born).getD false

/-- The event that performs the head of an engine queue, or its next step. -/
def Team.engineEvent (t : Team) (tm : Nat) : Instr :=
  match t.eng.queue with
  | o :: _ => match o.kind with
    | .tlatch _ => .evTlatchPerform tm
    | .mma .. => .evMmaComplete tm
    | .mseq .. => .evMseqStep tm
  | [] => .evTlatchPerform tm

/-- Whether a team has ended but for the work the device owes it. -/
def State.teamEndDue (s : State) (tm : Nat) (t : Team) : Bool :=
  t.kind == .team && !t.cores.isEmpty && s.overNow tm && (s.leaveTurn tm || !s.leaveQueued tm)

/-- Whether a team that is leaving may be saved. -/
def State.saveDue (s : State) (tm : Nat) (t : Team) : Bool :=
  !t.cores.isEmpty && t.leaving.isSome && t.leaving != some .stopped && s.quiet tm && (s.leaveTurn tm || !s.leaveQueued tm)

/-- The sleeping threads of a team that is out whose SLEEP has run out. -/
def State.sleepDue (s : State) (tm : Nat) (t : Team) : List Instr :=
  if !t.watched then []
  else (t.groups.mapIdx fun g (x : Group) => dueAt x.threads (fun _ th => match th.wait with
    | some (.sleep d) => decide (s.sleepClock t ≥ d)
    | _ => false) fun l => .evSleepExpiry tm g l).flatten

def State.teamWork (s : State) : List Instr :=
  dueAt s.teams s.engineRuns (fun k => (s.team k).engineEvent k) ++
  dueAt s.teams s.teamEndDue .evTeamEnd ++
  dueAt s.teams s.saveDue .evTeamSave ++
  dueAt s.teams (fun _ t => s.swapDue t) .evWaitSwapTimeout ++
  (s.teams.mapIdx s.sleepDue).flatten

/-! ## Of cores -/

/-- The phase of a pool request that can go on (R304, R310). -/
def State.poolWork (s : State) (core : Nat) (c : Core) : List Instr :=
  match c.req with
  | none => []
  | some r =>
    if (s.team r.team).cores.headD core != core then []
    else match r.phase with
      | .drain => [.evBankDrain core]
      | .move k => if r.role == .mxs && k == 0 && !(s.team r.team).eng.queue.isEmpty then [] else [.evBankRelocation core]
      | .quiesce => if s.releasedEmpty r then [] else [.evShrinkQuiesce core]
      | .commit => [.evPoolCommit core]
      | .waiting => []
      | .leave => []

/-! ## Of what is in flight -/

/-- Whether a part of a copy can land. -/
def State.copyDue (s : State) (c : Copy) : Bool :=
  s.ripe c.born && !(c.toScr && s.relocating c.team) &&
    (c.bad.isSome || !c.link || s.links.any fun r => r.owner == .copy c.id && r.done.isSome)

def cmdEvent (c : Cmd) (k : Nat) : Instr :=
  match c.kind with
  | 0 => .evCpyExecution k
  | 1 => .evBinExecution k
  | _ => .evMigrationPage k

def State.cmdWork (s : State) : List Instr :=
  (s.cmds.mapIdx fun k (c : Cmd) => if c.state == .queued && s.ripe c.born && s.mayStart k c then [cmdEvent c k] else []).flatten

/-- What happens to a call next, if anything does. -/
def State.callWork (s : State) (k : Nat) (c : Call) : List Instr :=
  match c.state with
  | .ended => [.evCallCompletion k]
  | .running =>
    if s.callExited c then [.evCallCompletion k]
    else if s.foehnClock - c.used ≥ c.budget then [.evCallBudgetExpiry k]
    else if c.walk then [.evWalkRecord c.stack]
    else []
  | .submitted =>
    if c.walk then
      let (busy, waiting) := s.walksAhead k c
      if (!busy && waiting == 0) || decide (waiting ≥ 16) then [.evCallStart k] else []
    else match s.foehnFor c with
      | none => if c.optimiser.isSome then [] else [.evCallStart k]
      | some core => if s.optimiserWaits c core then [] else [.evCallStart k]

/-! ## Of contexts and launches -/

def State.contextWork (s : State) : List Instr :=
  (s.ctxs.filter fun c => !c.held.isEmpty && decide (c.fqWritten < c.fqConsumed + c.fqCap) && !s.recordPosted c).map (fun c => .evFaultRecordWrite c.id) ++
  (s.ctxs.filter s.watchdogDue).map fun c => .evWatchdogExpiry c.id

/-- Whether a launch can take its input record. -/
def State.popDue (s : State) (l : Launch) : Bool :=
  !l.held && l.inq != 0xffff && l.input.isNone && ((s.queueOf l.ctx l.inq).map (fun q => !q.records.isEmpty)).getD false

/-- The launch unit's move. -/
def State.placeWork (s : State) : List Instr :=
  match s.choose 8 with
  | .none => []
  | .back _ tm _ => [.evTeamRestore tm]
  | _ => [.evPlaceTeam]

def State.launchWork (s : State) : List Instr :=
  (s.launches.filter s.popDue).map (fun l => .evInputQueuePop l.handle) ++
  (s.launches.filter fun l => l.isOver && !s.launchBehind l).map (fun l => .evLaunchComplete l.handle) ++
  s.placeWork

/-! ## Of the stacks -/

/-- What a base die does next: pattern tests and turnarounds that end, regions filled, channels that can be given back. -/
def State.stackWork (s : State) (i : Nat) (k : Stack) : List Instr :=
  k.turning.map (.evLaneTurnaroundDone i) ++ k.filling.map (.evRegionFillDone i) ++
  ((k.computeOff.filter fun x => s.expiryOver x).map fun x => .evChannelComputeResume i x.1)

/-- What the exchange unit does for an entry (20 R436 to R438). -/
def State.shardWork (s : State) (i : Nat) : List Instr :=
  let d := s.descriptor i
  if !d.valid then []
  else
    let (_, h) := s.header d
    match blockByte h 20 with
    | 0 => if headerAdvanced h then [.evExchangeClose i] else []
    | 1 => [.evExchangeClose i]
    | 2 => match s.optOf i with
      | some 0 => [.evExchangeBroadcast i]
      | some _ => [.evExchangeErrorPath i]
      | none => if s.calls.any (·.optimiser == some i) then [] else [.evExchangeOptimise i]
    | 3 => if s.shardAcked i then [.evExchangeBroadcast i] else []
    | _ => if headerAdvanced h && !s.calls.any (·.optimiser == some i) then [.evExchangeErrorPath i] else []

def State.exchangeWork (s : State) : List Instr :=
  (if !s.hasTable then [] else (List.range 4096).flatMap s.shardWork) ++
  if s.ownPacket.isSome then [.evReductionPacket Config.deviceId 0 []] else []

/-- What the root of trust does by itself: the check of step 3, and the end of the wait of step 6. -/
def State.bootWork (s : State) : List Instr :=
  (if s.boot.step == 2 && imageKinds.all (fun k => (s.boot.image k).isSome) then [.evImageCheck] else []) ++
  if s.bootStep == 6 && decide (s.clock - s.boot.fwClock ≥ trainingCycles) then [.evBootTrainingTimeout] else []

/-! ## The next one -/

/-- Every internal event that is due. -/
def State.due (s : State) : List Instr :=
  dueAt s.loads (fun _ d => s.ripe d.born && !s.loadOpen d) (fun k => .evLoadLanding k (BitVec.allOnes 64)) ++
  dueAt s.copies (fun _ c => s.copyDue c) (fun k => .evAcpPartLanding k 0) ++
  s.teamWork ++ (s.cores.mapIdx s.poolWork).flatten ++ s.cmdWork ++ (s.calls.mapIdx s.callWork).flatten ++
  dueAt s.mem.freds (fun _ _ => true) .evFredInMemory ++ s.contextWork ++ s.launchWork ++
  s.tests.map (fun t => .evPatternTestDone t.stack t.ch) ++ (s.baseDies.mapIdx s.stackWork).flatten ++ s.exchangeWork ++ s.bootWork

/-- The next internal event: one of those due, a different one as the ticks go by, so that none waits for ever (DESIGN CHOICE log 1). -/
def State.workNext (s : State) : Option Instr :=
  let d := s.due
  d[s.tick / 2 % d.length]?

/-- Whether the device hears an event of the outside: held in reset after a thermal trip, only a reset (R479). -/
def State.hears (s : State) (e : Instr) : Bool :=
  !s.plat.tripped || match e with
    | .evDeviceReset => true
    | _ => false

end Sys2Proof.Machine
end

