-- ==== Sys2Proof/Machine/Step.lean ====
section
/-! DEFINITION. One step of the device (DESIGN CHOICE log 1): an event the outside has sent, else an internal event that is due or the operation
of the oldest class; and the program that the host's check places. -/

namespace Sys2Proof.Machine

open Sys2Proof

/-- The clock of a step (DESIGN CHOICE log 2): it advances by the head of `pace`, or by one. -/
def State.advance (s : State) : State :=
  { s with clock := s.clock + s.pace.headD 1, pace := s.pace.tail, tick := s.tick + 1, cur := none }

/-- The state in which a step begins: the clock has advanced, launches that waited and whose kernel record is there have gone on (10 R261), requests
to the host have gone out (23 R476), and it is known which waits are over (10 R268) and which watchdog counters stand at 0 (R276). -/
noncomputable def State.begin (s : State) : State := s.advance.launchesGoOn.sendHost.noteWaits.noteWatchdogs

/-- The operation being issued, performed: the meaning of its word, or ILLEGAL_INSTRUCTION in every lane (R24). -/
noncomputable def State.perform (s : State) : Out :=
  match s.cur with
  | none => .fault .noOperation
  | some op => match decodeWord op.word.toNat with
    | some i => exec i s
    | none => issueIllegal s

/-- An internal event, if one is due. -/
def State.work (s : State) : Out :=
  match s.workNext with
  | some e => exec e { s with turn := false }
  | none => .next { s with turn := false }

/-- The oldest class issues, or its fetch faults; with no class an internal event happens. -/
noncomputable def State.issueNext (s : State) : Out :=
  match s.pick with
  | .op s1 => ({ s1 with turn := true } : State).perform
  | .done s1 => .next { s1 with turn := true }
  | .nothing => s.work

/-- ONE STEP. -/
noncomputable def step (s : State) : Host.Outcome State Fault Refusal :=
  let s1 := s.begin
  match s1.agenda with
  | e :: r => if e.ctorIdx < 96 && s1.hears e then exec e { s1 with agenda := r } else .next { s1 with agenda := r }
  | [] =>
    if s1.plat.tripped then .next s1
    else if s1.turn && s1.workNext.isSome then s1.work
    else s1.issueNext

/-! ## A program placed for the next step -/

/-- Where the placed program stands (DESIGN CHOICE log 13): its context, code address, page tables and code frame. -/
def loadCtx : Nat := 1
def loadVa : Nat := 0x40100000
def loadRoot : Nat := 0x10000
def loadTable : Nat := 0x20000
def loadCode : Nat := 0x100000

/-- The page-table entries and the word: a 1 GiB page at 0x40000000, RC, with R, W and X (R398, R399). Granule 0 is GiB 0 of stack 0, where an
address is its own key. -/
def loadMemory (m : Memory) (w : Nat) : Memory :=
  let d1 := memWrite m.dram loadRoot (bytesOf 8 0x20001)
  let d2 := memWrite d1 (loadTable + 8) (bytesOf 8 0x7c1)
  { m with dram := memWrite d2 loadCode (bytesOf 4 w), stackMap := assocSet 0 0x8000 m.stackMap }

def loadContext : Ctx :=
  { id := loadCtx, asid := loadCtx, tvec := 0, tswap := 42000, wdt := 2100000000, ptroot := loadRoot, pinbase := 0, fqBase := 0,
    fqCap := 64, fqWritten := 0, fqConsumed := 0, held := [], seqs := [], saveBase := 0, saveSize := 0, saveUsed := [],
    callIds := 1, watchdog := 0, stopped := false }

/-- A one-team program of one group, loaded and placed on core 0. -/
def State.load (s : State) (w : Nat) : State :=
  let l := Launch.one 1 loadCtx (BitVec.ofNat 64 loadVa) 0 16 1
  { s with mem := loadMemory s.mem w, ctxs := [loadContext], launches := [l], nextHandle := 2,
           teams := [{ Team.start .team l 0 false with place := .resident 0 0 }], boot := { s.boot with step := 9 } }

/-- `w` stored where the next step fetches: in the fetch buffer of the class that issues next, or, where no thread is there to
issue, as the code of a one-team program (DESIGN CHOICE log 13). -/
def State.withFetchWord (s : State) (_nbits w : Nat) : State :=
  let s0 : State := { s with agenda := [], turn := false, plat := { s.plat with tripped := false } }
  match s0.bestTeam 0 s0.issuers with
  | none => s0.load w
  | some c =>
    let lanes := (((s0.issuers[c.team]?).bind (·.groups[c.grp]?)).map fun g => s0.classAt c g).getD []
    s0.modGroup c.team c.grp fun g => g.modLanes lanes fun _ th => { th with fbuf := [(th.pc.toNat, BitVec.ofNat 32 w)] }

end Sys2Proof.Machine
end

