-- ==== Sys2Proof/Safety.lean ====
section
/-! DEFINITION. What a safe run is, and the terms in which claims speak of an instruction that runs: the operation at issue, what lets
it execute normally (01 R25, R37, 06 R192), and the state in which its lanes have written their results and moved on. -/

namespace Sys2Proof

open Machine

/-- `n` steps from `s` all answer a next state. -/
def SafeRun : Nat → State → Prop
  | 0, _ => True
  | n + 1, s => ∃ t, step s = .next t ∧ SafeRun n t

/-- The canonical form of every byte list that memory and the teams hold. -/
def MemoryCanonical (s : State) : Prop :=
  s.mem.wf = true ∧ ∀ t ∈ s.teams, memWfFrom 0 t.pool.scr = true ∧ memWfFrom 0 t.pool.mxs = true

/-! ## The operation at issue -/

/-- `op` is the operation the issue stage has chosen: team `t`, group `g`, at least one lane. -/
structure Turn (s : State) (op : Op) (t : Team) (g : Group) : Prop where
  cur : s.cur = some op
  team : s.teams[op.team]? = some t
  group : t.groups[op.grp]? = some g
  some : op.lanes ≠ 0

/-- The operation as the body of its instruction sees it, every lane taking part. -/
def issOf (op : Op) (t : Team) (g : Group) : Iss :=
  { op := op, view := { team := t, grp := op.grp, group := g, base := op.base }, lanes := lanesOf op.lanes,
    full := lanesOf op.lanes == g.live }

/-- Nothing keeps the operation from executing normally: the kind of core, the privilege level and the group's role admit the
instruction (R25); a lane inside a transaction may execute it there and has not used up its 4,096 instructions (R192); no source is
empty or marked in a lane, and no destination is empty (R37, R166); for a lane operation, no thread that stands at it is held on an empty register
(R72). -/
structure Clear (f : Form) (op : Op) (t : Team) (g : Group) : Prop where
  core : (if t.onFoehn then f.foehn else f.main) = true
  level : f.priv = true → op.sys = true
  role : op.sys = true ∨ f.roles g.role = true
  txn : ∀ l ∈ lanesOf op.lanes, ∀ th, g.threads[l]? = some th → ∀ x, th.txn = some x → f.txn = true ∧ x.count < 4096
  ready : ∀ l ∈ lanesOf op.lanes, ∀ r ∈ regsOf f.srcs, (issOf op t g).view.readiness r l = .ok
  free : ∀ l ∈ lanesOf op.lanes, ∀ r ∈ regsOf f.dst.toList, (issOf op t g).view.readiness r l ≠ .empty
  stood : f.laneOp = true → standing g op = []

/-! ## The register results of an operation -/

/-- The capability tags of a thread after a write of `n` registers from allocation register `r`: the quads it touches have the tag
of the result (01 R41). -/
def tagsAfter (tags : BitVec 64) (r n : Nat) (o : LaneOut) : BitVec 64 :=
  if o.tag then tags ||| quadBits r n else tags &&& ~~~(quadBits r n)

/-- The capability tags of a thread that ends with `o` an instruction whose destination is `dst`. -/
def capsAfter (op : Op) (dst : Option (Reg × Nat)) (tags : BitVec 64) (o : LaneOut) : BitVec 64 :=
  match dst with
  | some (d, n) => if d.toNat < 96 ∧ n ≠ 0 then tagsAfter tags (op.base + d.toNat) n o else tags
  | none => tags

/-- A thread that stands at PC + 4 after an instruction that completed with `o`: its flags and generator follow `o`, an instruction
of its transaction is counted, its wait is over. Its meeting, arrival, wait clock, age and lot are named apart. -/
def Machine.Thread.after (th : Thread) (op : Op) (dst : Option (Reg × Nat)) (o : LaneOut) (th' : Thread) : Prop :=
  th' = { th with pc := op.pc + 4, wait := none, stirred := false, seen := none, fx := th.fx ||| o.fx, rng := o.rng.getD th.rng,
                  txn := th.txn.map fun x => { x with count := x.count + 1 }, capTags := capsAfter op dst th.capTags o,
                  meet := th'.meet, arrived := th'.arrived, waitSince := th'.waitSince, waitSwap := th'.waitSwap,
                  age := th'.age, lot := th'.lot, lotOpen := th'.lotOpen }

/-- The shape of a written v register (01 R34, R35): G unless the operation holds every live thread of the group, and then what the
tag of the result says. -/
def shapeAfter (full : Bool) (tag : ResTag) (v' : VReg) : Prop :=
  if full then
    match tag with
    | .u => v'.shape.cls = .u
    | .g => v'.shape.cls = .g
    | .a sh => v'.shape = sh
    | .same => True
  else v'.shape.cls = .g

/-- The allocation register `r` of a group after a write of `n` registers from `d` (a v encoding): outside them nothing changes; in
each lane of the operation it reads that lane's word and is full and unmarked; in every other live lane it is as before. -/
def regAfter (op : Op) (t : Team) (g : Group) (d n : Nat) (tag : ResTag) (outs : Nat → LaneOut) (r : Nat) (v v' : VReg) : Prop :=
  if op.base + d ≤ r ∧ r < op.base + d + n then
    shapeAfter (lanesOf op.lanes == g.live) tag v' ∧
    (∀ l ∈ lanesOf op.lanes, l < t.gw → v'.shape.at l = ((outs l).vals[r - (op.base + d)]?).getD 0 ∧ v'.empty.getLsbD l = false ∧
      ∀ m ∈ v'.marks, m.lane ≠ l) ∧
    (∀ l, l ∉ lanesOf op.lanes → l < t.gw → l ∈ g.live → v'.shape.at l = v.shape.at l ∧ v'.empty.getLsbD l = v.empty.getLsbD l)
  else v' = v

/-- The registers after an operation of form `f`: a v encoding takes each lane's words, a c encoding those of the highest lane
(01 R29); an encoding from 112 on discards them (01 R27). -/
def regsAfter (op : Op) (t t' : Team) (g g' : Group) (f : Form) (outs : Nat → LaneOut) : Prop :=
  match f.dst with
  | none => g'.regs = g.regs ∧ t'.cregs = t.cregs ∧ t'.ctags = t.ctags
  | some (d, n) =>
    if d.toNat < 96 then
      t'.cregs = t.cregs ∧ t'.ctags = t.ctags ∧ g'.regs.length = g.regs.length ∧
      ∀ r v v', g.regs[r]? = some v → g'.regs[r]? = some v' →
        regAfter op t g d.toNat n ((issOf op t g).view.resTag f.rule f.srcs) outs r v v'
    else if d.toNat < 112 then
      g'.regs = g.regs ∧ t'.cregs.length = t.cregs.length ∧
      (∀ l ∈ (lanesOf op.lanes).getLast?, n ≠ 0 → t'.ctags =
        if (outs l).tag then t.ctags ||| (quadBits (d.toNat - 96) n).setWidth 4
        else t.ctags &&& ~~~((quadBits (d.toNat - 96) n).setWidth 4)) ∧
      ∀ k c c', t.cregs[k]? = some c → t'.cregs[k]? = some c' →
        if d.toNat - 96 ≤ k ∧ k < d.toNat - 96 + n then
          ∀ l ∈ (lanesOf op.lanes).getLast?, c' = { val := ((outs l).vals[k - (d.toNat - 96)]?).getD 0, empty := false, mark := none }
        else c' = c
    else g'.regs = g.regs ∧ t'.cregs = t.cregs ∧ t'.ctags = t.ctags

/-- What a register operation of form `f` leaves when every lane completes with `outs`: results in its destination, the lanes at
PC + 4, and nothing else changed but the meetings and lots of its group and the watchdog clock of its context. -/
structure Results (s s' : State) (op : Op) (t : Team) (g : Group) (f : Form) (outs : Nat → LaneOut) : Prop where
  frame : s' = { s with teams := s'.teams, ctxs := (s.signal t.ctx).ctxs }
  others : ∀ k, k ≠ op.team → s'.teams[k]? = s.teams[k]?
  team : ∃ t', s'.teams[op.team]? = some t' ∧ t' = { t with groups := t'.groups, cregs := t'.cregs, ctags := t'.ctags } ∧
    (∀ k, k ≠ op.grp → t'.groups[k]? = t.groups[k]?) ∧
    ∃ g', t'.groups[op.grp]? = some g' ∧ g' = { g with regs := g'.regs, threads := g'.threads } ∧
      regsAfter op t t' g g' f outs ∧
      (∀ l ∈ lanesOf op.lanes, ∀ th, g.threads[l]? = some th →
        ∃ th', g'.threads[l]? = some th' ∧ th.after op f.dst (outs l) th') ∧
      (∀ l, l ∉ lanesOf op.lanes → ∀ th, g.threads[l]? = some th → ∃ th', g'.threads[l]? = some th' ∧
        th' = { th with meet := th'.meet, arrived := th'.arrived, age := th'.age, lot := th'.lot, lotOpen := th'.lotOpen })

end Sys2Proof

namespace Sys2Proof.Claims

open Sys2Proof Machine

/-! ## Rows: what a claim about an instruction says -/

/-- A register instruction: its form, and what each lane delivers. -/
abbrev Row := Form × (Iss → State → Nat → LaneOut)

/-- What an operation does where it executes normally: the state with every lane's end, or none elsewhere. -/
abbrev Effect := Iss → State → Option (State × List LaneOut)

/-- Lanes in ascending order through the state (06 R164), each with a normal effect. -/
def eachFrom (h : Iss → State → Nat → Option (State × LaneOut)) (i : Iss) : List Nat → State → Option (State × List LaneOut)
  | [], s => some (s, [])
  | l :: r, s => match h i s l with
    | some (s1, o) => (eachFrom h i r s1).map fun x => (x.1, o :: x.2)
    | none => none

def each (h : Iss → State → Nat → Option (State × LaneOut)) : Effect := fun i s => eachFrom h i i.lanes s

/-- What the lanes of a load bring, in ascending order. -/
def bringFrom (h : Iss → State → Nat → Option (State × LoadLane)) (i : Iss) : List Nat → State → Option (State × List LoadLane)
  | [], s => some (s, [])
  | l :: r, s => match h i s l with
    | some (s1, y) => (bringFrom h i r s1).map fun x => (x.1, y :: x.2)
    | none => none

/-- A load: its destination is empty until what the lanes brought lands (01 R37). The core takes it while its requests stay within 4,096 (00
R3). -/
def loads (d : Reg) (w : BitVec 3) (h : Iss → State → Nat → Option (State × LoadLane)) : Effect := fun i s =>
  if s.takes i i.lanes.length then (bringFrom h i i.lanes s).map fun r => (r.1.startLoad i d w r.2 [], i.lanes.map fun l => .only l .next)
  else none

/-- Lanes in ascending order through the state: one that `stop` names ends as it says, and the others have their effect. -/
def among (stop h : Iss → State → Nat → Option (State × LaneOut)) : Effect := each fun i s l =>
  match stop i s l with
  | some r => some r
  | none => h i s l

/-- The same of lanes that bring something: the results of the lanes, and what those that go on bring. -/
def bringAmong (stop : Iss → State → Nat → Option (State × LaneOut)) (h : Iss → State → Nat → Option (State × LoadLane)) (i : Iss) :
    List Nat → State → Option (State × List LaneOut × List LoadLane)
  | [], s => some (s, [], [])
  | l :: r, s => match stop i s l with
    | some (s1, o) => (bringAmong stop h i r s1).map fun x => (x.1, o :: x.2.1, x.2.2)
    | none => match h i s l with
      | some (s1, y) => (bringAmong stop h i r s1).map fun x => (x.1, .only l .next :: x.2.1, y :: x.2.2)
      | none => none

/-- A load or an atomic of which some lanes end as `stop` says: what the other lanes bring lands. -/
def loadsAmong (d : Reg) (w : BitVec 3) (stop : Iss → State → Nat → Option (State × LaneOut))
    (h : Iss → State → Nat → Option (State × LoadLane)) : Effect := fun i s =>
  if s.takes i i.lanes.length then (bringAmong stop h i i.lanes s).map fun r => (r.1.startLoad i d w r.2.2 (standingOf r.2.1), r.2.1) else none

/-- Lanes that change nothing but themselves. -/
def still (ok : Iss → Nat → Bool) (out : Iss → Nat → LaneOut) : Effect := fun i s =>
  if i.lanes.all (ok i) then some (s, i.lanes.map (out i)) else none

/-- The lanes of a register form that are bad fault, and the others deliver. -/
def partly (bad : Iss → Nat → Option LaneOut) (out : Iss → Nat → LaneOut) : Effect := still (fun _ _ => true) fun i l => (bad i l).getD (out i l)

/-- One change for the whole operation; the lanes' results are read before it. -/
def turn (ok : Iss → State → Bool) (f : Iss → State → State) (out : Iss → State → Nat → LaneOut) : Effect := fun i s =>
  if ok i s then some (f i s, i.lanes.map (out i s)) else none

/-- Instruction `j` of form `f` completes with effect `E`: where nothing keeps the operation from executing and `E` has an outcome,
exec answers the state with the results written and every lane ended as the effect says. -/
def Runs (j : Instr) (f : Form) (E : Effect) : Prop :=
  ∀ s op t g s1 outs, Turn s op t g → Clear f op t g → E (issOf op t g) s = some (s1, outs) →
    exec j s = .next (s1.complete (issOf op t g) f outs)

/-- A register instruction `j`: where nothing keeps it from executing, exec answers a next state that holds what the row gives each
lane, and nothing else has changed. -/
def Delivers (j : Instr) (row : Row) : Prop :=
  ∀ s op t g, Turn s op t g → Clear row.1 op t g →
    ∃ s', exec j s = .next s' ∧ Results s s' op t g row.1 (row.2 (issOf op t g) s)

/-- Event `e` brings about the state that `h` gives. -/
def Brings (e : Instr) (h : State → Option State) : Prop := ∀ s s', h s = some s' → exec e s = .next s'

/-- A word of the RRR format (01 R21). -/
def wordOf (op : Nat) (d a b : BitVec 7) (f : Nat) : Nat := op * 2 ^ 26 + d.toNat * 2 ^ 19 + a.toNat * 2 ^ 12 + b.toNat * 2 ^ 5 + f

/-- A word of the RI format (01 R21). -/
def wordOfRi (op : Nat) (d a : BitVec 7) (imm : Nat) : Nat := op * 2 ^ 26 + d.toNat * 2 ^ 19 + a.toNat * 2 ^ 12 + imm

end Sys2Proof.Claims
end

