-- ==== Sys2Proof/Certificates/Slice0/Obligations.lean ====
section
/-! DEFINITION. The statements for the provers (Obligations), with the terms they are written in. A row of a statement gives, for one
instruction, what executes normally: its form (sources, destination, roles, levels, cores) and its effect where the operands allow it;
it says that exec then answers that next state. -/

namespace Sys2Proof.Claims

open Sys2Proof Machine

/-! ## Rows of register instructions -/

/-- d := f(a, b). -/
def two (rule : TagRule) (d a b : Reg) (f : Word → Word → Word) : Row :=
  (Form.plain [(a, 1), (b, 1)] (some (d, 1)) rule, fun i _ l => .write l [f (i.view.reg a l) (i.view.reg b l)])

/-- d := f(a). -/
def one (rule : TagRule) (d a : Reg) (f : Word → Word) : Row :=
  (Form.plain [(a, 1)] (some (d, 1)) rule, fun i _ l => .write l [f (i.view.reg a l)])

/-- d (`nd` registers) := f(a, b) over registers or pairs as numbers, modulo their width. -/
def wide (d a b : Reg) (nd na nb : Nat) (f : Nat → Nat → Nat) : Row :=
  (Form.plain [(a, na), (b, nb)] (some (d, nd)) .table, fun i _ l => .write l (wordsOf nd (f (i.num a na l) (i.num b nb l))))

/-- One value over the participating lanes, for every lane. -/
def reduceRow (d a : Reg) (n : Nat) (f : List Word → Nat) : Row :=
  (laneForm [(a, 1)] (some (d, n)) .u, fun i _ l => .write l (wordsOf n (f (i.lanes.map fun j => i.view.reg a j))))

/-- A shuffle: a of the source lane when it participates, else the lane's own. -/
def shuffleRow (d a b : Reg) (src : Nat → Nat → Word → Option Nat) : Row :=
  (laneForm [(a, 1), (b, 1)] (some (d, 1)) (.like a), fun i _ l =>
    .write l [i.view.reg a (match src i.team.gw l (i.view.reg b l) with
      | some j => if i.lanes.contains j then j else l
      | none => l)])

/-- A floating-point form: every role but COPY (09 R246). -/
def fForm (srcs : List (Reg × Nat)) (d : Reg × Nat) (sr : Bool) : Form :=
  { Form.plain srcs (some d) (if sr then .g else .table) with roles := rolesFloat }

/-- A result rounded in mode `rm`, with its flags; under SR the generator is stepped first and its state rounds (04 R107). -/
def rounded (n : Nat) (rm : BitVec 3) (i : Iss) (l : Nat) (f : Rm → Word → FRes) : LaneOut :=
  let g := if rmOf rm == .sr then srNext (i.thread l).rng else 0
  let r := f (rmOf rm) g
  { LaneOut.write l (wordsOf n r.bits) with fx := r.flags, rng := if rmOf rm == .sr then some g else none }

def float1Row (nd na : Nat) (rm : BitVec 3) (d a : Reg) (f : Rm → Word → Nat → FRes) : Row :=
  (fForm [(a, na)] (d, nd) (rmOf rm == .sr), fun i _ l => rounded nd rm i l fun m g => f m g (i.num a na l))

def float2Row (n : Nat) (rm : BitVec 3) (d a b : Reg) (f : Rm → Word → Nat → Nat → FRes) : Row :=
  (fForm [(a, n), (b, n)] (d, n) (rmOf rm == .sr), fun i _ l => rounded n rm i l fun m g => f m g (i.num a n l) (i.num b n l))

def float3Row (n : Nat) (rm : BitVec 3) (d a b : Reg) (f : Rm → Word → Nat → Nat → Nat → FRes) : Row :=
  (fForm [(d, n), (a, n), (b, n)] (d, n) (rmOf rm == .sr), fun i _ l =>
    rounded n rm i l fun m g => f m g (i.num d n l) (i.num a n l) (i.num b n l))

def floatSelRow (nd na nb : Nat) (d a b : Reg) (f : Nat → Nat → FRes) : Row :=
  (fForm [(a, na), (b, nb)] (d, nd) false, fun i _ l =>
    { LaneOut.write l (wordsOf nd (f (i.num a na l) (i.num b nb l)).bits) with fx := (f (i.num a na l) (i.num b nb l)).flags })

def floatSel1Row (nd na : Nat) (d a : Reg) (f : Nat → FRes) : Row :=
  (fForm [(a, na)] (d, nd) false, fun i _ l =>
    { LaneOut.write l (wordsOf nd (f (i.num a na l)).bits) with fx := (f (i.num a na l)).flags })

/-- FDOT over `n` elements with the window of GCR.DWIN. -/
def dotRow (f : Fmt) (n : Nat) (rm : BitVec 3) (d a b : Reg) : Row :=
  (fForm [(d, 1), (a, 1), (b, 1)] (d, 1) (rmOf rm == .sr), fun i _ l =>
    rounded 1 rm i l fun m g =>
      fDot f n m g (windowOf (i.view.group.gcr.toNat % 8)) (i.num d 1 l) (i.num a 1 l) (i.num b 1 l))

/-! ## Terms of single statements -/

/-- A fault in every lane: where nothing keeps `j` from executing and every lane is one that `bad` names, exec answers the state in
which each lane has met cause `c` with the address that `addr` gives, and nothing else has been done. -/
def Faults (j : Instr) (f : Form) (c : BitVec 8) (bad : Iss → Nat → Bool) (addr : Iss → Nat → Nat) : Prop :=
  ∀ s op t g, Turn s op t g → Clear f op t g → (lanesOf op.lanes).all (bad (issOf op t g)) = true →
    exec j s = .next (s.finish op ((lanesOf op.lanes).map fun l => .fault l c (addr (issOf op t g) l)))

/-- The byte at `va` (frame address `pa`) as the L1 of a core shows it to an address space: the L1's word, else the slice's, else
memory's. -/
def seen (s : State) (core asid va pa : Nat) : Byte :=
  match s.l1Find core asid (va / 4 * 4), s.l2Find asid (va / 4 * 4) with
  | some w, _ => w.data.extractLsb' (8 * (va % 4)) 8
  | none, some w => w.data.extractLsb' (8 * (va % 4)) 8
  | none, none => s.mem.byteAt pa

/-- The barrier object at a scratch offset of a team. -/
def scratchObject (s : State) (tm off : Nat) : BarObj := BarObj.ofBytes (memRead (s.team tm).pool.scr off 16)

/-! ## Tables: flow of control, thread state, capabilities (03 R74 to R100) -/

/-! ## Tables: loads, stores, scratch, copies, atomics, reductions, transactions (06 R161 to R194) -/

/-- What one lane's load from a checked place brings. -/
def loadAt (pol : BitVec 2) (w : BitVec 3) (a : Reg) (addr : Iss → Nat → Nat × Nat) (i : Iss) (s : State) (l : Nat) :
    Option (State × LoadLane) :=
  match s.check i l (addr i l).1 a (addr i l).2 ((askLoad (widthBytes w.toNat)).policy (s.polOf i l pol)) with
  | (s1, .ok p) =>
    let r := match (s1.threadOf i l).txn with
      | some x => txnRead s1 i l (addr i l).1 (widthBytes w.toNat) p x
      | none => s1.readSpot i l (addr i l).1 (widthBytes w.toNat) pol p
    match r.2 with
    | .data (.ok b) => some (r.1, { lane := l, words := extendLoad w.toNat b, err := none, addr := BitVec.ofNat 64 (addr i l).1,
                                    tag := s1.slotTag i.op.team w p })
    | .data (.bad c) => some (r.1, { lane := l, words := [], err := some c, addr := BitVec.ofNat 64 (addr i l).1, tag := false })
    | .ends _ => none
  | _ => none

/-- One lane's store to a checked place; a register block takes one store to a PATCTL, the lowest lane's, and performs each in its own order (22 R444,
R446). -/
def storeAt (pol : BitVec 2) (w : BitVec 3) (d a : Reg) (addr : Iss → Nat → Nat × Nat) (i : Iss) (s : State) (l : Nat) :
    Option (State × LaneOut) :=
  match s.check i l (addr i l).1 a (addr i l).2 ((askStore (widthBytes w.toNat)).policy (s.polOf i l pol)) with
  | (s1, .ok p) =>
    let bs := storeBytes i d w l
    let r := match p, (s1.threadOf i l).txn with
      | .reg _, _ => if regOrder i addr l (addr i l).1 then (s1, LaneEnd.next) else s1.writeSpot i l (addr i l).1 pol p bs false
      | _, some x => txnWrite s1 i l (addr i l).1 p bs x
      | _, none => s1.writeSpot i l (addr i l).1 pol p bs false
    if r.2 = .next then some (r.1, .only l .next) else none
  | _ => none

/-- The address of LD and ST: pair a plus the signed index times the width (R161). -/
def indexed (w : BitVec 3) (a b : Reg) (i : Iss) (l : Nat) : Nat × Nat :=
  address (i.view.pair a l) (i.view.reg b l).toInt (widthBytes w.toNat)

/-- The address of LDI and STI: pair a plus the signed offset field times the width. -/
def displaced (w : BitVec 3) (a : Reg) (off : BitVec 9) (i : Iss) (l : Nat) : Nat × Nat :=
  address (i.view.pair a l) off.toInt (widthBytes w.toNat)

/-- One lane's load from scratch (R171). -/
def scrLoadAt (w : BitVec 3) (a b : Reg) (i : Iss) (s : State) (l : Nat) : Option (State × LoadLane) :=
  let off := (scrOffset i a b w l).toNat
  if s.checkScr i (scrOffset i a b w l) (widthBytes w.toNat) (widthBytes w.toNat) = none ∧
      (s.team i.op.team).scrBad off (widthBytes w.toNat) = false then
    some ((s.scrRead i.op.team off (widthBytes w.toNat)).1,
      { lane := l, words := extendLoad w.toNat (s.scrRead i.op.team off (widthBytes w.toNat)).2, err := none,
        addr := BitVec.ofNat 64 off, tag := s.slotTag i.op.team w (.scr off) })
  else none

/-- One lane's store to scratch (R43, R171). -/
def scrStoreAt (w : BitVec 3) (d a b : Reg) (i : Iss) (s : State) (l : Nat) : Option (State × LaneOut) :=
  let off := (scrOffset i a b w l).toNat
  if s.checkScr i (scrOffset i a b w l) (widthBytes w.toNat) (widthBytes w.toNat) = none then
    some ((s.scrWrite i.op.team off (storeBytes i d w l)
        (w == 6 && i.view.capTag d l && decide (Nat.land permPass (capPerm (i.view.quad d l)) ≠ 0))).noteWrite i.op.team i.op.grp l true
      off (widthBytes w.toNat), .only l .next)
  else none

/-- A form that the MATRIX role does not run (R167). -/
def memForm (srcs : List (Reg × Nat)) (dst : Option (Reg × Nat)) (rule : TagRule) : Form :=
  { Form.plain srcs dst rule with roles := rolesMemory }

def copyForm (d a b : Reg) : Form :=
  { Form.plain [(d, 1), (a, 2), (b, 2)] none .table with foehn := false, roles := rolesCopy, txn := false }

def copyAt (toScr : Bool) (size : BitVec 3) (d a b : Reg) (i : Iss) (s : State) (l : Nat) : Option (State × LaneOut) :=
  if !s.takes i (piecesOf (i.view.pair a l) (copyBytes size)).length then none
  else match s.checkCopy i l (i.view.pair a l) (i.view.reg d l).toNat (i.view.pair b l) (copyBytes size) a toScr with
  | (s1, .ok (parts, barPa)) =>
    if parts.any fun p => s1.partWaits i toScr p.1 p.2.1 p.2.2.1 p.2.2.2 then none
    else some (parts.foldl (fun (st : State) (p : Nat × Nat × BitVec 2 × Nat) =>
      st.startPart i l s1.nextId ((i.view.reg d l).toNat + (p.1 - i.view.pair a l)) (i.view.pair b l) barPa toScr
        p.1 p.2.1 p.2.2.1 p.2.2.2) s1, .only l .next)
  | _ => none

/-- A register or a pair as an operand. -/
def operand (wide : Bool) (i : Iss) (r : Reg) (l : Nat) : Nat := if wide then i.view.pair r l else (i.view.reg r l).toNat

/-- The form of an atomic on 32 or 64 bits; CAS reads d as its compare value (R174, R175). -/
def atomForm (op : AtomOp) (wide : Bool) (d a b : Reg) : Form :=
  { memForm ([(a, 2), (b, if wide then 2 else 1)] ++ if op == .cas then [(d, if wide then 2 else 1)] else [])
      (some (d, if wide then 2 else 1)) .g with foehn := false, txn := false }

/-- One lane's atomic: the location is stepped, and its old value is what the lane's load brings. -/
def atomAt (op : AtomOp) (wide : Bool) (d a b : Reg) (i : Iss) (s : State) (l : Nat) : Option (State × LoadLane) :=
  let n := if wide then 8 else 4
  match s.check i l (i.view.pair a l) a 0 (askAtom n) with
  | (s1, .ok p) =>
    let r := s1.atomSpot i l (i.view.pair a l) n op (operand wide i b l) (operand wide i d l) p
    match r.2 with
    | .data (.ok bs) => some (r.1, { lane := l, words := wordsOf (if wide then 2 else 1) (natOf bs), err := none,
                                     addr := BitVec.ofNat 64 (i.view.pair a l), tag := false })
    | .data (.bad c) => some (r.1, { lane := l, words := [], err := some c, addr := BitVec.ofNat 64 (i.view.pair a l),
                                     tag := false })
    | .ends _ => none
  | _ => none

/-- An atomic: each location is stepped, and its old value lands in d. -/
def atomEffect (op : AtomOp) (wide : Bool) (d a b : Reg) : Effect := loads d (if wide then 5 else 4) (atomAt op wide d a b)

/-- The form of a reduction with function code `code` (02 R57). -/
def redForm (code : Nat) (a b : Reg) : Form :=
  { memForm [(a, 2), (b, if redCodeWide code then 2 else 1)] none .table with txn := false }

/-- One lane's reduction: on an RC page of this device's DRAM it goes into the core's update-only copy, elsewhere the location is stepped
(R177, 17 R385). -/
def redAt (code : Nat) (a b : Reg) (i : Iss) (s : State) (l : Nat) : Option (State × LaneOut) :=
  let wide := redCodeWide code
  let n := if wide then 8 else 4
  match s.check i l (i.view.pair a l) a 0 (askRed n) with
  | (s1, .ok p) =>
    let t := s.team i.op.team
    let home : Option (State × LaneOut) :=
      let r := s1.atomSpot i l (i.view.pair a l) n (redOpOf code) (operand wide i b l) 0 p
      match r.2 with
      | .data (.ok _) => some (r.1, .only l .next)
      | .data (.bad c) => some (r.1.postStoreError t.ctx c (i.view.pair a l), .only l .next)
      | .ends _ => none
    match p with
    | .page attr pa =>
      if attr == attrRC && paClass pa == .dram then
        let core := l1Core t (t.coreOf i.op.grp) (i.view.pair a l)
        some (((s1.ownCopies i l pa n).l1Bypass core (s1.asidOf t.ctx) (i.view.pair a l) n).modCore core fun k =>
          { k with upd := updAdd k.upd { asid := s1.asidOf t.ctx, va := i.view.pair a l, pa := pa,
                                         slice := s1.homeSlice (s1.asidOf t.ctx) (i.view.pair a l), op := code,
                                         val := BitVec.ofNat 64 (operand wide i b l) } }, .only l .next)
      else home
    | _ => home
  | _ => none

def redEffect (code : Nat) (a b : Reg) : Effect := each (redAt code a b)

/-- The lanes of TEND that go on to commit, in order, each with the end that its commit gives it. -/
def commits (i : Iss) : List (Nat × Txn) → State → State × List (Nat × LaneEnd)
  | [], s => (s, [])
  | (l, x) :: r, s =>
    let c := s.commitLane i l x
    let q := commits i r c.1
    (q.1, (l, c.2) :: q.2)

/-! ## Lanes that fault beside lanes that do not (06 R163) -/

/-- The first three checks of R163 on `n` bytes at `addr`, aligned to `n`, through the quad of `a` with the permissions `perm`. -/
def barred (n perm : Nat) (a : Reg) (addr : Iss → Nat → Nat × Nat) (i : Iss) (s : State) (l : Nat) : Option (State × LaneOut) :=
  let va := (addr i l).1
  if va % n ≠ 0 then some (s, .fault l cMisaligned va)
  else if !capOk i l a (addr i l).2 n perm then some (s, .fault l cCapability va)
  else if inAperture va && !s.relocating i.op.team && !(s.team i.op.team).scrIn (va - apBase) n then some (s, .fault l cScratch (va - apBase))
  else none

/-- The address that pair a holds. -/
def atPair (a : Reg) (i : Iss) (l : Nat) : Nat × Nat := (i.view.pair a l, 0)

/-- The checks of a scratch offset (R161, R163, R171). -/
def barredScr (w : BitVec 3) (a b : Reg) (i : Iss) (s : State) (l : Nat) : Option (State × LaneOut) :=
  let off := scrOffset i a b w l
  let n := widthBytes w.toNat
  if off % n ≠ 0 then some (s, .only l (.fault cMisaligned 0 (BitVec.ofInt 64 off)))
  else if s.relocating i.op.team then none
  else if off < 0 ∨ (s.team i.op.team).scrIn off.toNat n = false then some (s, .only l (.fault cScratch 0 (BitVec.ofInt 64 off)))
  else none

/-- The checks of a lane's copy before those of its pages (R163, R172): both addresses aligned to the smaller of n and 16, the capability over all
n bytes, no scratch as the global address, the scratch bytes in bounds. -/
def barredCopy (toScr : Bool) (size : BitVec 3) (d a : Reg) (i : Iss) (s : State) (l : Nat) : Option (State × LaneOut) :=
  let va := i.view.pair a l
  let off := (i.view.reg d l).toNat
  let n := copyBytes size
  if !s.takes i (piecesOf va n).length then none
  else if va % Nat.min n 16 ≠ 0 then some (s, .fault l cMisaligned va)
  else if off % Nat.min n 16 ≠ 0 then some (s, .fault l cMisaligned off)
  else if !capOk i l a 0 n (if toScr then permR else permW) then some (s, .fault l cCapability va)
  else if inAperture va then some (s, .fault l cScratch (va - apBase))
  else if !s.relocating i.op.team && !(s.team i.op.team).scrIn off n then some (s, .fault l cScratch off)
  else none

/-- The atomics with their operations, and the reductions with their codes (02 R57, 06 R174, R175, R177). -/
noncomputable def atomTable (d a b : Reg) : List (AtomOp × Bool × Instr) :=
  [(.add, false, .atomAdd d a b), (.and, false, .atomAnd d a b), (.or, false, .atomOr d a b), (.xor, false, .atomXor d a b),
   (.minS, false, .atomMinI32 d a b), (.maxS, false, .atomMaxI32 d a b), (.minU, false, .atomMinN32 d a b),
   (.maxU, false, .atomMaxN32 d a b), (.xchg, false, .atomXchg d a b), (.cas, false, .atomCas d a b), (.incw, false, .atomIncw d a b),
   (.decw, false, .atomDecw d a b), (.fadd, false, .atomFaddS d a b), (.fmin, false, .atomFminS d a b), (.fmax, false, .atomFmaxS d a b),
   (.faddH2, false, .atomFaddH2 d a b), (.faddB2, false, .atomFaddB2 d a b), (.add, true, .atom64Add d a b),
   (.and, true, .atom64And d a b), (.or, true, .atom64Or d a b), (.xor, true, .atom64Xor d a b), (.minS, true, .atom64MinI64 d a b),
   (.maxS, true, .atom64MaxI64 d a b), (.minU, true, .atom64MinN64 d a b), (.maxU, true, .atom64MaxN64 d a b),
   (.xchg, true, .atom64Xchg d a b), (.cas, true, .atom64Cas d a b), (.incw, true, .atom64Incw d a b), (.decw, true, .atom64Decw d a b),
   (.fadd, true, .atom64FaddD d a b), (.fmin, true, .atom64FminD d a b), (.fmax, true, .atom64FmaxD d a b)]

noncomputable def redTable (a b : Reg) : List (Nat × Instr) :=
  [(0, .redAdd a b), (1, .redAnd a b), (2, .redOr a b), (3, .redXor a b), (4, .redMinI32 a b), (5, .redMaxI32 a b), (6, .redMinN32 a b),
   (7, .redMaxN32 a b), (12, .redFaddS a b), (13, .redFminS a b), (14, .redFmaxS a b), (15, .redFaddH2 a b), (16, .redFaddB2 a b),
   (20, .redAdd64 a b), (21, .redFaddD a b)]

/-- Where a store of a transaction aborts it (R192): ATTRIBUTE on a WO or IP page and in the scratch aperture, CAPACITY beyond the sets'
limits and beyond a link (DEDUCED log 14). -/
def txnStoreEnds (x : Txn) (va : Nat) (bs : List Byte) : Spot → Option Nat
  | .page attr pa =>
    if attr = attrWO ∨ attr = attrIP then some 6 else if paClass pa ≠ .dram then some 3
    else if (txnStoreWords x bs (wordsIn va bs.length)).fits then none else some 3
  | .scr _ => some 6
  | _ => none

/-- A lane of a transaction whose store aborts it. -/
def txnStoreStops (w : BitVec 3) (d a : Reg) (pol : BitVec 2) (addr : Iss → Nat → Nat × Nat) (i : Iss) (s : State) (l : Nat) :
    Option (State × LaneOut) :=
  match s.check i l (addr i l).1 a (addr i l).2 ((askStore (widthBytes w.toNat)).policy (s.polOf i l pol)) with
  | (s1, .ok p) => match (s1.threadOf i l).txn with
    | some x => (txnStoreEnds x (addr i l).1 (storeBytes i d w l) p).map fun c => (s1, .only l (.abort c))
    | none => none
  | _ => none

/-- A lane of a transaction whose load aborts it: the words read before are read, and none joins. -/
def txnLoadStops (w : BitVec 3) (a : Reg) (pol : BitVec 2) (addr : Iss → Nat → Nat × Nat) (i : Iss) (s : State) (l : Nat) :
    Option (State × LaneOut) :=
  let va := (addr i l).1
  let n := widthBytes w.toNat
  match s.check i l va a (addr i l).2 ((askLoad n).policy (s.polOf i l pol)) with
  | (s1, .ok p) => match (s1.threadOf i l).txn, p with
    | some x, .page attr pa =>
      if attr = attrWO ∨ attr = attrIP then some (s1, .only l (.abort 6)) else if paClass pa ≠ .dram then some (s1, .only l (.abort 3))
      else if s1.memoryWaits i va pa n attr 1 false then none
      else
        let r := txnLoadWords s1 i l va pa attr x (wordsIn va n)
        if r.2.2.fits then none else some (r.1, .only l (.abort 3))
    | some _, .scr _ => some (s1, .only l (.abort 6))
    | _, _ => none
  | _ => none

/-! ## Tables: barriers, rings, fences, maintenance, tokens, waits (06 R178 to R201, 07 R224) -/

/-- A form that no Foehn core and no transaction runs. -/
def mainForm (srcs : List (Reg × Nat)) (dst : Option (Reg × Nat)) (rule : TagRule) : Form :=
  { Form.plain srcs dst rule with foehn := false, txn := false }

/-- A lane's step on the object that its pair a names, once the checks have passed (R180). -/
def objectAt (a : Reg) (h : Iss → State → Nat → Nat → Spot → Option (State × LaneOut)) (i : Iss) (s : State) (l : Nat) :
    Option (State × LaneOut) :=
  match s.check i l (i.view.pair a l) a 0 askBarrier with
  | (s1, .ok p) => h i s1 l (i.view.pair a l) p
  | _ => none

def onObject (a : Reg) (h : Iss → State → Nat → Nat → Spot → Option (State × LaneOut)) : Effect := each (objectAt a h)

/-- An arrival or expectation that does not wait for a link. -/
def stepAt (arrival token : Bool) (k : BarStep) (i : Iss) (s : State) (l va : Nat) (p : Spot) : Option (State × LaneOut) :=
  let r := if arrival then s.barRelease i l va p else (s, false)
  if r.2 then none
  else match r.1.barStep i l va p k with
    | (s2, .obj o) => some (s2, if token then .write l [BitVec.ofNat 32 o.phase] else .only l .next)
    | _ => none

/-- BINIT of an object that no copy in flight will decrement (R181). -/
def initAt (d b : Reg) (i : Iss) (s : State) (l va : Nat) (p : Spot) : Option (State × LaneOut) :=
  match s.barStep i l va p (.init ((i.view.reg b l).toNat % 65536) ((i.view.reg d l).toNat / 256) ((i.view.reg d l).getLsbD 0)) with
  | (s1, .obj _) => if s.barCopied i.op.team va p then none else some (s1, .only l .next)
  | _ => none

/-- ARRIVE (R182), on a Foehn core on a call's barrier (20 R416). -/
def arriveAt (a b : Reg) (i : Iss) (s : State) (l : Nat) : Option (State × LaneOut) :=
  let va := i.view.pair a l
  let n := (i.view.reg b l).toNat % 65536
  if i.team.onFoehn then
    match callArrive a n i s l va with
    | (s1, o) => if o.ends = .next then some (s1, o) else none
  else match s.check i l va a 0 askBarrier with
    | (s1, .ok p) => stepAt true true (.arrive n) i s1 l va p
    | _ => none

/-- BWAIT (R183): a wait while the phase is b's; else the status, an acquire, and the trap of a recorded error of origin 1. -/
def waitAt (b : Reg) (i : Iss) (s : State) (l va : Nat) (p : Spot) : Option (State × LaneOut) :=
  match s.barRead i l va p with
  | (s1, .obj o) =>
    if o.phase = (i.view.reg b l).toNat % 256 then
      some (s1.modThread i.op.team i.op.grp l fun th => { th with farExt := o.ext }, .only l (.wait (.bwait va p.framePa)))
    else
      let s2 := (s1.barAcquire i p).acquired i.op.team va p o
      if o.err && o.origin = 1 then some (s2, .fault l (BitVec.ofNat 8 o.code) va) else some (s2, .write l [o.status])
  | _ => none

/-- BTEST (R183). -/
def testAt (b : Reg) (i : Iss) (s : State) (l va : Nat) (p : Spot) : Option (State × LaneOut) :=
  match s.barRead i l va p with
  | (s1, .obj o) =>
    if o.phase = (i.view.reg b l).toNat % 256 then some (s1, .write l [0])
    else some ((s1.barAcquire i p).acquired i.op.team va p o, .write l [1])
  | _ => none

/-- The permissions that a barrier instruction needs (R42). -/
def permObject : Nat := permR + permW + permAtomic

/-- Threads that arrive anew and leave the barrier open wait; when they are the last, everyone is let go, with the release of every thread (R185,
R188). -/
def syncPoint (k : WaitKind) (whole : Bool) : Effect := fun i s =>
  if i.lanes.any fun l => (s.threadOf i l).wait == some k then none
  else
    let s1 := s.modGroup i.op.team i.op.grp fun g => g.modLanes i.lanes fun _ th => th.sync k s.clock (s.swapTime i.op.team)
    let t := s1.team i.op.team
    let all := if whole then t.groups.all fun g => g.threads.all (Thread.atSync k)
      else ((t.groups[i.op.grp]?).map fun g => g.threads.all (Thread.atSync k)).getD false
    let due := s1.loadsDue i.op.team fun g _ => whole || g == i.op.grp
    let clear (g : Group) : Group := { g with threads := g.threads.map fun th => { th with synced := false } }
    if i.lanes.isEmpty then none
    else if !all || due then some (s1, i.lanes.map fun l => .only l (.wait k))
    else if whole then
      let s2 := (List.range t.groups.length).foldl (fun (st : State) (g : Nat) =>
        (st.relLanes i.op.team g (List.range t.gw)).acquireTeam i.op.team g) s1
      some (s2.modTeam i.op.team fun t => { t with groups := t.groups.map clear }, i.lanes.map fun l => .only l .next)
    else
      let s2 := (List.range t.gw).foldl (fun (st : State) (l : Nat) => st.doCopies i.op.team i.op.grp l fun _ => true) s1
      some (s2.modGroup i.op.team i.op.grp clear, i.lanes.map fun l => .only l .next)

/-- A ring operation that finds its slot in the state it needs: the object after it, the result and what the operation orders; or that answers 1 and
changes nothing (R187). -/
def onRing (id : BitVec 3) (f : Iss → RingObj → Option (Option (RingObj × Word × (State → Nat → Nat → List Nat → State)))) : Effect := fun i s =>
  let t := s.team i.op.team
  if !(t.rings.any fun r => r.1 == id.toNat) || s.relocating i.op.team || t.scrBad (16 * id.toNat) 16 then none
  else match f i (RingObj.ofBytes (s.scrRead i.op.team (16 * id.toNat) 16).2) with
    | none => none
    | some none => some ((s.scrRead i.op.team (16 * id.toNat) 16).1, i.lanes.map fun l => .write l [1])
    | some (some (r, w, after)) =>
      some (after ((s.scrRead i.op.team (16 * id.toNat) 16).1.scrPut i.op.team (16 * id.toNat) r.bytes false) i.op.team i.op.grp i.lanes,
        i.lanes.map fun l => .write l [w])

def fenceReleased (scope : BitVec 2) (i : Iss) (s : State) (l : Nat) (f : State → State) : Option (State × LaneOut) :=
  if s.loadsDue i.op.team (fun g x => g == i.op.grp && x == l) then none
  else if scope = 3 ∧ (s.fenceRel i scope.toNat l).sysDue i.team.ctx i.op.team i.op.grp l = true then none
  else some (f (s.fenceRel i scope.toNat l), .only l .next)

def rangeForm (a b : Reg) : Form := { Form.plain [(a, 2), (b, 1)] none .table with foehn := false, roles := rolesMemory, txn := false }

def onRange (a b : Reg) (f : Iss → State → Nat → Nat → State) : Effect := each fun i s l =>
  some (if (i.view.reg b l).toNat = 0 then s else f i s (i.view.pair a l) (i.view.reg b l).toNat, .only l .next)

def eachL1 (i : Iss) (s : State) (f : State → Nat → Nat → State) : State :=
  (l1Set i.team (i.team.coreOf i.op.grp)).foldl (fun (st : State) (c : Nat) => f st c (s.asidOf i.team.ctx)) s

def tokenForm (d a : Reg) (bs : List (Reg × Nat)) : Form :=
  { Form.plain ((a, 2) :: bs) (some (d, 1)) .table with foehn := false, roles := rolesMemory, txn := false }

def onRegion (a : Reg) (f : Iss → State → Nat → TbEntry → Option (State × Word)) : Effect := fun i s =>
  let va := i.view.pair a (i.lanes.headD 0)
  if va % regionSize ≠ 0 ∨ canonicalVa va = false then none
  else match s.translate i.team.ctx va with
    | (s1, .ok e) => (f i s1 (va / regionSize) e).map fun r => (r.1, i.lanes.map fun l => .write l [r.2])
    | _ => none

def onWord (a b : Reg) (kind : Nat → Option Nat → WaitKind) (f : Word → Word → Bool) : Effect := each fun i s l =>
  let va := i.view.pair a l
  match s.check i l va a 0 askWord with
  | (s1, .ok p) => match s1.readSpot i l va 4 1 p with
    | (s2, .data (.ok bs)) =>
      if f (BitVec.ofNat 32 (natOf bs)) (i.view.reg b l) then
        some (match p with
          | .scr _ => if kind va none == .word va none then s2.acquireTeam i.op.team i.op.grp else s2.acquireDev i.op.team i.op.grp
          | _ => s2.acquireDev i.op.team i.op.grp, .only l .next)
      else some (s2, .only l (.wait (kind va p.framePa)))
    | _ => none
  | _ => none

/-! ## Tables: the pool (05 R131 to R142, 13 R309 to R312) -/

def poolForm (d a b : Reg) : Form :=
  { Form.plain [(a, 1), (b, 1)] (some (d, 1)) .u with foehn := false, txn := false }

def poolAsked (grow : Bool) (role : BitVec 2) (d a b : Reg) : Effect := fun i s =>
  let l0 := i.lanes.headD 0
  let r : PoolReq := { team := i.op.team, grp := i.op.grp, lanes := maskOf i.lanes, pc := i.op.pc, dst := d, grow := grow,
                       role := roleOf role, count := (i.view.reg b l0).toNat, discard := (i.view.reg a l0).getLsbD 1,
                       phase := .waiting, destBase := 0, destOdd := 0, relocates := false, waited := false,
                       wait := (i.view.reg a l0).getLsbD 0, sys := i.op.sys }
  if i.lanes.isEmpty || !(s.poolPending i false).isEmpty || s.poolBusy i.op.team then none
  else match s.testPool r r.wait r.sys with
    | .refuse c => some (s.countPool r.team fun p => { p with refusals := bump p.refusals },
        i.lanes.map fun l => .write l [BitVec.ofNat 32 c])
    | .granted => some (s.countPool r.team fun p => { p with grants := bump p.grants }, i.lanes.map fun l => .write l [0])
    | .pass dest odd m => some (s.beginPool r dest odd m, i.lanes.map fun l => .only l .stay)
    | .wait => none

/-! ## Tables: tiles and the matrix engine (05 R143 to R159) -/

/-- A form of major 0x38 or 0x39: main cores only, not inside a transaction. -/
def tForm (roles : Role → Bool) (srcs : List (Reg × Nat)) (dst : Option (Reg × Nat)) (rule : TagRule) : Form :=
  { Form.plain srcs dst rule with foehn := false, roles := roles, txn := false }

/-- A lane's step on tiles while the team's banks stand still. -/
def onTile (h : Iss → State → Nat → Option State) : Effect := each fun i s l =>
  if s.relocating i.op.team then none else (h i s l).map fun s1 => (s1, .only l .next)

/-- A tile register that has a shape and whose storage lies in the team's banks (R146). -/
def onNamed (s : State) (i : Iss) (d : Sys2Proof.Tile) (f : Machine.Tile → Option State) : Option State :=
  match (s.team i.op.team).tileOf d.toNat with
  | .ok t => f t
  | .error _ => none

/-- The lanes' steps on their row segments of a tile, lane by lane, where every lane's `b` names one and its register operand is ready
(R149); what a form with a destination `d` delivers is written at the end. `odd` says that the operand is a pair that may not be odd. -/
def onSegment (k : Sys2Proof.Tile) (b : Reg) (odd : Machine.Tile → Bool) (f : Machine.Tile → Form) (d : Machine.Tile → Option (Reg × Nat))
    (h : Iss → State → Nat → Machine.Tile → Nat → Nat → Option (State × LaneOut)) : Effect := fun i s =>
  match (s.team i.op.team).tileOf k.toNat with
  | .ok t =>
    if s.relocating i.op.team || odd t then none
    else (each (fun i s l =>
      if obstacle i.view (tForm rolesFloat [(b, 1)] none .g) l != .none || obstacle i.view (f t) l != .none then none
      else match segment t k.toNat (i.view.reg b l) with
        | .ok (row, c0) => h i s l t row c0
        | .error _ => none) i s).map fun r =>
      (match d t with
        | some x => r.1.modTeam i.op.team fun u => u.writeRegs i.op.grp i.op.base x.1 x.2 false .g r.2
        | none => r.1, r.2)
  | .error _ => none

def multiply (seq lat : Bool) (acc : BitVec 2) (d a b : Sys2Proof.Tile) : Effect := onTile fun i s _ =>
  match (s.team i.op.team).mmaCheck seq a.toNat (if lat then none else some b.toNat) d.toNat with
  | .ok (ta, tb, td) =>
    if (s.team i.op.team).eng.isFull then none
    else some (s.engIssue i.op.team (.mma seq acc.toNat (some ta) tb td))
  | .error _ => none

/-! ## Tables: engine commands, near memory, queues, launches (07 R202 to R223) -/

def engForm (priv : Bool) (srcs : List (Reg × Nat)) (dst : Option (Reg × Nat)) : Form :=
  { Form.plain srcs dst .same with foehn := false, priv := priv, roles := rolesCopy, txn := false }

def submitCommand (kind : Nat) (a : Reg) (i : Iss) (s : State) (l : Nat) : Option (State × LaneOut) :=
  let tm := i.op.team
  let off := (i.view.reg a l).toNat
  let t := s.team tm
  if off % 64 ≠ 0 || !t.scrIn off 64 || s.relocating tm || t.scrBad off 64 then none
  else
    let r := s.scrRead tm off 64
    if !engineBlockOk kind r.2 then none
    else
      let c : Cmd := { team := tm, ctx := t.ctx, kind := kind, id := t.cmdCounter, block := r.2, blockOff := off,
                       state := if heldBlock kind r.2 then .held else .queued, cause := 0, pins := [], barPa := 0, tlb := [],
                       pages := 0, started := false, acc := [], core := t.coreOf i.op.grp, born := s.tick }
      match (if c.state == .held then (r.1.relDev tm i.op.grp l, c, .ok) else (r.1.relDev tm i.op.grp l).pinCommand c : State × Cmd × Admit) with
      | (s2, c1, .ok) =>
        match (if barrierOf (blockBarrier r.2) = noBarrier then (s2, .ok 0) else s2.checkBarrier i (barrierOf (blockBarrier r.2)) :
            State × Except LaneEnd Nat) with
        | (s3, .ok pa) =>
          some ((s3.queueCmd tm { c1 with barPa := pa }).1, .write l [BitVec.ofNat 32 (s3.queueCmd tm { c1 with barPa := pa }).2])
        | _ => none
      | _ => none

/-- A FRED performed where its location is. -/
def stepped (i : Iss) (l va n code y ctx : Nat) (s : State) (p : Spot) : Option (State × LaneOut) :=
  match s.atomSpot i l va n (redOpOf code) y 0 p with
  | (s1, .data (.ok _)) => some (s1, .only l .next)
  | (s1, .data (.bad k)) => some (s1.postStoreError ctx k va, .only l .next)
  | _ => none

def submitCall (walk : Bool) (a b : Reg) (i : Iss) (s : State) (l : Nat) : Option (State × LaneOut) :=
  let tm := i.op.team
  let off := (i.view.reg a l).toNat
  let bar := i.view.pair b l
  let t := s.team tm
  if off % 64 ≠ 0 || !t.scrIn off 256 || s.relocating tm || t.scrBad off 256 then none
  else
    let r := s.scrRead tm off 256
    if (badSlot t r.2 off).isSome || !msgOk walk r.2 || bar % 16 != 0 then none
    else
      let id := ((r.1.ctxOf t.ctx).map (·.callIds)).getD 1
      match (r.1.relDev tm i.op.grp l).acceptCall (callOfMessage walk r.2 t.ctx tm id bar 0)
          (fun st va => st.holds tm (st.asidOf t.ctx) va) (fun st => st.checkBarrier i bar) with
      | (s2, .ok c) => some ((s2.modCtx t.ctx fun x => { x with callIds := nextCallId id }).addCall c,
          .write l [BitVec.ofNat 32 id])
      | _ => none

def edgeForm (srcs : List (Reg × Nat)) (d : Reg) : Form :=
  { Form.plain srcs (some (d, 1)) .same with foehn := false, roles := rolesMemory, txn := false }

def onRecord (b : Reg) (h : Iss → State → Nat → Nat → Option (State × LaneOut)) : Effect := each fun i s l =>
  let off := (i.view.reg b l).toNat
  if off % 16 ≠ 0 || !(s.team i.op.team).scrIn off 16 || s.relocating i.op.team then none
  else h i s l off

/-! ## Tables: the system instructions (07 R225 to R228) -/

/-- The registers of R225 that a kind of core knows: 0x10 on main cores, 0x20 on Foehn cores, the others on both; WRSR writes none
of CTXID, CCHBANKS and STACKID. -/
def knows (n : Nat) (foehn write : Bool) : Bool :=
  if write then decide (1 ≤ n) && decide (n ≤ 9) else decide (n ≤ 9) || n == if foehn then 0x20 else 0x10

/-- A form of the PRIV major. -/
def sysForm (main foehn : Bool) (srcs : List (Reg × Nat)) (dst : Option (Reg × Nat)) : Form :=
  { Form.plain srcs dst .same with main := main, foehn := foehn, priv := true, txn := false }

/-- One lane's ATTRCHG (07 R226, 17 R390): the page is marked, what came before the mark is performed, the page is
purged and found unpinned, and its leaf rewritten; the result is the old attribute, or all ones where there is no mapping. -/
def attrChange (a b : Reg) (i : Iss) (s : State) (l : Nat) : Option (State × LaneOut) :=
  let va := i.view.pair a l
  if !canonicalVa va || inAperture va then none
  else match (s.relDev i.op.team i.op.grp l).translate i.team.ctx va with
    | (s1, .absent) => match s1.leafOf i.team.ctx va with
      | (s2, .ok _) => some (s2.unmarkPage i.op.team i.op.grp l, .write l [BitVec.allOnes 32])
      | _ => none
    | (s1, .ok e) => match s1.leafOf i.team.ctx va with
      | (s2, .ok (leaf, _)) =>
        let m : AttrMark := { asid := s1.asidOf i.team.ctx, base := va / e.size * e.size, size := e.size, frame := localPa e.frame,
                              team := i.op.team, grp := i.op.grp, lane := l, goes := none }
        let s3 := s2.markPage m
        if !s3.markFirst m || s3.attrBusy leaf m then none
        else match (s3.attrPurge m).unpinned i.team.ctx (framesOf m.frame m.size) with
          | (s4, .ok true) => match (s4.attrPurge m).attrWrite leaf m ((i.view.reg b l).extractLsb' 0 2) with
            | (s5, .ok _) =>
              some ((s5.unmarkPage i.op.team i.op.grp l).acquireDev i.op.team i.op.grp, .write l [e.attr.setWidth 32])
            | _ => none
          | _ => none
      | _ => none
    | _ => none

/-- NMRET (07 R217): a call ends with the status that the lowest lane names; firmware ends. -/
def callReturn (a : Reg) : Effect :=
  turn (fun _ _ => true) (fun i s => match i.team.kind, i.team.place with
    | .firmware, .foehn st _ => s.endFirmware i.op.team st
    | _, _ => s.endCall i.op.team (nmretStatus (i.view.reg a (i.lanes.headD 0)))) fun _ _ l => .only l .exit

/-- One lane's FRED (07 R219). -/
def fredAt (op : BitVec 7) (a b : Reg) (i : Iss) (s : State) (l : Nat) : Option (State × LaneOut) :=
  let code := op.toNat
  let n := if redCodeWide code then 8 else 4
  let va := i.view.pair a l
  let t := s.team i.op.team
  let y := operand (redCodeWide code) i b l
  match s.check i l va a 0 { askRed n with attrOk := attrBarrier } with
  | (s1, .ok (.page attr pa)) =>
    if paClass pa ≠ .dram then (if redCodeFloat code && paClass pa != .host then none else stepped i l va n code y t.ctx s1 (.page attr pa))
    else
      let s3 := (((if attr == attrSC then s1.relDev i.op.team i.op.grp l else s1).ownCopies i l pa n).l1Bypass
        (l1Core t (t.coreOf i.op.grp) va) (s1.asidOf t.ctx) va n).combineLine pa
      if s3.lineCached pa then (stepped i l va n code y t.ctx s3 (.page attr pa)).map fun r =>
        -- in an OUT extent of a running call the word is undefined (R216)
        if s3.inExtent pa n then ((r.1.freeBytes n).2.homeWrite (s1.asidOf t.ctx) va pa (r.1.freeBytes n).1 true, r.2) else r
      else some (s3.setMem { s3.mem with freds := s3.mem.freds ++
        [{ ctx := t.ctx, asid := s1.asidOf t.ctx, va := va, pa := pa, op := code, val := BitVec.ofNat 64 y }] }, .only l .next)
  | (s1, .ok (.scr off)) => stepped i l va n code y t.ctx s1 (.scr off)
  | _ => none

/-- One lane's LAUNCH (07 R222). -/
def launchAt (a : Reg) (i : Iss) (s : State) (l : Nat) : Option (State × LaneOut) :=
  let tm := i.op.team
  let off := (i.view.reg a l).toNat
  let t := s.team tm
  match s.plat.inbox.find? (HeldPacket.ofLane tm i.op.grp l) with
  | some m =>
    -- the packet of a lane that has waited: it stands first now, and its kernel record is there
    if (s.plat.inbox.head?).any fun x => x.who == m.who then
      (s.submit m.ctx m.who m.packet m.args).2.map fun x =>
        let r := (s.submit m.ctx m.who m.packet m.args).1
        ({ r with plat := { r.plat with inbox := r.plat.inbox.tail } }, .write l [BitVec.ofNat 32 x.2])
    else none
  | none =>
    if off % 64 ≠ 0 || !t.scrIn off 64 || s.relocating tm || t.scrBad off 64 then none
    else
      let p := s.scrRead tm off 64
      let n := Machine.fieldOf p.2 32 2
      if n ≤ 256 && (!t.scrIn (off + 64) n || t.scrBad (off + 64) n) then none
      else
        let g := p.1.scrRead tm (off + 64) (if n ≤ 256 then n else 0)
        let st := g.1.relDev tm i.op.grp l
        if !st.plat.inbox.isEmpty then none
        else
          let r := st.submit t.ctx (some (tm, i.op.grp, l)) p.2 g.2
          r.2.map fun x => (r.1, .write l [BitVec.ofNat 32 x.2])

/-- One lane's MSEQ (05 R155). -/
def mseqAt (a : Reg) (i : Iss) (s : State) (l : Nat) : Option (State × LaneOut) :=
  let tm := i.op.team
  let off := (i.view.reg a l).toNat
  let t := s.team tm
  if off % 64 ≠ 0 || !t.scrIn off 64 || s.relocating tm || t.eng.isFull || t.scrBad off 64 then none
  else
    let r := s.scrRead tm off 64
    let fl := blockByte r.2 7
    if !mseqBlockOk r.2 then none
    else match t.mmaCheck (fl % 4 == 1) (blockByte r.2 5) (if fl / 16 % 2 == 1 then none else some (blockByte r.2 6)) (blockByte r.2 4) with
      | .error _ => none
      | .ok (ta, tb, td) =>
        match (if blockBarrier r.2 = 0 then (r.1, .ok 0) else r.1.checkBarrier i (blockBarrier r.2) : State × Except LaneEnd Nat) with
        | (s2, .ok pa) => some (s2.engIssue tm (.mseq r.2 off ta tb td 0 pa), .write l [t.eng.seq])
        | _ => none

/-! ## Tables: the events of the device -/

end Sys2Proof.Claims

open Sys2Proof Sys2Proof.Machine Sys2Proof.Claims

/-! ## Encodings and the step -/

/-- DECODE AND ENCODE AGREE (01 R21 to R24, 02): every well-formed instruction word has an encoding of 32 bits, and decoding it gives the
instruction with every operand. The rows before constructor 96 are the device's events, which have no word. -/
def Obligations.DecodeEncodeAgree : Prop :=
  ∀ i, wellFormed i = true → 96 ≤ i.ctorIdx → ∃ w, encode i = some w ∧ w < 2 ^ 32 ∧ decodeWord w = some i

/-- The other direction (01 R24): a word that decodes to an instruction is that instruction's encoding, and the instruction is
well formed; so no word has two readings and no field of a word is dropped. -/
def Obligations.EncodeDecodeAgree : Prop :=
  ∀ w i, w < 2 ^ 32 → decodeWord w = some i → encode i = some w ∧ wellFormed i = true

/-- Worked words of the spec (01 R25, 02, 03, 06, 07) decode to the instructions it names, and its words that are not instructions
(02, the table of illegal words) do not decode. -/
def Obligations.DecodeWorkedWords : Prop :=
  decodeWord 0x04181040 = some (.add 3 1 2) ∧ decodeWord 0x07101040 = some (.add 98 1 2) ∧
  decodeWord 0x08081001 = some (.addi 1 1 1) ∧ decodeWord 0xa820a803 = some (.ldi 4 4 10 3) ∧
  decodeWord 0x6c2050c8 = some (.fmacS 2 4 5 6) ∧ decodeWord 0x203c0000 = some (.lui 7 0x40000) ∧
  decodeWord 0x442ffffd = some (.bnz 5 0x7fffd) ∧ decodeWord 0x34402064 = some (.mulwN32 8 2 3) ∧
  decodeWord 0x4ff8a000 = some (.jr 127 10) ∧ decodeWord 0xd010a000 = some (.tbegin 2 10) ∧ decodeWord 0xd0000001 = some .tend ∧
  decodeWord 0xf8200060 = some (.rdsr 4 3) ∧ decodeWord 0xf80060a1 = some (.wrsr 6 5) ∧ decodeWord 0xf8000005 = some .tret ∧
  decodeWord 0xfc000007 = some (.trap 7) ∧ decodeWord 0xfc000000 = some .brk ∧ decodeWord 0 = some .ill ∧
  [0x10, 0x0418105e, 0x6c2050dc, 0x90205014, 0x88205020, 0xcc000019, 0xe4184035, 0x94206005].all (fun w => (decodeWord w).isNone) = true

/-- A step runs the instruction that the fetched word decodes to (01 R20, 09 R238): when, after its beginning, no event waits, the device runs,
and the oldest class is that of a thread, then with the word that its lanes get, from the fetch buffer or a fetch, the step is exec of the decoded
instruction on the operation of those lanes; a word that is no instruction is the illegal instruction (R24); a fetch that ends the
lanes ends them. -/
def Obligations.StepIssuesDecoded : Prop :=
  ∀ (s : State) c g th, s.begin.agenda = [] → s.begin.plat.tripped = false → s.begin.turn = false ∨ s.begin.workNext = none →
    s.begin.bestTeam 0 s.begin.issuers = some c → (s.begin.issuers[c.team]?).bind (·.groups[c.grp]?) = some g →
    g.threads[c.lane]? = some th →
    let r := s.begin.classWord c.team c.grp g c.lane (s.begin.classAt c g) th.pc
    let s2 := r.1
    let op (w : Word) : Op :=
      { team := c.team, grp := c.grp, lanes := maskOf r.2.2, pc := th.pc, base := th.base, sys := th.sys, word := w }
    (∀ w i, r.2.1 = .word w → decodeWord w.toNat = some i → step s = exec i { s2 with cur := some (op w), turn := true }) ∧
    (∀ w, r.2.1 = .word w → decodeWord w.toNat = none → step s = issueIllegal { s2 with cur := some (op w), turn := true }) ∧
    (∀ e, r.2.1 = .ends e → step s = .next { s2.finish (op 0) (r.2.2.map fun l => LaneOut.only l e) with turn := true })

/-- What else a step does (the model's order of events, DESIGN CHOICE log 1): the first waiting event happens when the device hears it and is dropped
when not; a tripped device does nothing more (23 R479); when the turn is the device's own, an internal event that is due happens. Its beginning
changes, where no launch waits for its kernel record, the time, what is known of waits and counters, and what has gone to the host. -/
def Obligations.StepRunsEvents : Prop :=
  ∀ (s : State),
    (∀ e r, s.begin.agenda = e :: r → e.ctorIdx < 96 ∧ s.begin.hears e = true → step s = exec e { s.begin with agenda := r }) ∧
    (∀ e r, s.begin.agenda = e :: r → ¬(e.ctorIdx < 96 ∧ s.begin.hears e = true) → step s = .next { s.begin with agenda := r }) ∧
    (s.begin.agenda = [] → s.begin.plat.tripped = true → step s = .next s.begin) ∧
    (∀ e, s.begin.agenda = [] → s.begin.plat.tripped = false → s.begin.turn = true → s.begin.workNext = some e →
      step s = exec e { s.begin with turn := false }) ∧
    -- with no launch that waits the beginning notes time, waits and counters, and sends what goes to the host
    (s.plat.inbox = [] → s.begin = { s with
      clock := s.begin.clock, tick := s.tick + 1, pace := s.pace.tail, links := s.begin.links, holOut := s.begin.holOut, teams := s.begin.teams,
      ctxs := s.begin.ctxs, cur := none } ∧ s.begin.clock = s.clock + s.pace.headD 1)

/-- Nothing stops the machine: an instruction word that is the operation at issue, whatever the state and its operands, and every event
in every state, ends in a next state. -/
def Obligations.EveryInstructionAnswers : Prop :=
  ∀ i s, (96 ≤ i.ctorIdx → ∃ op t g, Turn s op t g) → ∃ s', exec i s = .next s'

/-- The order of faults (01 R24, R25): ILL, and any instruction on a kind of core that lacks it, raises ILLEGAL_INSTRUCTION with the word in every
lane; then a privileged form at USER level raises PRIVILEGE; then a form that the group's role does not run raises ROLE; nothing else
of the instruction is done. -/
def Obligations.FaultOrder : Prop :=
  ∀ s op t g, Turn s op t g →
    exec .ill s = .next (s.faultAll op cIllegal op.word.toNat) ∧ issueIllegal s = .next (s.faultAll op cIllegal op.word.toNat) ∧
    (∀ f body, (if t.onFoehn then f.foehn else f.main) = false → issue f body s = .next (s.faultAll op cIllegal op.word.toNat)) ∧
    (∀ f body, (if t.onFoehn then f.foehn else f.main) = true → f.priv = true → op.sys = false →
      issue f body s = .next (s.faultAll op cPrivilege op.word.toNat)) ∧
    (∀ f body, (if t.onFoehn then f.foehn else f.main) = true → f.priv = false → op.sys = false → f.roles g.role = false →
      issue f body s = .next (s.faultAll op cRole op.word.toNat)) ∧
    (t.onFoehn = false → op.sys = false → ∀ d a b,
      exec .tret s = .next (s.faultAll op cPrivilege op.word.toNat) ∧ exec .haltc s = .next (s.faultAll op cPrivilege op.word.toNat) ∧
      exec (.cmint d a) s = .next (s.faultAll op cPrivilege op.word.toNat) ∧
      exec (.engMig d a) s = .next (s.faultAll op cPrivilege op.word.toNat) ∧
      exec (.tlbinv a b) s = .next (s.faultAll op cPrivilege op.word.toNat) ∧
      exec (.vpurge a b) s = .next (s.faultAll op cPrivilege op.word.toNat) ∧
      exec (.attrchg d a b) s = .next (s.faultAll op cPrivilege op.word.toNat) ∧
      exec (.rdsr d 1) s = .next (s.faultAll op cPrivilege op.word.toNat) ∧
      exec (.wrsr a 1) s = .next (s.faultAll op cPrivilege op.word.toNat)) ∧
    (t.onFoehn = true → t.kind ≠ .firmware → exec .tret s = .next (s.faultAll op cIllegal op.word.toNat))

/-! ## Traps -/

/-- Trap entry (10 R280, 03 R95): lanes that fault, with a vector set and outside a handler, have TPC at the instruction, TCAUSE, TADDR, SYSTEM
level and the PC at TVEC; their registers, flags and generator are as they were. Where no trap is delivered the lane parks, unhandled,
with TPC, TCAUSE and TADDR unchanged. -/
def Obligations.TrapDelivery : Prop :=
  ∀ s op t g c code a, Turn s op t g → t.kind ≠ .call → (∀ l ∈ lanesOf op.lanes, g.inTxn l = false) →
    ∃ t' g', (s.finish op ((lanesOf op.lanes).map fun l => .only l (.fault c code a))).teams[op.team]? = some t' ∧
      t'.groups[op.grp]? = some g' ∧ g'.regs = g.regs ∧ t'.cregs = t.cregs ∧
      (∀ l ∈ lanesOf op.lanes, ∀ th, g.threads[l]? = some th → ∃ th', g'.threads[l]? = some th' ∧
        (s.tvecOf t ≠ 0 ∧ th.inHandler (t.kind == .firmware) = false →
          th' = { th with tpc := op.pc, tcause := BitVec.ofNat 32 (c.toNat + code * 256), taddr := a, sys := true, inTrap := true,
                          pc := s.tvecOf t, arrived := false, wait := none, seen := none, stirred := false, fbuf := [],
                          age := th'.age, lot := th'.lot, lotOpen := th'.lotOpen }) ∧
        (s.tvecOf t = 0 ∨ th.inHandler (t.kind == .firmware) = true →
          th'.tpc = th.tpc ∧ th'.tcause = th.tcause ∧ th'.taddr = th.taddr ∧ th'.pc = th.pc ∧
          ∃ p, th'.park = some p ∧ p.unhandled = true ∧ p.cause = c))

/-- TRET (07 R227, 03 R95): each lane continues at its TPC at USER level (SYSTEM in firmware, 21 R484), its trap state ended, with its saved
registers, flags and generator as they were; the registers of the group, memory and the special registers of its context do not
change, but for the watchdog counter of the context, which an instruction that retires returns to 0 (10 R276). -/
def Obligations.TrapReturn : Prop :=
  ∀ s op t g, Turn s op t g → Clear { Form.plain [] none .same with priv := true, txn := false } op t g →
    (t.onFoehn = true → t.kind = .firmware) →
    (∀ l ∈ lanesOf op.lanes, ∀ th, g.threads[l]? = some th → th.tpc.extractLsb' 0 2 = 0) →
    ∃ s' t' g', exec .tret s = .next s' ∧ s'.teams[op.team]? = some t' ∧ t'.groups[op.grp]? = some g' ∧
      s'.mem = s.mem ∧ s'.ctxs = (s.signal t.ctx).ctxs ∧ g'.regs = g.regs ∧ t'.cregs = t.cregs ∧
      ∀ l ∈ lanesOf op.lanes, ∀ th, g.threads[l]? = some th → ∃ th', g'.threads[l]? = some th' ∧
        th'.pc = th.tpc ∧ th'.sys = (t.kind == .firmware) ∧ th'.inTrap = false ∧ th'.tpc = th.tpc ∧ th'.tcause = th.tcause ∧
        th'.taddr = th.taddr ∧ th'.fx = th.fx ∧ th'.rng = th.rng ∧ th'.base = th.base

/-- Faults of an access or a target (06 R161 to R163, R171, R172, R180, 01 R42, 03 R75, R91, R98, R100), for loads, stores, every atomic and
reduction, scratch accesses, copies and barrier instructions: in each lane a misaligned address raises MISALIGNED before anything else; then
a capability that does not admit the access raises CAPABILITY; then an offset outside the team's scratch raises SCRATCH_BOUNDS; such a lane
does nothing else, and the lanes that pass perform their accesses. JR, MSET (03 R92), CNARROW, CPERM and CMINT raise theirs in each bad lane and
complete in the others; the last clauses say of stores, JR, MSET, WBASE and CNARROW that where every lane is bad nothing at all has been
done. -/
def Obligations.AccessFaults : Prop :=
  (∀ pol w d a b, Runs (.ld pol w d a b) (memForm [(a, 2), (b, 1)] (some (d, widthRegs w.toNat)) .g)
    (loadsAmong d w (barred (widthBytes w.toNat) permR a (indexed w a b)) (loadAt pol w a (indexed w a b)))) ∧
  (∀ w d a off, Runs (.ldi w d a off) (memForm [(a, 2)] (some (d, widthRegs w.toNat)) .g)
    (loadsAmong d w (barred (widthBytes w.toNat) permR a (displaced w a off)) (loadAt 0 w a (displaced w a off)))) ∧
  (∀ pol w d a b, Runs (.st pol w d a b) (memForm [(a, 2), (b, 1), (d, widthRegs w.toNat)] none .table)
    (among (barred (widthBytes w.toNat) permW a (indexed w a b)) (storeAt pol w d a (indexed w a b)))) ∧
  (∀ w d a off, Runs (.sti w d a off) (memForm [(a, 2), (d, widthRegs w.toNat)] none .table)
    (among (barred (widthBytes w.toNat) permW a (displaced w a off)) (storeAt 0 w d a (displaced w a off)))) ∧
  (∀ d a b op wide j, (op, wide, j) ∈ atomTable d a b → Runs j (atomForm op wide d a b)
    (loadsAmong d (if wide then 5 else 4) (barred (if wide then 8 else 4) (permR + permW + permAtomic) a (atPair a)) (atomAt op wide d a b))) ∧
  (∀ a b code j, (code, j) ∈ redTable a b → Runs j (redForm code a b)
    (among (barred (if redCodeWide code then 8 else 4) (permW + permAtomic) a (atPair a)) (redAt code a b))) ∧
  (∀ w d a b, Runs (.scrLd w d a b) (Form.plain [(a, 1), (b, 1)] (some (d, widthRegs w.toNat)) .g)
    (loadsAmong d w (barredScr w a b) (scrLoadAt w a b))) ∧
  (∀ w d a b, Runs (.scrSt w d a b) (Form.plain [(a, 1), (b, 1), (d, widthRegs w.toNat)] none .table)
    (among (barredScr w a b) (scrStoreAt w d a b))) ∧
  (∀ size d a b, Runs (.acpG2s size d a b) (copyForm d a b) (among (barredCopy true size d a) (copyAt true size d a b))) ∧
  (∀ size d a b, Runs (.acpS2g size d a b) (copyForm d a b) (among (barredCopy false size d a) (copyAt false size d a b))) ∧
  (∀ d a b, Runs (.binit d a b) (mainForm [(a, 2), (b, 1), (d, 1)] none .g) (among (barred 16 permObject a (atPair a)) (objectAt a (initAt d b)))) ∧
  (∀ d a b, Runs (.arrive d a b) { Form.plain [(a, 2), (b, 1)] (some (d, 1)) .g with txn := false }
    (among (fun i s l => if i.team.onFoehn && inAperture (i.view.pair a l) && i.view.pair a l % 16 == 0 && capOk i l a 0 16 permObject then none
      else barred 16 permObject a (atPair a) i s l) (arriveAt a b))) ∧
  (∀ d a b, Runs (.arriveb d a b) (mainForm [(a, 2), (b, 1)] (some (d, 1)) .g) (among (barred 16 permObject a (atPair a))
    (objectAt a fun i s l va p => stepAt true true (.arriveBytes (i.view.reg b l)) i s l va p))) ∧
  (∀ a b, Runs (.expect a b) (mainForm [(a, 2), (b, 1)] none .g) (among (barred 16 permObject a (atPair a))
    (objectAt a fun i s l va p => stepAt false false (.expect (i.view.reg b l)) i s l va p))) ∧
  (∀ d a b, Runs (.bwait d a b) (mainForm [(a, 2), (b, 1)] (some (d, 1)) .g) (among (barred 16 permObject a (atPair a)) (objectAt a (waitAt b)))) ∧
  (∀ d a b, Runs (.btest d a b) (mainForm [(a, 2), (b, 1)] (some (d, 1)) .g) (among (barred 16 permObject a (atPair a)) (objectAt a (testAt b)))) ∧
  (∀ d a, Runs (.jr d a) (Form.plain [(a, 2)] (some (d, 2)) .table)
    (partly (fun i l => if i.view.pair a l % 4 ≠ 0 then some (.fault l cMisaligned (i.view.pair a l)) else none) fun i l =>
      { LaneOut.write l (wordsOf 2 (i.op.pc + 4).toNat) with ends := .goto (BitVec.ofNat 64 (i.view.pair a l)) })) ∧
  (∀ d a, Runs (.mset d a) (Form.plain [(a, 2)] (some (d, 2)) .g)
    (turn (fun _ _ => true)
      (fun i s => s.onLanes i.op (i.lanes.filter fun l => i.view.pair a l == meetNone.toNat || i.view.pair a l % 4 == 0) fun l th =>
        { th with meet := BitVec.ofNat 64 (i.view.pair a l) })
      fun i _ l => if i.view.pair a l ≠ meetNone.toNat ∧ i.view.pair a l % 4 ≠ 0 then .fault l cMisaligned (i.view.pair a l)
        else .write l (wordsOf 2 (i.thread l).meet.toNat))) ∧
  (∀ d a b, Runs (.cnarrow d a b) (Form.plain [(a, 4), (b, 4)] (some (d, 4)) .table)
    (partly (fun i l =>
      if !i.view.capTag a l || decide (capLen (i.view.quad a l) < i.view.quad b l % 2 ^ 64 + i.view.quad b l / 2 ^ 64) then
        some (.fault l cCapability (capBase (i.view.quad a l))) else none) fun i l =>
      .quad l (capWith (i.view.quad a l) (capBase (i.view.quad a l) + i.view.quad b l % 2 ^ 64) (i.view.quad b l / 2 ^ 64)) true)) ∧
  (∀ d a b, Runs (.cperm d a b) (Form.plain [(a, 4), (b, 1)] (some (d, 4)) .table)
    (partly (fun i l =>
      if !i.view.capTag a l || decide (32 ≤ (i.view.reg b l).toNat) ||
          decide (Nat.land (i.view.reg b l).toNat (31 - capPerm (i.view.quad a l)) ≠ 0) then
        some (.fault l cCapability (capBase (i.view.quad a l))) else none) fun i l =>
      .quad l (capWithPerm (i.view.quad a l) (i.view.reg b l).toNat) true)) ∧
  (∀ d a, Runs (.cmint d a) { Form.plain [(a, 4)] (some (d, 4)) .table with foehn := false, priv := true }
    (partly (fun i l =>
      if i.view.quad a l / 2 ^ 115 ≠ 0 ∨ i.view.quad a l / 2 ^ 109 % 8 ≠ 0 then
        some (.fault l cCapability (capBase (i.view.quad a l))) else none) fun i l => .quad l (i.view.quad a l) true)) ∧
  (∀ pol w d a b, Faults (.st pol w d a b) (memForm [(a, 2), (b, 1), (d, widthRegs w.toNat)] none .table) cMisaligned
    (fun i l => (indexed w a b i l).1 % widthBytes w.toNat != 0) fun i l => (indexed w a b i l).1) ∧
  (∀ w d a off, Faults (.sti w d a off) (memForm [(a, 2), (d, widthRegs w.toNat)] none .table) cMisaligned
    (fun i l => (displaced w a off i l).1 % widthBytes w.toNat != 0) fun i l => (displaced w a off i l).1) ∧
  (∀ pol w d a b, Faults (.st pol w d a b) (memForm [(a, 2), (b, 1), (d, widthRegs w.toNat)] none .table) cCapability
    (fun i l => (indexed w a b i l).1 % widthBytes w.toNat == 0 && !capOk i l a (indexed w a b i l).2 (widthBytes w.toNat) permW)
    fun i l => (indexed w a b i l).1) ∧
  (∀ w d a off, Faults (.sti w d a off) (memForm [(a, 2), (d, widthRegs w.toNat)] none .table) cCapability
    (fun i l => (displaced w a off i l).1 % widthBytes w.toNat == 0 && !capOk i l a (displaced w a off i l).2 (widthBytes w.toNat) permW)
    fun i l => (displaced w a off i l).1) ∧
  (∀ d a, Faults (.jr d a) (Form.plain [(a, 2)] (some (d, 2)) .table) cMisaligned (fun i l => i.view.pair a l % 4 != 0)
    fun i l => i.view.pair a l) ∧
  (∀ d a, Faults (.mset d a) (Form.plain [(a, 2)] (some (d, 2)) .g) cMisaligned
    (fun i l => i.view.pair a l != meetNone.toNat && i.view.pair a l % 4 != 0) fun i l => i.view.pair a l) ∧
  (∀ a, Faults (.wbase a) { Form.plain [(a, 1)] none .table with foehn := false, txn := false } cWindow
    (fun i l => (i.view.reg a l).toNat % 8 != 0 || decide (i.team.nregs < (i.view.reg a l).toNat + 96)) fun i l => (i.view.reg a l).toNat) ∧
  (∀ d a b, Faults (.cnarrow d a b) (Form.plain [(a, 4), (b, 4)] (some (d, 4)) .table) cCapability
    (fun i l => !i.view.capTag a l || decide (capLen (i.view.quad a l) < i.view.quad b l % 2 ^ 64 + i.view.quad b l / 2 ^ 64))
    fun i l => capBase (i.view.quad a l))

/-- What a source that is not ready does (01 R37, R38, 06 R166), for any form with one source register `a` and no destination, an instruction that
has issued and stands having its common registers already (09 R248): a lane whose source is empty holds, with that register noted as what
it waits for, and nothing else changes but meetings that are complete; with GCR.EMPTYTRAP it raises EMPTY_READ with the register's encoding;
a source that carries an error mark raises the mark's cause with the load's address. -/
def Obligations.OperandObstacles : Prop :=
  ∀ s op t g f body a, Turn s op t g → (if t.onFoehn then f.foehn else f.main) = true → (f.priv = true → op.sys = true) →
    (op.sys = true ∨ f.roles g.role = true) → (∀ l ∈ lanesOf op.lanes, g.inTxn l = false) → f.laneOp = false → f.srcs = [(a, 1)] → f.dst = none →
    ((∀ l ∈ lanesOf op.lanes, (issOf op t g).view.sourceReady (regPlus a 0) l = .empty) → g.gcr.getLsbD 3 = false →
      issue f body s = .next ((s.finish op []).starve op ((lanesOf op.lanes).map fun l =>
        (l, [if regPlus a 0 < 96 then (l, op.base + regPlus a 0) else (64, regPlus a 0 - 96)])))) ∧
    ((∀ l ∈ lanesOf op.lanes, (issOf op t g).view.sourceReady (regPlus a 0) l = .empty) → g.gcr.getLsbD 3 = true →
      issue f body s = .next (s.finish op ((lanesOf op.lanes).map fun l => .fault l cEmptyRead (regPlus a 0)))) ∧
    (∀ c (x : Nat → DWord), (∀ l ∈ lanesOf op.lanes, (issOf op t g).view.sourceReady (regPlus a 0) l = .marked c (x l)) →
      issue f body s = .next (s.finish op ((lanesOf op.lanes).map fun l => .fault l c (x l).toNat)))

/-! ## Registers -/

/-- A destination from encoding 112 on takes nothing (01 R27): neither a result nor the emptying of an async-producing instruction changes
the team. -/
def Obligations.DiscardedResult : Prop :=
  ∀ (t : Team) grp base (d : Reg) n full tag outs ls, 112 ≤ d.toNat →
    t.writeRegs grp base d n full tag outs = t ∧ t.emptyRegs grp base d n ls = t

/-- The A shapes of 01 R34 are sound: in every lane the shape that ADD, SUB, MUL, SLL, MOV, ADDI and SLLI give reads the value the operation
computes from its sources in that lane. -/
def Obligations.AffineResult : Prop :=
  ∀ (w : View) (a b : Reg) (k : Word) (n l : Nat) (v : Shape),
    (w.affine (.add a b) = some v → v.at l = w.reg a l + w.reg b l) ∧
    (w.affine (.sub a b) = some v → v.at l = w.reg a l - w.reg b l) ∧
    (w.affine (.mul a b) = some v → v.at l = w.reg a l * w.reg b l) ∧
    (w.affine (.sll a b) = some v → v.at l = w.reg a l <<< ((w.reg b l).toNat % 32)) ∧
    (w.affine (.mov a) = some v → v.at l = w.reg a l) ∧
    (w.affine (.addi a k) = some v → v.at l = w.reg a l + k) ∧
    (w.affine (.slli a n) = some v → v.at l = w.reg a l <<< n)

/-- What an operation leaves alone when its lanes neither fault nor abort: everything but the team at issue and the watchdog clock of its
context; of the team everything but the destination registers and their capability tags, registers of the group for an encoding below 96 and
common ones for 96 to 111, and nothing of either from 112 on (01 R27), and the lanes of the operation, whose flags, generator and place move as
they say; of the other lanes only a meeting that is complete is released (03 R94), and a lane that waits for accesses of its operation that
are not accepted goes on once they are (06 R163). -/
def Obligations.CompletionFrame : Prop :=
  ∀ (s : State) (i : Iss) (f : Form) (outs : List LaneOut) (t : Team) (g : Machine.Group),
    s.teams[i.op.team]? = some t → t.groups[i.op.grp]? = some g → (∀ o ∈ outs, match o.ends with
      | .fault _ _ _ => False
      | .park _ => False
      | .abort _ => False
      | _ => True) →
    ∃ t' g', s.complete i f outs = { s with teams := (s.complete i f outs).teams, ctxs := (s.complete i f outs).ctxs } ∧
      ((s.complete i f outs).ctxs = s.ctxs ∨ (s.complete i f outs).ctxs = (s.signal t.ctx).ctxs) ∧
      (∀ k, k ≠ i.op.team → (s.complete i f outs).teams[k]? = s.teams[k]?) ∧
      (s.complete i f outs).teams[i.op.team]? = some t' ∧ t' = { t with groups := t'.groups, cregs := t'.cregs, ctags := t'.ctags } ∧
      (∀ k, k ≠ i.op.grp → t'.groups[k]? = t.groups[k]?) ∧ t'.groups[i.op.grp]? = some g' ∧
      g' = { g with regs := g'.regs, threads := g'.threads } ∧
      (f.dst = none → g'.regs = g.regs ∧ t'.cregs = t.cregs ∧ t'.ctags = t.ctags) ∧
      (∀ d n, f.dst = some (d, n) → 96 ≤ d.toNat → g'.regs = g.regs) ∧
      (∀ d n, f.dst = some (d, n) → 96 ≤ d.toNat → d.toNat < 112 →
        (∀ k, ¬(d.toNat - 96 ≤ k ∧ k < d.toNat - 96 + n) → t'.cregs[k]? = t.cregs[k]?) ∧
        ∀ q, ((quadBits (d.toNat - 96) n).setWidth 4).getLsbD q = false → t'.ctags.getLsbD q = t.ctags.getLsbD q) ∧
      (∀ d n, f.dst = some (d, n) → 112 ≤ d.toNat → t'.cregs = t.cregs ∧ t'.ctags = t.ctags) ∧
      (∀ d n, f.dst = some (d, n) → d.toNat < 96 → t'.cregs = t.cregs ∧ t'.ctags = t.ctags ∧
        ∀ r, ¬(i.op.base + d.toNat ≤ r ∧ r < i.op.base + d.toNat + n) → g'.regs[r]? = g.regs[r]?) ∧
      ∀ l, (∀ o ∈ outs, o.lane ≠ l) → ∀ th, g.threads[l]? = some th → ∃ th', g'.threads[l]? = some th' ∧
        th' = { th with meet := th'.meet, arrived := th'.arrived, age := th'.age, lot := th'.lot, lotOpen := th'.lotOpen }

/-- System registers of a main core (07 R225): what WRSR writes into a writable register RDSR reads back, for every value in the register's
range. -/
def Obligations.SystemRegisterReadBack : Prop :=
  ∀ s op t g c l n r v, Turn s op t g → t.kind = .team → s.ctxOf t.ctx = some c → l < g.threads.length →
    sysReg n false true = some r → r.holds v = true →
    ∃ t' g', (s.sysWrite (issOf op t g) l n v).teams[op.team]? = some t' ∧ t'.groups[op.grp]? = some g' ∧
      (s.sysWrite (issOf op t g) l n v).sysRead (issOf op t' g') l n = v

/-! ## Synchronisation -/

/-- One step on a barrier object in scratch (06 R179, R181, R182): each kind changes the counts as its rule says; when both reach zero the
phase rises by one modulo 256 and the counts are those expected; bytes outside the object do not change. The object is one whose words can
be corrected and which no ring, no copy in flight or not acquired yet and no uncovered MSEQ shares (its bytes are undefined otherwise, 05
R157, 06 R173, R186). -/
def Obligations.BarrierStep : Prop :=
  ∀ (s : State) tm t off, s.teams[tm]? = some t → MemoryCanonical s → t.scrBad off 16 = false →
    (∀ x ∈ t.rings, 16 * x.1 + 16 ≤ off ∨ off + 16 ≤ 16 * x.1) → (∀ c ∈ s.copies, c.touches tm off 16 = false) →
    (∀ x ∈ s.landed, x.copy.touches tm off 16 = false) → (∀ x ∈ t.engScr, rowTouched x off 16 = none) →
    let o := scratchObject s tm off
    let after (k : BarStep) : BarObj := scratchObject (s.barScratch tm off k).1 tm off
    let stepped (arr : Nat) (bytes : Word) (o' : BarObj) : Prop :=
      if arr = 0 ∧ bytes = 0 then
        o' = { o with phase := (o.phase + 1) % 256, pendArr := o.expArr, pendBytes := BitVec.ofNat 32 o.expBytes }
      else o' = { o with pendArr := arr, pendBytes := bytes }
    (∀ n, n ≠ 0 → stepped (o.pendArr - n) o.pendBytes (after (.arrive n))) ∧
    after (.arrive 0) = o ∧
    (∀ v, stepped (o.pendArr - 1) (o.pendBytes + v) (after (.arriveBytes v))) ∧
    (∀ v, stepped o.pendArr (o.pendBytes + v) (after (.expect v))) ∧
    (∀ n, stepped o.pendArr (o.pendBytes - BitVec.ofNat 32 n) (after (.land n))) ∧
    (∀ a e x, a < 65536 → e < 2 ^ 24 → after (.init a e x) =
      { expArr := if a = 0 then 1 else a, pendArr := if a = 0 then 1 else a, pendBytes := BitVec.ofNat 32 e, expBytes := e, phase := 0,
        ext := x, err := false, origin := 0, code := 0 }) ∧
    ∀ k x, ¬(off ≤ x ∧ x < off + 16) → memGet ((s.barScratch tm off k).1.team tm).pool.scr x = memGet t.pool.scr x

/-- Meetings (03 R93, R94): a thread that has arrived and whose meeting set has all arrived or exited loses its meeting and its arrival; every
other thread is left as it is. A thread that moves to its meeting address arrives, unless it is in a trap handler. -/
def Obligations.MeetingRelease : Prop :=
  (∀ (g : Machine.Group) (now l : Nat) (th : Thread), g.threads[l]? = some th → ∃ th', (g.release now).threads[l]? = some th' ∧
    ((th.arrived = true ∧ th.exited = false ∧ ∀ u ∈ g.threads, u.meet = th.meet → u.arrived = true ∨ u.exited = true) →
      th' = { th with meet := meetNone, arrived := false, age := now }) ∧
    (¬(th.arrived = true ∧ th.exited = false ∧ ∀ u ∈ g.threads, u.meet = th.meet → u.arrived = true ∨ u.exited = true) → th' = th)) ∧
  ∀ (th : Thread) pc, (th.moveTo pc).arrived = true ↔ th.inTrap = false ∧ th.meet ≠ meetNone ∧ th.meet = pc

/-- The abort of a lane's transaction (06 R194): memory and every other team are unchanged; the lane leaves the transaction at its handler with its
flags, generator and meeting kept; the register of its TBEGIN, a common one too, holds the status word (in that lane), and no other register
changes. -/
def Obligations.TransactionAbort : Prop :=
  ∀ (s : State) tm gi l t g th x code sub, s.teams[tm]? = some t → t.groups[gi]? = some g → g.threads[l]? = some th → th.txn = some x →
    l < t.gw → code < 256 → sub < 256 →
    ∃ t' g' th', (s.abortLane tm gi l code sub).teams[tm]? = some t' ∧ t'.groups[gi]? = some g' ∧ g'.threads[l]? = some th' ∧
      (s.abortLane tm gi l code sub).mem = s.mem ∧ (∀ k, k ≠ tm → (s.abortLane tm gi l code sub).teams[k]? = s.teams[k]?) ∧
      th'.txn = none ∧ th'.pc = x.handler ∧ th'.fx = th.fx ∧ th'.rng = th.rng ∧ th'.meet = th.meet ∧
      (∀ r, ¬(x.dst.toNat < 96 ∧ r = th.base + x.dst.toNat) → g'.regs[r]? = g.regs[r]?) ∧
      (∀ k, ¬(96 ≤ x.dst.toNat ∧ x.dst.toNat < 112 ∧ k = x.dst.toNat - 96) → t'.cregs[k]? = t.cregs[k]?) ∧
      (∀ c, 96 ≤ x.dst.toNat → x.dst.toNat < 112 → t'.cregs[x.dst.toNat - 96]? = some c →
        c.val = BitVec.ofNat 32 (code + 256 * sub) ∧ c.empty = false ∧ c.mark = none) ∧
      ∀ v, x.dst.toNat < 96 → g'.regs[th.base + x.dst.toNat]? = some v → v.shape.at l = BitVec.ofNat 32 (code + 256 * sub)

/-! ## Numbers -/

/-- The generator (14 R333, 03 R78, 09 R237): one advance is the three shifts and exclusive ors of the rule; a state that is not 0 steps to
one that is not 0; RNGW stores 0 as 1; the generators of a new group and a new team are not 0. -/
def Obligations.GeneratorStep : Prop :=
  (∀ s : Word, srNext s =
    (let a := s ^^^ (s <<< 13)
     let b := a ^^^ (a >>> 17)
     b ^^^ (b <<< 5))) ∧
  (∀ s : Word, s ≠ 0 → srNext s ≠ 0) ∧
  (∀ a, Delivers (.rngw a) (Form.plain [(a, 1)] none .table, fun i _ l =>
    { LaneOut.only l .next with rng := some (if i.view.reg a l = 0 then 1 else i.view.reg a l) })) ∧
  ∀ (l : Launch) (k : Nat) (sys : Bool), (∀ th ∈ (Machine.Group.start l k sys).threads, th.rng ≠ 0) ∧ (TeamEng.start l.seed k).egen ≠ 0

/-- NaN results are canonical (04 R105): with a NaN operand, addition, subtraction, multiplication, division and the four fused forms deliver the
canonical quiet NaN of the format, as do square root, reciprocal and conversion of a NaN; a signalling operand of the first four sets
NV. -/
def Obligations.CanonicalNaN : Prop :=
  ∀ f q, (f, q) ∈ [(f64, 0x7ff8000000000000), (f32, 0x7fc00000), (f16, 0x7e00), (bf16, 0x7fc0)] → ∀ rm s x y z,
    ((decodeNum f x).isNan = true ∨ (decodeNum f y).isNan = true →
      (fAdd f rm s x y).bits = q ∧ (fSub f rm s x y).bits = q ∧ (fMul f rm s x y).bits = q ∧ (fDiv f rm s x y).bits = q ∧
      (fMac f rm s z x y).bits = q ∧ (fMsc f rm s z x y).bits = q ∧ (fNmac f rm s z x y).bits = q ∧ (fNmsc f rm s z x y).bits = q) ∧
    ((decodeNum f z).isNan = true → (fMac f rm s z x y).bits = q ∧ (fSqrt f rm s z).bits = q ∧ (fRcp f rm s z).bits = q ∧
      (fConvert f f32 rm s false z).bits = 0x7fc00000 ∧ (fConvert f e5m2 rm s false z).bits = 0x7e ∧
      (fConvert f e4m3 rm s false z).bits = 0x7f) ∧
    ((decodeNum f x).isSnan = true ∨ (decodeNum f y).isSnan = true →
      (fAdd f rm s x y).flags.getLsbD 0 = true ∧ (fSub f rm s x y).flags.getLsbD 0 = true ∧
      (fMul f rm s x y).flags.getLsbD 0 = true ∧ (fDiv f rm s x y).flags.getLsbD 0 = true)

/-- Rounding leaves a representable value unchanged in every mode, without a flag (14 R326): a number of a format rounded to that format is itself,
zeros and infinities with their sign. -/
def Obligations.RepresentableValuesStay : Prop :=
  ∀ f ∈ [f64, f32, f16, bf16], ∀ rm s sat x, x < 2 ^ f.w → (decodeNum f x).isNan = false →
    (fConvert f f rm s sat x).bits = x ∧ (fConvert f f rm s sat x).flags = 0

/-! ## Memory -/

/-- Bytes written are read back, and every other byte is as before: what a later load of a byte returns is the latest store to it (06 R165), over
the model's form of memory (DESIGN CHOICE log 3). -/
def Obligations.MemoryReadAfterWrite : Prop :=
  ∀ (m : Mem) a bs, memWfFrom 0 m = true →
    memRead (memWrite m a bs) a bs.length = bs ∧ (∀ x, ¬(a ≤ x ∧ x < a + bs.length) → memGet (memWrite m a bs) x = memGet m x)

/-- AN INVARIANT OF EVERY STEP: the byte lists of DRAM and of every team's scratch and tile storage keep their canonical form, so that equal
memories are equal data (DESIGN CHOICE log 3). -/
def Obligations.MemoryStaysCanonical : Prop :=
  ∀ (s s' : State), MemoryCanonical s → step s = .next s' → MemoryCanonical s'

/-- The device right after reset (23 R472, 13 R299, 22 R463, R445, R468): boot step 1, no context, team or command, memory canonical; each
core with a cache minimum of two banks and the bank map of R299: four banks of register and store, 42 of cache, free, and the two reserved;
each stack with every region live, every RXDLY and TXDLY of its 32 channels at 64 and its CAPCTL at its reset value. -/
def Obligations.ResetState : Prop :=
  State.reset.boot.step = 1 ∧ State.reset.clock = 0 ∧ State.reset.ctxs = [] ∧ State.reset.teams = [] ∧ State.reset.launches = [] ∧
  MemoryCanonical State.reset ∧ State.reset.cores.length = 192 ∧ (∀ c ∈ State.reset.cores, c.cchBanks = 2 ∧ c.l1 = [] ∧ c.alb = []) ∧
  State.reset.baseDies.length = 16 ∧ (∀ c ∈ State.reset.cores, c.banks.length = 48 ∧
    ∀ j b, c.banks[j]? = some b → b.moving = false ∧ b.role = (if j < 4 then .reg else .cch) ∧
      b.holder = (if j < 4 then .store else if j < 46 then .free else .reserve)) ∧
  ∀ k ∈ State.reset.baseDies, k.dead = [] ∧ k.capctl = 0x10400 ∧ ∀ ch < 32, ∀ g < 4, ∀ l < 19,
    phyGet k ch (offRxdly (32 * g + l)) = 64 ∧ phyGet k ch (offTxdly (32 * g + l)) = 64

/-- What SCR.ST leaves of memory, of other teams and of scratch (06 R171, 01 R43), where no lane stores over the source of an S2G copy that is not
acquired yet (R173): memory, every other team, and the bytes of the team's scratch outside those that the lanes store, are unchanged; an
element that an uncovered MSEQ reads and a lane stores a part of is undefined whole (05 R157). Of the registers, the lanes and the rest of the
team O14 says what stays. -/
def Obligations.ScratchStoreFrame : Prop :=
  ∀ s op t g (w : BitVec 3) d a b, Turn s op t g → Clear (Form.plain [(a, 1), (b, 1), (d, widthRegs w.toNat)] none .table) op t g →
    MemoryCanonical s → (∀ x ∈ s.landed, x.copy.toScr = false → ∀ l ∈ lanesOf op.lanes,
      x.copy.touches op.team (scrOffset (issOf op t g) a b w l).toNat (widthBytes w.toNat) = false) → (∀ l ∈ lanesOf op.lanes,
      s.checkScr (issOf op t g) (scrOffset (issOf op t g) a b w l) (widthBytes w.toNat) (widthBytes w.toNat) = none) →
    ∃ s', exec (.scrSt w d a b) s = .next s' ∧ s'.mem = s.mem ∧ (∀ k, k ≠ op.team → s'.teams[k]? = s.teams[k]?) ∧
      ∀ x, (∀ l ∈ lanesOf op.lanes, ¬((scrOffset (issOf op t g) a b w l).toNat ≤ x ∧
          x < (scrOffset (issOf op t g) a b w l).toNat + widthBytes w.toNat) ∧
          ∀ r ∈ t.engScr.filterMap fun y => rowTouched y (scrOffset (issOf op t g) a b w l).toNat (widthBytes w.toNat),
            ¬(r.1 ≤ x ∧ x < r.2)) →
        memGet (s'.team op.team).pool.scr x = memGet t.pool.scr x

/-- What ST, STI, LD and LDI with policy .c on RC pages leave of memory and of caches (06 R170, 17 R371): the store of an operation of one
lane, of 4 bytes or more or into a word that its L1 holds, to a checked page of this device whose line is cached under no other name leaves
memory as it is, shows the stored bytes in its L1, and every other byte, core and address space shows what it showed; that the L1 shows them in the step that issues the store
is the model's choice (DESIGN CHOICE log 4). An LD or LDI with policy .c whose lanes all find their words in the L1 changes no cache and no
memory. -/
def Obligations.CachedAccessFrame : Prop :=
  (∀ s op t g j f (w : BitVec 3) d a (addr : Iss → Nat → Nat × Nat) l pa,
    (∃ b, j = .st 0 w d a b ∧ f = memForm [(a, 2), (b, 1), (d, widthRegs w.toNat)] none .table ∧ addr = indexed w a b) ∨
      (∃ off, j = .sti w d a off ∧ f = memForm [(a, 2), (d, widthRegs w.toNat)] none .table ∧ addr = displaced w a off) →
    w.toNat ≤ 6 → Turn s op t g → Clear f op t g → lanesOf op.lanes = [l] → g.inTxn l = false → s.copies = [] →
    let i := issOf op t g
    let va := (addr i l).1
    let n := widthBytes w.toNat
    let core := l1Core t (t.coreOf op.grp) va
    let asid := s.asidOf t.ctx
    s.check i l va a (addr i l).2 (askStore n) = (s, .ok (.page attrRC pa)) → paClass pa = .dram → core < s.cores.length →
    (s.getCore core).upd = [] → (4 ≤ w.toNat ∨ (s.l1Find core asid (va / 4 * 4)).isSome = true) →
    (∀ k ∈ s.cores, ∀ x ∈ k.l1, lineOf x.pa = lineOf pa → x.asid = asid ∧ lineOf x.va = lineOf va) →
    (∀ x ∈ s.mem.l2, lineOf x.pa = lineOf pa → x.asid = asid ∧ lineOf x.va = lineOf va) →
    ∃ s', exec j s = .next s' ∧ s'.mem = s.mem ∧
      (∀ k, k < n → ∀ p, some (seen s' core asid (va + k) p) = (storeBytes i d w l)[k]?) ∧
      ∀ core' asid' x p, ¬(core' = core ∧ asid' = asid ∧ va ≤ x ∧ x < va + n) → seen s' core' asid' x p = seen s core' asid' x p) ∧
  ∀ s op t g j f (w : BitVec 3) d a (addr : Iss → Nat → Nat × Nat),
    (∃ b, j = .ld 0 w d a b ∧ f = memForm [(a, 2), (b, 1)] (some (d, widthRegs w.toNat)) .g ∧ addr = indexed w a b) ∨
      (∃ off, j = .ldi w d a off ∧ f = memForm [(a, 2)] (some (d, widthRegs w.toNat)) .g ∧ addr = displaced w a off) →
    w.toNat ≤ 6 → Turn s op t g → Clear f op t g → s.copies = [] → s.calls = [] →
    let i := issOf op t g
    let n := widthBytes w.toNat
    (∀ l ∈ lanesOf op.lanes, g.inTxn l = false ∧ ∃ pa,
      s.check i l (addr i l).1 a (addr i l).2 (askLoad n) = (s, .ok (.page attrRC pa)) ∧ paClass pa = .dram ∧
      (s.getCore (l1Core t (t.coreOf op.grp) (addr i l).1)).upd = [] ∧
      ∀ x ∈ wordsIn (addr i l).1 n, (s.l1Find (l1Core t (t.coreOf op.grp) (addr i l).1) (s.asidOf t.ctx) x.1).isSome = true) →
    ∃ s', exec j s = .next s' ∧ s'.mem = s.mem ∧ s'.cores = s.cores

/-- A region that is not live (22 R464): a read of bytes of one line brings zeros and counts in NLRCNT; a write of bytes of one line makes
the region live, leaves the written bytes and zeros in the rest of it, and leaves memory outside the region as it was. Memory is a list by
place in the stacks (DESIGN CHOICE log 3). -/
def Obligations.DeadRegion : Prop :=
  ∀ (s : State) stack loc pa k, MemoryCanonical s → dramPlace s.mem pa = some (stack, loc) → s.baseDies[stack]? = some k →
    k.dead.contains (loc / 2 ^ 20) = true →
    (∀ n, pa % 64 + n ≤ 64 → s.dramRead pa n = (s.count stack (channelOf loc) 0x1c, .ok (bytesOf n 0))) ∧
    ∀ bs, pa % 64 + bs.length ≤ 64 →
      let s' := (s.dramWrite pa bs).1
      let key := dramKey stack loc
      let low := dramKey stack (loc / 2 ^ 20 * 2 ^ 20)
      (s.dramWrite pa bs).2 = none ∧ (s'.getStack stack).dead.contains (loc / 2 ^ 20) = false ∧
      s'.mem.bytesAt pa bs.length = bs ∧ memRead s'.mem.dram key bs.length = bs ∧
      (∀ x, low ≤ x → x < low + 2 ^ 20 → ¬(key ≤ x ∧ x < key + bs.length) → memGet s'.mem.dram x = 0) ∧
      ∀ x, ¬(low ≤ x ∧ x < low + 2 ^ 20) → memGet s'.mem.dram x = memGet s.mem.dram x

/-- The check of a line in memory (22 R457, R459, R467, R469) by a read of bytes of it that no overlap of two calls leaves undefined; the read may
open the row (R461, DESIGN CHOICE log 7). The errors are those of what is stored and of the address for which the line was coded. Without an
error the data is delivered; one to four errors in stored positions are corrected, counted in CORCNT, and gone from the line; with one
in an address position nothing is delivered, MISCNT counts, and the cause is MISDIRECTED_ACCESS. -/
def Obligations.LineCorrection : Prop :=
  ∀ (s : State) stack loc pa n errs, dramPlace s.mem pa = some (stack, loc) → (s.getStack stack).dead.contains (loc / 2 ^ 20) = false →
    s.mem.errsAt pa stack loc = errs → (∀ e ∈ errs, e.1 < 80) → pa % 64 + n ≤ 64 → s.calls.all (·.clash.isEmpty) = true →
    (errs = [] → s.dramRead pa n = (s.openRow true pa, .ok (s.mem.bytesAt pa n))) ∧
    (errs ≠ [] → errs.length ≤ 4 → (∀ e ∈ errs, ¬(64 ≤ e.1 ∧ e.1 < 72)) →
      (s.dramRead pa n).2 = .ok (s.mem.bytesAt pa n) ∧
      (s.dramRead pa n).1.mem.errsAt pa stack loc = [] ∧ (s.dramRead pa n).1.mem.dram = s.mem.dram ∧
      (s.dramRead pa n).1.baseDies = ((s.count stack (channelOf loc) 0x10).openRow true pa).baseDies) ∧
    (errs ≠ [] → errs.length ≤ 4 → (∃ e ∈ errs, 64 ≤ e.1 ∧ e.1 < 72) →
      s.dramRead pa n = ((s.count stack (channelOf loc) 0x18).openRow true pa, .bad cMisdirected))

/-! ## Instructions and events, row by row -/

/-- Moves, thread registers, immediates and bit fields (03 R73, R76, R77, R78, R83, R84): NOP, MOV, SEL, MGET, WINQ, TAGQ, RDY, CLOCK, RNGR, RNGW,
LUI, AUIPC, BFX, BFXS and BFI complete; what each lane gets; nothing else changes. -/
def Obligations.MoveDelivers : Prop :=
  (Delivers .nop (Form.plain [] none .table, fun _ _ l => .only l .next)) ∧
  (∀ d a, Delivers (.mov d a) (one (.mov a) d a (fun x => x))) ∧
  (∀ d a b, Delivers (.sel d a b) (Form.plain [(d, 1), (a, 1), (b, 1)] (some (d, 1)) .table, fun i _ l =>
      .write l [if i.view.reg d l ≠ 0 then i.view.reg a l else i.view.reg b l])) ∧
  (∀ d, Delivers (.mget d) (Form.plain [] (some (d, 2)) .g, fun i _ l => .write l (wordsOf 2 (i.thread l).meet.toNat))) ∧
  (∀ d s op t g, Turn s op t g → Clear (Form.plain [] (some (d, 1)) .g) op t g → ∃ s', exec (.winq d) s = .next s' ∧
    Results s s' op t g
      (Form.plain [] (some (d, 1)) (if g.threads.all fun th => th.exited || th.base == op.base then .u else .g))
      fun l => .write l [BitVec.ofNat 32 (t.nregs * 65536 + op.base)]) ∧
  (∀ d a, Delivers (.tagq d a) (Form.plain [] (some (d, 1)) .g, fun i _ l => .write l [tagWord i.view a.toNat l])) ∧
  (∀ d a, Delivers (.rdy d a)
    (Form.plain [] (some (d, 1)) .g, fun i _ l => .write l [truth (i.view.readiness a.toNat l == .ok)])) ∧
  (∀ d, Delivers (.clock d) (Form.plain [] (some (d, 2)) .u, fun i s l => .write l (wordsOf 2 (clockOf s i.team)))) ∧
  (∀ d, Delivers (.rngr d) (Form.plain [] (some (d, 1)) .g, fun i _ l => .write l [(i.thread l).rng])) ∧
  (∀ a, Delivers (.rngw a) (Form.plain [(a, 1)] none .table, fun i _ l =>
      { LaneOut.only l .next with rng := some (srSeed (i.view.reg a l)) })) ∧
  (∀ d imm, Delivers (.lui d imm) (Form.plain [] (some (d, 1)) .u, fun _ _ l => .write l [imm.zeroExtend 32 <<< 13])) ∧
  (∀ d imm, Delivers (.auipc d imm) (Form.plain [] (some (d, 2)) .u, fun i _ l =>
      .write l (wordsOf 2 (i.op.pc + (imm.zeroExtend 32 <<< 13 : Word).signExtend 64).toNat))) ∧
  (∀ d a pos len, Delivers (.bfx d a pos len)
    (one .table d a (fun x => BitVec.ofNat 32 (bitField x pos.toNat (len.toNat + 1))))) ∧
  (∀ d a pos len, Delivers (.bfxs d a pos len) (one .table d a (fun x => bitFieldS x pos.toNat (len.toNat + 1)))) ∧
  (∀ d a pos len, Delivers (.bfi d a pos len) (two .table d d a (fun x y => bitInsert x y pos.toNat (len.toNat + 1))))

/-- IOP (03 R81): the word of each of the 30 functions, and the r of its table in every lane, with the tag of 01 R34; no flag is set
and nothing faults. -/
def Obligations.IopDelivers : Prop :=
  (∀ d a b, encode (.add d a b) = some (wordOf 0x01 d a b 0) ∧
    Delivers (.add d a b) (two (.add a b) d a b fun x y => x + y)) ∧
  (∀ d a b, encode (.sub d a b) = some (wordOf 0x01 d a b 1) ∧
    Delivers (.sub d a b) (two (.sub a b) d a b fun x y => x - y)) ∧
  (∀ d a b, encode (.mul d a b) = some (wordOf 0x01 d a b 2) ∧
    Delivers (.mul d a b) (two (.mul a b) d a b fun x y => x * y)) ∧
  (∀ d a b, encode (.mulhI32 d a b) = some (wordOf 0x01 d a b 3) ∧
    Delivers (.mulhI32 d a b) (two .table d a b fun x y => BitVec.ofInt 32 (x.toInt * y.toInt / 2 ^ 32))) ∧
  (∀ d a b, encode (.mulhN32 d a b) = some (wordOf 0x01 d a b 4) ∧
    Delivers (.mulhN32 d a b) (two .table d a b fun x y => BitVec.ofNat 32 (x.toNat * y.toNat / 2 ^ 32))) ∧
  (∀ d a b, encode (.and d a b) = some (wordOf 0x01 d a b 5) ∧
    Delivers (.and d a b) (two .table d a b fun x y => x &&& y)) ∧
  (∀ d a b, encode (.or d a b) = some (wordOf 0x01 d a b 6) ∧
    Delivers (.or d a b) (two .table d a b fun x y => x ||| y)) ∧
  (∀ d a b, encode (.xor d a b) = some (wordOf 0x01 d a b 7) ∧
    Delivers (.xor d a b) (two .table d a b fun x y => x ^^^ y)) ∧
  (∀ d a b, encode (.andn d a b) = some (wordOf 0x01 d a b 8) ∧
    Delivers (.andn d a b) (two .table d a b fun x y => x &&& ~~~y)) ∧
  (∀ d a b, encode (.orn d a b) = some (wordOf 0x01 d a b 9) ∧
    Delivers (.orn d a b) (two .table d a b fun x y => x ||| ~~~y)) ∧
  (∀ d a b, encode (.sll d a b) = some (wordOf 0x01 d a b 10) ∧
    Delivers (.sll d a b) (two (.sll a b) d a b fun x y => x <<< (y.toNat % 32))) ∧
  (∀ d a b, encode (.srl d a b) = some (wordOf 0x01 d a b 11) ∧
    Delivers (.srl d a b) (two .table d a b fun x y => x >>> (y.toNat % 32))) ∧
  (∀ d a b, encode (.sra d a b) = some (wordOf 0x01 d a b 12) ∧
    Delivers (.sra d a b) (two .table d a b fun x y => x.sshiftRight (y.toNat % 32))) ∧
  (∀ d a b, encode (.rol d a b) = some (wordOf 0x01 d a b 13) ∧
    Delivers (.rol d a b) (two .table d a b fun x y => x.rotateLeft (y.toNat % 32))) ∧
  (∀ d a b, encode (.minI32 d a b) = some (wordOf 0x01 d a b 14) ∧
    Delivers (.minI32 d a b) (two .table d a b fun x y => if x.toInt ≤ y.toInt then x else y)) ∧
  (∀ d a b, encode (.maxI32 d a b) = some (wordOf 0x01 d a b 15) ∧
    Delivers (.maxI32 d a b) (two .table d a b fun x y => if x.toInt ≤ y.toInt then y else x)) ∧
  (∀ d a b, encode (.minN32 d a b) = some (wordOf 0x01 d a b 16) ∧
    Delivers (.minN32 d a b) (two .table d a b fun x y => if x.toNat ≤ y.toNat then x else y)) ∧
  (∀ d a b, encode (.maxN32 d a b) = some (wordOf 0x01 d a b 17) ∧
    Delivers (.maxN32 d a b) (two .table d a b fun x y => if x.toNat ≤ y.toNat then y else x)) ∧
  (∀ d a b, encode (.addsI32 d a b) = some (wordOf 0x01 d a b 18) ∧
    Delivers (.addsI32 d a b) (two .table d a b fun x y => BitVec.ofInt 32 (max (-2 ^ 31) (min (2 ^ 31 - 1) (x.toInt + y.toInt))))) ∧
  (∀ d a b, encode (.subsI32 d a b) = some (wordOf 0x01 d a b 19) ∧
    Delivers (.subsI32 d a b) (two .table d a b fun x y => BitVec.ofInt 32 (max (-2 ^ 31) (min (2 ^ 31 - 1) (x.toInt - y.toInt))))) ∧
  (∀ d a b, encode (.divI32 d a b) = some (wordOf 0x01 d a b 20) ∧
    Delivers (.divI32 d a b) (two .table d a b fun x y => if y = 0 then 0xffffffff else BitVec.ofInt 32 (x.toInt.tdiv y.toInt))) ∧
  (∀ d a b, encode (.divN32 d a b) = some (wordOf 0x01 d a b 21) ∧
    Delivers (.divN32 d a b) (two .table d a b fun x y => if y = 0 then 0xffffffff else BitVec.ofNat 32 (x.toNat / y.toNat))) ∧
  (∀ d a b, encode (.remI32 d a b) = some (wordOf 0x01 d a b 22) ∧
    Delivers (.remI32 d a b) (two .table d a b fun x y => if y = 0 then x else BitVec.ofInt 32 (x.toInt - y.toInt * x.toInt.tdiv y.toInt))) ∧
  (∀ d a b, encode (.remN32 d a b) = some (wordOf 0x01 d a b 23) ∧
    Delivers (.remN32 d a b) (two .table d a b fun x y => if y = 0 then x else BitVec.ofNat 32 (x.toNat - y.toNat * (x.toNat / y.toNat)))) ∧
  (∀ d a b, encode (.ceq d a b) = some (wordOf 0x01 d a b 24) ∧
    Delivers (.ceq d a b) (two .table d a b fun x y => if x = y then 1 else 0)) ∧
  (∀ d a b, encode (.cne d a b) = some (wordOf 0x01 d a b 25) ∧
    Delivers (.cne d a b) (two .table d a b fun x y => if x ≠ y then 1 else 0)) ∧
  (∀ d a b, encode (.cltI32 d a b) = some (wordOf 0x01 d a b 26) ∧
    Delivers (.cltI32 d a b) (two .table d a b fun x y => if x.toInt < y.toInt then 1 else 0)) ∧
  (∀ d a b, encode (.cleI32 d a b) = some (wordOf 0x01 d a b 27) ∧
    Delivers (.cleI32 d a b) (two .table d a b fun x y => if x.toInt ≤ y.toInt then 1 else 0)) ∧
  (∀ d a b, encode (.cltN32 d a b) = some (wordOf 0x01 d a b 28) ∧
    Delivers (.cltN32 d a b) (two .table d a b fun x y => if x.toNat < y.toNat then 1 else 0)) ∧
  (∀ d a b, encode (.cleN32 d a b) = some (wordOf 0x01 d a b 29) ∧
    Delivers (.cleN32 d a b) (two .table d a b fun x y => if x.toNat ≤ y.toNat then 1 else 0))

/-- The RI forms (03 R82): the word of each, and its r with the immediate extended as the table says, with the tag of 01 R34. -/
def Obligations.ImmediateDelivers : Prop :=
  (∀ d a imm, encode (.addi d a imm) = some (wordOfRi 0x02 d a imm.toNat) ∧
    Delivers (.addi d a imm) (one (.addi a (imm.signExtend 32)) d a fun x => x + imm.signExtend 32)) ∧
  (∀ d a imm, encode (.andi d a imm) = some (wordOfRi 0x03 d a imm.toNat) ∧
    Delivers (.andi d a imm) (one .table d a fun x => x &&& imm.zeroExtend 32)) ∧
  (∀ d a imm, encode (.ori d a imm) = some (wordOfRi 0x04 d a imm.toNat) ∧
    Delivers (.ori d a imm) (one .table d a fun x => x ||| imm.zeroExtend 32)) ∧
  (∀ d a imm, encode (.xori d a imm) = some (wordOfRi 0x05 d a imm.toNat) ∧
    Delivers (.xori d a imm) (one .table d a fun x => x ^^^ imm.zeroExtend 32)) ∧
  (∀ d a n, encode (.slli d a n) = some (wordOfRi 0x06 d a (0 * 2 ^ 8 + n.toNat)) ∧
    Delivers (.slli d a n) (one (.slli a n.toNat) d a fun x => x <<< n.toNat)) ∧
  (∀ d a n, encode (.srli d a n) = some (wordOfRi 0x06 d a (1 * 2 ^ 8 + n.toNat)) ∧
    Delivers (.srli d a n) (one .table d a fun x => x >>> n.toNat)) ∧
  (∀ d a n, encode (.srai d a n) = some (wordOfRi 0x06 d a (2 * 2 ^ 8 + n.toNat)) ∧
    Delivers (.srai d a n) (one .table d a fun x => x.sshiftRight n.toNat)) ∧
  (∀ d a n, encode (.roli d a n) = some (wordOfRi 0x06 d a (3 * 2 ^ 8 + n.toNat)) ∧
    Delivers (.roli d a n) (one .table d a fun x => x.rotateLeft n.toNat)) ∧
  (∀ d a imm, encode (.ceqi d a imm) = some (wordOfRi 0x07 d a (0 * 2 ^ 9 + imm.toNat)) ∧
    Delivers (.ceqi d a imm) (one .table d a fun x => if x = imm.zeroExtend 32 then 1 else 0)) ∧
  (∀ d a imm, encode (.cnei d a imm) = some (wordOfRi 0x07 d a (1 * 2 ^ 9 + imm.toNat)) ∧
    Delivers (.cnei d a imm) (one .table d a fun x => if x ≠ imm.zeroExtend 32 then 1 else 0)) ∧
  (∀ d a imm, encode (.cltiI32 d a imm) = some (wordOfRi 0x07 d a (2 * 2 ^ 9 + imm.toNat)) ∧
    Delivers (.cltiI32 d a imm) (one .table d a fun x => if x.toInt < imm.toInt then 1 else 0)) ∧
  (∀ d a imm, encode (.cleiI32 d a imm) = some (wordOfRi 0x07 d a (3 * 2 ^ 9 + imm.toNat)) ∧
    Delivers (.cleiI32 d a imm) (one .table d a fun x => if x.toInt ≤ imm.toInt then 1 else 0)) ∧
  (∀ d a imm, encode (.cgtiI32 d a imm) = some (wordOfRi 0x07 d a (4 * 2 ^ 9 + imm.toNat)) ∧
    Delivers (.cgtiI32 d a imm) (one .table d a fun x => if x.toInt > imm.toInt then 1 else 0)) ∧
  (∀ d a imm, encode (.cltiN32 d a imm) = some (wordOfRi 0x07 d a (5 * 2 ^ 9 + imm.toNat)) ∧
    Delivers (.cltiN32 d a imm) (one .table d a fun x => if x.toNat < imm.toNat then 1 else 0)) ∧
  (∀ d a imm, encode (.cleiN32 d a imm) = some (wordOfRi 0x07 d a (6 * 2 ^ 9 + imm.toNat)) ∧
    Delivers (.cleiN32 d a imm) (one .table d a fun x => if x.toNat ≤ imm.toNat then 1 else 0)) ∧
  (∀ d a imm, encode (.cgtiN32 d a imm) = some (wordOfRi 0x07 d a (7 * 2 ^ 9 + imm.toNat)) ∧
    Delivers (.cgtiN32 d a imm) (one .table d a fun x => if x.toNat > imm.toNat then 1 else 0))

/-- IOP64 (03 R85): modulo 2^64 over pairs and single registers. -/
def Obligations.Iop64Delivers : Prop :=
  (∀ d a b, Delivers (.add64 d a b) (wide d a b 2 2 2 (fun x y => x + y))) ∧
  (∀ d a b, Delivers (.sub64 d a b) (wide d a b 2 2 2 (fun x y => x + (2 ^ 64 - y)))) ∧
  (∀ d a b, Delivers (.mul64 d a b) (wide d a b 2 2 2 (fun x y => x * y))) ∧
  (∀ d a b, Delivers (.mulwI32 d a b) (wide d a b 2 1 1 (fun x y => intBits 64 (sextInt 32 x * sextInt 32 y)))) ∧
  (∀ d a b, Delivers (.mulwN32 d a b) (wide d a b 2 1 1 (fun x y => x * y))) ∧
  (∀ d a b, Delivers (.madwN32 d a b) (Form.plain [(a, 1), (b, 1), (d, 2)] (some (d, 2)) .table, fun i _ l =>
      .write l (wordsOf 2 (i.view.pair d l + (i.view.reg a l).toNat * (i.view.reg b l).toNat)))) ∧
  (∀ d a b, Delivers (.addwI32 d a b) (wide d a b 2 2 1 (fun x y => intBits 64 (x + sextInt 32 y)))) ∧
  (∀ d a b, Delivers (.addwN32 d a b) (wide d a b 2 2 1 (fun x y => x + y))) ∧
  (∀ d a b, Delivers (.sll64 d a b) (wide d a b 2 2 1 (fun x y => x * 2 ^ (y % 64)))) ∧
  (∀ d a b, Delivers (.srl64 d a b) (wide d a b 2 2 1 (fun x y => x / 2 ^ (y % 64)))) ∧
  (∀ d a b, Delivers (.sra64 d a b) (wide d a b 2 2 1 (fun x y => intBits 64 (sextInt 64 x / (2 ^ (y % 64) : Nat))))) ∧
  (∀ d a b, Delivers (.ceq64 d a b) (wide d a b 1 2 2 (fun x y => if x = y then 1 else 0))) ∧
  (∀ d a b, Delivers (.clt64I64 d a b) (wide d a b 1 2 2 (fun x y => if sextInt 64 x < sextInt 64 y then 1 else 0))) ∧
  (∀ d a b, Delivers (.clt64N64 d a b) (wide d a b 1 2 2 (fun x y => if x < y then 1 else 0))) ∧
  (∀ d a b, Delivers (.min64N64 d a b) (wide d a b 2 2 2 (fun x y => Nat.min x y))) ∧
  (∀ d a b, Delivers (.max64N64 d a b) (wide d a b 2 2 2 (fun x y => Nat.max x y)))

/-- IUN (03 R86): the word of each function, b zero, and its r. -/
def Obligations.IunDelivers : Prop :=
  (∀ d a, encode (.clz d a) = some (wordOf 0x0f d a 0 0) ∧
    Delivers (.clz d a) (one .table d a fun x => BitVec.ofNat 32 (((List.range 32).find? fun k => x.getLsbD (31 - k)).getD 32))) ∧
  (∀ d a, encode (.ctz d a) = some (wordOf 0x0f d a 0 1) ∧
    Delivers (.ctz d a) (one .table d a fun x => BitVec.ofNat 32 (((List.range 32).find? fun k => x.getLsbD k).getD 32))) ∧
  (∀ d a, encode (.popc d a) = some (wordOf 0x0f d a 0 2) ∧
    Delivers (.popc d a) (one .table d a fun x => BitVec.ofNat 32 ((List.range 32).filter fun k => x.getLsbD k).length)) ∧
  (∀ d a, encode (.brev d a) = some (wordOf 0x0f d a 0 3) ∧
    Delivers (.brev d a) (one .table d a fun x => x.reverse)) ∧
  (∀ d a, encode (.bswap d a) = some (wordOf 0x0f d a 0 4) ∧
    Delivers (.bswap d a) (one .table d a fun x => x.extractLsb' 0 8 ++ x.extractLsb' 8 8 ++ x.extractLsb' 16 8 ++ x.extractLsb' 24 8)) ∧
  (∀ d a, encode (.sext8 d a) = some (wordOf 0x0f d a 0 5) ∧
    Delivers (.sext8 d a) (one .table d a fun x => (x.extractLsb' 0 8).signExtend 32)) ∧
  (∀ d a, encode (.sext16 d a) = some (wordOf 0x0f d a 0 6) ∧
    Delivers (.sext16 d a) (one .table d a fun x => (x.extractLsb' 0 16).signExtend 32)) ∧
  (∀ d a, encode (.abs d a) = some (wordOf 0x0f d a 0 7) ∧
    Delivers (.abs d a) (one .table d a fun x => BitVec.ofNat 32 x.toInt.natAbs)) ∧
  (∀ d a, encode (.neg d a) = some (wordOf 0x0f d a 0 8) ∧
    Delivers (.neg d a) (one .table d a fun x => 0 - x)) ∧
  (∀ d a, encode (.not d a) = some (wordOf 0x0f d a 0 9) ∧
    Delivers (.not d a) (one .table d a fun x => ~~~x))

/-- Lane operations and capability reads (03 R86 to R91, R96 to R100): one operation over all lanes of the class. -/
def Obligations.LaneDelivers : Prop :=
  (∀ d a, Delivers (.ballot d a) (laneForm [(a, 1)] (some (d, 2)) .u, fun i _ l =>
      .write l (wordsOf 2 (maskOf (i.lanes.filter fun j => i.view.reg a j ≠ 0)).toNat))) ∧
  (∀ d a, Delivers (.vany d a) (reduceRow d a 1 (fun vs => if vs.any (· ≠ 0) then 1 else 0))) ∧
  (∀ d a, Delivers (.vall d a) (reduceRow d a 1 (fun vs => if vs.all (· ≠ 0) then 1 else 0))) ∧
  (∀ d a, Delivers (.rfl d a) (reduceRow d a 1 (fun vs => (vs.headD 0).toNat))) ∧
  (∀ d a b, Delivers (.shfl d a b) (shuffleRow d a b (fun gw _ y => some (y.toNat % gw)))) ∧
  (∀ d a b, Delivers (.shflu d a b) (shuffleRow d a b (fun _ l y => if y.toNat ≤ l then some (l - y.toNat) else none))) ∧
  (∀ d a b, Delivers (.shfld d a b) (shuffleRow d a b (fun _ l y => some (l + y.toNat)))) ∧
  (∀ d a b, Delivers (.shflx d a b) (shuffleRow d a b (fun _ l y => some (Nat.xor l (y.toNat % 64))))) ∧
  (∀ d, Delivers (.active d) (laneForm [] (some (d, 2)) .u, fun i _ l => .write l (wordsOf 2 (maskOf i.lanes).toNat))) ∧
  (∀ d, Delivers (.elect d) (laneForm [] (some (d, 1)) .g, fun i _ l => .write l [truth (i.lanes.headD l == l)])) ∧
  (∀ d a, Delivers (.scanadd d a) (laneForm [(a, 1)] (some (d, 1)) .g, fun i _ l =>
      .write l [sumWords ((i.lanes.filter (· < l)).map fun j => i.view.reg a j)])) ∧
  (∀ d a, Delivers (.radd d a) (reduceRow d a 1 (fun vs => (sumWords vs).toNat))) ∧
  (∀ d a, Delivers (.rminI32 d a) (reduceRow d a 1 (pickWord fun v m => decide (v.toInt < m.toInt)))) ∧
  (∀ d a, Delivers (.rmaxI32 d a) (reduceRow d a 1 (pickWord fun v m => decide (v.toInt > m.toInt)))) ∧
  (∀ d a, Delivers (.rmaxN32 d a) (reduceRow d a 1 (pickWord fun v m => decide (v.toNat > m.toNat)))) ∧
  (∀ d, Delivers (.lmasklt d) (laneForm [] (some (d, 2)) .g, fun _ _ l => .write l (wordsOf 2 (2 ^ l - 1)))) ∧
  (∀ d a, Delivers (.cmov d a)
    (Form.plain [(a, 4)] (some (d, 4)) .table, fun i _ l => .quad l (i.view.quad a l) (i.view.capTag a l))) ∧
  (∀ d a sel, Delivers (.cget d a sel) (Form.plain [(a, 4)] (some (d, if sel.toNat < 2 then 2 else 1)) .table, fun i _ l =>
      match sel.toNat with
      | 0 => .write l (wordsOf 2 (capBase (i.view.quad a l)))
      | 1 => .write l (wordsOf 2 (capLen (i.view.quad a l)))
      | 2 => .write l (wordsOf 1 (capPerm (i.view.quad a l)))
      | _ => .write l (wordsOf 1 (capEsz (i.view.quad a l))))) ∧
  (∀ d a, Delivers (.ctag d a) (Form.plain [(a, 4)] (some (d, 1)) .g, fun i _ l => .write l [truth (i.view.capTag a l)]))

/-- Floating-point arithmetic (04 R101 to R110, R121 to R131): each lane gets the result of the named operation in the mode of the word; under SR its
generator advances once and the result rounds with the new state (R107). -/
def Obligations.FloatDelivers : Prop :=
  (∀ rm d a b, Delivers (.faddD rm d a b) (float2Row 2 rm d a b (fun m g => fAdd f64 m g))) ∧
  (∀ rm d a b, Delivers (.fsubD rm d a b) (float2Row 2 rm d a b (fun m g => fSub f64 m g))) ∧
  (∀ rm d a b, Delivers (.fmulD rm d a b) (float2Row 2 rm d a b (fun m g => fMul f64 m g))) ∧
  (∀ rm d a b, Delivers (.fdivD rm d a b) (float2Row 2 rm d a b (fun m g => fDiv f64 m g))) ∧
  (∀ rm d a b, Delivers (.faddS rm d a b) (float2Row 1 rm d a b (fun m g => fAdd f32 m g))) ∧
  (∀ rm d a b, Delivers (.fsubS rm d a b) (float2Row 1 rm d a b (fun m g => fSub f32 m g))) ∧
  (∀ rm d a b, Delivers (.fmulS rm d a b) (float2Row 1 rm d a b (fun m g => fMul f32 m g))) ∧
  (∀ rm d a b, Delivers (.fdivS rm d a b) (float2Row 1 rm d a b (fun m g => fDiv f32 m g))) ∧
  (∀ rm d a b, Delivers (.faddH rm d a b) (float2Row 1 rm d a b (fun m => packed2 (fAdd f16 m)))) ∧
  (∀ rm d a b, Delivers (.fsubH rm d a b) (float2Row 1 rm d a b (fun m => packed2 (fSub f16 m)))) ∧
  (∀ rm d a b, Delivers (.fmulH rm d a b) (float2Row 1 rm d a b (fun m => packed2 (fMul f16 m)))) ∧
  (∀ rm d a b, Delivers (.fdivH rm d a b) (float2Row 1 rm d a b (fun m => packed2 (fDiv f16 m)))) ∧
  (∀ rm d a b, Delivers (.faddB rm d a b) (float2Row 1 rm d a b (fun m => packed2 (fAdd bf16 m)))) ∧
  (∀ rm d a b, Delivers (.fsubB rm d a b) (float2Row 1 rm d a b (fun m => packed2 (fSub bf16 m)))) ∧
  (∀ rm d a b, Delivers (.fmulB rm d a b) (float2Row 1 rm d a b (fun m => packed2 (fMul bf16 m)))) ∧
  (∀ rm d a b, Delivers (.fdivB rm d a b) (float2Row 1 rm d a b (fun m => packed2 (fDiv bf16 m)))) ∧
  (∀ rm d a b, Delivers (.fmacD rm d a b) (float3Row 2 rm d a b (fun m g => fMac f64 m g))) ∧
  (∀ rm d a b, Delivers (.fmscD rm d a b) (float3Row 2 rm d a b (fun m g => fMsc f64 m g))) ∧
  (∀ rm d a b, Delivers (.fnmacD rm d a b) (float3Row 2 rm d a b (fun m g => fNmac f64 m g))) ∧
  (∀ rm d a b, Delivers (.fnmscD rm d a b) (float3Row 2 rm d a b (fun m g => fNmsc f64 m g))) ∧
  (∀ rm d a b, Delivers (.fmacS rm d a b) (float3Row 1 rm d a b (fun m g => fMac f32 m g))) ∧
  (∀ rm d a b, Delivers (.fmscS rm d a b) (float3Row 1 rm d a b (fun m g => fMsc f32 m g))) ∧
  (∀ rm d a b, Delivers (.fnmacS rm d a b) (float3Row 1 rm d a b (fun m g => fNmac f32 m g))) ∧
  (∀ rm d a b, Delivers (.fnmscS rm d a b) (float3Row 1 rm d a b (fun m g => fNmsc f32 m g))) ∧
  (∀ rm d a b, Delivers (.fmacH rm d a b) (float3Row 1 rm d a b (fun m => packed3 (fMac f16 m)))) ∧
  (∀ rm d a b, Delivers (.fmscH rm d a b) (float3Row 1 rm d a b (fun m => packed3 (fMsc f16 m)))) ∧
  (∀ rm d a b, Delivers (.fnmacH rm d a b) (float3Row 1 rm d a b (fun m => packed3 (fNmac f16 m)))) ∧
  (∀ rm d a b, Delivers (.fnmscH rm d a b) (float3Row 1 rm d a b (fun m => packed3 (fNmsc f16 m)))) ∧
  (∀ rm d a b, Delivers (.fmacB rm d a b) (float3Row 1 rm d a b (fun m => packed3 (fMac bf16 m)))) ∧
  (∀ rm d a b, Delivers (.fmscB rm d a b) (float3Row 1 rm d a b (fun m => packed3 (fMsc bf16 m)))) ∧
  (∀ rm d a b, Delivers (.fnmacB rm d a b) (float3Row 1 rm d a b (fun m => packed3 (fNmac bf16 m)))) ∧
  (∀ rm d a b, Delivers (.fnmscB rm d a b) (float3Row 1 rm d a b (fun m => packed3 (fNmsc bf16 m)))) ∧
  (∀ rm d a b, Delivers (.fpackH2 rm d a b) (float2Row 1 rm d a b (fPack16 f16))) ∧
  (∀ rm d a b, Delivers (.fpackB2 rm d a b) (float2Row 1 rm d a b (fPack16 bf16))) ∧
  (∀ rm d a b, Delivers (.fpackE4m3 rm d a b) (float3Row 1 rm d a b (fPack8 e4m3))) ∧
  (∀ rm d a b, Delivers (.fpackE5m2 rm d a b) (float3Row 1 rm d a b (fPack8 e5m2))) ∧
  (∀ rm d a b, Delivers (.fdotH2 rm d a b) (dotRow f16 2 rm d a b)) ∧
  (∀ rm d a b, Delivers (.fdotB2 rm d a b) (dotRow bf16 2 rm d a b)) ∧
  (∀ rm d a b, Delivers (.fdotE4m3 rm d a b) (dotRow e4m3 4 rm d a b)) ∧
  (∀ rm d a b, Delivers (.fdotE5m2 rm d a b) (dotRow e5m2 4 rm d a b)) ∧
  (∀ rm d a b, Delivers (.fqntDpt8 rm d a b)
    (float3Row 1 rm d a b (fun m g x y e => shiftIn 8 x (fQuant true m g y (e % 256))))) ∧
  (∀ rm d a b, Delivers (.fqntSpt4 rm d a b)
    (float3Row 1 rm d a b (fun m g x y e => shiftIn 4 x (fQuant false m g y (e % 256)))))

/-- Floating-point selection, comparison, scaling, roots, conversion and the transcendental forms (04 R111 to R131). -/
def Obligations.ConvertDelivers : Prop :=
  (∀ d a b, Delivers (.fminD d a b) (floatSelRow 2 2 2 d a b (fMinMax false f64))) ∧
  (∀ d a b, Delivers (.fmaxD d a b) (floatSelRow 2 2 2 d a b (fMinMax true f64))) ∧
  (∀ d a b, Delivers (.fminnumD d a b) (floatSelRow 2 2 2 d a b (fMinMaxNum false f64))) ∧
  (∀ d a b, Delivers (.fmaxnumD d a b) (floatSelRow 2 2 2 d a b (fMinMaxNum true f64))) ∧
  (∀ d a, Delivers (.fabsD d a) (floatSel1Row 2 2 d a (fAbs f64))) ∧
  (∀ d a, Delivers (.fnegD d a) (floatSel1Row 2 2 d a (fNeg f64))) ∧
  (∀ d a b, Delivers (.fcpsgnD d a b) (floatSelRow 2 2 2 d a b (fCpsgn f64))) ∧
  (∀ d a, Delivers (.fclassD d a) (floatSel1Row 1 2 d a (classRes f64))) ∧
  (∀ d a b, Delivers (.fceqD d a b) (floatSelRow 1 2 2 d a b (fun x y => cmpRes false (fCompare .eq f64 x y)))) ∧
  (∀ d a b, Delivers (.fcltD d a b) (floatSelRow 1 2 2 d a b (fun x y => cmpRes false (fCompare .lt f64 x y)))) ∧
  (∀ d a b, Delivers (.fcleD d a b) (floatSelRow 1 2 2 d a b (fun x y => cmpRes false (fCompare .le f64 x y)))) ∧
  (∀ d a b, Delivers (.fcunD d a b) (floatSelRow 1 2 2 d a b (fun x y => cmpRes false (fCompare .un f64 x y)))) ∧
  (∀ d a b, Delivers (.fscalbD d a b) (floatSelRow 2 2 1 d a b (fun x k => fScalb f64 x (sextInt 32 k)))) ∧
  (∀ d a b, Delivers (.fminS d a b) (floatSelRow 1 1 1 d a b (fMinMax false f32))) ∧
  (∀ d a b, Delivers (.fmaxS d a b) (floatSelRow 1 1 1 d a b (fMinMax true f32))) ∧
  (∀ d a b, Delivers (.fminnumS d a b) (floatSelRow 1 1 1 d a b (fMinMaxNum false f32))) ∧
  (∀ d a b, Delivers (.fmaxnumS d a b) (floatSelRow 1 1 1 d a b (fMinMaxNum true f32))) ∧
  (∀ d a, Delivers (.fabsS d a) (floatSel1Row 1 1 d a (fAbs f32))) ∧
  (∀ d a, Delivers (.fnegS d a) (floatSel1Row 1 1 d a (fNeg f32))) ∧
  (∀ d a b, Delivers (.fcpsgnS d a b) (floatSelRow 1 1 1 d a b (fCpsgn f32))) ∧
  (∀ d a, Delivers (.fclassS d a) (floatSel1Row 1 1 d a (classRes f32))) ∧
  (∀ d a b, Delivers (.fceqS d a b) (floatSelRow 1 1 1 d a b (fun x y => cmpRes false (fCompare .eq f32 x y)))) ∧
  (∀ d a b, Delivers (.fcltS d a b) (floatSelRow 1 1 1 d a b (fun x y => cmpRes false (fCompare .lt f32 x y)))) ∧
  (∀ d a b, Delivers (.fcleS d a b) (floatSelRow 1 1 1 d a b (fun x y => cmpRes false (fCompare .le f32 x y)))) ∧
  (∀ d a b, Delivers (.fcunS d a b) (floatSelRow 1 1 1 d a b (fun x y => cmpRes false (fCompare .un f32 x y)))) ∧
  (∀ d a b, Delivers (.fscalbS d a b) (floatSelRow 1 1 1 d a b (fun x k => fScalb f32 x (sextInt 32 k)))) ∧
  (∀ d a b, Delivers (.fminH d a b) (floatSelRow 1 1 1 d a b (packedSel (fMinMax false f16)))) ∧
  (∀ d a b, Delivers (.fmaxH d a b) (floatSelRow 1 1 1 d a b (packedSel (fMinMax true f16)))) ∧
  (∀ d a b, Delivers (.fminnumH d a b) (floatSelRow 1 1 1 d a b (packedSel (fMinMaxNum false f16)))) ∧
  (∀ d a b, Delivers (.fmaxnumH d a b) (floatSelRow 1 1 1 d a b (packedSel (fMinMaxNum true f16)))) ∧
  (∀ d a, Delivers (.fabsH d a) (floatSel1Row 1 1 d a (fun x => packedSel (fun x _ => fAbs f16 x) x 0))) ∧
  (∀ d a, Delivers (.fnegH d a) (floatSel1Row 1 1 d a (fun x => packedSel (fun x _ => fNeg f16 x) x 0))) ∧
  (∀ d a b, Delivers (.fcpsgnH d a b) (floatSelRow 1 1 1 d a b (packedSel (fCpsgn f16)))) ∧
  (∀ d a, Delivers (.fclassH d a) (floatSel1Row 1 1 d a (fun x => packedSel (fun x _ => classRes f16 x) x 0))) ∧
  (∀ d a b, Delivers (.fceqH d a b) (floatSelRow 1 1 1 d a b (packedSel fun x y => cmpRes true (fCompare .eq f16 x y)))) ∧
  (∀ d a b, Delivers (.fcltH d a b) (floatSelRow 1 1 1 d a b (packedSel fun x y => cmpRes true (fCompare .lt f16 x y)))) ∧
  (∀ d a b, Delivers (.fcleH d a b) (floatSelRow 1 1 1 d a b (packedSel fun x y => cmpRes true (fCompare .le f16 x y)))) ∧
  (∀ d a b, Delivers (.fcunH d a b) (floatSelRow 1 1 1 d a b (packedSel fun x y => cmpRes true (fCompare .un f16 x y)))) ∧
  (∀ d a b, Delivers (.fscalbH d a b) (floatSelRow 1 1 1 d a b (packedSel fun x k => fScalb f16 x (sextInt 16 k)))) ∧
  (∀ d a b, Delivers (.fminB d a b) (floatSelRow 1 1 1 d a b (packedSel (fMinMax false bf16)))) ∧
  (∀ d a b, Delivers (.fmaxB d a b) (floatSelRow 1 1 1 d a b (packedSel (fMinMax true bf16)))) ∧
  (∀ d a b, Delivers (.fminnumB d a b) (floatSelRow 1 1 1 d a b (packedSel (fMinMaxNum false bf16)))) ∧
  (∀ d a b, Delivers (.fmaxnumB d a b) (floatSelRow 1 1 1 d a b (packedSel (fMinMaxNum true bf16)))) ∧
  (∀ d a, Delivers (.fabsB d a) (floatSel1Row 1 1 d a (fun x => packedSel (fun x _ => fAbs bf16 x) x 0))) ∧
  (∀ d a, Delivers (.fnegB d a) (floatSel1Row 1 1 d a (fun x => packedSel (fun x _ => fNeg bf16 x) x 0))) ∧
  (∀ d a b, Delivers (.fcpsgnB d a b) (floatSelRow 1 1 1 d a b (packedSel (fCpsgn bf16)))) ∧
  (∀ d a, Delivers (.fclassB d a) (floatSel1Row 1 1 d a (fun x => packedSel (fun x _ => classRes bf16 x) x 0))) ∧
  (∀ d a b, Delivers (.fceqB d a b) (floatSelRow 1 1 1 d a b (packedSel fun x y => cmpRes true (fCompare .eq bf16 x y)))) ∧
  (∀ d a b, Delivers (.fcltB d a b) (floatSelRow 1 1 1 d a b (packedSel fun x y => cmpRes true (fCompare .lt bf16 x y)))) ∧
  (∀ d a b, Delivers (.fcleB d a b) (floatSelRow 1 1 1 d a b (packedSel fun x y => cmpRes true (fCompare .le bf16 x y)))) ∧
  (∀ d a b, Delivers (.fcunB d a b) (floatSelRow 1 1 1 d a b (packedSel fun x y => cmpRes true (fCompare .un bf16 x y)))) ∧
  (∀ d a b, Delivers (.fscalbB d a b) (floatSelRow 1 1 1 d a b (packedSel fun x k => fScalb bf16 x (sextInt 16 k)))) ∧
  (∀ rm d a, Delivers (.fsqrtD rm d a) (float1Row 2 2 rm d a (fSqrt f64))) ∧
  (∀ rm d a, Delivers (.frcpD rm d a) (float1Row 2 2 rm d a (fRcp f64))) ∧
  (∀ rm d a, Delivers (.frsqD rm d a) (float1Row 2 2 rm d a (fun m g => fRsq f64 rm (if m == .sr then g else 0)))) ∧
  (∀ rm d a, Delivers (.frintD rm d a) (float1Row 2 2 rm d a (fRint f64))) ∧
  (∀ rm d a, Delivers (.fsqrtS rm d a) (float1Row 1 1 rm d a (fSqrt f32))) ∧
  (∀ rm d a, Delivers (.frcpS rm d a) (float1Row 1 1 rm d a (fRcp f32))) ∧
  (∀ rm d a, Delivers (.frsqS rm d a) (float1Row 1 1 rm d a (fun m g => fRsq f32 rm (if m == .sr then g else 0)))) ∧
  (∀ rm d a, Delivers (.frintS rm d a) (float1Row 1 1 rm d a (fRint f32))) ∧
  (∀ rm d a, Delivers (.fexp2D rm d a)
    ({ floatForm [(a, 2)] (d, 2) false with foehn := false }, fun i _ l => .float l 2 (fTrans .exp2 f64 rm (i.num a 2 l)) none)) ∧
  (∀ rm d a, Delivers (.flog2D rm d a)
    ({ floatForm [(a, 2)] (d, 2) false with foehn := false }, fun i _ l => .float l 2 (fTrans .log2 f64 rm (i.num a 2 l)) none)) ∧
  (∀ rm d a, Delivers (.fsinpiD rm d a)
    ({ floatForm [(a, 2)] (d, 2) false with foehn := false }, fun i _ l => .float l 2 (fTrans .sinpi f64 rm (i.num a 2 l)) none)) ∧
  (∀ rm d a, Delivers (.fcospiD rm d a)
    ({ floatForm [(a, 2)] (d, 2) false with foehn := false }, fun i _ l => .float l 2 (fTrans .cospi f64 rm (i.num a 2 l)) none)) ∧
  (∀ rm d a, Delivers (.fexp2S rm d a)
    ((floatForm [(a, 1)] (d, 1) false), fun i _ l => .float l 1 (fTrans .exp2 f32 rm (i.num a 1 l)) none)) ∧
  (∀ rm d a, Delivers (.flog2S rm d a)
    ((floatForm [(a, 1)] (d, 1) false), fun i _ l => .float l 1 (fTrans .log2 f32 rm (i.num a 1 l)) none)) ∧
  (∀ rm d a, Delivers (.fsinpiS rm d a)
    ((floatForm [(a, 1)] (d, 1) false), fun i _ l => .float l 1 (fTrans .sinpi f32 rm (i.num a 1 l)) none)) ∧
  (∀ rm d a, Delivers (.fcospiS rm d a)
    ((floatForm [(a, 1)] (d, 1) false), fun i _ l => .float l 1 (fTrans .cospi f32 rm (i.num a 1 l)) none)) ∧
  (∀ rm sat d a, Delivers (.fcvtSD rm sat d a) (float1Row 1 2 rm d a (fun m g => fConvert f64 f32 m g sat))) ∧
  (∀ rm d a, Delivers (.fcvtDS rm d a) (float1Row 2 1 rm d a (fun m g => fConvert f32 f64 m g false))) ∧
  (∀ rm hi d a, Delivers (.fcvtSH rm hi d a)
    (float1Row 1 1 rm d a (fun m g x => fConvert f16 f32 m g false (elemOf 16 hi.toNat x)))) ∧
  (∀ rm hi d a, Delivers (.fcvtSBf rm hi d a)
    (float1Row 1 1 rm d a (fun m g x => fConvert bf16 f32 m g false (elemOf 16 hi.toNat x)))) ∧
  (∀ rm sat d a, Delivers (.fcvtHS rm sat d a) (float1Row 1 1 rm d a (fun m g => fConvert f32 f16 m g sat))) ∧
  (∀ rm sat d a, Delivers (.fcvtBS rm sat d a) (float1Row 1 1 rm d a (fun m g => fConvert f32 bf16 m g sat))) ∧
  (∀ rm sel d a, Delivers (.fcvtSE4m3 rm sel d a)
    (float1Row 1 1 rm d a (fun m g x => fConvert e4m3 f32 m g false (elemOf 8 sel.toNat x)))) ∧
  (∀ rm sel d a, Delivers (.fcvtSE5m2 rm sel d a)
    (float1Row 1 1 rm d a (fun m g x => fConvert e5m2 f32 m g false (elemOf 8 sel.toNat x)))) ∧
  (∀ rm sel d a, Delivers (.fcvtSDpt8 rm sel d a)
    (float1Row 1 1 rm d a (fun m g x => roundNum f32 m g false (dpt8Num (elemOf 8 sel.toNat x))))) ∧
  (∀ rm sel d a, Delivers (.fcvtSSpt4Low rm sel d a)
    (float1Row 1 1 rm d a (fun m g x => roundNum f32 m g false (spt4Num (elemOf 4 sel.toNat x))))) ∧
  (∀ rm sel d a, Delivers (.fcvtSSpt4High rm sel d a)
    (float1Row 1 1 rm d a (fun m g x => roundNum f32 m g false (spt4Num (elemOf 4 (sel.toNat + 4) x))))) ∧
  (∀ rm sat d a, Delivers (.fcvtI32S rm sat d a)
    (float1Row 1 1 rm d a (fun m g => fToInt f32 { w := 32, signed := true } m g sat))) ∧
  (∀ rm sat d a, Delivers (.fcvtN32S rm sat d a)
    (float1Row 1 1 rm d a (fun m g => fToInt f32 { w := 32, signed := false } m g sat))) ∧
  (∀ rm d a, Delivers (.fcvtSI32 rm d a) (float1Row 1 1 rm d a (fun m g x => intToF f32 m g (sextInt 32 x)))) ∧
  (∀ rm d a, Delivers (.fcvtSN32 rm d a) (float1Row 1 1 rm d a (fun m g x => intToF f32 m g (x : Int)))) ∧
  (∀ rm sat d a, Delivers (.fcvtI32D rm sat d a)
    (float1Row 1 2 rm d a (fun m g => fToInt f64 { w := 32, signed := true } m g sat))) ∧
  (∀ rm sat d a, Delivers (.fcvtN32D rm sat d a)
    (float1Row 1 2 rm d a (fun m g => fToInt f64 { w := 32, signed := false } m g sat))) ∧
  (∀ rm d a, Delivers (.fcvtDI32 rm d a) (float1Row 2 1 rm d a (fun m g x => intToF f64 m g (sextInt 32 x)))) ∧
  (∀ rm d a, Delivers (.fcvtDN32 rm d a) (float1Row 2 1 rm d a (fun m g x => intToF f64 m g (x : Int)))) ∧
  (∀ rm sat d a, Delivers (.fcvtI64D rm sat d a)
    (float1Row 2 2 rm d a (fun m g => fToInt f64 { w := 64, signed := true } m g sat))) ∧
  (∀ rm sat d a, Delivers (.fcvtN64D rm sat d a)
    (float1Row 2 2 rm d a (fun m g => fToInt f64 { w := 64, signed := false } m g sat))) ∧
  (∀ rm d a, Delivers (.fcvtDI64 rm d a) (float1Row 2 2 rm d a (fun m g x => intToF f64 m g (sextInt 64 x)))) ∧
  (∀ rm d a, Delivers (.fcvtDN64 rm d a) (float1Row 2 2 rm d a (fun m g x => intToF f64 m g (x : Int)))) ∧
  (∀ rm d a, Delivers (.fqntScale rm d a)
    (float1Row 1 1 rm d a (fun _ _ x => { bits := (fQuantScale x).1, flags := (fQuantScale x).2 })))

/-- Instructions that change where a thread goes, its meeting, window, flags or tags, and the conditions under which they do. -/
def Obligations.FlowCompletes : Prop :=
  (Runs .exit ({ Form.plain [] none .table with txn := false }) (still (fun _ _ => true) fun _ l => .only l .exit)) ∧
  (∀ a imm, Runs (.bz a imm) (Form.plain [(a, 1)] none .table) (still (fun _ _ => true) fun i l =>
      .only l (if i.view.reg a l = 0 then .goto (branchTarget i.op.pc imm) else .next))) ∧
  (∀ a imm, Runs (.bnz a imm) (Form.plain [(a, 1)] none .table) (still (fun _ _ => true) fun i l =>
      .only l (if i.view.reg a l ≠ 0 then .goto (branchTarget i.op.pc imm) else .next))) ∧
  (∀ d imm, Runs (.jal d imm) (Form.plain [] (some (d, 2)) .u) (still (fun _ _ => true) fun i l =>
      { LaneOut.write l (wordsOf 2 (i.op.pc + 4).toNat) with ends := .goto (branchTarget i.op.pc imm) })) ∧
  (∀ d a, Runs (.jr d a) (Form.plain [(a, 2)] (some (d, 2)) .table) (still (fun i l => i.view.pair a l % 4 == 0) fun i l =>
      { LaneOut.write l (wordsOf 2 (i.op.pc + 4).toNat) with ends := .goto (BitVec.ofNat 64 (i.view.pair a l)) })) ∧
  (∀ d a, Runs (.mset d a) (Form.plain [(a, 2)] (some (d, 2)) .g)
    (turn (fun i _ => i.lanes.all fun l => i.view.pair a l == meetNone.toNat || i.view.pair a l % 4 == 0)
        (fun i s => s.onLanes i.op i.lanes fun l th => { th with meet := BitVec.ofNat 64 (i.view.pair a l) })
        fun i _ l => .write l (wordsOf 2 (i.thread l).meet.toNat))) ∧
  (∀ d imm, Runs (.meet d imm) (Form.plain [] (some (d, 2)) .g)
    (turn (fun _ _ => true) (fun i s => s.onLanes i.op i.lanes fun _ th => { th with meet := branchTarget i.op.pc imm })
        fun i _ l => .write l (wordsOf 2 (i.thread l).meet.toNat))) ∧
  (∀ a, Runs (.wbase a) ({ Form.plain [(a, 1)] none .table with foehn := false, txn := false })
    (turn (fun i _ => i.lanes.all fun l =>
          (i.view.reg a l).toNat % 8 == 0 && decide ((i.view.reg a l).toNat + 96 ≤ i.team.nregs))
        (fun i s => s.onLanes i.op i.lanes fun l th => { th with
          base := (i.view.reg a l).toNat, capTags := if th.base = (i.view.reg a l).toNat then th.capTags else 0 })
        fun _ _ l => .only l .next)) ∧
  (∀ d a, Runs (.fxclr d a) (Form.plain [(a, 1)] (some (d, 1)) .g)
    (turn (fun _ _ => true) (fun i s => s.onLanes i.op i.lanes fun l th => { th with fx := th.fx &&& ~~~(i.view.reg a l &&& 0x3f) })
        fun i _ l => .write l [(i.thread l).fx])) ∧
  (∀ d a, Runs (.gcw d a) (Form.plain [(a, 1)] (some (d, 1)) .u)
    (turn (fun i _ => i.lanes.getLast?.any fun l => gcrOk (i.view.reg a l))
        (fun i s => s.modGroup i.op.team i.op.grp fun g => { g with gcr := ((i.lanes.getLast?).map (i.view.reg a)).getD 0 })
        fun i _ l => .write l [i.view.group.gcr])) ∧
  (∀ d a b, Runs (.cnarrow d a b) (Form.plain [(a, 4), (b, 4)] (some (d, 4)) .table) (still (fun i l => i.view.capTag a l &&
          decide (i.view.quad b l % 2 ^ 64 + i.view.quad b l / 2 ^ 64 ≤ capLen (i.view.quad a l))) fun i l =>
        .quad l (capWith (i.view.quad a l) (capBase (i.view.quad a l) + i.view.quad b l % 2 ^ 64) (i.view.quad b l / 2 ^ 64)) true)) ∧
  (∀ d a b, Runs (.cperm d a b) (Form.plain [(a, 4), (b, 1)] (some (d, 4)) .table)
    (still (fun i l => i.view.capTag a l && decide ((i.view.reg b l).toNat < 32) &&
          decide (Nat.land (i.view.reg b l).toNat (31 - capPerm (i.view.quad a l)) = 0)) fun i l =>
        .quad l (capWithPerm (i.view.quad a l) (i.view.reg b l).toNat) true)) ∧
  (∀ d a, Runs (.cmint d a) ({ Form.plain [(a, 4)] (some (d, 4)) .table with foehn := false, priv := true })
    (still (fun i l => decide (i.view.quad a l / 2 ^ 115 = 0) && decide (i.view.quad a l / 2 ^ 109 % 8 = 0)) fun i l =>
        .quad l (i.view.quad a l) true)) ∧
  (∀ d, Runs (.cclr d) (Form.plain [] (some (d, 4)) .table) (turn (fun _ _ => true) (fun i s =>
        if d.toNat ≥ 112 then s
        else if d.toNat ≥ 96 then s.modTeam i.op.team fun t =>
          { t with ctags := t.ctags &&& ~~~((quadBits (d.toNat - 96) 4).setWidth 4) }
        else s.onLanes i.op i.lanes fun _ th => { th with capTags := th.capTags &&& ~~~(quadBits (i.op.base + d.toNat) 4) })
        fun _ _ l => .only l .next))

/-- Loads, stores, scratch, async copies (06 R161 to R173): the effect on the state of the accesses of
the lanes in ascending order. That the accesses have been performed in the step that accepts them is
the model's choice (DESIGN CHOICE log 4; R169 has stores performed later). Operations with a lane
that faults or waits for a link (log 12) are left out. -/
def Obligations.AccessCompletes : Prop :=
  (∀ pol w d a b, Runs (.ld pol w d a b) (memForm [(a, 2), (b, 1)] (some (d, widthRegs w.toNat)) .g)
    (loads d w (loadAt pol w a (indexed w a b)))) ∧
  (∀ w d a off, Runs (.ldi w d a off) (memForm [(a, 2)] (some (d, widthRegs w.toNat)) .g)
    (loads d w (loadAt 0 w a (displaced w a off)))) ∧
  (∀ pol w d a b, Runs (.st pol w d a b) (memForm [(a, 2), (b, 1), (d, widthRegs w.toNat)] none .table)
    (each (storeAt pol w d a (indexed w a b)))) ∧
  (∀ w d a off, Runs (.sti w d a off) (memForm [(a, 2), (d, widthRegs w.toNat)] none .table)
    (each (storeAt 0 w d a (displaced w a off)))) ∧
  (∀ w d a b, Runs (.scrLd w d a b) (Form.plain [(a, 1), (b, 1)] (some (d, widthRegs w.toNat)) .g) (loads d w (scrLoadAt w a b))) ∧
  (∀ w d a b, Runs (.scrSt w d a b) (Form.plain [(a, 1), (b, 1), (d, widthRegs w.toNat)] none .table) (each (scrStoreAt w d a b))) ∧
  (∀ size d a b, Runs (.acpG2s size d a b) (copyForm d a b) (each (copyAt true size d a b))) ∧
  (∀ size d a b, Runs (.acpS2g size d a b) (copyForm d a b) (each (copyAt false size d a b)))

/-- Atomics (06 R174 to R176): each lane steps its location in ascending order, and the old value lands
in d. That every lane has stepped it in the issuing step is the model's choice (DESIGN CHOICE log 4).
Operations with a lane that faults or waits for a link (log 12) are left out. -/
def Obligations.AtomicCompletes : Prop :=
  (∀ d a b, Runs (.atomAdd d a b) (atomForm .add false d a b) (atomEffect .add false d a b)) ∧
  (∀ d a b, Runs (.atomAnd d a b) (atomForm .and false d a b) (atomEffect .and false d a b)) ∧
  (∀ d a b, Runs (.atomOr d a b) (atomForm .or false d a b) (atomEffect .or false d a b)) ∧
  (∀ d a b, Runs (.atomXor d a b) (atomForm .xor false d a b) (atomEffect .xor false d a b)) ∧
  (∀ d a b, Runs (.atomMinI32 d a b) (atomForm .minS false d a b) (atomEffect .minS false d a b)) ∧
  (∀ d a b, Runs (.atomMaxI32 d a b) (atomForm .maxS false d a b) (atomEffect .maxS false d a b)) ∧
  (∀ d a b, Runs (.atomMinN32 d a b) (atomForm .minU false d a b) (atomEffect .minU false d a b)) ∧
  (∀ d a b, Runs (.atomMaxN32 d a b) (atomForm .maxU false d a b) (atomEffect .maxU false d a b)) ∧
  (∀ d a b, Runs (.atomXchg d a b) (atomForm .xchg false d a b) (atomEffect .xchg false d a b)) ∧
  (∀ d a b, Runs (.atomCas d a b) (atomForm .cas false d a b) (atomEffect .cas false d a b)) ∧
  (∀ d a b, Runs (.atomIncw d a b) (atomForm .incw false d a b) (atomEffect .incw false d a b)) ∧
  (∀ d a b, Runs (.atomDecw d a b) (atomForm .decw false d a b) (atomEffect .decw false d a b)) ∧
  (∀ d a b, Runs (.atomFaddS d a b) (atomForm .fadd false d a b) (atomEffect .fadd false d a b)) ∧
  (∀ d a b, Runs (.atomFminS d a b) (atomForm .fmin false d a b) (atomEffect .fmin false d a b)) ∧
  (∀ d a b, Runs (.atomFmaxS d a b) (atomForm .fmax false d a b) (atomEffect .fmax false d a b)) ∧
  (∀ d a b, Runs (.atomFaddH2 d a b) (atomForm .faddH2 false d a b) (atomEffect .faddH2 false d a b)) ∧
  (∀ d a b, Runs (.atomFaddB2 d a b) (atomForm .faddB2 false d a b) (atomEffect .faddB2 false d a b)) ∧
  (∀ d a b, Runs (.atom64Add d a b) (atomForm .add true d a b) (atomEffect .add true d a b)) ∧
  (∀ d a b, Runs (.atom64And d a b) (atomForm .and true d a b) (atomEffect .and true d a b)) ∧
  (∀ d a b, Runs (.atom64Or d a b) (atomForm .or true d a b) (atomEffect .or true d a b)) ∧
  (∀ d a b, Runs (.atom64Xor d a b) (atomForm .xor true d a b) (atomEffect .xor true d a b)) ∧
  (∀ d a b, Runs (.atom64MinI64 d a b) (atomForm .minS true d a b) (atomEffect .minS true d a b)) ∧
  (∀ d a b, Runs (.atom64MaxI64 d a b) (atomForm .maxS true d a b) (atomEffect .maxS true d a b)) ∧
  (∀ d a b, Runs (.atom64MinN64 d a b) (atomForm .minU true d a b) (atomEffect .minU true d a b)) ∧
  (∀ d a b, Runs (.atom64MaxN64 d a b) (atomForm .maxU true d a b) (atomEffect .maxU true d a b)) ∧
  (∀ d a b, Runs (.atom64Xchg d a b) (atomForm .xchg true d a b) (atomEffect .xchg true d a b)) ∧
  (∀ d a b, Runs (.atom64Cas d a b) (atomForm .cas true d a b) (atomEffect .cas true d a b)) ∧
  (∀ d a b, Runs (.atom64Incw d a b) (atomForm .incw true d a b) (atomEffect .incw true d a b)) ∧
  (∀ d a b, Runs (.atom64Decw d a b) (atomForm .decw true d a b) (atomEffect .decw true d a b)) ∧
  (∀ d a b, Runs (.atom64FaddD d a b) (atomForm .fadd true d a b) (atomEffect .fadd true d a b)) ∧
  (∀ d a b, Runs (.atom64FminD d a b) (atomForm .fmin true d a b) (atomEffect .fmin true d a b)) ∧
  (∀ d a b, Runs (.atom64FmaxD d a b) (atomForm .fmax true d a b) (atomEffect .fmax true d a b))

/-- Reductions (06 R177, 17 R385): each lane adds its contribution in ascending order, as a request
where the page is a peer's or the host's (20 R426). That it is made in the issuing step is the
model's choice (DESIGN CHOICE log 4). Operations with a lane that faults or waits for a link (log 12)
are left out. -/
def Obligations.ReductionCompletes : Prop :=
  (∀ a b, Runs (.redAdd a b) (redForm 0 a b) (redEffect 0 a b)) ∧
  (∀ a b, Runs (.redAnd a b) (redForm 1 a b) (redEffect 1 a b)) ∧
  (∀ a b, Runs (.redOr a b) (redForm 2 a b) (redEffect 2 a b)) ∧
  (∀ a b, Runs (.redXor a b) (redForm 3 a b) (redEffect 3 a b)) ∧
  (∀ a b, Runs (.redMinI32 a b) (redForm 4 a b) (redEffect 4 a b)) ∧
  (∀ a b, Runs (.redMaxI32 a b) (redForm 5 a b) (redEffect 5 a b)) ∧
  (∀ a b, Runs (.redMinN32 a b) (redForm 6 a b) (redEffect 6 a b)) ∧
  (∀ a b, Runs (.redMaxN32 a b) (redForm 7 a b) (redEffect 7 a b)) ∧
  (∀ a b, Runs (.redFaddS a b) (redForm 12 a b) (redEffect 12 a b)) ∧
  (∀ a b, Runs (.redFminS a b) (redForm 13 a b) (redEffect 13 a b)) ∧
  (∀ a b, Runs (.redFmaxS a b) (redForm 14 a b) (redEffect 14 a b)) ∧
  (∀ a b, Runs (.redFaddH2 a b) (redForm 15 a b) (redEffect 15 a b)) ∧
  (∀ a b, Runs (.redFaddB2 a b) (redForm 16 a b) (redEffect 16 a b)) ∧
  (∀ a b, Runs (.redAdd64 a b) (redForm 20 a b) (redEffect 20 a b)) ∧
  (∀ a b, Runs (.redFaddD a b) (redForm 21 a b) (redEffect 21 a b))

/-- Transactions (R191 to R194): a lane outside one enters it, and one inside aborts with NEST; the lanes of TEND that hold one abort with
CONFLICT_INTRA where they clash with a lower lane that commits, and else commit, one after another (DESIGN CHOICE log 42); a read-set word
whose value at home has changed aborts with CONFLICT_VALIDATE, and a write set of which a page no longer translates with FAULT (DESIGN CHOICE log
80), and neither has released anything; a lane inside one aborts by TABORT. Loads and stores of a transaction abort
it with ATTRIBUTE on WO and IP pages and in the scratch aperture, and with CAPACITY beyond the limits of its sets, or beyond a link (DEDUCED
log 14); an instruction that no transaction may execute, and the 4,097th (the count of log 42), abort with CAPACITY; a fault aborts with
FAULT and is not delivered (DESIGN CHOICE log 49 for those that R192 names otherwise). -/
def Obligations.TransactionCompletes : Prop :=
  (∀ d a, Runs (.tbegin d a) ({ memForm [(a, 2)] (some (d, 1)) .table with foehn := false }) (each fun i s l =>
      some (if (s.threadOf i l).txn.isSome then (s, .only l (.abort 4))
        else if i.view.pair a l % 4 ≠ 0 then (s, .fault l cMisaligned (i.view.pair a l))
        else (s.setTxn i l { handler := BitVec.ofNat 64 (i.view.pair a l), dst := d, reads := [], writes := [], lines := [], count := 0 },
          .write l [0])))) ∧
  (Runs .tend ({ memForm [] none .table with foehn := false }) (fun i s =>
      let held := i.lanes.filterMap fun l => (s.threadOf i l).txn.map fun x => (l, x)
      let c := commits i (intra [] held).1 s
      some (c.1, i.lanes.map fun l =>
        .only l (if (intra [] held).2.contains l then .abort 1 else ((c.2.find? fun x => x.1 == l).map (·.2)).getD .next)))) ∧
  (∀ (s : State) i va w r s1 pa s2 b, s.txnPa i va = (s1, some pa) → s1.homeRead (s1.asidOf i.team.ctx) va pa 4 true = (s2, .ok b) →
    s.validate i ((va, w) :: r) = if BitVec.ofNat 32 (natOf b) = w then s2.validate i r else (s2, some 2)) ∧
  (∀ (s s0 s1 : State) i l x c, (x.reads.map (·.1) ++ x.writes.map (·.1)).any (s.txnWaits i) = false → s.lockable i x.writes = (s0, true) →
    (s0.relDev i.op.team i.op.grp l).validate i x.reads = (s1, some c) →
    s.commitLane i l x = ((s0.validate i x.reads).1, .abort c)) ∧
  (∀ (s s0 : State) i l x, (x.reads.map (·.1) ++ x.writes.map (·.1)).any (s.txnWaits i) = false → s.lockable i x.writes = (s0, false) →
    s.commitLane i l x = ((s0.validate i x.reads).1, .abort 5)) ∧
  (∀ pol w d a b, Runs (.st pol w d a b) (memForm [(a, 2), (b, 1), (d, widthRegs w.toNat)] none .table)
    (among (txnStoreStops w d a pol (indexed w a b)) (storeAt pol w d a (indexed w a b)))) ∧
  (∀ w d a off, Runs (.sti w d a off) (memForm [(a, 2), (d, widthRegs w.toNat)] none .table)
    (among (txnStoreStops w d a 0 (displaced w a off)) (storeAt 0 w d a (displaced w a off)))) ∧
  (∀ pol w d a b, Runs (.ld pol w d a b) (memForm [(a, 2), (b, 1)] (some (d, widthRegs w.toNat)) .g)
    (loadsAmong d w (txnLoadStops w a pol (indexed w a b)) (loadAt pol w a (indexed w a b)))) ∧
  (∀ w d a off, Runs (.ldi w d a off) (memForm [(a, 2)] (some (d, widthRegs w.toNat)) .g)
    (loadsAmong d w (txnLoadStops w a 0 (displaced w a off)) (loadAt 0 w a (displaced w a off)))) ∧
  (∀ s op t g f body, Turn s op t g → (if t.onFoehn then f.foehn else f.main) = true → (f.priv = true → op.sys = true) →
    (op.sys = true ∨ f.roles g.role = true) → f.laneOp = false →
    (∀ l ∈ lanesOf op.lanes, g.inTxn l = true ∧ (f.txn = false ∨ g.txnFull l = true)) →
    issue f body s = .next (s.finish op ((lanesOf op.lanes).map fun l => .only l (.abort 3)))) ∧
  (∀ s op t g (e : Nat → LaneEnd), Turn s op t g → t.kind ≠ .call →
    (∀ l ∈ lanesOf op.lanes, g.inTxn l = true ∧ (e l).isFault = true) →
    s.finish op ((lanesOf op.lanes).map fun l => .only l (e l)) = s.finish op ((lanesOf op.lanes).map fun l => .only l (.abort 5))) ∧
  (∀ b, Runs (.tabort b) ({ memForm [(b, 1)] none .table with foehn := false }) (still (fun _ _ => true) fun i l =>
      if (i.thread l).txn.isSome then .only l (.abort (7 + 256 * ((i.view.reg b l).toNat % 256))) else .only l .next)) ∧
  (∀ d, Runs (.tstat d) ({ memForm [] (some (d, 1)) .same with foehn := false }) (still (fun _ _ => true) fun i l =>
      .write l [if (i.thread l).txn.isSome then 1 else 0]))

/-- Barriers and rings (06 R178 to R187). BWAIT on an object whose phase has moved and that records a fault of a copy, a command or an MSEQ traps with
its cause (R183); RINGF and RINGE on a slot in another state answer 1 and change nothing (R187). -/
def Obligations.BarrierCompletes : Prop :=
  (∀ d a b, Runs (.binit d a b) (mainForm [(a, 2), (b, 1), (d, 1)] none .g) (onObject a (initAt d b))) ∧
  (∀ d a b, Runs (.arrive d a b) ({ Form.plain [(a, 2), (b, 1)] (some (d, 1)) .g with txn := false }) (each (arriveAt a b))) ∧
  (∀ d a b, Runs (.arriveb d a b) (mainForm [(a, 2), (b, 1)] (some (d, 1)) .g)
    (onObject a fun i s l va p => stepAt true true (.arriveBytes (i.view.reg b l)) i s l va p)) ∧
  (∀ a b, Runs (.expect a b) (mainForm [(a, 2), (b, 1)] none .g)
    (onObject a fun i s l va p => stepAt false false (.expect (i.view.reg b l)) i s l va p)) ∧
  (∀ d a b, Runs (.bwait d a b) (mainForm [(a, 2), (b, 1)] (some (d, 1)) .g) (onObject a (waitAt b))) ∧
  (∀ d a b, Runs (.btest d a b) (mainForm [(a, 2), (b, 1)] (some (d, 1)) .g) (onObject a (testAt b))) ∧
  (Runs .gsync (mainForm [] none .g) (syncPoint .gsync false)) ∧
  (Runs .tsync (mainForm [] none .g) (syncPoint .tsync true)) ∧
  (∀ d id, Runs (.ringa d id) ({ mainForm [] (some (d, 1)) .g with laneOp := true }) (onRing id fun _ r =>
      if r.slot r.pi = 0 then some (some ({ r.set r.pi 1 with pi := (r.pi + 1) % r.depth }, r.word r.pi, fun s _ _ _ => s)) else none)) ∧
  (∀ d a id, Runs (.ringf d a id) ({ mainForm [(a, 1)] (some (d, 1)) .g with laneOp := true }) (onRing id fun i r =>
      let k := (i.view.reg a (i.lanes.headD 0)).toNat % 256
      some (if r.slot k = 1 then some (r.set k 2, 0, fun s t g ls => s.relLanes t g ls) else none))) ∧
  (∀ d id, Runs (.ringw d id) ({ mainForm [] (some (d, 1)) .g with laneOp := true }) (onRing id fun _ r =>
      if r.slot r.ci = 2 then
        some (some ({ r.set r.ci 3 with ci := (r.ci + 1) % r.depth }, r.word r.ci, fun s t g _ => s.acquireTeam t g))
      else none)) ∧
  (∀ d a id, Runs (.ringe d a id) ({ mainForm [(a, 1)] (some (d, 1)) .g with laneOp := true }) (onRing id fun i r =>
      let k := (i.view.reg a (i.lanes.headD 0)).toNat % 256
      some (if r.slot k = 3 then
          some ({ r.set k 0 with phases := Nat.xor r.phases (2 ^ k) % 256 }, 0, fun s t g ls => s.relLanes t g ls)
        else none)))

/-- Fences (R188 to R190). A release whose loads have not landed waits, and one at SYS scope whose links have not acknowledged does: that is no
completion. -/
def Obligations.FenceCompletes : Prop :=
  (∀ scope, Runs (.fenceAcq scope) (mainForm [] none .g) (each fun i s l => some (s.fenceAcq i scope.toNat, .only l .next))) ∧
  (∀ scope, Runs (.fenceRel scope) (mainForm [] none .g) (each fun i s l => fenceReleased scope i s l fun s1 => s1)) ∧
  (∀ scope, Runs (.fenceAr scope) (mainForm [] none .g)
    (each fun i s l => fenceReleased scope i s l fun s1 => s1.fenceAcq i scope.toNat)) ∧
  (∀ scope, Runs (.fenceSc scope) (mainForm [] none .g)
    (each fun i s l => fenceReleased scope i s l fun s1 => s1.fenceAcq i scope.toNat)) ∧
  (Runs .fenceAcqDevPromote (mainForm [] none .g) (each fun i s l =>
      some ((s.promote i.team.ctx).acquireDev i.op.team i.op.grp, .only l .next)))

/-- Cache maintenance on [pair a, pair a + b) in the executing core, or its cluster under .fusel1
(R195 to R197). That the work is done in the issuing step (DESIGN CHOICE log 4) and that PREF moves
no line (DESIGN CHOICE log 29) are the model's choices. -/
def Obligations.MaintenanceCompletes : Prop :=
  (∀ a b, Runs (.cwb a b) (rangeForm a b) (onRange a b fun i s lo n => eachL1 i s fun st c asid =>
      st.l1Write c (fun w => w.asid == asid && inRange w.va lo n) false)) ∧
  (∀ a b, Runs (.cwbi a b) (rangeForm a b) (onRange a b fun i s lo n => eachL1 i s fun st c asid =>
      st.l1Write c (fun w => w.asid == asid && inRange w.va lo n) true)) ∧
  (∀ a b, Runs (.cinv a b) (rangeForm a b) (onRange a b fun i s lo n => eachL1 i s fun st c asid =>
      st.modCore c fun k => { k with l1 := k.l1.filter fun w => !(w.asid == asid && inRange w.va lo n) })) ∧
  (∀ a b, Runs (.iinv a b) (rangeForm a b) (onRange a b fun i s lo n =>
      ({ s with cores := s.cores.map (Core.dropCode (s.asidOf i.team.ctx) lo n) } : State))) ∧
  (∀ a b, Runs (.pref a b) (rangeForm a b) (onRange a b fun _ s _ _ => s)) ∧
  (Runs .fetchb ({ Form.plain [] none .table with foehn := false, roles := rolesMemory, txn := false })
    (turn (fun _ _ => true) (fun i s => s.onLanes i.op i.lanes fun _ th => { th with fbuf := [] }) fun _ _ l => .only l .next))

/-- Region tokens, once per bundle on the region that the lowest lane's pair a names (R198 to R201).
The order of the tests of RELR and GIVR is the model's choice (DESIGN CHOICE log 52; R199 orders
those of ACQR only). An ACQR that waits is left out. -/
def Obligations.TokenCompletes : Prop :=
  (∀ d a b, Runs (.acqr d a b) (tokenForm d a [(b, 1)]) (onRegion a fun i s k e =>
      if i.lanes.any fun l => (s.threadOf i l).wait == some (.acqr k) then none
      else if e.attr != attrIP then some (s, 5)
      else if (s.tokenOf (s.asidOf i.team.ctx) (k * regionSize)).bind (·.holder) == some i.op.team then some (s, 3)
      else if (s.tokens.filter fun t => t.die == tokenDie k e).length ≥ 4096 then some (s, 2)
      else match s.tokenOf (s.asidOf i.team.ctx) (k * regionSize) with
        | none => some ((s.setToken { die := tokenDie k e, asid := s.asidOf i.team.ctx, region := k, holder := some i.op.team,
                                      waiters := [] }).tokenAcquire i.op.team, 0)
        | some _ => if (i.view.reg b (i.lanes.headD 0)).getLsbD 0 then none else some (s, 1))) ∧
  (∀ d a, Runs (.relr d a) (tokenForm d a []) (onRegion a fun i s k e =>
      if e.attr != attrIP then some (s, 5)
      else match s.tokenOf (s.asidOf i.team.ctx) (k * regionSize) with
        | some t => if t.holder == some i.op.team then some ((s.tokenRelease i t).freeToken t, 0) else some (s, 4)
        | none => some (s, 4))) ∧
  (∀ d a, Runs (.qryr d a) (tokenForm d a []) (onRegion a fun i s k _ =>
      match (s.tokenOf (s.asidOf i.team.ctx) (k * regionSize)).bind (·.holder) with
      | some h => some (s, BitVec.ofNat 32 ((if h == i.op.team then 1 else 2) + 256 * (s.team h).index))
      | none => some (s, 0))) ∧
  (∀ d a b, Runs (.givr d a b) (tokenForm d a [(b, 1)]) (onRegion a fun i s k e =>
      if e.attr != attrIP then some (s, 5)
      else match s.tokenOf (s.asidOf i.team.ctx) (k * regionSize) with
        | none => some (s, 4)
        | some t =>
          if t.holder != some i.op.team then some (s, 4)
          else match s.liveTeam i.team.handle (i.view.reg b (i.lanes.headD 0)).toNat with
            | (s1, none) => some (s1, 6)
            | (s1, some dest) =>
              some (((((s1.tokenRelease i t).setToken { t with holder := some dest, waiters := t.waiters.filter (· != dest) }).tokenAcquire
                dest).tokenWake k), 0)))

/-- The waits of QUE: a condition that holds is an acquire and completes; one that does not leaves the
lane waiting at the instruction (07 R224). YIELD's two issues, the first of which makes the thread
the youngest while the second retires it, are the model's choice (DESIGN CHOICE log 45). -/
def Obligations.WaitCompletes : Prop :=
  (∀ cond a b, Runs (.waitw cond a b) (mainForm [(a, 2), (b, 1)] none .table) (onWord a b .word (waitCond cond))) ∧
  (∀ a b, Runs (.waitx a b) (mainForm [(a, 2), (b, 1)] none .table) (onWord a b .wordSys fun x y => x != y)) ∧
  (Runs .yield ({ Form.plain [] none .table with txn := false }) (still (fun _ _ => true) fun i l =>
      .only l (if (i.thread l).wait = some .yield then .next else .wait .yield))) ∧
  (∀ a, Runs (.sleep a) ({ Form.plain [(a, 1)] none .table with txn := false })
    (turn (fun i _ => i.lanes.all fun l => match (i.thread l).wait with
          | some (.sleep _) => false
          | _ => true) (fun _ s => s) fun i s l =>
        .only l (if (i.view.reg a l).toNat = 0 then .next else .wait (.sleep (s.sleepClock i.team + (i.view.reg a l).toNat)))))

/-- A new POOL GROW or SHRINK whose cores' controllers are free, with no request before it, is refused with its code, granted at once (count
0), or begun: its lanes then stand at the instruction until COMMIT answers them. -/
def Obligations.PoolCompletes : Prop :=
  (∀ role d a b, Runs (.poolGrow role d a b) (poolForm d a b) (poolAsked true role d a b)) ∧
  (∀ role d a b, Runs (.poolShrink role d a b) (poolForm d a b) (poolAsked false role d a b)) ∧
  (∀ role d, Runs (.poolQuery role d) ({ Form.plain [] (some (d, 1)) .u with foehn := false, txn := false })
    (turn (fun _ _ => true) (fun _ s => s) fun i s l =>
        let qs := i.team.cores.map fun c => s.queryCore i.op.team c (roleOf role)
        .write l [BitVec.ofNat 32 (roleLimit (roleOf role) * 2 ^ 24 + (qs.map (·.2)).foldl Nat.min 255 * 2 ^ 16 +
          (qs.map (·.1)).foldl Nat.min 255 * 256 + s.held i.op.team (i.team.coreOf i.op.grp) (roleOf role))])) ∧
  (∀ d a, Runs (.poolMap d a) ({ Form.plain [(a, 1)] (some (d, 4)) .table with foehn := false, txn := false })
    (turn (fun _ _ => true) (fun _ s => s) fun i s l =>
        .write l (wordsOf 4 ((s.getCore (i.team.coreOf i.op.grp)).mapQuad i.team.slot ((i.view.reg a l).getLsbD 0))))) ∧
  (∀ d, Runs (.poolStat d) ({ Form.plain [] (some (d, 4)) .table with foehn := false, txn := false })
    (turn (fun _ _ => true) (fun _ s => s) fun i _ l => .write l (wordsOf 4 i.team.stat)))

/-- Tile registers and their storage (05 R143 to R148). -/
def Obligations.TileCompletes : Prop :=
  (∀ d a b, Runs (.tshape d a b) (tForm rolesAll [(a, 1), (b, 1)] none .table) (each fun i s l =>
      let w := i.view.reg a l
      let off := (i.view.reg b l).toNat
      let t : Machine.Tile := { num := d.toNat, shape := w, off := off }
      if shapeOk w && decide (off % 128 = 0) && (s.team i.op.team).mxsIn off (tileBytes w) then
        some ((s.modEng i.op.team fun e => { e with tiles := e.tiles.mapIdx fun j x => if j = d.toNat then some t else x }).clearTileFlags
          i.op.team t, .only l .next)
      else none)) ∧
  (∀ d a b, Runs (.tld d a b) (tForm rolesAll [(a, 1), (b, 1)] none .table) (onTile fun i s l =>
      onNamed s i d fun t =>
        let rows := tileRows t (i.view.reg a l).toNat (i.view.reg b l).toInt
        if moveCheck (s.team i.op.team) (i.view.reg a l) (i.view.reg b l) rows = none ∧ (s.team i.op.team).loadBad rows = none then
          some ((s.tileLoad i.op.team t true [] rows).tileNote i l t) else none)) ∧
  (∀ d a b, Runs (.tldt d a b) (tForm rolesAll [(a, 1), (b, 1)] none .table) (onTile fun i s l =>
      onNamed s i d fun t =>
        let es := elemBits (shapeFmt t.shape) / 8
        let cols := (List.range (shapeCols t.shape)).map fun (c : Nat) =>
          (((i.view.reg a l).toNat : Int) + c * (i.view.reg b l).toInt, shapeRows t.shape * es)
        if shapeFmt t.shape < 6 ∧ moveCheck (s.team i.op.team) (i.view.reg a l) (i.view.reg b l) cols = none ∧
            (s.team i.op.team).loadBad cols = none then
          some (((((cols.mapIdx fun c x => (c, x)).foldl (fun (st : State) (x : Nat × Int × Nat) =>
            let r := st.scrRead i.op.team x.2.1.toNat x.2.2
            (List.range (shapeRows t.shape)).foldl (fun (u : State) (k : Nat) =>
              u.elemWrite i.op.team t true k x.1 (natOf ((r.2.drop (k * es)).take es))) r.1) s).tileRecode i.op.team t).clearTileFlags i.op.team t).tileNote i l t)
        else none)) ∧
  (∀ d a b, Runs (.tst d a b) (tForm rolesAll [(a, 1), (b, 1)] none .table) (onTile fun i s l =>
      onNamed s i d fun t =>
        let rows := tileRows t (i.view.reg a l).toNat (i.view.reg b l).toInt
        if moveCheck (s.team i.op.team) (i.view.reg a l) (i.view.reg b l) rows = none ∧ (s.team i.op.team).readBad t = none then
          some ((rows.mapIdx fun k x => (k, x)).foldl (fun (st : State) (x : Nat × Int × Nat) =>
            let r := st.tileRead i.op.team t true [] (t.off + x.1 * rowSize t.shape) x.2.2
            (r.1.scrWrite i.op.team x.2.1.toNat (rowKept t.shape [0] r.2) false).noteWrite i.op.team i.op.grp l true x.2.1.toNat x.2.2) s)
        else none)) ∧
  (∀ d, Runs (.tzero d) (tForm rolesFloat [] none .table) (onTile fun i s l =>
      onNamed s i d fun t =>
        some ((((List.range (shapeRows t.shape)).foldl (fun (st : State) (k : Nat) =>
          st.rowWrite i.op.team t true k (bytesOf (rowBytes t.shape) 0)) s).clearTileFlags i.op.team t).tileNoteSame i l t))) ∧
  (∀ d a, Runs (.tmov d a) (tForm rolesFloat [] none .table) (onTile fun i s l =>
      onNamed s i d fun td => onNamed s i a fun ta =>
        if td.shape.extractLsb' 0 20 ≠ ta.shape.extractLsb' 0 20 then none
        else if d = a then some s
        else if (s.team i.op.team).readBad ta ≠ none then none
        else
          let r := s.tileRead i.op.team ta true [] ta.off (tileBytes ta.shape)
          let s2 := (List.range (shapeRows ta.shape)).foldl (fun (st : State) (k : Nat) =>
            st.rowWrite i.op.team td true k ((r.2.drop (k * rowSize ta.shape)).take (rowBytes ta.shape))) r.1
          some ((if hasFlags ta.shape then
            (List.range (shapeRows ta.shape)).foldl (fun (st : State) (k : Nat) =>
              (List.range (shapeCols ta.shape)).foldl (fun (u : State) (c : Nat) => u.modPool i.op.team fun p =>
                p.setFlag (td.halfword k c) ((r.1.team i.op.team).pool.flags.contains (ta.halfword k c))) st) s2
            else s2).tileNoteSame i l td)))

/-- TRDR, TWRR and TLSF, lane by lane, where every lane's row segment lies in the tile and its register operand is ready (R149): TRDR packs the
elements the lane reaches, those above COLS as 0; TWRR writes those at or below COLS and clears their flags; TLSF gathers 64 flags. -/
def Obligations.SegmentCompletes : Prop :=
  (∀ d a b, Runs (.trdr d a b) (tForm rolesFloat [] none .g) (onSegment a b (oddPair · d)
      (fun t => tForm rolesFloat [] (some (d, segmentRegs t)) .g) (fun t => some (d, segmentRegs t)) fun i s l t row c0 =>
      let w := laneColumns t c0 l
      let bits := elemBits (shapeFmt t.shape)
      -- no word of the lane's own segment is in error (00 R13)
      let mine := (Nat.min w.2 (shapeCols t.shape - w.1) * bits + 7) / 8
      if mine ≠ 0 ∧ (badWord (s.team i.op.team).pool.mxsErrs (t.off + elemOff t.shape row w.1) mine).isSome = true then none
      else
        let r := s.tileRead i.op.team t true [] (t.off + row * rowSize t.shape) (rowSize t.shape)
        let v := ((List.range w.2).map fun j =>
          if w.1 + j < shapeCols t.shape then elemAt t.shape r.2 0 (w.1 + j) * 2 ^ (bits * j) else 0).sum
        some (r.1, .write l (wordsOf (segmentRegs t) v)))) ∧
  (∀ d a b, Runs (.twrr d a b) (tForm rolesFloat [] none .g) (onSegment d b (oddPair · a)
      (fun t => tForm rolesFloat [(a, segmentRegs t)] none .g) (fun _ => none) fun i s l t row c0 =>
        let w := laneColumns t c0 l
        let bits := elemBits (shapeFmt t.shape)
        let v := natOfWords (i.view.words a (segmentRegs t) l)
        let m := Nat.min w.2 (shapeCols t.shape - w.1)
        let off := t.off + elemOff t.shape row w.1
        let s1 := (List.range m).foldl (fun (st : State) (j : Nat) =>
          let s1 := st.elemWrite i.op.team t true row (w.1 + j) (v / 2 ^ (bits * j) % 2 ^ bits)
          if hasFlags t.shape then s1.modPool i.op.team fun p => p.setFlag (t.halfword row (w.1 + j)) false else s1) s
        some ((s1.modPool i.op.team fun p => { p with mxsErrs := recodeWords p.mxsErrs off (m * bits / 8) }).noteWrite i.op.team i.op.grp l
          false off ((m * bits + 7) / 8), .only l .next))) ∧
  (∀ d a b, Runs (.tlsf d a b) (tForm rolesFloat [] none .g) (onSegment a b (fun _ => false)
      (fun _ => tForm rolesFloat [] (some (d, 2)) .g) (fun _ => some (d, 2)) fun i s l t row c0 =>
      -- no flag that the lane gathers lies in storage that an operation not yet covered names (R157)
      if (List.range 64).any fun j =>
          hasFlags t.shape && decide (c0 + j < shapeCols t.shape) && ((s.team i.op.team).engTouched t).any fun r =>
            decide (r.1 ≤ 2 * (t.off + elemOff t.shape row (c0 + j))) && decide (2 * (t.off + elemOff t.shape row (c0 + j)) < r.2) then none
      else
        let v := ((List.range 64).map fun j =>
          if c0 + j < shapeCols t.shape && hasFlags t.shape &&
            (s.team i.op.team).pool.flags.contains (t.halfword row (c0 + j)) then 2 ^ j else 0).sum
        some (s, .write l (wordsOf 2 v))))

/-- The engine queue: an operation that finds room is entered; MWAIT waits for those at or before its id (R151 to R158). -/
def Obligations.EngineQueueCompletes : Prop :=
  (∀ d, Runs (.tlatch d) (tForm rolesMatrix [] none .table) (onTile fun i s _ =>
      match (s.team i.op.team).tileOf d.toNat with
      | .ok t =>
        if tileBytes t.shape > 32768 || (s.team i.op.team).eng.isFull then none
        else some ((s.engIssue i.op.team (.tlatch t)).modEng i.op.team fun e => { e with latchIssued := some t })
      | .error _ => none)) ∧
  (Runs .mfence (tForm rolesAll [] none .table) (each fun i s l =>
      some (s.fenceWrites i.op.team i.op.grp l, .only l .next))) ∧
  (∀ b, Runs (.mwait b) (tForm rolesAll [(b, 1)] none .table) (fun i s =>
      -- nothing issued at or before the id is still queued or has left a fault
      let e := (s.team i.op.team).eng
      let id (l : Nat) : Word := match b.toNat, (i.thread l).wait with
        | 127, some (.mwait x) => x
        | 127, _ => e.last
        | _, _ => i.view.reg b l
      let issued (x : Word) : Bool := e.issuedAny && x != 0 && e.behind x != 0 && decide (e.behind x ≤ 2 ^ 31)
      if i.lanes.all fun l => !issued (id l) || (!(e.queue.any fun o => upTo (id l) o.id) && !(e.faults.any fun f => upTo (id l) f.id)) then
        let ids := (i.lanes.filter fun l => issued (id l)).map id
        some (s.modEng i.op.team fun e => { e with covered := e.covered.filter (fun o => !ids.any fun x => upTo x o.id),
                                                   faults := e.faults.filter fun f => !ids.any fun x => upTo x f.id },
          i.lanes.map fun l => .only l .next)
      else none)) ∧
  (∀ d a, Runs (.mcw d a) (tForm rolesMatrix [(a, 1)] (some (d, 1)) .same) (each fun i s l =>
      let v := i.view.reg a l
      if v.toNat < 128 ∧ v.extractLsb' 0 3 ≠ 7 ∧ v.extractLsb' 3 3 ≠ 7 then
        some (s.modEng i.op.team fun e => { e with mcr := v }, .write l [(s.team i.op.team).eng.mcr])
      else none)) ∧
  (∀ d k, Runs (.mcrd d k) (tForm rolesAll [] (some (d, 1)) .table)
    (turn (fun _ _ => true) (fun i s => if k = 2 then s.modEng i.op.team fun e => { e with mfx := 0 } else s) fun i s l =>
        .write l [match k.toNat with
          | 0 => (s.team i.op.team).eng.mcr
          | 1 => (s.team i.op.team).eng.mfx
          | 2 => (s.team i.op.team).eng.mfx
          | 3 => (s.team i.op.team).eng.last
          | _ => (s.team i.op.team).eng.egen])) ∧
  (∀ lat acc d a b, Runs (.mmaWin lat acc d a b) (tForm rolesMatrix [] none .table) (multiply false lat acc d a b)) ∧
  (∀ lat acc d a b, Runs (.mmaSeq lat acc d a b) (tForm rolesMatrix [] none .table) (multiply true lat acc d a b)) ∧
  (∀ d a, Runs (.mseq d a) (tForm rolesMatrix [(a, 1)] (some (d, 1)) .g) (each (mseqAt a)))

/-- A command whose block passes the checks of R206 and whose pages and barrier are there: queued with the next id of the team, or
held with bit 31 of the handle set. -/
def Obligations.CommandCompletes : Prop :=
  (∀ d a, Runs (.engCpy d a) (engForm false [(a, 1)] (some (d, 1))) (each (submitCommand 0 a))) ∧
  (∀ d a, Runs (.engBin d a) (engForm false [(a, 1)] (some (d, 1))) (each (submitCommand 1 a))) ∧
  (∀ d a, Runs (.engMig d a) (engForm true [(a, 1)] (some (d, 1))) (each (submitCommand 2 a))) ∧
  (∀ b, Runs (.ewait b) (engForm false [(b, 1)] none) (turn (fun i _ => i.lanes.all fun l => match (i.thread l).wait with
          | some (.ewait _) => false
          | _ => true) (fun _ s => s) fun i s l =>
        let last := if i.team.cmdCounter = 1 then 0x7fffffff else i.team.cmdCounter - 1
        let key := if b = 127 then 2 ^ 31 + last else (i.view.reg b l).toNat % 2 ^ 31
        .only l (if s.ewaitDue i.op.team (key % 2 ^ 31) (key ≥ 2 ^ 31) then .wait (.ewait key) else .next))) ∧
  (∀ d a, Runs (.estat d a) (engForm false [(a, 1)] (some (d, 1))) (turn (fun _ _ => true) (fun _ s => s) fun i s l =>
      .write l [match s.cmdOf i.op.team ((i.view.reg a l).toNat % 2 ^ 31) with
        | some c => BitVec.ofNat 32 (if c.state = .done then c.cause.toNat * 256 else if c.state = .queued then 1 else 2)
        | none => 0]))

/-- NMCALL and NMWALK of a message that passes the checks of R215: the call's id; NMRET ends the call, or the firmware; FRED is
performed at the slice that holds the line, and otherwise left to the base die (R219). -/
def Obligations.NearMemoryCompletes : Prop :=
  (∀ d a b, Runs (.nmcall d a b) (engForm false [(a, 1), (b, 2)] (some (d, 1))) (each (submitCall false a b))) ∧
  (∀ d a b, Runs (.nmwalk d a b) (engForm false [(a, 1), (b, 2)] (some (d, 1))) (each (submitCall true a b))) ∧
  (∀ a, Runs (.nmret a) ({ Form.plain [(a, 1)] none .table with main := false, txn := false })
    (callReturn a)) ∧
  (∀ op a b, Runs (.fred op a b) (engForm false [(a, 2), (b, if redCodeWide op.toNat then 2 else 1)] none) (each (fredAt op a b)))

/-- Queues and launches (R220 to R223). A queue instruction that finds no queue answers 3; one that finds the queue full or empty
answers 1 or 2, or waits when bit 16 of a asks for it. -/
def Obligations.GraphCompletes : Prop :=
  (∀ d a b, Runs (.qpush d a b) (edgeForm [(a, 1), (b, 1)] d) (onRecord b fun i s l off =>
      if (s.team i.op.team).scrBad off 16 then none
      else match s.queueOf i.team.ctx ((i.view.reg a l).extractLsb' 0 10).toNat with
      | none => some (s, .write l [3])
      | some q =>
        if q.records.length ≥ q.depth then
          some (s, if (i.view.reg a l).getLsbD 16 then .only l (.wait (.queue q.id)) else .write l [1])
        else
          let r := (s.relDev i.op.team i.op.grp l).scrRead i.op.team off 16
          some (r.1.queuePush q r.2, .write l [0]))) ∧
  (∀ d a b, Runs (.qpop d a b) (edgeForm [(a, 1), (b, 1)] d) (onRecord b fun i s l off =>
      match s.queueOf i.team.ctx ((i.view.reg a l).extractLsb' 0 10).toNat with
      | none => some (s, .write l [3])
      | some q => match q.records with
        | [] => some (s, if (i.view.reg a l).getLsbD 16 then .only l (.wait (.queue q.id)) else .write l [2])
        | r :: rest =>
          some (((((s.setQueue { q with records := rest }).queueWake q.ctx q.id).acquireDev i.op.team i.op.grp).scrWrite
            i.op.team off r false).noteWrite i.op.team i.op.grp l true off 16, .write l [0]))) ∧
  (∀ d a, Runs (.qfree d a) (edgeForm [(a, 1)] d) (turn (fun _ _ => true) (fun _ s => s) fun i s l =>
      .write l [match s.queueOf i.team.ctx ((i.view.reg a l).extractLsb' 0 10).toNat with
        | some q => BitVec.ofNat 32 (q.depth * 65536 + (q.depth - q.records.length))
        | none => 0])) ∧
  (∀ d a, Runs (.launch d a) (edgeForm [(a, 1)] d) (each (launchAt a))) ∧
  (∀ d a, Runs (.lrel d a) (edgeForm [(a, 1)] d) (each fun i s l =>
      match s.handleRelease i.op.team (i.view.reg a l).toNat with
      | (s1, some k) => some (s1, .write l [BitVec.ofNat 32 k])
      | _ => none)) ∧
  (∀ d a b, Runs (.lpatch d a b) (edgeForm [(a, 1), (b, 1)] d) (each fun i s l =>
      let r := s.handlePatch i.op.team (i.view.reg a l).toNat (i.view.reg b l).toNat
      some (r.1, .write l [BitVec.ofNat 32 r.2])))

/-- The system instructions (07 R225 to R228). A WRSR of a context's register in firmware, which has no context, completes without an effect (21
R484). -/
def Obligations.SystemCompletes : Prop :=
  (∀ d n, Runs (.rdsr d n) (sysForm (knows n.toNat false false) (knows n.toNat true false) [] (some (d, 2)))
    (turn (fun _ _ => true) (fun _ s => s) fun i s l => .write l (wordsOf 2 (s.sysRead i l n.toNat)))) ∧
  (∀ a n, Runs (.wrsr a n) (sysForm (knows n.toNat false true) (knows n.toNat true true) [(a, 2)] none) (each fun i s l =>
      if i.team.kind == .firmware && ctxRegs.contains n.toNat then none
      else match sysReg n.toNat i.team.onFoehn true with
      | some r => if r.holds (i.view.pair a l) then some (s.sysWrite i l n.toNat (i.view.pair a l), .only l .next) else none
      | none => none)) ∧
  (∀ a (n : BitVec 7), n.toNat ∈ [0, 5, 6, 7, 8, 9] → Runs (.wrsr a n) (sysForm false true [(a, 2)] none) (each fun i s l =>
      if i.team.kind = .firmware then some (s, .only l .next) else none)) ∧
  (∀ a b, Runs (.tlbinv a b) (sysForm true false [(a, 2), (b, 1)] none) (each fun i s l =>
      some (s.tlbInvalidate (s.asidOf i.team.ctx) (i.view.pair a l) (i.view.reg b l).toNat, .only l .next))) ∧
  (∀ a b, Runs (.vpurge a b) (sysForm true false [(a, 2), (b, 1)] none) (each fun i s l =>
      let n := (i.view.reg b l).toNat
      let asid := s.asidOf i.team.ctx
      if s.backWaits fun x va _ => x == asid && lineMeets va (i.view.pair a l) n then none
      else some (if n = 0 then s else ((s.releaseWoRange asid (i.view.pair a l) n).purgeRange asid (i.view.pair a l) n).dropFetch asid,
        .only l .next))) ∧
  (∀ d a b, Runs (.attrchg d a b) (sysForm true false [(a, 2), (b, 1)] (some (d, 1))) (each (attrChange a b))) ∧
  (Runs .tret (sysForm true true [] none)
    (turn (fun i _ => (!i.team.onFoehn || i.team.kind == .firmware) && i.lanes.all fun l => (i.thread l).tpc.extractLsb' 0 2 == 0)
        (fun i s => s.onLanes i.op i.lanes fun _ th => th.trapReturn (i.team.kind == .firmware)) fun i _ l =>
      .only l (.goto (i.thread l).tpc))) ∧
  (Runs .haltc (sysForm true true [] none) (turn (fun _ _ => true) (fun i s =>
      match i.team.kind, i.team.place with
      | .firmware, .foehn st _ => s.endFirmware i.op.team st
      | _, _ => s.modCore (i.team.coreOf i.op.grp) fun c => { c with accepting := false }) fun _ _ l => .only l .exit)) ∧
  (∀ code, Runs (.trap code) ({ Form.plain [] none .table with txn := false }) (still (fun _ _ => true) fun _ l =>
      .only l (.fault cSoftware code.toNat 0))) ∧
  (Runs .brk ({ Form.plain [] none .table with txn := false })
    (still (fun _ _ => true) fun _ l => .only l (.fault cBreakpoint 0 0)))

/-- Work that comes back to a core, and what lines and translations do by themselves (01 R37, 06 R172, 07 R219, R224, 18 R392 to
R402). -/
def Obligations.LandingHappens : Prop :=
  (∀ k lanes, Brings (.evLoadLanding k lanes) fun s => match s.loads[k]? with
    | none => none
    | some d =>
      -- the named lanes land; the load goes when none is left; one into common registers waits for its standing lanes (09 R249)
      if s.loadOpen d then none else
      let rest := d.lanes.filter fun x => !lanes.getLsbD x.lane
      let s1 := s.modTeam d.team fun t => (d.land (d.lanes.filter fun x => lanes.getLsbD x.lane) t).feed s.tick
      some { s1 with loads := if rest.isEmpty then s1.loads.eraseIdx k else modAt (fun (x : Load) => { x with lanes := rest }) s1.loads k }) ∧
  (∀ tm g l, Brings (.evSleepExpiry tm g l) fun s => match s.teams[tm]? with
    | none => none
    | some t => match (t.groups[g]?).bind (·.threads[l]?) with
      | none => none
      | some th =>
        let due := match th.wait with
          | some (.sleep d) => decide (d ≤ s.sleepClock t)
          | _ => t.watched
        if !due then none
        else if t.watched then some (s.modTeam tm Team.queue)
        else if t.issues && th.eligible then
          some ((s.modThread tm g l fun x => { x.moveTo (x.pc + 4) with fbuf := x.fbuf, age := if x.stirred then x.age else s.tick }).modGroup
            tm g (Machine.Group.release s.tick))
        else none) ∧
  (∀ k n, Brings (.evAcpPartLanding k n) fun s => match s.copies[k]? with
    | none => none
    | some c =>
      if s.objectWaits c.barrier c.barPa || c.link || (c.toScr && s.relocating c.team) || (!c.toScr && !c.performed && s.changingPa c.pa) then none
      else some (match c.bad with
        | some cause => s.partBad k c cause
        | none => s.partGood k n c)) ∧
  (∀ k, Brings (.evFredInMemory k) fun s => match s.mem.freds[k]? with
    | none => none
    | some f => if s.channelBusy true f.pa then none else some ((s.setMem { s.mem with freds := s.mem.freds.eraseIdx k }).fredPerform f)) ∧
  (∀ pa, Brings (.evSliceAccess (.evict pa)) fun s =>
    if s.backWaits fun _ _ a => lineOf a == lineOf pa then none else some (s.l2EvictAll fun w => lineOf w.pa == lineOf pa)) ∧
  (∀ pa, Brings (.evSliceAccess (.recall pa)) fun s => if s.physWaits true pa 1 then none else some (s.dirEvict pa)) ∧
  (∀ ctx va, Brings (.evSliceAccess (.fill ctx va)) fun s => some (s.sliceFill ctx va)) ∧
  (∀ ctx va, Brings (.evSliceAccess (.combine ctx va)) fun s => match s.translate ctx va with
    | (s1, .ok e) => if s1.physWaits true (e.pa va) 1 then none else some (s1.combineLine (e.pa va))
    | _ => none) ∧
  (∀ stack ch pc bank row, Brings (.evSliceAccess (.activate stack ch pc bank row)) fun s => some (s.modStack stack fun k => k.activate ch pc bank row)) ∧
  (∀ core asid va, Brings (.evL1Eviction core asid va) fun s =>
    some ((s.l1Write core (fun w => w.asid == asid && lineOf w.va == lineOf va) true).sendUpdates core fun u =>
      u.asid == asid && lineOf u.va == lineOf va)) ∧
  (∀ core ctx va, Brings (.evAlbFill core ctx va) fun s => some (s.albLookup core ctx va).1) ∧
  (∀ ctx va, Brings (.evPageWalk ctx va) fun s => some (s.translate ctx va).1)

/-- Fault records and the control node's replies (10 R281, R282, R485). -/
def Obligations.FaultReplyHappens : Prop :=
  (∀ ctx, Brings (.evFaultRecordWrite ctx) fun s => match s.ctxOf ctx with
    | none => none
    | some c => match c.held with
      | [] => none
      | r :: rest =>
        if c.fqWritten ≥ c.fqConsumed + c.fqCap ∨ s.unitWaits ctx true (c.fqBase + 64 * (c.fqWritten % c.fqCap)) 64 = true then none
        else
          let w := s.recordWrite ctx c.fqWritten (c.fqBase + 64 * (c.fqWritten % c.fqCap)) r.bytes
          -- a record on its way over a link is not written yet
          some (if w.2 then (w.1.modCtx ctx fun x => { x with held := rest, fqWritten := c.fqWritten + 1 }).hol 0x20 ctx [c.fqWritten] []
            else w.1)) ∧
  (∀ ctx src seq consumed, Brings (.evFaultReplyResume ctx src seq consumed) fun s => some (s.reply ctx src seq consumed fun st tm g ls =>
      st.modGroup tm g fun gr => gr.modLanes ls fun _ th => th.resume)) ∧
  (∀ ctx src seq consumed, Brings (.evFaultReplyDeliver ctx src seq consumed) fun s => some (s.reply ctx src seq consumed State.deliver)) ∧
  (∀ ctx src seq consumed, Brings (.evFaultReplyExit ctx src seq consumed) fun s => some (s.reply ctx src seq consumed State.exitLanes)) ∧
  (∀ ctx consumed, Brings (.evFaultReplyAck ctx consumed) fun s => some (s.modCtx ctx fun c => { c with fqConsumed := Nat.max c.fqConsumed consumed }))

/-- Launches, placement, teams, contexts, queues and the watchdog (10 R258 to R283, 13 R309, R317). The model's choices among them: what a held
command does when its team ends, and that the WO stores of exited threads are written at the end of the launch (dropHeld and completeRelease,
DESIGN CHOICE log 40), and that a team stays while such a command is on its scratch (overNow, DEDUCED log 63); which of the cores that fit is
taken, in State.choose (DESIGN CHOICE log 57), and the compaction it makes there (log 43); the place and the free bytes of a save record, the
code that fails over a line in error, and what a restore makes of a changed record or of a line that cannot be corrected (log 23); where the
plane of a pair team stands (DEDUCED log 58); the order in which a launch waits with those after it, and the number 2 of the occupancy report
(DESIGN CHOICE log 22). -/
def Obligations.LaunchHappens : Prop :=
  (∀ ctx packet args, Brings (.evHolLaunch ctx packet args) fun s =>
    if !s.plat.holUp then none
    else if !s.ready then some (s.hol 0x02 ctx [0xff] [])
    else if s.plat.inbox.isEmpty then
      -- a message whose kernel record has not come waits in the inbox (R259, R261)
      match s.submit ctx none packet args with
      | (s1, some (code, h)) =>
        some (({ s1.hol 0x02 ctx (if code = 0 then [0, h] else [code]) [] with
          plat := { (s1.hol 0x02 ctx (if code = 0 then [0, h] else [code]) []).plat with inbox := [] } } : State))
      | (s1, none) => some { s1 with plat := { s1.plat with inbox := [⟨ctx, none, packet, args⟩] } }
    else some (s.takeLaunches (s.plat.inbox ++ [⟨ctx, none, packet, args⟩]))) ∧
  (∀ handle, Brings (.evInputQueuePop handle) fun s => match s.launches.find? fun l => l.handle == handle with
    | none => none
    | some l =>
      if l.held || l.inq = 0xffff || l.input.isSome then none
      else match s.queueOf l.ctx l.inq with
        | none => none
        | some q => match q.records with
          | [] => none
          | r :: rest => some ((((s.setQueue { q with records := rest }).queueWake q.ctx q.id).modLaunch l.ctx handle fun x =>
              { x with input := some r }).signal l.ctx)) ∧
  (Brings .evPlaceTeam fun s => match s.choose 8 with
    | .fresh s1 l core => s1.placeFresh l core
    | .refuse l => some (s.placeRefused l)
    | .save vs => some (s.preempt vs)
    | .compacted s1 => some s1
    | _ => none) ∧
  (∀ tm, Brings (.evTeamEnd tm) fun s =>
    let t := s.team tm
    if t.kind != .team || t.cores.isEmpty || !s.overNow tm then none
    else if !s.leaveTurn tm then some (s.queueLeave tm)
    else
      let s2 := ((s.endTokens tm).dropHeld tm).freeBanks tm fun t => { t with place := .ended, leaving := none }
      let s3 : State := { s2 with loads := s2.loads.filter fun d => d.team != tm, landed := s2.landed.filter fun x => x.copy.team != tm }
      let s4 := ((s3.saveFree t.ctx t.spillAt).modLaunch t.ctx t.handle fun l => { l with ended := l.ended + 1, finished := s.tick }).signal t.ctx
      some (if t.leaving == some .watchdog then s4.watchdogPost t.ctx else s4)) ∧
  (∀ handle, Brings (.evLaunchComplete handle) fun s => match s.launches.find? fun l => l.handle == handle with
    | none => none
    | some l =>
      if l.held || l.ended < l.total || s.launchBehind l || (s.completeRelease l).linksDue l.ctx || (s.completeRelease l).outputFull l then none
      else
        let s0 := s.completeRelease l
        -- the output record, where the launch has an output queue (R262)
        let s1 := match (if l.outq = 0xffff then none else s0.queueOf l.ctx l.outq) with
          | some q => (s0.queuePush q (bytesOf 4 l.handle ++ bytesOf 4 l.total ++ bytesOf 8 0)).signal l.ctx
          | none => s0
        let old (t : Team) : Team := if t.kind == .team && t.handle == handle then { t with handle := 0 } else t
        let s3 : State := { s1 with launches := s1.launches.filter fun x => x.handle != handle, teams := s1.teams.map old }
        some (if l.viaHol then s3.hol 0x03 l.ctx [l.handle, l.total] [] else s3)) ∧
  (∀ tm, Brings (.evWaitSwapTimeout tm) fun s =>
    if s.swapDue (s.team tm) then
      some (s.beginSave tm (.swap ((s.team tm).groups.any fun g => g.threads.any fun th => th.wait == some .poolShrink)))
    else none) ∧
  (∀ tm, Brings (.evTeamSave tm) fun s =>
    let t0 := s.team tm
    if t0.cores.isEmpty || t0.leaving.isNone || t0.leaving == some .stopped || t0.leaving == some .watchdog || !s.quiet tm then none
    else if !s.leaveTurn tm then some (s.queueLeave tm)
    else
      let s1 := ((s.abortAll tm).withdraw tm).saveCaches tm
      let t := (s1.team tm).savedNow s1.clock
      let r := s1.freeBytes (64 * t.eng.queue.length)
      let b := t.recordBytes halfScr halfMxs ++ r.1
      match r.2.saveAlloc t.ctx (up64 b.length + r.2.owed tm) with
      | none => none
      | some (s3, addr) =>
        if s3.unitWaits t.ctx true addr b.length || s3.unitWaits t.ctx true t.spillAt t.planeLen then none
        else
          -- a line that holds a word in error is stored with a code that fails (00 R13, DESIGN CHOICE log 23)
          let s4 := t.failing.foldl (fun (st : State) (o : Nat) => st.failLine t.ctx (addr + o))
            (s3.unitWrite t.ctx (pagePieces addr b.length) b)
          some ((s4.savePlane tm).freeBanks tm fun t => { t.savedNow s1.clock with recordAt := addr, saved := b })) ∧
  (∀ tm, Brings (.evPriorityAgeing tm) fun s => some (s.modTeam tm fun t => { t with curPrio := s.priority t })) ∧
  (∀ tm, Brings (.evTeamRestore tm) fun s => match s.choose 8 with
    | .back s1 k core =>
      if k ≠ tm then none
      else
        let t := s1.team tm
        -- the record and the plane have come (10 R274), over a link too (17 R388)
        if (s.fetchSaved tm).2.1.contains .pending || (s.fetchSaved tm).2.2.contains .pending then none
        else
          let r := s1.fetchSaved tm
          let s3 := r.1.recall tm r.2.1
          let slot := s3.freeSlot (t.asks.cores core)
          let s4 := (s3.grantBanks t.asks core slot).saveFree t.ctx t.recordAt
          let s5 := s4.modTeam tm fun x => x.back core slot s4.clock s4.tick (((s4.ctxOf t.ctx).map (·.tswap)).getD 42000) (s.priority t)
          let s6 := (List.range t.groups.length).foldl (fun (st : State) (g : Nat) => st.acquireDev tm g) s5
          some ((((((s6.restorePlane tm r.2.2).woFrames tm).performArrivals tm).releaseAll tm).signal t.ctx).mapChanged (t.asks.cores core))
    | _ => none) ∧
  -- a record as the save left it brings the team back as it was saved
  (∀ (s : State) tm, (s.team tm).saved ≠ [] → (s.team tm).failing = [] →
    s.recall tm ((piecesOf (s.team tm).recordAt (s.team tm).saved.length).map fun p =>
      .answered (((s.team tm).saved.drop (p.1 - (s.team tm).recordAt)).take p.2)) =
    { s with links := s.links.filter fun r => !(match r.owner with
      | .saved x _ => x == tm
      | _ => false) }) ∧
  (∀ ctx, Brings (.evWatchdogExpiry ctx) fun s => match s.ctxOf ctx with
    | none => none
    | some c =>
      if !s.watchdogDue c then none
      else
        let stops (t : Team) : Bool := t.ctx == ctx && t.kind == .team && !t.cores.isEmpty
        some (((List.range s.teams.length).foldl (fun (st : State) (k : Nat) => if stops (s.team k) then st.beginSave k .watchdog else st) s).modCtx
          ctx fun x => { x with stopped := true })) ∧
  (∀ ctx, Brings (.evContinue ctx) fun s =>
    if !s.plat.holUp then none
    else
      -- a save that the watchdog had queued does not happen any more (13 R309)
      let stopped := (List.range s.teams.length).filter fun k => (s.team k).ctx == ctx && (s.team k).leaving == some .watchdog
      some (((stopped.foldl State.unqueueLeave { s with teams := s.teams.map fun t => if t.ctx == ctx then t.continue else t }).modCtx ctx fun c =>
        { c with stopped := false }).signal ctx)) ∧
  (∀ ctx, Brings (.evKill ctx) fun s =>
    if !s.plat.holUp then none
    else
      let s1 := (List.range s.teams.length).foldl (fun (st : State) (tm : Nat) =>
        if (s.team tm).ctx == ctx && (s.team tm).kind == .team && (s.team tm).place != .ended then st.killTeam tm else st) s
      some ((({ s1 with launches := s1.launches.filter fun l => l.ctx != ctx } : State).modCtx ctx fun c =>
        { c with stopped := false }).signal ctx)) ∧
  (∀ ctx asid fqBase fqCap saveBase saveSize, Brings (.evContextCreate ctx asid fqBase fqCap saveBase saveSize) fun s =>
    if s.plat.holUp && (s.ctxOf ctx).isNone && decide (ctx < 65536) && decide (asid < 4096) && fqBase % 64 == 0 &&
        decide (64 ≤ fqCap) && decide (fqCap ≤ 65536) then
      some { s with ctxs := s.ctxs ++ [Ctx.create ctx asid fqBase fqCap saveBase saveSize s.clock] }
    else none) ∧
  (∀ ctx id depth, Brings (.evQueueCreate ctx id depth) fun s =>
    if s.plat.holUp && decide (id < 1024) && decide (1 ≤ depth) && decide (depth ≤ 65535) && !s.queues.any (·.id == id) then
      some { s with queues := s.queues ++ [{ id := id, ctx := ctx, depth := depth, records := [] }] }
    else none) ∧
  (∀ id, Brings (.evQueueDestroy id) fun s => if s.plat.holUp then some { s with queues := s.queues.filter fun q => q.id != id } else none) ∧
  (∀ core, Brings (.evCoreReenable core) fun s => some (s.modCore core fun c => { c with accepting := true })) ∧
  (∀ core, Brings (.evOccupancyRead core) fun s => if s.plat.holUp then some (s.hol 0x31 0 [2, core, (s.occupancy core).toNat] []) else none)

/-- The phases of a pool request, the engines' work, near-memory calls and walks (13 R304, R310, 15 R352 to R360, 07 R207 to R218, 20 R407 to
R424). The phases of a migration are inferred (DEDUCED log 18). The model's choices: BIN's counts written before its handles are patched
(DESIGN CHOICE log 55), the whole L1 emptied before a cache bank goes (evBankDrain, log 15), the walks that an expiry ends with the call
(walkReads in evCallBudgetExpiry, log 73), its mark on a shard that is BROADCASTING (invalidateShards, log 84), and a walker's record in two
events, between which its all-bank command stands (evWalkRecord, log 46). -/
def Obligations.WorkHappens : Prop :=
  (∀ core, Brings (.evBankDrain core) fun s => match s.reqOf core with
    | some r =>
      -- the whole L1 of each core of the team is emptied (DESIGN CHOICE log 15)
      if r.phase != .drain || r.relocates then none
      else some ((((s.team r.team).cores.foldl (fun (st : State) (c : Nat) => st.drainCore c) s)).setPhase r .commit)
    | none => none) ∧
  (∀ core, Brings (.evBankRelocation core) fun s => match s.reqOf core with
    | some r => match r.phase with
      | .move k =>
        if r.role == .mxs && k == 0 && !(s.team r.team).eng.queue.isEmpty then none
        else some (s.setPhase r (if k + 1 ≥ s.held r.team core r.role then .commit else .move (k + 1)))
      | _ => none
    | none => none) ∧
  (∀ core, Brings (.evShrinkQuiesce core) fun s => match s.reqOf core with
    | some r => if r.phase == .quiesce && !s.releasedEmpty r then some (s.setPhase r .commit) else none
    | none => none) ∧
  (∀ core, Brings (.evPoolCommit core) fun s => match s.reqOf core with
    | some r => if r.phase == .commit then some (s.commitPool r) else none
    | none => none) ∧
  (∀ tm, Brings (.evTlatchPerform tm) fun s0 =>
    let s := (s0.engineHead tm).1
    match (s0.engineHead tm).2 with
    | o :: _ => match o.kind with
      | .tlatch t =>
        if ((s.team tm).tileBad t).isSome then none
        else
          let r := s.tileRead tm t false o.unseenMxs t.off (tileBytes t.shape)
          some ((r.1.modEng tm fun e => { e.retire with latch := some { shape := t.shape, data := memWrite [] 0 r.2 } }).engDone tm)
      | _ => none
    | [] => none) ∧
  (∀ tm, Brings (.evMmaComplete tm) fun s0 =>
    let s := (s0.engineHead tm).1
    match (s0.engineHead tm).2 with
    | o :: _ => match o.kind with
      | .mma seq acc (some a) b d =>
        if ((s.team tm).mmaBad acc a b d).isSome then none
        else some (((s.mmaPerform tm o.mcr seq acc a b d o.unseenMxs o.unseenMxs).modEng tm TeamEng.retire).engDone tm)
      | _ => none
    | [] => none) ∧
  (∀ tm, Brings (.evMseqStep tm) fun s0 =>
    let s := (s0.engineHead tm).1
    match (s0.engineHead tm).2 with
    | o :: r => match o.kind with
      | .mseq blk off a b d k pa =>
        let f (x : Nat) : Nat := blockWord blk x
        let acc := if k = 0 then blockByte blk 7 / 4 % 4 else 0
        let rows (x : Machine.Tile) (o : Nat) : List (Int × Nat) := (List.range (shapeRows x.shape)).map fun (j : Nat) =>
          ((f o : Int) + k * sextInt 32 (f (o + 4)) + j * sextInt 32 (f (o + 8)), rowBytes x.shape)
        -- TLD A, TLD B unless it is latched, MMA
        let ra := s.stepLoad tm a o.unseenScr (rows a 8)
        let rb := match b with
          | some x => ra.1.stepLoad tm x o.unseenScr (rows x 20)
          | none => (ra.1, none)
        if ra.2.isSome || rb.2.isSome || ((rb.1.team tm).stepFault acc a b d).isSome then none
        else
          let s3 := rb.1.mmaPerform tm o.mcr (blockByte blk 7 % 4 == 1) acc a b d [] (if k = 0 then o.unseenMxs else [])
          some (if k + 1 = f 0 then s3.mseqEnd tm o blk off pa none
            else s3.modEng tm fun e => { e with queue := { o with kind := .mseq blk off a b d (k + 1) pa } :: r })
      | _ => none
    | [] => none) ∧
  (∀ k, Brings (.evCpyExecution k) fun s => match s.cmds[k]? with
    | some c =>
      if c.kind ≠ 0 || c.state != .queued || !s.mayStart k c then none
      else some (if c.cause = 0 ∧ c.pages < blockWord c.block 16 * blockWord c.block 20 then s.cpyPiece c else s.closeCmd c)
    | none => none) ∧
  (∀ k, Brings (.evBinExecution k) fun s => match s.cmds[k]? with
    | some c =>
      if c.kind ≠ 1 || c.state != .queued || !s.mayStart k c then none
      else if c.pages ≠ 0 then some (s.binFinish c)
      else match s.engFetch c (Machine.fieldOf c.block 0 8) (4 * blockWord c.block 8) with
        | (s1, .data b) =>
          let counts := (wordList (blockWord c.block 8) b).foldl countKey (List.replicate (blockWord c.block 12) 0)
          let r := s1.engStore c (piecesOf (Machine.fieldOf c.block 16 8) (4 * counts.length)) (counts.flatMap (bytesOf 4))
          -- a store that cannot be merged ends the command with its cause (22 R459)
          some (r.1.modCmd c.team c.id fun x => { x with pages := 1, started := true, acc := counts, cause := r.2.getD 0 })
        | _ => none
    | none => none) ∧
  (∀ k, Brings (.evMigrationPage k) fun s => match s.cmds[k]? with
    | some c =>
      if c.kind ≠ 2 || c.state != .queued || !s.mayStart k c then none
      else if c.cause ≠ 0 ∨ (c.acc = [] ∧ c.pages ≥ blockWord c.block 8) then some (s.closeCmd c)
      else match s.migPage c with
        | (s1, .ok m) =>
          -- a new page, the lines of one that comes over a link, the acknowledgements of one that goes over one
          if s1.migWaits m then none
          else if c.acc = [] then (if s1.mem.changing.any (s1.migMark c m).meets then none else some (s1.migBegin c m))
          else some (if c.acc = [1] then s1.migLines c m else s1.migAcked c m)
        | _ => none
    | none => none) ∧
  (∀ k, Brings (.evCallStart k) fun s => match s.calls[k]? with
    | some c =>
      if c.state != .submitted then none
      else if c.walk then
        if s.walksAhead k c = (false, 0) then
          some (s.modCall k fun c => { c with state := .running, used := s.foehnClock })
        else none
      else match s.foehnFor c with
        | some core =>
          if s.optimiserWaits c core || s.recordWaits c then none
          else match s.callRecord c with
            | (s1, none) => some (s1.startCall k c core)
            | _ => none
        | none => none
    | none => none) ∧
  (∀ k, Brings (.evCallCompletion k) fun s => match s.calls[k]? with
    | some c =>
      if (c.state != .ended && !s.callExited c) || c.optimiser.isSome || s.objectWaits c.barrier c.barPa ||
          s.backWaits (fun _ _ a => inExtents c.extents true a) then none
      else
        let s1 := (s.callRaces c).endCallTeam c
        let s3 := (({ s1 with calls := s1.calls.eraseIdx k } : State).l2EvictAll fun w => inExtents c.extents true w.pa).unpinAll c.ctx c.pins
        let s4 := if c.status = 0 then s3 else s3.barAgent c.caller c.ctx c.barrier c.barPa (.error 2 c.status)
        some ((s4.barAgent c.caller c.ctx c.barrier c.barPa (.arrive 1)).unpinBarrier c.ctx c.barrier c.barPa)
    | none => none) ∧
  (∀ k, Brings (.evCallBudgetExpiry k) fun s => match s.calls[k]? with
    | some c =>
      -- the walks of walkReads end with a call on their channels (DESIGN CHOICE log 73)
      if c.state != .running || s.foehnClock - c.used < c.budget then none
      else if c.walk then some ((s.refuseCall k 4).endAllBank c.stack)
      else
        let s1 := s.endCall c.team 4
        let hit (x : Call) : Bool := x.walk && x.stack == c.stack && x.state == .running && s.walkReads x c.core
        let s2 : State := { s1 with calls := s1.calls.map fun x => if hit x then { x with state := .ended, status := 4 } else x }
        some (((if s1.calls.any hit then s2.endAllBank c.stack else s2).modStack c.stack fun x => { x with
          computeOff := x.computeOff ++ [(c.core, c.team :: (s1.calls.filter hit).map (·.team))] }).invalidateShards c.stack c.core)
    | none => none) ∧
  (∀ stack pair, Brings (.evChannelComputeResume stack pair) fun s =>
    some (s.modStack stack fun x => { x with computeOff := x.computeOff.filter fun e =>
      !(e.1 == pair && !s.calls.any fun c => e.2.contains c.team) })) ∧
  (∀ stack, Brings (.evWalkRecord stack) fun s =>
    match s.calls.findIdx? fun c => c.walk && c.stack == stack && c.state == .running with
    | none => none
    | some k => match s.calls[k]? with
      | none => none
      | some c =>
        -- the all-bank command of the record begins, and with the event after that it has been performed (DESIGN CHOICE log 46)
        if s.walkWaits c then none
        else if !(s.getStack stack).allBank then some (s.modStack stack fun x => { x with allBank := true })
        else some (match (s.endAllBank stack).walkRecord c with
          | (s1, none) =>
            if c.record + 1 ≥ Machine.fieldOf c.message 0 4 then s1.refuseCall k 0 else s1.modCall k fun c => { c with record := c.record + 1 }
          | (s1, some st) => s1.refuseCall k st))

/-- The links to the host and the pod, and the exchange unit (20 R426 to R441, 23 R473 to R476). The
encodings of requests and barrier steps (DESIGN CHOICE log 12), the order of the exchange unit's
steps (DESIGN CHOICE log 20) and the number 6 of a descriptor status (DESIGN CHOICE log 22) are the
model's choices. -/
def Obligations.LinkHappens : Prop :=
  (∀ peer pa n, Brings (.evLinkReadRequest peer pa n) fun s =>
    if !requestOk pa n then none
    else match s.portSpot pa n with
      | .memory p => some (if s.stalls false p n then s.stallRequest (.evLinkReadRequest peer pa n)
          else (s.portRead p n).1.answer peer (s.portRead p n).2.isNone ((s.portRead p n).2.getD []))
      | _ => none) ∧
  (∀ peer pa data enables, Brings (.evLinkWriteRequest peer pa data enables) fun s =>
    if !requestOk pa data.length || enables.length != data.length then none
    else match s.portSpot pa data.length with
      | .window off => if data.length = 64 ∧ enables.all id = true then some (s.packet peer off data none) else none
      | .memory p => some (if s.stalls true p data.length then s.stallRequest (.evLinkWriteRequest peer pa data enables)
          else (s.portWrite p data enables).1.answer peer (!(s.portWrite p data enables).2) [])
      | .refused => none) ∧
  (∀ peer pa op wide x c, Brings (.evLinkAtomicRequest peer pa op wide x c) fun s =>
    let n := if op ≥ 16 then 16 else if wide then 8 else 4
    if pa % n ≠ 0 ∨ (12 ≤ op ∧ op < 16) ∨ op > 21 then none
    else match s.portSpot pa n with
      | .memory p => some (if s.stalls true p n then s.stallRequest (.evLinkAtomicRequest peer pa op wide x c)
          else if op ≥ 16 then s.portBar peer p (portStep op x.toNat c.toNat) else s.portAtomic peer p op n x.toNat c.toNat)
      | _ => none) ∧
  (∀ peer, Brings (.evLinkRefusedRequest peer) fun s => some (s.answer peer true [])) ∧
  (∀ k data refused, Brings (.evLinkCompletion k data refused) fun s => if s.linkWaits k false [0, 1, 2, 3, 4] then some (s.linkCome k refused data) else none) ∧
  (∀ peer off data, Brings (.evReductionPacket peer off data) fun s => if peer = Config.deviceId then none else some (s.packet peer off data none)) ∧
  (∀ pa n, Brings (.evHostRead pa n) fun s =>
    if !s.plat.holUp || s.boot.step = 1 || s.boot.rejected || n > 4096 then none
    else match s.portSpot pa n with
      | .memory p => some (if s.stalls false p n then s.stallRequest (.evHostRead pa n)
          else (s.portRead p n).1.hol 0x11 0 [(s.portRead p n).2.isNone.toNat] ((s.portRead p n).2.getD []))
      | _ => some (s.hol 0x11 0 [1] [])) ∧
  (∀ pa data, Brings (.evHostWrite pa data) fun s =>
    if !s.plat.holUp || s.boot.step = 1 || s.boot.rejected || data.length > 4096 then none
    else match s.portSpot pa data.length with
      | .memory p => some (if s.stalls true p data.length then s.stallRequest (.evHostWrite pa data)
          else ((s.physWrite p data).1.tableWritten p data.length s).hol 0x13 0 [(s.physWrite p data).2.isSome.toNat] [])
      | _ => some (s.hol 0x13 0 [1] [])) ∧
  (∀ k data, Brings (.evReadData k data) fun s => if s.plat.holUp && s.linkWaits k true [0, 2, 4, 5] then some (s.linkCome k false data) else none) ∧
  (∀ k, Brings (.evWriteAck k) fun s => if s.plat.holUp && s.linkWaits k true [1, 3, 4] then some (s.linkCome k false []) else none) ∧
  (∀ opt base ctx, Brings (.evExchangeTableBase opt base ctx) fun s =>
    if opt then some { s with xchg := { s.xchg with optBase := base } }
    else if base % 65536 = 0 then some { s with xchg := { s.xchg with descBase := some base, descCtx := ctx } } else none) ∧
  (∀ i, Brings (.evDescriptorValidate i) fun s =>
    match (if i < 4096 then s.entryAddr i else none) with
    | none => some (s.hol 0x31 0 [6, i, 1] [])
    | some a =>
      if s.shardWaits i then some (s.stallRequest (.evDescriptorValidate i)) else
      let d := (s.readDescriptor i).2
      let om := (s.readDescriptor i).1.optRead d
      let r := om.1.header d
      match om.2 with
      | none => none
      | some m =>
        let q := r.1.slotsLocal d m
        if d.zero && decide (d.count ≤ 4194288) && q.1.shardLocal d && headerOk r.2 && optimiserOk d m && q.2 then
          -- a valid entry whose shard did not accumulate leaves undefined values in the shard
          let busy := d.valid && !accumulates r.2
          let s3 := q.1.shardStart d r.2
          let s5 := (if busy then s3.shardBlur d else s3).entryValid a
          some (({ s5 with xchg := { s5.xchg with opts := s5.xchg.opts.filter fun e => e.1 != i } } : State).hol 0x31 0 [6, i, 0] [])
        else some (q.1.hol 0x31 0 [6, i, 1] [])) ∧
  (∀ i, Brings (.evExchangeClose i) fun s =>
    let d := (s.readDescriptor i).2
    let r := (s.readDescriptor i).1.header d
    if s.xchg.descBase = none || !d.valid || s.shardWaits i then none
    else if blockByte r.2 20 = 0 ∧ headerAdvanced r.2 = true then some (r.1.setShard d 1)
    else if blockByte r.2 20 = 1 then
      match r.1.gradient d (BitVec.ofNat 32 (blockWord r.2 16)) 0 d.count with
      | (s1, some g) => match s1.optRead d with
        | (s2, some m) => some ((s2.unitWrite s2.xchg.descCtx (pagePieces (msgBase m 1) g.length) g).setShard d 2)
        | (s2, none) => some (s2.setShard d 2)
      | (s1, none) => some ((s1.optRead d).1.setShard d 4)
    else none) ∧
  (∀ i, Brings (.evExchangeOptimise i) fun s =>
    let d := (s.readDescriptor i).2
    let r := (s.readDescriptor i).1.header d
    if s.xchg.descBase = none || !d.valid || s.shardWaits i || blockByte r.2 20 ≠ 2 || (s.optOf i).isSome || s.calls.any (·.optimiser == some i) then none
    else match r.1.optRead d with
      | (s1, none) => some (s1.setOpt i 5)
      | (s1, some m) =>
        let c := callOfMessage false (optimiserMessage m r.2 d i) s1.xchg.descCtx 0 (optimiserId (blockWord r.2 28) i) 0 0
        match s1.acceptCall { c with optimiser := some i } (fun _ _ => false) (fun st => (st, .ok 0)) with
        | (s2, .ok c2) => some (s2.addCall c2)
        | _ => none) ∧
  (∀ i, Brings (.evExchangeBroadcast i) fun s =>
    let d := (s.readDescriptor i).2
    let r := (s.readDescriptor i).1.header d
    if s.xchg.descBase = none || !d.valid || s.shardWaits i then none
    else match s.optOf i with
      | some v =>
        if blockByte r.2 20 = 2 ∧ v = 0 then some (r.1.setShard d 3)
        else if blockByte r.2 20 = 3 then some (r.1.broadcast i d r.2 v)
        else none
      | none => none) ∧
  (∀ i, Brings (.evExchangeErrorPath i) fun s =>
    let d := (s.readDescriptor i).2
    let r := (s.readDescriptor i).1.header d
    if s.xchg.descBase = none || !d.valid || s.shardWaits i then none
    else if blockByte r.2 20 = 4 ∧ headerAdvanced r.2 = true ∧ !s.calls.any (·.optimiser == some i) then some (r.1.errorPath i d r.2 4)
    else match s.optOf i with
      | some v => if blockByte r.2 20 = 2 ∧ v ≠ 0 then some (r.1.errorPath i d r.2 v) else none
      | none => none)

/-- Boot, the channels' registers, refresh, the control node's link and the thermal limits (22 R442 to
R469, 23 R470 to R481). The numbers of the boot steps and of the management payloads, what survives a
reset and what is held while the link is down (DESIGN CHOICE log 22), and what EVPTR and LGCFG do
with a write (DESIGN CHOICE log 46), are the model's choices. -/
def Obligations.DeviceHappens : Prop :=
  (Brings .evDeviceReset fun s => some s.afterReset) ∧
  (∀ kind image, Brings (.evImageWrite kind image) fun s =>
    if s.plat.holUp && imageKinds.contains kind && (s.boot.step == 1 || s.boot.step == 2) then
      some (s.modBoot fun b => { b with step := 2, images := assocSet kind image b.images })
    else none) ∧
  (Brings .evImageCheck fun s =>
    let b := s.boot
    let good := imageKinds.filter fun k => imageAccepted k b.secCounter ((b.image k).getD [])
    if b.step != 2 || !imageKinds.all (fun k => (b.image k).isSome) then none
    else some (s.modBoot fun b => { b with accepted := good,
                                           measurements := good.map (fun k => (k, sha384 (imageBody ((s.boot.image k).getD [])))),
                                           rejected := good.length != 4, step := if good.length = 4 then 4 else 3 })) ∧
  (∀ granule entry, Brings (.evStackMapWrite granule entry) fun s =>
    if s.plat.holUp && decide (granule < 16384) && mapEntryOk granule entry &&
        (s.bootStep == 4 || (s.bootStep == 7 && s.mapEntryUsable entry)) then
      some (s.setMem { s.mem with stackMap := assocSet granule entry s.mem.stackMap })
    else none) ∧
  (∀ stack mib live, Brings (.evLivenessWrite stack mib live) fun s => some (s.setLive stack mib live)) ∧
  (Brings .evFirmwareStart fun s => match s.boot.image 3 with
    | none => none
    | some im =>
      if s.boot.step != 4 then none
      else
        let s1 : State := { s with baseDies := s.baseDies.map (Stack.loadFirmware im) }
        some (({ s1 with teams := s1.teams ++ (List.range 16).map fun i => (Team.ofFirmware im i).age s.tick } : State).modBoot fun b =>
          { b with step := 6, fwClock := s.clock })) ∧
  (Brings .evBootTrainingTimeout fun s =>
    if s.boot.step != 6 || s.clock - s.boot.fwClock < trainingCycles then none
    else
      let out := (List.range 16).filter fun i => !(s.getStack i).halted
      let s1 : State := { s with baseDies := s.baseDies.map fun k => if k.halted then k else Stack.heldReset }
      some (({ s1 with teams := s1.teams.map (Team.endOn out), tests := s1.tests.filter fun t => !out.contains t.stack } : State).modBoot
        fun b => { b with step := 7 })) ∧
  (∀ stack ch, Brings (.evTrainstRead stack ch) fun s =>
    if s.plat.holUp && decide (stack < 16) && decide (ch < 32) then
      some (s.hol 0x31 0 [3, stack, ch, (phyGet (s.getStack stack) ch 0).toNat] []) else none) ∧
  (Brings .evBootReady fun s =>
    if s.bootStep == 7 && s.mapFinal then some ((s.modBoot fun b => { b with step := 9 }).hol 0x31 0 [1] []) else none) ∧
  (∀ stack ch v, Brings (.evPatctlWrite stack ch v) fun s => some (s.phyStore stack ch offPatctl v)) ∧
  (∀ stack ch, Brings (.evPatternTestDone stack ch) fun s => some (s.testDone stack ch).resume) ∧
  (∀ stack ch slot v, Brings (.evRxdlyWrite stack ch slot v) fun s => if slot < 128 then some (s.phyStore stack ch (offRxdly slot) v) else none) ∧
  (∀ stack ch slot v, Brings (.evTxdlyWrite stack ch slot v) fun s => if slot < 128 then some (s.phyStore stack ch (offTxdly slot) v) else none) ∧
  (∀ stack ch g v, Brings (.evLanemapWrite stack ch g v) fun s => if g < 4 then some (s.phyStore stack ch (offLanemap g) v) else none) ∧
  (∀ stack ch v, Brings (.evTrainstWrite stack ch v) fun s => some (s.phyStore stack ch offTrainst v)) ∧
  (∀ stack ch v, Brings (.evLgcfgWrite stack ch v) fun s => some (s.phyStore stack ch offLgcfg v)) ∧
  (∀ stack ch, Brings (.evLaneTurnaroundDone stack ch) fun s =>
    some (s.modStack stack fun k => { k with turning := k.turning.filter (· != ch) }).resume) ∧
  (∀ stack ch which, Brings (.evCounterClear stack ch which) fun s => if which < 4 then some (s.phyStore stack ch (0x10 + 4 * which) 0) else none) ∧
  (∀ stack v, Brings (.evCapctlWrite stack v) fun s => some (s.firmStore stack (baseAddr stack 0) v)) ∧
  (∀ stack v, Brings (.evEvptrWrite stack v) fun s => some (s.firmStore stack (baseAddr stack 0x10) v)) ∧
  (∀ pa v, Brings (.evRegisterWrite pa v) fun s => match regPlace pa with
    | .phy st _ _ => some (s.firmStore st pa v)
    | .base st _ => some (s.firmStore st pa v)
    | .hole => none) ∧
  (∀ stack, Brings (.evCaptureWindowEnd stack) fun s =>
    some (s.modStack stack fun k => { k with captured := [], rowCounts := [], fullcnt := 0, window := k.window + 1 })) ∧
  (∀ stack ch pc bank row sequencer, Brings (.evDramAlert stack ch pc bank row sequencer) fun s =>
    let s1 := s.modStack stack fun k => k.log row bank pc ch sequencer 0
    some (if (s.getStack stack).allBank then s1.logSplit stack else s1)) ∧
  (∀ stack, Brings (.evRefreshInterval stack) fun s =>
    some (if !(s.getStack stack).allBank then s.modStack stack fun k => { k with postponed := 0 }
      else if (s.getStack stack).postponed < 4 then s.modStack stack fun k => { k with postponed := k.postponed + 1 }
      else s.logSplit stack)) ∧
  (∀ stack mib, Brings (.evRegionFillDone stack mib) fun s => some (s.modStack stack fun k => { k with filling := k.filling.filter (· != mib) })) ∧
  (Brings .evHolUnknownMessage fun s => if s.plat.holUp then some (s.modPlat fun p => { p with mgmtErrors := p.mgmtErrors + 1 }) else none) ∧
  (Brings .evHolLinkDown fun s => some (s.modPlat fun p => { p with holUp := false })) ∧
  (Brings .evHolLinkUp fun s => some { s with plat := { s.plat with holUp := true, outbox := [] }, holOut := s.holOut ++ s.plat.outbox }) ∧
  (Brings .evHolBadCrc fun s => some s) ∧
  (∀ nonce, Brings (.evAttestationRequest nonce) fun s =>
    if s.plat.holUp && nonce.length == 48 then some (s.hol 0x31 0 [5] (s.report nonce)) else none) ∧
  (Brings .evIdentityRead fun s => if s.plat.holUp then some (s.hol 0x31 0 [4] (ecdsaPublic identityPrivate ++
      Config.identityCertificate.take (holLimit - (ecdsaPublic identityPrivate).length))) else none) ∧
  (∀ version, Brings (.evSecurityCounterRaise version) fun s =>
    if s.plat.holUp && !s.boot.accepted.isEmpty && decide (s.boot.secCounter < version) &&
        s.boot.accepted.all (fun k => decide (version ≤ imageVersion ((s.boot.image k).getD []))) then
      some (s.modBoot fun b => { b with secCounter := version })
    else none) ∧
  (∀ part high, Brings (.evPowerSample part high) fun s =>
    if part < powerParts then
      some (s.modPlat fun p => { p with throttled := if high then part :: p.throttled.filter (· != part) else p.throttled.filter (· != part) })
    else none) ∧
  (Brings .evThermalThrottle fun s => some (s.modPlat fun p => { p with throttled := List.range powerParts })) ∧
  (Brings .evThermalTrip fun s =>
    let s2 := (if s.plat.holUp then s.hol 0x31 0 [7] [] else s).afterReset
    some { s2 with plat := { s2.plat with tripped := true }, boot := { s2.boot with bootCount := s.boot.bootCount } })
end

