-- ==== Sys2Proof/Laws/Lists.lean ====
section
/-! SUPPORT. Lemmas about the list operations of the model: one element changed (modAt), and the lookups behind the state's
accessors. -/

namespace Sys2Proof.Machine

open Sys2Proof

@[simp] theorem modAt_getElem? {f : α → α} (l : List α) (i k : Nat) :
    (modAt f l i)[k]? = if k = i then (l[k]?).map f else l[k]? := by
  induction l generalizing i k with
  | nil => simp [modAt]
  | cons x r ih =>
    cases i with
    | zero => cases k <;> simp [modAt]
    | succ i => cases k with
      | zero => simp [modAt]
      | succ k => simp [modAt, ih]

theorem modAt_getElem?_ne {f : α → α} {l : List α} {i k : Nat} (h : k ≠ i) : (modAt f l i)[k]? = l[k]? := by simp [h]

@[simp] theorem modAt_length {f : α → α} (l : List α) (i : Nat) : (modAt f l i).length = l.length := by
  induction l generalizing i with
  | nil => rfl
  | cons x r ih => cases i <;> simp [modAt, ih]

/-- A change that leaves the element it finds leaves the list. -/
theorem modAt_eq_self {f : α → α} {l : List α} {i : Nat} (h : ∀ x, l[i]? = some x → f x = x) : modAt f l i = l := by
  apply List.ext_getElem?
  intro k
  rw [modAt_getElem?]
  split
  · subst k
    cases hx : l[i]? with
    | none => rfl
    | some x => simp [h x hx]
  · rfl

/-- Two changes of one element are one change. -/
theorem modAt_modAt {f g : α → α} (l : List α) (i : Nat) : modAt f (modAt g l i) i = modAt (fun x => f (g x)) l i := by
  apply List.ext_getElem?
  intro k
  simp only [modAt_getElem?]
  split <;> simp [Option.map_map, Function.comp_def]

theorem State.modTeam_modTeam (s : State) (i : Nat) (f g : Team → Team) :
    (s.modTeam i f).modTeam i g = s.modTeam i fun t => g (f t) := by simp [State.modTeam, modAt_modAt]

theorem State.modTeam_eq_self {s : State} {i : Nat} {f : Team → Team} (h : ∀ t, s.teams[i]? = some t → f t = t) : s.modTeam i f = s := by
  simp [State.modTeam, modAt_eq_self h]

theorem State.modGroup_modGroup (s : State) (i k : Nat) (f g : Group → Group) :
    (s.modGroup i k f).modGroup i k g = s.modGroup i k fun x => g (f x) := by
  simp [State.modGroup, State.modTeam_modTeam, Team.modGroup, modAt_modAt]

theorem State.modGroup_eq_self {s : State} {i k : Nat} {f : Group → Group}
    (h : ∀ t g, s.teams[i]? = some t → t.groups[k]? = some g → f g = g) : s.modGroup i k f = s := by
  apply State.modTeam_eq_self
  intro t ht
  simp [Team.modGroup, modAt_eq_self fun g hg => h t g ht hg]

/-- A map over positions that leaves every element leaves the list. -/
theorem mapIdx_eq_self {f : Nat → α → α} {l : List α} (h : ∀ i x, l[i]? = some x → f i x = x) : l.mapIdx f = l := by
  apply List.ext_getElem?
  intro k
  rw [List.getElem?_mapIdx]
  cases hx : l[k]? with
  | none => rfl
  | some x => simp [h k x hx]

/-- The outcome that a lane has among outcomes built lane by lane. -/
theorem find_lane {ls : List Nat} {h : Nat → LaneOut} (hl : ∀ l, (h l).lane = l) (k : Nat) :
    (ls.map h).find? (fun o => o.lane == k) = if k ∈ ls then some (h k) else none := by
  induction ls with
  | nil => simp
  | cons x r ih =>
    simp only [List.map_cons, List.find?_cons, hl, List.mem_cons]
    by_cases hx : x = k
    · subst hx; simp
    · have h1 : k ≠ x := fun h => hx h.symm
      have h2 : (x == k) = false := by simpa using hx
      simp [h1, h2, ih]

end Sys2Proof.Machine
end

