-- ==== Sys2Proof/Laws/Finish.lean ====
section
/-! SUPPORT. The end of an operation all of whose lanes continue at PC + 4: what finish does then, in one equation. -/

namespace Sys2Proof.Machine

open Sys2Proof

/-- Lanes that continue stay as they are, but for their PC, flags, generator, transaction count, arrival, wait and age. -/
def nextThread (s : State) (t : Team) (op : Op) (outs : List LaneOut) (l : Nat) (th : Thread) : Thread :=
  match outs.find? (fun o => o.lane == l) with
  | some o => { (th.finish op.pc o).noteWait th.waiting s.clock (((s.ctxOf t.ctx).map (·.tswap)).getD 0) with age := s.tick }
  | none => th

theorem filterMap_none {f : α → Option β} {l : List α} (h : ∀ x ∈ l, f x = none) : l.filterMap f = [] :=
  List.filterMap_eq_nil_iff.mpr h

theorem foldl_same {f : β → α → β} {l : List α} {b : β} (h : ∀ b, ∀ x ∈ l, f b x = b) : l.foldl f b = b := by
  induction l with
  | nil => rfl
  | cons x r ih => rw [List.foldl_cons, h b x (by simp)]; exact ih fun b y hy => h b y (by simp [hy])

theorem State.parkLanes_nil (s : State) (op : Op) (u : Bool) (c : BitVec 8) : s.parkLanes op u c [] = s := by
  unfold State.parkLanes; split <;> simp_all [lowestAddr]

theorem State.signal_modGroup (s : State) (c i k : Nat) (f : Group → Group) :
    (s.modGroup i k f).signal c = (s.signal c).modGroup i k f := rfl

/-- FINISH of lanes that all continue: each thread after its instruction, the sign of progress of the context, and the release of the
meetings and of the lots of the group. -/
theorem State.finish_next {s : State} {op : Op} {t : Team} {g : Group} {outs : List LaneOut} (ht : s.teams[op.team]? = some t)
    (hg : t.groups[op.grp]? = some g) (hn : outs ≠ []) (ho : ∀ o ∈ outs, o.ends = .next) :
    s.finish op outs = (s.signal t.ctx).modGroup op.team op.grp fun g =>
      (Group.release s.tick { g with threads := g.threads.mapIdx (nextThread s t op outs) }).lots s.tick outs := by
  have hf : outs.any (fun o => o.ends.isFault) = false := by
    rw [List.any_eq_false]; intro o h; rw [ho o h]; decide
  have h1 : outs.map (fun o => if o.ends.isFault && g.inTxn o.lane then { o with ends := .abort 5 } else o) = outs := by
    conv => rhs; rw [← List.map_id outs]
    apply List.map_congr_left
    intro o h; rw [ho o h]; rfl
  have h2 : outs.filterMap (fun o => o.ends.faultCause) = [] := filterMap_none fun o h => by rw [ho o h]; rfl
  have h3 : parkedLanes outs = [] := by
    unfold parkedLanes
    refine filterMap_none fun o h => ?_
    simp only [ho o h]
  have h4 : outs.any (fun o => o.ends.retires || (o.ends.isFault && (g.threads[o.lane]?).any Thread.unwatched)) = true := by
    obtain ⟨o, hm⟩ := List.exists_mem_of_ne_nil outs hn
    rw [List.any_eq_true]
    exact ⟨o, hm, by rw [ho o hm]; rfl⟩
  unfold State.finish
  simp only [ht, hg, hf, Bool.and_false, Bool.false_eq_true, if_false, h1, h2, h3, causesOf, List.foldl_nil, State.parkLanes_nil, h4,
    if_true]
  have h5 : ∀ x : State, x.trapLanes op outs = x := by
    intro x
    unfold State.trapLanes
    split
    · rfl
    · apply State.modGroup_eq_self
      intro _ g' _ _
      rw [mapIdx_eq_self]
      intro l th _
      cases hk : outs.find? (fun o => o.lane == l) with
      | none => simp only
      | some o => simp only [ho o (List.mem_of_find?_eq_some hk)]
  rw [h5, foldl_same (f := fun st o => _) (by intro b o h; rw [ho o h]), State.signal_modGroup, State.modGroup_modGroup]
  rfl

end Sys2Proof.Machine
end

