-- ==== Sys2Proof/Laws/Issue.lean ====
section
/-! SUPPORT. The issue stage on an operation that nothing keeps from executing: which checks it passes, and the form of its outcome. -/

namespace Sys2Proof.Machine

open Sys2Proof

theorem lanesOf_ne_nil {m : LaneMask} (h : m ≠ 0) : lanesOf m ≠ [] := by
  intro hn
  apply h
  apply BitVec.eq_of_getLsbD_eq
  intro i hi
  have := List.filter_eq_nil_iff.mp hn i (List.mem_range.mpr hi)
  simpa using this

/-- What is ready is a ready source, and what is not empty holds no destination (09 R248, R249). -/
theorem sourceReady_ok {w : View} {r l : Nat} (h : w.readiness r l = .ok) : w.sourceReady r l = .ok := by
  unfold View.sourceReady; split
  · rfl
  · exact h

theorem destEmpty_false {w : View} {r l : Nat} (h : w.readiness r l ≠ .empty) : w.destEmpty r l = false := by
  simp [View.destEmpty, h]

/-- No obstacle where every source is ready and no destination is empty (01 R37). -/
theorem obstacle_none {w : View} {f : Form} {l : Nat} (hs : ∀ r ∈ regsOf f.srcs, w.readiness r l = .ok)
    (hd : ∀ r ∈ regsOf f.dst.toList, w.readiness r l ≠ .empty) : obstacle w f l = .none := by
  have h1 : (regsOf f.srcs).any (fun r => w.sourceReady r l == .empty) = false := by
    rw [List.any_eq_false]; intro r hr; rw [sourceReady_ok (hs r hr)]; decide
  have h2 : (regsOf f.dst.toList).any (fun r => w.destEmpty r l &&
      !(w.group.gcr.getLsbD 3 && (regsOf f.srcs).contains r)) = false := by
    rw [List.any_eq_false]; intro r hr; simp [destEmpty_false (hd r hr)]
  have h3 : ∀ rs : List Nat, (∀ r ∈ rs, w.readiness r l = .ok) → sourceFault w (w.group.gcr.getLsbD 3) l rs = none := by
    intro rs
    induction rs with
    | nil => intro _; rfl
    | cons r rs ih => intro h; rw [sourceFault, sourceReady_ok (h r (by simp))]; exact ih fun x hx => h x (by simp [hx])
  unfold obstacle
  simp only [h1, h2, h3 _ hs, Bool.and_false, Bool.false_or, Bool.false_eq_true, if_false]

/-- ISSUE of an operation that nothing stops: the body over all its lanes, then its results and the ends of its lanes. -/
theorem issue_clear {f : Form} {body : Iss → State → State × List LaneOut} {s : State} {op : Op} {t : Team} {g : Group}
    (ht : Turn s op t g) (hc : Clear f op t g) :
    issue f body s = .next ((body (issOf op t g) s).1.complete (issOf op t g) f (body (issOf op t g) s).2) := by
  have hcore : (if t.onFoehn then !f.foehn else !f.main) = false := by
    have := hc.core; split at this <;> simp_all
  have hpriv : (f.priv && !op.sys) = false := by
    cases h : f.priv with
    | false => rfl
    | true => simp [hc.level h]
  have hrole : (!op.sys && !f.roles g.role) = false := by
    rcases hc.role with h | h <;> simp [h]
  have hnil := lanesOf_ne_nil ht.some
  unfold issue
  simp only [ht.cur, ht.team, ht.group, ht.some, if_false, hcore, hpriv, hrole, Bool.false_eq_true]
  have hab : (lanesOf op.lanes).filter (fun l => g.inTxn l && (!f.txn || g.txnFull l)) = [] := by
    rw [List.filter_eq_nil_iff]
    intro l hl
    unfold Group.inTxn Group.txnFull
    cases hth : g.threads[l]? with
    | none => simp
    | some th =>
      cases hx : th.txn with
      | none => simp [hx]
      | some x =>
        obtain ⟨h1, h2⟩ := hc.txn l hl th hth x hx
        simp [hx, h1, h2]
  rw [hab]
  have hrest : (lanesOf op.lanes).filter (fun l => !([] : List Nat).contains l) = lanesOf op.lanes := by simp
  rw [hrest]
  have hobs : (lanesOf op.lanes).map (fun l => (l, obstacle { team := t, grp := op.grp, group := g, base := op.base } f l)) =
      (lanesOf op.lanes).map (fun l => (l, Obstacle.none)) := by
    apply List.map_congr_left
    intro l hl
    exact congrArg (Prod.mk l) (obstacle_none (w := (issOf op t g).view) (fun r hr => hc.ready l hl r hr) (fun r hr => hc.free l hl r hr))
  rw [hobs]
  have hready : (((lanesOf op.lanes).map fun l => (l, Obstacle.none)).filter (fun x => x.2 == .none)).map (·.1) = lanesOf op.lanes := by
    rw [List.filter_eq_self.mpr (by intro x hx; simp only [List.mem_map] at hx; obtain ⟨l, _, rfl⟩ := hx; rfl)]
    simp [List.map_map, Function.comp_def]
  have hfault : ((lanesOf op.lanes).map fun l => (l, Obstacle.none)).filterMap
      (fun x => x.2.faulted) = [] := by
    simp [List.filterMap_map, Obstacle.faulted]
  have hneeds : (((lanesOf op.lanes).map fun l => (l, Obstacle.none)).filter (fun x => x.2 == .held)).map
      (fun x => (x.1, emptyRegs { team := t, grp := op.grp, group := g, base := op.base } f x.1)) = [] := by
    simp
  have hall : (if f.laneOp then standing g op ++ ([] : List (Nat × List (Nat × Nat))).flatMap (·.2) else []) = [] := by
    cases h : f.laneOp with
    | false => rfl
    | true => simp [hc.stood h]
  have hstarve : ∀ x : State, x.starve op [] = x := fun _ => rfl
  simp only [hneeds, hall, hstarve, hready, hfault, Bool.not_true, Bool.false_eq_true, if_false, List.isEmpty_iff, hnil, List.map_nil,
    List.append_nil, List.isEmpty_nil, Bool.and_true, issOf]

end Sys2Proof.Machine
end

