-- ==== Sys2Proof/Laws/Results.lean ====
section
/-! SUPPORT. The results of an operation all of whose lanes continue: the write of its destination register by register, and the
state that State.complete leaves, as the relation Results says it. -/

namespace Sys2Proof

open Machine

theorem mem_lanesOf {m : LaneMask} {l : Nat} : l ∈ lanesOf m ↔ l < 64 ∧ m.getLsbD l = true := by
  simp [lanesOf]

theorem getLsbD_maskOf (ls : List Nat) (k : Nat) : (maskOf ls).getLsbD k = (decide (k < 64) && decide (k ∈ ls)) := by
  have h1 : ∀ x : Nat, BitVec.getLsbD ((1 <<< x : Nat) : LaneMask) k = (decide (k < 64) && decide (k = x)) := by
    intro x
    simp only [BitVec.natCast_eq_ofNat, BitVec.getLsbD_ofNat, Nat.one_shiftLeft, Nat.testBit_two_pow]
    by_cases hx : k = x
    · simp [hx]
    · have : ¬x = k := fun h => hx h.symm
      simp [hx, this]
  have h : ∀ (xs : List Nat) (m : LaneMask), (xs.foldl (fun (m : LaneMask) i => m ||| ((1 <<< i : Nat) : LaneMask)) m).getLsbD k =
      (m.getLsbD k || (decide (k < 64) && decide (k ∈ xs))) := by
    intro xs
    induction xs with
    | nil => intro m; simp
    | cons x r ih =>
      intro m
      rw [List.foldl_cons, ih, BitVec.getLsbD_or, h1]
      cases m.getLsbD k <;> by_cases hk : k < 64 <;> by_cases hx : k = x <;> simp [hk, hx] <;> omega
  refine (h ls 0).trans ?_
  simp

/-- What the rows of a written operation have to meet where its tag is not G: U results are equal, A results are those of the shape. -/
def soundTag (tag : ResTag) (n : Nat) (ls : List Nat) (h : Nat → LaneOut) : Prop :=
  match tag with
  | .u => ∀ l ∈ ls, ∀ k ∈ ls, (h l).vals = (h k).vals
  | .a sh => n = 1 ∧ ∀ l ∈ ls, (h l).vals = [sh.at l]
  | _ => True

/-- One register of a write: its shape, and what each lane then reads. -/
theorem store_after {v : VReg} {gw : Nat} {ls : List Nat} {h : Nat → LaneOut} {i n : Nat} {tag : ResTag} {full : Bool} (hn : i < n)
    (hne : ls ≠ []) (hl : ∀ l, (h l).lane = l) (hv : ∀ l ∈ ls, (h l).vals.length = n) (hs : soundTag tag n ls h)
    (v' : VReg) (hv' : v' = v.store gw (ls.map h) i (if full then wholeShape (ls.map h) tag i else none)) :
    shapeAfter full tag v' ∧
    (∀ l ∈ ls, l < 64 → l < gw → v'.shape.at l = ((h l).vals[i]?).getD 0 ∧ v'.empty.getLsbD l = false ∧ ∀ m ∈ v'.marks, m.lane ≠ l) ∧
    (full = false → ∀ l, l ∉ ls → l < gw → v'.shape.at l = v.shape.at l ∧ v'.empty.getLsbD l = v.empty.getLsbD l) := by
  have hvals : ∀ l ∈ ls, (h l).vals.isEmpty = false := fun l hm => by
    have := hv l hm
    cases hh : (h l).vals with
    | nil => simp [hh] at this; omega
    | cons _ _ => rfl
  have hstore : (v.store gw (ls.map h) i none).shape.cls = .g ∧
      (∀ l ∈ ls, l < 64 → l < gw → (v.store gw (ls.map h) i none).shape.at l = ((h l).vals[i]?).getD 0 ∧
        (v.store gw (ls.map h) i none).empty.getLsbD l = false ∧ ∀ m ∈ (v.store gw (ls.map h) i none).marks, m.lane ≠ l) ∧
      (∀ l, l ∉ ls → l < gw → (v.store gw (ls.map h) i none).shape.at l = v.shape.at l ∧
        (v.store gw (ls.map h) i none).empty.getLsbD l = v.empty.getLsbD l) := by
    have hfilter : (ls.map h).filter (fun o => !o.vals.isEmpty) = ls.map h := by
      rw [List.filter_eq_self]
      intro o ho
      obtain ⟨l, hm, rfl⟩ := List.mem_map.mp ho
      simp [hvals l hm]
    have hmap : (ls.map h).map (·.lane) = ls := by
      rw [List.map_map]
      conv => rhs; rw [← List.map_id ls]
      exact List.map_congr_left fun l _ => hl l
    have hfind : ∀ k, (ls.map h).find? (fun o => o.lane == k && !o.vals.isEmpty) = if k ∈ ls then some (h k) else none := by
      intro k
      have : (ls.map h).find? (fun o => o.lane == k && !o.vals.isEmpty) = (ls.map h).find? (fun o => o.lane == k) := by
        apply List.find?_congr
        intro o ho
        obtain ⟨l, hm, rfl⟩ := List.mem_map.mp ho
        simp [hvals l hm]
      rw [this, find_lane hl]
    generalize hos : ls.map h = os at hfilter hmap hfind ⊢
    unfold VReg.store
    simp only [hfilter, hmap]
    refine ⟨rfl, ?_, ?_⟩
    · intro l hm h64 hgw
      refine ⟨?_, ?_, ?_⟩
      · simp [Shape.at, Shape.expand, hgw, hfind, hm]
      · simp only [BitVec.getLsbD_and, BitVec.getLsbD_not, getLsbD_maskOf, h64, hm]; simp
      · intro m hmm
        simp only [List.mem_filter, Bool.not_eq_true', List.contains_eq_mem, decide_eq_false_iff_not] at hmm
        intro he; exact hmm.2 (he ▸ hm)
    · intro l hm hgw
      refine ⟨?_, ?_⟩
      · simp [Shape.at, Shape.expand, hgw, hfind, hm]
      · simp only [BitVec.getLsbD_and, BitVec.getLsbD_not, getLsbD_maskOf, hm]
        by_cases h64 : l < 64
        · simp [h64]
        · simp [BitVec.getLsbD_of_ge _ _ (Nat.le_of_not_lt h64)]
  obtain ⟨x, r, rfl⟩ := List.exists_cons_of_ne_nil hne
  cases full with
  | false =>
    simp only [Bool.false_eq_true, if_false] at hv'
    subst hv'
    refine ⟨?_, hstore.2.1, fun _ => hstore.2.2⟩
    simpa [shapeAfter] using hstore.1
  | true =>
    simp only [if_true] at hv'
    refine ⟨?_, ?_, fun hf => by cases hf⟩
    · subst hv'
      cases tag with
      | u => simp [shapeAfter, wholeShape, VReg.store, Shape.cls]
      | g => simpa [shapeAfter, wholeShape] using hstore.1
      | same => trivial
      | a sh => simp [shapeAfter, wholeShape, VReg.store]
    · intro l hm h64 hgw
      have hx : x ∈ x :: r := by simp
      cases tag with
      | u =>
        have he := hs l hm x hx
        subst hv'
        simp [wholeShape, VReg.store, Shape.at, he]
      | g => subst hv'; exact hstore.2.1 l hm h64 hgw
      | a sh =>
        obtain ⟨rfl, ha⟩ := hs
        obtain rfl : i = 0 := by omega
        subst hv'
        simp [wholeShape, VReg.store, ha l hm]
      | same =>
        have hw : wholeShape ((x :: r).map h) .same i =
            if (r.map h).all (fun o => o.vals == (h x).vals) then some (.u (((h x).vals[i]?).getD 0)) else none := rfl
        rw [hw] at hv'
        split at hv'
        · rename_i hall
          have he : (h l).vals = (h x).vals := by
            rcases List.mem_cons.mp hm with rfl | hr
            · rfl
            · have := List.all_eq_true.mp hall (h l) (List.mem_map.mpr ⟨l, hr, rfl⟩)
              simpa using this
          subst hv'
          simp [VReg.store, Shape.at, he]
        · subst hv'; exact hstore.2.1 l hm h64 hgw

/-- The thread of lane `l` after the write of the destination of `f`: its capability tags follow the result. -/
def taggedThread (op : Op) (f : Form) (h : Nat → LaneOut) (l : Nat) (th : Thread) : Thread :=
  if l ∈ lanesOf op.lanes then { th with capTags := capsAfter op f.dst th.capTags (h l) } else th

/-- The write of a destination, register by register. -/
theorem writeRegs_after {op : Op} {t : Team} {g : Group} {f : Form} {h : Nat → LaneOut} (hg : t.groups[op.grp]? = some g)
    (hne : lanesOf op.lanes ≠ []) (hl : ∀ l, (h l).lane = l) {d : Reg} {n : Nat} (hd : f.dst = some (d, n))
    (hv : ∀ l ∈ lanesOf op.lanes, (h l).vals.length = n) (hn : n ≠ 0)
    (hs : soundTag ((issOf op t g).view.resTag f.rule f.srcs) n (lanesOf op.lanes) h) :
    let t' := t.writeRegs op.grp op.base d n (lanesOf op.lanes == g.live) ((issOf op t g).view.resTag f.rule f.srcs)
      ((lanesOf op.lanes).map h)
    t' = { t with groups := t'.groups, cregs := t'.cregs, ctags := t'.ctags } ∧
    (∀ k, k ≠ op.grp → t'.groups[k]? = t.groups[k]?) ∧
    ∃ g', t'.groups[op.grp]? = some g' ∧ g' = { g with regs := g'.regs, threads := g.threads.mapIdx (taggedThread op f h) } ∧
      regsAfter op t t' g g' f h := by
  have hvals : ∀ l ∈ lanesOf op.lanes, (h l).vals.isEmpty = false := fun l hm => by
    have := hv l hm
    cases hh : (h l).vals with
    | nil => simp [hh] at this; omega
    | cons _ _ => rfl
  have hall : ((lanesOf op.lanes).map h).all (fun o => !o.vals.isEmpty) = true := by
    rw [List.all_eq_true]
    intro o ho
    obtain ⟨l, hm, rfl⟩ := List.mem_map.mp ho
    simp [hvals l hm]
  have hfind : ∀ k, ((lanesOf op.lanes).map h).find? (fun o => o.lane == k && !o.vals.isEmpty) =
      if k ∈ lanesOf op.lanes then some (h k) else none := by
    intro k
    have : ((lanesOf op.lanes).map h).find? (fun o => o.lane == k && !o.vals.isEmpty) =
        ((lanesOf op.lanes).map h).find? (fun o => o.lane == k) := by
      apply List.find?_congr
      intro o ho
      obtain ⟨l, hm, rfl⟩ := List.mem_map.mp ho
      simp [hvals l hm]
    rw [this, find_lane hl]
  have hsame : ∀ c : Nat, ¬ c < 96 → c = d.toNat → g.threads.mapIdx (taggedThread op f h) = g.threads := by
    intro c hc he
    apply mapIdx_eq_self
    intro l th _
    have : ¬ d.toNat < 96 := he ▸ hc
    simp [taggedThread, hd, capsAfter, this]
  intro t'
  unfold regsAfter
  simp only [hd]
  by_cases h112 : d.toNat ≥ 112
  · have ht' : t' = t := by simp [t', Team.writeRegs, h112]
    have h96 : ¬ d.toNat < 96 := by omega
    have h112' : ¬ d.toNat < 112 := by omega
    rw [ht']
    refine ⟨rfl, fun _ _ => rfl, g, hg, ?_, ?_⟩
    · rw [hsame d.toNat h96 rfl]
    · rw [if_neg h96, if_neg h112']; exact ⟨rfl, rfl, rfl⟩
  · by_cases h96 : d.toNat ≥ 96
    · have h96' : ¬ d.toNat < 96 := by omega
      have h112' : d.toNat < 112 := by omega
      have hlast : lastWriter ((lanesOf op.lanes).map h) = ((lanesOf op.lanes).getLast?).map h := by
        have : ∀ ls : List Nat, (∀ l ∈ ls, (h l).vals.isEmpty = false) → lastWriter (ls.map h) = ls.getLast?.map h := by
          intro ls
          induction ls with
          | nil => intro _; rfl
          | cons x r ih =>
            intro hm
            have hr := ih fun l hl => hm l (by simp [hl])
            rw [List.map_cons, lastWriter, hr]
            cases r with
            | nil => simp [hm x (by simp)]
            | cons y r =>
              cases hh : (y :: r).getLast? with
              | none => simp at hh
              | some w => simp [List.getLast?_cons_cons, hh]
        exact this _ hvals
      obtain ⟨z, hz⟩ : ∃ z, (lanesOf op.lanes).getLast? = some z := by
        cases hh : (lanesOf op.lanes).getLast? with
        | none => exact absurd (List.getLast?_eq_none_iff.mp hh) hne
        | some z => exact ⟨z, rfl⟩
      rw [hz] at hlast
      have ht' : t' = { t with
          cregs := t.cregs.mapIdx fun i c => if d.toNat - 96 ≤ i ∧ i < d.toNat - 96 + n then
            { val := ((h z).vals[i - (d.toNat - 96)]?).getD 0, empty := false, mark := none } else c,
          ctags := if (h z).tag then t.ctags ||| (quadBits (d.toNat - 96) n).setWidth 4
            else t.ctags &&& ~~~((quadBits (d.toNat - 96) n).setWidth 4) } := by
        show Team.writeRegs _ _ _ _ _ _ _ _ = _
        unfold Team.writeRegs
        simp only
        rw [if_neg (by simp [hn]; omega), if_pos h96, hlast]
        rfl
      rw [ht', hz]
      refine ⟨rfl, fun _ _ => rfl, g, hg, by rw [hsame d.toNat h96' rfl], ?_⟩
      rw [if_neg h96', if_pos h112']
      refine ⟨rfl, by simp, ?_, ?_⟩
      · intro l hm _
        obtain rfl : z = l := by simpa using hm
        rfl
      · intro k c c' hc hc'
        rw [List.getElem?_mapIdx, hc] at hc'
        simp only [Option.map_some, Option.some.injEq] at hc'
        subst hc'
        split
        · intro l hm
          obtain rfl : z = l := by simpa using hm
          rfl
        · rfl
    · have h96' : d.toNat < 96 := by omega
      have ht' : t' = t.modGroup op.grp fun x =>
          { x with regs := x.regs.mapIdx (VReg.storeAt t.gw (op.base + d.toNat) n ((lanesOf op.lanes).map h)
                     (lanesOf op.lanes == g.live) ((issOf op t g).view.resTag f.rule f.srcs)),
                   threads := x.threads.mapIdx (taggedThread op f h) } := by
        show Team.writeRegs _ _ _ _ _ _ _ _ = _
        unfold Team.writeRegs
        simp only
        rw [if_neg (by simp [hn]; omega), if_neg h96, hall, Bool.and_true]
        have htag : Thread.tagWrite (quadBits (op.base + d.toNat) n) ((lanesOf op.lanes).map h) = taggedThread op f h := by
          funext l th
          unfold Thread.tagWrite taggedThread
          rw [hfind]
          by_cases hm : l ∈ lanesOf op.lanes
          · simp only [hm, if_true, hd, capsAfter, h96', hn, ne_eq, not_false_eq_true, and_self, tagsAfter]
          · simp only [hm, if_false]
        rw [htag]
      refine ⟨?_, ?_, ?_⟩
      · rw [ht']; rfl
      · intro k hk
        rw [ht']
        simp [Team.modGroup, hk]
      · have hg' : t'.groups[op.grp]? = some { g with
            regs := g.regs.mapIdx (VReg.storeAt t.gw (op.base + d.toNat) n ((lanesOf op.lanes).map h)
              (lanesOf op.lanes == g.live) ((issOf op t g).view.resTag f.rule f.srcs)),
            threads := g.threads.mapIdx (taggedThread op f h) } := by rw [ht']; simp [Team.modGroup, hg]
        refine ⟨_, hg', rfl, ?_⟩
        · rw [if_pos h96']
          refine ⟨by rw [ht']; rfl, by rw [ht']; rfl, by simp, ?_⟩
          intro r v v' hr hr'
          rw [List.getElem?_mapIdx, hr] at hr'
          simp only [Option.map_some, Option.some.injEq] at hr'
          unfold regAfter
          unfold VReg.storeAt at hr'
          split
          · rename_i hin
            rw [if_pos hin] at hr'
            obtain ⟨h1, h2, h3⟩ := store_after (by omega) hne hl hv hs v' hr'.symm
            refine ⟨h1, fun l hm hgw => h2 l hm (mem_lanesOf.mp hm).1 hgw, fun l hm hgw hlive => h3 ?_ l hm hgw⟩
            rw [beq_eq_false_iff_ne]
            intro he
            exact hm (he ▸ hlive)
          · rename_i hin
            rw [if_neg hin] at hr'
            exact hr'.symm

/-- A thread that the release of its group has passed: its meeting, arrival and age apart, it is what it was. -/
theorem release_thread {n : Nat} {g : Group} {l : Nat} {th : Thread} (h : g.threads[l]? = some th) :
    ∃ th', (g.release n).threads[l]? = some th' ∧ th' = { th with meet := th'.meet, arrived := th'.arrived, age := th'.age } := by
  unfold Group.release
  simp only [List.getElem?_map, h, Option.map_some, Option.some.injEq, exists_eq_left']
  split <;> rfl

/-- A thread that the lots of its group have passed: its lot apart, it is what it was. -/
theorem lots_thread {n : Nat} {outs : List LaneOut} {g : Group} {l : Nat} {th : Thread} (h : g.threads[l]? = some th) :
    ∃ th', (g.lots n outs).threads[l]? = some th' ∧ th' = { th with lot := th'.lot, lotOpen := th'.lotOpen } := by
  unfold Group.lots
  simp only
  split
  · exact ⟨th, h, rfl⟩
  · simp only [List.getElem?_map, List.getElem?_mapIdx, h, Option.map_some, Option.some.injEq, exists_eq_left']
    split <;> split <;> first | rfl | (split <;> rfl)

/-- Neither lots nor the release of meetings changes a group but for its threads. -/
theorem lots_release_group {n : Nat} {outs : List LaneOut} {g : Group} :
    (g.release n).lots n outs = { g with threads := ((g.release n).lots n outs).threads } := by
  unfold Group.lots Group.release
  simp only
  split <;> rfl

/-- Both, on one thread. -/
theorem passed_thread {n : Nat} {outs : List LaneOut} {g : Group} {l : Nat} {th : Thread} (h : g.threads[l]? = some th) :
    ∃ th', ((g.release n).lots n outs).threads[l]? = some th' ∧
      th' = { th with meet := th'.meet, arrived := th'.arrived, age := th'.age, lot := th'.lot, lotOpen := th'.lotOpen } := by
  obtain ⟨t1, h1, h2⟩ := release_thread (n := n) h
  obtain ⟨t2, h3, h4⟩ := lots_thread (n := n) (outs := outs) h1
  exact ⟨t2, h3, by rw [h4, h2]⟩

/-- The thread of a lane that continues. -/
theorem finish_after {th : Thread} {op : Op} {dst : Option (Reg × Nat)} {o : LaneOut} {b : Bool} {c w n : Nat} (ho : o.ends = .next) :
    th.after op dst o { (({ th with capTags := capsAfter op dst th.capTags o } : Thread).finish op.pc o).noteWait b c w with age := n } := by
  cases o
  cases ho
  unfold Machine.Thread.after Thread.noteWait
  split <;> rfl

/-- The same under a later change of meeting, arrival, age and lot alone. -/
theorem after_meet {th th1 th2 : Thread} {op : Op} {dst : Option (Reg × Nat)} {o : LaneOut} (h : th.after op dst o th1)
    (h2 : th2 = { th1 with meet := th2.meet, arrived := th2.arrived, age := th2.age, lot := th2.lot, lotOpen := th2.lotOpen }) : th.after op dst o th2 := by
  unfold Machine.Thread.after at *
  rw [h2, h]

/-- An operation no lane of which stands leaves no note of what standing lanes have seen. -/
theorem State.standLanes_none {s : State} {i : Iss} {outs : List LaneOut} (h : ∀ o ∈ outs, o.ends = .next) : s.standLanes i outs = s := by
  unfold State.standLanes
  rw [if_neg]
  simp only [List.any_eq_true, not_exists, not_and]
  intro o ho
  rw [h o ho]
  decide

/-- COMPLETE of an operation whose lanes all continue with results that its tag allows: the relation Results. -/
theorem complete_results {s : State} {op : Op} {t : Team} {g : Group} {f : Form} {h : Nat → LaneOut} (ht : Turn s op t g)
    (hl : ∀ l, (h l).lane = l) (he : ∀ l, (h l).ends = .next)
    (hv : ∀ l ∈ lanesOf op.lanes, (h l).vals.length = (f.dst.map (·.2)).getD 0)
    (hs : soundTag ((issOf op t g).view.resTag f.rule f.srcs) ((f.dst.map (·.2)).getD 0) (lanesOf op.lanes) h) :
    Results s (s.complete (issOf op t g) f ((lanesOf op.lanes).map h)) op t g f h := by
  have hne := lanesOf_ne_nil ht.some
  have hends : ∀ o ∈ (lanesOf op.lanes).map h, o.ends = .next := by
    intro o ho
    obtain ⟨l, _, rfl⟩ := List.mem_map.mp ho
    exact he l
  have hgood : ((lanesOf op.lanes).map h).filter (fun o => o.ends.delivers) = (lanesOf op.lanes).map h := by
    rw [List.filter_eq_self]
    intro o ho
    rw [hends o ho]; rfl
  -- the write of the destination
  obtain ⟨t1, g1, h1, h2, h3, h4, h5, h6⟩ : ∃ t1 g1, s.complete (issOf op t g) f ((lanesOf op.lanes).map h) =
      (s.modTeam op.team fun _ => t1).finish op ((lanesOf op.lanes).map h) ∧
      t1 = { t with groups := t1.groups, cregs := t1.cregs, ctags := t1.ctags } ∧
      (∀ k, k ≠ op.grp → t1.groups[k]? = t.groups[k]?) ∧ t1.groups[op.grp]? = some g1 ∧
      g1 = { g with regs := g1.regs, threads := g.threads.mapIdx (taggedThread op f h) } ∧
      ∀ t2 g2, t2.cregs = t1.cregs → t2.ctags = t1.ctags → g2.regs = g1.regs → regsAfter op t t2 g g2 f h := by
    have hkeep : (s.modTeam op.team fun _ => t) = s := State.modTeam_eq_self fun x hx => by
      rw [ht.team] at hx; exact (Option.some.inj hx)
    have hsame : (∀ tags o, capsAfter op f.dst tags o = tags) → g.threads.mapIdx (taggedThread op f h) = g.threads := by
      intro hc
      apply mapIdx_eq_self
      intro l th _
      unfold taggedThread
      split
      · rw [hc]
      · rfl
    unfold State.complete
    simp only [State.standLanes_none hends, hgood, beq_self_eq_true, Bool.and_true]
    cases hd : f.dst with
    | none =>
      refine ⟨t, g, by simp only [hkeep]; rfl, rfl, fun _ _ => rfl, ht.group, ?_, ?_⟩
      · rw [hsame (by intro tags o; simp [capsAfter, hd])]
      · intro t2 g2 hc hct hr
        unfold regsAfter
        simp only [hd]
        exact ⟨hr, hc, hct⟩
    | some x =>
      obtain ⟨d, n⟩ := x
      have hv' : ∀ l ∈ lanesOf op.lanes, (h l).vals.length = n := fun l hm => by simpa [hd] using hv l hm
      have hs' : soundTag ((issOf op t g).view.resTag f.rule f.srcs) n (lanesOf op.lanes) h := by simpa [hd] using hs
      by_cases hn : n = 0
      · subst hn
        have hempty : ((lanesOf op.lanes).map h).all (fun o => o.vals.isEmpty) = true := by
          rw [List.all_eq_true]
          intro o ho
          obtain ⟨l, hm, rfl⟩ := List.mem_map.mp ho
          simpa using hv' l hm
        refine ⟨t, g, by simp only [hempty, if_true, hkeep]; rfl, rfl, fun _ _ => rfl, ht.group, ?_, ?_⟩
        · rw [hsame (by intro tags o; simp [capsAfter, hd])]
        · intro t2 g2 hc hct hr
          unfold regsAfter
          simp only [hd]
          split
          · refine ⟨hc, hct, by rw [hr], ?_⟩
            intro r v v' hv1 hv2
            rw [hr, hv1] at hv2
            unfold regAfter
            rw [if_neg (by omega)]
            exact (Option.some.inj hv2).symm
          · split
            · refine ⟨hr, by rw [hc], fun _ _ h0 => absurd rfl h0, ?_⟩
              intro k c c' hc1 hc2
              rw [hc, hc1] at hc2
              rw [if_neg (by omega)]
              exact (Option.some.inj hc2).symm
            · exact ⟨hr, hc, hct⟩
      · have hempty : ((lanesOf op.lanes).map h).all (fun o => o.vals.isEmpty) = false := by
          obtain ⟨x, r, hx⟩ := List.exists_cons_of_ne_nil hne
          have := hv' x (by rw [hx]; simp)
          rw [hx]
          cases hh : (h x).vals with
          | nil => simp [hh] at this; omega
          | cons _ _ => simp [hh]
        obtain ⟨ha, hb, g1, hg1, hc, hr⟩ := writeRegs_after ht.group hne hl hd hv' hn hs'
        refine ⟨_, g1, ?_, ha, hb, hg1, ?_, ?_⟩
        · simp only [hempty, Bool.false_eq_true, if_false]
          congr 1
          unfold State.modTeam
          congr 1
          apply List.ext_getElem?
          intro k
          simp only [modAt_getElem?]
          split
          · rename_i hk
            have hk' : k = op.team := hk
            rw [if_pos hk', hk', ht.team]; rfl
          · rename_i hk
            have hk' : ¬ k = op.team := hk
            rw [if_neg hk']
        · exact hc
        · intro t2 g2 hc2 hct hr2
          unfold regsAfter at hr ⊢
          rw [hc2, hct, hr2]
          exact hr
  have hteam : (s.modTeam op.team fun _ => t1).teams[op.team]? = some t1 := by simp [State.modTeam, ht.team]
  have hctx : t1.ctx = t.ctx := by rw [h2]
  have hgw : t1.gw = t.gw := by rw [h2]
  rw [h1, State.finish_next hteam h4 (by simp [hne]) hends]
  refine ⟨?_, ?_, ?_⟩
  · rw [hctx]; rfl
  · intro k hk
    simp [State.modGroup, State.modTeam, State.signal, State.modCtx, hk]
  · refine ⟨_, by
      simp only [State.modGroup, State.modTeam, State.signal, State.modCtx, modAt_getElem?, if_true, ht.team, Option.map_some]
      rfl, ?_, ?_, ?_⟩
    · rw [h2]; rfl
    · intro k hk
      simp [Team.modGroup, hk, h3 k hk]
    · refine ⟨_, by
        simp only [Team.modGroup, modAt_getElem?, if_true, h4, Option.map_some]
        rfl, ?_, ?_, ?_, ?_⟩
      · rw [lots_release_group, h5]
      · exact h6 _ _ rfl rfl (by rw [lots_release_group])
      · intro l hm th hth
        have h8 : g1.threads[l]? = some { th with capTags := capsAfter op f.dst th.capTags (h l) } := by
          rw [h5]; simp [hth, taggedThread, hm]
        obtain ⟨th', h9, h10⟩ := passed_thread (l := l) (outs := (lanesOf op.lanes).map h)
          (g := { g1 with threads := g1.threads.mapIdx (nextThread (s.modTeam op.team fun _ => t1) t1 op ((lanesOf op.lanes).map h)) })
          (by rw [List.getElem?_mapIdx, h8]; rfl)
        refine ⟨th', h9, after_meet ?_ h10⟩
        unfold nextThread
        rw [find_lane hl, if_pos hm]
        exact finish_after (he l)
      · intro l hm th hth
        have h8 : g1.threads[l]? = some th := by
          rw [h5]; simp [hth, taggedThread, hm]
        obtain ⟨th', h9, h10⟩ := passed_thread (l := l) (outs := (lanesOf op.lanes).map h)
          (g := { g1 with threads := g1.threads.mapIdx (nextThread (s.modTeam op.team fun _ => t1) t1 op ((lanesOf op.lanes).map h)) })
          (by rw [List.getElem?_mapIdx, h8]; rfl)
        refine ⟨th', h9, ?_⟩
        have h11 : nextThread (s.modTeam op.team fun _ => t1) t1 op ((lanesOf op.lanes).map h) l th = th := by
          unfold nextThread
          rw [find_lane hl, if_neg hm]
        rw [h11] at h10
        exact h10

end Sys2Proof
end

