-- ==== Sys2Proof/Laws/Effects.lean ====
section
/-! SUPPORT. From the effect or the row of a claim to exec: an instruction whose meaning is ISSUE over a body runs with effect `E` when
the body gives what `E` gives, and delivers a row when its body delivers that row in each lane. -/

namespace Sys2Proof.Claims

open Sys2Proof Machine

theorem runs_of {j : Instr} {f : Form} {E : Effect} (h : ∃ body : Iss → State → State × List LaneOut, (∀ s, exec j s = issue f body s) ∧
   ∀ i s s1 outs, E i s = some (s1, outs) → body i s = (s1, outs)) : Runs j f E := by
  obtain ⟨body, hb, hE⟩ := h
  intro s op t g s1 outs ht hc he
  rw [hb, issue_clear ht hc, hE _ _ _ _ he]

theorem eachFrom_eq {h : Iss → State → Nat → Option (State × LaneOut)} {k : Iss → State → Nat → State × LaneOut} {i : Iss}
    (hk : ∀ s l s1 o, h i s l = some (s1, o) → k i s l = (s1, o)) : ∀ (ls : List Nat) (s s1 : State) (acc outs : List LaneOut), eachFrom h i ls s = some (s1, outs) →
    ls.foldl (fun (r : State × List LaneOut) (l : Nat) =>
      let (s1, o) := k i r.1 l
      (s1, r.2 ++ [o])) (s, acc) = (s1, acc ++ outs) := by
  intro ls
  induction ls with
  | nil => intro s s1 acc outs he; simp [eachFrom] at he; obtain ⟨rfl, rfl⟩ := he; simp
  | cons l ls ih =>
    intro s s1 acc outs he
    unfold eachFrom at he
    split at he
    · rename_i s2 o heq
      simp only [Option.map_eq_some_iff] at he
      obtain ⟨⟨a, b⟩, h1, h2⟩ := he
      obtain ⟨rfl, rfl⟩ := Prod.mk.inj h2
      have := hk _ _ _ _ heq
      simp only [List.foldl_cons]
      rw [this]
      have := ih _ _ (acc ++ [o]) _ h1
      rw [this]; simp
    · cases he

theorem each_eq {h : Iss → State → Nat → Option (State × LaneOut)} {k : Iss → State → Nat → State × LaneOut} {i : Iss} {s s1 outs}
    (hk : ∀ s l s1 o, h i s l = some (s1, o) → k i s l = (s1, o)) (he : each h i s = some (s1, outs)) : eachLane k i s = (s1, outs) := by
  have := eachFrom_eq hk i.lanes s s1 [] outs he
  simpa [eachLane] using this

theorem bringFrom_eq {h : Iss → State → Nat → Option (State × LoadLane)} {k : Iss → State → Nat → State × Except LaneEnd LoadLane} {i : Iss}
    (hk : ∀ s l s1 o, h i s l = some (s1, o) → k i s l = (s1, .ok o)) : ∀ (ls : List Nat) (s s1 : State) (a1 : List LaneOut) (a2 ys : List LoadLane), bringFrom h i ls s = some (s1, ys) →
    ls.foldl (fun (r : State × List LaneOut × List LoadLane) (l : Nat) =>
    let (s1, x) := k i r.1 l
    match x with
    | .ok y => (s1, r.2.1 ++ [LaneOut.only l .next], r.2.2 ++ [y])
    | .error e => (s1, r.2.1 ++ [LaneOut.only l e], r.2.2)) (s, a1, a2) = (s1, a1 ++ ls.map (fun l => LaneOut.only l .next), a2 ++ ys) := by
  intro ls
  induction ls with
  | nil => intro s s1 a1 a2 ys he; simp [bringFrom] at he; obtain ⟨rfl, rfl⟩ := he; simp
  | cons l ls ih =>
    intro s s1 a1 a2 ys he
    unfold bringFrom at he
    split at he
    · rename_i s2 o heq
      simp only [Option.map_eq_some_iff] at he
      obtain ⟨⟨a, b⟩, h1, h2⟩ := he
      obtain ⟨rfl, rfl⟩ := Prod.mk.inj h2
      have := hk _ _ _ _ heq
      simp only [List.foldl_cons]
      rw [this]
      have := ih _ _ (a1 ++ [LaneOut.only l .next]) (a2 ++ [o]) _ h1
      rw [this]; simp
    · cases he

/-- Lanes that all continue leave none standing. -/
theorem standingOf_next (ls : List Nat) : standingOf (ls.map fun l => LaneOut.only l .next) = [] := by
  unfold standingOf
  rw [List.map_eq_nil_iff, List.filter_eq_nil_iff]
  intro o ho
  obtain ⟨l, _, rfl⟩ := List.mem_map.mp ho
  simp [LaneOut.only, LaneEnd.stands]

theorem loads_eq {h : Iss → State → Nat → Option (State × LoadLane)} {k : Iss → State → Nat → State × Except LaneEnd LoadLane} {i : Iss} {s s1 outs} {d w}
    (hk : ∀ s l s1 o, h i s l = some (s1, o) → k i s l = (s1, .ok o)) (he : loads d w h i s = some (s1, outs)) : loadBody d w k i s = (s1, outs) := by
  unfold loads at he
  split at he
  case isFalse => cases he
  rename_i ht
  simp only [Option.map_eq_some_iff] at he
  obtain ⟨⟨a, b⟩, h1, h2⟩ := he
  obtain ⟨rfl, rfl⟩ := Prod.mk.inj h2
  have := bringFrom_eq hk i.lanes s a [] [] b h1
  unfold loadBody
  rw [ht]
  refine (congrArg (fun (r : State × List LaneOut × List LoadLane) => (r.1.startLoad i d w r.2.2 (standingOf r.2.1), r.2.1)) this).trans ?_
  simp only [List.nil_append, standingOf_next]

/-- Lanes of which some end as `stop` says and the others have their effect. -/
theorem among_eq {stop h : Iss → State → Nat → Option (State × LaneOut)} {k : Iss → State → Nat → State × LaneOut} {i s s1 outs}
   (h1 : ∀ s l s1 o, stop i s l = some (s1, o) → k i s l = (s1, o)) (h2 : ∀ s l s1 o, h i s l = some (s1, o) → k i s l = (s1, o))
   (he : among stop h i s = some (s1, outs)) : eachLane k i s = (s1, outs) := by
  unfold among at he
  refine each_eq (fun s l s1 o hh => ?_) he
  split at hh
  · rename_i r hr; cases hh; exact h1 _ _ _ _ hr
  · exact h2 _ _ _ _ hh

theorem bringAmong_eq {stop : Iss → State → Nat → Option (State × LaneOut)} {h : Iss → State → Nat → Option (State × LoadLane)} {k : Iss → State → Nat → State × Except LaneEnd LoadLane} {i : Iss}
    (h1 : ∀ s l s1 o, stop i s l = some (s1, o) → ∃ e, k i s l = (s1, .error e) ∧ o = .only l e)
    (hk : ∀ s l s1 o, h i s l = some (s1, o) → k i s l = (s1, .ok o)) : ∀ (ls : List Nat) (s s1 : State) (a1 os : List LaneOut) (a2 ys : List LoadLane), bringAmong stop h i ls s = some (s1, os, ys) →
    ls.foldl (fun (r : State × List LaneOut × List LoadLane) (l : Nat) =>
    let (s1, x) := k i r.1 l
    match x with
    | .ok y => (s1, r.2.1 ++ [LaneOut.only l .next], r.2.2 ++ [y])
    | .error e => (s1, r.2.1 ++ [LaneOut.only l e], r.2.2)) (s, a1, a2) = (s1, a1 ++ os, a2 ++ ys) := by
  intro ls
  induction ls with
  | nil => intro s s1 a1 os a2 ys he; simp [bringAmong] at he; obtain ⟨rfl, rfl, rfl⟩ := he; simp
  | cons l ls ih =>
    intro s s1 a1 os a2 ys he
    unfold bringAmong at he
    simp only [List.foldl_cons]
    split at he
    · rename_i s2 o heq
      simp only [Option.map_eq_some_iff] at he
      obtain ⟨⟨a, b, c⟩, h1', h2⟩ := he
      simp only [Prod.mk.injEq] at h2
      obtain ⟨rfl, rfl, rfl⟩ := h2
      obtain ⟨e, hk1, rfl⟩ := h1 _ _ _ _ heq
      rw [hk1]
      have := ih _ _ (a1 ++ [LaneOut.only l e]) _ a2 _ h1'
      simp only
      rw [this]; simp
    · split at he
      · rename_i s2 y heq
        simp only [Option.map_eq_some_iff] at he
        obtain ⟨⟨a, b, c⟩, h1', h2⟩ := he
        simp only [Prod.mk.injEq] at h2
        obtain ⟨rfl, rfl, rfl⟩ := h2
        rw [hk _ _ _ _ heq]
        have := ih _ _ (a1 ++ [LaneOut.only l .next]) _ (a2 ++ [y]) _ h1'
        simp only
        rw [this]; simp
      · cases he

/-- The same of a load. -/
theorem loadsAmong_eq {stop : Iss → State → Nat → Option (State × LaneOut)} {h : Iss → State → Nat → Option (State × LoadLane)} {k : Iss → State → Nat → State × Except LaneEnd LoadLane} {i : Iss} {s s1 outs} {d w}
    (h1 : ∀ s l s1 o, stop i s l = some (s1, o) → ∃ e, k i s l = (s1, .error e) ∧ o = .only l e)
    (hk : ∀ s l s1 o, h i s l = some (s1, o) → k i s l = (s1, .ok o)) (he : loadsAmong d w stop h i s = some (s1, outs)) : loadBody d w k i s = (s1, outs) := by
  unfold loadsAmong at he
  split at he
  case isFalse => cases he
  rename_i ht
  simp only [Option.map_eq_some_iff] at he
  obtain ⟨⟨a, b, c⟩, h1', h2⟩ := he
  obtain ⟨rfl, rfl⟩ := Prod.mk.inj h2
  have := bringAmong_eq h1 hk i.lanes s a [] b [] c h1'
  unfold loadBody
  rw [ht]
  refine (congrArg (fun (r : State × List LaneOut × List LoadLane) => (r.1.startLoad i d w r.2.2 (standingOf r.2.1), r.2.1)) this).trans ?_
  simp
theorem still_eq {ok : Iss → Nat → Bool} {out k : Iss → Nat → LaneOut} {i s s1 outs}
    (hk : ∀ l, ok i l = true → k i l = out i l) (he : still ok out i s = some (s1, outs)) : perLane k i s = (s1, outs) := by
  unfold still at he
  split at he
  · rename_i h
    cases he
    unfold perLane
    rw [List.all_eq_true] at h
    congr 1
    exact List.map_congr_left fun l hl => hk l (h l hl)
  · cases he

theorem turn_eq {ok : Iss → State → Bool} {f : Iss → State → State} {out : Iss → State → Nat → LaneOut} {i s s1 outs} {x : State × List LaneOut}
    (he : turn ok f out i s = some (s1, outs)) (hk : ok i s = true → x = (f i s, i.lanes.map (out i s))) : x = (s1, outs) := by
  unfold turn at he
  split at he
  · rename_i h; cases he; exact hk h
  · cases he
/-- A register instruction whose body is one lane function: its results are well formed and what its tag allows. -/
theorem delivers_of {j : Instr} {row : Row} (hj : ∀ s, exec j s = issue row.1 (fun i s => (s, i.lanes.map fun l => row.2 i s l)) s)
    (hl : ∀ i s l, (row.2 i s l).lane = l) (he : ∀ i s l, (row.2 i s l).ends = .next)
    (hv : ∀ i s l, (row.2 i s l).vals.length = (row.1.dst.map (·.2)).getD 0)
    (hs : ∀ s op t g, Turn s op t g → Clear row.1 op t g →
      soundTag ((issOf op t g).view.resTag row.1.rule row.1.srcs) ((row.1.dst.map (·.2)).getD 0) (lanesOf op.lanes)
        (row.2 (issOf op t g) s)) : Delivers j row := by
  intro s op t g ht hc
  refine ⟨_, by rw [hj, issue_clear ht hc], ?_⟩
  exact complete_results ht (hl _ s) (he _ s) (fun l _ => hv _ s l) (hs s op t g ht hc)

end Sys2Proof.Claims
end

