-- ==== Sys2Proof/Laws/Memory.lean ====
section
/-! SUPPORT. The byte lists of memory: every operation on them keeps the canonical form, a byte written is read back and other bytes
stay; DRAM behind its code keeps the form; reset has it. -/

namespace Sys2Proof.Machine

open Sys2Proof

theorem memWfFrom_mono {a b : Nat} (h : b ≤ a) : ∀ {m : Mem}, memWfFrom a m = true → memWfFrom b m = true
  | [], _ => rfl
  | (k, v) :: r, hm => by
    simp only [memWfFrom, Bool.and_eq_true, decide_eq_true_eq] at hm ⊢
    exact ⟨⟨by omega, hm.1.2⟩, hm.2⟩

theorem memSet_wf {b : Byte} {x : Nat} : ∀ {m : Mem} {a : Nat}, a ≤ x → memWfFrom a m = true → memWfFrom a (memSet m x b) = true
  | [], a, h, _ => by
    unfold memSet
    split
    · rfl
    · simp_all [memWfFrom]
  | (k, v) :: r, a, h, hm => by
    simp only [memWfFrom, Bool.and_eq_true, decide_eq_true_eq, bne_iff_ne, ne_eq] at hm
    unfold memSet
    by_cases h1 : x < k
    · rw [if_pos h1]
      split
      · simp only [memWfFrom, Bool.and_eq_true, decide_eq_true_eq, bne_iff_ne, ne_eq]
        exact hm
      · simp only [memWfFrom, Bool.and_eq_true, decide_eq_true_eq, bne_iff_ne, ne_eq]
        exact ⟨⟨h, ‹_›⟩, ⟨by omega, hm.1.2⟩, hm.2⟩
    · rw [if_neg h1]
      by_cases h2 : x = k
      · rw [if_pos h2]
        subst h2
        split
        · exact memWfFrom_mono (by omega) hm.2
        · simp only [memWfFrom, Bool.and_eq_true, decide_eq_true_eq, bne_iff_ne, ne_eq]
          exact ⟨⟨h, ‹_›⟩, hm.2⟩
      · rw [if_neg h2]
        simp only [memWfFrom, Bool.and_eq_true, decide_eq_true_eq, bne_iff_ne, ne_eq]
        exact ⟨hm.1, memSet_wf (by omega) hm.2⟩

theorem memWrite_wf : ∀ {bs : List Byte} {m : Mem} {a x : Nat}, a ≤ x → memWfFrom a m = true → memWfFrom a (memWrite m x bs) = true
  | [], _, _, _, _, h => h
  | b :: r, m, a, x, ha, h => by
    unfold memWrite
    exact memWrite_wf (bs := r) (by omega) (memSet_wf ha h)

theorem memFilter_wf {p : Nat × Byte → Bool} : ∀ {m : Mem} {a : Nat}, memWfFrom a m = true → memWfFrom a (m.filter p) = true
  | [], _, _ => rfl
  | (k, v) :: r, a, h => by
    simp only [memWfFrom, Bool.and_eq_true, decide_eq_true_eq, bne_iff_ne, ne_eq] at h
    rw [List.filter_cons]
    split
    · simp only [memWfFrom, Bool.and_eq_true, decide_eq_true_eq, bne_iff_ne, ne_eq]
      exact ⟨h.1, memFilter_wf h.2⟩
    · exact memWfFrom_mono (by omega) (memFilter_wf h.2)

theorem memClear_wf {m : Mem} {a x n : Nat} (h : memWfFrom a m = true) : memWfFrom a (memClear m x n) = true := memFilter_wf h

/-- Below the first address of a canonical list nothing is listed. -/
theorem memGet_below {x : Nat} : ∀ {m : Mem} {a : Nat}, memWfFrom a m = true → x < a → memGet m x = 0
  | [], _, _, _ => rfl
  | (k, v) :: r, a, h, hx => by
    simp only [memWfFrom, Bool.and_eq_true, decide_eq_true_eq] at h
    unfold memGet
    rw [if_pos (by omega)]

theorem memGet_memSet {b : Byte} {x y : Nat} : ∀ {m : Mem} {a : Nat}, memWfFrom a m = true →
    memGet (memSet m x b) y = if y = x then b else memGet m y
  | [], a, _ => by
    unfold memSet
    split
    · rename_i hb
      simp [memGet, hb]
    · by_cases hy : y = x
      · simp [memGet, hy]
      · by_cases hl : y < x <;> simp [memGet, hy, hl]
  | (k, v) :: r, a, h => by
    simp only [memWfFrom, Bool.and_eq_true, decide_eq_true_eq, bne_iff_ne, ne_eq] at h
    have ih := memGet_memSet (b := b) (x := x) (y := y) h.2
    have hlow : ∀ z, z ≤ k → memGet r z = 0 := fun z hz => memGet_below h.2 (by omega)
    unfold memSet
    by_cases h1 : x < k
    · rw [if_pos h1]
      by_cases hb : b = 0
      · rw [if_pos hb]
        split
        · rename_i hy
          rw [hy, memGet, if_pos h1, hb]
        · rfl
      · rw [if_neg hb]
        rw [memGet]
        by_cases hy : y = x
        · simp [hy]
        · rw [if_neg hy]
          by_cases hl : y < x
          · rw [if_pos hl, memGet, if_pos (by omega)]
          · rw [if_neg hl]
    · rw [if_neg h1]
      by_cases h2 : x = k
      · rw [if_pos h2]
        subst h2
        by_cases hb : b = 0
        · rw [if_pos hb]
          by_cases hy : y = x
          · rw [if_pos hy, hy, hlow x (by omega), hb]
          · rw [if_neg hy, memGet]
            by_cases hl : y < x
            · rw [if_pos hl, hlow y (by omega)]
            · rw [if_neg hl, if_neg hy]
        · rw [if_neg hb, memGet, memGet]
          by_cases hy : y = x
          · simp [hy]
          · simp [hy]
      · rw [if_neg h2, memGet, ih, memGet]
        by_cases hy : y = x
        · subst hy; simp [h1, h2]
        · simp [hy]

/-! ## DRAM behind its code -/

@[simp] theorem setMem_wf (s : State) (m : Memory) : (s.setMem m).mem.wf = m.wf := rfl

theorem count_mem (s : State) (k c o : Nat) : (s.count k c o).mem = s.mem := rfl

theorem requeue_mem (s : State) (p : Team → Thread → Bool) : (s.requeue p).mem = s.mem := by
  unfold State.requeue; split <;> rfl

/-- A line coded anew keeps its bytes. -/
@[simp] theorem codeLine_dram (m : Memory) (pa st loc : Nat) : (m.codeLine pa st loc).dram = m.dram := by
  unfold Memory.codeLine; split <;> rfl

theorem codeLine_wf {m : Memory} {pa st loc : Nat} (h : m.wf = true) : (m.codeLine pa st loc).wf = true := by
  unfold Memory.wf; rw [codeLine_dram]; exact h

/-- The check of a line corrects it in place at most. -/
theorem checkLine_wf {s : State} {pa st loc : Nat} (h : s.mem.wf = true) : (s.checkLine pa st loc).1.mem.wf = true := by
  unfold State.checkLine
  split
  · exact h
  · simp only
    split
    · exact h
    · split
      · split
        · exact h
        · exact codeLine_wf h
      · split
        · exact memWrite_wf (Nat.zero_le _) (codeLine_wf h)
        · exact h

theorem wakeLine_mem (s : State) (pa : Nat) : (s.wakeLine pa).mem = s.mem := requeue_mem s _

theorem openRow_mem (s : State) (go : Bool) (pa : Nat) : (s.openRow go pa).mem = s.mem := by
  unfold State.openRow; split <;> rfl

theorem freeRange_mem (lo hi : Nat) : ∀ (bs : List Byte) (s : State) (a : Nat), (freeRange s lo hi a bs).1.mem = s.mem
  | [], _, _ => rfl
  | _ :: r, s, a => by
    unfold freeRange
    simp only
    rw [freeRange_mem lo hi r]
    split <;> rfl

theorem blur_mem (s : State) (pa : Nat) (bs : List Byte) : (s.blur pa bs).1.mem = s.mem := by
  unfold State.blur
  split
  · rfl
  · suffices h : ∀ (xs : List (Nat × Nat)) (r : State × List Byte), (xs.foldl (fun (r : State × List Byte) (x : Nat × Nat) =>
        freeRange r.1 (x.1 / 4 * 4) ((x.1 + x.2 + 3) / 4 * 4) pa r.2) r).1.mem = r.1.mem from h _ (s, bs)
    intro xs
    induction xs with
    | nil => intro r; rfl
    | cons x xs ih => intro r; rw [List.foldl_cons, ih, freeRange_mem]

theorem dramLook_wf {s : State} {pa n : Nat} (h : s.mem.wf = true) : (s.dramLook pa n).1.mem.wf = true := by
  unfold State.dramLook
  split
  · exact h
  · rename_i st loc _
    simp only
    split
    · exact h
    · have := @checkLine_wf s pa st loc h
      split
      · exact this
      · rw [blur_mem]; exact this

theorem dramRead_wf {s : State} {pa n : Nat} (h : s.mem.wf = true) : (s.dramRead pa n).1.mem.wf = true := by
  unfold State.dramRead
  simp only [openRow_mem]
  exact dramLook_wf h

theorem makeLive_wf {s : State} {pa st mib : Nat} (h : s.mem.wf = true) : (s.makeLive pa st mib).mem.wf = true := by
  unfold State.makeLive
  split
  · exact memClear_wf h
  · exact h

/-- Pieces of a line put into the bytes of DRAM. -/
theorem putPieces_wf {m : Memory} {ps : List (Nat × List Byte)} (h : m.wf = true) : memWfFrom 0 (putPieces m ps) = true := by
  suffices hs : ∀ (ps : List (Nat × List Byte)) (d : Mem), memWfFrom 0 d = true →
      memWfFrom 0 (ps.foldl (fun (d : Mem) (p : Nat × List Byte) => match dramAt m p.1 with
        | some k => memWrite d k p.2
        | none => d) d) = true from hs ps _ h
  intro ps
  induction ps with
  | nil => intro d hd; exact hd
  | cons p r ih =>
    intro d hd
    refine ih _ ?_
    show memWfFrom 0 (match dramAt m p.1 with
      | some k => memWrite d k p.2
      | none => d) = true
    split
    · exact memWrite_wf (Nat.zero_le _) hd
    · exact hd

theorem lineWrite_wf {s : State} {pa : Nat} {whole : Bool} {ps : List (Nat × List Byte)} (h : s.mem.wf = true) :
    (s.lineWrite pa whole ps).1.mem.wf = true := by
  have put : ∀ (t : State) (st loc : Nat), t.mem.wf = true →
      (((t.setMem ({ t.mem with dram := putPieces t.mem ps }.codeLine pa st loc)).wakeLine pa).openRow true pa).mem.wf = true := by
    intro t st loc ht
    rw [openRow_mem, wakeLine_mem]
    exact codeLine_wf (putPieces_wf ht)
  unfold State.lineWrite
  split
  · exact h
  · rename_i st loc _
    simp only
    split
    · exact put _ st loc (makeLive_wf h)
    · have h1 := @checkLine_wf (s.makeLive pa st (loc / 2 ^ 20)) pa st loc (makeLive_wf h)
      split
      · exact h1
      · exact put _ st loc h1

theorem dramWrite_wf {s : State} {pa : Nat} {bs : List Byte} (h : s.mem.wf = true) : (s.dramWrite pa bs).1.mem.wf = true := lineWrite_wf h

theorem reset_wf : State.reset.mem.wf = true := rfl

end Sys2Proof.Machine
end

