-- ==== Sys2Proof/Laws/Shapes.lean ====
section
/-! SUPPORT. The shape rules of 01 R34 as facts about values: sources that are U hold one value in every lane, and what that gives for
the results of an instruction. -/

namespace Sys2Proof.Machine

open Sys2Proof

theorem shape_at_of_u {v : Shape} (h : v.cls = .u) (l k : Nat) : v.at l = v.at k := by
  cases v <;> simp_all [Shape.cls, Shape.at]

theorem regPlus_zero (r : Reg) : regPlus r 0 = r.toNat := by simp [regPlus]

/-- The words of a source that is U are the same in every lane. -/
theorem words_of_u {w : View} {r : Reg} {n : Nat} (h : w.cls (r, n) = .u) (l k : Nat) : w.words r n l = w.words r n k := by
  unfold View.cls at h
  unfold View.words
  apply List.map_congr_left
  intro i hi
  apply shape_at_of_u
  simp only at h
  split at h
  · rename_i h1
    subst h1
    obtain rfl : i = 0 := by simpa using hi
    rw [regPlus_zero]; exact h
  · split at h
    · rename_i h2
      simpa using List.all_eq_true.mp h2 i hi
    · cases h

/-- One register that is U. -/
theorem reg_of_u {w : View} {r : Reg} (h : w.cls (r, 1) = .u) (l k : Nat) : w.reg r l = w.reg r k := shape_at_of_u (by simpa [View.cls] using h) l k

/-- The tag of the table is U only when every source is, and else G (R34). -/
theorem resTag_table (w : View) (srcs : List (Reg × Nat)) :
    w.resTag .table srcs = if srcs.all fun x => w.cls x == .u then .u else .g := rfl

/-- A result of sources alone meets what the table's tag asks. -/
theorem soundTag_table {w : View} {srcs : List (Reg × Nat)} {n : Nat} {ls : List Nat} {h : Nat → LaneOut}
    (hh : (∀ x ∈ srcs, w.cls x = .u) → ∀ l ∈ ls, ∀ k ∈ ls, (h l).vals = (h k).vals) : soundTag (w.resTag .table srcs) n ls h := by
  rw [resTag_table]
  split
  · rename_i hu
    exact hh fun x hx => by simpa using List.all_eq_true.mp hu x hx
  · trivial

end Sys2Proof.Machine
end

