-- ==== Sys2Proof/Laws/State.lean ====
section
/-! SUPPORT. What each plain update of the state, of a team and of a group does to each field. -/

namespace Sys2Proof.Machine

open Sys2Proof

/-! ## State.modTeam -/

@[simp] theorem State.modTeam_clock (s : State) (i : Nat) (f : Team → Team) : (s.modTeam i f).clock = s.clock := rfl
@[simp] theorem State.modTeam_cores (s : State) (i : Nat) (f : Team → Team) : (s.modTeam i f).cores = s.cores := rfl
@[simp] theorem State.modTeam_baseDies (s : State) (i : Nat) (f : Team → Team) : (s.modTeam i f).baseDies = s.baseDies := rfl
@[simp] theorem State.modTeam_ctxs (s : State) (i : Nat) (f : Team → Team) : (s.modTeam i f).ctxs = s.ctxs := rfl
@[simp] theorem State.modTeam_teams (s : State) (i : Nat) (f : Team → Team) : (s.modTeam i f).teams = modAt f s.teams i := rfl
@[simp] theorem State.modTeam_launches (s : State) (i : Nat) (f : Team → Team) : (s.modTeam i f).launches = s.launches := rfl
@[simp] theorem State.modTeam_nextHandle (s : State) (i : Nat) (f : Team → Team) : (s.modTeam i f).nextHandle = s.nextHandle := rfl
@[simp] theorem State.modTeam_launchOrder (s : State) (i : Nat) (f : Team → Team) : (s.modTeam i f).launchOrder = s.launchOrder := rfl
@[simp] theorem State.modTeam_queues (s : State) (i : Nat) (f : Team → Team) : (s.modTeam i f).queues = s.queues := rfl
@[simp] theorem State.modTeam_tokens (s : State) (i : Nat) (f : Team → Team) : (s.modTeam i f).tokens = s.tokens := rfl
@[simp] theorem State.modTeam_loads (s : State) (i : Nat) (f : Team → Team) : (s.modTeam i f).loads = s.loads := rfl
@[simp] theorem State.modTeam_copies (s : State) (i : Nat) (f : Team → Team) : (s.modTeam i f).copies = s.copies := rfl
@[simp] theorem State.modTeam_landed (s : State) (i : Nat) (f : Team → Team) : (s.modTeam i f).landed = s.landed := rfl
@[simp] theorem State.modTeam_cmds (s : State) (i : Nat) (f : Team → Team) : (s.modTeam i f).cmds = s.cmds := rfl
@[simp] theorem State.modTeam_calls (s : State) (i : Nat) (f : Team → Team) : (s.modTeam i f).calls = s.calls := rfl
@[simp] theorem State.modTeam_links (s : State) (i : Nat) (f : Team → Team) : (s.modTeam i f).links = s.links := rfl
@[simp] theorem State.modTeam_nextId (s : State) (i : Nat) (f : Team → Team) : (s.modTeam i f).nextId = s.nextId := rfl
@[simp] theorem State.modTeam_tests (s : State) (i : Nat) (f : Team → Team) : (s.modTeam i f).tests = s.tests := rfl
@[simp] theorem State.modTeam_mem (s : State) (i : Nat) (f : Team → Team) : (s.modTeam i f).mem = s.mem := rfl
@[simp] theorem State.modTeam_boot (s : State) (i : Nat) (f : Team → Team) : (s.modTeam i f).boot = s.boot := rfl
@[simp] theorem State.modTeam_xchg (s : State) (i : Nat) (f : Team → Team) : (s.modTeam i f).xchg = s.xchg := rfl
@[simp] theorem State.modTeam_plat (s : State) (i : Nat) (f : Team → Team) : (s.modTeam i f).plat = s.plat := rfl
@[simp] theorem State.modTeam_holOut (s : State) (i : Nat) (f : Team → Team) : (s.modTeam i f).holOut = s.holOut := rfl
@[simp] theorem State.modTeam_linkOut (s : State) (i : Nat) (f : Team → Team) : (s.modTeam i f).linkOut = s.linkOut := rfl
@[simp] theorem State.modTeam_stalled (s : State) (i : Nat) (f : Team → Team) : (s.modTeam i f).stalled = s.stalled := rfl
@[simp] theorem State.modTeam_cur (s : State) (i : Nat) (f : Team → Team) : (s.modTeam i f).cur = s.cur := rfl
@[simp] theorem State.modTeam_agenda (s : State) (i : Nat) (f : Team → Team) : (s.modTeam i f).agenda = s.agenda := rfl
@[simp] theorem State.modTeam_turn (s : State) (i : Nat) (f : Team → Team) : (s.modTeam i f).turn = s.turn := rfl
@[simp] theorem State.modTeam_tick (s : State) (i : Nat) (f : Team → Team) : (s.modTeam i f).tick = s.tick := rfl
@[simp] theorem State.modTeam_pace (s : State) (i : Nat) (f : Team → Team) : (s.modTeam i f).pace = s.pace := rfl
@[simp] theorem State.modTeam_freeCtr (s : State) (i : Nat) (f : Team → Team) : (s.modTeam i f).freeCtr = s.freeCtr := rfl
@[simp] theorem State.modTeam_testCtr (s : State) (i : Nat) (f : Team → Team) : (s.modTeam i f).testCtr = s.testCtr := rfl

/-! ## State.modGroup -/

@[simp] theorem State.modGroup_clock (s : State) (t g : Nat) (f : Group → Group) : (s.modGroup t g f).clock = s.clock := rfl
@[simp] theorem State.modGroup_cores (s : State) (t g : Nat) (f : Group → Group) : (s.modGroup t g f).cores = s.cores := rfl
@[simp] theorem State.modGroup_baseDies (s : State) (t g : Nat) (f : Group → Group) : (s.modGroup t g f).baseDies = s.baseDies := rfl
@[simp] theorem State.modGroup_ctxs (s : State) (t g : Nat) (f : Group → Group) : (s.modGroup t g f).ctxs = s.ctxs := rfl
@[simp] theorem State.modGroup_teams (s : State) (t g : Nat) (f : Group → Group) : (s.modGroup t g f).teams = modAt (fun x => x.modGroup g f) s.teams t := rfl
@[simp] theorem State.modGroup_launches (s : State) (t g : Nat) (f : Group → Group) : (s.modGroup t g f).launches = s.launches := rfl
@[simp] theorem State.modGroup_nextHandle (s : State) (t g : Nat) (f : Group → Group) : (s.modGroup t g f).nextHandle = s.nextHandle := rfl
@[simp] theorem State.modGroup_launchOrder (s : State) (t g : Nat) (f : Group → Group) : (s.modGroup t g f).launchOrder = s.launchOrder := rfl
@[simp] theorem State.modGroup_queues (s : State) (t g : Nat) (f : Group → Group) : (s.modGroup t g f).queues = s.queues := rfl
@[simp] theorem State.modGroup_tokens (s : State) (t g : Nat) (f : Group → Group) : (s.modGroup t g f).tokens = s.tokens := rfl
@[simp] theorem State.modGroup_loads (s : State) (t g : Nat) (f : Group → Group) : (s.modGroup t g f).loads = s.loads := rfl
@[simp] theorem State.modGroup_copies (s : State) (t g : Nat) (f : Group → Group) : (s.modGroup t g f).copies = s.copies := rfl
@[simp] theorem State.modGroup_landed (s : State) (t g : Nat) (f : Group → Group) : (s.modGroup t g f).landed = s.landed := rfl
@[simp] theorem State.modGroup_cmds (s : State) (t g : Nat) (f : Group → Group) : (s.modGroup t g f).cmds = s.cmds := rfl
@[simp] theorem State.modGroup_calls (s : State) (t g : Nat) (f : Group → Group) : (s.modGroup t g f).calls = s.calls := rfl
@[simp] theorem State.modGroup_links (s : State) (t g : Nat) (f : Group → Group) : (s.modGroup t g f).links = s.links := rfl
@[simp] theorem State.modGroup_nextId (s : State) (t g : Nat) (f : Group → Group) : (s.modGroup t g f).nextId = s.nextId := rfl
@[simp] theorem State.modGroup_tests (s : State) (t g : Nat) (f : Group → Group) : (s.modGroup t g f).tests = s.tests := rfl
@[simp] theorem State.modGroup_mem (s : State) (t g : Nat) (f : Group → Group) : (s.modGroup t g f).mem = s.mem := rfl
@[simp] theorem State.modGroup_boot (s : State) (t g : Nat) (f : Group → Group) : (s.modGroup t g f).boot = s.boot := rfl
@[simp] theorem State.modGroup_xchg (s : State) (t g : Nat) (f : Group → Group) : (s.modGroup t g f).xchg = s.xchg := rfl
@[simp] theorem State.modGroup_plat (s : State) (t g : Nat) (f : Group → Group) : (s.modGroup t g f).plat = s.plat := rfl
@[simp] theorem State.modGroup_holOut (s : State) (t g : Nat) (f : Group → Group) : (s.modGroup t g f).holOut = s.holOut := rfl
@[simp] theorem State.modGroup_linkOut (s : State) (t g : Nat) (f : Group → Group) : (s.modGroup t g f).linkOut = s.linkOut := rfl
@[simp] theorem State.modGroup_stalled (s : State) (t g : Nat) (f : Group → Group) : (s.modGroup t g f).stalled = s.stalled := rfl
@[simp] theorem State.modGroup_cur (s : State) (t g : Nat) (f : Group → Group) : (s.modGroup t g f).cur = s.cur := rfl
@[simp] theorem State.modGroup_agenda (s : State) (t g : Nat) (f : Group → Group) : (s.modGroup t g f).agenda = s.agenda := rfl
@[simp] theorem State.modGroup_turn (s : State) (t g : Nat) (f : Group → Group) : (s.modGroup t g f).turn = s.turn := rfl
@[simp] theorem State.modGroup_tick (s : State) (t g : Nat) (f : Group → Group) : (s.modGroup t g f).tick = s.tick := rfl
@[simp] theorem State.modGroup_pace (s : State) (t g : Nat) (f : Group → Group) : (s.modGroup t g f).pace = s.pace := rfl
@[simp] theorem State.modGroup_freeCtr (s : State) (t g : Nat) (f : Group → Group) : (s.modGroup t g f).freeCtr = s.freeCtr := rfl
@[simp] theorem State.modGroup_testCtr (s : State) (t g : Nat) (f : Group → Group) : (s.modGroup t g f).testCtr = s.testCtr := rfl

/-! ## State.modThread -/

@[simp] theorem State.modThread_clock (s : State) (t g l : Nat) (f : Thread → Thread) : (s.modThread t g l f).clock = s.clock := rfl
@[simp] theorem State.modThread_cores (s : State) (t g l : Nat) (f : Thread → Thread) : (s.modThread t g l f).cores = s.cores := rfl
@[simp] theorem State.modThread_baseDies (s : State) (t g l : Nat) (f : Thread → Thread) : (s.modThread t g l f).baseDies = s.baseDies := rfl
@[simp] theorem State.modThread_ctxs (s : State) (t g l : Nat) (f : Thread → Thread) : (s.modThread t g l f).ctxs = s.ctxs := rfl
@[simp] theorem State.modThread_teams (s : State) (t g l : Nat) (f : Thread → Thread) : (s.modThread t g l f).teams = modAt (fun x => x.modGroup g fun y => y.modThread l f) s.teams t := rfl
@[simp] theorem State.modThread_launches (s : State) (t g l : Nat) (f : Thread → Thread) : (s.modThread t g l f).launches = s.launches := rfl
@[simp] theorem State.modThread_nextHandle (s : State) (t g l : Nat) (f : Thread → Thread) : (s.modThread t g l f).nextHandle = s.nextHandle := rfl
@[simp] theorem State.modThread_launchOrder (s : State) (t g l : Nat) (f : Thread → Thread) : (s.modThread t g l f).launchOrder = s.launchOrder := rfl
@[simp] theorem State.modThread_queues (s : State) (t g l : Nat) (f : Thread → Thread) : (s.modThread t g l f).queues = s.queues := rfl
@[simp] theorem State.modThread_tokens (s : State) (t g l : Nat) (f : Thread → Thread) : (s.modThread t g l f).tokens = s.tokens := rfl
@[simp] theorem State.modThread_loads (s : State) (t g l : Nat) (f : Thread → Thread) : (s.modThread t g l f).loads = s.loads := rfl
@[simp] theorem State.modThread_copies (s : State) (t g l : Nat) (f : Thread → Thread) : (s.modThread t g l f).copies = s.copies := rfl
@[simp] theorem State.modThread_landed (s : State) (t g l : Nat) (f : Thread → Thread) : (s.modThread t g l f).landed = s.landed := rfl
@[simp] theorem State.modThread_cmds (s : State) (t g l : Nat) (f : Thread → Thread) : (s.modThread t g l f).cmds = s.cmds := rfl
@[simp] theorem State.modThread_calls (s : State) (t g l : Nat) (f : Thread → Thread) : (s.modThread t g l f).calls = s.calls := rfl
@[simp] theorem State.modThread_links (s : State) (t g l : Nat) (f : Thread → Thread) : (s.modThread t g l f).links = s.links := rfl
@[simp] theorem State.modThread_nextId (s : State) (t g l : Nat) (f : Thread → Thread) : (s.modThread t g l f).nextId = s.nextId := rfl
@[simp] theorem State.modThread_tests (s : State) (t g l : Nat) (f : Thread → Thread) : (s.modThread t g l f).tests = s.tests := rfl
@[simp] theorem State.modThread_mem (s : State) (t g l : Nat) (f : Thread → Thread) : (s.modThread t g l f).mem = s.mem := rfl
@[simp] theorem State.modThread_boot (s : State) (t g l : Nat) (f : Thread → Thread) : (s.modThread t g l f).boot = s.boot := rfl
@[simp] theorem State.modThread_xchg (s : State) (t g l : Nat) (f : Thread → Thread) : (s.modThread t g l f).xchg = s.xchg := rfl
@[simp] theorem State.modThread_plat (s : State) (t g l : Nat) (f : Thread → Thread) : (s.modThread t g l f).plat = s.plat := rfl
@[simp] theorem State.modThread_holOut (s : State) (t g l : Nat) (f : Thread → Thread) : (s.modThread t g l f).holOut = s.holOut := rfl
@[simp] theorem State.modThread_linkOut (s : State) (t g l : Nat) (f : Thread → Thread) : (s.modThread t g l f).linkOut = s.linkOut := rfl
@[simp] theorem State.modThread_stalled (s : State) (t g l : Nat) (f : Thread → Thread) : (s.modThread t g l f).stalled = s.stalled := rfl
@[simp] theorem State.modThread_cur (s : State) (t g l : Nat) (f : Thread → Thread) : (s.modThread t g l f).cur = s.cur := rfl
@[simp] theorem State.modThread_agenda (s : State) (t g l : Nat) (f : Thread → Thread) : (s.modThread t g l f).agenda = s.agenda := rfl
@[simp] theorem State.modThread_turn (s : State) (t g l : Nat) (f : Thread → Thread) : (s.modThread t g l f).turn = s.turn := rfl
@[simp] theorem State.modThread_tick (s : State) (t g l : Nat) (f : Thread → Thread) : (s.modThread t g l f).tick = s.tick := rfl
@[simp] theorem State.modThread_pace (s : State) (t g l : Nat) (f : Thread → Thread) : (s.modThread t g l f).pace = s.pace := rfl
@[simp] theorem State.modThread_freeCtr (s : State) (t g l : Nat) (f : Thread → Thread) : (s.modThread t g l f).freeCtr = s.freeCtr := rfl
@[simp] theorem State.modThread_testCtr (s : State) (t g l : Nat) (f : Thread → Thread) : (s.modThread t g l f).testCtr = s.testCtr := rfl

/-! ## State.modStack -/

@[simp] theorem State.modStack_clock (s : State) (i : Nat) (f : Stack → Stack) : (s.modStack i f).clock = s.clock := rfl
@[simp] theorem State.modStack_cores (s : State) (i : Nat) (f : Stack → Stack) : (s.modStack i f).cores = s.cores := rfl
@[simp] theorem State.modStack_baseDies (s : State) (i : Nat) (f : Stack → Stack) : (s.modStack i f).baseDies = modAt f s.baseDies i := rfl
@[simp] theorem State.modStack_ctxs (s : State) (i : Nat) (f : Stack → Stack) : (s.modStack i f).ctxs = s.ctxs := rfl
@[simp] theorem State.modStack_teams (s : State) (i : Nat) (f : Stack → Stack) : (s.modStack i f).teams = s.teams := rfl
@[simp] theorem State.modStack_launches (s : State) (i : Nat) (f : Stack → Stack) : (s.modStack i f).launches = s.launches := rfl
@[simp] theorem State.modStack_nextHandle (s : State) (i : Nat) (f : Stack → Stack) : (s.modStack i f).nextHandle = s.nextHandle := rfl
@[simp] theorem State.modStack_launchOrder (s : State) (i : Nat) (f : Stack → Stack) : (s.modStack i f).launchOrder = s.launchOrder := rfl
@[simp] theorem State.modStack_queues (s : State) (i : Nat) (f : Stack → Stack) : (s.modStack i f).queues = s.queues := rfl
@[simp] theorem State.modStack_tokens (s : State) (i : Nat) (f : Stack → Stack) : (s.modStack i f).tokens = s.tokens := rfl
@[simp] theorem State.modStack_loads (s : State) (i : Nat) (f : Stack → Stack) : (s.modStack i f).loads = s.loads := rfl
@[simp] theorem State.modStack_copies (s : State) (i : Nat) (f : Stack → Stack) : (s.modStack i f).copies = s.copies := rfl
@[simp] theorem State.modStack_landed (s : State) (i : Nat) (f : Stack → Stack) : (s.modStack i f).landed = s.landed := rfl
@[simp] theorem State.modStack_cmds (s : State) (i : Nat) (f : Stack → Stack) : (s.modStack i f).cmds = s.cmds := rfl
@[simp] theorem State.modStack_calls (s : State) (i : Nat) (f : Stack → Stack) : (s.modStack i f).calls = s.calls := rfl
@[simp] theorem State.modStack_links (s : State) (i : Nat) (f : Stack → Stack) : (s.modStack i f).links = s.links := rfl
@[simp] theorem State.modStack_nextId (s : State) (i : Nat) (f : Stack → Stack) : (s.modStack i f).nextId = s.nextId := rfl
@[simp] theorem State.modStack_tests (s : State) (i : Nat) (f : Stack → Stack) : (s.modStack i f).tests = s.tests := rfl
@[simp] theorem State.modStack_mem (s : State) (i : Nat) (f : Stack → Stack) : (s.modStack i f).mem = s.mem := rfl
@[simp] theorem State.modStack_boot (s : State) (i : Nat) (f : Stack → Stack) : (s.modStack i f).boot = s.boot := rfl
@[simp] theorem State.modStack_xchg (s : State) (i : Nat) (f : Stack → Stack) : (s.modStack i f).xchg = s.xchg := rfl
@[simp] theorem State.modStack_plat (s : State) (i : Nat) (f : Stack → Stack) : (s.modStack i f).plat = s.plat := rfl
@[simp] theorem State.modStack_holOut (s : State) (i : Nat) (f : Stack → Stack) : (s.modStack i f).holOut = s.holOut := rfl
@[simp] theorem State.modStack_linkOut (s : State) (i : Nat) (f : Stack → Stack) : (s.modStack i f).linkOut = s.linkOut := rfl
@[simp] theorem State.modStack_stalled (s : State) (i : Nat) (f : Stack → Stack) : (s.modStack i f).stalled = s.stalled := rfl
@[simp] theorem State.modStack_cur (s : State) (i : Nat) (f : Stack → Stack) : (s.modStack i f).cur = s.cur := rfl
@[simp] theorem State.modStack_agenda (s : State) (i : Nat) (f : Stack → Stack) : (s.modStack i f).agenda = s.agenda := rfl
@[simp] theorem State.modStack_turn (s : State) (i : Nat) (f : Stack → Stack) : (s.modStack i f).turn = s.turn := rfl
@[simp] theorem State.modStack_tick (s : State) (i : Nat) (f : Stack → Stack) : (s.modStack i f).tick = s.tick := rfl
@[simp] theorem State.modStack_pace (s : State) (i : Nat) (f : Stack → Stack) : (s.modStack i f).pace = s.pace := rfl
@[simp] theorem State.modStack_freeCtr (s : State) (i : Nat) (f : Stack → Stack) : (s.modStack i f).freeCtr = s.freeCtr := rfl
@[simp] theorem State.modStack_testCtr (s : State) (i : Nat) (f : Stack → Stack) : (s.modStack i f).testCtr = s.testCtr := rfl

/-! ## State.modCore -/

@[simp] theorem State.modCore_clock (s : State) (i : Nat) (f : Core → Core) : (s.modCore i f).clock = s.clock := rfl
@[simp] theorem State.modCore_cores (s : State) (i : Nat) (f : Core → Core) : (s.modCore i f).cores = modAt f s.cores i := rfl
@[simp] theorem State.modCore_baseDies (s : State) (i : Nat) (f : Core → Core) : (s.modCore i f).baseDies = s.baseDies := rfl
@[simp] theorem State.modCore_ctxs (s : State) (i : Nat) (f : Core → Core) : (s.modCore i f).ctxs = s.ctxs := rfl
@[simp] theorem State.modCore_teams (s : State) (i : Nat) (f : Core → Core) : (s.modCore i f).teams = s.teams := rfl
@[simp] theorem State.modCore_launches (s : State) (i : Nat) (f : Core → Core) : (s.modCore i f).launches = s.launches := rfl
@[simp] theorem State.modCore_nextHandle (s : State) (i : Nat) (f : Core → Core) : (s.modCore i f).nextHandle = s.nextHandle := rfl
@[simp] theorem State.modCore_launchOrder (s : State) (i : Nat) (f : Core → Core) : (s.modCore i f).launchOrder = s.launchOrder := rfl
@[simp] theorem State.modCore_queues (s : State) (i : Nat) (f : Core → Core) : (s.modCore i f).queues = s.queues := rfl
@[simp] theorem State.modCore_tokens (s : State) (i : Nat) (f : Core → Core) : (s.modCore i f).tokens = s.tokens := rfl
@[simp] theorem State.modCore_loads (s : State) (i : Nat) (f : Core → Core) : (s.modCore i f).loads = s.loads := rfl
@[simp] theorem State.modCore_copies (s : State) (i : Nat) (f : Core → Core) : (s.modCore i f).copies = s.copies := rfl
@[simp] theorem State.modCore_landed (s : State) (i : Nat) (f : Core → Core) : (s.modCore i f).landed = s.landed := rfl
@[simp] theorem State.modCore_cmds (s : State) (i : Nat) (f : Core → Core) : (s.modCore i f).cmds = s.cmds := rfl
@[simp] theorem State.modCore_calls (s : State) (i : Nat) (f : Core → Core) : (s.modCore i f).calls = s.calls := rfl
@[simp] theorem State.modCore_links (s : State) (i : Nat) (f : Core → Core) : (s.modCore i f).links = s.links := rfl
@[simp] theorem State.modCore_nextId (s : State) (i : Nat) (f : Core → Core) : (s.modCore i f).nextId = s.nextId := rfl
@[simp] theorem State.modCore_tests (s : State) (i : Nat) (f : Core → Core) : (s.modCore i f).tests = s.tests := rfl
@[simp] theorem State.modCore_mem (s : State) (i : Nat) (f : Core → Core) : (s.modCore i f).mem = s.mem := rfl
@[simp] theorem State.modCore_boot (s : State) (i : Nat) (f : Core → Core) : (s.modCore i f).boot = s.boot := rfl
@[simp] theorem State.modCore_xchg (s : State) (i : Nat) (f : Core → Core) : (s.modCore i f).xchg = s.xchg := rfl
@[simp] theorem State.modCore_plat (s : State) (i : Nat) (f : Core → Core) : (s.modCore i f).plat = s.plat := rfl
@[simp] theorem State.modCore_holOut (s : State) (i : Nat) (f : Core → Core) : (s.modCore i f).holOut = s.holOut := rfl
@[simp] theorem State.modCore_linkOut (s : State) (i : Nat) (f : Core → Core) : (s.modCore i f).linkOut = s.linkOut := rfl
@[simp] theorem State.modCore_stalled (s : State) (i : Nat) (f : Core → Core) : (s.modCore i f).stalled = s.stalled := rfl
@[simp] theorem State.modCore_cur (s : State) (i : Nat) (f : Core → Core) : (s.modCore i f).cur = s.cur := rfl
@[simp] theorem State.modCore_agenda (s : State) (i : Nat) (f : Core → Core) : (s.modCore i f).agenda = s.agenda := rfl
@[simp] theorem State.modCore_turn (s : State) (i : Nat) (f : Core → Core) : (s.modCore i f).turn = s.turn := rfl
@[simp] theorem State.modCore_tick (s : State) (i : Nat) (f : Core → Core) : (s.modCore i f).tick = s.tick := rfl
@[simp] theorem State.modCore_pace (s : State) (i : Nat) (f : Core → Core) : (s.modCore i f).pace = s.pace := rfl
@[simp] theorem State.modCore_freeCtr (s : State) (i : Nat) (f : Core → Core) : (s.modCore i f).freeCtr = s.freeCtr := rfl
@[simp] theorem State.modCore_testCtr (s : State) (i : Nat) (f : Core → Core) : (s.modCore i f).testCtr = s.testCtr := rfl

/-! ## State.modCtx -/

@[simp] theorem State.modCtx_clock (s : State) (i : Nat) (f : Ctx → Ctx) : (s.modCtx i f).clock = s.clock := rfl
@[simp] theorem State.modCtx_cores (s : State) (i : Nat) (f : Ctx → Ctx) : (s.modCtx i f).cores = s.cores := rfl
@[simp] theorem State.modCtx_baseDies (s : State) (i : Nat) (f : Ctx → Ctx) : (s.modCtx i f).baseDies = s.baseDies := rfl
@[simp] theorem State.modCtx_ctxs (s : State) (i : Nat) (f : Ctx → Ctx) : (s.modCtx i f).ctxs = s.ctxs.map fun c => if c.id == i then f c else c := rfl
@[simp] theorem State.modCtx_teams (s : State) (i : Nat) (f : Ctx → Ctx) : (s.modCtx i f).teams = s.teams := rfl
@[simp] theorem State.modCtx_launches (s : State) (i : Nat) (f : Ctx → Ctx) : (s.modCtx i f).launches = s.launches := rfl
@[simp] theorem State.modCtx_nextHandle (s : State) (i : Nat) (f : Ctx → Ctx) : (s.modCtx i f).nextHandle = s.nextHandle := rfl
@[simp] theorem State.modCtx_launchOrder (s : State) (i : Nat) (f : Ctx → Ctx) : (s.modCtx i f).launchOrder = s.launchOrder := rfl
@[simp] theorem State.modCtx_queues (s : State) (i : Nat) (f : Ctx → Ctx) : (s.modCtx i f).queues = s.queues := rfl
@[simp] theorem State.modCtx_tokens (s : State) (i : Nat) (f : Ctx → Ctx) : (s.modCtx i f).tokens = s.tokens := rfl
@[simp] theorem State.modCtx_loads (s : State) (i : Nat) (f : Ctx → Ctx) : (s.modCtx i f).loads = s.loads := rfl
@[simp] theorem State.modCtx_copies (s : State) (i : Nat) (f : Ctx → Ctx) : (s.modCtx i f).copies = s.copies := rfl
@[simp] theorem State.modCtx_landed (s : State) (i : Nat) (f : Ctx → Ctx) : (s.modCtx i f).landed = s.landed := rfl
@[simp] theorem State.modCtx_cmds (s : State) (i : Nat) (f : Ctx → Ctx) : (s.modCtx i f).cmds = s.cmds := rfl
@[simp] theorem State.modCtx_calls (s : State) (i : Nat) (f : Ctx → Ctx) : (s.modCtx i f).calls = s.calls := rfl
@[simp] theorem State.modCtx_links (s : State) (i : Nat) (f : Ctx → Ctx) : (s.modCtx i f).links = s.links := rfl
@[simp] theorem State.modCtx_nextId (s : State) (i : Nat) (f : Ctx → Ctx) : (s.modCtx i f).nextId = s.nextId := rfl
@[simp] theorem State.modCtx_tests (s : State) (i : Nat) (f : Ctx → Ctx) : (s.modCtx i f).tests = s.tests := rfl
@[simp] theorem State.modCtx_mem (s : State) (i : Nat) (f : Ctx → Ctx) : (s.modCtx i f).mem = s.mem := rfl
@[simp] theorem State.modCtx_boot (s : State) (i : Nat) (f : Ctx → Ctx) : (s.modCtx i f).boot = s.boot := rfl
@[simp] theorem State.modCtx_xchg (s : State) (i : Nat) (f : Ctx → Ctx) : (s.modCtx i f).xchg = s.xchg := rfl
@[simp] theorem State.modCtx_plat (s : State) (i : Nat) (f : Ctx → Ctx) : (s.modCtx i f).plat = s.plat := rfl
@[simp] theorem State.modCtx_holOut (s : State) (i : Nat) (f : Ctx → Ctx) : (s.modCtx i f).holOut = s.holOut := rfl
@[simp] theorem State.modCtx_linkOut (s : State) (i : Nat) (f : Ctx → Ctx) : (s.modCtx i f).linkOut = s.linkOut := rfl
@[simp] theorem State.modCtx_stalled (s : State) (i : Nat) (f : Ctx → Ctx) : (s.modCtx i f).stalled = s.stalled := rfl
@[simp] theorem State.modCtx_cur (s : State) (i : Nat) (f : Ctx → Ctx) : (s.modCtx i f).cur = s.cur := rfl
@[simp] theorem State.modCtx_agenda (s : State) (i : Nat) (f : Ctx → Ctx) : (s.modCtx i f).agenda = s.agenda := rfl
@[simp] theorem State.modCtx_turn (s : State) (i : Nat) (f : Ctx → Ctx) : (s.modCtx i f).turn = s.turn := rfl
@[simp] theorem State.modCtx_tick (s : State) (i : Nat) (f : Ctx → Ctx) : (s.modCtx i f).tick = s.tick := rfl
@[simp] theorem State.modCtx_pace (s : State) (i : Nat) (f : Ctx → Ctx) : (s.modCtx i f).pace = s.pace := rfl
@[simp] theorem State.modCtx_freeCtr (s : State) (i : Nat) (f : Ctx → Ctx) : (s.modCtx i f).freeCtr = s.freeCtr := rfl
@[simp] theorem State.modCtx_testCtr (s : State) (i : Nat) (f : Ctx → Ctx) : (s.modCtx i f).testCtr = s.testCtr := rfl

/-! ## State.signalAll -/

@[simp] theorem State.signalAll_clock (s : State) : (s.signalAll).clock = s.clock := rfl
@[simp] theorem State.signalAll_cores (s : State) : (s.signalAll).cores = s.cores := rfl
@[simp] theorem State.signalAll_baseDies (s : State) : (s.signalAll).baseDies = s.baseDies := rfl
@[simp] theorem State.signalAll_ctxs (s : State) : (s.signalAll).ctxs = s.ctxs.map fun c => { c with watchdog := s.clock } := rfl
@[simp] theorem State.signalAll_teams (s : State) : (s.signalAll).teams = s.teams := rfl
@[simp] theorem State.signalAll_launches (s : State) : (s.signalAll).launches = s.launches := rfl
@[simp] theorem State.signalAll_nextHandle (s : State) : (s.signalAll).nextHandle = s.nextHandle := rfl
@[simp] theorem State.signalAll_launchOrder (s : State) : (s.signalAll).launchOrder = s.launchOrder := rfl
@[simp] theorem State.signalAll_queues (s : State) : (s.signalAll).queues = s.queues := rfl
@[simp] theorem State.signalAll_tokens (s : State) : (s.signalAll).tokens = s.tokens := rfl
@[simp] theorem State.signalAll_loads (s : State) : (s.signalAll).loads = s.loads := rfl
@[simp] theorem State.signalAll_copies (s : State) : (s.signalAll).copies = s.copies := rfl
@[simp] theorem State.signalAll_landed (s : State) : (s.signalAll).landed = s.landed := rfl
@[simp] theorem State.signalAll_cmds (s : State) : (s.signalAll).cmds = s.cmds := rfl
@[simp] theorem State.signalAll_calls (s : State) : (s.signalAll).calls = s.calls := rfl
@[simp] theorem State.signalAll_links (s : State) : (s.signalAll).links = s.links := rfl
@[simp] theorem State.signalAll_nextId (s : State) : (s.signalAll).nextId = s.nextId := rfl
@[simp] theorem State.signalAll_tests (s : State) : (s.signalAll).tests = s.tests := rfl
@[simp] theorem State.signalAll_mem (s : State) : (s.signalAll).mem = s.mem := rfl
@[simp] theorem State.signalAll_boot (s : State) : (s.signalAll).boot = s.boot := rfl
@[simp] theorem State.signalAll_xchg (s : State) : (s.signalAll).xchg = s.xchg := rfl
@[simp] theorem State.signalAll_plat (s : State) : (s.signalAll).plat = s.plat := rfl
@[simp] theorem State.signalAll_holOut (s : State) : (s.signalAll).holOut = s.holOut := rfl
@[simp] theorem State.signalAll_linkOut (s : State) : (s.signalAll).linkOut = s.linkOut := rfl
@[simp] theorem State.signalAll_stalled (s : State) : (s.signalAll).stalled = s.stalled := rfl
@[simp] theorem State.signalAll_cur (s : State) : (s.signalAll).cur = s.cur := rfl
@[simp] theorem State.signalAll_agenda (s : State) : (s.signalAll).agenda = s.agenda := rfl
@[simp] theorem State.signalAll_turn (s : State) : (s.signalAll).turn = s.turn := rfl
@[simp] theorem State.signalAll_tick (s : State) : (s.signalAll).tick = s.tick := rfl
@[simp] theorem State.signalAll_pace (s : State) : (s.signalAll).pace = s.pace := rfl
@[simp] theorem State.signalAll_freeCtr (s : State) : (s.signalAll).freeCtr = s.freeCtr := rfl
@[simp] theorem State.signalAll_testCtr (s : State) : (s.signalAll).testCtr = s.testCtr := rfl

/-! ## State.setMem -/

@[simp] theorem State.setMem_clock (s : State) (m : Memory) : (s.setMem m).clock = s.clock := rfl
@[simp] theorem State.setMem_cores (s : State) (m : Memory) : (s.setMem m).cores = s.cores := rfl
@[simp] theorem State.setMem_baseDies (s : State) (m : Memory) : (s.setMem m).baseDies = s.baseDies := rfl
@[simp] theorem State.setMem_ctxs (s : State) (m : Memory) : (s.setMem m).ctxs = s.ctxs := rfl
@[simp] theorem State.setMem_teams (s : State) (m : Memory) : (s.setMem m).teams = s.teams := rfl
@[simp] theorem State.setMem_launches (s : State) (m : Memory) : (s.setMem m).launches = s.launches := rfl
@[simp] theorem State.setMem_nextHandle (s : State) (m : Memory) : (s.setMem m).nextHandle = s.nextHandle := rfl
@[simp] theorem State.setMem_launchOrder (s : State) (m : Memory) : (s.setMem m).launchOrder = s.launchOrder := rfl
@[simp] theorem State.setMem_queues (s : State) (m : Memory) : (s.setMem m).queues = s.queues := rfl
@[simp] theorem State.setMem_tokens (s : State) (m : Memory) : (s.setMem m).tokens = s.tokens := rfl
@[simp] theorem State.setMem_loads (s : State) (m : Memory) : (s.setMem m).loads = s.loads := rfl
@[simp] theorem State.setMem_copies (s : State) (m : Memory) : (s.setMem m).copies = s.copies := rfl
@[simp] theorem State.setMem_landed (s : State) (m : Memory) : (s.setMem m).landed = s.landed := rfl
@[simp] theorem State.setMem_cmds (s : State) (m : Memory) : (s.setMem m).cmds = s.cmds := rfl
@[simp] theorem State.setMem_calls (s : State) (m : Memory) : (s.setMem m).calls = s.calls := rfl
@[simp] theorem State.setMem_links (s : State) (m : Memory) : (s.setMem m).links = s.links := rfl
@[simp] theorem State.setMem_nextId (s : State) (m : Memory) : (s.setMem m).nextId = s.nextId := rfl
@[simp] theorem State.setMem_tests (s : State) (m : Memory) : (s.setMem m).tests = s.tests := rfl
@[simp] theorem State.setMem_mem (s : State) (m : Memory) : (s.setMem m).mem = m := rfl
@[simp] theorem State.setMem_boot (s : State) (m : Memory) : (s.setMem m).boot = s.boot := rfl
@[simp] theorem State.setMem_xchg (s : State) (m : Memory) : (s.setMem m).xchg = s.xchg := rfl
@[simp] theorem State.setMem_plat (s : State) (m : Memory) : (s.setMem m).plat = s.plat := rfl
@[simp] theorem State.setMem_holOut (s : State) (m : Memory) : (s.setMem m).holOut = s.holOut := rfl
@[simp] theorem State.setMem_linkOut (s : State) (m : Memory) : (s.setMem m).linkOut = s.linkOut := rfl
@[simp] theorem State.setMem_stalled (s : State) (m : Memory) : (s.setMem m).stalled = s.stalled := rfl
@[simp] theorem State.setMem_cur (s : State) (m : Memory) : (s.setMem m).cur = s.cur := rfl
@[simp] theorem State.setMem_agenda (s : State) (m : Memory) : (s.setMem m).agenda = s.agenda := rfl
@[simp] theorem State.setMem_turn (s : State) (m : Memory) : (s.setMem m).turn = s.turn := rfl
@[simp] theorem State.setMem_tick (s : State) (m : Memory) : (s.setMem m).tick = s.tick := rfl
@[simp] theorem State.setMem_pace (s : State) (m : Memory) : (s.setMem m).pace = s.pace := rfl
@[simp] theorem State.setMem_freeCtr (s : State) (m : Memory) : (s.setMem m).freeCtr = s.freeCtr := rfl
@[simp] theorem State.setMem_testCtr (s : State) (m : Memory) : (s.setMem m).testCtr = s.testCtr := rfl

/-! ## State.modBoot -/

@[simp] theorem State.modBoot_clock (s : State) (f : Boot → Boot) : (s.modBoot f).clock = s.clock := rfl
@[simp] theorem State.modBoot_cores (s : State) (f : Boot → Boot) : (s.modBoot f).cores = s.cores := rfl
@[simp] theorem State.modBoot_baseDies (s : State) (f : Boot → Boot) : (s.modBoot f).baseDies = s.baseDies := rfl
@[simp] theorem State.modBoot_ctxs (s : State) (f : Boot → Boot) : (s.modBoot f).ctxs = s.ctxs := rfl
@[simp] theorem State.modBoot_teams (s : State) (f : Boot → Boot) : (s.modBoot f).teams = s.teams := rfl
@[simp] theorem State.modBoot_launches (s : State) (f : Boot → Boot) : (s.modBoot f).launches = s.launches := rfl
@[simp] theorem State.modBoot_nextHandle (s : State) (f : Boot → Boot) : (s.modBoot f).nextHandle = s.nextHandle := rfl
@[simp] theorem State.modBoot_launchOrder (s : State) (f : Boot → Boot) : (s.modBoot f).launchOrder = s.launchOrder := rfl
@[simp] theorem State.modBoot_queues (s : State) (f : Boot → Boot) : (s.modBoot f).queues = s.queues := rfl
@[simp] theorem State.modBoot_tokens (s : State) (f : Boot → Boot) : (s.modBoot f).tokens = s.tokens := rfl
@[simp] theorem State.modBoot_loads (s : State) (f : Boot → Boot) : (s.modBoot f).loads = s.loads := rfl
@[simp] theorem State.modBoot_copies (s : State) (f : Boot → Boot) : (s.modBoot f).copies = s.copies := rfl
@[simp] theorem State.modBoot_landed (s : State) (f : Boot → Boot) : (s.modBoot f).landed = s.landed := rfl
@[simp] theorem State.modBoot_cmds (s : State) (f : Boot → Boot) : (s.modBoot f).cmds = s.cmds := rfl
@[simp] theorem State.modBoot_calls (s : State) (f : Boot → Boot) : (s.modBoot f).calls = s.calls := rfl
@[simp] theorem State.modBoot_links (s : State) (f : Boot → Boot) : (s.modBoot f).links = s.links := rfl
@[simp] theorem State.modBoot_nextId (s : State) (f : Boot → Boot) : (s.modBoot f).nextId = s.nextId := rfl
@[simp] theorem State.modBoot_tests (s : State) (f : Boot → Boot) : (s.modBoot f).tests = s.tests := rfl
@[simp] theorem State.modBoot_mem (s : State) (f : Boot → Boot) : (s.modBoot f).mem = s.mem := rfl
@[simp] theorem State.modBoot_boot (s : State) (f : Boot → Boot) : (s.modBoot f).boot = f s.boot := rfl
@[simp] theorem State.modBoot_xchg (s : State) (f : Boot → Boot) : (s.modBoot f).xchg = s.xchg := rfl
@[simp] theorem State.modBoot_plat (s : State) (f : Boot → Boot) : (s.modBoot f).plat = s.plat := rfl
@[simp] theorem State.modBoot_holOut (s : State) (f : Boot → Boot) : (s.modBoot f).holOut = s.holOut := rfl
@[simp] theorem State.modBoot_linkOut (s : State) (f : Boot → Boot) : (s.modBoot f).linkOut = s.linkOut := rfl
@[simp] theorem State.modBoot_stalled (s : State) (f : Boot → Boot) : (s.modBoot f).stalled = s.stalled := rfl
@[simp] theorem State.modBoot_cur (s : State) (f : Boot → Boot) : (s.modBoot f).cur = s.cur := rfl
@[simp] theorem State.modBoot_agenda (s : State) (f : Boot → Boot) : (s.modBoot f).agenda = s.agenda := rfl
@[simp] theorem State.modBoot_turn (s : State) (f : Boot → Boot) : (s.modBoot f).turn = s.turn := rfl
@[simp] theorem State.modBoot_tick (s : State) (f : Boot → Boot) : (s.modBoot f).tick = s.tick := rfl
@[simp] theorem State.modBoot_pace (s : State) (f : Boot → Boot) : (s.modBoot f).pace = s.pace := rfl
@[simp] theorem State.modBoot_freeCtr (s : State) (f : Boot → Boot) : (s.modBoot f).freeCtr = s.freeCtr := rfl
@[simp] theorem State.modBoot_testCtr (s : State) (f : Boot → Boot) : (s.modBoot f).testCtr = s.testCtr := rfl

/-! ## State.modPlat -/

@[simp] theorem State.modPlat_clock (s : State) (f : Platform → Platform) : (s.modPlat f).clock = s.clock := rfl
@[simp] theorem State.modPlat_cores (s : State) (f : Platform → Platform) : (s.modPlat f).cores = s.cores := rfl
@[simp] theorem State.modPlat_baseDies (s : State) (f : Platform → Platform) : (s.modPlat f).baseDies = s.baseDies := rfl
@[simp] theorem State.modPlat_ctxs (s : State) (f : Platform → Platform) : (s.modPlat f).ctxs = s.ctxs := rfl
@[simp] theorem State.modPlat_teams (s : State) (f : Platform → Platform) : (s.modPlat f).teams = s.teams := rfl
@[simp] theorem State.modPlat_launches (s : State) (f : Platform → Platform) : (s.modPlat f).launches = s.launches := rfl
@[simp] theorem State.modPlat_nextHandle (s : State) (f : Platform → Platform) : (s.modPlat f).nextHandle = s.nextHandle := rfl
@[simp] theorem State.modPlat_launchOrder (s : State) (f : Platform → Platform) : (s.modPlat f).launchOrder = s.launchOrder := rfl
@[simp] theorem State.modPlat_queues (s : State) (f : Platform → Platform) : (s.modPlat f).queues = s.queues := rfl
@[simp] theorem State.modPlat_tokens (s : State) (f : Platform → Platform) : (s.modPlat f).tokens = s.tokens := rfl
@[simp] theorem State.modPlat_loads (s : State) (f : Platform → Platform) : (s.modPlat f).loads = s.loads := rfl
@[simp] theorem State.modPlat_copies (s : State) (f : Platform → Platform) : (s.modPlat f).copies = s.copies := rfl
@[simp] theorem State.modPlat_landed (s : State) (f : Platform → Platform) : (s.modPlat f).landed = s.landed := rfl
@[simp] theorem State.modPlat_cmds (s : State) (f : Platform → Platform) : (s.modPlat f).cmds = s.cmds := rfl
@[simp] theorem State.modPlat_calls (s : State) (f : Platform → Platform) : (s.modPlat f).calls = s.calls := rfl
@[simp] theorem State.modPlat_links (s : State) (f : Platform → Platform) : (s.modPlat f).links = s.links := rfl
@[simp] theorem State.modPlat_nextId (s : State) (f : Platform → Platform) : (s.modPlat f).nextId = s.nextId := rfl
@[simp] theorem State.modPlat_tests (s : State) (f : Platform → Platform) : (s.modPlat f).tests = s.tests := rfl
@[simp] theorem State.modPlat_mem (s : State) (f : Platform → Platform) : (s.modPlat f).mem = s.mem := rfl
@[simp] theorem State.modPlat_boot (s : State) (f : Platform → Platform) : (s.modPlat f).boot = s.boot := rfl
@[simp] theorem State.modPlat_xchg (s : State) (f : Platform → Platform) : (s.modPlat f).xchg = s.xchg := rfl
@[simp] theorem State.modPlat_plat (s : State) (f : Platform → Platform) : (s.modPlat f).plat = f s.plat := rfl
@[simp] theorem State.modPlat_holOut (s : State) (f : Platform → Platform) : (s.modPlat f).holOut = s.holOut := rfl
@[simp] theorem State.modPlat_linkOut (s : State) (f : Platform → Platform) : (s.modPlat f).linkOut = s.linkOut := rfl
@[simp] theorem State.modPlat_stalled (s : State) (f : Platform → Platform) : (s.modPlat f).stalled = s.stalled := rfl
@[simp] theorem State.modPlat_cur (s : State) (f : Platform → Platform) : (s.modPlat f).cur = s.cur := rfl
@[simp] theorem State.modPlat_agenda (s : State) (f : Platform → Platform) : (s.modPlat f).agenda = s.agenda := rfl
@[simp] theorem State.modPlat_turn (s : State) (f : Platform → Platform) : (s.modPlat f).turn = s.turn := rfl
@[simp] theorem State.modPlat_tick (s : State) (f : Platform → Platform) : (s.modPlat f).tick = s.tick := rfl
@[simp] theorem State.modPlat_pace (s : State) (f : Platform → Platform) : (s.modPlat f).pace = s.pace := rfl
@[simp] theorem State.modPlat_freeCtr (s : State) (f : Platform → Platform) : (s.modPlat f).freeCtr = s.freeCtr := rfl
@[simp] theorem State.modPlat_testCtr (s : State) (f : Platform → Platform) : (s.modPlat f).testCtr = s.testCtr := rfl

/-! ## State.modCall -/

@[simp] theorem State.modCall_clock (s : State) (k : Nat) (f : Call → Call) : (s.modCall k f).clock = s.clock := rfl
@[simp] theorem State.modCall_cores (s : State) (k : Nat) (f : Call → Call) : (s.modCall k f).cores = s.cores := rfl
@[simp] theorem State.modCall_baseDies (s : State) (k : Nat) (f : Call → Call) : (s.modCall k f).baseDies = s.baseDies := rfl
@[simp] theorem State.modCall_ctxs (s : State) (k : Nat) (f : Call → Call) : (s.modCall k f).ctxs = s.ctxs := rfl
@[simp] theorem State.modCall_teams (s : State) (k : Nat) (f : Call → Call) : (s.modCall k f).teams = s.teams := rfl
@[simp] theorem State.modCall_launches (s : State) (k : Nat) (f : Call → Call) : (s.modCall k f).launches = s.launches := rfl
@[simp] theorem State.modCall_nextHandle (s : State) (k : Nat) (f : Call → Call) : (s.modCall k f).nextHandle = s.nextHandle := rfl
@[simp] theorem State.modCall_launchOrder (s : State) (k : Nat) (f : Call → Call) : (s.modCall k f).launchOrder = s.launchOrder := rfl
@[simp] theorem State.modCall_queues (s : State) (k : Nat) (f : Call → Call) : (s.modCall k f).queues = s.queues := rfl
@[simp] theorem State.modCall_tokens (s : State) (k : Nat) (f : Call → Call) : (s.modCall k f).tokens = s.tokens := rfl
@[simp] theorem State.modCall_loads (s : State) (k : Nat) (f : Call → Call) : (s.modCall k f).loads = s.loads := rfl
@[simp] theorem State.modCall_copies (s : State) (k : Nat) (f : Call → Call) : (s.modCall k f).copies = s.copies := rfl
@[simp] theorem State.modCall_landed (s : State) (k : Nat) (f : Call → Call) : (s.modCall k f).landed = s.landed := rfl
@[simp] theorem State.modCall_cmds (s : State) (k : Nat) (f : Call → Call) : (s.modCall k f).cmds = s.cmds := rfl
@[simp] theorem State.modCall_calls (s : State) (k : Nat) (f : Call → Call) : (s.modCall k f).calls = modAt f s.calls k := rfl
@[simp] theorem State.modCall_links (s : State) (k : Nat) (f : Call → Call) : (s.modCall k f).links = s.links := rfl
@[simp] theorem State.modCall_nextId (s : State) (k : Nat) (f : Call → Call) : (s.modCall k f).nextId = s.nextId := rfl
@[simp] theorem State.modCall_tests (s : State) (k : Nat) (f : Call → Call) : (s.modCall k f).tests = s.tests := rfl
@[simp] theorem State.modCall_mem (s : State) (k : Nat) (f : Call → Call) : (s.modCall k f).mem = s.mem := rfl
@[simp] theorem State.modCall_boot (s : State) (k : Nat) (f : Call → Call) : (s.modCall k f).boot = s.boot := rfl
@[simp] theorem State.modCall_xchg (s : State) (k : Nat) (f : Call → Call) : (s.modCall k f).xchg = s.xchg := rfl
@[simp] theorem State.modCall_plat (s : State) (k : Nat) (f : Call → Call) : (s.modCall k f).plat = s.plat := rfl
@[simp] theorem State.modCall_holOut (s : State) (k : Nat) (f : Call → Call) : (s.modCall k f).holOut = s.holOut := rfl
@[simp] theorem State.modCall_linkOut (s : State) (k : Nat) (f : Call → Call) : (s.modCall k f).linkOut = s.linkOut := rfl
@[simp] theorem State.modCall_stalled (s : State) (k : Nat) (f : Call → Call) : (s.modCall k f).stalled = s.stalled := rfl
@[simp] theorem State.modCall_cur (s : State) (k : Nat) (f : Call → Call) : (s.modCall k f).cur = s.cur := rfl
@[simp] theorem State.modCall_agenda (s : State) (k : Nat) (f : Call → Call) : (s.modCall k f).agenda = s.agenda := rfl
@[simp] theorem State.modCall_turn (s : State) (k : Nat) (f : Call → Call) : (s.modCall k f).turn = s.turn := rfl
@[simp] theorem State.modCall_tick (s : State) (k : Nat) (f : Call → Call) : (s.modCall k f).tick = s.tick := rfl
@[simp] theorem State.modCall_pace (s : State) (k : Nat) (f : Call → Call) : (s.modCall k f).pace = s.pace := rfl
@[simp] theorem State.modCall_freeCtr (s : State) (k : Nat) (f : Call → Call) : (s.modCall k f).freeCtr = s.freeCtr := rfl
@[simp] theorem State.modCall_testCtr (s : State) (k : Nat) (f : Call → Call) : (s.modCall k f).testCtr = s.testCtr := rfl

/-! ## State.modCmd -/

@[simp] theorem State.modCmd_clock (s : State) (t i : Nat) (f : Cmd → Cmd) : (s.modCmd t i f).clock = s.clock := rfl
@[simp] theorem State.modCmd_cores (s : State) (t i : Nat) (f : Cmd → Cmd) : (s.modCmd t i f).cores = s.cores := rfl
@[simp] theorem State.modCmd_baseDies (s : State) (t i : Nat) (f : Cmd → Cmd) : (s.modCmd t i f).baseDies = s.baseDies := rfl
@[simp] theorem State.modCmd_ctxs (s : State) (t i : Nat) (f : Cmd → Cmd) : (s.modCmd t i f).ctxs = s.ctxs := rfl
@[simp] theorem State.modCmd_teams (s : State) (t i : Nat) (f : Cmd → Cmd) : (s.modCmd t i f).teams = s.teams := rfl
@[simp] theorem State.modCmd_launches (s : State) (t i : Nat) (f : Cmd → Cmd) : (s.modCmd t i f).launches = s.launches := rfl
@[simp] theorem State.modCmd_nextHandle (s : State) (t i : Nat) (f : Cmd → Cmd) : (s.modCmd t i f).nextHandle = s.nextHandle := rfl
@[simp] theorem State.modCmd_launchOrder (s : State) (t i : Nat) (f : Cmd → Cmd) : (s.modCmd t i f).launchOrder = s.launchOrder := rfl
@[simp] theorem State.modCmd_queues (s : State) (t i : Nat) (f : Cmd → Cmd) : (s.modCmd t i f).queues = s.queues := rfl
@[simp] theorem State.modCmd_tokens (s : State) (t i : Nat) (f : Cmd → Cmd) : (s.modCmd t i f).tokens = s.tokens := rfl
@[simp] theorem State.modCmd_loads (s : State) (t i : Nat) (f : Cmd → Cmd) : (s.modCmd t i f).loads = s.loads := rfl
@[simp] theorem State.modCmd_copies (s : State) (t i : Nat) (f : Cmd → Cmd) : (s.modCmd t i f).copies = s.copies := rfl
@[simp] theorem State.modCmd_landed (s : State) (t i : Nat) (f : Cmd → Cmd) : (s.modCmd t i f).landed = s.landed := rfl
@[simp] theorem State.modCmd_cmds (s : State) (t i : Nat) (f : Cmd → Cmd) : (s.modCmd t i f).cmds = s.cmds.map fun c => if c.team == t && c.id == i then f c else c := rfl
@[simp] theorem State.modCmd_calls (s : State) (t i : Nat) (f : Cmd → Cmd) : (s.modCmd t i f).calls = s.calls := rfl
@[simp] theorem State.modCmd_links (s : State) (t i : Nat) (f : Cmd → Cmd) : (s.modCmd t i f).links = s.links := rfl
@[simp] theorem State.modCmd_nextId (s : State) (t i : Nat) (f : Cmd → Cmd) : (s.modCmd t i f).nextId = s.nextId := rfl
@[simp] theorem State.modCmd_tests (s : State) (t i : Nat) (f : Cmd → Cmd) : (s.modCmd t i f).tests = s.tests := rfl
@[simp] theorem State.modCmd_mem (s : State) (t i : Nat) (f : Cmd → Cmd) : (s.modCmd t i f).mem = s.mem := rfl
@[simp] theorem State.modCmd_boot (s : State) (t i : Nat) (f : Cmd → Cmd) : (s.modCmd t i f).boot = s.boot := rfl
@[simp] theorem State.modCmd_xchg (s : State) (t i : Nat) (f : Cmd → Cmd) : (s.modCmd t i f).xchg = s.xchg := rfl
@[simp] theorem State.modCmd_plat (s : State) (t i : Nat) (f : Cmd → Cmd) : (s.modCmd t i f).plat = s.plat := rfl
@[simp] theorem State.modCmd_holOut (s : State) (t i : Nat) (f : Cmd → Cmd) : (s.modCmd t i f).holOut = s.holOut := rfl
@[simp] theorem State.modCmd_linkOut (s : State) (t i : Nat) (f : Cmd → Cmd) : (s.modCmd t i f).linkOut = s.linkOut := rfl
@[simp] theorem State.modCmd_stalled (s : State) (t i : Nat) (f : Cmd → Cmd) : (s.modCmd t i f).stalled = s.stalled := rfl
@[simp] theorem State.modCmd_cur (s : State) (t i : Nat) (f : Cmd → Cmd) : (s.modCmd t i f).cur = s.cur := rfl
@[simp] theorem State.modCmd_agenda (s : State) (t i : Nat) (f : Cmd → Cmd) : (s.modCmd t i f).agenda = s.agenda := rfl
@[simp] theorem State.modCmd_turn (s : State) (t i : Nat) (f : Cmd → Cmd) : (s.modCmd t i f).turn = s.turn := rfl
@[simp] theorem State.modCmd_tick (s : State) (t i : Nat) (f : Cmd → Cmd) : (s.modCmd t i f).tick = s.tick := rfl
@[simp] theorem State.modCmd_pace (s : State) (t i : Nat) (f : Cmd → Cmd) : (s.modCmd t i f).pace = s.pace := rfl
@[simp] theorem State.modCmd_freeCtr (s : State) (t i : Nat) (f : Cmd → Cmd) : (s.modCmd t i f).freeCtr = s.freeCtr := rfl
@[simp] theorem State.modCmd_testCtr (s : State) (t i : Nat) (f : Cmd → Cmd) : (s.modCmd t i f).testCtr = s.testCtr := rfl

/-! ## State.modLaunch -/

@[simp] theorem State.modLaunch_clock (s : State) (c h : Nat) (f : Launch → Launch) : (s.modLaunch c h f).clock = s.clock := rfl
@[simp] theorem State.modLaunch_cores (s : State) (c h : Nat) (f : Launch → Launch) : (s.modLaunch c h f).cores = s.cores := rfl
@[simp] theorem State.modLaunch_baseDies (s : State) (c h : Nat) (f : Launch → Launch) : (s.modLaunch c h f).baseDies = s.baseDies := rfl
@[simp] theorem State.modLaunch_ctxs (s : State) (c h : Nat) (f : Launch → Launch) : (s.modLaunch c h f).ctxs = s.ctxs := rfl
@[simp] theorem State.modLaunch_teams (s : State) (c h : Nat) (f : Launch → Launch) : (s.modLaunch c h f).teams = s.teams := rfl
@[simp] theorem State.modLaunch_launches (s : State) (c h : Nat) (f : Launch → Launch) : (s.modLaunch c h f).launches = s.launches.map fun l => if l.ctx == c && l.handle == h then f l else l := rfl
@[simp] theorem State.modLaunch_nextHandle (s : State) (c h : Nat) (f : Launch → Launch) : (s.modLaunch c h f).nextHandle = s.nextHandle := rfl
@[simp] theorem State.modLaunch_launchOrder (s : State) (c h : Nat) (f : Launch → Launch) : (s.modLaunch c h f).launchOrder = s.launchOrder := rfl
@[simp] theorem State.modLaunch_queues (s : State) (c h : Nat) (f : Launch → Launch) : (s.modLaunch c h f).queues = s.queues := rfl
@[simp] theorem State.modLaunch_tokens (s : State) (c h : Nat) (f : Launch → Launch) : (s.modLaunch c h f).tokens = s.tokens := rfl
@[simp] theorem State.modLaunch_loads (s : State) (c h : Nat) (f : Launch → Launch) : (s.modLaunch c h f).loads = s.loads := rfl
@[simp] theorem State.modLaunch_copies (s : State) (c h : Nat) (f : Launch → Launch) : (s.modLaunch c h f).copies = s.copies := rfl
@[simp] theorem State.modLaunch_landed (s : State) (c h : Nat) (f : Launch → Launch) : (s.modLaunch c h f).landed = s.landed := rfl
@[simp] theorem State.modLaunch_cmds (s : State) (c h : Nat) (f : Launch → Launch) : (s.modLaunch c h f).cmds = s.cmds := rfl
@[simp] theorem State.modLaunch_calls (s : State) (c h : Nat) (f : Launch → Launch) : (s.modLaunch c h f).calls = s.calls := rfl
@[simp] theorem State.modLaunch_links (s : State) (c h : Nat) (f : Launch → Launch) : (s.modLaunch c h f).links = s.links := rfl
@[simp] theorem State.modLaunch_nextId (s : State) (c h : Nat) (f : Launch → Launch) : (s.modLaunch c h f).nextId = s.nextId := rfl
@[simp] theorem State.modLaunch_tests (s : State) (c h : Nat) (f : Launch → Launch) : (s.modLaunch c h f).tests = s.tests := rfl
@[simp] theorem State.modLaunch_mem (s : State) (c h : Nat) (f : Launch → Launch) : (s.modLaunch c h f).mem = s.mem := rfl
@[simp] theorem State.modLaunch_boot (s : State) (c h : Nat) (f : Launch → Launch) : (s.modLaunch c h f).boot = s.boot := rfl
@[simp] theorem State.modLaunch_xchg (s : State) (c h : Nat) (f : Launch → Launch) : (s.modLaunch c h f).xchg = s.xchg := rfl
@[simp] theorem State.modLaunch_plat (s : State) (c h : Nat) (f : Launch → Launch) : (s.modLaunch c h f).plat = s.plat := rfl
@[simp] theorem State.modLaunch_holOut (s : State) (c h : Nat) (f : Launch → Launch) : (s.modLaunch c h f).holOut = s.holOut := rfl
@[simp] theorem State.modLaunch_linkOut (s : State) (c h : Nat) (f : Launch → Launch) : (s.modLaunch c h f).linkOut = s.linkOut := rfl
@[simp] theorem State.modLaunch_stalled (s : State) (c h : Nat) (f : Launch → Launch) : (s.modLaunch c h f).stalled = s.stalled := rfl
@[simp] theorem State.modLaunch_cur (s : State) (c h : Nat) (f : Launch → Launch) : (s.modLaunch c h f).cur = s.cur := rfl
@[simp] theorem State.modLaunch_agenda (s : State) (c h : Nat) (f : Launch → Launch) : (s.modLaunch c h f).agenda = s.agenda := rfl
@[simp] theorem State.modLaunch_turn (s : State) (c h : Nat) (f : Launch → Launch) : (s.modLaunch c h f).turn = s.turn := rfl
@[simp] theorem State.modLaunch_tick (s : State) (c h : Nat) (f : Launch → Launch) : (s.modLaunch c h f).tick = s.tick := rfl
@[simp] theorem State.modLaunch_pace (s : State) (c h : Nat) (f : Launch → Launch) : (s.modLaunch c h f).pace = s.pace := rfl
@[simp] theorem State.modLaunch_freeCtr (s : State) (c h : Nat) (f : Launch → Launch) : (s.modLaunch c h f).freeCtr = s.freeCtr := rfl
@[simp] theorem State.modLaunch_testCtr (s : State) (c h : Nat) (f : Launch → Launch) : (s.modLaunch c h f).testCtr = s.testCtr := rfl

/-! ## Team.modGroup -/

@[simp] theorem Team.modGroup_kind (x : Team) (g : Nat) (f : Group → Group) : (x.modGroup g f).kind = x.kind := rfl
@[simp] theorem Team.modGroup_ctx (x : Team) (g : Nat) (f : Group → Group) : (x.modGroup g f).ctx = x.ctx := rfl
@[simp] theorem Team.modGroup_handle (x : Team) (g : Nat) (f : Group → Group) : (x.modGroup g f).handle = x.handle := rfl
@[simp] theorem Team.modGroup_index (x : Team) (g : Nat) (f : Group → Group) : (x.modGroup g f).index = x.index := rfl
@[simp] theorem Team.modGroup_tmx (x : Team) (g : Nat) (f : Group → Group) : (x.modGroup g f).tmx = x.tmx := rfl
@[simp] theorem Team.modGroup_tmy (x : Team) (g : Nat) (f : Group → Group) : (x.modGroup g f).tmy = x.tmy := rfl
@[simp] theorem Team.modGroup_tmz (x : Team) (g : Nat) (f : Group → Group) : (x.modGroup g f).tmz = x.tmz := rfl
@[simp] theorem Team.modGroup_gw (x : Team) (g : Nat) (f : Group → Group) : (x.modGroup g f).gw = x.gw := rfl
@[simp] theorem Team.modGroup_nregs (x : Team) (g : Nat) (f : Group → Group) : (x.modGroup g f).nregs = x.nregs := rfl
@[simp] theorem Team.modGroup_pair (x : Team) (g : Nat) (f : Group → Group) : (x.modGroup g f).pair = x.pair := rfl
@[simp] theorem Team.modGroup_fusel1 (x : Team) (g : Nat) (f : Group → Group) : (x.modGroup g f).fusel1 = x.fusel1 := rfl
@[simp] theorem Team.modGroup_prio (x : Team) (g : Nat) (f : Group → Group) : (x.modGroup g f).prio = x.prio := rfl
@[simp] theorem Team.modGroup_curPrio (x : Team) (g : Nat) (f : Group → Group) : (x.modGroup g f).curPrio = x.curPrio := rfl
@[simp] theorem Team.modGroup_savePrio (x : Team) (g : Nat) (f : Group → Group) : (x.modGroup g f).savePrio = x.savePrio := rfl
@[simp] theorem Team.modGroup_seed (x : Team) (g : Nat) (f : Group → Group) : (x.modGroup g f).seed = x.seed := rfl
@[simp] theorem Team.modGroup_rings (x : Team) (g : Nat) (f : Group → Group) : (x.modGroup g f).rings = x.rings := rfl
@[simp] theorem Team.modGroup_argo (x : Team) (g : Nat) (f : Group → Group) : (x.modGroup g f).argo = x.argo := rfl
@[simp] theorem Team.modGroup_place (x : Team) (g : Nat) (f : Group → Group) : (x.modGroup g f).place = x.place := rfl
@[simp] theorem Team.modGroup_placedAt (x : Team) (g : Nat) (f : Group → Group) : (x.modGroup g f).placedAt = x.placedAt := rfl
@[simp] theorem Team.modGroup_groups (x : Team) (g : Nat) (f : Group → Group) : (x.modGroup g f).groups = modAt f x.groups g := rfl
@[simp] theorem Team.modGroup_cregs (x : Team) (g : Nat) (f : Group → Group) : (x.modGroup g f).cregs = x.cregs := rfl
@[simp] theorem Team.modGroup_ctags (x : Team) (g : Nat) (f : Group → Group) : (x.modGroup g f).ctags = x.ctags := rfl
@[simp] theorem Team.modGroup_pool (x : Team) (g : Nat) (f : Group → Group) : (x.modGroup g f).pool = x.pool := rfl
@[simp] theorem Team.modGroup_eng (x : Team) (g : Nat) (f : Group → Group) : (x.modGroup g f).eng = x.eng := rfl
@[simp] theorem Team.modGroup_cmdCounter (x : Team) (g : Nat) (f : Group → Group) : (x.modGroup g f).cmdCounter = x.cmdCounter := rfl
@[simp] theorem Team.modGroup_arrivals (x : Team) (g : Nat) (f : Group → Group) : (x.modGroup g f).arrivals = x.arrivals := rfl
@[simp] theorem Team.modGroup_leaving (x : Team) (g : Nat) (f : Group → Group) : (x.modGroup g f).leaving = x.leaving := rfl
@[simp] theorem Team.modGroup_recordAt (x : Team) (g : Nat) (f : Group → Group) : (x.modGroup g f).recordAt = x.recordAt := rfl
@[simp] theorem Team.modGroup_saved (x : Team) (g : Nat) (f : Group → Group) : (x.modGroup g f).saved = x.saved := rfl
@[simp] theorem Team.modGroup_spillAt (x : Team) (g : Nat) (f : Group → Group) : (x.modGroup g f).spillAt = x.spillAt := rfl
@[simp] theorem Team.modGroup_callId (x : Team) (g : Nat) (f : Group → Group) : (x.modGroup g f).callId = x.callId := rfl

/-! ## Group.modThread -/

@[simp] theorem Group.modThread_gcr (x : Group) (l : Nat) (f : Thread → Thread) : (x.modThread l f).gcr = x.gcr := rfl
@[simp] theorem Group.modThread_role (x : Group) (l : Nat) (f : Thread → Thread) : (x.modThread l f).role = x.role := rfl
@[simp] theorem Group.modThread_regs (x : Group) (l : Nat) (f : Thread → Thread) : (x.modThread l f).regs = x.regs := rfl
@[simp] theorem Group.modThread_threads (x : Group) (l : Nat) (f : Thread → Thread) : (x.modThread l f).threads = modAt f x.threads l := rfl

/-! ## Group.modLanes -/

@[simp] theorem Group.modLanes_gcr (x : Group) (ls : List Nat) (f : Nat → Thread → Thread) : (x.modLanes ls f).gcr = x.gcr := rfl
@[simp] theorem Group.modLanes_role (x : Group) (ls : List Nat) (f : Nat → Thread → Thread) : (x.modLanes ls f).role = x.role := rfl
@[simp] theorem Group.modLanes_regs (x : Group) (ls : List Nat) (f : Nat → Thread → Thread) : (x.modLanes ls f).regs = x.regs := rfl
@[simp] theorem Group.modLanes_threads (x : Group) (ls : List Nat) (f : Nat → Thread → Thread) : (x.modLanes ls f).threads = x.threads.mapIdx fun i t => if ls.contains i then f i t else t := rfl

/-! ## The notes of unfenced writes (05 R152) -/

@[simp] theorem Team.modUnfenced_pool (t : Team) (g l : Nat) (f k : List (Bool × Nat × Nat) → List (Bool × Nat × Nat)) :
    (t.modUnfenced g l f k).pool = t.pool := rfl
@[simp] theorem Team.modUnfenced_cregs (t : Team) (g l : Nat) (f k : List (Bool × Nat × Nat) → List (Bool × Nat × Nat)) :
    (t.modUnfenced g l f k).cregs = t.cregs := rfl
@[simp] theorem Team.modUnfenced_eng (t : Team) (g l : Nat) (f k : List (Bool × Nat × Nat) → List (Bool × Nat × Nat)) :
    (t.modUnfenced g l f k).eng = t.eng := rfl

/-- Noting a write changes the notes of the team's threads and nothing else. -/
theorem State.noteSame_eq (s : State) (tm g l : Nat) (scr : Bool) (off n : Nat) (same : Bool) :
    s.noteSame tm g l scr off n same = s ∨ ∃ f k, s.noteSame tm g l scr off n same = s.modTeam tm fun t => t.modUnfenced g l f k := by
  unfold State.noteSame
  split
  · exact .inl rfl
  · exact .inr ⟨_, _, rfl⟩

/-- So does MFENCE. -/
theorem State.fenceWrites_eq (s : State) (tm g l : Nat) : ∃ f k, s.fenceWrites tm g l = s.modTeam tm fun t => t.modUnfenced g l f k :=
  ⟨_, _, rfl⟩

/-! ## State.begin -/

theorem State.noteWaits_with (s : State) : s.noteWaits = { s with teams := s.noteWaits.teams } := by
  unfold State.noteWaits
  split <;> rfl

theorem State.hol_up {s : State} (h : s.plat.holUp = true) (ty ctx : Nat) (fs : List Nat) (bs : List Byte) :
    s.hol ty ctx fs bs = { s with holOut := (s.hol ty ctx fs bs).holOut } := by
  unfold State.hol
  rw [if_pos h]

/-- Requests of the device gone out to the host are messages, and nothing else changes but that they are sent. -/
theorem State.sendHost_with (s : State) : s.sendHost = { s with links := s.sendHost.links, holOut := s.sendHost.holOut } := by
  unfold State.sendHost
  split
  · rfl
  · rename_i h
    have hu : s.plat.holUp = true := by
      cases hp : s.plat.holUp <;> simp [hp] at h ⊢
    generalize hy : List.foldl _ _ _ = y
    have hx : ∃ l o, y = { s with links := l, holOut := o } := by
      rw [← hy]
      refine List.foldlRecOn (motive := fun t : State => ∃ l o, t = { s with links := l, holOut := o }) _ _ ⟨s.links, s.holOut, rfl⟩ ?_
      rintro t ⟨l, o, rfl⟩ k _
      split
      · split
        · exact ⟨_, _, State.hol_up (by exact hu) _ _ _ _⟩
        · exact ⟨_, _, rfl⟩
      · exact ⟨_, _, rfl⟩
    obtain ⟨l, o, hl⟩ := hx
    rw [hl]

/-- Where no launch waits for its kernel record a step begins with the clock, the waits and the watchdog counters noted, and messages sent. -/
theorem State.begin_with {s : State} (h : s.plat.inbox = []) :
    s.begin = { s with clock := s.begin.clock, tick := s.begin.tick, pace := s.begin.pace, links := s.begin.links, holOut := s.begin.holOut,
                       teams := s.begin.teams, ctxs := s.begin.ctxs, cur := none } := by
  have hi : s.advance.launchesGoOn = s.advance := by
    unfold State.launchesGoOn
    rw [if_pos (by show s.plat.inbox.isEmpty = true; rw [h]; rfl)]
  unfold State.begin State.noteWatchdogs
  rw [State.noteWaits_with, State.sendHost_with, hi]
  rfl

end Sys2Proof.Machine
end

