-- ==== Sys2Proof/Tests/Slice0.lean ====
section
/-! SUPPORT. Tests: words of the encoding tables, ill-formed terms, single steps with results worked by hand from the rules, and for each
statement of Obligations a state and operands that meet its hypotheses. -/

set_option Elab.async false

namespace Sys2Proof.Tests

open Sys2Proof Machine Claims

/-! ## Small states -/

/-- A reset device whose next step runs `w` in the 16 lanes of a one-team program. -/
def prog (w : Nat) : State := State.reset.withFetchWord 32 w

/-- v register `r` of the program as a U value. -/
def setReg (r v : Nat) (s : State) : State :=
  s.modGroup 0 0 fun g => { g with regs := modAt (fun x => { x with shape := .u (BitVec.ofNat 32 v) }) g.regs r }

def setThreads (f : Thread → Thread) (s : State) : State :=
  s.modGroup 0 0 fun g => { g with threads := g.threads.map f }

def setTeam (f : Team → Team) (s : State) : State := s.modTeam 0 f

def setMemory (pa n v : Nat) (s : State) : State := s.setMem { s.mem with dram := memWrite s.mem.dram pa (bytesOf n v) }

def setScratch (o n v : Nat) (s : State) : State :=
  s.modTeam 0 fun t => { t with pool := { t.pool with scr := memWrite t.pool.scr o (bytesOf n v) } }

/-- What a property of the state after one step says; false when the step stops. -/
noncomputable def afterStep (s : State) (p : State → Bool) : Bool :=
  match step s with
  | .next t => p t
  | _ => false

def groupOf (s : State) : Machine.Group := (s.team 0).groups.headD { gcr := 0, role := .general, regs := [], threads := [] }

/-- v register `r` in lane `l`. -/
def reads (s : State) (r l : Nat) : Word := ((((groupOf s).regs[r]?).getD VReg.fresh).shape).at l

def thread (s : State) (l : Nat) : Thread := ((groupOf s).threads[l]?).getD (Thread.start 0 0 false)

/-- The word of v3 in lane 5 after one step of `w` with v1 and v2 set. -/
noncomputable def alu3 (w x y : Nat) (r : Word) : Bool := afterStep (setReg 1 x (setReg 2 y (prog w))) fun t => reads t 3 5 == r && (thread t 5).pc == 0x40100004

/-! ## Words of the encoding tables, one per major opcode -/

theorem test_decode_integer :
    decodeWord 0x02c14002 = some (.mov 88 20) ∧
    decodeWord 0x05258a80 = some (.add 36 88 84) ∧
    decodeWord 0x0882c56b = some (.addi 16 44 1387) ∧
    decodeWord 0x0c238d04 = some (.andi 4 56 3332) ∧
    decodeWord 0x10610400 = some (.ori 12 16 1024) ∧
    decodeWord 0x15640e61 = some (.xori 44 64 3681) ∧
    decodeWord 0x19c1c00c = some (.slli 56 28 12) ∧
    decodeWord 0x1d654157 = some (.ceqi 44 84 343) ∧
    decodeWord 0x2166d683 = some (.lui 44 448131) ∧
    decodeWord 0x2467dfb2 = some (.auipc 12 516018) ∧
    decodeWord 0x29a0c1af = some (.bfx 52 12 13 15) ∧
    decodeWord 0x2c41c0c5 = some (.bfxs 8 28 6 5) ∧
    decodeWord 0x30e24253 = some (.bfi 28 36 18 19) ∧
    decodeWord 0x36e24300 = some (.add64 92 36 24) ∧
    decodeWord 0x3a810084 = some (.shfl 80 16 4) ∧
    decodeWord 0x3d25c000 = some (.clz 36 92) := by
  decide +kernel

theorem test_decode_flow :
    decodeWord 0x410383c0 = some (.bz 32 230336) ∧
    decodeWord 0x4663cd15 = some (.bnz 76 249109) ∧
    decodeWord 0x4840352a = some (.jal 8 13610) ∧
    decodeWord 0x4ea50000 = some (.jr 84 80) ∧
    decodeWord 0x5144786a = some (.meet 40 292970) ∧
    decodeWord 0x54a5ca81 = some (.cnarrow 20 92 84) := by
  decide +kernel

theorem test_decode_float_arithmetic :
    decodeWord 0x59650784 = some (.faddD 1 44 80 60) ∧
    decodeWord 0x5e438304 = some (.faddS 1 72 56 24) ∧
    decodeWord 0x62e10b84 = some (.faddH 1 92 16 92) ∧
    decodeWord 0x65820200 = some (.faddB 0 48 32 16) ∧
    decodeWord 0x69c18300 = some (.fmacD 0 56 24 24) ∧
    decodeWord 0x6d404a84 = some (.fmacS 1 40 4 84) ∧
    decodeWord 0x71e44100 = some (.fmacH 0 60 68 8) ∧
    decodeWord 0x75e48580 = some (.fmacB 0 60 72 44) := by
  decide +kernel

theorem test_decode_float_other :
    decodeWord 0x7a610180 = some (.fminD 76 16 12) ∧
    decodeWord 0x7d624a80 = some (.fminS 44 36 84) ∧
    decodeWord 0x80658500 = some (.fminH 12 88 40) ∧
    decodeWord 0x86c08000 = some (.fsqrtD 0 88 8) ∧
    decodeWord 0x89044000 = some (.fsqrtS 0 32 68) ∧
    decodeWord 0x8c258004 = some (.fexp2D 1 4 88) ∧
    decodeWord 0x90a38000 = some (.fexp2S 0 20 56) ∧
    decodeWord 0x95a10000 = some (.fcvtSD 0 false 52 16) ∧
    decodeWord 0x99010504 = some (.fpackH2 1 32 16 40) ∧
    decodeWord 0x9ca54184 = some (.fdotH2 1 20 84 12) ∧
    decodeWord 0xa0218384 = some (.fqntDpt8 1 4 24 28) := by
  decide +kernel

theorem test_decode_memory :
    decodeWord 0xa4828394 = some (.ld 2 4 16 40 28) ∧
    decodeWord 0xaac10a3f = some (.ldi 5 88 16 63) ∧
    decodeWord 0xada3051c = some (.st 3 4 52 48 40) ∧
    decodeWord 0xb064c80a = some (.sti 4 12 76 10) ∧
    decodeWord 0xb6e44186 = some (.scrLd 6 92 68 12) ∧
    decodeWord 0xb8218490 = some (.acpG2s 4 4 24 36) ∧
    decodeWord 0xbc804100 = some (.atomAdd 16 4 8) ∧
    decodeWord 0xc0e1ca00 = some (.atom64Add 28 28 80) ∧
    decodeWord 0xc4034b80 = some (.redAdd 52 92) := by
  decide +kernel

theorem test_decode_ordering :
    decodeWord 0xca80c980 = some (.binit 80 12 76) ∧
    decodeWord 0xcc000009 = some (.fenceRel 2) ∧
    decodeWord 0xd143c000 = some (.tbegin 40 60) ∧
    decodeWord 0xd4008a80 = some (.cwb 8 84) ∧
    decodeWord 0xd8a50680 = some (.acqr 20 80 52) := by
  decide +kernel

theorem test_decode_pool_and_tiles :
    decodeWord 0xde434682 = some (.poolGrow 2 72 52 52) ∧
    decodeWord 0xe003c181 = some (.tld 0 60 12) ∧
    decodeWord 0xe478a0e4 = some (.mmaWin false 1 15 10 7) := by
  decide +kernel

theorem test_decode_system :
    decodeWord 0xe9634000 = some (.engCpy 44 52) ∧
    decodeWord 0xece50100 = some (.nmcall 28 80 8) ∧
    decodeWord 0xf1814180 = some (.qpush 48 20 12) ∧
    decodeWord 0xf412c680 = some (.waitw 2 44 52) ∧
    decodeWord 0xf8a00120 = some (.rdsr 20 9) ∧
    decodeWord 0xfc020f12 = some (.trap 134930) := by
  decide +kernel

/-! ## Ill-formed terms: each check of WellFormed refuses one -/

theorem test_ill_formed_registers : wellFormed (.add 125 1 2) = false ∧ wellFormed (.add 3 126 2) = false ∧
    wellFormed (.add64 3 2 4) = false ∧ wellFormed (.add64 2 112 4) = false ∧ wellFormed (.cmov 2 4) = false := by decide +kernel

theorem test_ill_formed_codes : wellFormed (.faddS 7 1 2 3) = false ∧ wellFormed (.fexp2S 5 1 2) = false ∧
    wellFormed (.fqntDpt8 2 1 2 3) = false ∧ wellFormed (.ldi 7 4 2 0) = false ∧ wellFormed (.sti 1 4 2 0) = false ∧
    wellFormed (.ldi 5 3 2 0) = false ∧ wellFormed (.ldi 6 2 2 0) = false ∧ wellFormed (.acpG2s 6 1 2 4) = false ∧
    wellFormed (.mcrd 1 5) = false ∧ wellFormed (.mmaWin false 3 0 1 2) = false ∧ wellFormed (.mmaWin true 0 0 1 2) = false ∧
    wellFormed (.fred 8 2 4) = false ∧ wellFormed (.fred 20 2 3) = false ∧ wellFormed (.rdsr 2 10) = false ∧ wellFormed (.wrsr 2 16) = false ∧
    wellFormed (.trap 0) = false := by decide +kernel

/-! ## Single steps; the results are worked by hand from the rules named -/

/-- R81: addition is modulo 2^32. -/
theorem test_add_wraps : alu3 0x04181040 0xffffffff 2 1 = true := by decide +kernel

/-- R81: a divisor of zero gives quotient 0xffff_ffff; DIV.i32 of the most negative number by -1 is itself. -/
theorem test_div_corners : alu3 (0x04181040 + 20) 7 0 0xffffffff = true ∧ alu3 (0x04181040 + 20) 0x80000000 0xffffffff 0x80000000 = true ∧
    alu3 (0x04181040 + 22) 0x80000000 0xffffffff 0 = true := by decide +kernel

/-- R81: shift amounts use bits [4:0] only. -/
theorem test_shift_by_32 : alu3 (0x04181040 + 10) 0x1234 32 0x1234 = true ∧ alu3 (0x04181040 + 12) 0x80000000 31 0xffffffff = true := by
  decide +kernel

/-- R82: ADDI extends its immediate with sign. -/
theorem test_addi_negative : afterStep (setReg 1 5 (prog 0x08081fff)) (fun t => reads t 1 0 == 4) = true := by decide +kernel

/-- R86: CLZ of 0 is 32. -/
theorem test_clz_zero : afterStep (prog 0x3c181000) (fun t => reads t 3 0 == 32) = true := by decide +kernel

/-- R109, R326: FADD.S of 1.0 and 2.0 is 3.0 and sets no flag; R104: 1.0 divided by 0 is infinity with DZ (bit 1). -/
theorem test_float : alu3 0x5c181040 0x3f800000 0x40000000 0x40400000 = true ∧ alu3 0x5c181043 0x3f800000 0 0x7f800000 = true ∧
    afterStep (setReg 1 0x3f800000 (prog 0x5c181043)) (fun t => (thread t 0).fx == 2) = true := by decide +kernel

/-- R91: BNZ goes to PC + 4 times its offset where the register is not 0, else to PC + 4. -/
theorem test_bnz : afterStep (setReg 5 1 (prog 0x442ffffd)) (fun t => (thread t 3).pc == 0x400ffff4) = true ∧
    afterStep (prog 0x442ffffd) (fun t => (thread t 3).pc == 0x40100004) = true := by decide +kernel

/-- R37: a load leaves its destination empty until it lands. -/
theorem test_load_empties : afterStep (setReg 2 0x40200000 (prog (0xa8202000 + 0x800)))
    (fun t => ((((groupOf t).regs[4]?).getD VReg.fresh).empty == 0xffff) && t.loads.length == 1) = true := by decide +kernel

/-- R161, R280: a misaligned load traps each lane to TVEC with cause MISALIGNED and the address. -/
theorem test_misaligned_load : afterStep (setReg 2 0x40200002 ((prog (0xa8202000 + 0x800)).modCtx 1 fun c => { c with tvec := 0x40300000 }))
    (fun t => (thread t 7).tcause == 6 && (thread t 7).taddr == 0x40200002 && (thread t 7).tpc == 0x40100000 &&
      (thread t 7).pc == 0x40300000 && (thread t 7).sys) = true := by decide +kernel

/-- R228, R280: TRAP #7 saves the code above the cause SOFTWARE_TRAP. -/
theorem test_trap : afterStep ((prog 0xfc000007).modCtx 1 fun c => { c with tvec := 0x40300000 })
    (fun t => (thread t 0).tcause == 0x713 && (thread t 0).pc == 0x40300000 && (thread t 0).inTrap) = true := by decide +kernel

/-- R280: with no vector the lanes park, unhandled. -/
theorem test_trap_unhandled : afterStep (prog 0xfc000007) (fun t => ((thread t 0).park.map (·.unhandled)) == some true) = true := by
  decide +kernel

/-- R227: TRET of a SYSTEM thread in its handler goes to TPC at USER level. -/
theorem test_tret : afterStep (setThreads (fun th => { th with sys := true, inTrap := true, tpc := 0x40200008 }) (prog 0xf8000005))
    (fun t => (thread t 2).pc == 0x40200008 && !(thread t 2).sys && !(thread t 2).inTrap) = true := by decide +kernel

/-- R225, R280: RDSR at USER level raises PRIVILEGE (cause 2). -/
theorem test_privilege : afterStep ((prog 0xf8200060).modCtx 1 fun c => { c with tvec := 0x40300000 }) (fun t => (thread t 0).tcause == 2) = true := by
  decide +kernel

/-- R169: a store of policy .c to an RC page leaves memory as it is and a dirty word in L1. -/
theorem test_store_to_l1 : afterStep (setReg 2 0x40200000 (setReg 4 0x55 (prog (0xb0202000 + 0x800))))
    (fun t => memGet t.mem.dram 0x200000 == 0 && (t.getCore 0).l1.any fun w => w.va == 0x40200000 && w.data == 0x55 && w.dirty) = true := by
  decide +kernel

/-- R262: an event that waits happens before any thread issues. -/
theorem test_event_first : afterStep { prog 0 with agenda := [.evQueueCreate 1 5 4] } (fun t =>
    t.queues == [{ id := 5, ctx := 1, depth := 4, records := [] }] && (thread t 0).pc == 0x40100000) = true := by decide +kernel

/-- R470, R471, R476: the digests of "abc" that FIPS 180-4's examples give, and the published check value of CRC-32C. -/
theorem test_digests :
    sha256 [0x61, 0x62, 0x63] = bigBytes 32 0xba7816bf8f01cfea414140de5dae2223b00361a396177a9cb410ff61f20015ad ∧
    sha384 [0x61, 0x62, 0x63] =
      bigBytes 48 0xcb00753f45a35e8bb5a03d699ac65007272c32ab0eded1631a8b605a43ff5bed8086072ba1e7cc2358baeca134c825a7 ∧
    crc32c [0x31, 0x32, 0x33, 0x34, 0x35, 0x36, 0x37, 0x38, 0x39] = 0xe3069283 := by decide +kernel

/-! ## Witnesses: states and operands that meet the hypotheses of the statements -/

/-- The program's lane 0 at issue, at SYSTEM level. -/
def op1 : Op := { team := 0, grp := 0, lanes := 1, pc := 0x40100000, base := 0, sys := true, word := 0 }

/-- A team with scratch, tile banks and a ring, its first operation at issue; 0x80000000 is an SC page and 0xc0000000 an IP page; v2:v3
holds an RC address, v8 a scratch offset, v12:v13 an SC address, v14:v15 an IP address. -/
def base : State :=
  setReg 2 0x40200000 (setReg 8 0x100 (setReg 12 0x80000000 (setReg 14 0xc0000000 (setMemory 0x20010 8 0x3c1 (setMemory 0x20018 8 0xfc1
    (setTeam (fun t => { t with pool := { t.pool with scrBanks := 4, mxsBanks := 4 }, rings := [(0, 2)] })
      { prog 0 with cur := some op1 }))))))

/-- The same operation with lanes 0 and 1. -/
def op2 : Op := { op1 with lanes := 3 }

/-- What a witness checks by evaluation: the SYSTEM operation at issue is of a group none of whose registers is empty or marked. -/
def runs (o : Op) (s : State) : Bool :=
  s.cur == some o && o.team == 0 && o.grp == 0 && o.lanes != 0 && o.sys && (match s.teams[0]? with
    | some t => t.cregs.all (fun c => !c.empty && c.mark.isNone) && (match t.groups[0]? with
      | some g => g.threads.all (fun th => (th.txn.map fun x => decide (x.count < 4096)).getD true) &&
          g.regs.all (fun v => v.empty == 0 && v.marks.isEmpty) && (standing g o).isEmpty
      | none => false)
    | none => false)

/-- Whether a form is one that the operation's core, and its transactions, execute. -/
def admits (f : Form) (s : State) : Bool :=
  (if (s.team 0).onFoehn then f.foehn else f.main) && (f.txn || (groupOf s).threads.all fun th => th.txn.isNone)

/-- Such a state meets Turn, and Clear of every form that is admitted. -/
theorem runs_meets {o : Op} {s : State} (h : runs o s = true) : ∃ t g, Turn s o t g ∧ s.team 0 = t ∧ groupOf s = g ∧
    ∀ f : Form, admits f s = true → Clear f o t g := by
  unfold runs at h
  simp only [Bool.and_eq_true, beq_iff_eq, bne_iff_ne, ne_eq] at h
  obtain ⟨⟨⟨⟨⟨hc, hot⟩, hog⟩, hol⟩, hos⟩, h⟩ := h
  cases ht : s.teams[0]? with
  | none => simp [ht] at h
  | some t =>
    simp only [ht, Bool.and_eq_true] at h
    obtain ⟨hcr, h⟩ := h
    cases hg : t.groups[0]? with
    | none => simp [hg] at h
    | some g =>
      simp only [hg, Bool.and_eq_true] at h
      obtain ⟨⟨hx, hv⟩, hst⟩ := h
      have hteam : s.team 0 = t := by simp [State.team, ht]
      have hgroup : groupOf s = g := by
        simp [groupOf, hteam, List.headD_eq_head?_getD, List.head?_eq_getElem?, hg]
      have hready : ∀ l r, (issOf o t g).view.readiness r l = .ok := by
        intro l r
        unfold View.readiness
        split
        · have hreg : ((issOf o t g).view.vreg r).empty = 0 ∧ ((issOf o t g).view.vreg r).marks = [] := by
            unfold View.vreg
            cases hh : (issOf o t g).view.group.regs[(issOf o t g).view.base + r]? with
            | none => exact ⟨rfl, rfl⟩
            | some v =>
              have := List.all_eq_true.mp hv v (List.mem_of_getElem? hh)
              simpa using this
          simp [hreg.1, hreg.2]
        · split
          · have hcreg : ((issOf o t g).view.creg r).empty = false ∧ ((issOf o t g).view.creg r).mark = none := by
              unfold View.creg
              cases hh : (issOf o t g).view.team.cregs[r - 96]? with
              | none => exact ⟨rfl, rfl⟩
              | some c =>
                have := (List.all_eq_true.mp hcr) c (List.mem_of_getElem? hh)
                simpa using this
            simp [hcreg.1, hcreg.2]
          · rfl
      refine ⟨t, g, ⟨hc, by rw [hot]; exact ht, by rw [hog]; exact hg, hol⟩, hteam, hgroup, fun f hf => ?_⟩
      simp only [admits, hteam, hgroup, Bool.and_eq_true, Bool.or_eq_true] at hf
      refine ⟨hf.1, fun _ => hos, .inl hos, ?_, fun l _ r _ => hready l r, fun l _ r _ => by rw [hready l r]; decide,
        fun _ => List.isEmpty_iff.mp hst⟩
      intro l _ th hth x hxx
      have h1 := List.all_eq_true.mp hx th (List.mem_of_getElem? hth)
      simp only [hxx, Option.map_some, Option.getD_some, decide_eq_true_eq] at h1
      refine ⟨hf.2.resolve_right fun hn => ?_, h1⟩
      have := List.all_eq_true.mp hn th (List.mem_of_getElem? hth)
      simp [hxx] at this

/-- The hypotheses of a row of a table statement are met at `s`. -/
def Meets (f : Form) (E : Effect) (s : State) : Prop :=
  ∃ op t g s1 outs, Turn s op t g ∧ Clear f op t g ∧ E (issOf op t g) s = some (s1, outs)

/-- The check of a row by evaluation. -/
def row (o : Op) (f : Form) (E : Effect) (s : State) : Bool :=
  runs o s && admits f s && (E (issOf o (s.team 0) (groupOf s)) s).isSome

theorem meetsAt {o : Op} {f : Form} {E : Effect} {s : State} (h : row o f E s = true) : Meets f E s := by
  simp only [row, Bool.and_eq_true] at h
  obtain ⟨⟨h1, h2⟩, h4⟩ := h
  obtain ⟨t, g, ht, hte, hgr, hc⟩ := runs_meets h1
  rw [hte, hgr] at h4
  obtain ⟨⟨s1, outs⟩, he⟩ := Option.isSome_iff_exists.mp h4
  exact ⟨o, t, g, s1, outs, ht, hc f h2, he⟩

theorem meets {f : Form} {E : Effect} {s : State} (h : row op1 f E s = true) : Meets f E s := meetsAt h

/-- DecodeEncodeAgree and EncodeDecodeAgree. -/
theorem witness_encoding : wellFormed (.add 3 1 2) = true ∧ 96 ≤ (Instr.add 3 1 2).ctorIdx ∧ decodeWord 0x04181040 = some (.add 3 1 2) := by
  decide +kernel

/-- StepIssuesDecoded, its three cases: the word at the pc decodes, it does not, the fetch ends the lanes (a misaligned PC). -/
noncomputable def issues (s : State) (p : Fetched → Bool) : Bool :=
  s.begin.agenda == [] && !s.begin.plat.tripped && !s.begin.turn && match s.begin.bestTeam 0 s.begin.issuers with
    | some c => (match (s.begin.issuers[c.team]?).bind (·.groups[c.grp]?) with
      | some g => match g.threads[c.lane]? with
        | some th => p (s.begin.classWord c.team c.grp g c.lane (s.begin.classAt c g) th.pc).2.1
        | none => false
      | none => false)
    | none => false

theorem witness_stepIssuesDecoded :
    issues (prog 0x04181040) (fun | .word w => (decodeWord w.toNat).isSome | _ => false) = true ∧
    issues (prog 0x10) (fun | .word w => (decodeWord w.toNat).isNone | _ => false) = true ∧
    issues (setThreads (fun th => { th with pc := 0x3f000000 }) (prog 0)) (fun | .ends _ => true | _ => false) = true := by
  decide +kernel

/-- StepRunsEvents: an event that is heard, one that is not, a tripped device, internal work that is due; no launch waits. -/
theorem witness_stepRunsEvents :
    (let s : State := { prog 0 with agenda := [Instr.evHolLinkDown] }
     s.begin.agenda == [Instr.evHolLinkDown] && s.begin.hears .evHolLinkDown && s.plat.inbox.isEmpty) = true ∧
    (let s : State := { prog 0 with agenda := [Instr.evHolLinkDown], plat := { (prog 0).plat with tripped := true } }
     s.begin.agenda == [Instr.evHolLinkDown] && !s.begin.hears .evHolLinkDown) = true ∧
    (let s : State := { prog 0 with agenda := [], plat := { (prog 0).plat with tripped := true } }
     s.begin.agenda == [] && s.begin.plat.tripped) = true ∧
    (let s : State := { prog 0 with turn := true, launches := (prog 0).launches.map fun l => { l with placed := 0 } }
     s.begin.agenda == [] && !s.begin.plat.tripped && s.begin.turn && s.begin.workNext.isSome) = true := by
  decide +kernel

theorem witness_turn : ∃ t g, Turn base op1 t g ∧ ∀ f : Form, f.main = true → Clear f op1 t g := by
  obtain ⟨t, g, h, _, _, hc⟩ := runs_meets (o := op1) (s := base) (by decide +kernel)
  have h1 : (base.team 0).onFoehn = false ∧ ((groupOf base).threads.all fun th => th.txn.isNone) = true := by decide +kernel
  exact ⟨t, g, h, fun f hm => hc f (by simp only [admits, h1.1, h1.2, hm, Bool.or_true]; rfl)⟩

/-- FaultOrder: forms that the core lacks, that need SYSTEM level, that the role does not run, for an operation at USER level. -/
theorem witness_faultOrder : (Form.plain [] none .table).foehn = true ∧ ({ Form.plain [] none .table with main := false } : Form).main = false ∧
    rolesMatrix .copy = false ∧ ∃ t g, Turn { base with cur := some { op1 with sys := false } } { op1 with sys := false } t g ∧ t.onFoehn = false :=
  ⟨by decide, by decide, by decide, _, _, ⟨rfl, rfl, rfl, by decide⟩, by decide +kernel⟩

/-- FaultOrder: a near-memory call, whose TRET is illegal. -/
theorem witness_tretOfCall : ∃ t g, Turn (setTeam (fun t => { t with kind := .call }) base) op1 t g ∧ t.onFoehn = true ∧ t.kind ≠ .firmware :=
  ⟨_, _, ⟨rfl, rfl, rfl, by decide⟩, by decide +kernel, by decide +kernel⟩

/-- TrapDelivery: outside a transaction, with a vector and without one; in a handler. -/
theorem witness_trapDelivery : ∃ t g, Turn base op1 t g ∧ t.kind ≠ .call ∧ (∀ l ∈ lanesOf op1.lanes, g.inTxn l = false) ∧
    base.tvecOf t = 0 ∧ (base.modCtx 1 fun c => { c with tvec := 8 }).tvecOf t ≠ 0 :=
  ⟨_, _, ⟨rfl, rfl, rfl, by decide⟩, by decide +kernel, by decide +kernel, by decide +kernel, by decide +kernel⟩

/-- TrapReturn. -/
theorem witness_trapReturn : (base.team 0).onFoehn = false ∧ ∃ t g, Turn base op1 t g ∧ Clear { Form.plain [] none .same with priv := true, txn := false } op1 t g ∧
    (∀ l ∈ lanesOf op1.lanes, ∀ th, g.threads[l]? = some th → th.tpc.extractLsb' 0 2 = 0) := by
  obtain ⟨t, g, h, hc⟩ := witness_turn
  refine ⟨by decide +kernel, t, g, h, hc _ rfl, ?_⟩
  have ht : base.teams[0]? = some t := h.team
  have hg : t.groups[0]? = some g := h.group
  have hall : (match base.teams[0]? with
      | some t => (match t.groups[0]? with
        | some g => g.threads.all fun th => th.tpc.extractLsb' 0 2 == 0
        | none => true)
      | none => true) = true := by decide +kernel
  rw [ht] at hall
  simp only [hg, List.all_eq_true, beq_iff_eq] at hall
  exact fun l _ th hth => hall th (List.mem_of_getElem? hth)

/-- A fault of AccessFaults is met by every lane at issue. -/
def faulty (s : State) (bad : Iss → Nat → Bool) : Bool := runs op1 s && (lanesOf op1.lanes).all (bad (issOf op1 (s.team 0) (groupOf s)))

/-- A capability in v16 to v19 of base 0x40200000, length 64 and no permission, tagged. -/
def capState : State :=
  setReg 16 0x40200000 (setReg 18 64 (setThreads (fun th => { th with capTags := 16 }) base))

theorem witness_accessFaults_alignment :
    faulty (setReg 2 0x40200002 base) (fun i l => (indexed 4 2 4 i l).1 % 4 != 0) = true ∧
    faulty (setReg 2 0x40200002 base) (fun i l => (displaced 4 2 0 i l).1 % 4 != 0) = true ∧
    faulty (setReg 2 0x40200004 base) (fun i l => i.view.pair 2 l % 8 != 0) = true ∧
    faulty (setReg 2 0x40200002 base) (fun i l => i.view.pair 2 l % 4 != 0) = true := by decide +kernel

theorem witness_accessFaults_capability :
    faulty capState (fun i l => (indexed 4 16 4 i l).1 % 4 == 0 && !capOk i l 16 (indexed 4 16 4 i l).2 4 permR) = true ∧
    faulty capState (fun i l => (displaced 4 16 0 i l).1 % 4 == 0 && !capOk i l 16 (displaced 4 16 0 i l).2 4 permW) = true ∧
    faulty capState (fun i l => !i.view.capTag 16 l || decide (capLen (i.view.quad 16 l) < i.view.quad 24 l % 2 ^ 64 + i.view.quad 24 l / 2 ^ 64)) = false ∧
    faulty (setReg 26 65 capState) (fun i l => !i.view.capTag 16 l ||
      decide (capLen (i.view.quad 16 l) < i.view.quad 24 l % 2 ^ 64 + i.view.quad 24 l / 2 ^ 64)) = true := by decide +kernel

theorem witness_accessFaults_bounds :
    faulty (setReg 8 0x8000 base) (fun i l => scrOffset i 8 4 4 l % 4 == 0 && (decide (scrOffset i 8 4 4 l < 0) ||
      !i.team.scrIn (scrOffset i 8 4 4 l).toNat 4)) = true ∧
    faulty (setReg 8 8 base) (fun i l => (i.view.reg 8 l).toNat % 8 != 0 || decide (i.team.nregs < (i.view.reg 8 l).toNat + 96)) = true := by
  decide +kernel

/-- OperandObstacles: a source register empty in lane 0, with and without EMPTYTRAP, and one marked there. -/
def emptyReg (s : State) : State := s.modGroup 0 0 fun g => { g with regs := modAt (fun x => { x with empty := 1 }) g.regs 4 }
def markedReg (s : State) : State :=
  s.modGroup 0 0 fun g => { g with regs := modAt (fun x => { x with marks := [{ lane := 0, cause := 0x0d, addr := 64 }] }) g.regs 4 }

theorem witness_operandObstacles :
    (issOf op1 ((emptyReg base).team 0) (groupOf (emptyReg base))).view.readiness (regPlus 4 0) 0 = .empty ∧
    (groupOf (emptyReg base)).gcr.getLsbD 3 = false ∧
    (groupOf ((emptyReg base).modGroup 0 0 fun g => { g with gcr := 12 })).gcr.getLsbD 3 = true ∧
    (issOf op1 ((markedReg base).team 0) (groupOf (markedReg base))).view.readiness (regPlus 4 0) 0 = .marked 0x0d 64 ∧
    lanesOf op1.lanes = [0] ∧ (groupOf base).inTxn 0 = false := by decide +kernel

/-- DiscardedResult at the edges of the range. -/
theorem witness_discardedResult : 112 ≤ (112 : Reg).toNat ∧ 112 ≤ (127 : Reg).toNat := by decide

/-- AffineResult: v1 is A and v2 is U. -/
def affineView : View :=
  { team := base.team 0, grp := 0, base := 0,
    group := { groupOf base with regs := [.fresh, { VReg.fresh with shape := .a 10 4 }, { VReg.fresh with shape := .u 3 }] } }

theorem witness_affineResult : (affineView.affine (.add 1 2)).isSome ∧ (affineView.affine (.sub 2 1)).isSome ∧ (affineView.affine (.mul 1 2)).isSome ∧
    (affineView.affine (.sll 1 2)).isSome ∧ (affineView.affine (.mov 1)).isSome ∧ (affineView.affine (.addi 1 7)).isSome ∧
    (affineView.affine (.slli 1 31)).isSome := by decide +kernel

/-- CompletionFrame: lanes that continue. -/
theorem witness_completionFrame : ∃ t g, base.teams[op1.team]? = some t ∧ t.groups[op1.grp]? = some g ∧
    ∀ o ∈ [LaneOut.write 0 [1]], o.ends = .next := ⟨_, _, rfl, rfl, by simp [LaneOut.write]⟩

/-- SystemRegisterReadBack: TVEC. -/
theorem witness_systemRegisterReadBack : (base.team 0).kind = .team ∧ (base.ctxOf (base.team 0).ctx).isSome ∧ 0 < (groupOf base).threads.length ∧
    ((sysReg 1 false true).map fun r => r.holds 0x40300000) = some true := by decide +kernel

/-- BarrierStep: the object at offset 0x100. -/
theorem witness_barrierStep : (base.team 0).scrBad 0x100 16 = false ∧ ((base.team 0).rings.all fun x => decide (16 * x.1 + 16 ≤ 0x100)) = true ∧
    base.copies.isEmpty = true ∧ base.landed.isEmpty = true ∧ (base.team 0).engScr.isEmpty = true := by decide +kernel

/-- BarrierStep, MemoryReadAfterWrite, MemoryStaysCanonical. -/
theorem witness_canonical : MemoryCanonical base ∧ base.teams[0]?.isSome ∧ ∃ s', step (prog 0x04181040) = .next s' := by
  refine ⟨⟨by decide +kernel, ?_⟩, by decide +kernel, ?_⟩
  · have : (base.teams.all fun t => memWfFrom 0 t.pool.scr && memWfFrom 0 t.pool.mxs) = true := by decide +kernel
    intro t ht
    simpa using List.all_eq_true.mp this t ht
  · have h : afterStep (prog 0x04181040) (fun _ => true) = true := by decide +kernel
    unfold afterStep at h
    cases hs : step (prog 0x04181040) with
    | next t => exact ⟨t, rfl⟩
    | fault r => simp [hs] at h
    | refused r => simp [hs] at h

/-- MeetingRelease: two threads that have met, and two of which one has not arrived. -/
def met (b : Bool) : Machine.Group :=
  { gcr := 4, role := .general, regs := [], threads := [{ Thread.start 64 1 false with meet := 64, arrived := true },
    { Thread.start 64 1 false with meet := 64, arrived := b }] }

theorem witness_meetingRelease : ((met true).threads.all fun u => u.arrived || u.exited) = true ∧
    ((met false).threads.all fun u => u.arrived || u.exited) = false := by decide

/-- TransactionAbort: lane 0 in a transaction. -/
def txn0 : Txn := { handler := 0x40100100, dst := 6, reads := [], writes := [], lines := [], count := 0 }
def inTxn0 : State := base.modThread 0 0 0 fun th => { th with txn := some txn0 }

theorem witness_transactionAbort : ((thread inTxn0 0).txn == some txn0) = true ∧ 0 < (inTxn0.team 0).gw := by decide +kernel

/-- GeneratorStep, CanonicalNaN, RepresentableValuesStay. -/
theorem witness_numbers : (1 : Word) ≠ 0 ∧ (decodeNum f32 0x7fc00000).isNan = true ∧ (decodeNum f32 0x7f800001).isSnan = true ∧
    (decodeNum f16 0x3c00).isNan = false ∧ 0x3c00 < 2 ^ f16.w := by decide +kernel

/-- ScratchStoreFrame: offset 0x100 lies in the team's scratch. -/
theorem witness_scratchStoreFrame : (runs op1 base && base.landed.isEmpty && (lanesOf op1.lanes).all fun l =>
    (base.checkScr (issOf op1 (base.team 0) (groupOf base)) (scrOffset (issOf op1 (base.team 0) (groupOf base)) 8 4 4 l) 4 4).isNone) = true := by
  decide +kernel

/-- CachedAccessFrame: the core holds the translation of an RC page and a word of a line in its L1; the checks of a store and of a load of it pass without
a change, for an operation of one lane (a store of 4 bytes and of 1) and for one of two (loads). -/
def warm : State :=
  ({ base with mem := { base.mem with dir := [{ frame := 32, attr := 1, maps := [{ asid := 1, page := 16416, purged := 0 }] }] } } : State).modCore 0 fun c =>
    { c with
      l1 := [{ asid := 1, va := 0x40200000, pa := 0x200000, slice := 3, data := 7, dirty := false, ip := false }],
      alb := [{ asid := 1, base := 0x40000000, size := 0x40000000, attr := 1, r := true, w := true, x := true, pinned := false, stack := 0,
                hash := (1, 16384) }] }

def passes (o : Op) (l : Nat) (k : Ask) : Bool :=
  match warm.check (issOf o (warm.team 0) (groupOf warm)) l 0x40200000 2 0 k with
  | (s, .ok (.page a pa)) => s == warm && a == attrRC && pa == 0x200000 && paClass pa == .dram
  | _ => false

theorem witness_cachedAccessFrame : (runs op1 warm && runs op2 { warm with cur := some op2 } && warm.copies == [] && warm.calls == [] &&
    (warm.getCore 0).upd == [] && (warm.cores.all fun k => k.l1.all fun x => x.asid == 1 && lineOf x.va == lineOf 0x40200000) &&
    warm.mem.l2.isEmpty && (warm.l1Find 0 1 0x40200000).isSome && passes op1 0 (askStore 4) && passes op1 0 (askStore 1) &&
    passes op2 0 (askLoad 4) && passes op2 1 (askLoad 4)) = true := by decide +kernel

/-- DeadRegion and LineCorrection: a region that is not live; a line with an error in a stored position and in an address position. -/
theorem witness_dram : dramPlace base.mem 0x200000 = some (0, 0x200000) ∧
    (((base.modStack 0 fun k => { k with dead := [2] }).getStack 0).dead.contains (0x200000 / 2 ^ 20)) = true ∧
    (base.getStack 0).dead.contains (0x200000 / 2 ^ 20) = false ∧ dramAt base.mem 0x200000 = some 0x200000 ∧
    ({ base.mem with lineErrs := [(0x200000, [(63, 1), (64, 2)])] } : Memory).errsAt 0x20003c 0 0x20003c = [(63, 1), (64, 2)] ∧
    0x200000 % 64 + 64 ≤ 64 ∧ 0x20003c % 64 + 4 ≤ 64 ∧ dramPlace base.mem 0x20003c = some (0, 0x20003c) ∧ (base.calls.all (·.clash.isEmpty)) = true ∧
    ¬(64 ≤ 63 ∧ 63 < 72) ∧ (64 ≤ 64 ∧ 64 < 72) ∧ (64 ≤ 71 ∧ 71 < 72) ∧ ¬(64 ≤ 72 ∧ 72 < 72) := by decide +kernel

/-! ### Rows of the table statements -/

theorem witness_flowCompletes : Meets (Form.plain [(2, 2)] (some (6, 2)) .table) (still (fun i l => i.view.pair 2 l % 4 == 0) fun i l =>
    { LaneOut.write l [] with ends := .goto (BitVec.ofNat 64 (i.view.pair 2 l)) }) base := meets (by decide +kernel)

theorem witness_accessCompletes : Meets (memForm [(2, 2), (4, 1)] (some (6, 1)) .g) (loads 6 4 (loadAt 0 4 2 (indexed 4 2 4))) base :=
  meets (by decide +kernel)

theorem witness_copyCompletes : Meets (copyForm 8 2 12) (each (copyAt true 4 8 2 12)) base := meets (by decide +kernel)

theorem witness_atomicCompletes : Meets (atomForm .add false 6 2 4) (atomEffect .add false 6 2 4) base := meets (by decide +kernel)

theorem witness_reductionCompletes : Meets (redForm 0 2 4) (redEffect 0 2 4) base := meets (by decide +kernel)

/-- A lane that enters, TEND and TABORT of a lane inside one, an instruction that no transaction may execute, and the 4,097th. -/
theorem witness_transactionCompletes :
    Meets { memForm [(2, 2)] (some (6, 1)) .table with foehn := false } (each fun i s l => some (s.setTxn i l txn0, .write l [0])) base ∧
    Meets { memForm [] none .table with foehn := false } (still (fun _ _ => true) fun _ l => .only l .next) inTxn0 ∧
    (groupOf inTxn0).inTxn 0 = true ∧ (mainForm [] none .g).txn = false ∧
    (groupOf (base.modThread 0 0 0 fun th => { th with txn := some { txn0 with count := 4096 } })).txnFull 0 = true ∧
    (LaneEnd.fault cProtection 0 0).isFault = true :=
  ⟨meets (by decide +kernel), meets (by decide +kernel), by decide +kernel, rfl, by decide +kernel, rfl⟩

/-- Accesses of a transaction that abort: a store to a WO page, and a load of a peer's page. -/
theorem witness_transactionStops :
    ((txnStoreStops 4 6 2 0 (displaced 4 2 0) (issOf op1 (inTxn0.team 0) (groupOf inTxn0))
      ({ setMemory 0x20008 8 0xbc1 inTxn0 with cur := some op1 }) 0).map fun r => r.2.ends) = some (.abort 6) := by decide +kernel

theorem witness_barrierCompletes : Meets (mainForm [(2, 2), (4, 1)] (some (6, 1)) .g)
    (onObject 2 fun i s l va p => stepAt true true (.arriveBytes (i.view.reg 4 l)) i s l va p) base := meets (by decide +kernel)

theorem witness_syncCompletes : Meets (mainForm [] none .g) (syncPoint .gsync false) base := meets (by decide +kernel)

theorem witness_fenceCompletes : Meets (mainForm [] none .g) (each fun i s l => fenceReleased 3 i s l fun s1 => s1) base := meets (by decide +kernel)

theorem witness_maintenanceCompletes : Meets (rangeForm 2 4) (onRange 2 4 fun _ s _ _ => s) base := meets (by decide +kernel)

theorem witness_tokenCompletes : Meets (tokenForm 6 14 []) (onRegion 14 fun _ s _ _ => some (s, 1)) base :=
  meets (by decide +kernel)

theorem witness_waitCompletes : Meets (mainForm [(2, 2), (4, 1)] none .table) (onWord 2 4 .word (waitCond 0)) base := meets (by decide +kernel)

theorem witness_poolCompletes : Meets (poolForm 6 2 4) (poolAsked true 0 6 2 4) base := meets (by decide +kernel)

/-- Tile 0 is 16 by 16 of FP32, tiles 8 and 9 of FP16. -/
def tileAt (k : Nat) : Machine.Tile := { num := k, shape := if k < 8 then 0x10f0f else 0x20f0f, off := 1024 * k }

def tiles : State :=
  setTeam (fun t => { t with eng := { t.eng with tiles := (List.range 16).map fun k => some (tileAt k) } }) base

theorem witness_tileCompletes : Meets (tForm rolesFloat [] none .table) (onTile fun i s _ => onNamed s i 0 fun _ => some s) tiles :=
  meets (by decide +kernel)

theorem witness_segmentCompletes : Meets (tForm rolesFloat [(4, 1)] none .g)
    (onSegment 0 4 (fun _ => false) (fun _ => tForm rolesFloat [] (some (6, 1)) .g) (fun _ => some (6, 1)) fun _ s l _ _ _ =>
      some (s, .write l [0])) tiles := meets (by decide +kernel)

theorem witness_engineQueueCompletes : Meets (tForm rolesMatrix [] none .table) (multiply false false 0 0 8 9) tiles := meets (by decide +kernel)

/-- An engine that cannot correct a word of A (15 R362): the operation ends, and the fault waits for MWAIT with the word's offset. -/
theorem test_engine_uncorrectable :
    (match Sys2Proof.Machine.execEvMmaComplete 0 (setTeam (fun t => { t with pool := { t.pool with mxsErrs := [12] }, eng := t.eng.enqueue 0 [] (.mma false 1 (some (tileAt 0)) (some (tileAt 1)) (tileAt 8)) })
        tiles) with
      | .next u => ((u.team 0).eng.faults.map fun f => (f.cause, f.addr)) == [(cUncorrectable, 12)] && (u.team 0).eng.queue.isEmpty
      | _ => false) = true := by decide +kernel

theorem witness_commandCompletes : Meets (engForm false [(8, 1)] (some (6, 1))) (each (submitCommand 0 8))
    (setScratch 0x100 8 0x40200000 (setScratch 0x108 8 0x40201000 (setScratch 0x110 4 1 (setScratch 0x114 4 64 base)))) := meets (by decide +kernel)

/-- A call message at 0x100 with one tagged slot, and the barrier on an SC page. -/
def message : State :=
  setScratch 0x100 4 0x1000 (setScratch 0x104 1 1 (setScratch 0x108 8 100000 (setScratch 0x111 1 1 (setScratch 0x140 8 0x40200000
    (setScratch 0x148 4 0x10000 (setScratch 0x14d 1 0x1f (setTeam (fun t => { t with pool := { t.pool with scrTags := [0x14] } }) base)))))))

theorem witness_nearMemoryCompletes : Meets (engForm false [(8, 1), (12, 2)] (some (6, 1))) (each (submitCall false 8 12)) message :=
  meets (by decide +kernel)

theorem witness_graphCompletes : Meets (edgeForm [(4, 1), (8, 1)] 6) (onRecord 8 fun _ s l _ => some (s, .write l [3])) base :=
  meets (by decide +kernel)

theorem witness_systemCompletes : Meets (sysForm (knows 1 false false) (knows 1 true false) [] (some (6, 2)))
    (turn (fun _ _ => true) (fun _ s => s) fun i s l => .write l (wordsOf 2 (s.sysRead i l 1))) base := meets (by decide +kernel)

/-! ### Rows of other shapes -/

/-- The operation with two lanes: v2:v3 holds 0x40200000 in lane 0 and an address 2 above it in lane 1. -/
def twoLanes : State :=
  { base.modGroup 0 0 fun g => { g with regs := modAt (fun x => { x with shape := .a 0x40200000 2 }) g.regs 2 } with cur := some op2 }

/-- AccessFaults: one lane is barred and the other has its effect. -/
theorem witness_accessFaults_oneLane :
    Meets (memForm [(2, 2)] (some (6, 1)) .g) (loadsAmong 6 4 (barred 4 permR 2 (displaced 4 2 0)) (loadAt 0 4 2 (displaced 4 2 0))) twoLanes ∧
    Meets (memForm [(2, 2), (6, 1)] none .table) (among (barred 4 permW 2 (displaced 4 2 0)) (storeAt 0 4 6 2 (displaced 4 2 0))) twoLanes ∧
    Meets (atomForm .cas false 6 2 4) (loadsAmong 6 4 (barred 4 (permR + permW + permAtomic) 2 (atPair 2)) (atomAt .cas false 6 2 4)) twoLanes ∧
    Meets (redForm 0 2 4) (among (barred 4 (permW + permAtomic) 2 (atPair 2)) (redAt 0 2 4)) twoLanes ∧
    Meets (Form.plain [(2, 1), (4, 1)] (some (6, 1)) .g) (loadsAmong 6 4 (barredScr 4 2 4) (scrLoadAt 4 2 4)) twoLanes ∧
    Meets (copyForm 8 2 12) (among (barredCopy true 0 8 2) (copyAt true 0 8 2 12)) twoLanes ∧
    Meets (mainForm [(2, 2), (4, 1), (6, 1)] none .g) (among (barred 16 permObject 2 (atPair 2)) (objectAt 2 (initAt 6 4))) twoLanes ∧
    Meets (Form.plain [(2, 2)] (some (6, 2)) .table) (partly (fun i l => if i.view.pair 2 l % 4 ≠ 0 then some (.fault l cMisaligned (i.view.pair 2 l)) else none)
      fun _ l => .write l []) twoLanes :=
  ⟨meetsAt (o := op2) (by decide +kernel), meetsAt (o := op2) (by decide +kernel), meetsAt (o := op2) (by decide +kernel),
   meetsAt (o := op2) (by decide +kernel), meetsAt (o := op2) (by decide +kernel), meetsAt (o := op2) (by decide +kernel),
   meetsAt (o := op2) (by decide +kernel), meetsAt (o := op2) (by decide +kernel)⟩

/-- A host page at 0x100000000, whose accesses go over the link (17 R388). -/
def hostPage : State := setReg 2 0 (setReg 3 1 (setMemory 0x20020 8 0x10000000003c1 base))

def nextOf (o : Out) : State :=
  match o with
  | .next s => s
  | _ => base

/-- The load of lane 0 from it has asked, its request has gone out, and its bytes have come. -/
def answered : State := nextOf (Sys2Proof.Machine.execEvReadData 0 [1, 2, 3, 4] (nextOf (Sys2Proof.Machine.execLdi 4 6 2 0 hostPage)).sendHost)

/-- Memory rows: a load whose bytes have come over a link; a store of a pair; scratch; a copy out of scratch; an atomic and a reduction on pairs. -/
theorem witness_access_shapes :
    Meets (memForm [(2, 2)] (some (6, 1)) .g) (loads 6 4 (loadAt 0 4 2 (displaced 4 2 0))) answered ∧
    Meets (memForm [(2, 2), (4, 1), (6, 2)] none .table) (each (storeAt 0 5 6 2 (indexed 5 2 4))) base ∧
    Meets (Form.plain [(8, 1), (4, 1)] (some (6, 1)) .g) (loads 6 4 (scrLoadAt 4 8 4)) base ∧
    Meets (Form.plain [(8, 1), (4, 1), (6, 1)] none .table) (each (scrStoreAt 4 6 8 4)) base ∧
    Meets (copyForm 8 2 12) (each (copyAt false 4 8 2 12)) base ∧
    Meets (atomForm .cas true 6 2 4) (atomEffect .cas true 6 2 4) base ∧
    Meets (redForm 20 2 4) (redEffect 20 2 4) base :=
  ⟨meets (by decide +kernel), meets (by decide +kernel), meets (by decide +kernel), meets (by decide +kernel), meets (by decide +kernel),
   meets (by decide +kernel), meets (by decide +kernel)⟩

/-- A barrier object at 0x100 of the aperture: the phase has moved to 1, and a fault of origin 1 is recorded. -/
def failed : State :=
  setReg 2 0x100 (setReg 3 0xfffffe00 (setScratch 0x108 1 1 (setScratch 0x10c 4 0x40000104 base)))

/-- Barriers: a wait, the trap of a recorded fault, an initialisation, an arrival, an expectation and a meeting of the team; a ring that takes a slot, and one that finds its slot in another state. -/
theorem witness_barrier_shapes :
    Meets (mainForm [(2, 2), (4, 1)] (some (6, 1)) .g) (onObject 2 (waitAt 4)) base ∧
    Meets (mainForm [(2, 2), (4, 1)] (some (6, 1)) .g) (onObject 2 fun i s l va p => (waitAt 4 i s l va p).filter fun r => r.2.ends == .fault 4 0 (BitVec.ofNat 64 va)) failed ∧
    Meets (mainForm [(2, 2), (4, 1), (6, 1)] none .g) (onObject 2 (initAt 6 4)) base ∧
    Meets ({ Form.plain [(2, 2), (4, 1)] (some (6, 1)) .g with txn := false }) (each (arriveAt 2 4)) base ∧
    Meets (mainForm [(2, 2), (4, 1)] none .g) (onObject 2 fun i s l va p => stepAt false false (.expect (i.view.reg 4 l)) i s l va p) base ∧
    Meets (mainForm [] none .g) (syncPoint .tsync true) base ∧
    Meets ({ mainForm [] (some (6, 1)) .g with laneOp := true }) (onRing 0 fun _ r =>
      if r.slot r.pi = 0 then some (some ({ r.set r.pi 1 with pi := (r.pi + 1) % r.depth }, r.word r.pi, fun s _ _ _ => s)) else none) base ∧
    Meets ({ mainForm [(4, 1)] (some (6, 1)) .g with laneOp := true }) (onRing 0 fun i r =>
      some (if r.slot ((i.view.reg 4 0).toNat % 256) = 1 then some (r, 0, fun s _ _ _ => s) else none)) base :=
  ⟨meets (by decide +kernel), meets (by decide +kernel), meets (by decide +kernel), meets (by decide +kernel), meets (by decide +kernel),
   meets (by decide +kernel), meets (by decide +kernel), meets (by decide +kernel)⟩

/-- Fences, maintenance, tokens and waits of other shapes. -/
theorem witness_order_shapes :
    Meets (mainForm [] none .g) (each fun i s l => some ((s.promote i.team.ctx).acquireDev i.op.team i.op.grp, .only l .next)) base ∧
    Meets ({ Form.plain [] none .table with foehn := false, roles := rolesMemory, txn := false }) (turn (fun _ _ => true)
      (fun i s => s.onLanes i.op i.lanes fun _ th => { th with fbuf := [] }) fun _ _ l => .only l .next) base ∧
    Meets (tokenForm 6 14 []) (onRegion 14 fun i s k _ => some (s, match (s.tokenOf (s.asidOf i.team.ctx) (k * regionSize)).bind (·.holder) with
      | some _ => 1
      | none => 0)) base ∧
    Meets (mainForm [(2, 2), (4, 1)] none .table) (onWord 2 4 .wordSys fun x y => x != y) base ∧
    Meets ({ Form.plain [] none .table with txn := false }) (still (fun _ _ => true) fun i l => .only l (if (i.thread l).wait = some .yield then .next else .wait .yield)) base :=
  ⟨meets (by decide +kernel), meets (by decide +kernel), meets (by decide +kernel), meets (by decide +kernel), meets (by decide +kernel)⟩

/-- Tiles and the engine: a row of two lanes, a load, a latch and a sequence. -/
theorem witness_matrix_shapes :
    Meets (tForm rolesAll [(4, 1), (8, 1)] none .table) (onTile fun i s l => onNamed s i 0 fun t =>
      let rows := tileRows t (i.view.reg 4 l).toNat (i.view.reg 8 l).toInt
      if moveCheck (s.team i.op.team) (i.view.reg 4 l) (i.view.reg 8 l) rows = none then some (s.tileLoad i.op.team t true [] rows) else none) (setReg 8 64 tiles) ∧
    Meets (tForm rolesMatrix [(8, 1)] (some (6, 1)) .g) (each (mseqAt 8)) (setScratch 0x100 4 1 (setScratch 0x105 1 8
      (setScratch 0x106 1 9 (setScratch 0x120 4 1 tiles)))) :=
  ⟨meets (by decide +kernel), meets (by decide +kernel)⟩

/-- A near-memory call's team on a Foehn core. -/
def called : State := setTeam (fun t => { t with kind := .call, place := .foehn 0 0 }) base

/-- Firmware. -/
def firm : State := setTeam (fun t => { t with kind := .firmware, place := .foehn 0 0 }) base

/-- NMRET of a call and of firmware, a walk, a FRED of a pair, a launch, a queue that the context has not got. -/
theorem witness_near_shapes :
    Meets ({ Form.plain [(4, 1)] none .table with main := false, txn := false }) (callReturn 4) called ∧
    Meets ({ Form.plain [(4, 1)] none .table with main := false, txn := false }) (callReturn 4) firm ∧
    Meets (engForm false [(8, 1), (12, 2)] (some (6, 1))) (each (submitCall true 8 12)) (setScratch 0x100 4 1 (setScratch 0x108 8 100000
      (setScratch 0x111 1 1 (setScratch 0x140 8 0x40200000 (setScratch 0x148 4 0x10000 (setScratch 0x14d 1 0x1f
        (setTeam (fun t => { t with pool := { t.pool with scrTags := [0x14] } }) base))))))) ∧
    Meets (engForm false [(12, 2), (4, 2)] none) (each (fredAt 20 12 4)) base ∧
    Meets (edgeForm [(8, 1)] 6) (each (launchAt 8)) base :=
  ⟨meets (by decide +kernel), meets (by decide +kernel), meets (by decide +kernel), meets (by decide +kernel), meets (by decide +kernel)⟩

/-- A page of 64 KiB at 0x100000000. -/
def smallPage : State :=
  setReg 2 0 (setReg 3 1 (setMemory 0x20020 8 0x30001 (setMemory 0x30000 8 0x40001 (setMemory 0x40000 8 0x5005c1 base))))

/-- ATTRCHG of a page, a WRSR without an effect in firmware, TLBINV, HALTC and TRAP. -/
theorem witness_system_shapes :
    Meets (sysForm true false [(2, 2), (4, 1)] (some (6, 1))) (each (attrChange 2 4)) smallPage ∧
    Meets (sysForm false true [(2, 2)] none) (each fun i s l => if i.team.kind = .firmware then some (s, .only l .next) else none) firm ∧
    Meets (sysForm true false [(2, 2), (4, 1)] none) (each fun i s l =>
      some (s.tlbInvalidate (s.asidOf i.team.ctx) (i.view.pair 2 l) (i.view.reg 4 l).toNat, .only l .next)) base ∧
    Meets ({ Form.plain [] none .table with txn := false }) (still (fun _ _ => true) fun _ l => .only l (.fault cSoftware 7 0)) base :=
  ⟨meets (by decide +kernel), meets (by decide +kernel), meets (by decide +kernel), meets (by decide +kernel)⟩

/-! ### Events -/

/-- LandingHappens, FaultReplyHappens, LaunchHappens: a FRED pending, a fault record held with room in the queue, a free queue number. -/
theorem witness_landings : ((base.setMem { base.mem with freds := [{ ctx := 1, asid := 1, va := 0x80000000, pa := 0, op := 0, val := 1 }] }).mem.freds[0]?).isSome ∧
    (base.ctxOf 1).map (fun c => decide (c.fqWritten < c.fqConsumed + c.fqCap)) = some true ∧ base.queues.any (·.id == 5) = false ∧
    base.plat.holUp = true := by decide +kernel

/-- WorkHappens: a pool request at COMMIT, an engine operation at the head of the queue. -/
def request : PoolReq :=
  { team := 0, grp := 0, lanes := 1, pc := 0x40100000, dst := 6, grow := true, role := .scr, count := 1, discard := false, phase := .commit,
    destBase := 10, destOdd := 0, relocates := false, waited := false, wait := true, sys := true }

theorem witness_work : ((base.modCore 0 fun c => { c with req := some request }).reqOf 0 == some request) = true ∧
    ((tiles.modEng 0 fun e => e.enqueue 0 [] (.tlatch { num := 8, shape := 0x20f0f, off := 8192 })).team 0).eng.queue.isEmpty = false := by
  decide +kernel

def request0 : LinkReq :=
  { id := 0, ctx := 1, owner := .device 0, host := false, kind := 0, pa := 0, n := 4, skip := 0, len := 4, data := [], enables := [],
    poison := false, old := [], sent := false, done := none }

/-- LinkHappens and DeviceHappens: a legal request of a peer, a request that waits for a peer, a stack map open at step 4, a power part. -/
theorem witness_links_and_device : requestOk 0x200000 64 = true ∧
    ({ base with links := [request0] } : State).linkWaits 0 false [0, 1, 2, 3, 4] = true ∧
    mapEntryOk 0 0x8000 = true ∧ (base.modBoot fun b => { b with step := 4 }).bootStep = 4 ∧ 0 < powerParts := by decide +kernel

/-- A team all of whose threads have exited, and one that is to be saved, with a save area. -/
def over1 : State := setThreads (fun th => { th with exited := true }) base
def saving : State :=
  (setTeam (fun t => { t with leaving := some .preempt, pool := { t.pool with scrBanks := 0, mxsBanks := 0 } }) base).modCtx 1 fun c =>
    { c with saveBase := 0x40400000, saveSize := 0x100000 }

/-- Event rows of other shapes: a load in flight, a sleep that is over, a team that ends and one that is saved, a read of the host's
memory that is asked for. -/
theorem witness_event_shapes :
    (nextOf (Sys2Proof.Machine.execLdi 4 6 2 0 warm)).loads.length = 1 ∧
    ((thread (nextOf (Sys2Proof.Machine.execSleep 16 (setReg 16 1 base))) 0).wait.map fun w => match w with
      | .sleep d => decide (d ≤ ({ base with clock := 1000 } : State).sleepClock (base.team 0))
      | _ => false) = some true ∧
    ((over1.team 0).allExited && (over1.team 0).eng.queue.isEmpty && !over1.busyTeam 0 && !over1.heldOnScratch 0 && over1.leaveTurn 0) = true ∧
    (saving.quiet 0 && saving.leaveTurn 0) = true ∧
    (nextOf (Sys2Proof.Machine.execLdi 4 6 2 0 hostPage)).sendHost.linkWaits 0 true [0, 2, 4, 5] = true ∧
    ((setTeam (fun t => { t with saved := [1] }) base).team 0).saved ≠ [] ∧ ((setTeam (fun t => { t with saved := [1] }) base).team 0).failing = [] := by decide +kernel

end Sys2Proof.Tests
end

