-- ==== Sys2Proof/Proofs/WordFields.lean ====
section
/-! Reading the fields of a word that is written as a sum of fields at their places (01 R21). A field that lies below the last
summand does not see it; a field above it does not see it either, provided that nothing carries; the field itself is read back. -/

namespace Sys2Proof

theorem fieldOf_add_putField_of_le {n : Nat} (x : Nat) {lo : Nat} (v : BitVec n) {lo' n' : Nat} (h : lo' + n' ≤ lo) :
    fieldOf (x + putField lo v) lo' n' = fieldOf x lo' n' := by
  obtain ⟨k, rfl⟩ := Nat.exists_eq_add_of_le h
  have e : putField (lo' + n' + k) v = 2 ^ lo' * (2 ^ n' * (2 ^ k * v.toNat)) := by
    simp only [putField, Nat.pow_add]; ring
  simp only [fieldOf]
  rw [e, Nat.add_mul_div_left _ _ (by positivity), Nat.add_mul_mod_self_left]

theorem fieldOf_add_putField_same {n : Nat} (x lo : Nat) (v : BitVec n) (h : fieldOf x lo n = 0) :
    fieldOf (x + putField lo v) lo n = v.toNat := by
  simp only [fieldOf, putField] at *
  rw [Nat.add_mul_div_right _ _ (by positivity), Nat.add_mod, h, Nat.zero_add, Nat.mod_mod, Nat.mod_eq_of_lt v.isLt]

/-- What lies above a field that was zero before `v` is put there does not see `v`. -/
theorem add_putField_div {n : Nat} (x lo m : Nat) (v : BitVec n) (h : lo + n ≤ m) (h0 : fieldOf x lo n = 0) :
    (x + putField lo v) / 2 ^ m = x / 2 ^ m := by
  obtain ⟨k, rfl⟩ := Nat.exists_eq_add_of_le h
  simp only [fieldOf, putField] at *
  have hx := Nat.div_add_mod (x / 2 ^ lo) (2 ^ n)
  rw [h0, Nat.add_zero] at hx
  rw [Nat.pow_add, Nat.pow_add, Nat.mul_assoc, ← Nat.div_div_eq_div_mul, ← Nat.div_div_eq_div_mul _ (2 ^ lo),
    Nat.add_mul_div_right _ _ (by positivity), ← Nat.div_div_eq_div_mul, ← Nat.div_div_eq_div_mul,
    ← hx, Nat.add_comm _ v.toNat, Nat.add_mul_div_left _ _ (by positivity),
    Nat.div_eq_of_lt v.isLt, Nat.zero_add, Nat.mul_div_cancel_left _ (by positivity)]

theorem fieldOf_add_putField_of_ge {n : Nat} (x lo : Nat) (v : BitVec n) {lo' n' : Nat} (h : lo + n ≤ lo')
    (h0 : fieldOf x lo n = 0) : fieldOf (x + putField lo v) lo' n' = fieldOf x lo' n' := by
  rw [fieldOf, fieldOf, add_putField_div x lo lo' v h h0]

/-- A test of a wide field is a test of its low and of its high part. -/
theorem fieldOf_eq_iff (w lo n m k : Nat) :
    fieldOf w lo (n + m) = k ↔ fieldOf w lo n = k % 2 ^ n ∧ fieldOf w (lo + n) m = k / 2 ^ n := by
  have e : fieldOf w lo (n + m) = 2 ^ n * fieldOf w (lo + n) m + fieldOf w lo n := by
    simp only [fieldOf]
    rw [Nat.pow_add, Nat.pow_add, Nat.mod_mul, Nat.div_div_eq_div_mul]; ring
  have l : fieldOf w lo n < 2 ^ n := Nat.mod_lt _ (by positivity)
  rw [e]
  constructor
  · rintro rfl
    rw [Nat.mul_add_mod, Nat.mod_eq_of_lt l, Nat.mul_add_div (by positivity), Nat.div_eq_of_lt l]
    simp
  · rintro ⟨hlow, hhigh⟩
    rw [hlow, hhigh, Nat.div_add_mod]

/-- A field as the low bits of a word, shifted: what reads the fields of a numeral. -/
theorem fieldOf_eq_mod_div (w lo n : Nat) : fieldOf w lo n = w % 2 ^ (lo + n) / 2 ^ lo := by
  rw [fieldOf, Nat.pow_add, Nat.mod_mul_right_div_self]

theorem putBit_eq (lo : Nat) (b : Bool) : putBit lo b = putField lo (BitVec.ofBool b) := by
  cases b <;> rfl

theorem ofBool_beq_one (b : Bool) : ((BitVec.ofBool b).toNat == 1) = b := by
  cases b <;> rfl

/-- Fields in another order: with `lo` fixed, `simp` moves the field at `lo` behind every higher field. -/
theorem putField_after {n m : Nat} (lo x : Nat) {lo' : Nat} (u : BitVec n) (v : BitVec m) (_h : lo < lo') :
    x + putField lo u + putField lo' v = x + putField lo' v + putField lo u := Nat.add_right_comm ..

end Sys2Proof
end

