-- ==== Sys2Proof/Proofs/DecodeEncode.lean ====
section
/-! The decoder reads back what the encoder writes (01 R21 to R24). The rows of the table are taken in groups of majors: for each row
the fields of its word are read off, which decides every test of the major's chain up to the row's own. -/

namespace Sys2Proof

/-- The decoders of the 64 majors, in order. -/
noncomputable def majors : List (Nat → Option Instr) :=
  [decodeMajor00, decodeMajor01, decodeMajor02, decodeMajor03, decodeMajor04, decodeMajor05, decodeMajor06, decodeMajor07, decodeMajor08,
   decodeMajor09, decodeMajor0A, decodeMajor0B, decodeMajor0C, decodeMajor0D, decodeMajor0E, decodeMajor0F, decodeMajor10, decodeMajor11,
   decodeMajor12, decodeMajor13, decodeMajor14, decodeMajor15, decodeMajor16, decodeMajor17, decodeMajor18, decodeMajor19, decodeMajor1A,
   decodeMajor1B, decodeMajor1C, decodeMajor1D, decodeMajor1E, decodeMajor1F, decodeMajor20, decodeMajor21, decodeMajor22, decodeMajor23,
   decodeMajor24, decodeMajor25, decodeMajor26, decodeMajor27, decodeMajor28, decodeMajor29, decodeMajor2A, decodeMajor2B, decodeMajor2C,
   decodeMajor2D, decodeMajor2E, decodeMajor2F, decodeMajor30, decodeMajor31, decodeMajor32, decodeMajor33, decodeMajor34, decodeMajor35,
   decodeMajor36, decodeMajor37, decodeMajor38, decodeMajor39, decodeMajor3A, decodeMajor3B, decodeMajor3C, decodeMajor3D, decodeMajor3E,
   decodeMajor3F]

theorem decodeRaw_eq_majors (w : Nat) : decodeRaw w = majors.getD (w / 2 ^ 26) (fun _ => none) w := by
  rw [decodeRaw]
  generalize w / 2 ^ 26 = m
  by_cases h : m < 64
  · interval_cases m <;> rfl
  · obtain ⟨k, rfl⟩ := Nat.exists_eq_add_of_le' (Nat.le_of_not_lt h)
    rfl

/-- The word `w` has 32 bits, and where the operands of `i` are well formed the decoder reads `i` from it. -/
def Reads (w : Nat) (i : Instr) : Prop := w / 2 ^ 26 < 64 ∧ (wellFormed i = true → decodeRaw w = some i)

/-! The tests of the chains split at the places where operand fields begin. -/

theorem fieldOf_0_12 (w k : Nat) : fieldOf w 0 12 = k ↔ fieldOf w 0 5 = k % 2 ^ 5 ∧ fieldOf w 5 7 = k / 2 ^ 5 :=
  fieldOf_eq_iff w 0 5 7 k

theorem fieldOf_0_19 (w k : Nat) : fieldOf w 0 19 = k ↔ fieldOf w 0 12 = k % 2 ^ 12 ∧ fieldOf w 12 7 = k / 2 ^ 12 :=
  fieldOf_eq_iff w 0 12 7 k

theorem fieldOf_0_26 (w k : Nat) : fieldOf w 0 26 = k ↔ fieldOf w 0 19 = k % 2 ^ 19 ∧ fieldOf w 19 7 = k / 2 ^ 19 :=
  fieldOf_eq_iff w 0 19 7 k

theorem fieldOf_2_17 (w k : Nat) : fieldOf w 2 17 = k ↔ fieldOf w 2 10 = k % 2 ^ 10 ∧ fieldOf w 12 7 = k / 2 ^ 10 :=
  fieldOf_eq_iff w 2 10 7 k

theorem fieldOf_5_7 (w k : Nat) : fieldOf w 5 7 = k ↔ fieldOf w 5 1 = k % 2 ^ 1 ∧ fieldOf w 6 6 = k / 2 ^ 1 :=
  fieldOf_eq_iff w 5 1 6 k

theorem fieldOf_6_6 (w k : Nat) : fieldOf w 6 6 = k ↔ fieldOf w 6 1 = k % 2 ^ 1 ∧ fieldOf w 7 5 = k / 2 ^ 1 :=
  fieldOf_eq_iff w 6 1 5 k

/-- TRAP with code 0 is no instruction: its word is BRK (02 R67). -/
theorem reads_trap (code : BitVec 19) : Reads (0xfc000000 + putField 0 code) (.trap code) := by
  have hcode : fieldOf (0xfc000000 + putField 0 code) 0 26 = 0 → code = 0 := by
    intro h
    have h0 := ((fieldOf_eq_iff _ 0 19 7 0).mp h).1
    rw [fieldOf_add_putField_same _ _ _ (by decide)] at h0
    exact BitVec.eq_of_toNat_eq h0
  refine ⟨by rw [add_putField_div _ _ _ _ (by decide) (by decide)]; decide, fun hwf => ?_⟩
  have hne : code ≠ 0 := by
    rintro rfl
    exact absurd hwf (by decide)
  rw [decodeRaw_eq_majors, add_putField_div _ _ _ _ (by decide) (by decide)]
  change decodeMajor3F _ = _
  rw [decodeMajor3F, if_neg (mt hcode hne), fieldOf_add_putField_of_ge _ _ _ (by decide) (by decide), if_pos (by decide), bitsOf,
    fieldOf_add_putField_same _ _ _ (by decide), BitVec.ofNat_toNat, BitVec.setWidth_eq]

/-- The rows of majors 0x00 to 0x0C: moves and integer arithmetic. -/
theorem reads_integer (i : Instr) (lo : 96 ≤ i.ctorIdx) (hi : i.ctorIdx < 163) (w : Nat) (h : encode i = some w) : Reads w i := by
  cases i
  all_goals simp only [Instr.ctorIdx, Nat.reduceLeDiff] at lo
  all_goals simp only [Instr.ctorIdx, Nat.reduceLT] at hi
  all_goals
    obtain rfl := Option.some.inj h
    simp only [Reads]
    simp only [decodeRaw_eq_majors, majors, List.getD_cons_succ, List.getD_cons_zero, decodeMajor00, decodeMajor01, decodeMajor02, decodeMajor03,
      decodeMajor04, decodeMajor05, decodeMajor06, decodeMajor07, decodeMajor08, decodeMajor09, decodeMajor0A, decodeMajor0B,
      decodeMajor0C, ↓fieldOf_0_12, ↓fieldOf_0_19, ↓fieldOf_0_26, ↓fieldOf_5_7, ↓fieldOf_6_6, ↓add_putField_div,
      ↓fieldOf_add_putField_of_le, ↓fieldOf_add_putField_of_ge, ↓fieldOf_add_putField_same, fieldOf_eq_mod_div, bitsOf, Nat.reduceAdd,
      Nat.reduceDiv, Nat.reduceMod, Nat.reducePow, Nat.reduceLT, Nat.reduceLeDiff, Nat.reduceEqDiff, OfNat.ofNat_ne_zero,
      OfNat.ofNat_ne_one, one_ne_zero, ↓reduceIte, BitVec.ofNat_toNat, BitVec.setWidth_eq, and_true, and_false, and_self, false_and,
      implies_true]

/-- The rows of majors 0x0D to 0x1A: wide integers, votes, shuffles, branches and fused operations. -/
theorem reads_vote_and_float (i : Instr) (lo : 163 ≤ i.ctorIdx) (hi : i.ctorIdx < 237) (w : Nat) (h : encode i = some w) : Reads w i := by
  cases i
  all_goals simp only [Instr.ctorIdx, Nat.reduceLeDiff] at lo
  all_goals simp only [Instr.ctorIdx, Nat.reduceLT] at hi
  all_goals
    obtain rfl := Option.some.inj h
    simp only [Reads]
    simp only [decodeRaw_eq_majors, majors, List.getD_cons_succ, List.getD_cons_zero, decodeMajor0D, decodeMajor0E, decodeMajor0F, decodeMajor10,
      decodeMajor11, decodeMajor12, decodeMajor13, decodeMajor14, decodeMajor15, decodeMajor16, decodeMajor17, decodeMajor18,
      decodeMajor19, decodeMajor1A, ↓fieldOf_0_12, ↓fieldOf_0_19, ↓fieldOf_5_7, ↓fieldOf_6_6, ↓add_putField_div,
      ↓fieldOf_add_putField_of_le, ↓fieldOf_add_putField_of_ge, ↓fieldOf_add_putField_same, fieldOf_eq_mod_div, bitsOf, Nat.reduceAdd,
      Nat.reduceDiv, Nat.reduceMod, Nat.reducePow, Nat.reduceLT, Nat.reduceLeDiff, Nat.reduceEqDiff, OfNat.ofNat_ne_zero,
      OfNat.ofNat_ne_one, one_ne_zero, ↓reduceIte, BitVec.ofNat_toNat, BitVec.setWidth_eq, and_true, and_self, false_and, implies_true]

/-- The rows of majors 0x1B to 0x20: floating-point arithmetic and comparison. -/
theorem reads_float (i : Instr) (lo : 237 ≤ i.ctorIdx) (hi : i.ctorIdx < 301) (w : Nat) (h : encode i = some w) : Reads w i := by
  cases i
  all_goals simp only [Instr.ctorIdx, Nat.reduceLeDiff] at lo
  all_goals simp only [Instr.ctorIdx, Nat.reduceLT] at hi
  all_goals
    obtain rfl := Option.some.inj h
    simp only [Reads]
    simp only [decodeRaw_eq_majors, majors, List.getD_cons_succ, List.getD_cons_zero, decodeMajor1B, decodeMajor1C, decodeMajor1D, decodeMajor1E,
      decodeMajor1F, decodeMajor20, ↓fieldOf_0_12, ↓fieldOf_5_7, ↓fieldOf_6_6, ↓add_putField_div, ↓fieldOf_add_putField_of_le,
      ↓fieldOf_add_putField_of_ge, ↓fieldOf_add_putField_same, fieldOf_eq_mod_div, bitsOf, Nat.reduceAdd, Nat.reduceDiv, Nat.reduceMod,
      Nat.reducePow, Nat.reduceLT, Nat.reduceLeDiff, Nat.reduceEqDiff, OfNat.ofNat_ne_zero, OfNat.ofNat_ne_one, one_ne_zero, ↓reduceIte,
      BitVec.ofNat_toNat, BitVec.setWidth_eq, and_true, and_self, false_and, implies_true]

/-- The rows of majors 0x21 to 0x26: roots, elementary functions and conversions. -/
theorem reads_convert (i : Instr) (lo : 301 ≤ i.ctorIdx) (hi : i.ctorIdx < 344) (w : Nat) (h : encode i = some w) : Reads w i := by
  cases i
  all_goals simp only [Instr.ctorIdx, Nat.reduceLeDiff] at lo
  all_goals simp only [Instr.ctorIdx, Nat.reduceLT] at hi
  all_goals
    obtain rfl := Option.some.inj h
    simp only [Reads, putBit_eq, putField_after 1, putField_after 2, putField_after 5, Nat.reduceLT]
    simp only [decodeRaw_eq_majors, majors, List.getD_cons_succ, List.getD_cons_zero, decodeMajor21, decodeMajor22, decodeMajor23, decodeMajor24,
      decodeMajor25, decodeMajor26, ↓fieldOf_5_7, ↓fieldOf_6_6, ↓add_putField_div, ↓fieldOf_add_putField_of_le,
      ↓fieldOf_add_putField_of_ge, ↓fieldOf_add_putField_same, fieldOf_eq_mod_div, bitsOf, ofBool_beq_one, Nat.reduceAdd, Nat.reduceDiv,
      Nat.reduceMod, Nat.reducePow, Nat.reduceLT, Nat.reduceLeDiff, Nat.reduceEqDiff, OfNat.ofNat_ne_zero, OfNat.ofNat_ne_one,
      one_ne_zero, zero_ne_one, ↓reduceIte, BitVec.ofNat_toNat, BitVec.setWidth_eq, and_true, and_false, and_self, implies_true]

/-- The rows of majors 0x27 to 0x31: memory accesses, atomics and reductions. -/
theorem reads_memory (i : Instr) (lo : 344 ≤ i.ctorIdx) (hi : i.ctorIdx < 406) (w : Nat) (h : encode i = some w) : Reads w i := by
  cases i
  all_goals simp only [Instr.ctorIdx, Nat.reduceLeDiff] at lo
  all_goals simp only [Instr.ctorIdx, Nat.reduceLT] at hi
  all_goals
    obtain rfl := Option.some.inj h
    simp only [Reads, putField_after 0, putField_after 2, putField_after 3, Nat.reduceLT]
    simp only [decodeRaw_eq_majors, majors, List.getD_cons_succ, List.getD_cons_zero, decodeMajor27, decodeMajor28, decodeMajor29, decodeMajor2A,
      decodeMajor2B, decodeMajor2C, decodeMajor2D, decodeMajor2E, decodeMajor2F, decodeMajor30, decodeMajor31, ↓fieldOf_5_7,
      ↓fieldOf_6_6, ↓add_putField_div, ↓fieldOf_add_putField_of_le, ↓fieldOf_add_putField_of_ge, ↓fieldOf_add_putField_same,
      fieldOf_eq_mod_div, bitsOf, Nat.reduceAdd, Nat.reduceDiv, Nat.reduceMod, Nat.reducePow, Nat.reduceLT, Nat.reduceLeDiff,
      Nat.reduceEqDiff, OfNat.ofNat_ne_zero, OfNat.ofNat_ne_one, one_ne_zero, ↓reduceIte, BitVec.ofNat_toNat, BitVec.setWidth_eq,
      and_true, and_self, implies_true]

/-- The rows of majors 0x32 to 0x38: barriers, transactions, caches, tokens, pools and tiles. -/
theorem reads_sync_and_tile (i : Instr) (lo : 406 ≤ i.ctorIdx) (hi : i.ctorIdx < 457) (w : Nat) (h : encode i = some w) : Reads w i := by
  cases i
  all_goals simp only [Instr.ctorIdx, Nat.reduceLeDiff] at lo
  all_goals simp only [Instr.ctorIdx, Nat.reduceLT] at hi
  all_goals
    obtain rfl := Option.some.inj h
    simp only [Reads, putField_after 0, Nat.reduceLT]
    simp only [decodeRaw_eq_majors, majors, List.getD_cons_succ, List.getD_cons_zero, decodeMajor32, decodeMajor33, decodeMajor34, decodeMajor35,
      decodeMajor36, decodeMajor37, decodeMajor38, ↓fieldOf_0_12, ↓fieldOf_0_19, ↓fieldOf_0_26, ↓fieldOf_2_17, ↓fieldOf_5_7,
      ↓fieldOf_6_6, ↓add_putField_div, ↓fieldOf_add_putField_of_le, ↓fieldOf_add_putField_of_ge, ↓fieldOf_add_putField_same,
      fieldOf_eq_mod_div, bitsOf, Nat.reduceAdd, Nat.reduceDiv, Nat.reduceMod, Nat.reducePow, Nat.reduceLT, Nat.reduceLeDiff,
      Nat.reduceEqDiff, OfNat.ofNat_ne_zero, OfNat.zero_ne_ofNat, OfNat.ofNat_ne_one, one_ne_zero, zero_ne_one, ↓reduceIte,
      BitVec.ofNat_toNat, BitVec.setWidth_eq, and_true, and_false, and_self, false_and, implies_true]

/-- The rows of majors 0x39 to 0x3F: matrix, engines, near memory, queues, waits and system. -/
theorem reads_system (i : Instr) (lo : 457 ≤ i.ctorIdx) (hi : i.ctorIdx < 487) (w : Nat) (h : encode i = some w) : Reads w i := by
  cases i
  case trap code => cases h; exact reads_trap code
  all_goals simp only [Instr.ctorIdx, Nat.reduceLeDiff] at lo
  all_goals simp only [Instr.ctorIdx, Nat.reduceLT] at hi
  all_goals
    obtain rfl := Option.some.inj h
    simp only [Reads, putBit_eq, putField_after 2, putField_after 4, Nat.reduceLT]
    simp only [decodeRaw_eq_majors, majors, List.getD_cons_succ, List.getD_cons_zero, decodeMajor39, decodeMajor3A, decodeMajor3B, decodeMajor3C,
      decodeMajor3D, decodeMajor3E, decodeMajor3F, ↓fieldOf_0_12, ↓fieldOf_0_19, ↓fieldOf_0_26, ↓fieldOf_5_7, ↓fieldOf_6_6,
      ↓add_putField_div, ↓fieldOf_add_putField_of_le, ↓fieldOf_add_putField_of_ge, ↓fieldOf_add_putField_same, fieldOf_eq_mod_div,
      bitsOf, ofBool_beq_one, Nat.reduceAdd, Nat.reduceDiv, Nat.reduceMod, Nat.reducePow, Nat.reduceLT, Nat.reduceLeDiff,
      Nat.reduceEqDiff, OfNat.ofNat_ne_zero, OfNat.ofNat_ne_one, one_ne_zero, ↓reduceIte, BitVec.ofNat_toNat, BitVec.setWidth_eq,
      and_true, and_self, false_and, implies_true]

theorem encode_isSome {i : Instr} (hi : 96 ≤ i.ctorIdx) : ∃ w, encode i = some w := by
  cases i
  all_goals simp only [Instr.ctorIdx, Nat.reduceLeDiff] at hi
  all_goals exact ⟨_, rfl⟩

theorem reads_of_encode {i : Instr} {w : Nat} (hi : 96 ≤ i.ctorIdx) (h : encode i = some w) : Reads w i := by
  have hlast : i.ctorIdx < 487 := by cases i <;> exact Nat.le_of_ble_eq_true rfl
  rcases Nat.lt_or_ge i.ctorIdx 163 with h1 | h1
  · exact reads_integer i hi h1 w h
  rcases Nat.lt_or_ge i.ctorIdx 237 with h2 | h2
  · exact reads_vote_and_float i h1 h2 w h
  rcases Nat.lt_or_ge i.ctorIdx 301 with h3 | h3
  · exact reads_float i h2 h3 w h
  rcases Nat.lt_or_ge i.ctorIdx 344 with h4 | h4
  · exact reads_convert i h3 h4 w h
  rcases Nat.lt_or_ge i.ctorIdx 406 with h5 | h5
  · exact reads_memory i h4 h5 w h
  rcases Nat.lt_or_ge i.ctorIdx 457 with h6 | h6
  · exact reads_sync_and_tile i h5 h6 w h
  · exact reads_system i h6 hlast w h

/-- Settles O1: row by row, the fields of the encoded word decide the tests of its major up to the row's own (`reads_of_encode`). -/
theorem decodeEncodeAgree : Obligations.DecodeEncodeAgree := by
  intro i hwf hi
  obtain ⟨w, hw⟩ : ∃ w, encode i = some w := encode_isSome hi
  obtain ⟨hmajor, hraw⟩ := reads_of_encode hi hw
  refine ⟨w, hw, by omega, ?_⟩
  rw [decodeWord, hraw hwf, Option.filter_some, if_pos hwf]

end Sys2Proof
end


-- ==== Sys2Proof/Proofs/EncodeDecode.lean ====
section
/-! The encoder writes back what the decoder reads (01 R24). The part of a word below bit `k` is `low w k`; a field from `lo` to `lo + n` at
its place is `low w (lo + n) - low w lo`, so the sum of adjacent fields telescopes to the word. -/

namespace Sys2Proof

/-- The bits of `w` below bit `k`, as an integer so that differences of them can be written. -/
def low (w k : Nat) : Int := (w % 2 ^ k : Nat)

theorem low_zero (w : Nat) : low w 0 = 0 := by
  simp [low, Nat.mod_one]

theorem low_add (w lo n : Nat) : low w (lo + n) = low w lo + fieldOf w lo n * 2 ^ lo := by
  rw [low, low, fieldOf, Nat.pow_add, Nat.mod_mul]
  push_cast
  ring

/-- A word is its low 26 bits and its major. -/
theorem eq_low_add_major {w m : Nat} (hm : w / 2 ^ 26 = m) : (w : Int) = low w 26 + m * 2 ^ 26 := by
  subst hm
  rw [low]
  omega

theorem fieldOf_eq_iff_low (w lo n k : Nat) : fieldOf w lo n = k ↔ low w (lo + n) = low w lo + k * 2 ^ lo := by
  have hpos : (2 : Int) ^ lo ≠ 0 := by positivity
  rw [low_add, add_right_inj, mul_left_inj' hpos, Nat.cast_inj]

theorem cast_putField_bitsOf (w lo n : Nat) : ((putField lo (bitsOf w lo n) : Nat) : Int) = low w (lo + n) - low w lo := by
  simp [low_add, putField, bitsOf, fieldOf]

theorem cast_putBit_fieldOf (w lo : Nat) : ((putBit lo (fieldOf w lo 1 == 1) : Nat) : Int) = low w (lo + 1) - low w lo := by
  rw [low_add]
  rcases Nat.mod_two_eq_zero_or_one (w / 2 ^ lo) with h | h <;> simp [putBit, fieldOf, h]

/-- Whatever instruction `x` is, its word is `w`. -/
def WritesBack (w : Nat) (x : Option Instr) : Prop := ∀ i, x = some i → encode i = some w

theorem writesBack_none (w : Nat) : WritesBack w none := nofun

theorem writesBack_some {w v : Nat} {i : Instr} (he : encode i = some v) (hv : (v : Int) = w) : WritesBack w (some i) := by
  rintro _ ⟨⟩
  rw [he, Nat.cast_inj.mp hv]

theorem writesBack_ite {w : Nat} {c : Prop} [Decidable c] {x y : Option Instr} (hx : c → WritesBack w x) (hy : WritesBack w y) :
    WritesBack w (if c then x else y) := by
  split
  · exact hx ‹c›
  · exact hy

theorem writesBack_integer (w m : Nat) (hm : w / 2 ^ 26 = m) (lo : 0 ≤ m) (hi : m ≤ 12) :
    WritesBack w (majors.getD m (fun _ => none) w) := by
  have hw := eq_low_add_major hm
  clear hm
  interval_cases m
  all_goals
    simp only [majors, List.getD_cons_succ, List.getD_cons_zero,
      decodeMajor00, decodeMajor01, decodeMajor02, decodeMajor03, decodeMajor04, decodeMajor05, decodeMajor06, decodeMajor07,
      decodeMajor08, decodeMajor09, decodeMajor0A, decodeMajor0B, decodeMajor0C]
    repeat' refine writesBack_ite (fun h => ?_) ?_
  any_goals exact writesBack_none w
  all_goals
    refine writesBack_some rfl ?_
    simp only [↓cast_putField_bitsOf, ↓fieldOf_eq_iff_low, Nat.cast_add, Nat.cast_ofNat, Nat.cast_zero,
      Nat.cast_one, Nat.reduceAdd, low_zero] at *
    omega

theorem writesBack_vote_and_float (w m : Nat) (hm : w / 2 ^ 26 = m) (lo : 13 ≤ m) (hi : m ≤ 26) :
    WritesBack w (majors.getD m (fun _ => none) w) := by
  have hw := eq_low_add_major hm
  clear hm
  interval_cases m
  all_goals
    simp only [majors, List.getD_cons_succ, List.getD_cons_zero,
      decodeMajor0D, decodeMajor0E, decodeMajor0F, decodeMajor10, decodeMajor11, decodeMajor12, decodeMajor13, decodeMajor14,
      decodeMajor15, decodeMajor16, decodeMajor17, decodeMajor18, decodeMajor19, decodeMajor1A]
    repeat' refine writesBack_ite (fun h => ?_) ?_
  any_goals exact writesBack_none w
  all_goals
    refine writesBack_some rfl ?_
    simp only [↓cast_putField_bitsOf, ↓fieldOf_eq_iff_low, Nat.cast_add, Nat.cast_ofNat, Nat.cast_zero,
      Nat.cast_one, Nat.reduceAdd, low_zero] at *
    omega

theorem writesBack_float (w m : Nat) (hm : w / 2 ^ 26 = m) (lo : 27 ≤ m) (hi : m ≤ 32) :
    WritesBack w (majors.getD m (fun _ => none) w) := by
  have hw := eq_low_add_major hm
  clear hm
  interval_cases m
  all_goals
    simp only [majors, List.getD_cons_succ, List.getD_cons_zero,
      decodeMajor1B, decodeMajor1C, decodeMajor1D, decodeMajor1E, decodeMajor1F, decodeMajor20]
    repeat' refine writesBack_ite (fun h => ?_) ?_
  any_goals exact writesBack_none w
  all_goals
    refine writesBack_some rfl ?_
    simp only [↓cast_putField_bitsOf, ↓fieldOf_eq_iff_low, Nat.cast_add, Nat.cast_ofNat, Nat.cast_zero,
      Nat.cast_one, Nat.reduceAdd, low_zero] at *
    omega

theorem writesBack_convert (w m : Nat) (hm : w / 2 ^ 26 = m) (lo : 33 ≤ m) (hi : m ≤ 38) :
    WritesBack w (majors.getD m (fun _ => none) w) := by
  have hw := eq_low_add_major hm
  clear hm
  interval_cases m
  all_goals
    simp only [majors, List.getD_cons_succ, List.getD_cons_zero,
      decodeMajor21, decodeMajor22, decodeMajor23, decodeMajor24, decodeMajor25, decodeMajor26]
    repeat' refine writesBack_ite (fun h => ?_) ?_
  any_goals exact writesBack_none w
  all_goals
    refine writesBack_some rfl ?_
    simp only [↓cast_putField_bitsOf, ↓cast_putBit_fieldOf, ↓fieldOf_eq_iff_low, Nat.cast_add, Nat.cast_ofNat, Nat.cast_zero,
      Nat.cast_one, Nat.reduceAdd, low_zero] at *
    omega

theorem writesBack_memory (w m : Nat) (hm : w / 2 ^ 26 = m) (lo : 39 ≤ m) (hi : m ≤ 49) :
    WritesBack w (majors.getD m (fun _ => none) w) := by
  have hw := eq_low_add_major hm
  clear hm
  interval_cases m
  all_goals
    simp only [majors, List.getD_cons_succ, List.getD_cons_zero,
      decodeMajor27, decodeMajor28, decodeMajor29, decodeMajor2A, decodeMajor2B, decodeMajor2C, decodeMajor2D, decodeMajor2E,
      decodeMajor2F, decodeMajor30, decodeMajor31]
    repeat' refine writesBack_ite (fun h => ?_) ?_
  any_goals exact writesBack_none w
  all_goals
    refine writesBack_some rfl ?_
    simp only [↓cast_putField_bitsOf, ↓fieldOf_eq_iff_low, Nat.cast_add, Nat.cast_ofNat, Nat.cast_zero,
      Nat.cast_one, Nat.reduceAdd, low_zero] at *
    omega

theorem writesBack_sync_and_tile (w m : Nat) (hm : w / 2 ^ 26 = m) (lo : 50 ≤ m) (hi : m ≤ 56) :
    WritesBack w (majors.getD m (fun _ => none) w) := by
  have hw := eq_low_add_major hm
  clear hm
  interval_cases m
  all_goals
    simp only [majors, List.getD_cons_succ, List.getD_cons_zero,
      decodeMajor32, decodeMajor33, decodeMajor34, decodeMajor35, decodeMajor36, decodeMajor37, decodeMajor38]
    repeat' refine writesBack_ite (fun h => ?_) ?_
  any_goals exact writesBack_none w
  all_goals
    refine writesBack_some rfl ?_
    simp only [↓cast_putField_bitsOf, ↓fieldOf_eq_iff_low, Nat.cast_add, Nat.cast_ofNat, Nat.cast_zero,
      Nat.cast_one, Nat.reduceAdd, low_zero] at *
    omega

theorem writesBack_system (w m : Nat) (hm : w / 2 ^ 26 = m) (lo : 57 ≤ m) (hi : m ≤ 63) :
    WritesBack w (majors.getD m (fun _ => none) w) := by
  have hw := eq_low_add_major hm
  clear hm
  interval_cases m
  all_goals
    simp only [majors, List.getD_cons_succ, List.getD_cons_zero,
      decodeMajor39, decodeMajor3A, decodeMajor3B, decodeMajor3C, decodeMajor3D, decodeMajor3E, decodeMajor3F]
    repeat' refine writesBack_ite (fun h => ?_) ?_
  any_goals exact writesBack_none w
  all_goals
    refine writesBack_some rfl ?_
    simp only [↓cast_putField_bitsOf, ↓cast_putBit_fieldOf, ↓fieldOf_eq_iff_low, Nat.cast_add, Nat.cast_ofNat, Nat.cast_zero,
      Nat.cast_one, Nat.reduceAdd, low_zero] at *
    omega

theorem writesBack_decodeRaw {w : Nat} (hw : w < 2 ^ 32) : WritesBack w (decodeRaw w) := by
  rw [decodeRaw_eq_majors]
  have hlast : w / 2 ^ 26 ≤ 63 := by omega
  rcases Nat.lt_or_ge (w / 2 ^ 26) 0x0D with h1 | h1
  · exact writesBack_integer w _ rfl (Nat.zero_le _) (Nat.le_of_lt_succ h1)
  rcases Nat.lt_or_ge (w / 2 ^ 26) 0x1B with h2 | h2
  · exact writesBack_vote_and_float w _ rfl h1 (Nat.le_of_lt_succ h2)
  rcases Nat.lt_or_ge (w / 2 ^ 26) 0x21 with h3 | h3
  · exact writesBack_float w _ rfl h2 (Nat.le_of_lt_succ h3)
  rcases Nat.lt_or_ge (w / 2 ^ 26) 0x27 with h4 | h4
  · exact writesBack_convert w _ rfl h3 (Nat.le_of_lt_succ h4)
  rcases Nat.lt_or_ge (w / 2 ^ 26) 0x32 with h5 | h5
  · exact writesBack_memory w _ rfl h4 (Nat.le_of_lt_succ h5)
  rcases Nat.lt_or_ge (w / 2 ^ 26) 0x39 with h6 | h6
  · exact writesBack_sync_and_tile w _ rfl h5 (Nat.le_of_lt_succ h6)
  · exact writesBack_system w _ rfl h6 hlast

/-- Settles O2: every row that a chain of tests answers writes its word back (`writesBack_decodeRaw`). -/
theorem encodeDecodeAgree : Obligations.EncodeDecodeAgree := by
  intro w i hw h
  obtain ⟨hraw, hwf⟩ := Option.filter_eq_some_iff.mp h
  exact ⟨writesBack_decodeRaw hw i hraw, hwf⟩

end Sys2Proof
end


-- ==== Sys2Proof/Proofs/Answers.lean ====
section
/-! Nothing stops the machine (01 R25, 10 R278, R280): the issue of an operation at issue ends in a next state whatever its form and body, every
instruction is such an issue, most of them through the shared operation of their family; and every branch of an event ends in a next state. -/

namespace Sys2Proof.Machine

open Sys2Proof

/-- The outcome is a next state. -/
def Answers (o : Out) : Prop := ∃ s, o = .next s

theorem answers_next (s : State) : Answers (.next s) := ⟨s, rfl⟩

theorem answers_ite {c : Prop} [Decidable c] {o p : Out} (ho : Answers o) (hp : Answers p) : Answers (if c then o else p) := by
  split
  · exact ho
  · exact hp

/-! ## Instructions -/

section
variable {s : State} {op : Op} {t : Team} {g : Group} (ht : Turn s op t g)
include ht

theorem issue_answers (f : Form) (body : Iss → State → State × List LaneOut) : Answers (issue f body s) := by
  simp only [issue, ht.cur, ht.team, ht.group, if_neg ht.some]
  exact answers_ite (answers_next _) (answers_ite (answers_next _) (answers_ite (answers_next _)
    (answers_ite (answers_next _) (answers_ite (answers_next _) (answers_next _)))))

theorem issueIllegal_answers : Answers (issueIllegal s) := by
  simp only [issueIllegal, ht.cur, if_neg ht.some]
  exact answers_next _

theorem alu_answers (rule d a b f) : Answers (alu rule d a b f s) := issue_answers ht _ _

theorem alu1_answers (rule d a f) : Answers (alu1 rule d a f s) := issue_answers ht _ _

theorem alu64_answers (d a b nd na nb f) : Answers (alu64 d a b nd na nb f s) := issue_answers ht _ _

theorem reduce_answers (d a n f) : Answers (reduce d a n f s) := issue_answers ht _ _

theorem shuffle_answers (d a b src) : Answers (shuffle d a b src s) := issue_answers ht _ _

theorem floatOp_answers (form n rm f) : Answers (floatOp form n rm f s) := issue_answers ht _ _

theorem float1_answers (nd na rm d a f) : Answers (float1 nd na rm d a f s) := floatOp_answers ht _ _ _ _

theorem float2_answers (n rm d a b f) : Answers (float2 n rm d a b f s) := floatOp_answers ht _ _ _ _

theorem float3_answers (n rm d a b f) : Answers (float3 n rm d a b f s) := floatOp_answers ht _ _ _ _

theorem floatSel_answers (nd na nb d a b f) : Answers (floatSel nd na nb d a b f s) := floatOp_answers ht _ _ _ _

theorem floatSel1_answers (nd na d a f) : Answers (floatSel1 nd na d a f s) := floatOp_answers ht _ _ _ _

theorem dot_answers (f n rm d a b) : Answers (dot f n rm d a b s) := floatOp_answers ht _ _ _ _

theorem loadFrom_answers (pol w d a srcs addr) : Answers (loadFrom pol w d a srcs addr s) := by
  delta loadFrom
  exact issue_answers ht _ _

theorem storeTo_answers (pol w d a srcs addr) : Answers (storeTo pol w d a srcs addr s) := by
  delta storeTo
  exact issue_answers ht _ _

theorem asyncCopy_answers (toScr size d a b) : Answers (asyncCopy toScr size d a b s) := by
  delta asyncCopy
  exact issue_answers ht _ _

theorem atomic_answers (op wide d a b) : Answers (atomic op wide d a b s) := by
  delta atomic
  exact issue_answers ht _ _

theorem reduction_answers (code a b) : Answers (reduction code a b s) := by
  delta reduction
  exact issue_answers ht _ _

theorem barOp_answers (f a body) : Answers (barOp f a body s) := issue_answers ht _ _

theorem ringOp_answers (id srcs d f after) : Answers (ringOp id srcs d f after s) := issue_answers ht _ _

theorem fence_answers (rel acq scope) : Answers (fence rel acq scope s) := issue_answers ht _ _

theorem waitWord_answers (a b kind f) : Answers (waitWord a b kind f s) := issue_answers ht _ _

theorem cacheOp_answers (a b f) : Answers (cacheOp a b f s) := issue_answers ht _ _

theorem regnOp_answers (d a bs f) : Answers (regnOp d a bs f s) := issue_answers ht _ _

theorem poolOp_answers (grow role d a b) : Answers (poolOp grow role d a b s) := issue_answers ht _ _

theorem tileOp_answers (roles srcs body) : Answers (tileOp roles srcs body s) := issue_answers ht _ _

theorem segmentOp_answers (k b reg n odd dst body) : Answers (segmentOp k b reg n odd dst body s) := issue_answers ht _ _

theorem mma_answers (seq lat acc d a b) : Answers (mma seq lat acc d a b s) := tileOp_answers ht _ _ _

theorem queueOp_answers (d a b code f) : Answers (queueOp d a b code f s) := issue_answers ht _ _

theorem execArrive_answers (d a b) : Answers (execArrive d a b s) := by
  delta execArrive
  exact issue_answers ht _ _

theorem execFred_answers (op a b) : Answers (execFred op a b s) := by
  delta execFred
  exact issue_answers ht _ _

theorem execWrsr_answers (a n) : Answers (execWrsr a n s) := by
  delta execWrsr
  exact issue_answers ht _ _

theorem instruction_answers (i : Instr) (hi : 96 ≤ i.ctorIdx) : Answers (exec i s) := by
  cases i
  all_goals simp only [Instr.ctorIdx, Nat.reduceLeDiff] at hi
  all_goals delta exec
  case ill => exact issueIllegal_answers ht
  case add | sub | mul | mulhI32 | mulhN32 | and | or | xor | andn | orn | sll | srl | sra | rol | minI32 | maxI32 | minN32 | maxN32 |
      addsI32 | subsI32 | divI32 | divN32 | remI32 | remN32 | ceq | cne | cltI32 | cleI32 | cltN32 | cleN32 | bfi =>
    exact alu_answers ht _ _ _ _ _
  case mov | addi | andi | ori | xori | slli | srli | srai | roli | ceqi | cnei | cltiI32 | cleiI32 | cgtiI32 | cltiN32 | cleiN32 |
      cgtiN32 | bfx | bfxs | clz | ctz | popc | brev | bswap | sext8 | sext16 | abs | neg | not =>
    exact alu1_answers ht _ _ _ _
  case add64 | sub64 | mul64 | mulwI32 | mulwN32 | addwI32 | addwN32 | sll64 | srl64 | sra64 | ceq64 | clt64I64 | clt64N64 | min64N64 |
      max64N64 =>
    exact alu64_answers ht _ _ _ _ _ _ _
  case vany | vall | rfl | radd | rminI32 | rmaxI32 | rmaxN32 =>
    exact reduce_answers ht _ _ _ _
  case shfl | shflu | shfld | shflx =>
    exact shuffle_answers ht _ _ _ _
  case fexp2D | flog2D | fsinpiD | fcospiD | fexp2S | flog2S | fsinpiS | fcospiS =>
    exact floatOp_answers ht _ _ _ _
  case fsqrtD | frcpD | frintD | frsqD | fsqrtS | frcpS | frintS | frsqS | fcvtSD | fcvtDS | fcvtSH | fcvtSBf | fcvtHS | fcvtBS |
      fcvtSE4m3 | fcvtSE5m2 | fcvtSDpt8 | fcvtSSpt4Low | fcvtSSpt4High | fcvtI32S | fcvtSI32 | fcvtI32D | fcvtDI32 | fcvtN32S |
      fcvtSN32 | fcvtN32D | fcvtDN32 | fcvtI64D | fcvtDI64 | fcvtN64D | fcvtDN64 | fqntScale =>
    exact float1_answers ht _ _ _ _ _ _
  case faddD | fsubD | fmulD | fdivD | faddS | fsubS | fmulS | fdivS | faddH | fsubH | fmulH | fdivH | faddB | fsubB | fmulB | fdivB |
      fpackH2 | fpackB2 =>
    exact float2_answers ht _ _ _ _ _ _
  case fmacD | fmscD | fnmacD | fnmscD | fmacS | fmscS | fnmacS | fnmscS | fmacH | fmscH | fnmacH | fnmscH | fmacB | fmscB | fnmacB |
      fnmscB | fpackE4m3 | fpackE5m2 | fqntDpt8 | fqntSpt4 =>
    exact float3_answers ht _ _ _ _ _ _
  case fminD | fmaxD | fminnumD | fmaxnumD | fcpsgnD | fceqD | fcltD | fcleD | fcunD | fscalbD | fminS | fmaxS | fminnumS | fmaxnumS |
      fcpsgnS | fceqS | fcltS | fcleS | fcunS | fscalbS | fminH | fmaxH | fminnumH | fmaxnumH | fcpsgnH | fceqH | fcltH | fcleH | fcunH |
      fscalbH | fminB | fmaxB | fminnumB | fmaxnumB | fcpsgnB | fceqB | fcltB | fcleB | fcunB | fscalbB =>
    exact floatSel_answers ht _ _ _ _ _ _ _
  case fabsD | fnegD | fclassD | fabsS | fnegS | fclassS | fabsH | fnegH | fclassH | fabsB | fnegB | fclassB =>
    exact floatSel1_answers ht _ _ _ _ _
  case fdotH2 | fdotB2 | fdotE4m3 | fdotE5m2 =>
    exact dot_answers ht _ _ _ _ _ _
  case ld | ldi =>
    exact loadFrom_answers ht _ _ _ _ _ _
  case st | sti =>
    exact storeTo_answers ht _ _ _ _ _ _
  case acpG2s | acpS2g =>
    exact asyncCopy_answers ht _ _ _ _ _
  case atomAdd | atomAnd | atomOr | atomXor | atomMinI32 | atomMaxI32 | atomMinN32 | atomMaxN32 | atomXchg | atomCas | atomIncw |
      atomDecw | atomFaddS | atomFminS | atomFmaxS | atomFaddH2 | atomFaddB2 | atom64Add | atom64And | atom64Or | atom64Xor |
      atom64MinI64 | atom64MaxI64 | atom64MinN64 | atom64MaxN64 | atom64Xchg | atom64Cas | atom64Incw | atom64Decw | atom64FaddD |
      atom64FminD | atom64FmaxD =>
    exact atomic_answers ht _ _ _ _ _
  case redAdd | redAnd | redOr | redXor | redMinI32 | redMaxI32 | redMinN32 | redMaxN32 | redFaddS | redFminS | redFmaxS | redFaddH2 |
      redFaddB2 | redAdd64 | redFaddD =>
    exact reduction_answers ht _ _ _
  case binit | arriveb | expect | bwait | btest =>
    exact barOp_answers ht _ _ _
  case ringa | ringf | ringw | ringe =>
    exact ringOp_answers ht _ _ _ _ _
  case fenceAcq | fenceRel | fenceAr | fenceSc =>
    exact fence_answers ht _ _ _
  case waitw | waitx =>
    exact waitWord_answers ht _ _ _ _
  case cwb | cinv | cwbi | iinv | pref =>
    exact cacheOp_answers ht _ _ _
  case acqr | relr | qryr | givr =>
    exact regnOp_answers ht _ _ _ _
  case poolGrow | poolShrink =>
    exact poolOp_answers ht _ _ _ _ _
  case tld | tldt | tst | tzero | tmov | tlatch =>
    exact tileOp_answers ht _ _ _
  case trdr | twrr | tlsf =>
    exact segmentOp_answers ht _ _ _ _ _ _ _
  case mmaWin | mmaSeq =>
    exact mma_answers ht _ _ _ _ _ _
  case qpush | qpop =>
    exact queueOp_answers ht _ _ _ _ _
  case arrive => exact execArrive_answers ht _ _ _
  case fred => exact execFred_answers ht _ _ _
  case wrsr => exact execWrsr_answers ht _ _
  case nop | sel | mset | mget | exit | wbase | winq | tagq | rdy | clock | rngr | rngw | fxclr | gcw | lui | auipc | madwN32 | ballot |
      active | elect | scanadd | lmasklt | bz | bnz | jal | jr | meet | cmov | cnarrow | cperm | cget | ctag | cclr | cmint | scrLd |
      scrSt | tbegin | tend | tabort | tstat | gsync | tsync | fenceAcqDevPromote | fetchb | yield | sleep | poolQuery | poolMap |
      poolStat | tshape | mfence | mwait | mcw | mcrd | mseq | qfree | launch | lrel | lpatch | engCpy | engBin | engMig | ewait |
      estat | nmcall | nmwalk | nmret | rdsr | tlbinv | vpurge | attrchg | tret | haltc | trap | brk =>
    exact issue_answers ht _ _

end

/-! ## Events -/

theorem event_answers (i : Instr) (s : State) (hi : i.ctorIdx < 96) : Answers (exec i s) := by
  cases i
  all_goals simp only [Instr.ctorIdx, Nat.reduceLT] at hi
  all_goals delta exec
  case evLoadLanding | evSleepExpiry | evAcpPartLanding | evFaultRecordWrite | evInputQueuePop | evTeamEnd | evLaunchComplete |
      evTeamSave | evTeamRestore | evWatchdogExpiry | evKill | evBankDrain | evBankRelocation | evShrinkQuiesce | evPoolCommit |
      evTlatchPerform | evMmaComplete | evMseqStep | evCpyExecution | evBinExecution | evMigrationPage | evCallStart | evCallCompletion |
      evCallBudgetExpiry | evWalkRecord | evFredInMemory | evExchangeClose | evExchangeOptimise | evExchangeBroadcast |
      evExchangeErrorPath | evDescriptorValidate | evImageCheck | evFirmwareStart | evBootTrainingTimeout | evRefreshInterval =>
    dsimp only
    delta execEvLoadLanding execEvSleepExpiry execEvAcpPartLanding execEvFaultRecordWrite execEvInputQueuePop execEvTeamEnd
      execEvLaunchComplete execEvTeamSave execEvTeamRestore execEvWatchdogExpiry execEvKill execEvBankDrain execEvBankRelocation
      execEvShrinkQuiesce execEvPoolCommit execEvTlatchPerform execEvMmaComplete execEvMseqStep execEvCpyExecution execEvBinExecution
      execEvMigrationPage execEvCallStart execEvCallCompletion execEvCallBudgetExpiry execEvWalkRecord execEvFredInMemory
      execEvExchangeClose execEvExchangeOptimise execEvExchangeBroadcast execEvExchangeErrorPath execEvDescriptorValidate
      execEvImageCheck execEvFirmwareStart execEvBootTrainingTimeout execEvRefreshInterval
    repeat' first | split | extract_lets
    all_goals exact answers_next _
  all_goals exact answers_next _

end Sys2Proof.Machine

namespace Sys2Proof.Claims

open Sys2Proof Machine

/-- Settles O6: an instruction answers because every one is an issue (`instruction_answers`), an event because every branch of it ends in a
next state (`event_answers`). -/
theorem everyInstructionAnswers : Obligations.EveryInstructionAnswers := by
  intro i s h
  rcases Nat.lt_or_ge i.ctorIdx 96 with hi | hi
  · exact event_answers i s hi
  · obtain ⟨op, t, g, ht⟩ := h hi
    exact instruction_answers ht i hi

end Sys2Proof.Claims
end

