-- ==== Sys2Proof/Proofs/WorkedWords.lean ====
section
/-! The worked words of the spec (01 R21, R24): closed instances of the decoder. -/

namespace Sys2Proof.Claims

open Sys2Proof

/-- Settles O3: the decoder computes on each of the words. -/
theorem decodeWorkedWords : Obligations.DecodeWorkedWords :=
  ⟨rfl, rfl, rfl, rfl, rfl, rfl, rfl, rfl, rfl, rfl, rfl, rfl, rfl, rfl, rfl, rfl, rfl, rfl⟩

end Sys2Proof.Claims
end

