-- ==== Sys2Proof/Proofs/AffineResult.lean ====
section
/-! The A shapes of results (01 R33, R34), each operation over the sum of base and lane times stride; a destination from 112 on (01 R27). -/

namespace Sys2Proof.Machine
open Sys2Proof

theorem Shape.at_a (b st : Word) (l : Nat) : (Shape.a b st).at l = b + BitVec.ofNat 32 l * st := rfl

theorem Shape.at_of_cls_a {v : Shape} (h : v.cls = .a) (l : Nat) : v.at l = v.base + BitVec.ofNat 32 l * v.stride := by
  cases v with
  | a b st => rfl
  | u x => cases h
  | g vs => cases h

theorem Shape.at_of_cls_u {v : Shape} (h : v.cls = .u) (l : Nat) : v.at l = v.base := by
  cases v with
  | u x => rfl
  | a b st => cases h
  | g vs => cases h

theorem Shape.stride_of_cls_u {v : Shape} (h : v.cls = .u) : v.stride = 0 := by
  cases v with
  | u x => rfl
  | a b st => cases h
  | g vs => cases h

/-- A left shift distributes over a base and its strides. -/
theorem shiftLeft_add_mul (b st k : Word) (n : Nat) : (b + k * st) <<< n = b <<< n + k * (st <<< n) := by
  simp only [BitVec.shiftLeft_eq_mul_twoPow]
  ring

theorem affine_add_at {w : View} {a b : Reg} {v : Shape} (h : w.affine (.add a b) = some v) (l : Nat) :
    v.at l = w.reg a l + w.reg b l := by
  simp only [View.affine, Option.ite_none_right_eq_some, Option.some.injEq, Bool.or_eq_true, Bool.and_eq_true, beq_iff_eq] at h
  obtain ⟨⟨ha, hb⟩ | ⟨ha, hb⟩, rfl⟩ := h
  · rw [View.reg, View.reg, Shape.at_of_cls_a ha, Shape.at_of_cls_u hb, Shape.at_a, Shape.stride_of_cls_u hb]
    ring
  · rw [View.reg, View.reg, Shape.at_of_cls_u ha, Shape.at_of_cls_a hb, Shape.at_a, Shape.stride_of_cls_u ha]
    ring

theorem affine_sub_at {w : View} {a b : Reg} {v : Shape} (h : w.affine (.sub a b) = some v) (l : Nat) :
    v.at l = w.reg a l - w.reg b l := by
  simp only [View.affine, Option.ite_none_right_eq_some, Option.some.injEq, Bool.or_eq_true, Bool.and_eq_true, beq_iff_eq] at h
  obtain ⟨⟨ha, hb⟩ | ⟨ha, hb⟩, rfl⟩ := h
  · rw [View.reg, View.reg, Shape.at_of_cls_a ha, Shape.at_of_cls_u hb, Shape.at_a, Shape.stride_of_cls_u hb]
    ring
  · rw [View.reg, View.reg, Shape.at_of_cls_u ha, Shape.at_of_cls_a hb, Shape.at_a, Shape.stride_of_cls_u ha]
    ring

theorem affine_mul_at {w : View} {a b : Reg} {v : Shape} (h : w.affine (.mul a b) = some v) (l : Nat) :
    v.at l = w.reg a l * w.reg b l := by
  simp only [View.affine, Bool.and_eq_true, beq_iff_eq] at h
  by_cases hcls : (w.shape a.toNat).cls = .a ∧ (w.shape b.toNat).cls = .u
  · rw [if_pos hcls, Option.some.injEq] at h
    rw [← h, View.reg, View.reg, Shape.at_of_cls_a hcls.1, Shape.at_of_cls_u hcls.2, Shape.at_a]
    ring
  · rw [if_neg hcls, Option.ite_none_right_eq_some, Option.some.injEq] at h
    obtain ⟨⟨ha, hb⟩, rfl⟩ := h
    rw [View.reg, View.reg, Shape.at_of_cls_u ha, Shape.at_of_cls_a hb, Shape.at_a]
    ring

theorem affine_sll_at {w : View} {a b : Reg} {v : Shape} (h : w.affine (.sll a b) = some v) (l : Nat) :
    v.at l = w.reg a l <<< ((w.reg b l).toNat % 32) := by
  simp only [View.affine, Option.ite_none_right_eq_some, Option.some.injEq, Bool.and_eq_true, beq_iff_eq] at h
  obtain ⟨⟨ha, hb⟩, rfl⟩ := h
  rw [View.reg, View.reg, Shape.at_of_cls_a ha, Shape.at_of_cls_u hb, shiftLeft_add_mul, Shape.at_a]

theorem affine_mov_at {w : View} {a : Reg} {v : Shape} (h : w.affine (.mov a) = some v) (l : Nat) : v.at l = w.reg a l := by
  simp only [View.affine, Option.ite_none_right_eq_some, Option.some.injEq] at h
  rw [← h.2, View.reg]

theorem affine_addi_at {w : View} {a : Reg} {k : Word} {v : Shape} (h : w.affine (.addi a k) = some v) (l : Nat) :
    v.at l = w.reg a l + k := by
  simp only [View.affine, Option.ite_none_right_eq_some, Option.some.injEq, beq_iff_eq] at h
  obtain ⟨ha, rfl⟩ := h
  rw [View.reg, Shape.at_of_cls_a ha, Shape.at_a]
  ring

theorem affine_slli_at {w : View} {a : Reg} {n : Nat} {v : Shape} (h : w.affine (.slli a n) = some v) (l : Nat) :
    v.at l = w.reg a l <<< n := by
  simp only [View.affine, Option.ite_none_right_eq_some, Option.some.injEq, beq_iff_eq] at h
  obtain ⟨ha, rfl⟩ := h
  rw [View.reg, Shape.at_of_cls_a ha, shiftLeft_add_mul, Shape.at_a]

theorem Team.writeRegs_of_ge {d : Reg} (h : 112 ≤ d.toNat) (t : Team) (grp base n : Nat) (full : Bool) (tag : ResTag)
    (outs : List LaneOut) : t.writeRegs grp base d n full tag outs = t := by
  simp [Team.writeRegs, h]

theorem Team.emptyRegs_of_ge {d : Reg} (h : 112 ≤ d.toNat) (t : Team) (grp base n : Nat) (ls : List Nat) :
    t.emptyRegs grp base d n ls = t := by
  simp [Team.emptyRegs, h]

end Sys2Proof.Machine
namespace Sys2Proof.Claims
open Sys2Proof Machine

/-- Settles O12: both tests for an encoding from 112 on come first. -/
theorem discardedResult : Obligations.DiscardedResult := fun t grp base _ n full tag outs ls h =>
  ⟨Team.writeRegs_of_ge h t grp base n full tag outs, Team.emptyRegs_of_ge h t grp base n ls⟩

/-- Settles O13: a source that is not G reads base plus lane times stride, and the operations with a rule distribute over that sum. -/
theorem affineResult : Obligations.AffineResult := fun _ _ _ _ _ l _ =>
  ⟨(affine_add_at · l), (affine_sub_at · l), (affine_mul_at · l), (affine_sll_at · l), (affine_mov_at · l), (affine_addi_at · l),
    (affine_slli_at · l)⟩
end Sys2Proof.Claims
end

