-- ==== Sys2Proof/Proofs/FaultOrder.lean ====
section
/-! The first three tests of an issue (01 R25): the kind of core, the level, the role. -/

namespace Sys2Proof.Machine
open Sys2Proof

section
variable {s : State} {op : Op} {t : Team} {g : Group} (ht : Turn s op t g)
include ht

theorem issueIllegal_eq : issueIllegal s = .next (s.faultAll op cIllegal op.word.toNat) := by
  simp only [issueIllegal, ht.cur, if_neg ht.some]

/-- An instruction on a kind of core that lacks it (R25). -/
theorem issue_eq_illegal {f : Form} (hcore : (if t.onFoehn then f.foehn else f.main) = false)
    (body : Iss → State → State × List LaneOut) : issue f body s = .next (s.faultAll op cIllegal op.word.toNat) := by
  have hlacks : (if t.onFoehn then !f.foehn else !f.main) = true := by
    rw [← apply_ite, hcore]; rfl
  simp only [issue, ht.cur, ht.team, ht.group, if_neg ht.some, if_pos hlacks]

/-- A privileged form at USER level (R25). -/
theorem issue_eq_privilege {f : Form} (hcore : (if t.onFoehn then f.foehn else f.main) = true) (hpriv : f.priv = true)
    (huser : op.sys = false) (body : Iss → State → State × List LaneOut) :
    issue f body s = .next (s.faultAll op cPrivilege op.word.toNat) := by
  have hhas : ¬(if t.onFoehn then !f.foehn else !f.main) = true := by
    rw [← apply_ite, hcore]; simp
  have hlow : (f.priv && !op.sys) = true := by rw [hpriv, huser]; rfl
  simp only [issue, ht.cur, ht.team, ht.group, if_neg ht.some, if_neg hhas, if_pos hlow]

/-- A form that the role of the group does not run (R25). -/
theorem issue_eq_role {f : Form} (hcore : (if t.onFoehn then f.foehn else f.main) = true) (hpriv : f.priv = false)
    (huser : op.sys = false) (hrole : f.roles g.role = false) (body : Iss → State → State × List LaneOut) :
    issue f body s = .next (s.faultAll op cRole op.word.toNat) := by
  have hhas : ¬(if t.onFoehn then !f.foehn else !f.main) = true := by
    rw [← apply_ite, hcore]; simp
  have hlow : ¬(f.priv && !op.sys) = true := by rw [hpriv]; simp
  have hbars : (!op.sys && !f.roles g.role) = true := by rw [huser, hrole]; rfl
  simp only [issue, ht.cur, ht.team, ht.group, if_neg ht.some, if_neg hhas, if_neg hlow, if_pos hbars]

theorem curFirmware_eq : s.curFirmware = (t.kind == .firmware) := by
  simp [State.curFirmware, ht.cur, State.team, ht.team]

end
end Sys2Proof.Machine

namespace Sys2Proof.Claims
open Sys2Proof Machine

/-- Settles O7: `issue` tests the kind of core, the level and the role in this order, before anything else. -/
theorem faultOrder : Obligations.FaultOrder := by
  intro s op t g ht
  refine ⟨issueIllegal_eq ht, issueIllegal_eq ht, fun f body h => issue_eq_illegal ht h body,
    fun f body hc hp hu => issue_eq_privilege ht hc hp hu body, fun f body hc hp hu hr => issue_eq_role ht hc hp hu hr body, ?_, ?_⟩
  · intro hfoehn huser d a b
    have hpriv {f : Form} (hmain : f.main = true) (hp : f.priv = true) (body) :
        issue f body s = .next (s.faultAll op cPrivilege op.word.toNat) :=
      issue_eq_privilege ht (by rw [hfoehn]; exact hmain) hp huser body
    refine ⟨?_, ?_, ?_, ?_, ?_, ?_, ?_, ?_, ?_⟩
    · show execTret s = _
      exact hpriv rfl rfl _
    · show execHaltc s = _
      exact hpriv rfl rfl _
    · show execCmint d a s = _
      exact hpriv rfl rfl _
    · show execEngMig d a s = _
      exact hpriv rfl rfl _
    · show execTlbinv a b s = _
      exact hpriv rfl rfl _
    · show execVpurge a b s = _
      exact hpriv rfl rfl _
    · show execAttrchg d a b s = _
      exact hpriv rfl rfl _
    · show execRdsr d 1 s = _
      exact hpriv (show (sysReg 1 false false).isSome = true by decide) rfl _
    · show execWrsr a 1 s = _
      delta execWrsr
      exact hpriv (show (sysReg 1 false true).isSome = true by decide) rfl _
  · intro hfoehn hkind
    show execTret s = _
    refine issue_eq_illegal ht ?_ _
    rw [hfoehn, if_pos rfl]
    show s.curFirmware = false
    rw [curFirmware_eq ht]
    simp [hkind]
end Sys2Proof.Claims
end

