-- ==== Sys2Proof/Proofs/Obstacles.lean ====
section
/-! An issue whose every lane meets an obstacle (01 R37, R38), and the obstacle of a form with one source. -/

namespace Sys2Proof.Machine
open Sys2Proof

/-- ISSUE of an operation in each of whose lanes an operand puts up an obstacle (01 R37): the lanes with a fault take it, and the held ones
wait for the registers that are empty. -/
theorem issue_blocked {s : State} {op : Op} {t : Team} {g : Group} (ht : Turn s op t g) {f : Form}
    (hcore : (if t.onFoehn then f.foehn else f.main) = true) (hlevel : f.priv = true → op.sys = true)
    (hrole : op.sys = true ∨ f.roles g.role = true) (htxn : ∀ l ∈ lanesOf op.lanes, g.inTxn l = false) (hlane : f.laneOp = false)
    (hob : ∀ l ∈ lanesOf op.lanes, obstacle (issOf op t g).view f l ≠ .none) (body : Iss → State → State × List LaneOut) :
    issue f body s = .next ((s.finish op ((lanesOf op.lanes).filterMap fun l => (obstacle (issOf op t g).view f l).faulted)).starve op
      (((lanesOf op.lanes).filter fun l => obstacle (issOf op t g).view f l == .held).map fun l =>
        (l, emptyRegs (issOf op t g).view f l))) := by
  have hhas : ¬(if t.onFoehn then !f.foehn else !f.main) = true := by
    rw [← apply_ite, hcore]; simp
  have hpriv : ¬(f.priv && !op.sys) = true := by
    cases h : f.priv with
    | false => simp
    | true => simp [hlevel h]
  have hruns : ¬(!op.sys && !f.roles g.role) = true := by
    rcases hrole with h | h <;> simp [h]
  have haborts : (lanesOf op.lanes).filter (fun l => g.inTxn l && (!f.txn || g.txnFull l)) = [] := by
    rw [List.filter_eq_nil_iff]
    intro l hl
    simp [htxn l hl]
  have hready : (((lanesOf op.lanes).map fun l => (l, obstacle (issOf op t g).view f l)).filter (fun x => x.2 == .none)) = [] := by
    rw [List.filter_eq_nil_iff]
    intro x hx
    obtain ⟨l, hl, rfl⟩ := List.mem_map.mp hx
    simpa using hob l hl
  simp only [issOf] at hready
  simp only [issue, ht.cur, ht.team, ht.group, if_neg ht.some, if_neg hhas, if_neg hpriv, if_neg hruns, haborts, hlane, issOf,
    List.contains_nil, Bool.not_false, List.filter_true, hready, List.map_nil, List.isEmpty_nil, Bool.not_true, Bool.false_eq_true,
    if_false, if_true, List.append_nil, List.filterMap_map, List.filter_map, List.map_map, Function.comp_def]

/-- An operation in each of whose lanes an operand raises a fault: nothing but these faults happens. -/
theorem issue_faulting {s : State} {op : Op} {t : Team} {g : Group} (ht : Turn s op t g) {f : Form}
    (hcore : (if t.onFoehn then f.foehn else f.main) = true) (hlevel : f.priv = true → op.sys = true)
    (hrole : op.sys = true ∨ f.roles g.role = true) (htxn : ∀ l ∈ lanesOf op.lanes, g.inTxn l = false) (hlane : f.laneOp = false)
    {o : Nat → LaneOut} (hfault : ∀ l ∈ lanesOf op.lanes, obstacle (issOf op t g).view f l = .fault (o l))
    {body : Iss → State → State × List LaneOut} : issue f body s = .next (s.finish op ((lanesOf op.lanes).map o)) := by
  have hnone : ((lanesOf op.lanes).filter fun l => obstacle (issOf op t g).view f l == .held) = [] :=
    List.filter_eq_nil_iff.mpr fun l hl => by rw [hfault l hl]; nofun
  have hall : ((lanesOf op.lanes).filterMap fun l => (obstacle (issOf op t g).view f l).faulted) = (lanesOf op.lanes).map o := by
    rw [← List.filterMap_eq_map]
    exact List.filterMap_congr fun l hl => by rw [hfault l hl]; rfl
  rw [issue_blocked ht hcore hlevel hrole htxn hlane (fun l hl => by rw [hfault l hl]; nofun), hnone, hall]
  rfl

section
variable {w : View} {f : Form} {a : Reg} (hsrcs : f.srcs = [(a, 1)]) (hdst : f.dst = none) {l : Nat}
include hsrcs hdst

/-- The obstacle that the one source of a form without a destination puts up. -/
theorem obstacle_of_source : obstacle w f l = match w.sourceReady (regPlus a 0) l with
    | .ok => .none
    | .empty => if w.group.gcr.getLsbD 3 then .fault (.fault l cEmptyRead (regPlus a 0)) else .held
    | .marked c x => .fault (.fault l c x.toNat) := by
  have hregs : regsOf f.srcs = [regPlus a 0] := by rw [hsrcs]; rfl
  have hnone : regsOf f.dst.toList = [] := by rw [hdst]; rfl
  simp only [obstacle, hregs, hnone]
  generalize w.group.gcr.getLsbD 3 = trap
  cases hr : w.sourceReady (regPlus a 0) l with
  | ok => simp [sourceFault, hr]
  | empty => cases trap <;> simp [sourceFault, hr]
  | marked c x => simp [sourceFault, hr]

theorem emptyRegs_of_source (hempty : w.sourceReady (regPlus a 0) l = .empty) (htrap : w.group.gcr.getLsbD 3 = false) :
    emptyRegs w f l = [if regPlus a 0 < 96 then (l, w.base + regPlus a 0) else (64, regPlus a 0 - 96)] := by
  have hregs : regsOf f.srcs = [regPlus a 0] := by rw [hsrcs]; rfl
  have hnone : regsOf f.dst.toList = [] := by rw [hdst]; rfl
  simp only [emptyRegs, hregs, hnone, htrap, Bool.false_eq_true, if_false]
  simp [hempty]

end

end Sys2Proof.Machine

namespace Sys2Proof.Claims
open Sys2Proof Machine

/-- Settles O11: no lane is ready, so the issue is that of a blocked operation (`issue_blocked`), whose lanes are all held or all fault. -/
theorem operandObstacles : Obligations.OperandObstacles := by
  intro s op t g f body a ht hcore hlevel hrole htxn hlane hsrcs hdst
  have hob (l : Nat) := obstacle_of_source (w := (issOf op t g).view) hsrcs hdst (l := l)
  have hblocked := issue_blocked ht hcore hlevel hrole htxn hlane (body := body)
  refine ⟨fun hempty htrap => ?_, fun hempty htrap => ?_, fun c x hmarked => ?_⟩
  · have hheld : ∀ l ∈ lanesOf op.lanes, obstacle (issOf op t g).view f l = .held := fun l hl => by
      rw [hob, hempty l hl, show (issOf op t g).view.group.gcr = g.gcr from rfl, htrap]; rfl
    rw [hblocked (fun l hl => by rw [hheld l hl]; decide)]
    have hnofault : ((lanesOf op.lanes).filterMap fun l => (obstacle (issOf op t g).view f l).faulted) = [] :=
      List.filterMap_eq_nil_iff.mpr fun l hl => by rw [hheld l hl]; rfl
    have hall : ((lanesOf op.lanes).filter fun l => obstacle (issOf op t g).view f l == .held) = lanesOf op.lanes :=
      List.filter_eq_self.mpr fun l hl => by rw [hheld l hl]; rfl
    rw [hnofault, hall]
    congr 2
    exact List.map_congr_left fun l hl => by rw [emptyRegs_of_source hsrcs hdst (hempty l hl) htrap]; rfl
  · have hfault : ∀ l ∈ lanesOf op.lanes, obstacle (issOf op t g).view f l = .fault (.fault l cEmptyRead (regPlus a 0)) := fun l hl => by
      rw [hob, hempty l hl, show (issOf op t g).view.group.gcr = g.gcr from rfl, htrap]; rfl
    exact issue_faulting ht hcore hlevel hrole htxn hlane hfault
  · have hfault : ∀ l ∈ lanesOf op.lanes, obstacle (issOf op t g).view f l = .fault (.fault l c (x l).toNat) := fun l hl => by
      rw [hob, hmarked l hl]
    exact issue_faulting ht hcore hlevel hrole htxn hlane hfault

end Sys2Proof.Claims
end

