-- ==== Sys2Proof/Proofs/StepIssues.lean ====
section
/-! A step whose turn is a thread's is the issue of the oldest class (03 R238), by what its fetch brings (01 R24). -/

namespace Sys2Proof.Machine
open Sys2Proof

/-- Where no event waits, the device runs and its own work is not due or not its turn, the oldest class issues. -/
theorem step_eq_issueNext {s : State} (hagenda : s.begin.agenda = []) (htrip : s.begin.plat.tripped = false)
    (hturn : s.begin.turn = false ∨ s.begin.workNext = none) : step s = s.begin.issueNext := by
  have hwork : ¬(s.begin.turn && s.begin.workNext.isSome) = true := by
    rcases hturn with h | h <;> simp [h]
  simp only [step, hagenda, htrip, Bool.false_eq_true, if_false, if_neg hwork]

/-- The operation of the lanes `ls` of a candidate whose thread is `th`, with word `w`. -/
def Cand.opOf (c : Cand) (th : Thread) (ls : List Nat) (w : Word) : Op :=
  { team := c.team, grp := c.grp, lanes := maskOf ls, pc := th.pc, base := th.base, sys := th.sys, word := w }

section
variable {s : State} {c : Cand} {g : Group} {th : Thread} (hbest : s.bestTeam 0 s.issuers = some c)
  (hgroup : (s.issuers[c.team]?).bind (·.groups[c.grp]?) = some g) (hth : g.threads[c.lane]? = some th)
  {s2 : State} {ls : List Nat}
include hbest hgroup hth

theorem pick_of_word {w : Word} (hword : s.classWord c.team c.grp g c.lane (s.classAt c g) th.pc = (s2, .word w, ls)) :
    s.pick = .op { s2 with cur := some (c.opOf th ls w) } := by
  simp only [State.pick, hbest, hgroup, hth, hword, Cand.opOf]

theorem pick_of_ends {e : LaneEnd} (hends : s.classWord c.team c.grp g c.lane (s.classAt c g) th.pc = (s2, .ends e, ls)) :
    s.pick = .done (s2.finish (c.opOf th ls 0) (ls.map fun l => LaneOut.only l e)) := by
  simp only [State.pick, hbest, hgroup, hth, hends, Cand.opOf]

end

end Sys2Proof.Machine

namespace Sys2Proof.Claims
open Sys2Proof Machine

/-- Settles O4: such a step is the issue of the oldest class (`step_eq_issueNext`), which is performed as the fetched word says. -/
theorem stepIssuesDecoded : Obligations.StepIssuesDecoded := by
  intro s c g th hagenda htrip hturn hbest hgroup hth
  have hstep := step_eq_issueNext hagenda htrip hturn
  generalize hr : s.begin.classWord c.team c.grp g c.lane (s.begin.classAt c g) th.pc = r
  obtain ⟨s2, f, ls⟩ := r
  refine ⟨fun w i hw hdec => ?_, fun w hw hdec => ?_, fun e he => ?_⟩
  · obtain rfl : f = .word w := hw
    simp only [hstep, State.issueNext, pick_of_word hbest hgroup hth hr, State.perform, Cand.opOf, hdec]
  · obtain rfl : f = .word w := hw
    simp only [hstep, State.issueNext, pick_of_word hbest hgroup hth hr, State.perform, Cand.opOf, hdec]
  · obtain rfl : f = .ends e := he
    simp only [hstep, State.issueNext, pick_of_ends hbest hgroup hth hr, Cand.opOf]

end Sys2Proof.Claims
end

