-- ==== Sys2Proof/Proofs/CompletionFrame.lean ====
section
/-! The frame of a completion (01 R27, 03 R94, 06 R163): the write of the results, the end of the lanes and the note of those that stand each
change the team at issue within it. -/

namespace Sys2Proof.Machine
open Sys2Proof

/-! ## Lanes that neither fault, park nor abort -/

/-- The end of a lane that goes on, waits, stands or exits: no fault, park or abort. -/
def LaneEnd.settled : LaneEnd → Bool
  | .fault _ _ _ => false
  | .park _ => false
  | .abort _ => false
  | _ => true

theorem LaneEnd.isFault_of_settled {e : LaneEnd} (h : e.settled = true) : e.isFault = false := by
  cases e <;> simp_all [LaneEnd.settled, LaneEnd.isFault]

theorem LaneEnd.faultCause_of_settled {e : LaneEnd} (h : e.settled = true) : e.faultCause = none := by
  cases e <;> simp_all [LaneEnd.settled, LaneEnd.faultCause]

theorem parkedLanes_of_settled {outs : List LaneOut} (h : ∀ o ∈ outs, o.ends.settled = true) : parkedLanes outs = [] := by
  refine filterMap_none fun o ho => ?_
  have hs := h o ho
  cases he : o.ends <;> simp_all [LaneEnd.settled]

theorem State.trapLanes_of_settled {op : Op} {outs : List LaneOut} (h : ∀ o ∈ outs, o.ends.settled = true) (s : State) :
    s.trapLanes op outs = s := by
  unfold State.trapLanes
  split
  · rfl
  · refine State.modGroup_eq_self fun _ g _ _ => ?_
    rw [mapIdx_eq_self]
    intro l th _
    cases hk : outs.find? (fun o => o.lane == l) with
    | none => rfl
    | some o =>
      have hs := h o (List.mem_of_find?_eq_some hk)
      cases he : o.ends <;> simp_all [LaneEnd.settled]

/-- The group of an operation whose lanes settle: each thread after its instruction, then the meetings and lots that this completes. -/
def State.settleGroup (s : State) (t : Team) (op : Op) (outs : List LaneOut) (g : Group) : Group :=
  (Group.release s.tick { g with threads := g.threads.mapIdx (nextThread s t op outs) }).lots s.tick outs

/-- FINISH of lanes that settle: each thread after its instruction, the sign of progress of the context if one retires, and the release of the
meetings and of the lots of the group. -/
theorem State.finish_settled {s : State} {op : Op} {t : Team} {g : Group} {outs : List LaneOut} (ht : s.teams[op.team]? = some t)
    (hg : t.groups[op.grp]? = some g) (ho : ∀ o ∈ outs, o.ends.settled = true) :
    s.finish op outs = (if outs.any (fun o => o.ends.retires) then s.signal t.ctx else s).modGroup op.team op.grp
      (s.settleGroup t op outs) := by
  have hfault : ∀ o ∈ outs, o.ends.isFault = false := fun o h => LaneEnd.isFault_of_settled (ho o h)
  have hany : outs.any (fun o => o.ends.isFault) = false := by
    rw [List.any_eq_false]; intro o h; rw [hfault o h]; decide
  have hmap : outs.map (fun o => if o.ends.isFault && g.inTxn o.lane then { o with ends := .abort 5 } else o) = outs := by
    conv => rhs; rw [← List.map_id outs]
    refine List.map_congr_left fun o h => ?_
    rw [hfault o h]; rfl
  have hcauses : outs.filterMap (fun o => o.ends.faultCause) = [] := filterMap_none fun o h => LaneEnd.faultCause_of_settled (ho o h)
  have halive : outs.any (fun o => o.ends.retires || (o.ends.isFault && (g.threads[o.lane]?).any Thread.unwatched)) =
      outs.any (fun o => o.ends.retires) := by
    rw [Bool.eq_iff_iff, List.any_eq_true, List.any_eq_true]
    refine exists_congr fun o => and_congr_right fun h => ?_
    rw [hfault o h, Bool.false_and, Bool.or_false]
  unfold State.finish
  simp only [ht, hg, hany, Bool.and_false, Bool.false_eq_true, if_false, hmap, hcauses, parkedLanes_of_settled ho, causesOf,
    List.foldl_nil, State.parkLanes_nil, halive, State.trapLanes_of_settled ho]
  rw [foldl_same (f := fun st o => _) (fun b o h => by
    have hs := ho o h
    generalize o.ends = e at hs
    cases e <;> simp_all [LaneEnd.settled])]
  cases outs.any (fun o => o.ends.retires)
  · simp only [Bool.false_eq_true, if_false, State.modGroup_modGroup]
    rfl
  · simp only [if_true, State.signal_modGroup, State.modGroup_modGroup]
    rfl

/-! ## What a completion may touch of its team -/

/-- Of the thread of a lane that has no part in an operation only the meeting, the age and the lot may differ (03 R94, 06 R163). -/
def Thread.Passed (th th' : Thread) : Prop :=
  th' = { th with meet := th'.meet, arrived := th'.arrived, age := th'.age, lot := th'.lot, lotOpen := th'.lotOpen }

theorem Thread.Passed.trans {a b c : Thread} (hab : a.Passed b) (hbc : b.Passed c) : a.Passed c := by
  unfold Thread.Passed at *
  rw [hbc, hab]

/-- The common registers and their tags that the destination `dst` leaves alone (01 R27, R41). -/
structure Team.CommonKept (dst : Option (Reg × Nat)) (t t' : Team) : Prop where
  none : dst = none → t'.cregs = t.cregs ∧ t'.ctags = t.ctags
  below : ∀ d n, dst = some (d, n) → d.toNat < 96 → t'.cregs = t.cregs ∧ t'.ctags = t.ctags
  within : ∀ d n, dst = some (d, n) → 96 ≤ d.toNat → d.toNat < 112 →
    (∀ k, ¬(d.toNat - 96 ≤ k ∧ k < d.toNat - 96 + n) → t'.cregs[k]? = t.cregs[k]?) ∧
    ∀ q, ((quadBits (d.toNat - 96) n).setWidth 4).getLsbD q = false → t'.ctags.getLsbD q = t.ctags.getLsbD q
  above : ∀ d n, dst = some (d, n) → 112 ≤ d.toNat → t'.cregs = t.cregs ∧ t'.ctags = t.ctags

/-- The registers of a group that the destination `dst` leaves alone. -/
structure Group.RegsKept (base : Nat) (dst : Option (Reg × Nat)) (g g' : Group) : Prop where
  none : dst = none → g'.regs = g.regs
  above : ∀ d n, dst = some (d, n) → 96 ≤ d.toNat → g'.regs = g.regs
  below : ∀ d n, dst = some (d, n) → d.toNat < 96 → ∀ r, ¬(base + d.toNat ≤ r ∧ r < base + d.toNat + n) → g'.regs[r]? = g.regs[r]?

/-- The lanes of a group that have no part in `outs` have only been passed. -/
def Group.LanesKept (outs : List LaneOut) (g g' : Group) : Prop :=
  ∀ l, (∀ o ∈ outs, o.lane ≠ l) → ∀ th, g.threads[l]? = some th → ∃ th', g'.threads[l]? = some th' ∧ th.Passed th'

/-- The frame of a completion: the team `t` with its group `g` at place `op.grp` before, `t'` and `g'` after. -/
structure DstOnly (op : Op) (dst : Option (Reg × Nat)) (outs : List LaneOut) (t : Team) (g : Group) (t' : Team) (g' : Group) : Prop where
  team : t' = { t with groups := t'.groups, cregs := t'.cregs, ctags := t'.ctags }
  others : ∀ k, k ≠ op.grp → t'.groups[k]? = t.groups[k]?
  place : t'.groups[op.grp]? = some g'
  group : g' = { g with regs := g'.regs, threads := g'.threads }
  common : Team.CommonKept dst t t'
  regs : Group.RegsKept op.base dst g g'
  lanes : Group.LanesKept outs g g'

theorem Team.CommonKept.of_eq {dst : Option (Reg × Nat)} {t t' : Team} (hr : t'.cregs = t.cregs) (ht : t'.ctags = t.ctags) :
    Team.CommonKept dst t t' :=
  ⟨fun _ => ⟨hr, ht⟩, fun _ _ _ _ => ⟨hr, ht⟩,
    fun _ _ _ _ _ => ⟨fun _ _ => by rw [hr], fun _ _ => by rw [ht]⟩, fun _ _ _ _ => ⟨hr, ht⟩⟩

theorem Group.RegsKept.of_eq {base : Nat} {dst : Option (Reg × Nat)} {g g' : Group} (h : g'.regs = g.regs) : Group.RegsKept base dst g g' :=
  ⟨fun _ => h, fun _ _ _ _ => h, fun _ _ _ _ _ _ => by rw [h]⟩

theorem Group.LanesKept.of_eq {outs : List LaneOut} {g g' : Group} (h : g'.threads = g.threads) : Group.LanesKept outs g g' :=
  fun _ _ th hth => ⟨th, by rw [h, hth], rfl⟩

/-- A change of the group's threads alone that passes the lanes that have no part. -/
theorem DstOnly.then_threads {op : Op} {dst : Option (Reg × Nat)} {outs : List LaneOut} {t t' : Team} {g g' : Group}
    (h : DstOnly op dst outs t g t' g') {f : Group → Group} (hf : f g' = { g' with threads := (f g').threads })
    (hlanes : Group.LanesKept outs g' (f g')) : DstOnly op dst outs t g (t'.modGroup op.grp f) (f g') where
  team := by rw [Team.modGroup, h.team]
  others k hk := by rw [← h.others k hk]; exact modAt_getElem?_ne hk
  place := by simp only [Team.modGroup, modAt_getElem?, h.place, if_pos, Option.map_some]
  group := by rw [hf, h.group]
  common := ⟨h.common.none, h.common.below, h.common.within, h.common.above⟩
  regs := by
    have hr : (f g').regs = g'.regs := by rw [hf]
    exact ⟨fun hd => hr.trans (h.regs.none hd), fun d n hd h96 => hr.trans (h.regs.above d n hd h96), fun d n hd h96 r hn => by
      rw [hr, h.regs.below d n hd h96 r hn]⟩
  lanes l hl th hth := by
    obtain ⟨th1, hth1, hp1⟩ := h.lanes l hl th hth
    obtain ⟨th2, hth2, hp2⟩ := hlanes l hl th1 hth1
    exact ⟨th2, hth2, hp1.trans hp2⟩

theorem DstOnly.refl {op : Op} {t : Team} {g : Group} (hg : t.groups[op.grp]? = some g) (dst : Option (Reg × Nat)) (outs : List LaneOut) :
    DstOnly op dst outs t g t g :=
  ⟨rfl, fun _ _ => rfl, hg, rfl, .of_eq rfl rfl, .of_eq rfl, .of_eq rfl⟩

/-! ## The three parts of a completion -/

/-- The result of some lanes of `outs` written to the destination. -/
theorem dstOnly_writeRegs {op : Op} {t : Team} {g : Group} (hg : t.groups[op.grp]? = some g) (d : Reg) (n : Nat) (full : Bool) (tag : ResTag)
    {outs good : List LaneOut} (hsub : ∀ o ∈ good, o ∈ outs) :
    ∃ g', DstOnly op (some (d, n)) outs t g (t.writeRegs op.grp op.base d n full tag good) g' := by
  unfold Team.writeRegs
  dsimp only
  split
  · exact ⟨g, .refl hg _ _⟩
  · rename_i hn
    split
    · rename_i h96
      split
      · exact ⟨g, .refl hg _ _⟩
      · refine ⟨g, rfl, fun _ _ => rfl, hg, rfl, ⟨fun h => ?_, fun d' n' h hlt => ?_, fun d' n' h _ _ => ?_, fun d' n' h hge => ?_⟩,
          .of_eq rfl, .of_eq rfl⟩
        · cases h
        · cases h; omega
        · cases h
          refine ⟨fun k hk => ?_, fun q hq => ?_⟩
          · simp only [List.getElem?_mapIdx, if_neg hk, Option.map_id']
          · simp only
            split
            · rw [BitVec.getLsbD_or, hq, Bool.or_false]
            · rw [BitVec.getLsbD_and, BitVec.getLsbD_not, hq]
              rcases Nat.lt_or_ge q 4 with h4 | h4
              · simp [h4]
              · rw [BitVec.getLsbD_of_ge _ _ h4, Bool.false_and]
        · cases h; simp at hn; omega
    · rename_i h96
      refine ⟨{ g with
          regs := g.regs.mapIdx (VReg.storeAt t.gw (op.base + d.toNat) n good (full && good.all (fun o => !o.vals.isEmpty)) tag),
          threads := g.threads.mapIdx (Thread.tagWrite (quadBits (op.base + d.toNat) n) good) }, rfl, fun k hk => modAt_getElem?_ne hk,
        ?_, rfl, .of_eq rfl rfl, ⟨fun h => ?_, fun d' n' h hge => ?_, fun d' n' h hlt r hr => ?_⟩,
        fun l hl th hth => ⟨th, ?_, rfl⟩⟩
      · simp only [Team.modGroup, modAt_getElem?, hg, if_pos, Option.map_some]
      · cases h
      · cases h; omega
      · cases h
        rw [List.getElem?_mapIdx]
        cases g.regs[r]? with
        | none => rfl
        | some v => rw [Option.map_some, VReg.storeAt, if_neg hr]
      · have hfind : good.find? (fun o => o.lane == l && !o.vals.isEmpty) = none := by
          rw [List.find?_eq_none]
          intro o ho hc
          exact hl o (hsub o ho) (by simp_all)
        simp only [List.getElem?_mapIdx, hth, Option.map_some, Thread.tagWrite, hfind]

theorem lanesKept_settle {s : State} {t : Team} {op : Op} {outs : List LaneOut} (g : Group) :
    Group.LanesKept outs g (s.settleGroup t op outs g) := by
  intro l hl th hth
  refine passed_thread ?_
  have hfind : outs.find? (fun o => o.lane == l) = none := by
    rw [List.find?_eq_none]
    intro o ho hc
    exact hl o ho (by simpa using hc)
  simp only [List.getElem?_mapIdx, hth, Option.map_some, nextThread, hfind]

/-- The note of the lanes that stand changes threads of lanes of `outs` alone. -/
theorem State.standLanes_eq (s : State) (i : Iss) (outs : List LaneOut) :
    ∃ f : Group → Group, s.standLanes i outs = s.modGroup i.op.team i.op.grp f ∧
      ∀ g, f g = { g with threads := (f g).threads } ∧ Group.LanesKept outs g (f g) := by
  unfold State.standLanes
  split
  · refine ⟨_, rfl, fun g => ⟨rfl, fun l hl th hth => ⟨th, ?_, rfl⟩⟩⟩
    have hno : ((outs.filter (·.ends.stands)).map (·.lane)).contains l = false := by
      rw [List.contains_eq_mem, decide_eq_false_iff_not, List.mem_map]
      rintro ⟨o, ho, rfl⟩
      exact hl o (List.mem_of_mem_filter ho) rfl
    simp only [Group.modLanes, List.getElem?_mapIdx, hth, hno, Option.map_some, Bool.false_eq_true, if_false]
  · exact ⟨id, (State.modGroup_eq_self fun _ _ _ _ => rfl).symm, fun g => ⟨rfl, .of_eq rfl⟩⟩

/-- The write of the results is a change of the team at issue, within the frame. -/
theorem writes_eq (s : State) (i : Iss) (f : Form) (outs : List LaneOut) {t : Team} {g : Group} (hg : t.groups[i.op.grp]? = some g) :
    ∃ (w : Team → Team) (g1 : Group), DstOnly i.op f.dst outs t g (w t) g1 ∧
      s.complete i f outs = ((s.modTeam i.op.team w).finish i.op outs).standLanes i outs := by
  have hid : s.modTeam i.op.team id = s := State.modTeam_eq_self fun _ _ => rfl
  unfold State.complete
  simp only
  split
  · rename_i d n hd
    split
    · exact ⟨id, g, .refl hg _ _, by rw [hid]⟩
    · obtain ⟨g1, h1⟩ := dstOnly_writeRegs (op := i.op) hg d n
        (i.full && (outs.filter fun o => o.ends.delivers).length == outs.length) (i.view.resTag f.rule f.srcs)
        (outs := outs) (good := outs.filter fun o => o.ends.delivers) fun _ h => List.mem_of_mem_filter h
      exact ⟨_, g1, by rw [hd]; exact h1, rfl⟩
  · exact ⟨id, g, .refl hg _ _, by rw [hid]⟩

/-- Completing an operation whose lanes settle changes the team at issue within the frame, and gives its context the sign of progress or not. -/
theorem State.complete_settled {s : State} {i : Iss} {f : Form} {outs : List LaneOut} {t : Team} {g : Group}
    (ht : s.teams[i.op.team]? = some t) (hg : t.groups[i.op.grp]? = some g) (ho : ∀ o ∈ outs, o.ends.settled = true) :
    ∃ (b : Bool) (F : Team → Team) (g' : Group), DstOnly i.op f.dst outs t g (F t) g' ∧
      s.complete i f outs = (if b then s.signal t.ctx else s).modTeam i.op.team F := by
  obtain ⟨w, g1, hw, hcomplete⟩ := writes_eq s i f outs hg
  have hctx : (w t).ctx = t.ctx := by rw [hw.team]
  have ht1 : (s.modTeam i.op.team w).teams[i.op.team]? = some (w t) := by
    simp only [State.modTeam, modAt_getElem?, ht, if_pos, Option.map_some]
  have hfin := State.finish_settled ht1 hw.place ho
  rw [hctx] at hfin
  obtain ⟨f2, hf2⟩ : ∃ f2, (s.modTeam i.op.team w).settleGroup (w t) i.op outs = f2 := ⟨_, rfl⟩
  obtain ⟨f3, hstand, hf3⟩ := State.standLanes_eq ((s.modTeam i.op.team w).finish i.op outs) i outs
  have h2 : DstOnly i.op f.dst outs t g ((w t).modGroup i.op.grp f2) (f2 g1) := by
    subst hf2
    exact hw.then_threads lots_release_group (lanesKept_settle g1)
  refine ⟨outs.any (fun o => o.ends.retires), fun x => ((w x).modGroup i.op.grp f2).modGroup i.op.grp f3, _,
    h2.then_threads (hf3 _).1 (hf3 _).2, ?_⟩
  rw [hcomplete, hstand, hfin, hf2]
  cases outs.any (fun o => o.ends.retires)
  · simp only [State.modGroup, State.modTeam_modTeam, Bool.false_eq_true, if_false]
  · have hsig : (s.modTeam i.op.team w).signal t.ctx = (s.signal t.ctx).modTeam i.op.team w := rfl
    simp only [State.modGroup, State.modTeam_modTeam, if_true, hsig]

end Sys2Proof.Machine

namespace Sys2Proof.Claims

open Sys2Proof Machine

/-- Settles O14: the completion changes the team at issue within the frame of its destination (`State.complete_settled`). -/
theorem completionFrame : Obligations.CompletionFrame := by
  intro s i f outs t g ht hg ho
  have hsettled : ∀ o ∈ outs, o.ends.settled = true := fun o h => by
    have hs := ho o h
    generalize o.ends = e at hs
    cases e <;> simp_all [LaneEnd.settled]
  obtain ⟨b, F, g', hF, heq⟩ := State.complete_settled (f := f) ht hg hsettled
  have hteams : (s.complete i f outs).teams = modAt F s.teams i.op.team := by rw [heq]; cases b <;> rfl
  have hctxs : (s.complete i f outs).ctxs = if b then (s.signal t.ctx).ctxs else s.ctxs := by rw [heq]; cases b <;> rfl
  refine ⟨F t, g', ?_, ?_, fun k hk => ?_, ?_, hF.team, hF.others, hF.place, hF.group, fun hd => ⟨hF.regs.none hd, hF.common.none hd⟩,
    hF.regs.above, hF.common.within, hF.common.above, fun d n hd hlt => ?_, hF.lanes⟩
  · rw [heq]; cases b <;> rfl
  · rw [hctxs]; cases b
    · exact .inl rfl
    · exact .inr rfl
  · rw [hteams]; exact modAt_getElem?_ne hk
  · rw [hteams, modAt_getElem?, if_pos rfl, ht, Option.map_some]
  · obtain ⟨hcregs, hctags⟩ := hF.common.below d n hd hlt
    exact ⟨hcregs, hctags, hF.regs.below d n hd hlt⟩

end Sys2Proof.Claims
end

