-- ==== Sys2Proof/Proofs/Accesses.lean ====
section
/-! Loads, stores, scratch accesses and copies (06 R161 to R173) lane by lane: what the checks stop, and what the lanes that pass do. -/

namespace Sys2Proof.Claims

open Sys2Proof Machine

/-! ## Lanes that stop and lanes that go on -/

/-- `j` issues a load of form `f` whose lanes end as `stop` says or bring what `h` says. -/
def LoadLanes (j : Instr) (f : Form) (d : Reg) (w : BitVec 3) (stop : Iss → State → Nat → Option (State × LaneOut))
    (h : Iss → State → Nat → Option (State × LoadLane)) : Prop :=
  ∃ k, (∀ s, exec j s = issue f (loadBody d w k) s) ∧
    (∀ i s l s1 o, stop i s l = some (s1, o) → ∃ e, k i s l = (s1, .error e) ∧ o = .only l e) ∧
    ∀ i s l s1 y, h i s l = some (s1, y) → k i s l = (s1, .ok y)

/-- `j` issues steps of its lanes in order, of form `f`, which end as `stop` says or as `h` says. -/
def StepLanes (j : Instr) (f : Form) (stop h : Iss → State → Nat → Option (State × LaneOut)) : Prop :=
  ∃ k, (∀ s, exec j s = issue f (eachLane k) s) ∧ (∀ i s l s1 o, stop i s l = some (s1, o) → k i s l = (s1, o)) ∧
    ∀ i s l s1 o, h i s l = some (s1, o) → k i s l = (s1, o)

section
variable {j : Instr} {f : Form} {d : Reg} {w : BitVec 3}

theorem LoadLanes.runs {stop} {h : Iss → State → Nat → Option (State × LoadLane)} (hl : LoadLanes j f d w stop h) : Runs j f (loads d w h) := by
  obtain ⟨k, hj, _, hgo⟩ := hl
  exact runs_of ⟨_, hj, fun i _ _ _ he => loads_eq (hgo i) he⟩

theorem LoadLanes.runs_among {stop} {h : Iss → State → Nat → Option (State × LoadLane)} (hl : LoadLanes j f d w stop h) :
    Runs j f (loadsAmong d w stop h) := by
  obtain ⟨k, hj, hstop, hgo⟩ := hl
  exact runs_of ⟨_, hj, fun i _ _ _ he => loadsAmong_eq (hstop i) (hgo i) he⟩

theorem StepLanes.runs {stop h : Iss → State → Nat → Option (State × LaneOut)} (hl : StepLanes j f stop h) : Runs j f (each h) := by
  obtain ⟨k, hj, _, hgo⟩ := hl
  exact runs_of ⟨_, hj, fun i _ _ _ he => each_eq (hgo i) he⟩

theorem StepLanes.runs_among {stop h : Iss → State → Nat → Option (State × LaneOut)} (hl : StepLanes j f stop h) : Runs j f (among stop h) := by
  obtain ⟨k, hj, hstop, hgo⟩ := hl
  exact runs_of ⟨_, hj, fun i _ _ _ he => among_eq (hstop i) (hgo i) he⟩

end

/-! ## What the checks answer (06 R163) -/

/-- A lane that the first three checks stop. -/
theorem check_of_barred {n perm : Nat} {a : Reg} {addr : Iss → Nat → Nat × Nat} {i : Iss} {s s1 : State} {l : Nat} {o : LaneOut} {k : Ask}
    (halign : k.align = n) (hsize : k.size = n) (hperm : k.perm = perm) (h : barred n perm a addr i s l = some (s1, o)) :
    ∃ e, s.check i l (addr i l).1 a (addr i l).2 k = (s1, .error e) ∧ o = .only l e := by
  subst halign hperm
  unfold barred at h
  unfold State.check
  dsimp only at h ⊢
  rw [hsize]
  split at h
  · rename_i hmis
    cases h
    exact ⟨_, if_pos hmis, rfl⟩
  · rename_i hmis
    rw [if_neg hmis]
    split at h
    · rename_i hcap
      cases h
      exact ⟨_, if_pos hcap, rfl⟩
    · rename_i hcap
      rw [if_neg hcap]
      split at h
      · rename_i hscr
        cases h
        simp only [Bool.and_eq_true, Bool.not_eq_true'] at hscr
        obtain ⟨⟨hin, hrel⟩, hout⟩ := hscr
        simp only [hin, hrel, hout, if_true, Bool.false_eq_true, if_false]
        exact ⟨_, rfl, rfl⟩
      · cases h

/-! ## Loads and stores (06 R168, R169) -/

/-- One lane of a load: the access that the checks let through. -/
def memLoadLane (pol : BitVec 2) (w : BitVec 3) (a : Reg) (addr : Iss → Nat → Nat × Nat) (i : Iss) (s : State) (l : Nat) :
    State × Except LaneEnd LoadLane :=
  match s.check i l (addr i l).1 a (addr i l).2 ((askLoad (widthBytes w.toNat)).policy (s.polOf i l pol)) with
  | (s1, .error e) => (s1, .error e)
  | (s1, .ok p) =>
    let r := match (s1.threadOf i l).txn with
      | some x => txnRead s1 i l (addr i l).1 (widthBytes w.toNat) p x
      | none => s1.readSpot i l (addr i l).1 (widthBytes w.toNat) pol p
    (r.1, loadLane l (addr i l).1 w (s1.slotTag i.op.team w p) r.2)

theorem loadFrom_eq (pol : BitVec 2) (w : BitVec 3) (d a : Reg) (srcs : List (Reg × Nat)) (addr : Iss → Nat → Nat × Nat) :
    loadFrom pol w d a srcs addr = issue (memForm srcs (some (d, widthRegs w.toNat)) .g) (loadBody d w (memLoadLane pol w a addr)) := by
  delta loadFrom memLoadLane
  refine congrArg₂ issue rfl (congrArg (loadBody d w) (funext fun i => funext fun s => funext fun l => ?_))
  dsimp only
  generalize s.check i l (addr i l).1 a (addr i l).2 ((askLoad (widthBytes w.toNat)).policy (s.polOf i l pol)) = c
  obtain ⟨s1, e | p⟩ := c
  · rfl
  · dsimp only <;> cases (s1.threadOf i l).txn <;> rfl

/-- One lane of a store: the access that the checks let through. -/
def memStoreLane (pol : BitVec 2) (w : BitVec 3) (d a : Reg) (addr : Iss → Nat → Nat × Nat) (i : Iss) (s : State) (l : Nat) : State × LaneOut :=
  match s.check i l (addr i l).1 a (addr i l).2 ((askStore (widthBytes w.toNat)).policy (s.polOf i l pol)) with
  | (s1, .error e) => (s1, .only l e)
  | (s1, .ok p) =>
    let r := match p, (s1.threadOf i l).txn with
      | .reg _, _ => if regOrder i addr l (addr i l).1 then (s1, LaneEnd.next) else s1.writeSpot i l (addr i l).1 pol p (storeBytes i d w l) false
      | _, some x => txnWrite s1 i l (addr i l).1 p (storeBytes i d w l) x
      | _, none => s1.writeSpot i l (addr i l).1 pol p (storeBytes i d w l) false
    (r.1, .only l r.2)

theorem storeTo_eq (pol : BitVec 2) (w : BitVec 3) (d a : Reg) (srcs : List (Reg × Nat)) (addr : Iss → Nat → Nat × Nat) :
    storeTo pol w d a srcs addr = issue (memForm srcs none .table) (eachLane (memStoreLane pol w d a addr)) := by
  delta storeTo memStoreLane
  refine congrArg₂ issue rfl (congrArg eachLane (funext fun i => funext fun s => funext fun l => ?_))
  dsimp only
  generalize s.check i l (addr i l).1 a (addr i l).2 ((askStore (widthBytes w.toNat)).policy (s.polOf i l pol)) = c
  obtain ⟨s1, e | p⟩ := c
  · rfl
  · dsimp only <;> cases (s1.threadOf i l).txn <;> cases p <;> rfl

theorem loadLanes_of_loadFrom {j : Instr} {pol : BitVec 2} {w : BitVec 3} {d a : Reg} {srcs : List (Reg × Nat)} {addr : Iss → Nat → Nat × Nat}
    (hj : ∀ s, exec j s = loadFrom pol w d a srcs addr s) :
    LoadLanes j (memForm srcs (some (d, widthRegs w.toNat)) .g) d w (barred (widthBytes w.toNat) permR a addr) (loadAt pol w a addr) := by
  refine ⟨memLoadLane pol w a addr, fun s => (hj s).trans (by rw [loadFrom_eq]), fun i s l s1 o h => ?_, fun i s l s1 y h => ?_⟩
  · obtain ⟨e, hcheck, ho⟩ := check_of_barred (k := (askLoad (widthBytes w.toNat)).policy (s.polOf i l pol)) rfl rfl rfl h
    exact ⟨e, by simp only [memLoadLane, hcheck], ho⟩
  · unfold memLoadLane
    unfold loadAt at h
    generalize s.check i l (addr i l).1 a (addr i l).2 ((askLoad (widthBytes w.toNat)).policy (s.polOf i l pol)) = c at h ⊢
    obtain ⟨s2, e | p⟩ := c
    · cases h
    · dsimp only at h ⊢
      generalize (s2.threadOf i l).txn = x at h ⊢
      cases x <;>
      · dsimp only at h ⊢
        split at h
        · rename_i b hb; cases h; rw [hb]; rfl
        · rename_i c hb; cases h; rw [hb]; rfl
        · cases h

theorem stepLanes_of_storeTo {j : Instr} {pol : BitVec 2} {w : BitVec 3} {d a : Reg} {srcs : List (Reg × Nat)} {addr : Iss → Nat → Nat × Nat}
    (hj : ∀ s, exec j s = storeTo pol w d a srcs addr s) :
    StepLanes j (memForm srcs none .table) (barred (widthBytes w.toNat) permW a addr) (storeAt pol w d a addr) := by
  refine ⟨memStoreLane pol w d a addr, fun s => (hj s).trans (by rw [storeTo_eq]), fun i s l s1 o h => ?_, fun i s l s1 o h => ?_⟩
  · obtain ⟨e, hcheck, ho⟩ := check_of_barred (k := (askStore (widthBytes w.toNat)).policy (s.polOf i l pol)) rfl rfl rfl h
    simp only [memStoreLane, hcheck, ho]
  · unfold memStoreLane
    unfold storeAt at h
    generalize s.check i l (addr i l).1 a (addr i l).2 ((askStore (widthBytes w.toNat)).policy (s.polOf i l pol)) = c at h ⊢
    obtain ⟨s2, e | p⟩ := c
    · cases h
    · dsimp only at h ⊢
      obtain ⟨hnext, hdone⟩ := Option.ite_none_right_eq_some.mp h
      cases hdone
      exact Prod.ext rfl (congrArg (LaneOut.only l) hnext)

/-! ## Scratch accesses (06 R171) -/

/-- A scratch lane that its alignment or its bounds stop. -/
theorem checkScr_of_barredScr {w : BitVec 3} {a b : Reg} {i : Iss} {s s1 : State} {l : Nat} {o : LaneOut}
    (h : barredScr w a b i s l = some (s1, o)) :
    s1 = s ∧ ∃ e, s.checkScr i (scrOffset i a b w l) (widthBytes w.toNat) (widthBytes w.toNat) = some e ∧ o = .only l e := by
  unfold barredScr at h
  unfold State.checkScr
  dsimp only at h ⊢
  split at h
  · rename_i hmis
    cases h
    exact ⟨rfl, _, if_pos hmis, rfl⟩
  · rename_i hmis
    rw [if_neg hmis]
    split at h
    · cases h
    · rename_i hrel
      rw [if_neg hrel]
      split at h
      · rename_i hout
        cases h
        exact ⟨rfl, _, if_pos (hout.imp_right fun hb => by rw [hb]; rfl), rfl⟩
      · cases h

/-- One lane of SCR.LD. -/
def scrLoadLane (w : BitVec 3) (a b : Reg) (i : Iss) (s : State) (l : Nat) : State × Except LaneEnd LoadLane :=
  let off := scrOffset i a b w l
  match s.checkScr i off (widthBytes w.toNat) (widthBytes w.toNat) with
  | some e => (s, .error e)
  | none =>
    let r := s.readSpot i l off.toNat (widthBytes w.toNat) 0 (.scr off.toNat)
    (r.1, loadLane l off.toNat w (s.slotTag i.op.team w (.scr off.toNat)) r.2)

theorem loadLanes_scrLd (w : BitVec 3) (d a b : Reg) :
    LoadLanes (.scrLd w d a b) (Form.plain [(a, 1), (b, 1)] (some (d, widthRegs w.toNat)) .g) d w (barredScr w a b) (scrLoadAt w a b) := by
  refine ⟨scrLoadLane w a b, fun s => ?_, fun i s l s1 o h => ?_, fun i s l s1 y h => ?_⟩
  · show execScrLd w d a b s = _
    delta execScrLd scrLoadLane
    refine congrArg (fun k => issue _ (loadBody d w k) s) (funext fun i => funext fun s => funext fun l => ?_)
    dsimp only <;> cases s.checkScr i (scrOffset i a b w l) (widthBytes w.toNat) (widthBytes w.toNat) <;> rfl
  · obtain ⟨rfl, e, hcheck, ho⟩ := checkScr_of_barredScr h
    exact ⟨e, by simp only [scrLoadLane, hcheck], ho⟩
  · unfold scrLoadAt at h
    dsimp only at h
    obtain ⟨⟨hcheck, hgood⟩, hdone⟩ := Option.ite_none_right_eq_some.mp h
    cases hdone
    simp only [scrLoadLane, hcheck, State.readSpot, hgood, Bool.false_eq_true, if_false, loadLane]

/-- One lane of SCR.ST. -/
def scrStoreLane (w : BitVec 3) (d a b : Reg) (i : Iss) (s : State) (l : Nat) : State × LaneOut :=
  let off := scrOffset i a b w l
  match s.checkScr i off (widthBytes w.toNat) (widthBytes w.toNat) with
  | some e => (s, .only l e)
  | none =>
    ((s.scrWrite i.op.team off.toNat (storeBytes i d w l)
        (w == 6 && i.view.capTag d l && decide (Nat.land permPass (capPerm (i.view.quad d l)) ≠ 0))).noteWrite i.op.team i.op.grp l true
      off.toNat (widthBytes w.toNat), .only l .next)

theorem stepLanes_scrSt (w : BitVec 3) (d a b : Reg) :
    StepLanes (.scrSt w d a b) (Form.plain [(a, 1), (b, 1), (d, widthRegs w.toNat)] none .table) (barredScr w a b) (scrStoreAt w d a b) := by
  refine ⟨scrStoreLane w d a b, fun s => ?_, fun i s l s1 o h => ?_, fun i s l s1 o h => ?_⟩
  · show execScrSt w d a b s = _
    delta execScrSt scrStoreLane
    refine congrArg (fun k => issue (Form.plain [(a, 1), (b, 1), (d, widthRegs w.toNat)] none .table) (eachLane k) s)
      (funext fun i => funext fun s => funext fun l => ?_)
    dsimp only <;> cases s.checkScr i (scrOffset i a b w l) (widthBytes w.toNat) (widthBytes w.toNat) <;> rfl
  · obtain ⟨rfl, e, hcheck, ho⟩ := checkScr_of_barredScr h
    simp only [scrStoreLane, hcheck, ho]
  · unfold scrStoreAt at h
    dsimp only at h
    obtain ⟨hcheck, hdone⟩ := Option.ite_none_right_eq_some.mp h
    obtain ⟨rfl, rfl⟩ := Prod.mk.inj (Option.some.inj hdone)
    simp only [scrStoreLane, hcheck]

/-! ## Copies (06 R172) -/

/-- A copy that the checks before those of its pages stop. -/
theorem checkCopy_of_barredCopy {toScr : Bool} {size : BitVec 3} {d a : Reg} {i : Iss} {s s1 : State} {l : Nat} {o : LaneOut} (bar : Nat)
    (h : barredCopy toScr size d a i s l = some (s1, o)) :
    s.takes i (piecesOf (i.view.pair a l) (copyBytes size)).length = true ∧
    ∃ e, s.checkCopy i l (i.view.pair a l) (i.view.reg d l).toNat bar (copyBytes size) a toScr = (s1, .error e) ∧ o = .only l e := by
  unfold barredCopy at h
  unfold State.checkCopy
  dsimp only at h ⊢
  generalize (if toScr = true then permR else permW) = perm at h ⊢
  split at h
  · cases h
  rename_i htakes
  refine ⟨by simpa using htakes, ?_⟩
  split at h
  · rename_i hmis
    cases h
    exact ⟨_, if_pos hmis, rfl⟩
  rename_i hmis
  rw [if_neg hmis]
  split at h
  · rename_i hoff
    cases h
    exact ⟨_, if_pos hoff, rfl⟩
  rename_i hoff
  rw [if_neg hoff]
  split at h
  · rename_i hcap
    cases h
    exact ⟨_, if_pos hcap, rfl⟩
  rename_i hcap
  rw [if_neg hcap]
  split at h
  · rename_i hap
    cases h
    exact ⟨_, if_pos hap, rfl⟩
  rename_i hap
  rw [if_neg hap]
  split at h
  · rename_i hscr
    cases h
    simp only [Bool.and_eq_true, Bool.not_eq_true'] at hscr
    obtain ⟨hrel, hout⟩ := hscr
    simp only [hrel, hout, Bool.false_eq_true, if_false, Bool.not_false, if_true]
    exact ⟨_, rfl, rfl⟩
  · cases h

/-- One lane of a copy. -/
def copyLane (toScr : Bool) (size : BitVec 3) (d a b : Reg) (i : Iss) (s : State) (l : Nat) : State × LaneOut :=
  if !s.takes i (piecesOf (i.view.pair a l) (copyBytes size)).length then (s, .only l .pend)
  else match s.checkCopy i l (i.view.pair a l) (i.view.reg d l).toNat (i.view.pair b l) (copyBytes size) a toScr with
  | (s1, .error e) => (s1, .only l e)
  | (s1, .ok (parts, barPa)) =>
    if parts.any fun p => s1.partWaits i toScr p.1 p.2.1 p.2.2.1 p.2.2.2 then
      (s1.unpinBarrier i.team.ctx (i.view.pair b l) barPa, .only l .pend)
    else
      (parts.foldl (fun (st : State) (p : Nat × Nat × BitVec 2 × Nat) =>
        st.startPart i l s1.nextId ((i.view.reg d l).toNat + (p.1 - i.view.pair a l)) (i.view.pair b l) barPa toScr
          p.1 p.2.1 p.2.2.1 p.2.2.2) s1, .only l .next)

theorem asyncCopy_eq (toScr : Bool) (size : BitVec 3) (d a b : Reg) :
    asyncCopy toScr size d a b = issue (copyForm d a b) (eachLane (copyLane toScr size d a b)) := by
  delta asyncCopy copyLane
  refine congrArg₂ issue rfl (congrArg eachLane (funext fun i => funext fun s => funext fun l => ?_))
  dsimp only
  generalize s.checkCopy i l (i.view.pair a l) (i.view.reg d l).toNat (i.view.pair b l) (copyBytes size) a toScr = c
  obtain ⟨s1, e | ⟨parts, barPa⟩⟩ := c <;> rfl

theorem stepLanes_of_asyncCopy {j : Instr} {toScr : Bool} {size : BitVec 3} {d a b : Reg} (hj : ∀ s, exec j s = asyncCopy toScr size d a b s) :
    StepLanes j (copyForm d a b) (barredCopy toScr size d a) (copyAt toScr size d a b) := by
  refine ⟨copyLane toScr size d a b, fun s => (hj s).trans (by rw [asyncCopy_eq]), fun i s l s1 o h => ?_, fun i s l s1 o h => ?_⟩
  · obtain ⟨htakes, e, hcheck, ho⟩ := checkCopy_of_barredCopy (i.view.pair b l) h
    simp only [copyLane, htakes, hcheck, ho, Bool.not_true, Bool.false_eq_true, if_false]
  · unfold copyLane
    unfold copyAt at h
    split at h
    · cases h
    rename_i htakes
    rw [if_neg htakes]
    generalize s.checkCopy i l (i.view.pair a l) (i.view.reg d l).toNat (i.view.pair b l) (copyBytes size) a toScr = c at h ⊢
    obtain ⟨s2, e | ⟨parts, barPa⟩⟩ := c
    · cases h
    · dsimp only at h ⊢
      split at h
      · cases h
      · rename_i hwait
        cases h
        rw [if_neg hwait]

/-- Settles O38: each of the forms issues lanes of which those that the checks let through do what the claim says. -/
theorem accessCompletes : Obligations.AccessCompletes :=
  ⟨fun _ _ _ _ _ => (loadLanes_of_loadFrom fun _ => rfl).runs, fun _ _ _ _ => (loadLanes_of_loadFrom fun _ => rfl).runs,
    fun _ _ _ _ _ => (stepLanes_of_storeTo fun _ => rfl).runs, fun _ _ _ _ => (stepLanes_of_storeTo fun _ => rfl).runs,
    fun _ _ _ _ => (loadLanes_scrLd _ _ _ _).runs, fun _ _ _ _ => (stepLanes_scrSt _ _ _ _).runs,
    fun _ _ _ _ => (stepLanes_of_asyncCopy fun _ => rfl).runs, fun _ _ _ _ => (stepLanes_of_asyncCopy fun _ => rfl).runs⟩

end Sys2Proof.Claims
end

