-- ==== Sys2Proof/Proofs/AtomicsAndBarriers.lean ====
section
/-! Atomics, reductions and barrier instructions (06 R174 to R183, 20 R416) lane by lane: what the checks stop, and what the lanes that pass do. -/

namespace Sys2Proof.Claims

open Sys2Proof Machine

/-! ## Atomics and reductions (06 R174 to R177) -/

/-- One lane of an atomic on 4 or 8 bytes. -/
def atomLane (op : AtomOp) (wide : Bool) (d a b : Reg) (i : Iss) (s : State) (l : Nat) : State × Except LaneEnd LoadLane :=
  match s.check i l (i.view.pair a l) a 0 (askAtom (if wide then 8 else 4)) with
  | (s1, .error e) => (s1, .error e)
  | (s1, .ok p) =>
    let r := s1.atomSpot i l (i.view.pair a l) (if wide then 8 else 4) op (operand wide i b l) (operand wide i d l) p
    (r.1, loadLane l (i.view.pair a l) (if wide then 5 else 4) false r.2)

theorem atomic_eq (op : AtomOp) (wide : Bool) (d a b : Reg) :
    atomic op wide d a b = issue (atomForm op wide d a b) (loadBody d (if wide then 5 else 4) (atomLane op wide d a b)) := by
  delta atomic atomLane
  refine congrArg₂ issue rfl (congrArg (loadBody d (if wide then 5 else 4)) (funext fun i => funext fun s => funext fun l => ?_))
  dsimp only
  generalize s.check i l (i.view.pair a l) a 0 (askAtom (if wide = true then 8 else 4)) = c
  obtain ⟨s1, e | p⟩ := c <;> rfl

theorem loadLanes_of_atomic {j : Instr} {op : AtomOp} {wide : Bool} {d a b : Reg} (hj : ∀ s, exec j s = atomic op wide d a b s) :
    LoadLanes j (atomForm op wide d a b) d (if wide then 5 else 4)
      (barred (if wide then 8 else 4) (permR + permW + permAtomic) a (atPair a)) (atomAt op wide d a b) := by
  refine ⟨atomLane op wide d a b, fun s => (hj s).trans (by rw [atomic_eq]), fun i s l s1 o h => ?_, fun i s l s1 y h => ?_⟩
  · obtain ⟨e, hcheck, ho⟩ := check_of_barred (k := askAtom (if wide then 8 else 4)) rfl rfl rfl h
    exact ⟨e, by simp only [atomLane, show s.check i l (i.view.pair a l) a 0 (askAtom (if wide then 8 else 4)) = _ from hcheck], ho⟩
  · unfold atomLane
    unfold atomAt at h
    dsimp only at h
    generalize s.check i l (i.view.pair a l) a 0 (askAtom (if wide = true then 8 else 4)) = c at h ⊢
    obtain ⟨s2, e | p⟩ := c
    · cases h
    · dsimp only at h ⊢
      cases wide <;>
      · split at h
        · rename_i bs hb; cases h; rw [hb]; rfl
        · rename_i c hb; cases h; rw [hb]; rfl
        · cases h

theorem atomTable_runs (d a b : Reg) : ∀ x ∈ atomTable d a b, ∀ s, exec x.2.2 s = atomic x.1 x.2.1 d a b s := by
  simp only [atomTable, List.forall_mem_cons]
  exact ⟨fun _ => rfl, fun _ => rfl, fun _ => rfl, fun _ => rfl, fun _ => rfl, fun _ => rfl, fun _ => rfl, fun _ => rfl, fun _ => rfl,
    fun _ => rfl, fun _ => rfl, fun _ => rfl, fun _ => rfl, fun _ => rfl, fun _ => rfl, fun _ => rfl, fun _ => rfl, fun _ => rfl,
    fun _ => rfl, fun _ => rfl, fun _ => rfl, fun _ => rfl, fun _ => rfl, fun _ => rfl, fun _ => rfl, fun _ => rfl, fun _ => rfl,
    fun _ => rfl, fun _ => rfl, fun _ => rfl, fun _ => rfl, fun _ => rfl, List.forall_mem_nil _⟩

/-- One lane of a reduction: a contribution to the core's update-only copy on an RC page, else a step of the location. -/
def redLane (code : Nat) (a b : Reg) (i : Iss) (s : State) (l : Nat) : State × LaneOut :=
  let n := if redCodeWide code then 8 else 4
  let va := i.view.pair a l
  let y := operand (redCodeWide code) i b l
  let t := s.team i.op.team
  match s.check i l va a 0 (askRed n) with
  | (s1, .error e) => (s1, .only l e)
  | (s1, .ok p) =>
    let r := s1.atomSpot i l va n (redOpOf code) y 0 p
    let home : State × LaneOut := match r.2 with
      | .ends e => (r.1, .only l e)
      | .data (.ok _) => (r.1, .only l .next)
      | .data (.bad k) => (r.1.postStoreError t.ctx k va, .only l .next)
    match p with
    | .page attr pa =>
      if attr == attrRC && paClass pa == .dram then
        let core := l1Core t (t.coreOf i.op.grp) va
        (((s1.ownCopies i l pa n).l1Bypass core (s1.asidOf t.ctx) va n).modCore core fun k =>
          { k with upd := updAdd k.upd { asid := s1.asidOf t.ctx, va := va, pa := pa, slice := s1.homeSlice (s1.asidOf t.ctx) va, op := code,
                                         val := BitVec.ofNat 64 y } }, .only l .next)
      else home
    | _ => home

theorem reduction_eq (code : Nat) (a b : Reg) : reduction code a b = issue (redForm code a b) (eachLane (redLane code a b)) := by
  delta reduction redLane
  refine congrArg₂ issue rfl (congrArg eachLane (funext fun i => funext fun s => funext fun l => ?_))
  dsimp only [operand]
  generalize s.check i l (i.view.pair a l) a 0 (askRed (if redCodeWide code = true then 8 else 4)) = c
  obtain ⟨s1, e | p⟩ := c
  · rfl
  · dsimp only
    cases p <;> rfl

theorem stepLanes_of_reduction {j : Instr} {code : Nat} {a b : Reg} (hj : ∀ s, exec j s = reduction code a b s) :
    StepLanes j (redForm code a b) (barred (if redCodeWide code then 8 else 4) (permW + permAtomic) a (atPair a)) (redAt code a b) := by
  refine ⟨redLane code a b, fun s => (hj s).trans (by rw [reduction_eq]), fun i s l s1 o h => ?_, fun i s l s1 o h => ?_⟩
  · obtain ⟨e, hcheck, ho⟩ := check_of_barred (k := askRed (if redCodeWide code then 8 else 4)) rfl rfl rfl h
    simp only [redLane, show s.check i l (i.view.pair a l) a 0 (askRed (if redCodeWide code then 8 else 4)) = _ from hcheck, ho]
  · unfold redLane
    unfold redAt at h
    dsimp only at h ⊢
    generalize s.check i l (i.view.pair a l) a 0 (askRed (if redCodeWide code = true then 8 else 4)) = c at h ⊢
    obtain ⟨s2, e | p⟩ := c
    · cases h
    · dsimp only at h ⊢
      generalize s2.atomSpot i l (i.view.pair a l) (if redCodeWide code = true then 8 else 4) (redOpOf code)
        (operand (redCodeWide code) i b l) 0 p = r at h ⊢
      cases p
      case page attr pa =>
        dsimp only at h ⊢
        by_cases hrc : (attr == attrRC && paClass pa == PaClass.dram) = true
        · rw [if_pos hrc] at h ⊢
          exact Option.some.inj h
        · rw [if_neg hrc] at h ⊢
          rcases r with ⟨s3, (bs | c) | e⟩ <;> [exact Option.some.inj h; exact Option.some.inj h; cases h]
      all_goals rcases r with ⟨s3, (bs | c) | e⟩ <;> [exact Option.some.inj h; exact Option.some.inj h; cases h]

theorem redTable_runs (a b : Reg) : ∀ x ∈ redTable a b, ∀ s, exec x.2 s = reduction x.1 a b s := by
  simp only [redTable, List.forall_mem_cons]
  exact ⟨fun _ => rfl, fun _ => rfl, fun _ => rfl, fun _ => rfl, fun _ => rfl, fun _ => rfl, fun _ => rfl, fun _ => rfl, fun _ => rfl,
    fun _ => rfl, fun _ => rfl, fun _ => rfl, fun _ => rfl, fun _ => rfl, fun _ => rfl, List.forall_mem_nil _⟩

/-! ## Barrier objects (06 R180 to R183, 20 R416) -/

/-- One lane of a barrier instruction. -/
def barLane (a : Reg) (body : Iss → State → Nat → Nat → Spot → State × LaneOut) (i : Iss) (s : State) (l : Nat) : State × LaneOut :=
  match s.check i l (i.view.pair a l) a 0 askBarrier with
  | (s1, .error e) => (s1, .only l e)
  | (s1, .ok p) => body i s1 l (i.view.pair a l) p

theorem barOp_eq (f : Form) (a : Reg) (body : Iss → State → Nat → Nat → Spot → State × LaneOut) :
    barOp f a body = issue { f with txn := false } (eachLane (barLane a body)) := by
  delta barOp barLane
  refine congrArg₂ issue rfl (congrArg eachLane (funext fun i => funext fun s => funext fun l => ?_))
  dsimp only
  generalize s.check i l (i.view.pair a l) a 0 askBarrier = c
  obtain ⟨s1, e | p⟩ := c <;> rfl

theorem barLane_of_barred {a : Reg} {body : Iss → State → Nat → Nat → Spot → State × LaneOut} {i : Iss} {s s1 : State} {l : Nat}
    {o : LaneOut} (h : barred 16 permObject a (atPair a) i s l = some (s1, o)) : barLane a body i s l = (s1, o) := by
  obtain ⟨e, hcheck, ho⟩ := check_of_barred (k := askBarrier) rfl rfl rfl h
  simp only [barLane, show s.check i l (i.view.pair a l) a 0 askBarrier = _ from hcheck, ho]

/-- A barrier instruction whose step on the object does what `h` says. -/
theorem stepLanes_of_barOp {j : Instr} {f : Form} {a : Reg} {h : Iss → State → Nat → Nat → Spot → Option (State × LaneOut)}
    (hrow : ∃ body : Iss → State → Nat → Nat → Spot → State × LaneOut, (∀ s, exec j s = barOp f a body s) ∧
      ∀ i s l va p s1 o, h i s l va p = some (s1, o) → body i s l va p = (s1, o)) :
    StepLanes j { f with txn := false } (barred 16 permObject a (atPair a)) (objectAt a h) := by
  obtain ⟨body, hj, hbody⟩ := hrow
  refine ⟨barLane a body, fun s => (hj s).trans (by rw [barOp_eq]), fun i s l s1 o hs => barLane_of_barred hs, fun i s l s1 o hs => ?_⟩
  unfold barLane
  unfold objectAt at hs
  generalize s.check i l (i.view.pair a l) a 0 askBarrier = c at hs ⊢
  obtain ⟨s2, e | p⟩ := c
  · cases hs
  · exact hbody _ _ _ _ _ _ _ hs

theorem barUpdate_of_stepAt {arrival token : Bool} {k : BarStep} {i : Iss} {s s1 : State} {l va : Nat} {p : Spot} {o : LaneOut}
    (h : stepAt arrival token k i s l va p = some (s1, o)) : barUpdate arrival token k i s l va p = (s1, o) := by
  unfold stepAt at h
  unfold barUpdate
  dsimp only at h ⊢
  generalize (if arrival = true then s.barRelease i l va p else (s, false)) = r at h ⊢
  obtain ⟨s2, due⟩ := r
  cases due
  · dsimp only at h ⊢
    generalize s2.barStep i l va p k = x at h ⊢
    obtain ⟨s3, o2 | e⟩ := x
    · exact Option.some.inj h
    · cases h
  · cases h

theorem stepLanes_binit (d a b : Reg) :
    StepLanes (.binit d a b) (mainForm [(a, 2), (b, 1), (d, 1)] none .g) (barred 16 permObject a (atPair a)) (objectAt a (initAt d b)) := by
  refine stepLanes_of_barOp (f := barForm [(a, 2), (b, 1), (d, 1)] none)
    ⟨_, fun s => by show execBinit d a b s = _; delta execBinit; exact rfl, fun i s l va p s1 o h => ?_⟩
  unfold initAt at h
  dsimp only
  generalize s.barStep i l va p (.init ((i.view.reg b l).toNat % 65536) ((i.view.reg d l).toNat / 256) ((i.view.reg d l).getLsbD 0)) = x at h ⊢
  obtain ⟨s3, o2 | e⟩ := x
  · dsimp only at h ⊢
    split at h
    · cases h
    · rename_i hcopied
      rw [if_neg hcopied]
      exact Option.some.inj h
  · cases h

theorem stepLanes_bwait (d a b : Reg) :
    StepLanes (.bwait d a b) (mainForm [(a, 2), (b, 1)] (some (d, 1)) .g) (barred 16 permObject a (atPair a)) (objectAt a (waitAt b)) := by
  refine stepLanes_of_barOp (f := barForm [(a, 2), (b, 1)] (some (d, 1)))
    ⟨_, fun s => by show execBwait d a b s = _; delta execBwait; exact rfl, fun i s l va p s1 o h => ?_⟩
  unfold waitAt at h
  generalize s.barRead i l va p = x at h ⊢
  obtain ⟨s3, o2 | e⟩ := x
  · dsimp only at h ⊢
    split at h
    · rename_i hphase
      rw [if_pos hphase]
      exact Option.some.inj h
    · rename_i hphase
      rw [if_neg hphase]
      split at h
      · rename_i herr
        rw [if_pos herr]
        exact Option.some.inj h
      · rename_i herr
        rw [if_neg herr]
        exact Option.some.inj h
  · cases h

theorem stepLanes_btest (d a b : Reg) :
    StepLanes (.btest d a b) (mainForm [(a, 2), (b, 1)] (some (d, 1)) .g) (barred 16 permObject a (atPair a)) (objectAt a (testAt b)) := by
  refine stepLanes_of_barOp (f := barForm [(a, 2), (b, 1)] (some (d, 1)))
    ⟨_, fun s => by show execBtest d a b s = _; delta execBtest; exact rfl, fun i s l va p s1 o h => ?_⟩
  unfold testAt at h
  generalize s.barRead i l va p = x at h ⊢
  obtain ⟨s3, o2 | e⟩ := x
  · dsimp only at h ⊢
    split at h
    · rename_i hphase
      rw [if_pos hphase]
      exact Option.some.inj h
    · rename_i hphase
      rw [if_neg hphase]
      exact Option.some.inj h
  · cases h

theorem stepLanes_arriveb (d a b : Reg) :
    StepLanes (.arriveb d a b) (mainForm [(a, 2), (b, 1)] (some (d, 1)) .g) (barred 16 permObject a (atPair a))
      (objectAt a fun i s l va p => stepAt true true (.arriveBytes (i.view.reg b l)) i s l va p) :=
  stepLanes_of_barOp (f := barForm [(a, 2), (b, 1)] (some (d, 1)))
    ⟨_, fun s => by show execArriveb d a b s = _; delta execArriveb; exact rfl, fun _ _ _ _ _ _ _ h => barUpdate_of_stepAt h⟩

theorem stepLanes_expect (a b : Reg) :
    StepLanes (.expect a b) (mainForm [(a, 2), (b, 1)] none .g) (barred 16 permObject a (atPair a))
      (objectAt a fun i s l va p => stepAt false false (.expect (i.view.reg b l)) i s l va p) :=
  stepLanes_of_barOp (f := barForm [(a, 2), (b, 1)] none)
    ⟨_, fun s => by show execExpect a b s = _; delta execExpect; exact rfl, fun _ _ _ _ _ _ _ h => barUpdate_of_stepAt h⟩

/-- The checks of ARRIVE: on a Foehn core those of a call's arrival, which has no scratch (20 R416). -/
def barredArrive (a : Reg) (i : Iss) (s : State) (l : Nat) : Option (State × LaneOut) :=
  if i.team.onFoehn && inAperture (i.view.pair a l) && i.view.pair a l % 16 == 0 && capOk i l a 0 16 permObject then none
  else barred 16 permObject a (atPair a) i s l

/-- One lane of ARRIVE. -/
def arriveLane (a b : Reg) (i : Iss) (s : State) (l : Nat) : State × LaneOut :=
  let n := (i.view.reg b l).toNat % 65536
  if i.team.onFoehn then callArrive a n i s l (i.view.pair a l) else barLane a (barUpdate true true (.arrive n)) i s l

theorem execArrive_eq (d a b : Reg) (s : State) :
    execArrive d a b s = issue { Form.plain [(a, 2), (b, 1)] (some (d, 1)) .g with txn := false } (eachLane (arriveLane a b)) s := by
  delta execArrive arriveLane barLane
  refine congrArg (fun k => issue { Form.plain [(a, 2), (b, 1)] (some (d, 1)) .g with txn := false } (eachLane k) s)
    (funext fun i => funext fun s => funext fun l => ?_)
  dsimp only
  generalize s.check i l (i.view.pair a l) a 0 askBarrier = c
  obtain ⟨s1, e | p⟩ := c <;> rfl

/-- A call's arrival that its alignment or its capability stops. -/
theorem callArrive_of_barred {a : Reg} {n : Nat} {i : Iss} {s s1 : State} {l : Nat} {o : LaneOut} (hfoehn : i.team.onFoehn = true)
    (h : barredArrive a i s l = some (s1, o)) : callArrive a n i s l (i.view.pair a l) = (s1, o) := by
  unfold barredArrive barred atPair at h
  unfold callArrive
  dsimp only at h ⊢
  split at h
  · cases h
  rename_i hscr
  split at h
  · rename_i hmis
    rw [if_pos hmis]
    exact Option.some.inj h
  rename_i hmis
  rw [if_neg hmis]
  split at h
  · rename_i hcap
    rw [permObject] at hcap
    rw [if_pos hcap]
    exact Option.some.inj h
  rename_i hcap
  split at h
  · simp_all
  · cases h

theorem stepLanes_arrive (d a b : Reg) :
    StepLanes (.arrive d a b) { Form.plain [(a, 2), (b, 1)] (some (d, 1)) .g with txn := false } (barredArrive a) (arriveAt a b) := by
  refine ⟨arriveLane a b, fun s => execArrive_eq d a b s, fun i s l s1 o h => ?_, fun i s l s1 o h => ?_⟩
  · unfold arriveLane
    dsimp only
    split
    · rename_i hfoehn
      exact callArrive_of_barred hfoehn h
    · rename_i hfoehn
      refine barLane_of_barred ?_
      rwa [barredArrive, if_neg (by simp [hfoehn])] at h
  · unfold arriveAt at h
    unfold arriveLane
    dsimp only at h ⊢
    split at h
    · rename_i hfoehn
      rw [if_pos hfoehn]
      obtain ⟨_, hdone⟩ := Option.ite_none_right_eq_some.mp h
      exact Option.some.inj hdone
    · rename_i hfoehn
      rw [if_neg hfoehn]
      unfold barLane
      generalize s.check i l (i.view.pair a l) a 0 askBarrier = c at h ⊢
      obtain ⟨s2, e | p⟩ := c
      · cases h
      · exact barUpdate_of_stepAt h

end Sys2Proof.Claims
end

