-- ==== Sys2Proof/Proofs/LaneFaults.lean ====
section
/-! Lanes that fault beside lanes that do not (06 R163, 03 R75, R91, R92, R98, R100), and operations of which every lane faults. -/

namespace Sys2Proof.Claims

open Sys2Proof Machine

/-! ## Register forms of which some lanes are bad (03 R75, R91, R92, R98, R100) -/

theorem runs_partly {j : Instr} {f : Form} {bad : Iss → Nat → Option LaneOut} {out : Iss → Nat → LaneOut}
    (h : ∃ k : Iss → Nat → LaneOut, (∀ s, exec j s = issue f (perLane k) s) ∧ ∀ i l, k i l = (bad i l).getD (out i l)) :
    Runs j f (partly bad out) := by
  obtain ⟨k, hj, hk⟩ := h
  exact runs_of ⟨_, hj, fun i _ _ _ he => still_eq (fun l _ => hk i l) he⟩

theorem ite_eq_getD {c : Prop} [Decidable c] (x y : LaneOut) : (if c then x else y) = (if c then some x else none).getD y := by
  split <;> rfl

theorem runs_jr (d a : Reg) : Runs (.jr d a) (Form.plain [(a, 2)] (some (d, 2)) .table)
    (partly (fun i l => if i.view.pair a l % 4 ≠ 0 then some (.fault l cMisaligned (i.view.pair a l)) else none) fun i l =>
      { LaneOut.write l (wordsOf 2 (i.op.pc + 4).toNat) with ends := .goto (BitVec.ofNat 64 (i.view.pair a l)) }) :=
  runs_partly ⟨_, fun s => by show execJr d a s = _; delta execJr; exact rfl, fun _ _ => ite_eq_getD _ _⟩

theorem runs_cnarrow (d a b : Reg) : Runs (.cnarrow d a b) (Form.plain [(a, 4), (b, 4)] (some (d, 4)) .table)
    (partly (fun i l =>
      if !i.view.capTag a l || decide (capLen (i.view.quad a l) < i.view.quad b l % 2 ^ 64 + i.view.quad b l / 2 ^ 64) then
        some (.fault l cCapability (capBase (i.view.quad a l))) else none) fun i l =>
      .quad l (capWith (i.view.quad a l) (capBase (i.view.quad a l) + i.view.quad b l % 2 ^ 64) (i.view.quad b l / 2 ^ 64)) true) :=
  runs_partly ⟨_, fun s => by show execCnarrow d a b s = _; delta execCnarrow; exact rfl, fun _ _ => ite_eq_getD _ _⟩

theorem runs_cperm (d a b : Reg) : Runs (.cperm d a b) (Form.plain [(a, 4), (b, 1)] (some (d, 4)) .table)
    (partly (fun i l =>
      if !i.view.capTag a l || decide (32 ≤ (i.view.reg b l).toNat) ||
          decide (Nat.land (i.view.reg b l).toNat (31 - capPerm (i.view.quad a l)) ≠ 0) then
        some (.fault l cCapability (capBase (i.view.quad a l))) else none) fun i l =>
      .quad l (capWithPerm (i.view.quad a l) (i.view.reg b l).toNat) true) :=
  runs_partly ⟨_, fun s => by show execCperm d a b s = _; delta execCperm; exact rfl, fun _ _ => ite_eq_getD _ _⟩

theorem runs_cmint (d a : Reg) : Runs (.cmint d a) { Form.plain [(a, 4)] (some (d, 4)) .table with foehn := false, priv := true }
    (partly (fun i l =>
      if i.view.quad a l / 2 ^ 115 ≠ 0 ∨ i.view.quad a l / 2 ^ 109 % 8 ≠ 0 then
        some (.fault l cCapability (capBase (i.view.quad a l))) else none) fun i l => .quad l (i.view.quad a l) true) :=
  runs_partly ⟨_, fun s => by show execCmint d a s = _; delta execCmint; exact rfl, fun _ _ => ite_eq_getD _ _⟩

/-! ## Where every lane faults -/

theorem delivers_of_isFault {e : LaneEnd} (h : e.isFault = true) : e.delivers = false ∧ e.stands = false := by
  cases e <;> simp_all [LaneEnd.isFault, LaneEnd.delivers, LaneEnd.stands]

/-- Lanes that all fault write no result and leave none standing. -/
theorem complete_of_faults {i : Iss} {f : Form} {outs : List LaneOut} (h : ∀ o ∈ outs, o.ends.isFault = true) (s : State) :
    s.complete i f outs = s.finish i.op outs := by
  have hgood : outs.filter (fun o => o.ends.delivers) = [] :=
    List.filter_eq_nil_iff.mpr fun o ho => by rw [(delivers_of_isFault (h o ho)).1]; decide
  have hstand : outs.any (fun o => o.ends.stands) = false :=
    List.any_eq_false.mpr fun o ho => by rw [(delivers_of_isFault (h o ho)).2]; decide
  unfold State.complete State.standLanes
  dsimp only
  rw [hgood, hstand]
  cases f.dst <;> rfl

/-- An instruction whose body changes nothing and faults in each lane where all are bad. -/
theorem faults_of {j : Instr} {f : Form} {c : BitVec 8} {bad : Iss → Nat → Bool} {addr : Iss → Nat → Nat}
    (h : ∃ body : Iss → State → State × List LaneOut, (∀ s, exec j s = issue f body s) ∧
      ∀ i s, (∀ l ∈ i.lanes, bad i l = true) → body i s = (s, i.lanes.map fun l => .fault l c (addr i l))) : Faults j f c bad addr := by
  obtain ⟨body, hj, hbody⟩ := h
  intro s op t g ht hc hbad
  rw [hj, issue_clear ht hc, hbody (issOf op t g) s (List.all_eq_true.mp hbad), complete_of_faults]
  · rfl
  · intro o ho
    obtain ⟨l, _, rfl⟩ := List.mem_map.mp ho
    rfl

theorem eachLane_of_same {k : Iss → State → Nat → State × LaneOut} {i : Iss} {s : State} {out : Nat → LaneOut}
    (h : ∀ l ∈ i.lanes, k i s l = (s, out l)) : eachLane k i s = (s, i.lanes.map out) := by
  have hfold : ∀ (ls : List Nat) (acc : List LaneOut), (∀ l ∈ ls, k i s l = (s, out l)) →
      ls.foldl (fun (r : State × List LaneOut) (l : Nat) =>
        let (s1, o) := k i r.1 l
        (s1, r.2 ++ [o])) (s, acc) = (s, acc ++ ls.map out) := by
    intro ls
    induction ls with
    | nil => intro acc _; simp
    | cons l ls ih =>
      intro acc hl
      rw [List.foldl_cons, hl l (by simp)]
      simpa using ih (acc ++ [out l]) fun m hm => hl m (by simp [hm])
  exact hfold i.lanes [] h

theorem StepLanes.faults {j : Instr} {f : Form} {stop h : Iss → State → Nat → Option (State × LaneOut)} {c : BitVec 8}
    {bad : Iss → Nat → Bool} {addr : Iss → Nat → Nat} (hl : StepLanes j f stop h)
    (hbad : ∀ i s l, bad i l = true → stop i s l = some (s, .fault l c (addr i l))) : Faults j f c bad addr := by
  obtain ⟨k, hj, hstop, _⟩ := hl
  exact faults_of ⟨_, hj, fun i s hall => eachLane_of_same fun l hm => hstop i s l _ _ (hbad i s l (hall l hm))⟩

theorem barred_of_misaligned {n perm : Nat} {a : Reg} {addr : Iss → Nat → Nat × Nat} (i : Iss) (s : State) (l : Nat)
    (h : ((addr i l).1 % n != 0) = true) : barred n perm a addr i s l = some (s, .fault l cMisaligned (addr i l).1) :=
  if_pos (by simpa using h)

theorem barred_of_capability {n perm : Nat} {a : Reg} {addr : Iss → Nat → Nat × Nat} (i : Iss) (s : State) (l : Nat)
    (h : ((addr i l).1 % n == 0 && !capOk i l a (addr i l).2 n perm) = true) :
    barred n perm a addr i s l = some (s, .fault l cCapability (addr i l).1) := by
  rw [Bool.and_eq_true, beq_iff_eq] at h
  obtain ⟨halign, hcap⟩ := h
  unfold barred
  dsimp only
  rw [if_neg (not_not.mpr halign), if_pos hcap]

theorem faults_perLane {j : Instr} {f : Form} {c : BitVec 8} {bad : Iss → Nat → Bool} {addr : Iss → Nat → Nat}
    (h : ∃ k : Iss → Nat → LaneOut, (∀ s, exec j s = issue f (perLane k) s) ∧ ∀ i l, bad i l = true → k i l = .fault l c (addr i l)) :
    Faults j f c bad addr := by
  obtain ⟨k, hj, hk⟩ := h
  exact faults_of ⟨_, hj, fun i s hall => Prod.ext rfl (List.map_congr_left fun l hm => hk i l (hall l hm))⟩

theorem faults_jr (d a : Reg) : Faults (.jr d a) (Form.plain [(a, 2)] (some (d, 2)) .table) cMisaligned (fun i l => i.view.pair a l % 4 != 0)
    fun i l => i.view.pair a l :=
  faults_perLane ⟨_, fun s => by show execJr d a s = _; delta execJr; exact rfl, fun _ _ h => if_pos (by simpa using h)⟩

theorem faults_cnarrow (d a b : Reg) : Faults (.cnarrow d a b) (Form.plain [(a, 4), (b, 4)] (some (d, 4)) .table) cCapability
    (fun i l => !i.view.capTag a l || decide (capLen (i.view.quad a l) < i.view.quad b l % 2 ^ 64 + i.view.quad b l / 2 ^ 64))
    fun i l => capBase (i.view.quad a l) :=
  faults_perLane ⟨_, fun s => by show execCnarrow d a b s = _; delta execCnarrow; exact rfl, fun _ _ h => if_pos h⟩

/-- A change of no lanes. -/
theorem onLanes_nil (s : State) (op : Op) (f : Nat → Thread → Thread) : s.onLanes op [] f = s :=
  State.modGroup_eq_self fun _ g _ _ => congrArg (fun ths => { g with threads := ths }) (mapIdx_eq_self fun _ _ _ => rfl)

/-- MSET with a value that is neither NONE nor a multiple of 4 (03 R92). -/
def meetBad (a : Reg) (i : Iss) (l : Nat) : Bool := i.view.pair a l != meetNone.toNat && i.view.pair a l % 4 != 0

/-- The body of MSET. -/
def msetBody (a : Reg) (i : Iss) (s : State) : State × List LaneOut :=
  (s.onLanes i.op (i.lanes.filter fun l => !meetBad a i l) fun l th => { th with meet := BitVec.ofNat 64 (i.view.pair a l) },
   i.lanes.map fun l => if meetBad a i l then .fault l cMisaligned (i.view.pair a l) else .write l (wordsOf 2 (i.thread l).meet.toNat))

theorem exec_mset (d a : Reg) (s : State) : exec (.mset d a) s = issue (Form.plain [(a, 2)] (some (d, 2)) .g) (msetBody a) s := by
  show execMset d a s = _
  delta execMset
  exact rfl

theorem runs_mset (d a : Reg) : Runs (.mset d a) (Form.plain [(a, 2)] (some (d, 2)) .g)
    (turn (fun _ _ => true)
      (fun i s => s.onLanes i.op (i.lanes.filter fun l => i.view.pair a l == meetNone.toNat || i.view.pair a l % 4 == 0) fun l th =>
        { th with meet := BitVec.ofNat 64 (i.view.pair a l) })
      fun i _ l => if i.view.pair a l ≠ meetNone.toNat ∧ i.view.pair a l % 4 ≠ 0 then .fault l cMisaligned (i.view.pair a l)
        else .write l (wordsOf 2 (i.thread l).meet.toNat)) := by
  refine runs_of ⟨msetBody a, exec_mset d a, fun i s s1 outs he => turn_eq he fun _ => Prod.ext ?_ (List.map_congr_left fun l _ => ?_)⟩
  · refine congrArg (fun ls => s.onLanes i.op ls _) (List.filter_congr fun l _ => ?_)
    simp [meetBad, bne]
  · refine if_congr ?_ rfl rfl
    simp [meetBad]

theorem faults_mset (d a : Reg) : Faults (.mset d a) (Form.plain [(a, 2)] (some (d, 2)) .g) cMisaligned (meetBad a) fun i l => i.view.pair a l := by
  refine faults_of ⟨msetBody a, exec_mset d a, fun i s hall => Prod.ext ?_ (List.map_congr_left fun l hl => if_pos (hall l hl))⟩
  have hnone : i.lanes.filter (fun l => !meetBad a i l) = [] := List.filter_eq_nil_iff.mpr fun l hl => by simp [hall l hl]
  exact (congrArg (fun ls => s.onLanes i.op ls _) hnone).trans (onLanes_nil s _ _)

/-- A window base within the registers of the team (03 R75). -/
def baseOk (a : Reg) (i : Iss) (l : Nat) : Bool :=
  (i.view.reg a l).toNat % 8 == 0 && decide ((i.view.reg a l).toNat + 96 ≤ i.team.nregs)

theorem faults_wbase (a : Reg) : Faults (.wbase a) { Form.plain [(a, 1)] none .table with foehn := false, txn := false } cWindow
    (fun i l => (i.view.reg a l).toNat % 8 != 0 || decide (i.team.nregs < (i.view.reg a l).toNat + 96)) fun i l => (i.view.reg a l).toNat := by
  refine faults_of ⟨fun i s =>
    (s.onLanes i.op (i.lanes.filter (baseOk a i)) fun l th =>
       { th with base := (i.view.reg a l).toNat, capTags := if th.base = (i.view.reg a l).toNat then th.capTags else 0 },
     i.lanes.map fun l => if baseOk a i l then .only l .next else .fault l cWindow (i.view.reg a l).toNat),
    fun s => by show execWbase a s = _; delta execWbase; exact rfl, fun i s hall => ?_⟩
  have hbad : ∀ l ∈ i.lanes, baseOk a i l = false := fun l hl => by
    have hb := hall l hl
    simp only [baseOk, Bool.or_eq_true, bne_iff_ne, decide_eq_true_eq, Bool.and_eq_false_iff, beq_eq_false_iff_ne, decide_eq_false_iff_not,
      not_le] at hb ⊢
    exact hb
  have hnone : i.lanes.filter (baseOk a i) = [] := List.filter_eq_nil_iff.mpr fun l hl => by simp [hbad l hl]
  refine Prod.ext ((congrArg (fun ls => s.onLanes i.op ls _) hnone).trans (onLanes_nil s _ _)) (List.map_congr_left fun l hl => ?_)
  rw [hbad l hl]
  rfl

/-- Settles O10: the accesses stop at the checks and go on past them lane by lane, the register forms give each lane its end, and where all
lanes are bad nothing is done but their faults. -/
theorem accessFaults : Obligations.AccessFaults := by
  refine ⟨fun _ _ _ _ _ => (loadLanes_of_loadFrom fun _ => rfl).runs_among, fun _ _ _ _ => (loadLanes_of_loadFrom fun _ => rfl).runs_among,
    fun _ _ _ _ _ => (stepLanes_of_storeTo fun _ => rfl).runs_among, fun _ _ _ _ => (stepLanes_of_storeTo fun _ => rfl).runs_among,
    fun d a b op wide j hj => (loadLanes_of_atomic (atomTable_runs d a b _ hj)).runs_among,
    fun a b code j hj => (stepLanes_of_reduction (redTable_runs a b _ hj)).runs_among,
    fun _ _ _ _ => (loadLanes_scrLd _ _ _ _).runs_among, fun _ _ _ _ => (stepLanes_scrSt _ _ _ _).runs_among,
    fun _ _ _ _ => (stepLanes_of_asyncCopy fun _ => rfl).runs_among, fun _ _ _ _ => (stepLanes_of_asyncCopy fun _ => rfl).runs_among,
    fun _ _ _ => (stepLanes_binit _ _ _).runs_among, fun _ _ _ => (stepLanes_arrive _ _ _).runs_among,
    fun _ _ _ => (stepLanes_arriveb _ _ _).runs_among, fun _ _ => (stepLanes_expect _ _).runs_among,
    fun _ _ _ => (stepLanes_bwait _ _ _).runs_among, fun _ _ _ => (stepLanes_btest _ _ _).runs_among,
    runs_jr, runs_mset, runs_cnarrow, runs_cperm, runs_cmint, ?_, ?_, ?_, ?_, faults_jr, faults_mset, faults_wbase, faults_cnarrow⟩
  · exact fun _ _ _ _ _ => (stepLanes_of_storeTo fun _ => rfl).faults barred_of_misaligned
  · exact fun _ _ _ _ => (stepLanes_of_storeTo fun _ => rfl).faults barred_of_misaligned
  · exact fun _ _ _ _ _ => (stepLanes_of_storeTo fun _ => rfl).faults barred_of_capability
  · exact fun _ _ _ _ => (stepLanes_of_storeTo fun _ => rfl).faults barred_of_capability

end Sys2Proof.Claims
end

