-- ==== Sys2Proof/Proofs/TileMoves.lean ====
section
/-! Tile shape, load, store, clear and move (05 R144 to R148) lane by lane. -/

namespace Sys2Proof.Claims

open Sys2Proof Machine

/-! ## Tile instructions lane by lane -/

/-- A tile instruction whose lanes do what `h` says (05 R138, R146). -/
theorem runs_onTile {j : Instr} {roles : Role → Bool} {srcs : List (Reg × Nat)} {h : Iss → State → Nat → Option State}
    (hrow : ∃ body : Iss → State → Nat → Except Bad (State × LaneOut), (∀ s, exec j s = tileOp roles srcs body s) ∧
      ∀ i s l s1, h i s l = some s1 → body i s l = .ok (s1, .only l .next)) : Runs j (tForm roles srcs none .table) (onTile h) := by
  obtain ⟨body, hj, hbody⟩ := hrow
  refine runs_of ⟨_, hj, fun i s s1 outs he => each_eq (fun s l s1 o hl => ?_) he⟩
  split at hl
  · cases hl
  · rename_i hrel
    rw [if_neg hrel]
    obtain ⟨s2, hs, ho⟩ := Option.map_eq_some_iff.mp hl
    rw [hbody i s l s2 hs]
    exact ho

/-- A tile with a shape: what the rest of the lane does with it. -/
theorem of_onNamed {s s1 : State} {i : Iss} {d : Sys2Proof.Tile} {f : Machine.Tile → Option State} (h : onNamed s i d f = some s1) :
    ∃ t, (s.team i.op.team).tileOf d.toNat = .ok t ∧ f t = some s1 := by
  unfold onNamed at h
  split at h
  · rename_i t ht
    exact ⟨t, ht, h⟩
  · cases h

/-- One lane of TSHAPE. -/
def shapeLane (d : Sys2Proof.Tile) (a b : Reg) (i : Iss) (s : State) (l : Nat) : State × LaneOut :=
  let w := i.view.reg a l
  let off := (i.view.reg b l).toNat
  let k := d.toNat
  if !shapeOk w then (s, .fault l cTileShape k)
  else if off % 128 ≠ 0 then (s, .fault l cMisaligned off)
  else if !(s.team i.op.team).mxsIn off (tileBytes w) then (s, .fault l cTileStorage k)
  else
    let t : Machine.Tile := { num := k, shape := w, off := off }
    ((s.modEng i.op.team fun e => { e with tiles := e.tiles.mapIdx fun j x => if j = k then some t else x }).clearTileFlags i.op.team t,
      .only l .next)

theorem exec_tshape (d : Sys2Proof.Tile) (a b : Reg) (s : State) :
    exec (.tshape d a b) s = issue (tForm rolesAll [(a, 1), (b, 1)] none .table) (eachLane (shapeLane d a b)) s := by
  show execTshape d a b s = _
  delta execTshape
  exact rfl

theorem runs_tshape (d : Sys2Proof.Tile) (a b : Reg) : Runs (.tshape d a b) (tForm rolesAll [(a, 1), (b, 1)] none .table) (each fun i s l =>
      let w := i.view.reg a l
      let off := (i.view.reg b l).toNat
      let t : Machine.Tile := { num := d.toNat, shape := w, off := off }
      if shapeOk w && decide (off % 128 = 0) && (s.team i.op.team).mxsIn off (tileBytes w) then
        some ((s.modEng i.op.team fun e => { e with tiles := e.tiles.mapIdx fun j x => if j = d.toNat then some t else x }).clearTileFlags
          i.op.team t, .only l .next)
      else none) := by
  refine runs_of ⟨_, exec_tshape d a b, fun i s s1 outs he => each_eq (fun s l s1 o hl => ?_) he⟩
  obtain ⟨hok, hdone⟩ := Option.ite_none_right_eq_some.mp hl
  rw [Bool.and_eq_true, Bool.and_eq_true, decide_eq_true_eq] at hok
  obtain ⟨⟨hshape, halign⟩, hin⟩ := hok
  unfold shapeLane
  dsimp only
  rw [hshape, hin, if_neg (by decide), if_neg (not_not.mpr halign), if_neg (by decide)]
  exact Option.some.inj hdone

theorem runs_tld (d : Sys2Proof.Tile) (a b : Reg) : Runs (.tld d a b) (tForm rolesAll [(a, 1), (b, 1)] none .table) (onTile fun i s l =>
      onNamed s i d fun t =>
        let rows := tileRows t (i.view.reg a l).toNat (i.view.reg b l).toInt
        if moveCheck (s.team i.op.team) (i.view.reg a l) (i.view.reg b l) rows = none ∧ (s.team i.op.team).loadBad rows = none then
          some ((s.tileLoad i.op.team t true [] rows).tileNote i l t) else none) := by
  refine runs_onTile ⟨_, fun s => by show execTld d a b s = _; delta execTld; exact rfl, fun i s l s1 h => ?_⟩
  obtain ⟨t, ht, hf⟩ := of_onNamed h
  obtain ⟨⟨hmove, hbad⟩, hdone⟩ := Option.ite_none_right_eq_some.mp hf
  rw [ht]
  dsimp only [bind, Except.bind]
  rw [hmove, hbad, ← Option.some.inj hdone]
  rfl

theorem runs_tst (d : Sys2Proof.Tile) (a b : Reg) : Runs (.tst d a b) (tForm rolesAll [(a, 1), (b, 1)] none .table) (onTile fun i s l =>
      onNamed s i d fun t =>
        let rows := tileRows t (i.view.reg a l).toNat (i.view.reg b l).toInt
        if moveCheck (s.team i.op.team) (i.view.reg a l) (i.view.reg b l) rows = none ∧ (s.team i.op.team).readBad t = none then
          some ((rows.mapIdx fun k x => (k, x)).foldl (fun (st : State) (x : Nat × Int × Nat) =>
            let r := st.tileRead i.op.team t true [] (t.off + x.1 * rowSize t.shape) x.2.2
            (r.1.scrWrite i.op.team x.2.1.toNat (rowKept t.shape [0] r.2) false).noteWrite i.op.team i.op.grp l true x.2.1.toNat x.2.2) s)
        else none) := by
  refine runs_onTile ⟨_, fun s => by show execTst d a b s = _; delta execTst; exact rfl, fun i s l s1 h => ?_⟩
  obtain ⟨t, ht, hf⟩ := of_onNamed h
  obtain ⟨⟨hmove, hbad⟩, hdone⟩ := Option.ite_none_right_eq_some.mp hf
  rw [ht]
  dsimp only [bind, Except.bind]
  rw [hmove, hbad, ← Option.some.inj hdone]
  rfl

theorem runs_tldt (d : Sys2Proof.Tile) (a b : Reg) : Runs (.tldt d a b) (tForm rolesAll [(a, 1), (b, 1)] none .table) (onTile fun i s l =>
      onNamed s i d fun t =>
        let es := elemBits (shapeFmt t.shape) / 8
        let cols := (List.range (shapeCols t.shape)).map fun (c : Nat) =>
          (((i.view.reg a l).toNat : Int) + c * (i.view.reg b l).toInt, shapeRows t.shape * es)
        if shapeFmt t.shape < 6 ∧ moveCheck (s.team i.op.team) (i.view.reg a l) (i.view.reg b l) cols = none ∧
            (s.team i.op.team).loadBad cols = none then
          some (((((cols.mapIdx fun c x => (c, x)).foldl (fun (st : State) (x : Nat × Int × Nat) =>
            let r := st.scrRead i.op.team x.2.1.toNat x.2.2
            (List.range (shapeRows t.shape)).foldl (fun (u : State) (k : Nat) =>
              u.elemWrite i.op.team t true k x.1 (natOf ((r.2.drop (k * es)).take es))) r.1) s).tileRecode i.op.team t).clearTileFlags
                i.op.team t).tileNote i l t)
        else none) := by
  refine runs_onTile ⟨_, fun s => by show execTldt d a b s = _; delta execTldt; exact rfl, fun i s l s1 h => ?_⟩
  obtain ⟨t, ht, hf⟩ := of_onNamed h
  obtain ⟨⟨hfmt, hmove, hbad⟩, hdone⟩ := Option.ite_none_right_eq_some.mp hf
  rw [ht]
  dsimp only [bind, Except.bind]
  rw [if_neg (Nat.not_le.mpr hfmt), hmove, hbad, ← Option.some.inj hdone]
  rfl

theorem runs_tzero (d : Sys2Proof.Tile) : Runs (.tzero d) (tForm rolesFloat [] none .table) (onTile fun i s l =>
      onNamed s i d fun t =>
        some ((((List.range (shapeRows t.shape)).foldl (fun (st : State) (k : Nat) =>
          st.rowWrite i.op.team t true k (bytesOf (rowBytes t.shape) 0)) s).clearTileFlags i.op.team t).tileNoteSame i l t)) := by
  refine runs_onTile ⟨_, fun s => by show execTzero d s = _; delta execTzero; exact rfl, fun i s l s1 h => ?_⟩
  obtain ⟨t, ht, hdone⟩ := of_onNamed h
  rw [ht, ← Option.some.inj hdone]
  rfl

theorem runs_tmov (d a : Sys2Proof.Tile) : Runs (.tmov d a) (tForm rolesFloat [] none .table) (onTile fun i s l =>
      onNamed s i d fun td => onNamed s i a fun ta =>
        if td.shape.extractLsb' 0 20 ≠ ta.shape.extractLsb' 0 20 then none
        else if d = a then some s
        else if (s.team i.op.team).readBad ta ≠ none then none
        else
          let r := s.tileRead i.op.team ta true [] ta.off (tileBytes ta.shape)
          let s2 := (List.range (shapeRows ta.shape)).foldl (fun (st : State) (k : Nat) =>
            st.rowWrite i.op.team td true k ((r.2.drop (k * rowSize ta.shape)).take (rowBytes ta.shape))) r.1
          some ((if hasFlags ta.shape then
            (List.range (shapeRows ta.shape)).foldl (fun (st : State) (k : Nat) =>
              (List.range (shapeCols ta.shape)).foldl (fun (u : State) (c : Nat) => u.modPool i.op.team fun p =>
                p.setFlag (td.halfword k c) ((r.1.team i.op.team).pool.flags.contains (ta.halfword k c))) st) s2
            else s2).tileNoteSame i l td)) := by
  refine runs_onTile ⟨_, fun s => by show execTmov d a s = _; delta execTmov; exact rfl, fun i s l s1 h => ?_⟩
  obtain ⟨td, htd, hd⟩ := of_onNamed h
  obtain ⟨ta, hta, hf⟩ := of_onNamed hd
  dsimp only at hf ⊢
  rw [htd, hta]
  dsimp only
  split at hf
  · cases hf
  · rename_i hshape
    rw [if_neg hshape]
    split at hf
    · rename_i hsame
      rw [if_pos hsame, Option.some.inj hf]
    · rename_i hsame
      rw [if_neg hsame]
      obtain ⟨hgood, hdone⟩ := Option.ite_none_left_eq_some.mp hf
      rw [not_not.mp hgood, ← Option.some.inj hdone]

/-- Settles O48: each form issues lanes that find their tile, pass its checks and do what the claim says. -/
theorem tileCompletes : Obligations.TileCompletes := ⟨runs_tshape, runs_tld, runs_tldt, runs_tst, runs_tzero, runs_tmov⟩

end Sys2Proof.Claims
end

