-- ==== Sys2Proof/Proofs/Landings.lean ====
section
/-! Events that land at a core and what lines and translations do by themselves (01 R37, 06 R172, 07 R224, 18 R392 to R402). -/

namespace Sys2Proof.Claims

open Sys2Proof Machine

theorem next_of_some {a b : State} (h : some a = some b) : (.next a : Out) = .next b := by
  rw [Option.some.inj h]

/-! ## What lands at a core -/

theorem brings_loadLanding (k : Nat) (lanes : LaneMask) : Brings (.evLoadLanding k lanes) fun s => match s.loads[k]? with
    | none => none
    | some d =>
      if s.loadOpen d then none else
      let rest := d.lanes.filter fun x => !lanes.getLsbD x.lane
      let s1 := s.modTeam d.team fun t => (d.land (d.lanes.filter fun x => lanes.getLsbD x.lane) t).feed s.tick
      some { s1 with loads := if rest.isEmpty then s1.loads.eraseIdx k else modAt (fun (x : Load) => { x with lanes := rest }) s1.loads k } := by
  intro s s' h
  show execEvLoadLanding k lanes s = _
  unfold execEvLoadLanding
  dsimp only at h
  generalize s.loads[k]? = x at h ⊢
  cases x with
  | none => cases h
  | some d =>
    dsimp only at h ⊢
    split at h
    · cases h
    · rename_i hopen
      rw [if_neg hopen]
      exact next_of_some h

theorem brings_sleepExpiry (tm g l : Nat) : Brings (.evSleepExpiry tm g l) fun s => match s.teams[tm]? with
    | none => none
    | some t => match (t.groups[g]?).bind (·.threads[l]?) with
      | none => none
      | some th =>
        let due := match th.wait with
          | some (.sleep d) => decide (d ≤ s.sleepClock t)
          | _ => t.watched
        if !due then none
        else if t.watched then some (s.modTeam tm Team.queue)
        else if t.issues && th.eligible then
          some ((s.modThread tm g l fun x => { x.moveTo (x.pc + 4) with fbuf := x.fbuf, age := if x.stirred then x.age else s.tick }).modGroup
            tm g (Machine.Group.release s.tick))
        else none := by
  intro s s' h
  show execEvSleepExpiry tm g l s = _
  unfold execEvSleepExpiry
  dsimp only at h
  generalize s.teams[tm]? = x at h ⊢
  cases x with
  | none => cases h
  | some t =>
    dsimp only at h ⊢
    generalize (t.groups[g]?).bind (·.threads[l]?) = y at h ⊢
    cases y with
    | none => cases h
    | some th =>
      dsimp only at h ⊢
      split
      · rename_i d hwait
        rw [hwait] at h
        dsimp only at h
        by_cases hdue : d ≤ s.sleepClock t
        · rw [if_neg (Nat.not_lt.mpr hdue)]
          simp only [hdue, decide_true, Bool.not_true, Bool.false_eq_true, if_false] at h
          split at h
          · rename_i hw
            rw [if_pos hw]
            exact next_of_some h
          · rename_i hw
            rw [if_neg hw]
            split at h
            · rename_i hgo
              rw [if_pos hgo]
              exact next_of_some h
            · cases h
        · simp [hdue] at h
      · rename_i hwait
        have hdue : (match th.wait with
          | some (.sleep d) => decide (d ≤ s.sleepClock t)
          | _ => t.watched) = t.watched := by
          split
          · rename_i d hd
            exact absurd hd (hwait d)
          · rfl
        cases hw : t.watched <;> simp_all

theorem brings_acpPartLanding (k n : Nat) : Brings (.evAcpPartLanding k n) fun s => match s.copies[k]? with
    | none => none
    | some c =>
      if s.objectWaits c.barrier c.barPa || c.link || (c.toScr && s.relocating c.team) || (!c.toScr && !c.performed && s.changingPa c.pa) then none
      else some (match c.bad with
        | some cause => s.partBad k c cause
        | none => s.partGood k n c) := by
  intro s s' h
  show execEvAcpPartLanding k n s = _
  unfold execEvAcpPartLanding
  dsimp only at h
  generalize s.copies[k]? = x at h ⊢
  cases x with
  | none => cases h
  | some c =>
    dsimp only at h ⊢
    split at h
    · cases h
    · rename_i hfree
      simp only [Bool.or_eq_true, not_or, Bool.not_eq_true] at hfree
      obtain ⟨⟨⟨hobj, hlink⟩, hrel⟩, hchg⟩ := hfree
      have hgo : (s.objectWaits c.barrier c.barPa || (c.toScr && s.relocating c.team) ||
          (!c.toScr && !c.link && !c.performed && s.changingPa c.pa)) = false := by
        rw [hobj, hrel, hlink, Bool.not_false, Bool.and_true, hchg]; rfl
      rw [hgo, hlink]
      cases hbad : c.bad with
      | none => rw [hbad] at h; exact next_of_some h
      | some cause => rw [hbad] at h; exact next_of_some h

theorem brings_fredInMemory (k : Nat) : Brings (.evFredInMemory k) fun s => match s.mem.freds[k]? with
    | none => none
    | some f => if s.channelBusy true f.pa then none else some ((s.setMem { s.mem with freds := s.mem.freds.eraseIdx k }).fredPerform f) := by
  intro s s' h
  show execEvFredInMemory k s = _
  unfold execEvFredInMemory
  dsimp only at h
  generalize s.mem.freds[k]? = x at h ⊢
  cases x with
  | none => cases h
  | some f =>
    dsimp only at h ⊢
    split at h
    · cases h
    · rename_i hbusy
      rw [if_neg hbusy]
      exact next_of_some h

/-! ## What lines and translations do by themselves -/

/-- An event that does nothing where the claim says nothing, and what the claim says elsewhere. -/
theorem brings_of_unless {e : Instr} {c : State → Bool} {f : State → State} (h : ∀ s, exec e s = .next (if c s then s else f s)) :
    Brings e fun s => if c s then none else some (f s) := by
  intro s s' hs
  rw [h]
  dsimp only at hs
  split at hs
  · cases hs
  · rename_i hc
    rw [if_neg hc]
    exact next_of_some hs

theorem brings_of_next {e : Instr} {f : State → State} (h : ∀ s, exec e s = .next (f s)) : Brings e fun s => some (f s) := by
  intro s s' hs
  rw [h]
  exact next_of_some hs

theorem brings_combine (ctx va : Nat) : Brings (.evSliceAccess (.combine ctx va)) fun s => match s.translate ctx va with
    | (s1, .ok e) => if s1.physWaits true (e.pa va) 1 then none else some (s1.combineLine (e.pa va))
    | _ => none := by
  intro s s' h
  show execEvSliceAccess (.combine ctx va) s = _
  unfold execEvSliceAccess
  dsimp only at h ⊢
  generalize s.translate ctx va = x at h ⊢
  obtain ⟨s1, r⟩ := x
  cases r with
  | ok e =>
    dsimp only at h ⊢
    split at h
    · cases h
    · rename_i hwait
      rw [if_neg hwait]
      exact next_of_some h
  | _ => cases h

/-- Settles O55: each event, in the case that its claim names, is the branch of its meaning that brings that state. -/
theorem landingHappens : Obligations.LandingHappens :=
  ⟨brings_loadLanding, brings_sleepExpiry, brings_acpPartLanding, brings_fredInMemory,
    fun _ => brings_of_unless fun _ => rfl, fun _ => brings_of_unless fun _ => rfl, fun _ _ => brings_of_next fun _ => rfl,
    brings_combine, fun _ _ _ _ _ => brings_of_next fun _ => rfl, fun _ _ _ => brings_of_next fun _ => rfl,
    fun _ _ _ => brings_of_next fun _ => rfl, fun _ _ => brings_of_next fun _ => rfl⟩

end Sys2Proof.Claims
end

