-- ==== Sys2Proof/Proofs/RegisterRows.lean ====
section
/-! Rows of register instructions (03 R73 to R90): what the tag rule of a row asks of its results (01 R34), for results that are the same in every
lane, that come from the sources alone, or that have an A shape. -/

namespace Sys2Proof.Machine
open Sys2Proof

theorem wordsOf_length (n v : Nat) : (wordsOf n v).length = n := by
  induction n generalizing v with
  | zero => rfl
  | succ n ih => rw [wordsOf, List.length_cons, ih]

/-- A pair or quad that is U is one number in every lane. -/
theorem num_of_u {w : View} {r : Reg} {n : Nat} (h : w.cls (r, n) = .u) (l k : Nat) :
    natOfWords (w.words r n l) = natOfWords (w.words r n k) := by rw [words_of_u h l k]

theorem pair_of_u {w : View} {r : Reg} (h : w.cls (r, 2) = .u) (l k : Nat) : w.pair r l = w.pair r k := num_of_u h l k

theorem quad_of_u {w : View} {r : Reg} (h : w.cls (r, 4) = .u) (l k : Nat) : w.quad r l = w.quad r k := num_of_u h l k

/-- The rules that give an A shape for some sources and are the table for the others (01 R34). -/
def TagRule.tabled : TagRule → Bool
  | .u | .g | .same | .like _ => false
  | _ => true

theorem resTag_of_tabled {rule : TagRule} (h : rule.tabled = true) (w : View) (srcs : List (Reg × Nat)) :
    w.resTag rule srcs = (w.affine rule).elim (w.resTag .table srcs) .a := by
  cases rule with
  | u | g | same | like _ => cases h
  | table | add | sub | mul | sll | mov | addi | slli =>
    simp only [View.resTag]
    cases View.affine w _ <;> rfl

/-- Such a rule asks for the A shape where it gives one, and else for equal results of U sources. -/
theorem soundTag_of_tabled {w : View} {rule : TagRule} {srcs : List (Reg × Nat)} {n : Nat} {ls : List Nat} {h : Nat → LaneOut}
    (hr : rule.tabled = true) (ha : ∀ v, w.affine rule = some v → n = 1 ∧ ∀ l, (h l).vals = [v.at l])
    (hu : (∀ x ∈ srcs, w.cls x = .u) → ∀ l k, (h l).vals = (h k).vals) : soundTag (w.resTag rule srcs) n ls h := by
  rw [resTag_of_tabled hr]
  cases haff : w.affine rule with
  | none => exact soundTag_table fun hx l _ k _ => hu hx l k
  | some v =>
    obtain ⟨hn, hv⟩ := ha v haff
    exact ⟨hn, fun l _ => hv l⟩

end Sys2Proof.Machine

namespace Sys2Proof.Claims
open Sys2Proof Machine

section
variable {j : Instr} {f : Form} {d : Reg} {n : Nat} {vals : Iss → State → Nat → List Word}

/-- A row that writes words: their number is that of the destination, and the tag of the row allows them. -/
theorem delivers_write (hj : ∀ s, exec j s = issue f (fun i s => (s, i.lanes.map fun l => .write l (vals i s l))) s)
    (hd : f.dst = some (d, n)) (hn : ∀ i s l, (vals i s l).length = n)
    (hs : ∀ (i : Iss) s ls, soundTag (i.view.resTag f.rule f.srcs) n ls fun l => .write l (vals i s l)) :
    Delivers j (f, fun i s l => .write l (vals i s l)) := by
  refine delivers_of hj (fun _ _ _ => rfl) (fun _ _ _ => rfl) (fun i s l => ?_) fun s op t g _ _ => ?_
  · rw [hd]; exact hn i s l
  · rw [hd]; exact hs _ s _

/-- A row whose result is G (R34). -/
theorem delivers_g (hj : ∀ s, exec j s = issue f (fun i s => (s, i.lanes.map fun l => .write l (vals i s l))) s)
    (hd : f.dst = some (d, n)) (hr : f.rule = .g) (hn : ∀ i s l, (vals i s l).length = n) :
    Delivers j (f, fun i s l => .write l (vals i s l)) :=
  delivers_write hj hd hn fun _ _ _ => by rw [hr]; trivial

/-- A row whose result is U: one value for every lane. -/
theorem delivers_u {val : Iss → State → List Word} (hj : ∀ s, exec j s = issue f (fun i s => (s, i.lanes.map fun l => .write l (val i s))) s)
    (hd : f.dst = some (d, n)) (hr : f.rule = .u) (hn : ∀ i s, (val i s).length = n) : Delivers j (f, fun i s l => .write l (val i s)) :=
  delivers_write hj hd (fun i s _ => hn i s) fun _ _ _ => by rw [hr]; exact fun _ _ _ _ => rfl

/-- A row with the tag of the table: its values come from the sources alone. -/
theorem delivers_table (hj : ∀ s, exec j s = issue f (fun i s => (s, i.lanes.map fun l => .write l (vals i s l))) s)
    (hd : f.dst = some (d, n)) (hr : f.rule = .table) (hn : ∀ i s l, (vals i s l).length = n)
    (hu : ∀ i s, (∀ x ∈ f.srcs, i.view.cls x = .u) → ∀ l k, vals i s l = vals i s k) : Delivers j (f, fun i s l => .write l (vals i s l)) :=
  delivers_write hj hd hn fun i s _ => by rw [hr]; exact soundTag_table fun hx l _ k _ => hu i s hx l k

end

section
variable {j : Instr} {d a b : Reg}

/-- A row d := f(a, b), under a rule that may give an A shape. -/
theorem delivers_two {rule : TagRule} {f : Word → Word → Word} (hj : ∀ s, exec j s = alu rule d a b f s) (hr : rule.tabled = true)
    (ha : ∀ (w : View) v, w.affine rule = some v → ∀ l, v.at l = f (w.reg a l) (w.reg b l)) : Delivers j (two rule d a b f) := by
  refine delivers_write hj rfl (fun _ _ _ => rfl) fun i s ls =>
    soundTag_of_tabled hr (fun v hv => ⟨rfl, fun l => by rw [ha _ v hv l]; rfl⟩) fun hu l m => ?_
  have hua : i.view.cls (a, 1) = .u := hu _ (by simp [Form.plain])
  have hub : i.view.cls (b, 1) = .u := hu _ (by simp [Form.plain])
  simp only [LaneOut.write, reg_of_u hua l m, reg_of_u hub l m]

theorem delivers_two_table {f : Word → Word → Word} (hj : ∀ s, exec j s = alu .table d a b f s) : Delivers j (two .table d a b f) :=
  delivers_two hj rfl fun _ _ h => nomatch h

/-- The same of an instruction whose function is written otherwise. -/
theorem delivers_two_of_eq {k f : Word → Word → Word} (hk : ∀ x y, k x y = f x y) (hj : ∀ s, exec j s = alu .table d a b k s) :
    Delivers j (two .table d a b f) := by
  obtain rfl : k = f := funext₂ hk
  exact delivers_two_table hj

/-- A row d := f(a), under a rule that may give an A shape. -/
theorem delivers_one {rule : TagRule} {f : Word → Word} (hj : ∀ s, exec j s = alu1 rule d a f s) (hr : rule.tabled = true)
    (ha : ∀ (w : View) v, w.affine rule = some v → ∀ l, v.at l = f (w.reg a l)) : Delivers j (one rule d a f) := by
  refine delivers_write hj rfl (fun _ _ _ => rfl) fun i s ls =>
    soundTag_of_tabled hr (fun v hv => ⟨rfl, fun l => by rw [ha _ v hv l]; rfl⟩) fun hu l m => ?_
  have hua : i.view.cls (a, 1) = .u := hu _ (by simp [Form.plain])
  simp only [LaneOut.write, reg_of_u hua l m]

theorem delivers_one_table {f : Word → Word} (hj : ∀ s, exec j s = alu1 .table d a f s) : Delivers j (one .table d a f) :=
  delivers_one hj rfl fun _ _ h => nomatch h

theorem delivers_one_of_eq {k f : Word → Word} (hk : ∀ x, k x = f x) (hj : ∀ s, exec j s = alu1 .table d a k s) :
    Delivers j (one .table d a f) := by
  obtain rfl : k = f := funext hk
  exact delivers_one_table hj

/-- A row over pairs and registers as numbers (R85). -/
theorem delivers_wide {nd na nb : Nat} {f : Nat → Nat → Nat} (hj : ∀ s, exec j s = alu64 d a b nd na nb f s) :
    Delivers j (wide d a b nd na nb f) := by
  refine delivers_table hj rfl rfl (fun _ _ _ => wordsOf_length _ _) fun i s hu l m => ?_
  have hua : i.view.cls (a, na) = .u := hu _ (by simp [Form.plain])
  have hub : i.view.cls (b, nb) = .u := hu _ (by simp [Form.plain])
  simp only [Iss.num, words_of_u hua l m, words_of_u hub l m]

end

/-! ## Words of the RRR and RI formats (01 R21) -/

theorem encode_of_wordOf {j : Instr} {major : Nat} {d a b : Reg} {fn : Nat}
    (h : encode j = some (major * 2 ^ 26 + fn + putField 19 d + putField 12 a + putField 5 b)) : encode j = some (wordOf major d a b fn) := by
  rw [h, wordOf, putField, putField, putField, Option.some.injEq]
  omega

/-- A word of one source has b zero (02). -/
theorem encode_of_wordOf_zero {j : Instr} {major : Nat} {d a : Reg} {fn : Nat}
    (h : encode j = some (major * 2 ^ 26 + fn + putField 19 d + putField 12 a)) : encode j = some (wordOf major d a 0 fn) :=
  encode_of_wordOf (h.trans (by simp [putField]))

theorem encode_of_wordOfRi {j : Instr} {major fn n : Nat} {d a : Reg} {imm : BitVec n}
    (h : encode j = some (major * 2 ^ 26 + fn + putField 19 d + putField 12 a + putField 0 imm)) :
    encode j = some (wordOfRi major d a (fn + imm.toNat)) := by
  rw [h, wordOfRi, putField, putField, putField, Option.some.injEq]
  omega

/-- A word whose immediate fills the low 12 bits. -/
theorem encode_of_wordOfRi_imm {j : Instr} {major n : Nat} {d a : Reg} {imm : BitVec n}
    (h : encode j = some (major * 2 ^ 26 + putField 19 d + putField 12 a + putField 0 imm)) :
    encode j = some (wordOfRi major d a imm.toNat) := by
  rw [← Nat.zero_add imm.toNat]
  exact encode_of_wordOfRi (h.trans (by rw [Nat.add_zero]))

end Sys2Proof.Claims
end

