-- ==== Sys2Proof/Proofs/IntegerRows.lean ====
section
/-! The functions of IOP, RI, IOP64 and IUN (03 R81, R82, R85, R86): where the model computes a result otherwise than its row writes it, the two
are equal. -/

namespace Sys2Proof.Machine
open Sys2Proof

/-! ## Functions of two words (R81) -/

theorem maxS_eq (x y : Word) : (if x.toInt ≥ y.toInt then x else y) = if x.toInt ≤ y.toInt then y else x := by
  rcases Int.lt_trichotomy x.toInt y.toInt with h | h | h
  · rw [if_neg (by omega), if_pos (by omega)]
  · rw [if_pos (by omega), if_pos (by omega), BitVec.toInt_inj.mp h]
  · rw [if_pos (by omega), if_neg (by omega)]

theorem maxU_eq (x y : Word) : (if x.toNat ≥ y.toNat then x else y) = if x.toNat ≤ y.toNat then y else x := by
  rcases Nat.lt_trichotomy x.toNat y.toNat with h | h | h
  · rw [if_neg (by omega), if_pos (by omega)]
  · rw [if_pos (by omega), if_pos (by omega), BitVec.toNat_inj.mp h]
  · rw [if_pos (by omega), if_neg (by omega)]

theorem clamp32_eq (v : Int) : clamp32 v = BitVec.ofInt 32 (max (-2 ^ 31) (min (2 ^ 31 - 1) v)) := by
  rw [clamp32]
  congr 1
  omega

theorem divS_eq (x y : Word) : divS x y = if y = 0 then 0xffffffff else BitVec.ofInt 32 (x.toInt.tdiv y.toInt) := rfl

theorem divU_eq (x y : Word) : divU x y = if y = 0 then 0xffffffff else BitVec.ofNat 32 (x.toNat / y.toNat) := rfl

theorem remS_eq (x y : Word) : remS x y = if y = 0 then x else BitVec.ofInt 32 (x.toInt - y.toInt * x.toInt.tdiv y.toInt) := by
  rw [remS, Int.tmod_def]

theorem remU_eq (x y : Word) : remU x y = if y = 0 then x else BitVec.ofNat 32 (x.toNat - y.toNat * (x.toNat / y.toNat)) := by
  rw [remU, Nat.mod_eq_sub_mul_div]

theorem truth_beq (x y : Word) : truth (x == y) = if x = y then 1 else 0 := by
  simp only [truth, beq_iff_eq]

theorem truth_bne (x y : Word) : truth (x != y) = if x ≠ y then 1 else 0 := by
  simp only [truth, bne_iff_ne]

theorem truth_decide (p : Prop) [Decidable p] : truth (decide p) = if p then 1 else 0 := by
  simp only [truth, decide_eq_true_eq]

/-! ## Functions of one word (R86) -/

theorem clzFrom_eq (x : Word) : ∀ n ≤ 32, clzFrom x n = (((List.range' (32 - n) n).find? fun k => x.getLsbD (31 - k)).getD 32)
  | 0, _ => rfl
  | n + 1, h => by
    rw [clzFrom, clzFrom_eq x n (by omega), List.range'_succ, List.find?_cons, show 31 - (32 - (n + 1)) = n by omega,
      show 32 - (n + 1) + 1 = 32 - n by omega]
    cases x.getLsbD n with
    | true => simp only [if_true, Option.getD_some]; omega
    | false => rfl

theorem ctzFrom_eq (x : Word) : ∀ n i, ctzFrom x n i = (((List.range' i n).find? fun k => x.getLsbD k).getD 32)
  | 0, _ => rfl
  | n + 1, i => by
    rw [ctzFrom, ctzFrom_eq x n (i + 1), List.range'_succ, List.find?_cons]
    cases x.getLsbD i <;> rfl

theorem popcFrom_eq (x : Word) : ∀ n, popcFrom x n = ((List.range n).filter fun k => x.getLsbD k).length
  | 0 => rfl
  | n + 1 => by
    rw [popcFrom, popcFrom_eq x n, List.range_succ, List.filter_append, List.length_append, Nat.add_comm]
    cases h : x.getLsbD n <;> simp [h]

theorem toNat_append_add {n m : Nat} (x : BitVec n) (y : BitVec m) : (x ++ y).toNat = x.toNat * 2 ^ m + y.toNat := by
  rw [BitVec.toNat_append, ← Nat.shiftLeft_add_eq_or_of_lt y.isLt, Nat.shiftLeft_eq]

theorem clz_eq (x : Word) : BitVec.ofNat 32 (clzFrom x 32) = BitVec.ofNat 32 (((List.range 32).find? fun k => x.getLsbD (31 - k)).getD 32) := by
  rw [clzFrom_eq x 32 (Nat.le_refl _), List.range_eq_range']

theorem ctz_eq (x : Word) : BitVec.ofNat 32 (ctzFrom x 32 0) = BitVec.ofNat 32 (((List.range 32).find? fun k => x.getLsbD k).getD 32) := by
  rw [ctzFrom_eq, List.range_eq_range']

theorem popc_eq (x : Word) : BitVec.ofNat 32 (popcFrom x 32) = BitVec.ofNat 32 ((List.range 32).filter fun k => x.getLsbD k).length := by
  rw [popcFrom_eq]

theorem byteSwap_eq (x : Word) :
    byteSwap x = x.extractLsb' 0 8 ++ x.extractLsb' 8 8 ++ x.extractLsb' 16 8 ++ x.extractLsb' 24 8 := by
  apply BitVec.eq_of_toNat_eq
  simp only [toNat_append_add, BitVec.extractLsb'_toNat, Nat.shiftRight_eq_div_pow, byteSwap, bytesOf, natOf, List.reverse_cons,
    List.reverse_nil, List.nil_append, List.cons_append, BitVec.toNat_ofNat, Nat.div_div_eq_div_mul, Nat.reducePow, Nat.reduceMul, Nat.div_one]
  omega

theorem abs_eq (x : Word) : (if x.msb then -x else x) = BitVec.ofNat 32 x.toInt.natAbs := by
  apply BitVec.eq_of_toNat_eq
  rw [← BitVec.abs_eq, BitVec.toNat_abs, BitVec.toNat_ofNat, BitVec.toInt_eq_msb_cond]
  have hx := x.isLt
  cases hm : x.msb with
  | true =>
    have hneg := BitVec.msb_eq_true_iff_two_mul_ge.mp hm
    simp only [if_true]
    omega
  | false =>
    simp only [Bool.false_eq_true, if_false]
    omega

theorem neg_eq (x : Word) : -x = 0 - x := by simp

end Sys2Proof.Machine

namespace Sys2Proof.Claims
open Sys2Proof Machine

/-- Settles O30: each word is that of its function, and each row is delivered by `alu` with the function of the table. -/
theorem iopDelivers : Obligations.IopDelivers :=
  ⟨ -- ADD, SUB, MUL
    fun _ _ _ => ⟨encode_of_wordOf rfl, delivers_two (fun _ => rfl) rfl fun _ _ => affine_add_at⟩,
    fun _ _ _ => ⟨encode_of_wordOf rfl, delivers_two (fun _ => rfl) rfl fun _ _ => affine_sub_at⟩,
    fun _ _ _ => ⟨encode_of_wordOf rfl, delivers_two (fun _ => rfl) rfl fun _ _ => affine_mul_at⟩,
    -- MULH, AND, OR, XOR, ANDN, ORN
    fun _ _ _ => ⟨encode_of_wordOf rfl, delivers_two_table fun _ => rfl⟩,
    fun _ _ _ => ⟨encode_of_wordOf rfl, delivers_two_table fun _ => rfl⟩,
    fun _ _ _ => ⟨encode_of_wordOf rfl, delivers_two_table fun _ => rfl⟩,
    fun _ _ _ => ⟨encode_of_wordOf rfl, delivers_two_table fun _ => rfl⟩,
    fun _ _ _ => ⟨encode_of_wordOf rfl, delivers_two_table fun _ => rfl⟩,
    fun _ _ _ => ⟨encode_of_wordOf rfl, delivers_two_table fun _ => rfl⟩,
    fun _ _ _ => ⟨encode_of_wordOf rfl, delivers_two_table fun _ => rfl⟩,
    -- SLL
    fun _ _ _ => ⟨encode_of_wordOf rfl, delivers_two (fun _ => rfl) rfl fun _ _ => affine_sll_at⟩,
    -- SRL, SRA, ROL, MIN.i32
    fun _ _ _ => ⟨encode_of_wordOf rfl, delivers_two_table fun _ => rfl⟩,
    fun _ _ _ => ⟨encode_of_wordOf rfl, delivers_two_table fun _ => rfl⟩,
    fun _ _ _ => ⟨encode_of_wordOf rfl, delivers_two_table fun _ => rfl⟩,
    fun _ _ _ => ⟨encode_of_wordOf rfl, delivers_two_table fun _ => rfl⟩,
    -- MAX.i32, MIN.n32, MAX.n32
    fun _ _ _ => ⟨encode_of_wordOf rfl, delivers_two_of_eq maxS_eq fun _ => rfl⟩,
    fun _ _ _ => ⟨encode_of_wordOf rfl, delivers_two_table fun _ => rfl⟩,
    fun _ _ _ => ⟨encode_of_wordOf rfl, delivers_two_of_eq maxU_eq fun _ => rfl⟩,
    -- ADDS, SUBS
    fun _ _ _ => ⟨encode_of_wordOf rfl, delivers_two_of_eq (fun _ _ => clamp32_eq _) fun _ => rfl⟩,
    fun _ _ _ => ⟨encode_of_wordOf rfl, delivers_two_of_eq (fun _ _ => clamp32_eq _) fun _ => rfl⟩,
    -- DIV, REM
    fun _ _ _ => ⟨encode_of_wordOf rfl, delivers_two_of_eq divS_eq fun _ => rfl⟩,
    fun _ _ _ => ⟨encode_of_wordOf rfl, delivers_two_of_eq divU_eq fun _ => rfl⟩,
    fun _ _ _ => ⟨encode_of_wordOf rfl, delivers_two_of_eq remS_eq fun _ => rfl⟩,
    fun _ _ _ => ⟨encode_of_wordOf rfl, delivers_two_of_eq remU_eq fun _ => rfl⟩,
    -- CEQ, CNE
    fun _ _ _ => ⟨encode_of_wordOf rfl, delivers_two_of_eq truth_beq fun _ => rfl⟩,
    fun _ _ _ => ⟨encode_of_wordOf rfl, delivers_two_of_eq truth_bne fun _ => rfl⟩,
    -- CLT, CLE
    fun _ _ _ => ⟨encode_of_wordOf rfl, delivers_two_of_eq (fun _ _ => truth_decide _) fun _ => rfl⟩,
    fun _ _ _ => ⟨encode_of_wordOf rfl, delivers_two_of_eq (fun _ _ => truth_decide _) fun _ => rfl⟩,
    fun _ _ _ => ⟨encode_of_wordOf rfl, delivers_two_of_eq (fun _ _ => truth_decide _) fun _ => rfl⟩,
    fun _ _ _ => ⟨encode_of_wordOf rfl, delivers_two_of_eq (fun _ _ => truth_decide _) fun _ => rfl⟩⟩

/-- Settles O31: as O30, with the immediate of the word for b. -/
theorem immediateDelivers : Obligations.ImmediateDelivers :=
  ⟨ -- ADDI, ANDI, ORI, XORI
    fun _ _ _ => ⟨encode_of_wordOfRi_imm rfl, delivers_one (fun _ => rfl) rfl fun _ _ => affine_addi_at⟩,
    fun _ _ _ => ⟨encode_of_wordOfRi_imm rfl, delivers_one_table fun _ => rfl⟩,
    fun _ _ _ => ⟨encode_of_wordOfRi_imm rfl, delivers_one_table fun _ => rfl⟩,
    fun _ _ _ => ⟨encode_of_wordOfRi_imm rfl, delivers_one_table fun _ => rfl⟩,
    -- SLLI, SRLI, SRAI, ROLI
    fun _ _ _ => ⟨encode_of_wordOfRi rfl, delivers_one (fun _ => rfl) rfl fun _ _ => affine_slli_at⟩,
    fun _ _ _ => ⟨encode_of_wordOfRi rfl, delivers_one_table fun _ => rfl⟩,
    fun _ _ _ => ⟨encode_of_wordOfRi rfl, delivers_one_table fun _ => rfl⟩,
    fun _ _ _ => ⟨encode_of_wordOfRi rfl, delivers_one_table fun _ => rfl⟩,
    -- CEQI, CNEI
    fun _ _ _ => ⟨encode_of_wordOfRi rfl, delivers_one_of_eq (truth_beq · _) fun _ => rfl⟩,
    fun _ _ _ => ⟨encode_of_wordOfRi rfl, delivers_one_of_eq (truth_bne · _) fun _ => rfl⟩,
    -- CLTI, CLEI, CGTI
    fun _ _ _ => ⟨encode_of_wordOfRi rfl, delivers_one_of_eq (fun _ => truth_decide _) fun _ => rfl⟩,
    fun _ _ _ => ⟨encode_of_wordOfRi rfl, delivers_one_of_eq (fun _ => truth_decide _) fun _ => rfl⟩,
    fun _ _ _ => ⟨encode_of_wordOfRi rfl, delivers_one_of_eq (fun _ => truth_decide _) fun _ => rfl⟩,
    fun _ _ _ => ⟨encode_of_wordOfRi rfl, delivers_one_of_eq (fun _ => truth_decide _) fun _ => rfl⟩,
    fun _ _ _ => ⟨encode_of_wordOfRi rfl, delivers_one_of_eq (fun _ => truth_decide _) fun _ => rfl⟩,
    fun _ _ _ => ⟨encode_of_wordOfRi rfl, delivers_one_of_eq (fun _ => truth_decide _) fun _ => rfl⟩⟩

/-- Settles O33: as O30, of one source. -/
theorem iunDelivers : Obligations.IunDelivers :=
  ⟨ -- CLZ, CTZ, POPC
    fun _ _ => ⟨encode_of_wordOf_zero rfl, delivers_one_of_eq clz_eq fun _ => rfl⟩,
    fun _ _ => ⟨encode_of_wordOf_zero rfl, delivers_one_of_eq ctz_eq fun _ => rfl⟩,
    fun _ _ => ⟨encode_of_wordOf_zero rfl, delivers_one_of_eq popc_eq fun _ => rfl⟩,
    -- BREV, BSWAP
    fun _ _ => ⟨encode_of_wordOf_zero rfl, delivers_one_table fun _ => rfl⟩,
    fun _ _ => ⟨encode_of_wordOf_zero rfl, delivers_one_of_eq byteSwap_eq fun _ => rfl⟩,
    -- SEXT8, SEXT16
    fun _ _ => ⟨encode_of_wordOf_zero rfl, delivers_one_table fun _ => rfl⟩,
    fun _ _ => ⟨encode_of_wordOf_zero rfl, delivers_one_table fun _ => rfl⟩,
    -- ABS, NEG, NOT
    fun _ _ => ⟨encode_of_wordOf_zero rfl, delivers_one_of_eq abs_eq fun _ => rfl⟩,
    fun _ _ => ⟨encode_of_wordOf_zero rfl, delivers_one_of_eq neg_eq fun _ => rfl⟩,
    fun _ _ => ⟨encode_of_wordOf_zero rfl, delivers_one_table fun _ => rfl⟩⟩

/-- MADW.n32 reads its destination, a pair, too (R85). -/
theorem delivers_madw {d a b : Reg} : Delivers (.madwN32 d a b) (Form.plain [(a, 1), (b, 1), (d, 2)] (some (d, 2)) .table, fun i _ l =>
    .write l (wordsOf 2 (i.view.pair d l + (i.view.reg a l).toNat * (i.view.reg b l).toNat))) := by
  refine delivers_table (fun _ => rfl) rfl rfl (fun _ _ _ => wordsOf_length _ _) fun i s hu l m => ?_
  have hua : i.view.cls (a, 1) = .u := hu _ (by simp [Form.plain])
  have hub : i.view.cls (b, 1) = .u := hu _ (by simp [Form.plain])
  have hud : i.view.cls (d, 2) = .u := hu _ (by simp [Form.plain])
  rw [pair_of_u hud l m, reg_of_u hua l m, reg_of_u hub l m]

/-- Settles O32: each is computed over the numbers of its operands, which are the same in every lane where they are U. -/
theorem iop64Delivers : Obligations.Iop64Delivers :=
  ⟨fun _ _ _ => delivers_wide fun _ => rfl, fun _ _ _ => delivers_wide fun _ => rfl, fun _ _ _ => delivers_wide fun _ => rfl,
    fun _ _ _ => delivers_wide fun _ => rfl, fun _ _ _ => delivers_wide fun _ => rfl, fun _ _ _ => delivers_madw,
    fun _ _ _ => delivers_wide fun _ => rfl, fun _ _ _ => delivers_wide fun _ => rfl, fun _ _ _ => delivers_wide fun _ => rfl,
    fun _ _ _ => delivers_wide fun _ => rfl, fun _ _ _ => delivers_wide fun _ => rfl, fun _ _ _ => delivers_wide fun _ => rfl,
    fun _ _ _ => delivers_wide fun _ => rfl, fun _ _ _ => delivers_wide fun _ => rfl, fun _ _ _ => delivers_wide fun _ => rfl,
    fun _ _ _ => delivers_wide fun _ => rfl⟩

end Sys2Proof.Claims
end

