-- ==== Sys2Proof/Proofs/MoveRows.lean ====
section
/-! Moves, thread registers, immediates and bit fields (03 R73, R76, R77, R78, R83, R84). -/

namespace Sys2Proof.Claims
open Sys2Proof Machine

/-- WINQ is U where every thread of the group has the base of the operation (R76). -/
theorem sameBase_eq {s : State} {op : Op} {t : Team} {g : Group} (ht : Turn s op t g) :
    sameBase s = g.threads.all fun th => th.exited || th.base == op.base := by
  simp only [sameBase, ht.cur, ht.team, ht.group, Option.bind_some]

theorem winq_results {d : Reg} {s : State} {op : Op} {t : Team} {g : Group} (ht : Turn s op t g)
    (hc : Clear (Form.plain [] (some (d, 1)) .g) op t g) : ∃ s', exec (.winq d) s = .next s' ∧ Results s s' op t g
      (Form.plain [] (some (d, 1)) (if g.threads.all fun th => th.exited || th.base == op.base then .u else .g))
      fun l => .write l [BitVec.ofNat 32 (t.nregs * 65536 + op.base)] := by
  rw [← sameBase_eq ht]
  generalize hrule : (if sameBase s then TagRule.u else TagRule.g) = rule
  -- the tag rule is no part of what keeps an operation from executing
  have hclear : Clear (Form.plain [] (some (d, 1)) rule) op t g :=
    ⟨hc.core, hc.level, hc.role, hc.txn, hc.ready, hc.free, hc.stood⟩
  have hj : exec (.winq d) s = issue (Form.plain [] (some (d, 1)) rule) (perLane fun i l =>
      .write l [BitVec.ofNat 32 (i.team.nregs * 65536 + i.op.base)]) s := by rw [← hrule]; rfl
  refine ⟨_, hj.trans (issue_clear ht hclear), complete_results ht (fun _ => rfl) (fun _ => rfl) (fun _ _ => rfl) ?_⟩
  rw [← hrule]
  cases sameBase s
  · trivial
  · exact fun _ _ _ _ => rfl

theorem delivers_nop : Delivers .nop (Form.plain [] none .table, fun _ _ l => .only l .next) :=
  delivers_of (fun _ => rfl) (fun _ _ _ => rfl) (fun _ _ _ => rfl) (fun _ _ _ => rfl) fun _ _ _ _ _ _ =>
    soundTag_table fun _ _ _ _ _ => rfl

theorem delivers_rngw (a : Reg) : Delivers (.rngw a) (Form.plain [(a, 1)] none .table, fun i _ l =>
    { LaneOut.only l .next with rng := some (srSeed (i.view.reg a l)) }) :=
  delivers_of (fun _ => rfl) (fun _ _ _ => rfl) (fun _ _ _ => rfl) (fun _ _ _ => rfl) fun _ _ _ _ _ _ =>
    soundTag_table fun _ _ _ _ _ => rfl

/-- SEL reads its destination, the condition, too (R73). -/
theorem delivers_sel (d a b : Reg) : Delivers (.sel d a b) (Form.plain [(d, 1), (a, 1), (b, 1)] (some (d, 1)) .table, fun i _ l =>
    .write l [if i.view.reg d l ≠ 0 then i.view.reg a l else i.view.reg b l]) := by
  refine delivers_table (fun _ => rfl) rfl rfl (fun _ _ _ => rfl) fun i s hu l m => ?_
  have hud : i.view.cls (d, 1) = .u := hu _ (by simp [Form.plain])
  have hua : i.view.cls (a, 1) = .u := hu _ (by simp [Form.plain])
  have hub : i.view.cls (b, 1) = .u := hu _ (by simp [Form.plain])
  rw [reg_of_u hud l m, reg_of_u hua l m, reg_of_u hub l m]

/-- Settles O29: the rows that read thread state are G, those of one value are U, and the others come from their sources. -/
theorem moveDelivers : Obligations.MoveDelivers :=
  ⟨delivers_nop, fun _ _ => delivers_one (fun _ => rfl) rfl fun _ _ => affine_mov_at, delivers_sel,
    fun _ => delivers_g (fun _ => rfl) rfl rfl fun _ _ _ => wordsOf_length _ _, fun _ _ _ _ _ => winq_results,
    fun _ _ => delivers_g (fun _ => rfl) rfl rfl fun _ _ _ => rfl, fun _ _ => delivers_g (fun _ => rfl) rfl rfl fun _ _ _ => rfl,
    fun _ => delivers_u (fun _ => rfl) rfl rfl fun _ _ => wordsOf_length _ _, fun _ => delivers_g (fun _ => rfl) rfl rfl fun _ _ _ => rfl,
    delivers_rngw, fun _ _ => delivers_u (fun _ => rfl) rfl rfl fun _ _ => rfl,
    fun _ _ => delivers_u (fun _ => rfl) rfl rfl fun _ _ => wordsOf_length _ _, fun _ _ _ _ => delivers_one_table fun _ => rfl,
    fun _ _ _ _ => delivers_one_table fun _ => rfl, fun _ _ _ _ => delivers_two_table fun _ => rfl⟩

end Sys2Proof.Claims
end

