-- ==== Sys2Proof/Proofs/LaneRows.lean ====
section
/-! Lane operations and capability reads (03 R87 to R90, R97, R99). -/

namespace Sys2Proof.Claims
open Sys2Proof Machine

/-- A value over the participating lanes is one for every lane, and U (R89). -/
theorem delivers_reduce {j : Instr} {d a : Reg} {n : Nat} {f : List Word → Nat} (hj : ∀ s, exec j s = reduce d a n f s) :
    Delivers j (reduceRow d a n f) :=
  delivers_u hj rfl rfl fun _ _ => wordsOf_length _ _

/-- A shuffle is U where a is, for then every lane's a is its own (R88). -/
theorem delivers_shuffle {j : Instr} {d a b : Reg} {src : Nat → Nat → Word → Option Nat} (hj : ∀ s, exec j s = shuffle d a b src s) :
    Delivers j (shuffleRow d a b src) := by
  refine delivers_write (fun s => ?_) rfl (fun _ _ _ => rfl) fun i s ls => ?_
  · rw [hj, shuffle]
    refine congrArg (issue _ · s) (funext₂ fun i s => congrArg (Prod.mk s) (List.map_congr_left fun l _ => ?_))
    dsimp only
    cases src i.team.gw l (i.view.reg b l) <;> rfl
  · have hres : i.view.resTag (.like a) [(a, 1), (b, 1)] = if i.view.cls (a, 1) == .u then .u else .g := rfl
    show soundTag (i.view.resTag (.like a) [(a, 1), (b, 1)]) _ _ _
    rw [hres]
    split
    · rename_i hu
      exact fun l _ k _ => congrArg (fun x => [x]) (reg_of_u (by simpa using hu) _ _)
    · trivial

theorem delivers_cmov (d a : Reg) : Delivers (.cmov d a)
    (Form.plain [(a, 4)] (some (d, 4)) .table, fun i _ l => .quad l (i.view.quad a l) (i.view.capTag a l)) := by
  refine delivers_of (fun _ => rfl) (fun _ _ _ => rfl) (fun _ _ _ => rfl) (fun _ _ _ => wordsOf_length _ _) fun s op t g _ _ =>
    soundTag_table fun hu l _ k _ => ?_
  have hua : (issOf op t g).view.cls (a, 4) = .u := hu _ (by simp [Form.plain])
  simp only [LaneOut.quad, LaneOut.write, quad_of_u hua l k]

/-- The words that CGET with selector `n` writes of a capability: BASE and LEN as pairs, PERM and ESZ as registers (R99). -/
def cgetWords (n c : Nat) : List Word :=
  match n with
  | 0 => wordsOf 2 (capBase c)
  | 1 => wordsOf 2 (capLen c)
  | 2 => wordsOf 1 (capPerm c)
  | _ => wordsOf 1 (capEsz c)

theorem cgetWords_length (n c : Nat) : (cgetWords n c).length = if n < 2 then 2 else 1 := by
  rcases n with _ | _ | _ | n
  · rfl
  · rfl
  · rfl
  · rw [if_neg (by omega)]; rfl

theorem delivers_cget (d a : Reg) (sel : BitVec 2) : Delivers (.cget d a sel)
    (Form.plain [(a, 4)] (some (d, if sel.toNat < 2 then 2 else 1)) .table, fun i _ l =>
      match sel.toNat with
      | 0 => .write l (wordsOf 2 (capBase (i.view.quad a l)))
      | 1 => .write l (wordsOf 2 (capLen (i.view.quad a l)))
      | 2 => .write l (wordsOf 1 (capPerm (i.view.quad a l)))
      | _ => .write l (wordsOf 1 (capEsz (i.view.quad a l)))) := by
  have hexec (s : State) : exec (.cget d a sel) s = issue (Form.plain [(a, 4)] (some (d, if sel.toNat < 2 then 2 else 1)) .table)
      (fun i s => (s, i.lanes.map fun l => .write l (cgetWords sel.toNat (i.view.quad a l)))) s := by
    show execCget d a sel s = _
    unfold execCget
    generalize sel.toNat = n
    rcases n with _ | _ | _ | n <;> rfl
  have hwrites := delivers_table (j := .cget d a sel) hexec rfl rfl (fun _ _ _ => cgetWords_length _ _) fun i s hu l m => by
    have hua : i.view.cls (a, 4) = .u := hu _ (by simp [Form.plain])
    rw [quad_of_u hua l m]
  refine cast (congrArg (Delivers _ ⟨_, ·⟩) (funext fun i => funext₂ fun _ l => ?_)) hwrites
  generalize sel.toNat = n
  rcases n with _ | _ | _ | n <;> rfl

/-- Settles O34: votes and reductions are one value for every lane, shuffles are U where their source is, and the others are G or of the table. -/
theorem laneDelivers : Obligations.LaneDelivers :=
  ⟨fun _ _ => delivers_u (fun _ => rfl) rfl rfl fun _ _ => wordsOf_length _ _, fun _ _ => delivers_reduce fun _ => rfl,
    fun _ _ => delivers_reduce fun _ => rfl, fun _ _ => delivers_reduce fun _ => rfl, fun _ _ _ => delivers_shuffle fun _ => rfl,
    fun _ _ _ => delivers_shuffle fun _ => rfl, fun _ _ _ => delivers_shuffle fun _ => rfl, fun _ _ _ => delivers_shuffle fun _ => rfl,
    fun _ => delivers_u (fun _ => rfl) rfl rfl fun _ _ => wordsOf_length _ _, fun _ => delivers_g (fun _ => rfl) rfl rfl fun _ _ _ => rfl,
    fun _ _ => delivers_g (fun _ => rfl) rfl rfl fun _ _ _ => rfl, fun _ _ => delivers_reduce fun _ => rfl,
    fun _ _ => delivers_reduce fun _ => rfl, fun _ _ => delivers_reduce fun _ => rfl, fun _ _ => delivers_reduce fun _ => rfl,
    fun _ => delivers_g (fun _ => rfl) rfl rfl fun _ _ _ => wordsOf_length _ _, delivers_cmov, delivers_cget,
    fun _ _ => delivers_g (fun _ => rfl) rfl rfl fun _ _ _ => rfl⟩

end Sys2Proof.Claims
end

