-- ==== Sys2Proof/Proofs/FlowRows.lean ====
section
/-! Control flow and thread instructions (03 R74, R75, R79, R80, R91 to R93, R98, R100): lanes that change only themselves, and operations that make
one change. -/

namespace Sys2Proof.Claims
open Sys2Proof Machine

/-- An instruction runs with an effect that has fewer outcomes. -/
theorem runs_mono {j : Instr} {f : Form} {E E' : Effect} (h : Runs j f E) (hE : ∀ i s r, E' i s = some r → E i s = some r) : Runs j f E' :=
  fun s op t g s1 outs ht hc he => h s op t g s1 outs ht hc (hE _ _ _ he)

theorem runs_still {j : Instr} {f : Form} {ok : Iss → Nat → Bool} {out : Iss → Nat → LaneOut}
    (hj : ∀ s, exec j s = issue f (perLane out) s) : Runs j f (still ok out) :=
  runs_of ⟨_, hj, fun _ _ _ _ he => still_eq (fun _ _ => rfl) he⟩

/-- Lanes none of which is bad deliver. -/
theorem runs_still_of_partly {j : Instr} {f : Form} {ok : Iss → Nat → Bool} {bad : Iss → Nat → Option LaneOut} {out : Iss → Nat → LaneOut}
    (h : Runs j f (partly bad out)) (hok : ∀ i l, ok i l = true → bad i l = none) : Runs j f (still ok out) := by
  refine runs_mono h fun i s r hr => ?_
  unfold still at hr
  split at hr
  · rename_i hall
    rw [List.all_eq_true] at hall
    have hout : i.lanes.map (fun l => (bad i l).getD (out i l)) = i.lanes.map (out i) :=
      List.map_congr_left fun l hl => by rw [hok i l (hall l hl), Option.getD_none]
    rw [← hr, partly, still, if_pos (List.all_eq_true.mpr fun _ _ => rfl), hout]
  · cases hr

theorem runs_turn {j : Instr} {f : Form} {ok : Iss → State → Bool} {F : Iss → State → State} {out : Iss → State → Nat → LaneOut}
    (body : Iss → State → State × List LaneOut) (hj : ∀ s, exec j s = issue f body s)
    (hbody : ∀ i s, ok i s = true → body i s = (F i s, i.lanes.map (out i s))) : Runs j f (turn ok F out) :=
  runs_of ⟨body, hj, fun i s _ _ he => turn_eq he (hbody i s)⟩

/-- An operation whose change and results are always the same. -/
theorem runs_turn_always {j : Instr} {f : Form} {F : Iss → State → State} {out : Iss → State → Nat → LaneOut}
    (hj : ∀ s, exec j s = issue f (fun i s => (F i s, i.lanes.map (out i s))) s) : Runs j f (turn (fun _ _ => true) F out) :=
  runs_turn _ hj fun _ _ _ => rfl

/-- MSET where every value is NONE or a multiple of 4 (R92). -/
theorem runs_mset_good (d a : Reg) : Runs (.mset d a) (Form.plain [(a, 2)] (some (d, 2)) .g)
    (turn (fun i _ => i.lanes.all fun l => i.view.pair a l == meetNone.toNat || i.view.pair a l % 4 == 0)
      (fun i s => s.onLanes i.op i.lanes fun l th => { th with meet := BitVec.ofNat 64 (i.view.pair a l) })
      fun i _ l => .write l (wordsOf 2 (i.thread l).meet.toNat)) := by
  refine runs_turn (msetBody a) (exec_mset d a) fun i s hall => ?_
  rw [List.all_eq_true] at hall
  have hgood : ∀ l ∈ i.lanes, meetBad a i l = false := fun l hl => by
    have h := hall l hl
    simp only [Bool.or_eq_true, beq_iff_eq] at h
    rcases h with h | h <;> simp [meetBad, h]
  have hall_good : i.lanes.filter (fun l => !meetBad a i l) = i.lanes := List.filter_eq_self.mpr fun l hl => by rw [hgood l hl]; rfl
  exact Prod.ext (congrArg (s.onLanes i.op · _) hall_good) (List.map_congr_left fun l hl => by rw [hgood l hl]; rfl)

/-- WBASE where every base is a multiple of 8 within the registers of the team (R75). -/
theorem runs_wbase_good (a : Reg) : Runs (.wbase a) ({ Form.plain [(a, 1)] none .table with foehn := false, txn := false })
    (turn (fun i _ => i.lanes.all fun l =>
        (i.view.reg a l).toNat % 8 == 0 && decide ((i.view.reg a l).toNat + 96 ≤ i.team.nregs))
      (fun i s => s.onLanes i.op i.lanes fun l th => { th with
        base := (i.view.reg a l).toNat, capTags := if th.base = (i.view.reg a l).toNat then th.capTags else 0 })
      fun _ _ l => .only l .next) := by
  refine runs_turn (fun i s =>
    (s.onLanes i.op (i.lanes.filter (baseOk a i)) fun l th =>
       { th with base := (i.view.reg a l).toNat, capTags := if th.base = (i.view.reg a l).toNat then th.capTags else 0 },
     i.lanes.map fun l => if baseOk a i l then .only l .next else .fault l cWindow (i.view.reg a l).toNat))
    (fun s => by show execWbase a s = _; delta execWbase; exact rfl) fun i s hall => ?_
  have hgood : ∀ l ∈ i.lanes, baseOk a i l = true := List.all_eq_true.mp hall
  exact Prod.ext (congrArg (s.onLanes i.op · _) (List.filter_eq_self.mpr hgood)) (List.map_congr_left fun l hl => if_pos (hgood l hl))

/-- GCW with a value that GCR accepts in the highest lane (R80). -/
theorem runs_gcw_good (d a : Reg) : Runs (.gcw d a) (Form.plain [(a, 1)] (some (d, 1)) .u)
    (turn (fun i _ => i.lanes.getLast?.any fun l => gcrOk (i.view.reg a l))
      (fun i s => s.modGroup i.op.team i.op.grp fun g => { g with gcr := ((i.lanes.getLast?).map (i.view.reg a)).getD 0 })
      fun i _ l => .write l [i.view.group.gcr]) := by
  refine runs_turn (fun i s => if gcrOk (((i.lanes.getLast?).map (i.view.reg a)).getD 0) then
      (s.modGroup i.op.team i.op.grp fun g => { g with gcr := ((i.lanes.getLast?).map (i.view.reg a)).getD 0 },
        i.lanes.map fun l => .write l [i.view.group.gcr])
    else (s, i.lanes.map fun l => .fault l cIllegal i.op.word.toNat)) (fun s => ?_) fun i s hok => if_pos ?_
  · show execGcw d a s = _
    unfold execGcw
    refine congrArg (issue _ · s) (funext₂ fun i s => ?_)
    cases i.lanes.getLast? <;> rfl
  · cases hlast : i.lanes.getLast? with
    | none => rfl
    | some l => rw [hlast] at hok; exact hok

/-- Settles O37: each row is the body of its instruction where no lane is bad. -/
theorem flowCompletes : Obligations.FlowCompletes := by
  refine ⟨runs_still fun _ => rfl, fun _ _ => runs_still fun _ => rfl, fun _ _ => runs_still fun _ => rfl, fun _ _ => runs_still fun _ => rfl,
    fun d a => runs_still_of_partly (runs_jr d a) fun i l h => ?_, runs_mset_good, fun _ _ => runs_turn_always fun _ => rfl, runs_wbase_good,
    fun _ _ => runs_turn_always fun _ => rfl, runs_gcw_good, fun d a b => runs_still_of_partly (runs_cnarrow d a b) fun i l h => ?_,
    fun d a b => runs_still_of_partly (runs_cperm d a b) fun i l h => ?_, fun d a => runs_still_of_partly (runs_cmint d a) fun i l h => ?_,
    fun _ => runs_turn_always fun _ => rfl⟩
  · exact if_neg (not_not.mpr (by simpa using h))
  · simp only [Bool.and_eq_true, decide_eq_true_eq] at h
    obtain ⟨htag, hlen⟩ := h
    exact if_neg (by simpa [htag] using hlen)
  · simp only [Bool.and_eq_true, decide_eq_true_eq] at h
    obtain ⟨⟨htag, hlow⟩, hperm⟩ := h
    exact if_neg (by rw [htag, decide_eq_false (not_le.mpr hlow), decide_eq_false (not_not.mpr hperm)]; decide)
  · simp only [Bool.and_eq_true, decide_eq_true_eq] at h
    exact if_neg (not_or.mpr ⟨not_not.mpr h.1, not_not.mpr h.2⟩)

end Sys2Proof.Claims
end

