-- ==== Sys2Proof/Proofs/Meetings.lean ====
section
/-! The release of complete meetings, and the arrival at one (03 R93, R94). -/

namespace Sys2Proof.Machine
open Sys2Proof

theorem meetComplete_iff (g : Group) (x : DWord) :
    g.meetComplete x = true ↔ ∀ u ∈ g.threads, u.meet = x → u.arrived = true ∨ u.exited = true := by
  rw [Group.meetComplete, List.all_eq_true]
  refine forall₂_congr fun u _ => ?_
  rw [Bool.or_eq_true, Bool.or_eq_true, bne_iff_ne, ne_eq, or_assoc, ← imp_iff_not_or]

/-- A thread whose meeting the release ends. -/
def Group.meets (g : Group) (th : Thread) : Prop :=
  th.arrived = true ∧ th.exited = false ∧ ∀ u ∈ g.threads, u.meet = th.meet → u.arrived = true ∨ u.exited = true

theorem release_test_iff (g : Group) (th : Thread) : (th.arrived && !th.exited && g.meetComplete th.meet) = true ↔ g.meets th := by
  rw [Bool.and_eq_true, Bool.and_eq_true, Bool.not_eq_true', meetComplete_iff, and_assoc, Group.meets]

theorem release_getElem? (g : Group) (now l : Nat) : (g.release now).threads[l]? = (g.threads[l]?).map fun th =>
    if th.arrived && !th.exited && g.meetComplete th.meet then { th with meet := meetNone, arrived := false, age := now } else th :=
  List.getElem?_map

theorem moveTo_arrived_iff (th : Thread) (pc : DWord) :
    (th.moveTo pc).arrived = true ↔ th.inTrap = false ∧ th.meet ≠ meetNone ∧ th.meet = pc := by
  show (!th.inTrap && th.meet != meetNone && th.meet == pc) = true ↔ _
  rw [Bool.and_eq_true, Bool.and_eq_true, Bool.not_eq_true', bne_iff_ne, beq_iff_eq, and_assoc]

end Sys2Proof.Machine

namespace Sys2Proof.Claims
open Sys2Proof Machine

/-- Settles O17: the test of the release is that the meeting is complete (`release_test_iff`), and it changes no other thread. -/
theorem meetingRelease : Obligations.MeetingRelease := by
  refine ⟨fun g now l th hth => ⟨_, by rw [release_getElem?, hth, Option.map_some], fun h => ?_, fun h => ?_⟩, moveTo_arrived_iff⟩
  · rw [if_pos ((release_test_iff g th).mpr h)]
  · rw [if_neg (mt (release_test_iff g th).mp h)]

end Sys2Proof.Claims
end

