-- ==== Sys2Proof/Proofs/TrapDelivery.lean ====
section
/-! The end of an operation each of whose lanes faults, outside transactions and calls (10 R278, R280, 03 R95): the lanes that a handler takes enter
it, and the others park with an UNHANDLED record. -/

namespace Sys2Proof.Machine
open Sys2Proof Claims

/-! ## The pieces of the end -/

/-- The same fault in some lanes. -/
def faultOuts (ls : List Nat) (c : BitVec 8) (code : Nat) (a : DWord) : List LaneOut := ls.map fun l => .only l (.fault c code a)

theorem faultOuts_find (ls : List Nat) (c : BitVec 8) (code : Nat) (a : DWord) (l : Nat) :
    (faultOuts ls c code a).find? (fun o => o.lane == l) = if l ∈ ls then some (.only l (.fault c code a)) else none :=
  find_lane (fun _ => rfl) l

theorem ends_of_faultOuts {ls : List Nat} {c : BitVec 8} {code : Nat} {a : DWord} {o : LaneOut} (h : o ∈ faultOuts ls c code a) :
    o.ends = .fault c code a ∧ o.lane ∈ ls := by
  obtain ⟨l, hl, rfl⟩ := List.mem_map.mp h
  exact ⟨rfl, hl⟩

theorem causesOf_replicate (c : BitVec 8) (n : Nat) : causesOf (List.replicate (n + 1) c) = [c] := by
  induction n with
  | zero => rfl
  | succ n ih => rw [List.replicate_succ, causesOf, ih]; simp

/-- Lanes with one fault have one cause. -/
theorem causesOf_faultOuts {ls : List Nat} (hne : ls ≠ []) (c : BitVec 8) (code : Nat) (a : DWord) :
    causesOf ((faultOuts ls c code a).filterMap fun o => o.ends.faultCause) = [c] := by
  have hall : (faultOuts ls c code a).filterMap (fun o => o.ends.faultCause) = List.replicate ls.length c := by
    rw [faultOuts, List.filterMap_map, ← List.map_const, ← List.filterMap_eq_map]
    rfl
  obtain ⟨l, r, rfl⟩ := List.exists_cons_of_ne_nil hne
  rw [hall, List.length_cons, causesOf_replicate]

theorem parkedLanes_faultOuts (ls : List Nat) (c : BitVec 8) (code : Nat) (a : DWord) : parkedLanes (faultOuts ls c code a) = [] :=
  filterMap_none fun o ho => by simp only [(ends_of_faultOuts ho).1]

theorem mem_undelivered_iff {t : Team} {tvec : DWord} {g : Group} {c : BitVec 8} {ls : List Nat} {code : Nat} {a : DWord} {l : Nat} {th : Thread}
    (hl : l ∈ ls) (hth : g.threads[l]? = some th) :
    l ∈ (undelivered t tvec g c (faultOuts ls c code a)).map (·.1) ↔ t.delivers tvec th = false := by
  have hmem : (∃ x, (l, x) ∈ undelivered t tvec g c (faultOuts ls c code a)) ↔ t.delivers tvec th = false := by
    simp only [undelivered, List.mem_filterMap, faultOuts, List.mem_map]
    constructor
    · rintro ⟨x, o, ⟨k, hk, rfl⟩, ho⟩
      simp only [LaneOut.only] at ho
      cases hthk : g.threads[k]? with
      | none => simp [hthk] at ho
      | some thk =>
        simp only [hthk, beq_self_eq_true, Bool.true_and, Option.ite_none_right_eq_some, Option.some.injEq, Prod.mk.injEq] at ho
        obtain ⟨hdel, rfl, -⟩ := ho
        rw [hth, Option.some.injEq] at hthk
        simpa [hthk] using hdel
    · intro hdel
      exact ⟨a, _, ⟨l, hl, rfl⟩, by simp [LaneOut.only, hth, hdel]⟩
  rw [← hmem, List.mem_map]
  exact ⟨fun ⟨⟨_, x⟩, hx, h⟩ => ⟨x, h ▸ hx⟩, fun ⟨x, hx⟩ => ⟨_, hx, rfl⟩⟩

theorem lowestAddr_eq_none {xs : List (Nat × DWord)} (h : lowestAddr xs = none) : xs = [] := by
  cases xs with
  | nil => rfl
  | cons x r =>
    rw [lowestAddr] at h
    split at h
    · split at h <;> cases h
    · cases h

/-- The team at issue is `t`, but for its groups, and the group at issue is `g`. -/
def State.Shows (s : State) (op : Op) (t : Team) (g : Group) : Prop :=
  ∃ gs, s.teams[op.team]? = some { t with groups := gs } ∧ gs[op.grp]? = some g

theorem State.Shows.of_teams {s s' : State} {op : Op} {t : Team} {g : Group} (h : s.Shows op t g) (hteams : s'.teams = s.teams) :
    s'.Shows op t g := by
  unfold State.Shows
  rw [hteams]
  exact h

theorem State.Shows.modGroup {s : State} {op : Op} {t : Team} {g : Group} (h : s.Shows op t g) (f : Group → Group) :
    (s.modGroup op.team op.grp f).Shows op t (f g) := by
  obtain ⟨gs, hteam, hgroup⟩ := h
  refine ⟨modAt f gs op.grp, ?_, ?_⟩
  · rw [State.modGroup_teams, modAt_getElem?, if_pos rfl, hteam]
    rfl
  · rw [modAt_getElem?, if_pos rfl, hgroup]
    rfl

/-- A thread parked with `p`, its wait beginning at `clock` if it was not waiting. -/
def Thread.parked (th : Thread) (p : Park) (clock tswap : Nat) : Thread :=
  ({ th with park := some p, wait := none, seen := none, arrived := false } : Thread).noteWait th.waiting clock tswap

/-- Parking changes the threads of the parked lanes, and of the group nothing else. -/
theorem State.Shows.parkLanes {s : State} {op : Op} {t : Team} {g : Group} (h : s.Shows op t g) (u : Bool) (c : BitVec 8)
    (xs : List (Nat × DWord)) : ∃ p clock tswap, p.unhandled = u ∧ p.cause = c ∧
      (s.parkLanes op u c xs).Shows op t (g.modLanes (xs.map (·.1)) fun _ th => th.parked p clock tswap) := by
  cases hlow : lowestAddr xs with
  | none =>
    obtain rfl := lowestAddr_eq_none hlow
    refine ⟨⟨u, c, 0, 0, false, 0⟩, 0, 0, rfl, rfl, ?_⟩
    rw [State.parkLanes_nil]
    have hall := h.modGroup fun g => g.modLanes [] fun _ th => th.parked ⟨u, c, 0, 0, false, 0⟩ 0 0
    rwa [show s.modGroup op.team op.grp _ = s from onLanes_nil s op _] at hall
  | some x =>
    obtain ⟨l0, a0⟩ := x
    obtain ⟨gs, hteam, -⟩ := id h
    unfold State.parkLanes
    simp only [hteam, hlow]
    split
    · exact ⟨_, _, _, rfl, rfl, h.modGroup _⟩
    · exact ⟨_, _, _, rfl, rfl, (h.modGroup _).of_teams rfl⟩

/-- The lanes of `ls` that a handler takes enter it. -/
def trappedGroup (t : Team) (tvec pc : DWord) (ls : List Nat) (c : BitVec 8) (code : Nat) (a : DWord) (g : Group) : Group :=
  { g with threads := g.threads.mapIdx fun l th => if l ∈ ls ∧ t.delivers tvec th = true then th.trapEnter tvec pc c code a else th }

theorem State.Shows.trapLanes {s : State} {op : Op} {t : Team} {g : Group} (h : s.Shows op t g) (ls : List Nat) (c : BitVec 8) (code : Nat)
    (a : DWord) : (s.trapLanes op (faultOuts ls c code a)).Shows op t (trappedGroup t (s.tvecOf t) op.pc ls c code a g) := by
  have heq : s.trapLanes op (faultOuts ls c code a) =
      s.modGroup op.team op.grp (trappedGroup t (s.tvecOf t) op.pc ls c code a) := by
    obtain ⟨gs, hteam, -⟩ := h
    unfold State.trapLanes
    simp only [hteam]
    refine congrArg (s.modGroup op.team op.grp) (funext fun g => congrArg (fun f => { g with threads := g.threads.mapIdx f })
      (funext₂ fun l th => ?_))
    rw [faultOuts_find]
    by_cases hl : l ∈ ls
    · simp only [hl, true_and, LaneOut.only]
      rfl
    · simp only [hl, false_and, if_false]
  rw [heq]
  exact h.modGroup _

/-- A lane outside a transaction that has faulted, before its trap or park. -/
theorem nextThread_faultOuts {s : State} {t : Team} {op : Op} {ls : List Nat} {c : BitVec 8} {code : Nat} {a : DWord} {l : Nat} {th : Thread}
    (hl : l ∈ ls) (htxn : th.txn = none) :
    nextThread s t op (faultOuts ls c code a) l th = { th with stirred := false, age := s.tick } := by
  have hfinish : th.finish op.pc (.only l (.fault c code a)) = { th with stirred := false } := by
    simp only [Thread.finish, LaneOut.only, htxn, Option.map_none, Option.getD_none]
    rw [← htxn, show th.fx ||| 0 = th.fx from BitVec.or_zero]
  have hwait : ({ th with stirred := false } : Thread).waiting = th.waiting := rfl
  rw [nextThread, faultOuts_find, if_pos hl]
  dsimp only
  rw [hfinish, Thread.noteWait, hwait, Bool.and_not_self, if_neg Bool.false_ne_true]

/-! ## The end -/

/-- The release and the lots leave a thread that has not arrived as it is, but for its lot. -/
theorem passed_of_not_arrived {n : Nat} {outs : List LaneOut} {g : Group} {l : Nat} {th : Thread} (h : g.threads[l]? = some th)
    (harr : th.arrived = false) : ∃ th', ((g.release n).lots n outs).threads[l]? = some th' ∧
      th' = { th with lot := th'.lot, lotOpen := th'.lotOpen } :=
  lots_thread (by rw [release_getElem?, h, Option.map_some, harr, Bool.false_and, Bool.false_and, if_neg Bool.false_ne_true])

/-- The threads of an operation after its instruction, before traps and parks. -/
def steppedGroup (s : State) (t : Team) (op : Op) (outs : List LaneOut) (g : Group) : Group :=
  { g with threads := g.threads.mapIdx (nextThread s t op outs) }

/-- The group when each lane has met its fault: in the handler, or parked with `p`. -/
def State.faultedGroup (s : State) (op : Op) (t : Team) (g : Group) (ls : List Nat) (c : BitVec 8) (code : Nat) (a : DWord) (p : Park)
    (clock tswap : Nat) : Group :=
  (trappedGroup t (s.tvecOf t) op.pc ls c code a (steppedGroup s t op (faultOuts ls c code a) g)).modLanes
    ((undelivered t (s.tvecOf t) g c (faultOuts ls c code a)).map (·.1)) fun _ th => th.parked p clock tswap

theorem faultedGroup_thread {s : State} {op : Op} {t : Team} {g : Group} {ls : List Nat} {c : BitVec 8} {code : Nat} {a : DWord} {p : Park}
    {clock tswap l : Nat} {th : Thread} (hl : l ∈ ls) (hth : g.threads[l]? = some th) (htxn : th.txn = none) :
    (s.faultedGroup op t g ls c code a p clock tswap).threads[l]? = some (if t.delivers (s.tvecOf t) th then
      ({ th with stirred := false, age := s.tick } : Thread).trapEnter (s.tvecOf t) op.pc c code a
      else ({ th with stirred := false, age := s.tick } : Thread).parked p clock tswap) := by
  have hdel : t.delivers (s.tvecOf t) { th with stirred := false, age := s.tick } = t.delivers (s.tvecOf t) th := rfl
  simp only [State.faultedGroup, trappedGroup, steppedGroup, Group.modLanes_threads, List.getElem?_mapIdx, hth, Option.map_some,
    nextThread_faultOuts hl htxn, hl, true_and, hdel, List.contains_eq_mem, mem_undelivered_iff hl hth, decide_eq_true_eq]
  cases t.delivers (s.tvecOf t) th <;> rfl

section
variable {s : State} {op : Op} {t : Team} {g : Group} {ls : List Nat} (ht : s.teams[op.team]? = some t) (hg : t.groups[op.grp]? = some g)
  (hkind : t.kind ≠ .call) (hne : ls ≠ []) (htxn : ∀ l ∈ ls, g.inTxn l = false) (c : BitVec 8) (code : Nat) (a : DWord)
include ht hg hkind hne htxn

/-- FINISH of lanes that all fault, outside transactions and calls: the traps, the parks, a sign of progress or not, and the release of meetings
and lots. -/
theorem State.finish_faultOuts : ∃ alive : Bool, s.finish op (faultOuts ls c code a) =
    let outs := faultOuts ls c code a
    let s2 := ((s.modGroup op.team op.grp (steppedGroup s t op outs)).trapLanes op outs).parkLanes op true c
      (undelivered t (s.tvecOf t) g c outs)
    (if alive then s2.signal t.ctx else s2).modGroup op.team op.grp fun x => (x.release s.tick).lots s.tick outs := by
  have hcall : (t.kind == .call) = false := beq_eq_false_iff_ne.mpr hkind
  have hmap : (faultOuts ls c code a).map (fun o => if o.ends.isFault && g.inTxn o.lane then { o with ends := .abort 5 } else o) =
      faultOuts ls c code a := by
    conv => rhs; rw [← List.map_id (faultOuts ls c code a)]
    refine List.map_congr_left fun o ho => ?_
    rw [htxn _ (ends_of_faultOuts ho).2, Bool.and_false, if_neg Bool.false_ne_true, id]
  unfold State.finish
  simp only [ht, hg, hcall, Bool.false_and, Bool.false_eq_true, if_false, hmap, causesOf_faultOuts hne, parkedLanes_faultOuts,
    List.foldl_cons, List.foldl_nil, State.parkLanes_nil]
  rw [foldl_same (f := fun st o => _) (fun b o h => by rw [(ends_of_faultOuts h).1])]
  exact ⟨_, rfl⟩

theorem State.finish_faultOuts_shows : ∃ p clock tswap, p.unhandled = true ∧ p.cause = c ∧
    (s.finish op (faultOuts ls c code a)).Shows op t
      (((s.faultedGroup op t g ls c code a p clock tswap).release s.tick).lots s.tick (faultOuts ls c code a)) := by
  obtain ⟨alive, hfinish⟩ := State.finish_faultOuts ht hg hkind hne htxn c code a
  have hstart : s.Shows op t g := ⟨t.groups, ht, hg⟩
  obtain ⟨p, clock, tswap, hu, hc, hpark⟩ := ((hstart.modGroup (steppedGroup s t op (faultOuts ls c code a))).trapLanes ls c code a).parkLanes
    true c (undelivered t (s.tvecOf t) g c (faultOuts ls c code a))
  refine ⟨p, clock, tswap, hu, hc, ?_⟩
  rw [hfinish]
  exact State.Shows.modGroup (hpark.of_teams (by cases alive <;> rfl)) fun x => (x.release s.tick).lots s.tick (faultOuts ls c code a)

end

/-- A fault is delivered where a vector is set and the thread is outside a handler (R280). -/
theorem delivers_iff (t : Team) (tvec : DWord) (th : Thread) :
    t.delivers tvec th = true ↔ tvec ≠ 0 ∧ th.inHandler (t.kind == .firmware) = false := by
  rw [Team.delivers, Bool.and_eq_true, bne_iff_ne, Bool.not_eq_true']

theorem txn_none_of_inTxn {g : Group} {l : Nat} {th : Thread} (h : g.inTxn l = false) (hth : g.threads[l]? = some th) : th.txn = none := by
  simpa [Group.inTxn, hth] using h

/-- A parked thread keeps its trap registers and its PC. -/
theorem parked_keeps (th : Thread) (p : Park) (clock tswap : Nat) : (th.parked p clock tswap).tpc = th.tpc ∧
    (th.parked p clock tswap).tcause = th.tcause ∧ (th.parked p clock tswap).taddr = th.taddr ∧ (th.parked p clock tswap).pc = th.pc ∧
    (th.parked p clock tswap).park = some p ∧ (th.parked p clock tswap).arrived = false := by
  unfold Thread.parked Thread.noteWait
  split <;> exact ⟨rfl, rfl, rfl, rfl, rfl, rfl⟩

end Sys2Proof.Machine

namespace Sys2Proof.Claims
open Sys2Proof Machine

/-- Settles O8: the end of the lanes leaves each in the handler or parked (`State.finish_faultOuts_shows`, `faultedGroup_thread`), and since neither
has arrived the release of meetings passes it by. -/
theorem trapDelivery : Obligations.TrapDelivery := by
  intro s op t g c code a ht hkind htxn
  obtain ⟨p, clock, tswap, hu, hc, gs, hteam, hgroup⟩ :=
    State.finish_faultOuts_shows ht.team ht.group hkind (lanesOf_ne_nil ht.some) htxn c code a
  refine ⟨_, _, hteam, hgroup, by rw [lots_release_group]; rfl, rfl, fun l hl th hth => ?_⟩
  have hfaulted := faultedGroup_thread (s := s) (op := op) (t := t) (c := c) (code := code) (a := a) (p := p) (clock := clock)
    (tswap := tswap) hl hth (txn_none_of_inTxn (htxn l hl) hth)
  cases hdel : t.delivers (s.tvecOf t) th with
  | true =>
    rw [hdel, if_pos rfl] at hfaulted
    obtain ⟨th', hth', heq⟩ := passed_of_not_arrived hfaulted rfl
    refine ⟨th', hth', fun _ => by rw [heq]; rfl, fun hnot => ?_⟩
    obtain ⟨hvec, hout⟩ := (delivers_iff t _ th).mp hdel
    rcases hnot with h | h
    · exact absurd h hvec
    · rw [hout] at h; cases h
  | false =>
    rw [hdel, if_neg Bool.false_ne_true] at hfaulted
    obtain ⟨htpc, htcause, htaddr, hpc, hpark, harr⟩ := parked_keeps { th with stirred := false, age := s.tick } p clock tswap
    obtain ⟨th', hth', heq⟩ := passed_of_not_arrived hfaulted harr
    refine ⟨th', hth', fun hyes => ?_, fun _ => ?_⟩
    · rw [(delivers_iff t _ th).mpr hyes] at hdel; cases hdel
    · rw [heq]
      exact ⟨htpc, htcause, htaddr, hpc, p, hpark, hu, hc⟩

end Sys2Proof.Claims
end

