-- ==== Sys2Proof/Proofs/NaNResults.lean ====
section
/-! NaN operands (04 R105, R109, R110, R117): with a NaN operand an exact sum or product is a NaN, which signals when an operand does, and
every rounding of a NaN is the canonical one. -/

namespace Sys2Proof.Machine
open Sys2Proof

/-! ## NaN among exact values -/

theorem Num.exists_of_isNan {x : Num} (h : x.isNan = true) : ∃ sig, x = .nan sig := by
  cases x with
  | nan sig => exact ⟨sig, rfl⟩
  | inf _ | fin _ _ _ => cases h

theorem Num.isNan_of_isSnan {x : Num} (h : x.isSnan = true) : x.isNan = true := by
  cases x with
  | nan _ => rfl
  | inf _ | fin _ _ _ => cases h

@[simp] theorem Num.isNan_negate (x : Num) : x.negate.isNan = x.isNan := by cases x <;> rfl

@[simp] theorem Num.isSnan_negate (x : Num) : x.negate.isSnan = x.isSnan := by cases x <;> rfl

/-- A sum with a NaN operand is a NaN, signalling when an operand is. -/
theorem addNum_of_nan {x y : Num} (h : x.isNan = true ∨ y.isNan = true) (rm : Rm) : addNum rm x y = .nan (x.isSnan || y.isSnan) := by
  rcases h with h | h <;> obtain ⟨sig, rfl⟩ := Num.exists_of_isNan h
  · cases y <;> simp [addNum, Num.isSnan]
  · cases x <;> simp [addNum, Num.isSnan]

theorem mulNum_of_nan {x y : Num} (h : x.isNan = true ∨ y.isNan = true) : mulNum x y = .nan (x.isSnan || y.isSnan) := by
  rcases h with h | h <;> obtain ⟨sig, rfl⟩ := Num.exists_of_isNan h
  · cases y <;> simp [mulNum, Num.isSnan]
  · cases x <;> simp [mulNum, Num.isSnan]

/-! ## Results -/

/-- The canonical NaN of a format as a result, with NV when an operand signals. -/
def nanRes (f : Fmt) (sig : Bool) : FRes := { bits := f.nanBits, flags := flagIf sig fxNV }

theorem nanRes_invalid (f : Fmt) : (nanRes f true).flags.getLsbD 0 = true := by simp [nanRes, flagIf, fxNV]

theorem roundNum_of_nan {x : Num} (h : x.isNan = true) (f : Fmt) (rm : Rm) (s : Word) (sat : Bool) :
    roundNum f rm s sat x = nanRes f x.isSnan := by
  obtain ⟨sig, rfl⟩ := Num.exists_of_isNan h
  rfl

theorem divNum_of_nan {x y : Num} (h : x.isNan = true ∨ y.isNan = true) (f : Fmt) (rm : Rm) (s : Word) :
    divNum f rm s x y = nanRes f (x.isSnan || y.isSnan) := by
  rcases h with h | h <;> obtain ⟨sig, rfl⟩ := Num.exists_of_isNan h
  · cases y <;> simp [divNum, nanRes, Num.isSnan]
  · cases x <;> simp [divNum, nanRes, Num.isSnan]

/-- The sum of two terms, one of them a NaN, rounded. -/
theorem fmaNum_of_nan {x y : Num} (h : x.isNan = true ∨ y.isNan = true) (f : Fmt) (rm : Rm) (s : Word) :
    fmaNum f rm s x y = nanRes f (x.isSnan || y.isSnan) := by
  rw [fmaNum, addNum_of_nan h]; rfl

section
variable {f : Fmt} {x y : Nat} (h : (decodeNum f x).isNan = true ∨ (decodeNum f y).isNan = true) (rm : Rm) (s : Word)
include h

theorem fAdd_of_nan : fAdd f rm s x y = nanRes f ((decodeNum f x).isSnan || (decodeNum f y).isSnan) := fmaNum_of_nan h f rm s

theorem fSub_of_nan : fSub f rm s x y = nanRes f ((decodeNum f x).isSnan || (decodeNum f y).isSnan) :=
  (fmaNum_of_nan (by simpa using h) f rm s).trans (by rw [Num.isSnan_negate])

theorem fMul_of_nan : fMul f rm s x y = nanRes f ((decodeNum f x).isSnan || (decodeNum f y).isSnan) := by
  rw [fMul, mulNum_of_nan h]; rfl

theorem fDiv_of_nan : fDiv f rm s x y = nanRes f ((decodeNum f x).isSnan || (decodeNum f y).isSnan) := divNum_of_nan h f rm s

theorem product_isNan : (mulNum (decodeNum f x) (decodeNum f y)).isNan = true := by rw [mulNum_of_nan h]; rfl

end

theorem fSqrt_of_nan {f : Fmt} {x : Nat} (h : (decodeNum f x).isNan = true) (rm : Rm) (s : Word) :
    fSqrt f rm s x = nanRes f (decodeNum f x).isSnan := by
  obtain ⟨sig, hx⟩ := Num.exists_of_isNan h
  rw [fSqrt, hx]; rfl

/-- The canonical NaNs of the four formats of R105 that an operand may have. -/
theorem nanBits_of_mem {f : Fmt} {q : Nat}
    (h : (f, q) ∈ [(f64, 0x7ff8000000000000), (f32, 0x7fc00000), (f16, 0x7e00), (bf16, 0x7fc0)]) : f.nanBits = q := by
  simp only [List.mem_cons, Prod.mk.injEq, List.not_mem_nil, or_false] at h
  obtain ⟨rfl, rfl⟩ | ⟨rfl, rfl⟩ | ⟨rfl, rfl⟩ | ⟨rfl, rfl⟩ := h <;> rfl

end Sys2Proof.Machine

namespace Sys2Proof.Claims
open Sys2Proof Machine

/-- Settles O20: the exact value of each operation is a NaN, and its rounding the canonical one. -/
theorem canonicalNaN : Obligations.CanonicalNaN := by
  intro f q hfq rm s x y z
  obtain rfl := nanBits_of_mem hfq
  refine ⟨fun h => ?_, fun h => ?_, fun h => ?_⟩
  · have hp := product_isNan h
    have hm : (mulNum (decodeNum f x) (decodeNum f y)).negate.isNan = true := by rw [Num.isNan_negate, hp]
    rw [fAdd_of_nan h, fSub_of_nan h, fMul_of_nan h, fDiv_of_nan h, fMac, fmaNum_of_nan (.inr hp), fMsc, fmaNum_of_nan (.inr hm),
      fNmac, fmaNum_of_nan (.inr hm), fNmsc, fmaNum_of_nan (.inl hp)]
    exact ⟨rfl, rfl, rfl, rfl, rfl, rfl, rfl, rfl⟩
  · rw [fMac, fmaNum_of_nan (.inl h), fSqrt_of_nan h, fRcp, divNum_of_nan (.inr h), fConvert, fConvert, fConvert,
      roundNum_of_nan h, roundNum_of_nan h, roundNum_of_nan h]
    exact ⟨rfl, rfl, rfl, rfl, rfl, rfl⟩
  · have hsig : ((decodeNum f x).isSnan || (decodeNum f y).isSnan) = true := Bool.or_eq_true _ _ ▸ h
    have hnan := h.imp Num.isNan_of_isSnan Num.isNan_of_isSnan
    rw [fAdd_of_nan hnan, fSub_of_nan hnan, fMul_of_nan hnan, fDiv_of_nan hnan, hsig]
    exact ⟨nanRes_invalid f, nanRes_invalid f, nanRes_invalid f, nanRes_invalid f⟩

end Sys2Proof.Claims
end

