-- ==== Sys2Proof/Proofs/FloatRows.lean ====
section
/-! Rows of floating-point instructions (04 R101 to R131): each is a `floatOp`, whose result is G under SR and else comes from its sources alone
(R34, R107). -/

namespace Sys2Proof.Claims
open Sys2Proof Machine

/-- What `floatOp` gives a lane: the result of `f`, and the generator's advance under SR. -/
def floatOut (n : Nat) (rm : Rm) (f : Rm → Word → Iss → Nat → FRes) (i : Iss) (l : Nat) : LaneOut :=
  let g := if rm == .sr then srNext (i.thread l).rng else 0
  LaneOut.float l n (f rm g i l) (if rm == .sr then some g else none)

section
variable {j : Instr} {form : Form} {d a b : Reg} {n : Nat} {rm : BitVec 3}

/-- A floating-point row that is G, or that has the tag of the table and a result that is the same in every lane where the sources are U. -/
theorem delivers_floatOp {m : Rm} {f : Rm → Word → Iss → Nat → FRes} (hj : ∀ s, exec j s = floatOp form n m f s)
    (hd : form.dst = some (d, n)) (hr : form.rule = .g ∨ form.rule = .table ∧
      ∀ i : Iss, (∀ x ∈ form.srcs, i.view.cls x = .u) → ∀ l k, (floatOut n m f i l).vals = (floatOut n m f i k).vals) :
    Delivers j (form, fun i _ l => floatOut n m f i l) := by
  refine delivers_of hj (fun _ _ _ => rfl) (fun _ _ _ => rfl) (fun _ _ _ => ?_) fun s op t g _ _ => ?_
  · rw [hd]; exact wordsOf_length _ _
  · rcases hr with hr | ⟨hr, hu⟩
    · rw [hr]; trivial
    · rw [hr]; exact soundTag_table fun hx l _ k _ => hu _ hx l k

/-- A row of a function of its operands and, under SR, of the generator (R107). -/
theorem delivers_rounded {m : Rm} {srcs : List (Reg × Nat)} {f : Rm → Word → Iss → Nat → FRes}
    (hj : ∀ s, exec j s = floatOp (floatForm srcs (d, n) (m == .sr)) n m f s)
    (hf : ∀ (i : Iss) g, (∀ x ∈ srcs, i.view.cls x = .u) → ∀ l k, f m g i l = f m g i k) :
    Delivers j (fForm srcs (d, n) (m == .sr), fun i _ l => floatOut n m f i l) := by
  refine delivers_floatOp hj rfl ?_
  cases hm : m == .sr with
  | true => exact .inl rfl
  | false =>
    refine .inr ⟨rfl, fun i hu l k => ?_⟩
    simp only [floatOut, hm, Bool.false_eq_true, if_false, hf i 0 hu l k]
    rfl

theorem delivers_float2 {f : Rm → Word → Nat → Nat → FRes} (hj : ∀ s, exec j s = float2 n rm d a b f s) :
    Delivers j (float2Row n rm d a b f) :=
  delivers_rounded hj fun i g hu l k => by
    simp only [Iss.num, words_of_u (hu (a, n) (by simp)) l k, words_of_u (hu (b, n) (by simp)) l k]

theorem delivers_float3 {f : Rm → Word → Nat → Nat → Nat → FRes} (hj : ∀ s, exec j s = float3 n rm d a b f s) :
    Delivers j (float3Row n rm d a b f) :=
  delivers_rounded hj fun i g hu l k => by
    simp only [Iss.num, words_of_u (hu (d, n) (by simp)) l k, words_of_u (hu (a, n) (by simp)) l k, words_of_u (hu (b, n) (by simp)) l k]

/-- The window of FDOT is the group's, so the same in every lane (R127). -/
theorem delivers_dot {f : Fmt} (hj : ∀ s, exec j s = dot f n rm d a b s) : Delivers j (dotRow f n rm d a b) :=
  delivers_rounded hj fun i g hu l k => by
    simp only [Iss.num, words_of_u (hu (d, 1) (by simp)) l k, words_of_u (hu (a, 1) (by simp)) l k, words_of_u (hu (b, 1) (by simp)) l k]

end

/-- Settles O35: each row is `float2`, `float3` or `dot` of the function of its table. -/
theorem floatDelivers : Obligations.FloatDelivers :=
  ⟨ -- FAR (R109)
    fun _ _ _ _ => delivers_float2 fun _ => rfl, fun _ _ _ _ => delivers_float2 fun _ => rfl,
    fun _ _ _ _ => delivers_float2 fun _ => rfl, fun _ _ _ _ => delivers_float2 fun _ => rfl,
    fun _ _ _ _ => delivers_float2 fun _ => rfl, fun _ _ _ _ => delivers_float2 fun _ => rfl,
    fun _ _ _ _ => delivers_float2 fun _ => rfl, fun _ _ _ _ => delivers_float2 fun _ => rfl,
    fun _ _ _ _ => delivers_float2 fun _ => rfl, fun _ _ _ _ => delivers_float2 fun _ => rfl,
    fun _ _ _ _ => delivers_float2 fun _ => rfl, fun _ _ _ _ => delivers_float2 fun _ => rfl,
    fun _ _ _ _ => delivers_float2 fun _ => rfl, fun _ _ _ _ => delivers_float2 fun _ => rfl,
    fun _ _ _ _ => delivers_float2 fun _ => rfl, fun _ _ _ _ => delivers_float2 fun _ => rfl,
    -- FMA (R110)
    fun _ _ _ _ => delivers_float3 fun _ => rfl, fun _ _ _ _ => delivers_float3 fun _ => rfl,
    fun _ _ _ _ => delivers_float3 fun _ => rfl, fun _ _ _ _ => delivers_float3 fun _ => rfl,
    fun _ _ _ _ => delivers_float3 fun _ => rfl, fun _ _ _ _ => delivers_float3 fun _ => rfl,
    fun _ _ _ _ => delivers_float3 fun _ => rfl, fun _ _ _ _ => delivers_float3 fun _ => rfl,
    fun _ _ _ _ => delivers_float3 fun _ => rfl, fun _ _ _ _ => delivers_float3 fun _ => rfl,
    fun _ _ _ _ => delivers_float3 fun _ => rfl, fun _ _ _ _ => delivers_float3 fun _ => rfl,
    fun _ _ _ _ => delivers_float3 fun _ => rfl, fun _ _ _ _ => delivers_float3 fun _ => rfl,
    fun _ _ _ _ => delivers_float3 fun _ => rfl, fun _ _ _ _ => delivers_float3 fun _ => rfl,
    -- FPACK (R125, R126)
    fun _ _ _ _ => delivers_float2 fun _ => rfl, fun _ _ _ _ => delivers_float2 fun _ => rfl,
    fun _ _ _ _ => delivers_float3 fun _ => rfl, fun _ _ _ _ => delivers_float3 fun _ => rfl,
    -- FDOT (R127)
    fun _ _ _ _ => delivers_dot fun _ => rfl, fun _ _ _ _ => delivers_dot fun _ => rfl,
    fun _ _ _ _ => delivers_dot fun _ => rfl, fun _ _ _ _ => delivers_dot fun _ => rfl,
    -- FQNT (R128, R129)
    fun _ _ _ _ => delivers_float3 fun _ => rfl, fun _ _ _ _ => delivers_float3 fun _ => rfl⟩

end Sys2Proof.Claims
end

