-- ==== Sys2Proof/Proofs/TranscendentalRows.lean ====
section
/-! FEXP2, FLOG2, FSINPI and FCOSPI (04 R119): the generator that an operation leaves, which under SR is not the one of their rows. -/

namespace Sys2Proof.Claims
open Sys2Proof Machine

/-- The generator of a lane after an operation. -/
theorem results_rng {s s' : State} {op : Op} {t : Team} {g : Group} {f : Form} {outs : Nat → LaneOut} (h : Results s s' op t g f outs)
    {l : Nat} (hl : l ∈ lanesOf op.lanes) {th : Thread} (hth : g.threads[l]? = some th) :
    (((s'.teams[op.team]?).bind (·.groups[op.grp]?)).bind (·.threads[l]?)).map (·.rng) = some ((outs l).rng.getD th.rng) := by
  obtain ⟨t', ht', -, -, g', hg', -, -, hlanes, -⟩ := h.team
  obtain ⟨th', hth', hafter⟩ := hlanes l hl th hth
  simp only [ht', Option.bind_some, hg', hth', Option.map_some]
  rw [hafter]

/-- Two rows of one instruction leave a lane the same generator. -/
theorem rng_eq_of_delivers {j : Instr} {f : Form} {h k : Iss → State → Nat → LaneOut} (hh : Delivers j (f, h)) (hk : Delivers j (f, k))
    {s : State} {op : Op} {t : Team} {g : Group} (ht : Turn s op t g) (hc : Clear f op t g) {l : Nat} (hl : l ∈ lanesOf op.lanes)
    {th : Thread} (hth : g.threads[l]? = some th) :
    (h (issOf op t g) s l).rng.getD th.rng = (k (issOf op t g) s l).rng.getD th.rng := by
  obtain ⟨s1, he1, hr1⟩ := hh s op t g ht hc
  obtain ⟨s2, he2, hr2⟩ := hk s op t g ht hc
  rw [he1, Host.Outcome.next.injEq] at he2
  subst he2
  exact Option.some.inj ((results_rng hr1 hl hth).symm.trans (results_rng hr2 hl hth))

/-- What a transcendental instruction delivers in every rm, SR included: its result, which no generator enters, and under SR the advance. -/
theorem delivers_transcendental {j : Instr} {form : Form} {d a : Reg} {n : Nat} {rm : BitVec 3} {f : Nat → FRes}
    (hj : ∀ s, exec j s = floatOp form n (rmOf rm) (fun _ _ i l => f (i.num a n l)) s) (hs : form.srcs = [(a, n)])
    (hd : form.dst = some (d, n)) (hr : form.rule = .table) :
    Delivers j (form, fun i _ l => floatOut n (rmOf rm) (fun _ _ i l => f (i.num a n l)) i l) := by
  refine delivers_floatOp hj hd (.inr ⟨hr, fun i hu l k => ?_⟩)
  rw [hs] at hu
  simp only [floatOut, LaneOut.float, LaneOut.write, Iss.num, words_of_u (hu (a, n) (by simp)) l k]

/-! ## A program at FEXP2.S v3, v2 with rm 5 -/

/-- Lane 0 of the program that `State.load` places, at SYSTEM level, with the word of FEXP2.S v3, v2 and rm 5. -/
def srOp : Op := { team := 0, grp := 0, lanes := 1, pc := 0x40100000, base := 0, sys := true, word := 0x90182014 }

def srState : State := { State.reset.load 0 with cur := some srOp }

/-- The team and the group of that program. -/
def srTeam : Team :=
  { Team.start .team (Launch.one 1 loadCtx (BitVec.ofNat 64 loadVa) 0 16 1) 0 false with place := .resident 0 0 }

def srGroup : Machine.Group := Group.start (Launch.one 1 loadCtx (BitVec.ofNat 64 loadVa) 0 16 1) 0 false

theorem turn_srOp : Turn srState srOp srTeam srGroup := ⟨rfl, rfl, rfl, by decide⟩

/-- A register of a started group is neither empty nor marked. -/
theorem readiness_srGroup {l r : Nat} (hr : r < 96) : (issOf srOp srTeam srGroup).view.readiness r l = .ok := by
  have hreg : (issOf srOp srTeam srGroup).view.vreg r = VReg.fresh := by
    show (((List.replicate 96 VReg.fresh)[0 + r]?).getD VReg.fresh) = VReg.fresh
    rw [List.getElem?_replicate, Nat.zero_add, if_pos hr, Option.getD_some]
  simp [View.readiness, hr, hreg, VReg.fresh]

theorem clear_srOp : Clear (floatForm [(2, 1)] (3, 1) false) srOp srTeam srGroup where
  core := rfl
  level h := nomatch h
  role := .inl rfl
  txn l _ th hth x hx := by
    have hmem : th ∈ srGroup.threads := List.mem_of_getElem? hth
    simp only [srGroup, Group.start, List.mem_map] at hmem
    obtain ⟨_, -, rfl⟩ := hmem
    cases hx
  ready l _ r hr := readiness_srGroup (by simp [floatForm, Form.plain, regsOf, regPlus] at hr; omega)
  free l _ r hr := by
    rw [readiness_srGroup (by simp [floatForm, Form.plain, regsOf, regPlus] at hr; omega)]
    decide
  stood h := nomatch h

/-- The generator of lane 0 at its start, seed 0 (09 R237). -/
def srSeed : Word := genStart 0 0 threadMix

theorem srNext_srSeed : srNext srSeed ≠ srSeed := by decide

/-- The row of FEXP2.S in the statement. -/
theorem fexp2S_of_convertDelivers (h : Obligations.ConvertDelivers) (rm : BitVec 3) (d a : Reg) : Delivers (.fexp2S rm d a)
    (floatForm [(a, 1)] (d, 1) false, fun i _ l => .float l 1 (fTrans .exp2 f32 rm (i.num a 1 l)) none) := by
  unfold Obligations.ConvertDelivers at h
  iterate 64 replace h := h.2
  exact h.1 rm d a

/-- The refutation stands on an instruction that no word holds: R119 gives FTR rm 0 to 4 only. -/
theorem decodeWord_ne_fexp2S_sr {w : Nat} (hw : w < 2 ^ 32) (d a : Reg) : decodeWord w ≠ some (.fexp2S 5 d a) :=
  fun h => Bool.false_ne_true (encodeDecodeAgree w _ hw h).2

/-- Refutes O36: FEXP2.S with rm 5 advances the generator of its lane (`delivers_transcendental`), and the row says that it does not. The
statement takes every rm field, also those that the decoder refuses (`decodeWord_ne_fexp2S_sr`). -/
theorem not_convertDelivers : ¬ Obligations.ConvertDelivers := by
  intro h
  have hdone := delivers_transcendental (j := .fexp2S 5 3 2) (form := floatForm [(2, 1)] (3, 1) false) (d := 3) (a := 2) (n := 1) (rm := 5)
    (f := fTrans .exp2 f32 5) (fun _ => rfl) rfl rfl rfl
  have hrng : srNext srSeed = srSeed :=
    rng_eq_of_delivers hdone (fexp2S_of_convertDelivers h 5 3 2) turn_srOp clear_srOp (l := 0) (by decide) rfl
  exact srNext_srSeed hrng

end Sys2Proof.Claims
end

