-- ==== Sys2Proof/Proofs/PoolRequests.lean ====
section
/-! POOL instructions (05 R131 to R142): what a new request does that finds its controllers free, and what QUERY, MAP and STAT read. -/

namespace Sys2Proof.Machine
open Sys2Proof

/-! ## A request that its controllers take (13 R309, R310) -/

section
variable {s : State} {r : PoolReq}

theorem State.takeReq_of_refuse {c : Nat} (h : s.testPool r r.wait r.sys = .refuse c) :
    s.takeReq r = (s.countPool r.team fun p => { p with refusals := bump p.refusals }, .answer c) := by
  simp only [State.takeReq, h]

theorem State.takeReq_of_granted (h : s.testPool r r.wait r.sys = .granted) :
    s.takeReq r = (s.countPool r.team fun p => { p with grants := bump p.grants }, .answer 0) := by
  simp only [State.takeReq, h]

theorem State.takeReq_of_pass {dest odd : Nat} {m : Bool} (h : s.testPool r r.wait r.sys = .pass dest odd m) :
    s.takeReq r = (s.beginPool r dest odd m, .began) := by
  simp only [State.takeReq, h]

variable {s1 : State} {ls : List Nat}

/-- A request answered at once: its lanes get the code. -/
theorem State.poolNew_of_answer {code : Nat} (hfree : s.poolBusy r.team = false) (h : s.takeReq r = (s1, .answer code)) :
    s.poolNew r ls = (s1, ls.map fun l => .write l [BitVec.ofNat 32 code]) := by
  simp only [State.poolNew, hfree, h, Bool.false_eq_true, if_false]

/-- A request that begins: its lanes stand at the instruction. -/
theorem State.poolNew_of_began (hfree : s.poolBusy r.team = false) (h : s.takeReq r = (s1, .began)) :
    s.poolNew r ls = (s1, ls.map fun l => .only l .stay) := by
  simp only [State.poolNew, hfree, h, Bool.false_eq_true, if_false]

end

/-- What the lanes of GROW or SHRINK do: those without a request make one, and the others stand. -/
def poolBody (grow : Bool) (role : BankRole) (d a b : Reg) (i : Iss) (s : State) : State × List LaneOut :=
  let waiting := s.poolPending i true
  let pending := s.poolPending i false
  let new := i.lanes.filter fun l => !pending.contains l
  let old := pending.map fun l => LaneOut.only l (if waiting.contains l then .wait (if grow then .poolGrow else .poolShrink) else .stay)
  if new.isEmpty then (s, old)
  else
    let r := s.poolNew (poolRequest grow role d a b i new) new
    (r.1, old ++ r.2)

theorem poolOp_eq (grow : Bool) (role : BankRole) (d a b : Reg) (s : State) : poolOp grow role d a b s =
    issue { Form.plain [(a, 1), (b, 1)] (some (d, 1)) .u with foehn := false, txn := false } (poolBody grow role d a b) s := rfl

/-- Lanes none of which has a request make one together. -/
theorem poolBody_of_new {grow : Bool} {role : BankRole} {d a b : Reg} {i : Iss} {s : State} (hsome : i.lanes.isEmpty = false)
    (hnew : s.poolPending i false = []) :
    poolBody grow role d a b i s = s.poolNew (poolRequest grow role d a b i i.lanes) i.lanes := by
  have hall : i.lanes.filter (fun l => !([] : List Nat).contains l) = i.lanes := List.filter_eq_self.mpr fun _ _ => rfl
  simp only [poolBody, hnew, hall, hsome, Bool.false_eq_true, if_false, List.map_nil, List.nil_append]

end Sys2Proof.Machine

namespace Sys2Proof.Claims
open Sys2Proof Machine

/-- GROW and SHRINK: the outcome of the claim is what TEST makes of the request of all lanes. -/
theorem runs_poolAsked {j : Instr} {grow : Bool} {role : BitVec 2} {d a b : Reg} (hj : ∀ s, exec j s = poolOp grow (roleOf role) d a b s) :
    Runs j (poolForm d a b) (poolAsked grow role d a b) := by
  refine runs_of ⟨_, fun s => (hj s).trans (poolOp_eq _ _ _ _ _ s), fun i s s1 outs he => ?_⟩
  unfold poolAsked at he
  obtain ⟨hready, htest⟩ := Option.ite_none_left_eq_some.mp he
  simp only [Bool.or_eq_true, not_or, Bool.not_eq_true, Bool.not_eq_false', List.isEmpty_iff] at hready
  obtain ⟨⟨hsome, hnew⟩, hfree⟩ := hready
  rw [poolBody_of_new (by simpa using hsome) hnew]
  split at htest
  · rename_i c hc
    exact (State.poolNew_of_answer hfree (State.takeReq_of_refuse hc)).trans (Option.some.inj htest)
  · rename_i hc
    exact (State.poolNew_of_answer hfree (State.takeReq_of_granted hc)).trans (Option.some.inj htest)
  · rename_i dest odd m hc
    exact (State.poolNew_of_began hfree (State.takeReq_of_pass hc)).trans (Option.some.inj htest)
  · cases htest

/-- Settles O47: a request is taken as TEST says (`runs_poolAsked`); QUERY, MAP and STAT change nothing. -/
theorem poolCompletes : Obligations.PoolCompletes :=
  ⟨fun _ _ _ _ => runs_poolAsked fun _ => rfl, fun _ _ _ _ => runs_poolAsked fun _ => rfl, fun _ _ => runs_turn_always fun _ => rfl,
    fun _ _ => runs_turn_always fun _ => rfl, fun _ => runs_turn_always fun _ => rfl⟩

end Sys2Proof.Claims
end

