-- ==== Sys2Proof/Proofs/Segments.lean ====
section
/-! Row segments of tiles: TRDR, TWRR and TLSF (05 R149) lane by lane. -/

namespace Sys2Proof.Claims
open Sys2Proof Machine

/-! ## The lanes of a row-segment instruction -/

/-- A pass over the lanes that takes each lane's effect brings what the lanes bring one by one. -/
theorem foldl_of_eachFrom {h : Iss → State → Nat → Option (State × LaneOut)} {i : Iss}
    {step : State × List LaneOut → Nat → State × List LaneOut}
    (hstep : ∀ s acc l s1 o, h i s l = some (s1, o) → step (s, acc) l = (s1, acc ++ [o])) :
    ∀ (ls : List Nat) (s : State) (acc : List LaneOut) (s1 : State) (outs : List LaneOut), eachFrom h i ls s = some (s1, outs) →
      ls.foldl step (s, acc) = (s1, acc ++ outs) := by
  intro ls
  induction ls with
  | nil =>
    intro s acc s1 outs he
    obtain ⟨rfl, rfl⟩ := Prod.mk.inj (Option.some.inj he)
    simp
  | cons l ls ih =>
    intro s acc s1 outs he
    unfold eachFrom at he
    split at he
    · rename_i s2 o hl
      obtain ⟨⟨s3, os⟩, hrest, heq⟩ := Option.map_eq_some_iff.mp he
      obtain ⟨rfl, rfl⟩ := Prod.mk.inj heq
      rw [List.foldl_cons, hstep s acc l s2 o hl, ih s2 (acc ++ [o]) _ _ hrest, List.append_assoc, List.singleton_append]
    · cases he

/-- Lanes each of which continues, all continue. -/
theorem ends_of_eachFrom {h : Iss → State → Nat → Option (State × LaneOut)} {i : Iss}
    (hnext : ∀ s l s1 o, h i s l = some (s1, o) → o.ends = .next) :
    ∀ (ls : List Nat) (s s1 : State) (outs : List LaneOut), eachFrom h i ls s = some (s1, outs) → ∀ o ∈ outs, o.ends = .next := by
  intro ls
  induction ls with
  | nil =>
    intro s s1 outs he
    obtain ⟨rfl, rfl⟩ := Prod.mk.inj (Option.some.inj he)
    exact fun _ h => nomatch h
  | cons l ls ih =>
    intro s s1 outs he
    unfold eachFrom at he
    split at he
    · rename_i s2 o hl
      obtain ⟨⟨s3, os⟩, hrest, heq⟩ := Option.map_eq_some_iff.mp he
      obtain ⟨rfl, rfl⟩ := Prod.mk.inj heq
      exact List.forall_mem_cons.mpr ⟨hnext s l s2 o hl, ih s2 _ _ hrest⟩
    · cases he

/-- What one lane brings: its registers `b` and that of the form `f` are ready, and `b` names a segment of tile `t` (R149). -/
def segmentAt (k : Nat) (b : Reg) (f : Form) (h : Iss → State → Nat → Machine.Tile → Nat → Nat → Option (State × LaneOut))
    (t : Machine.Tile) (i : Iss) (s : State) (l : Nat) : Option (State × LaneOut) :=
  if obstacle i.view (tForm rolesFloat [(b, 1)] none .g) l != .none || obstacle i.view f l != .none then none
  else match segment t k (i.view.reg b l) with
    | .ok (row, c0) => h i s l t row c0
    | .error _ => none

theorem of_segmentAt {k : Nat} {b : Reg} {f : Form} {h : Iss → State → Nat → Machine.Tile → Nat → Nat → Option (State × LaneOut)}
    {t : Machine.Tile} {i : Iss} {s s1 : State} {l : Nat} {o : LaneOut} (hl : segmentAt k b f h t i s l = some (s1, o)) :
    obstacle i.view (tForm rolesFloat [(b, 1)] none .g) l = .none ∧ obstacle i.view f l = .none ∧
      ∃ row c0, segment t k (i.view.reg b l) = .ok (row, c0) ∧ h i s l t row c0 = some (s1, o) := by
  obtain ⟨hfree, hseg⟩ := Option.ite_none_left_eq_some.mp hl
  simp only [Bool.or_eq_true, not_or, bne_iff_ne, ne_eq, not_not] at hfree
  split at hseg
  · rename_i row c0 hrow
    exact ⟨hfree.1, hfree.2, row, c0, hrow, hseg⟩
  · cases hseg

/-- Where a row-segment instruction completes: the team's banks stand still, its tile is there, and every lane brings its effect. -/
theorem of_onSegment {k : Sys2Proof.Tile} {b : Reg} {odd : Machine.Tile → Bool} {f : Machine.Tile → Form}
    {d : Machine.Tile → Option (Reg × Nat)} {h : Iss → State → Nat → Machine.Tile → Nat → Nat → Option (State × LaneOut)} {i : Iss}
    {s s1 : State} {outs : List LaneOut} (he : onSegment k b odd f d h i s = some (s1, outs)) :
    ∃ t s2, (s.team i.op.team).tileOf k.toNat = .ok t ∧ s.relocating i.op.team = false ∧ odd t = false ∧
      eachFrom (segmentAt k.toNat b (f t) h t) i i.lanes s = some (s2, outs) ∧
      (match d t with
        | some x => s2.modTeam i.op.team fun u => u.writeRegs i.op.grp i.op.base x.1 x.2 false .g outs
        | none => s2) = s1 := by
  unfold onSegment at he
  split at he
  · rename_i t ht
    obtain ⟨hgo, hlanes⟩ := Option.ite_none_left_eq_some.mp he
    simp only [Bool.or_eq_true, not_or, Bool.not_eq_true] at hgo
    obtain ⟨⟨s2, os⟩, heach, hout⟩ := Option.map_eq_some_iff.mp hlanes
    obtain ⟨hstate, rfl⟩ := Prod.mk.inj hout
    exact ⟨t, s2, ht, hgo.1, hgo.2, heach, hstate⟩
  · cases he

/-- A row-segment instruction whose lanes do what `h` says and continue (R149). -/
theorem runs_onSegment {j : Instr} {k : Sys2Proof.Tile} {b reg : Reg} {n : Machine.Tile → Nat} {odd : Machine.Tile → Bool} {dst : Bool}
    {body : Iss → State → Nat → Machine.Tile → Nat → Nat → State × LaneOut}
    {h : Iss → State → Nat → Machine.Tile → Nat → Nat → Option (State × LaneOut)}
    (hj : ∀ s, exec j s = segmentOp k.toNat b reg n odd dst body s)
    (hbody : ∀ i s l t row c0 s1 o, h i s l t row c0 = some (s1, o) → body i s l t row c0 = (s1, o) ∧ o.ends = .next) :
    Runs j (tForm rolesFloat [] none .g) (onSegment k b odd
      (fun t => if dst then tForm rolesFloat [] (some (reg, n t)) .g else tForm rolesFloat [(reg, n t)] none .g)
      (fun t => if dst then some (reg, n t) else none) h) := by
  refine runs_of ⟨_, fun s => by rw [hj]; delta segmentOp; exact rfl, fun i s s1 outs he => ?_⟩
  obtain ⟨t, s2, htile, hrel, hodd, heach, hstate⟩ := of_onSegment he
  have hnext : ∀ o ∈ outs, o.ends = .next := ends_of_eachFrom (fun s l s1 o hl => by
    obtain ⟨-, -, row, c0, -, hh⟩ := of_segmentAt hl
    exact (hbody i s l t row c0 s1 o hh).2) i.lanes s s2 outs heach
  have hgood : outs.filter (fun o => !o.ends.isFault) = outs := List.filter_eq_self.mpr fun o ho => by rw [hnext o ho]; rfl
  simp only [hrel, htile, hodd, Bool.false_eq_true, if_false]
  rw [foldl_of_eachFrom (fun s acc l s1 o hl => ?_) i.lanes s [] s2 outs heach]
  · rw [List.nil_append, hgood, ← hstate]
    cases dst <;> rfl
  · obtain ⟨hb, hreg, row, c0, hrow, hh⟩ := of_segmentAt hl
    have hb' : obstacle i.view (tileForm rolesFloat [(b, 1)] none .g) l = .none := hb
    have hreg' : obstacle i.view (if dst then tileForm rolesFloat [] (some (reg, n t)) .g else tileForm rolesFloat [(reg, n t)] none .g) l =
      .none := hreg
    simp only [hb', hreg', hrow, (hbody i s l t row c0 s1 o hh).1]

/-! ## TRDR, TWRR, TLSF -/

theorem runs_trdr (d : Reg) (a : Sys2Proof.Tile) (b : Reg) : Runs (.trdr d a b) (tForm rolesFloat [] none .g) (onSegment a b (oddPair · d)
      (fun t => tForm rolesFloat [] (some (d, segmentRegs t)) .g) (fun t => some (d, segmentRegs t)) fun i s l t row c0 =>
      let w := laneColumns t c0 l
      let bits := elemBits (shapeFmt t.shape)
      let mine := (Nat.min w.2 (shapeCols t.shape - w.1) * bits + 7) / 8
      if mine ≠ 0 ∧ (badWord (s.team i.op.team).pool.mxsErrs (t.off + elemOff t.shape row w.1) mine).isSome = true then none
      else
        let r := s.tileRead i.op.team t true [] (t.off + row * rowSize t.shape) (rowSize t.shape)
        let v := ((List.range w.2).map fun j =>
          if w.1 + j < shapeCols t.shape then elemAt t.shape r.2 0 (w.1 + j) * 2 ^ (bits * j) else 0).sum
        some (r.1, .write l (wordsOf (segmentRegs t) v))) := by
  refine runs_onSegment (dst := true) (n := segmentRegs) (fun s => by show execTrdr d a b s = _; delta execTrdr; exact rfl)
    fun i s l t row c0 s1 o h => ?_
  obtain ⟨hgood, hdone⟩ := Option.ite_none_left_eq_some.mp h
  obtain ⟨rfl, rfl⟩ := Prod.mk.inj (Option.some.inj hdone)
  refine ⟨?_, rfl⟩
  have hword : (if (Nat.min (laneColumns t c0 l).2 (shapeCols t.shape - (laneColumns t c0 l).1) * elemBits (shapeFmt t.shape) + 7) / 8 = 0
      then none else badWord (s.team i.op.team).pool.mxsErrs (t.off + elemOff t.shape row (laneColumns t c0 l).1)
        ((Nat.min (laneColumns t c0 l).2 (shapeCols t.shape - (laneColumns t c0 l).1) * elemBits (shapeFmt t.shape) + 7) / 8)) = none := by
    split
    · rfl
    · rename_i hne
      simpa [hne] using hgood
  dsimp only
  rw [hword]

theorem runs_twrr (d : Sys2Proof.Tile) (a b : Reg) : Runs (.twrr d a b) (tForm rolesFloat [] none .g) (onSegment d b (oddPair · a)
      (fun t => tForm rolesFloat [(a, segmentRegs t)] none .g) (fun _ => none) fun i s l t row c0 =>
        let w := laneColumns t c0 l
        let bits := elemBits (shapeFmt t.shape)
        let v := natOfWords (i.view.words a (segmentRegs t) l)
        let m := Nat.min w.2 (shapeCols t.shape - w.1)
        let off := t.off + elemOff t.shape row w.1
        let s1 := (List.range m).foldl (fun (st : State) (j : Nat) =>
          let s1 := st.elemWrite i.op.team t true row (w.1 + j) (v / 2 ^ (bits * j) % 2 ^ bits)
          if hasFlags t.shape then s1.modPool i.op.team fun p => p.setFlag (t.halfword row (w.1 + j)) false else s1) s
        some ((s1.modPool i.op.team fun p => { p with mxsErrs := recodeWords p.mxsErrs off (m * bits / 8) }).noteWrite i.op.team i.op.grp l
          false off ((m * bits + 7) / 8), .only l .next)) := by
  refine runs_onSegment (dst := false) (n := segmentRegs) (fun s => by show execTwrr d a b s = _; delta execTwrr; exact rfl)
    fun i s l t row c0 s1 o h => ?_
  obtain ⟨rfl, rfl⟩ := Prod.mk.inj (Option.some.inj h)
  exact ⟨rfl, rfl⟩

/-- A sum over the members of a list that pass a test. -/
theorem sum_map_filter (p : Nat → Bool) (f : Nat → Nat) (ls : List Nat) :
    ((ls.filter p).map f).sum = (ls.map fun j => if p j then f j else 0).sum := by
  induction ls with
  | nil => rfl
  | cons j r ih => cases h : p j <;> simp [h, ih]

theorem runs_tlsf (d : Reg) (a : Sys2Proof.Tile) (b : Reg) : Runs (.tlsf d a b) (tForm rolesFloat [] none .g) (onSegment a b (fun _ => false)
      (fun _ => tForm rolesFloat [] (some (d, 2)) .g) (fun _ => some (d, 2)) fun i s l t row c0 =>
      if (List.range 64).any fun j =>
          hasFlags t.shape && decide (c0 + j < shapeCols t.shape) && ((s.team i.op.team).engTouched t).any fun r =>
            decide (r.1 ≤ 2 * (t.off + elemOff t.shape row (c0 + j))) && decide (2 * (t.off + elemOff t.shape row (c0 + j)) < r.2) then none
      else
        let v := ((List.range 64).map fun j =>
          if c0 + j < shapeCols t.shape && hasFlags t.shape &&
            (s.team i.op.team).pool.flags.contains (t.halfword row (c0 + j)) then 2 ^ j else 0).sum
        some (s, .write l (wordsOf 2 v))) := by
  refine runs_onSegment (dst := true) (n := fun _ => 2) (fun s => by show execTlsf d a b s = _; delta execTlsf; exact rfl)
    fun i s l t row c0 s1 o h => ?_
  obtain ⟨hfree, hdone⟩ := Option.ite_none_left_eq_some.mp h
  obtain ⟨rfl, rfl⟩ := Prod.mk.inj (Option.some.inj hdone)
  refine ⟨?_, rfl⟩
  have hcols : (if hasFlags t.shape then (List.range 64).filter fun j => decide (c0 + j < shapeCols t.shape) else []) =
      (List.range 64).filter fun j => decide (c0 + j < shapeCols t.shape) && hasFlags t.shape := by
    cases hasFlags t.shape <;> simp
  have huntouched : ∀ j ∈ (List.range 64).filter (fun j => decide (c0 + j < shapeCols t.shape) && hasFlags t.shape),
      (((s.team i.op.team).engTouched t).any fun r =>
        decide (r.1 ≤ 2 * (t.off + elemOff t.shape row (c0 + j))) && decide (2 * (t.off + elemOff t.shape row (c0 + j)) < r.2)) = false := by
    intro j hj
    obtain ⟨hrange, hflag⟩ := List.mem_filter.mp hj
    rw [Bool.and_comm] at hflag
    have hj' := List.any_eq_false.mp (Bool.not_eq_true _ ▸ hfree) j hrange
    rw [hflag, Bool.true_and] at hj'
    exact Bool.eq_false_iff.mpr hj'
  dsimp only
  rw [hcols, List.any_eq_false.mpr fun j hj => Bool.eq_false_iff.mp (huntouched j hj)]
  simp only [Bool.false_eq_true, if_false]
  rw [List.map_congr_left fun j hj => by rw [huntouched j hj, if_neg Bool.false_ne_true], sum_map_filter]
  simp only [Bool.and_eq_true, ite_and]

/-- Settles O49: each lane's part is the body of its instruction (`runs_onSegment`). -/
theorem segmentCompletes : Obligations.SegmentCompletes := ⟨runs_trdr, runs_twrr, runs_tlsf⟩

end Sys2Proof.Claims
end

