-- ==== Sys2Proof/Proofs/EngineQueue.lean ====
section
/-! The matrix engine's queue: TLATCH, MFENCE, MWAIT, MCW, MCRD, MMA and MSEQ (05 R150 to R158). -/

namespace Sys2Proof.Machine
open Sys2Proof

/-! ## Ids of the queue (05 R151, R153) -/

/-- An id that the team's engine has issued. -/
def TeamEng.isIssued (e : TeamEng) (id : Word) : Bool := e.issuedAny && id != 0 && e.behind id != 0 && decide (e.behind id ≤ 2 ^ 31)

/-- An issued id at or before which an operation stands in the queue. -/
def TeamEng.holds (e : TeamEng) (id : Word) : Bool := e.isIssued id && e.queue.any fun o => upTo id o.id

/-- The oldest fault that an operation at or before an issued id has left. -/
def TeamEng.faultFor (e : TeamEng) (id : Word) : Option EngFault := e.faults.find? fun f => e.isIssued id && upTo id f.id

/-- An id that was never issued, or at or before which nothing is queued and no fault is kept. -/
def TeamEng.isDone (e : TeamEng) (id : Word) : Bool :=
  !e.isIssued id || (!(e.queue.any fun o => upTo id o.id) && !(e.faults.any fun f => upTo id f.id))

/-- What is covered and the faults that are kept, without those at or before some ids. -/
def TeamEng.waited (ids : List Word) (e : TeamEng) : TeamEng :=
  { e with covered := e.covered.filter (fun o => !ids.any fun id => upTo id o.id),
           faults := e.faults.filter fun f => !ids.any fun id => upTo id f.id }

theorem TeamEng.of_isDone {e : TeamEng} {id : Word} (h : e.isDone id = true) : e.holds id = false ∧ e.faultFor id = none := by
  unfold TeamEng.isDone at h
  unfold TeamEng.holds TeamEng.faultFor
  cases hissued : e.isIssued id with
  | false => simp
  | true =>
    rw [hissued, Bool.not_true, Bool.false_or, Bool.and_eq_true, Bool.not_eq_true', Bool.not_eq_true'] at h
    obtain ⟨hqueue, hfaults⟩ := h
    exact ⟨hqueue, by simpa using hfaults⟩

end Sys2Proof.Machine

namespace Sys2Proof.Claims
open Sys2Proof Machine

theorem runs_tlatch (d : Sys2Proof.Tile) : Runs (.tlatch d) (tForm rolesMatrix [] none .table) (onTile fun i s _ =>
      match (s.team i.op.team).tileOf d.toNat with
      | .ok t =>
        if tileBytes t.shape > 32768 || (s.team i.op.team).eng.isFull then none
        else some ((s.engIssue i.op.team (.tlatch t)).modEng i.op.team fun e => { e with latchIssued := some t })
      | .error _ => none) := by
  refine runs_onTile ⟨_, fun s => by show execTlatch d s = _; delta execTlatch; exact rfl, fun i s l s1 h => ?_⟩
  obtain ⟨t, ht, hf⟩ := of_onNamed (d := d) h
  obtain ⟨hroom, hdone⟩ := Option.ite_none_left_eq_some.mp hf
  simp only [Bool.or_eq_true, decide_eq_true_eq, not_or] at hroom
  obtain ⟨hsize, hfull⟩ := hroom
  rw [ht, ← Option.some.inj hdone]
  dsimp only [bind, Except.bind]
  rw [if_neg hsize, if_neg hfull]

theorem runs_mfence : Runs .mfence (tForm rolesAll [] none .table) (each fun i s l =>
      some (s.fenceWrites i.op.team i.op.grp l, .only l .next)) :=
  runs_of ⟨_, fun s => by show execMfence s = _; delta execMfence; exact rfl,
    fun _ _ _ _ he => each_eq (fun _ _ _ _ hl => Option.some.inj hl) he⟩

/-- A multiplication that passes its checks and finds room (R158). -/
theorem runs_multiply {j : Instr} {seq lat : Bool} {acc : BitVec 2} {d a b : Sys2Proof.Tile} (hj : ∀ s, exec j s = mma seq lat acc d a b s) :
    Runs j (tForm rolesMatrix [] none .table) (multiply seq lat acc d a b) := by
  refine runs_onTile ⟨_, fun s => by rw [hj]; delta mma; exact rfl, fun i s l s1 h => ?_⟩
  dsimp only at h ⊢
  split at h
  · rename_i ta tb td hcheck
    obtain ⟨hroom, hdone⟩ := Option.ite_none_left_eq_some.mp h
    rw [hcheck, ← Option.some.inj hdone]
    dsimp only [bind, Except.bind]
    rw [if_neg hroom]
  · cases h

/-- The reserved bits of MCR (R150). -/
theorem mcr_reserved_of_lt {v : Word} (h : v.toNat < 128) : v.extractLsb' 7 25 = 0 := by
  apply BitVec.eq_of_toNat_eq
  rw [BitVec.extractLsb'_toNat, Nat.shiftRight_eq_div_pow, Nat.div_eq_of_lt h]
  rfl

theorem runs_mcw (d a : Reg) : Runs (.mcw d a) (tForm rolesMatrix [(a, 1)] (some (d, 1)) .same) (each fun i s l =>
      let v := i.view.reg a l
      if v.toNat < 128 ∧ v.extractLsb' 0 3 ≠ 7 ∧ v.extractLsb' 3 3 ≠ 7 then
        some (s.modEng i.op.team fun e => { e with mcr := v }, .write l [(s.team i.op.team).eng.mcr])
      else none) := by
  refine runs_of ⟨_, fun s => by show execMcw d a s = _; delta execMcw; exact rfl, fun i s s1 outs he => each_eq (fun s l s1 o hl => ?_) he⟩
  obtain ⟨⟨hlow, hwin, hrm⟩, hdone⟩ := Option.ite_none_right_eq_some.mp hl
  dsimp only
  rw [if_neg (by simp only [mcr_reserved_of_lt hlow, hwin, hrm]; decide)]
  exact Option.some.inj hdone

/-! ## MWAIT (R153) -/

/-- The id that lane `l` of an MWAIT of register `b` waits for: z stands for the last one issued when the wait began. -/
def waitedId (b : Reg) (e : TeamEng) (i : Iss) (l : Nat) : Word :=
  match b.toNat, (i.thread l).wait with
  | 127, some (.mwait x) => x
  | 127, _ => e.last
  | _, _ => i.view.reg b l

/-- The same as MWAIT finds it. -/
def mwaitTarget (b : Reg) (e : TeamEng) (i : Iss) (l : Nat) : Word :=
  match (i.thread l).wait with
  | some (.mwait id) => if b.toNat = 127 then id else i.view.reg b l
  | _ => if b.toNat = 127 then e.last else i.view.reg b l

theorem mwaitTarget_eq (b : Reg) (e : TeamEng) (i : Iss) : mwaitTarget b e i = waitedId b e i := by
  funext l
  unfold mwaitTarget waitedId
  generalize b.toNat = n
  generalize (i.thread l).wait = w
  split
  · by_cases hz : n = 127
    · subst hz; rfl
    · rw [if_neg hz]
      split
      · exact absurd rfl hz
      · exact absurd rfl hz
      · rfl
  · rename_i hother
    by_cases hz : n = 127
    · subst hz
      rw [if_pos rfl]
      split
      · exact absurd rfl (hother _)
      · rfl
      · rename_i hz _
        exact absurd rfl hz
    · rw [if_neg hz]
      split
      · exact absurd rfl hz
      · exact absurd rfl hz
      · rfl

/-- What MWAIT does, its lanes waiting for the ids `target`. -/
def mwaitBody (target : TeamEng → Iss → Nat → Word) (i : Iss) (s : State) : State × List LaneOut :=
  let e := (s.team i.op.team).eng
  (s.modEng i.op.team (TeamEng.waited ((i.lanes.filter fun l => !e.holds (target e i l) && e.isIssued (target e i l)).map (target e i))),
    i.lanes.map fun l =>
      if e.holds (target e i l) then .only l (.wait (.mwait (target e i l)))
      else match e.faultFor (target e i l) with
        | some f => .only l (.fault f.cause 0 f.addr)
        | none => .only l .next)

theorem exec_mwait (b : Reg) (s : State) : exec (.mwait b) s = issue (tForm rolesAll [(b, 1)] none .table) (mwaitBody (waitedId b)) s := by
  rw [show waitedId b = mwaitTarget b from funext₂ fun e i => (mwaitTarget_eq b e i).symm]
  show execMwait b s = _
  delta execMwait
  exact rfl

/-- MWAIT of lanes whose ids are done. -/
theorem mwaitBody_of_done {target : TeamEng → Iss → Nat → Word} {i : Iss} {s : State} {e : TeamEng} (he : (s.team i.op.team).eng = e)
    (hdone : ∀ l ∈ i.lanes, e.isDone (target e i l) = true) :
    mwaitBody target i s = (s.modEng i.op.team (TeamEng.waited ((i.lanes.filter fun l => e.isIssued (target e i l)).map (target e i))),
      i.lanes.map fun l => .only l .next) := by
  have hids : i.lanes.filter (fun l => !e.holds (target e i l) && e.isIssued (target e i l)) =
      i.lanes.filter fun l => e.isIssued (target e i l) :=
    List.filter_congr fun l hl => by rw [(TeamEng.of_isDone (hdone l hl)).1, Bool.not_false, Bool.true_and]
  unfold mwaitBody
  simp only [he, hids]
  refine congrArg (Prod.mk _) (List.map_congr_left fun l hl => ?_)
  obtain ⟨hfree, hfault⟩ := TeamEng.of_isDone (hdone l hl)
  rw [hfree, hfault, if_neg Bool.false_ne_true]

theorem runs_mwait (b : Reg) : Runs (.mwait b) (tForm rolesAll [(b, 1)] none .table) (fun i s =>
      let e := (s.team i.op.team).eng
      if i.lanes.all fun l => e.isDone (waitedId b e i l) then
        some (s.modEng i.op.team (TeamEng.waited ((i.lanes.filter fun l => e.isIssued (waitedId b e i l)).map (waitedId b e i))),
          i.lanes.map fun l => .only l .next)
      else none) := by
  refine runs_of ⟨_, exec_mwait b, fun i s s1 outs he => ?_⟩
  obtain ⟨hall, hdone⟩ := Option.ite_none_right_eq_some.mp he
  exact (mwaitBody_of_done rfl (List.all_eq_true.mp hall)).trans (Option.some.inj hdone)

/-! ## MSEQ (R155) -/

theorem runs_mseq (d a : Reg) : Runs (.mseq d a) (tForm rolesMatrix [(a, 1)] (some (d, 1)) .g) (each (mseqAt a)) := by
  refine runs_of ⟨_, fun s => by show execMseq d a s = _; delta execMseq; exact rfl, fun i s s1 outs he => each_eq (fun s l s1 o hl => ?_) he⟩
  unfold mseqAt at hl
  obtain ⟨hstart, hl⟩ := Option.ite_none_left_eq_some.mp hl
  obtain ⟨hblock, hl⟩ := Option.ite_none_left_eq_some.mp hl
  simp only [Bool.or_eq_true, not_or, decide_eq_true_eq, Bool.not_eq_true, Bool.not_eq_false'] at hstart
  obtain ⟨⟨⟨⟨halign, hin⟩, hrel⟩, hfull⟩, hbad⟩ := hstart
  dsimp only at hl hblock ⊢
  simp only [halign, hin, hrel, hfull, hbad, hblock, Bool.not_true, Bool.false_eq_true, if_false]
  split at hl
  · cases hl
  · rename_i ta tb td hcheck
    rw [hcheck]
    dsimp only at hl ⊢
    split at hl
    · rename_i s2 pa hbar
      rw [hbar]
      exact Option.some.inj hl
    · cases hl

/-- Settles O50: each lane that finds room, or an id that is done, is the branch of its instruction that the claim names. -/
theorem engineQueueCompletes : Obligations.EngineQueueCompletes :=
  ⟨runs_tlatch, runs_mfence, runs_mwait, runs_mcw, fun _ _ => runs_turn_always fun _ => rfl, fun _ _ _ _ _ => runs_multiply fun _ => rfl,
    fun _ _ _ _ _ => runs_multiply fun _ => rfl, runs_mseq⟩

end Sys2Proof.Claims
end

