-- ==== Sys2Proof/Proofs/InternalWork.lean ====
section
/-! What the device does by itself: the phases of pool requests (13 R304, R310), the matrix engine (15 R352 to R360), engine commands (07 R207 to
R210), near-memory calls and walks (07 R212 to R218, 20 R411 to R425). -/

namespace Sys2Proof.Claims
open Sys2Proof Machine

/-! ## Pool requests -/

theorem brings_bankDrain (core : Nat) : Brings (.evBankDrain core) fun s => match s.reqOf core with
    | some r =>
      if r.phase != .drain || r.relocates then none
      else some ((((s.team r.team).cores.foldl (fun (st : State) (c : Nat) => st.drainCore c) s)).setPhase r .commit)
    | none => none := by
  intro s s' h
  dsimp only at h
  split at h
  case h_2 => cases h
  case h_1 r hr =>
    obtain ⟨hdrain, hdone⟩ := Option.ite_none_left_eq_some.mp h
    simp only [Bool.or_eq_true, bne, not_or, Bool.not_eq_true, Bool.not_eq_false'] at hdrain
    obtain ⟨hphase, hplace⟩ := hdrain
    show execEvBankDrain core s = _
    simp only [execEvBankDrain, hr, hphase, hplace, if_true, Bool.false_eq_true, if_false]
    exact next_of_some hdone

theorem brings_bankRelocation (core : Nat) : Brings (.evBankRelocation core) fun s => match s.reqOf core with
    | some r => match r.phase with
      | .move k =>
        if r.role == .mxs && k == 0 && !(s.team r.team).eng.queue.isEmpty then none
        else some (s.setPhase r (if k + 1 ≥ s.held r.team core r.role then .commit else .move (k + 1)))
      | _ => none
    | none => none := by
  intro s s' h
  dsimp only at h
  split at h
  case h_2 => cases h
  case h_1 r hr =>
    split at h
    case h_2 => cases h
    case h_1 k hmove =>
      obtain ⟨hidle, hdone⟩ := Option.ite_none_left_eq_some.mp h
      show execEvBankRelocation core s = _
      simp only [execEvBankRelocation, hr, hmove]
      rw [if_neg hidle, ← apply_ite Host.Outcome.next, ← apply_ite (s.setPhase r)]
      exact next_of_some hdone

theorem brings_shrinkQuiesce (core : Nat) : Brings (.evShrinkQuiesce core) fun s => match s.reqOf core with
    | some r => if r.phase == .quiesce && !s.releasedEmpty r then some (s.setPhase r .commit) else none
    | none => none := by
  intro s s' h
  dsimp only at h
  split at h
  case h_2 => cases h
  case h_1 r hr =>
    obtain ⟨hquiet, hdone⟩ := Option.ite_none_right_eq_some.mp h
    show execEvShrinkQuiesce core s = _
    simp only [execEvShrinkQuiesce, hr, if_pos hquiet]
    exact next_of_some hdone

theorem brings_poolCommit (core : Nat) : Brings (.evPoolCommit core) fun s => match s.reqOf core with
    | some r => if r.phase == .commit then some (s.commitPool r) else none
    | none => none := by
  intro s s' h
  dsimp only at h
  split at h
  case h_2 => cases h
  case h_1 r hr =>
    obtain ⟨hcommit, hdone⟩ := Option.ite_none_right_eq_some.mp h
    show execEvPoolCommit core s = _
    simp only [execEvPoolCommit, hr, if_pos hcommit]
    exact next_of_some hdone

/-! ## The matrix engine -/

theorem brings_tlatchPerform (tm : Nat) : Brings (.evTlatchPerform tm) fun s0 =>
    let s := (s0.engineHead tm).1
    match (s0.engineHead tm).2 with
    | o :: _ => match o.kind with
      | .tlatch t =>
        if ((s.team tm).tileBad t).isSome then none
        else
          let r := s.tileRead tm t false o.unseenMxs t.off (tileBytes t.shape)
          some ((r.1.modEng tm fun e => { e.retire with latch := some { shape := t.shape, data := memWrite [] 0 r.2 } }).engDone tm)
      | _ => none
    | [] => none := by
  intro s0 s' h
  dsimp only at h
  split at h
  case h_2 => cases h
  case h_1 o r hhead =>
    split at h
    case h_2 => cases h
    case h_1 t hkind =>
      obtain ⟨hgood, hdone⟩ := Option.ite_none_left_eq_some.mp h
      show execEvTlatchPerform tm s0 = _
      simp only [execEvTlatchPerform, hhead, hkind, Option.not_isSome_iff_eq_none.mp hgood]
      exact next_of_some hdone

theorem brings_mmaComplete (tm : Nat) : Brings (.evMmaComplete tm) fun s0 =>
    let s := (s0.engineHead tm).1
    match (s0.engineHead tm).2 with
    | o :: _ => match o.kind with
      | .mma seq acc (some a) b d =>
        if ((s.team tm).mmaBad acc a b d).isSome then none
        else some (((s.mmaPerform tm o.mcr seq acc a b d o.unseenMxs o.unseenMxs).modEng tm TeamEng.retire).engDone tm)
      | _ => none
    | [] => none := by
  intro s0 s' h
  dsimp only at h
  split at h
  case h_2 => cases h
  case h_1 o r hhead =>
    split at h
    case h_2 => cases h
    case h_1 seq acc a b d hkind =>
      obtain ⟨hgood, hdone⟩ := Option.ite_none_left_eq_some.mp h
      show execEvMmaComplete tm s0 = _
      simp only [execEvMmaComplete, hhead, hkind, Option.not_isSome_iff_eq_none.mp hgood]
      exact next_of_some hdone

theorem brings_mseqStep (tm : Nat) : Brings (.evMseqStep tm) fun s0 =>
    let s := (s0.engineHead tm).1
    match (s0.engineHead tm).2 with
    | o :: r => match o.kind with
      | .mseq blk off a b d k pa =>
        let f (x : Nat) : Nat := blockWord blk x
        let acc := if k = 0 then blockByte blk 7 / 4 % 4 else 0
        let rows (x : Machine.Tile) (o : Nat) : List (Int × Nat) := (List.range (shapeRows x.shape)).map fun (j : Nat) =>
          ((f o : Int) + k * sextInt 32 (f (o + 4)) + j * sextInt 32 (f (o + 8)), rowBytes x.shape)
        let ra := s.stepLoad tm a o.unseenScr (rows a 8)
        let rb := match b with
          | some x => ra.1.stepLoad tm x o.unseenScr (rows x 20)
          | none => (ra.1, none)
        if ra.2.isSome || rb.2.isSome || ((rb.1.team tm).stepFault acc a b d).isSome then none
        else
          let s3 := rb.1.mmaPerform tm o.mcr (blockByte blk 7 % 4 == 1) acc a b d [] (if k = 0 then o.unseenMxs else [])
          some (if k + 1 = f 0 then s3.mseqEnd tm o blk off pa none
            else s3.modEng tm fun e => { e with queue := { o with kind := .mseq blk off a b d (k + 1) pa } :: r })
      | _ => none
    | [] => none := by
  intro s0 s' h
  dsimp only at h
  split at h
  case h_2 => cases h
  case h_1 o r hhead =>
    split at h
    case h_2 => cases h
    case h_1 blk off a b d k pa hkind =>
      obtain ⟨hgood, hdone⟩ := Option.ite_none_left_eq_some.mp h
      simp only [Bool.or_eq_true, not_or, Option.not_isSome_iff_eq_none] at hgood
      obtain ⟨⟨ha, hb⟩, hd⟩ := hgood
      show execEvMseqStep tm s0 = _
      simp only [execEvMseqStep, hhead, hkind]
      generalize (s0.engineHead tm).1.stepLoad tm a _ _ = ra at ha hb hd hdone ⊢
      obtain ⟨s1, ea⟩ := ra
      obtain rfl : ea = none := ha
      cases b with
      | none =>
        dsimp only at hd hdone ⊢
        rw [hd]
        exact (apply_ite Host.Outcome.next _ _ _).symm.trans (next_of_some hdone)
      | some x =>
        dsimp only at hb hd hdone ⊢
        generalize s1.stepLoad tm x _ _ = rb at hb hd hdone ⊢
        obtain ⟨s2, eb⟩ := rb
        obtain rfl : eb = none := hb
        dsimp only at hd hdone ⊢
        rw [hd]
        exact (apply_ite Host.Outcome.next _ _ _).symm.trans (next_of_some hdone)

/-! ## Engine commands -/

theorem brings_cpyExecution (k : Nat) : Brings (.evCpyExecution k) fun s => match s.cmds[k]? with
    | some c =>
      if c.kind ≠ 0 || c.state != .queued || !s.mayStart k c then none
      else some (if c.cause = 0 ∧ c.pages < blockWord c.block 16 * blockWord c.block 20 then s.cpyPiece c else s.closeCmd c)
    | none => none := by
  intro s s' h
  dsimp only at h
  split at h
  case h_2 => cases h
  case h_1 c hc =>
    obtain ⟨hgo, hdone⟩ := Option.ite_none_left_eq_some.mp h
    show execEvCpyExecution k s = _
    simp only [execEvCpyExecution, hc, if_neg hgo, ← apply_ite Host.Outcome.next]
    exact next_of_some hdone

theorem brings_binExecution (k : Nat) : Brings (.evBinExecution k) fun s => match s.cmds[k]? with
    | some c =>
      if c.kind ≠ 1 || c.state != .queued || !s.mayStart k c then none
      else if c.pages ≠ 0 then some (s.binFinish c)
      else match s.engFetch c (Machine.fieldOf c.block 0 8) (4 * blockWord c.block 8) with
        | (s1, .data b) =>
          let counts := (wordList (blockWord c.block 8) b).foldl countKey (List.replicate (blockWord c.block 12) 0)
          let r := s1.engStore c (piecesOf (Machine.fieldOf c.block 16 8) (4 * counts.length)) (counts.flatMap (bytesOf 4))
          some (r.1.modCmd c.team c.id fun x => { x with pages := 1, started := true, acc := counts, cause := r.2.getD 0 })
        | _ => none
    | none => none := by
  intro s s' h
  dsimp only at h
  split at h
  case h_2 => cases h
  case h_1 c hc =>
    obtain ⟨hgo, h⟩ := Option.ite_none_left_eq_some.mp h
    show execEvBinExecution k s = _
    simp only [execEvBinExecution, hc, if_neg hgo]
    split at h
    · rename_i hlater
      rw [if_neg hlater]
      exact next_of_some h
    · rename_i hfirst
      rw [if_pos (not_not.mp hfirst)]
      split at h
      case h_2 => cases h
      case h_1 s1 b hfetch =>
        rw [hfetch]
        exact next_of_some h

theorem brings_migrationPage (k : Nat) : Brings (.evMigrationPage k) fun s => match s.cmds[k]? with
    | some c =>
      if c.kind ≠ 2 || c.state != .queued || !s.mayStart k c then none
      else if c.cause ≠ 0 ∨ (c.acc = [] ∧ c.pages ≥ blockWord c.block 8) then some (s.closeCmd c)
      else match s.migPage c with
        | (s1, .ok m) =>
          if s1.migWaits m then none
          else if c.acc = [] then (if s1.mem.changing.any (s1.migMark c m).meets then none else some (s1.migBegin c m))
          else some (if c.acc = [1] then s1.migLines c m else s1.migAcked c m)
        | _ => none
    | none => none := by
  intro s s' h
  dsimp only at h
  split at h
  case h_2 => cases h
  case h_1 c hc =>
    obtain ⟨hgo, h⟩ := Option.ite_none_left_eq_some.mp h
    show execEvMigrationPage k s = _
    simp only [execEvMigrationPage, hc, if_neg hgo]
    split at h
    · rename_i hover
      rw [if_pos hover]
      exact next_of_some h
    · rename_i hgoes
      rw [if_neg hgoes]
      split at h
      case h_2 => cases h
      case h_1 s1 m hpage =>
        obtain ⟨hfree, h⟩ := Option.ite_none_left_eq_some.mp h
        rw [hpage]
        dsimp only
        rw [if_neg hfree]
        split at h
        · rename_i hnew
          rw [if_pos hnew]
          obtain ⟨hmark, hdone⟩ := Option.ite_none_left_eq_some.mp h
          rw [if_neg hmark]
          exact next_of_some hdone
        · rename_i hpart
          rw [if_neg hpart]
          exact next_of_some h

/-! ## Near-memory calls and walks -/

theorem brings_callStart (k : Nat) : Brings (.evCallStart k) fun s => match s.calls[k]? with
    | some c =>
      if c.state != .submitted then none
      else if c.walk then
        if s.walksAhead k c = (false, 0) then
          some (s.modCall k fun c => { c with state := .running, used := s.foehnClock })
        else none
      else match s.foehnFor c with
        | some core =>
          if s.optimiserWaits c core || s.recordWaits c then none
          else match s.callRecord c with
            | (s1, none) => some (s1.startCall k c core)
            | _ => none
        | none => none
    | none => none := by
  intro s s' h
  dsimp only at h
  split at h
  case h_2 => cases h
  case h_1 c hc =>
    obtain ⟨hnew, h⟩ := Option.ite_none_left_eq_some.mp h
    show execEvCallStart k s = _
    simp only [execEvCallStart, hc, if_neg hnew]
    split at h
    · rename_i hwalk
      obtain ⟨hahead, hdone⟩ := Option.ite_none_right_eq_some.mp h
      rw [if_pos hwalk, hahead]
      exact next_of_some hdone
    · rename_i hcall
      rw [if_neg hcall]
      split at h
      case h_2 => cases h
      case h_1 core hcore =>
        obtain ⟨hfree, h⟩ := Option.ite_none_left_eq_some.mp h
        rw [hcore]
        dsimp only
        rw [if_neg hfree]
        split at h
        case h_2 => cases h
        case h_1 s1 hrecord =>
          rw [hrecord]
          exact next_of_some h

theorem brings_callCompletion (k : Nat) : Brings (.evCallCompletion k) fun s => match s.calls[k]? with
    | some c =>
      if (c.state != .ended && !s.callExited c) || c.optimiser.isSome || s.objectWaits c.barrier c.barPa ||
          s.backWaits (fun _ _ a => inExtents c.extents true a) then none
      else
        let s1 := (s.callRaces c).endCallTeam c
        let s3 := (({ s1 with calls := s1.calls.eraseIdx k } : State).l2EvictAll fun w => inExtents c.extents true w.pa).unpinAll c.ctx c.pins
        let s4 := if c.status = 0 then s3 else s3.barAgent c.caller c.ctx c.barrier c.barPa (.error 2 c.status)
        some ((s4.barAgent c.caller c.ctx c.barrier c.barPa (.arrive 1)).unpinBarrier c.ctx c.barrier c.barPa)
    | none => none := by
  intro s s' h
  dsimp only at h
  split at h
  case h_2 => cases h
  case h_1 c hc =>
    obtain ⟨hover, hdone⟩ := Option.ite_none_left_eq_some.mp h
    simp only [Bool.or_eq_true, not_or, Bool.not_eq_true, Option.isSome_eq_false_iff, Option.isNone_iff_eq_none] at hover
    obtain ⟨⟨⟨hended, hplain⟩, hobject⟩, hback⟩ := hover
    show execEvCallCompletion k s = _
    simp only [execEvCallCompletion, hc, hended, hplain, hobject, hback, Bool.or_self, Bool.false_eq_true, if_false]
    exact next_of_some hdone

theorem brings_callBudgetExpiry (k : Nat) : Brings (.evCallBudgetExpiry k) fun s => match s.calls[k]? with
    | some c =>
      if c.state != .running || s.foehnClock - c.used < c.budget then none
      else if c.walk then some ((s.refuseCall k 4).endAllBank c.stack)
      else
        let s1 := s.endCall c.team 4
        let hit (x : Call) : Bool := x.walk && x.stack == c.stack && x.state == .running && s.walkReads x c.core
        let s2 : State := { s1 with calls := s1.calls.map fun x => if hit x then { x with state := .ended, status := 4 } else x }
        some (((if s1.calls.any hit then s2.endAllBank c.stack else s2).modStack c.stack fun x => { x with
          computeOff := x.computeOff ++ [(c.core, c.team :: (s1.calls.filter hit).map (·.team))] }).invalidateShards c.stack c.core)
    | none => none := by
  intro s s' h
  dsimp only at h
  split at h
  case h_2 => cases h
  case h_1 c hc =>
    obtain ⟨hdue, h⟩ := Option.ite_none_left_eq_some.mp h
    show execEvCallBudgetExpiry k s = _
    simp only [execEvCallBudgetExpiry, hc, if_neg hdue, ← apply_ite Host.Outcome.next]
    split at h
    · rename_i hwalk
      rw [if_pos hwalk]
      exact next_of_some h
    · rename_i hcall
      rw [if_neg hcall]
      exact next_of_some h

theorem brings_walkRecord (stack : Nat) : Brings (.evWalkRecord stack) fun s =>
    match s.calls.findIdx? fun c => c.walk && c.stack == stack && c.state == .running with
    | none => none
    | some k => match s.calls[k]? with
      | none => none
      | some c =>
        if s.walkWaits c then none
        else if !(s.getStack stack).allBank then some (s.modStack stack fun x => { x with allBank := true })
        else some (match (s.endAllBank stack).walkRecord c with
          | (s1, none) =>
            if c.record + 1 ≥ Machine.fieldOf c.message 0 4 then s1.refuseCall k 0 else s1.modCall k fun c => { c with record := c.record + 1 }
          | (s1, some st) => s1.refuseCall k st) := by
  intro s s' h
  dsimp only at h
  split at h
  case h_1 => cases h
  case h_2 k hk =>
    split at h
    case h_1 => cases h
    case h_2 c hc =>
      obtain ⟨hfree, h⟩ := Option.ite_none_left_eq_some.mp h
      show execEvWalkRecord stack s = _
      simp only [execEvWalkRecord, hk, hc, if_neg hfree]
      split at h
      · rename_i hbegin
        rw [if_pos hbegin]
        exact next_of_some h
      · rename_i hunder
        rw [if_neg hunder, ← next_of_some h]
        generalize (s.endAllBank stack).walkRecord c = r
        obtain ⟨s1, bad⟩ := r
        cases bad with
        | some st => rfl
        | none => exact (apply_ite Host.Outcome.next _ _ _).symm

/-- Settles O58: each event, in the case that its claim names, is the branch of its meaning that brings that state. -/
theorem workHappens : Obligations.WorkHappens :=
  ⟨brings_bankDrain, brings_bankRelocation, brings_shrinkQuiesce, brings_poolCommit,
    brings_tlatchPerform, brings_mmaComplete, brings_mseqStep, brings_cpyExecution, brings_binExecution,
    brings_migrationPage, brings_callStart, brings_callCompletion, brings_callBudgetExpiry,
    fun _ _ => brings_of_next fun _ => rfl, brings_walkRecord⟩

end Sys2Proof.Claims
end

