-- ==== Sys2Proof/Proofs/AtomicRows.lean ====
section
/-! Atomics and reductions (06 R174 to R177) whose lanes all pass their checks. -/

namespace Sys2Proof.Claims

open Sys2Proof Machine

/-- Settles O39: each atomic issues lanes that step their location and bring its old value (`loadLanes_of_atomic`). -/
theorem atomicCompletes : Obligations.AtomicCompletes := by
  have hruns (op : AtomOp) (wide : Bool) (j : Reg → Reg → Reg → Instr) (hj : ∀ d a b s, exec (j d a b) s = atomic op wide d a b s) :
      ∀ d a b, Runs (j d a b) (atomForm op wide d a b) (atomEffect op wide d a b) :=
    fun d a b => (loadLanes_of_atomic (hj d a b)).runs
  refine ⟨?_, ?_, ?_, ?_, ?_, ?_, ?_, ?_, ?_, ?_, ?_, ?_, ?_, ?_, ?_, ?_, ?_, ?_, ?_, ?_, ?_, ?_, ?_, ?_, ?_, ?_, ?_, ?_, ?_, ?_, ?_, ?_⟩
  all_goals exact hruns _ _ _ fun _ _ _ _ => rfl

/-- Settles O40: each reduction issues lanes that make their contribution (`stepLanes_of_reduction`). -/
theorem reductionCompletes : Obligations.ReductionCompletes := by
  have hruns (code : Nat) (j : Reg → Reg → Instr) (hj : ∀ a b s, exec (j a b) s = reduction code a b s) :
      ∀ a b, Runs (j a b) (redForm code a b) (redEffect code a b) :=
    fun a b => (stepLanes_of_reduction (hj a b)).runs
  refine ⟨?_, ?_, ?_, ?_, ?_, ?_, ?_, ?_, ?_, ?_, ?_, ?_, ?_, ?_, ?_⟩
  all_goals exact hruns _ _ fun _ _ _ => rfl

end Sys2Proof.Claims
end

