-- ==== Sys2Proof/Proofs/BarriersAndFences.lean ====
section
/-! Barrier, meeting-point and ring instructions, fences, cache maintenance and region tokens (06 R180 to R201). -/

namespace Sys2Proof.Claims

open Sys2Proof Machine

/-! ## Meeting points and rings (06 R185 to R187) -/

/-- GSYNC and TSYNC of threads that arrive anew: no lane has been let go before. -/
theorem syncBody_of_syncPoint {k : WaitKind} {whole : Bool} {i : Iss} {s s1 : State} {outs : List LaneOut}
    (h : syncPoint k whole i s = some (s1, outs)) : syncBody k whole i s = (s1, outs) := by
  unfold syncPoint at h
  split at h
  · cases h
  rename_i hanew
  have hfreed : i.lanes.filter (fun l => (s.threadOf i l).wait == some k && !(s.threadOf i l).synced) = [] :=
    List.filter_eq_nil_iff.mpr fun l hl hfree => hanew (List.any_eq_true.mpr ⟨l, hl, (Bool.and_eq_true_iff.mp hfree).1⟩)
  have hnew : i.lanes.filter (fun l => !([] : List Nat).contains l) = i.lanes := List.filter_eq_self.mpr fun _ _ => rfl
  obtain ⟨hsome, h⟩ := Option.ite_none_left_eq_some.mp h
  unfold syncBody
  dsimp only
  rw [hfreed, hnew]
  generalize s.modGroup i.op.team i.op.grp _ = s2 at h ⊢
  generalize (if whole = true then (s2.team i.op.team).groups.all fun g => g.threads.all (Thread.atSync k)
    else (((s2.team i.op.team).groups[i.op.grp]?).map fun g => g.threads.all (Thread.atSync k)).getD false) = all at h ⊢
  generalize s2.loadsDue i.op.team _ = due at h ⊢
  have htest : ((!all || due) = true) ↔ ¬(all && !due) = true := by cases all <;> cases due <;> decide
  simp only [eq_false_of_ne_true hsome, Bool.not_false, Bool.true_and, htest] at h ⊢
  split at h
  · rename_i hopen
    rw [if_neg hopen, ← Option.some.inj h]
    refine Prod.ext rfl (List.map_congr_left fun l hl => ?_)
    rw [if_pos (List.contains_iff_mem.mpr hl)]
  · rename_i hshut
    rw [if_pos (not_not.mp hshut)]
    cases whole <;> exact Option.some.inj h

theorem runs_syncPoint {j : Instr} {k : WaitKind} {whole : Bool}
    (hj : ∀ s, exec j s = issue (mainForm [] none .g) (syncBody k whole) s) : Runs j (mainForm [] none .g) (syncPoint k whole) :=
  runs_of ⟨_, hj, fun _ _ _ _ he => syncBody_of_syncPoint he⟩

/-- What the function `f` of a ring instruction with sources `srcs` answers where `e` gives its outcome: the answer 1 of a form with sources
changes nothing, and every other answer is written with the object. -/
def RingAnswers (srcs : List (Reg × Nat)) (after : State → Nat → Nat → List Nat → State) (f : Iss → RingObj → Option (RingObj × Word))
    (e : Iss → RingObj → Option (Option (RingObj × Word × (State → Nat → Nat → List Nat → State)))) : Prop :=
  ∀ i r x, e i r = some x → match x with
    | none => srcs ≠ [] ∧ ∃ r', f i r = some (r', 1)
    | some (r', w, after') => f i r = some (r', w) ∧ after' = after ∧ (srcs = [] ∨ w ≠ 1)

theorem runs_onRing {j : Instr} {id : BitVec 3} {srcs : List (Reg × Nat)} {d : Reg} {f : Iss → RingObj → Option (RingObj × Word)}
    {after : State → Nat → Nat → List Nat → State} {e : Iss → RingObj → Option (Option (RingObj × Word × (State → Nat → Nat → List Nat → State)))}
    (hj : ∀ s, exec j s = ringOp id srcs d f after s) (hf : RingAnswers srcs after f e) :
    Runs j { mainForm srcs (some (d, 1)) .g with laneOp := true } (onRing id e) := by
  refine runs_of ⟨_, hj, fun i s s1 outs he => ?_⟩
  unfold onRing at he
  dsimp only at he ⊢
  split at he
  · cases he
  rename_i hready
  simp only [Bool.or_eq_true, not_or, Bool.not_eq_true, Bool.not_eq_false'] at hready
  obtain ⟨⟨hring, hrel⟩, hbad⟩ := hready
  simp only [hring, hrel, hbad, Bool.not_true, Bool.false_eq_true, if_false]
  generalize s.scrRead i.op.team (16 * id.toNat) 16 = r at he ⊢
  cases hout : e i (RingObj.ofBytes r.2) with
  | none => rw [hout] at he; cases he
  | some x =>
    have hx := hf _ _ _ hout
    rw [hout] at he
    cases x with
    | none =>
      obtain ⟨hsrcs, r', hfr⟩ := hx
      simp only [hfr, ← Option.some.inj he]
      rw [if_pos (by simpa using hsrcs)]
    | some y =>
      obtain ⟨r', w, after'⟩ := y
      obtain ⟨hfr, rfl, hw⟩ := hx
      simp only [hfr, ← Option.some.inj he]
      rw [if_neg]
      rcases hw with rfl | hw <;> simp_all

theorem runs_ringa (d : Reg) (id : BitVec 3) : Runs (.ringa d id) ({ mainForm [] (some (d, 1)) .g with laneOp := true }) (onRing id fun _ r =>
    if r.slot r.pi = 0 then some (some ({ r.set r.pi 1 with pi := (r.pi + 1) % r.depth }, r.word r.pi, fun s _ _ _ => s)) else none) := by
  refine runs_onRing (j := .ringa d id) (fun s => by show execRinga d id s = _; delta execRinga; exact rfl) fun _ r x hx => ?_
  obtain ⟨hslot, hx⟩ := Option.ite_none_right_eq_some.mp hx
  obtain rfl := Option.some.inj hx
  exact ⟨if_pos hslot, rfl, .inl rfl⟩

theorem runs_ringw (d : Reg) (id : BitVec 3) : Runs (.ringw d id) ({ mainForm [] (some (d, 1)) .g with laneOp := true }) (onRing id fun _ r =>
    if r.slot r.ci = 2 then
      some (some ({ r.set r.ci 3 with ci := (r.ci + 1) % r.depth }, r.word r.ci, fun s t g _ => s.acquireTeam t g))
    else none) := by
  refine runs_onRing (j := .ringw d id) (fun s => by show execRingw d id s = _; delta execRingw; exact rfl) fun _ r x hx => ?_
  obtain ⟨hslot, hx⟩ := Option.ite_none_right_eq_some.mp hx
  obtain rfl := Option.some.inj hx
  exact ⟨if_pos hslot, rfl, .inl rfl⟩

theorem runs_ringf (d a : Reg) (id : BitVec 3) : Runs (.ringf d a id) ({ mainForm [(a, 1)] (some (d, 1)) .g with laneOp := true })
    (onRing id fun i r =>
      let k := (i.view.reg a (i.lanes.headD 0)).toNat % 256
      some (if r.slot k = 1 then some (r.set k 2, 0, fun s t g ls => s.relLanes t g ls) else none)) := by
  refine runs_onRing (j := .ringf d a id) (fun s => by show execRingf d a id s = _; delta execRingf; exact rfl) fun _ r x hx => ?_
  obtain rfl := Option.some.inj hx
  split_ifs with hslot
  · exact ⟨if_pos hslot, rfl, .inr (by decide)⟩
  · exact ⟨List.cons_ne_nil _ _, r, if_neg hslot⟩

theorem runs_ringe (d a : Reg) (id : BitVec 3) : Runs (.ringe d a id) ({ mainForm [(a, 1)] (some (d, 1)) .g with laneOp := true })
    (onRing id fun i r =>
      let k := (i.view.reg a (i.lanes.headD 0)).toNat % 256
      some (if r.slot k = 3 then
          some ({ r.set k 0 with phases := Nat.xor r.phases (2 ^ k) % 256 }, 0, fun s t g ls => s.relLanes t g ls)
        else none)) := by
  refine runs_onRing (j := .ringe d a id) (fun s => by show execRinge d a id s = _; delta execRinge; exact rfl) fun _ r x hx => ?_
  obtain rfl := Option.some.inj hx
  split_ifs with hslot
  · exact ⟨if_pos hslot, rfl, .inr (by decide)⟩
  · exact ⟨List.cons_ne_nil _ _, r, if_neg hslot⟩

/-- Settles O42: the object instructions step their object lane by lane, the meeting points let their threads wait or go, and the rings write
the object of a slot in the state that they need. -/
theorem barrierCompletes : Obligations.BarrierCompletes :=
  ⟨fun _ _ _ => (stepLanes_binit _ _ _).runs, fun _ _ _ => (stepLanes_arrive _ _ _).runs, fun _ _ _ => (stepLanes_arriveb _ _ _).runs,
    fun _ _ => (stepLanes_expect _ _).runs, fun _ _ _ => (stepLanes_bwait _ _ _).runs, fun _ _ _ => (stepLanes_btest _ _ _).runs,
    runs_syncPoint fun _ => rfl, runs_syncPoint fun _ => rfl, runs_ringa, runs_ringf, runs_ringw, runs_ringe⟩

/-! ## Fences (06 R188 to R190) -/

/-- One lane of a fence: a release half that does not wait, then the acquire half. -/
theorem runs_fence {j : Instr} {scope : BitVec 2} (acq : Bool) (hj : ∀ s, exec j s = fence true acq scope s) :
    Runs j (mainForm [] none .g) (each fun i s l => fenceReleased scope i s l fun s1 => if acq then s1.fenceAcq i scope.toNat else s1) := by
  refine runs_of ⟨_, hj, fun i s s1 outs he => each_eq (fun s l s1 o h => ?_) he⟩
  obtain ⟨hdue, h⟩ := Option.ite_none_left_eq_some.mp h
  obtain ⟨hsys, h⟩ := Option.ite_none_left_eq_some.mp h
  dsimp only
  rw [if_neg (by simpa using hdue), if_neg (by simpa using hsys)]
  exact Option.some.inj h

/-- Lanes that always have their effect. -/
theorem runs_each {j : Instr} {f : Form} {k : Iss → State → Nat → State × LaneOut} (hj : ∀ s, exec j s = issue f (eachLane k) s) :
    Runs j f (each fun i s l => some (k i s l)) :=
  runs_of ⟨_, hj, fun _ _ _ _ he => each_eq (fun _ _ _ _ h => Option.some.inj h) he⟩

/-- Settles O43: each fence has its release half, which does not wait, and its acquire half in every lane. -/
theorem fenceCompletes : Obligations.FenceCompletes :=
  ⟨fun _ => runs_each fun _ => rfl, fun _ => runs_fence false fun _ => rfl, fun _ => runs_fence true fun _ => rfl,
    fun _ => runs_fence true fun _ => rfl, runs_each fun _ => rfl⟩

/-! ## Cache maintenance (06 R195 to R197) -/

theorem runs_onRange {j : Instr} {a b : Reg} {f : Iss → State → Nat → Nat → State} (hj : ∀ s, exec j s = cacheOp a b f s) :
    Runs j (rangeForm a b) (onRange a b f) :=
  runs_each hj

/-- Settles O44: each lane's range of bytes, where it is not empty, has the operation done on it. -/
theorem maintenanceCompletes : Obligations.MaintenanceCompletes :=
  ⟨fun _ _ => runs_onRange fun _ => rfl, fun _ _ => runs_onRange fun _ => rfl, fun _ _ => runs_onRange fun _ => rfl,
    fun _ _ => runs_onRange fun _ => rfl, fun _ _ => runs_onRange fun _ => rfl, runs_turn_always fun _ => rfl⟩

/-! ## Region tokens (06 R198 to R201) -/

/-- A token instruction answers on a region whose page translates. -/
theorem runs_onRegion {j : Instr} {d a : Reg} {bs : List (Reg × Nat)} {f : Iss → State → Nat → TbEntry → State × Except LaneEnd Word}
    {e : Iss → State → Nat → TbEntry → Option (State × Word)} (hj : ∀ s, exec j s = regnOp d a bs f s)
    (hf : ∀ i s k x s1 w, e i s k x = some (s1, w) → f i s k x = (s1, .ok w)) : Runs j (tokenForm d a bs) (onRegion a e) := by
  refine runs_of ⟨_, hj, fun i s s1 outs he => ?_⟩
  unfold onRegion at he
  dsimp only at he ⊢
  split at he
  · cases he
  rename_i hva
  obtain ⟨halign, hcanon⟩ := not_or.mp hva
  rw [if_neg halign, if_neg (by simpa using hcanon)]
  generalize s.translate i.team.ctx (i.view.pair a (i.lanes.headD 0)) = r at he ⊢
  obtain ⟨s2, x | c | x⟩ := r
  all_goals try cases he
  obtain ⟨⟨s3, w⟩, hout, hdone⟩ := Option.map_eq_some_iff.mp he
  dsimp only
  rw [hf _ _ _ _ _ _ hout]
  exact hdone

theorem runs_acqr (d a b : Reg) : Runs (.acqr d a b) (tokenForm d a [(b, 1)]) (onRegion a fun i s k e =>
    if i.lanes.any fun l => (s.threadOf i l).wait == some (.acqr k) then none
    else if e.attr != attrIP then some (s, 5)
    else if (s.tokenOf (s.asidOf i.team.ctx) (k * regionSize)).bind (·.holder) == some i.op.team then some (s, 3)
    else if (s.tokens.filter fun t => t.die == tokenDie k e).length ≥ 4096 then some (s, 2)
    else match s.tokenOf (s.asidOf i.team.ctx) (k * regionSize) with
      | none => some ((s.setToken { die := tokenDie k e, asid := s.asidOf i.team.ctx, region := k, holder := some i.op.team,
                                    waiters := [] }).tokenAcquire i.op.team, 0)
      | some _ => if (i.view.reg b (i.lanes.headD 0)).getLsbD 0 then none else some (s, 1)) := by
  refine runs_onRegion (fun s => by show execAcqr d a b s = _; delta execAcqr; exact rfl) fun i s k e s1 w h => ?_
  obtain ⟨hanew, h⟩ := Option.ite_none_left_eq_some.mp h
  rw [Bool.not_eq_true] at hanew
  simp only [hanew, Bool.false_and, Bool.not_false, Bool.true_and, Bool.false_eq_true, if_false, decide_eq_true_eq]
  split at h
  · rename_i hip
    cases h
    rw [if_pos hip]
  rename_i hip
  rw [if_neg hip]
  split at h
  · rename_i hmine
    cases h
    rw [if_pos hmine]
  rename_i hmine
  rw [if_neg hmine]
  split at h
  · rename_i hfull
    cases h
    rw [if_pos hfull]
  rename_i hfull
  rw [if_neg hfull]
  generalize s.tokenOf (s.asidOf i.team.ctx) (k * regionSize) = x at h ⊢
  cases x with
  | none => cases h; rfl
  | some x =>
    obtain ⟨hpoll, h⟩ := Option.ite_none_left_eq_some.mp h
    cases h
    dsimp only
    rw [if_pos (by simpa using hpoll)]

theorem runs_relr (d a : Reg) : Runs (.relr d a) (tokenForm d a []) (onRegion a fun i s k e =>
    if e.attr != attrIP then some (s, 5)
    else match s.tokenOf (s.asidOf i.team.ctx) (k * regionSize) with
      | some t => if t.holder == some i.op.team then some ((s.tokenRelease i t).freeToken t, 0) else some (s, 4)
      | none => some (s, 4)) := by
  refine runs_onRegion (fun s => by show execRelr d a s = _; delta execRelr; exact rfl) fun i s k e s1 w h => ?_
  split at h
  · rename_i hip
    cases h
    rw [if_pos hip]
  rename_i hip
  rw [if_neg hip]
  generalize s.tokenOf (s.asidOf i.team.ctx) (k * regionSize) = x at h ⊢
  cases x with
  | none => cases h; rfl
  | some t =>
    dsimp only at h ⊢
    split_ifs at h ⊢ <;> (cases h; rfl)

theorem runs_qryr (d a : Reg) : Runs (.qryr d a) (tokenForm d a []) (onRegion a fun i s k _ =>
    match (s.tokenOf (s.asidOf i.team.ctx) (k * regionSize)).bind (·.holder) with
    | some h => some (s, BitVec.ofNat 32 ((if h == i.op.team then 1 else 2) + 256 * (s.team h).index))
    | none => some (s, 0)) := by
  refine runs_onRegion (fun s => by show execQryr d a s = _; delta execQryr; exact rfl) fun i s k e s1 w h => ?_
  generalize (s.tokenOf (s.asidOf i.team.ctx) (k * regionSize)).bind (·.holder) = x at h ⊢
  cases x <;> (cases h; rfl)

theorem runs_givr (d a b : Reg) : Runs (.givr d a b) (tokenForm d a [(b, 1)]) (onRegion a fun i s k e =>
    if e.attr != attrIP then some (s, 5)
    else match s.tokenOf (s.asidOf i.team.ctx) (k * regionSize) with
      | none => some (s, 4)
      | some t =>
        if t.holder != some i.op.team then some (s, 4)
        else match s.liveTeam i.team.handle (i.view.reg b (i.lanes.headD 0)).toNat with
          | (s1, none) => some (s1, 6)
          | (s1, some dest) =>
            some (((((s1.tokenRelease i t).setToken { t with holder := some dest, waiters := t.waiters.filter (· != dest) }).tokenAcquire
              dest).tokenWake k), 0)) := by
  refine runs_onRegion (fun s => by show execGivr d a b s = _; delta execGivr; exact rfl) fun i s k e s1 w h => ?_
  split at h
  · rename_i hip
    cases h
    rw [if_pos hip]
  rename_i hip
  rw [if_neg hip]
  generalize s.tokenOf (s.asidOf i.team.ctx) (k * regionSize) = x at h ⊢
  cases x with
  | none => cases h; rfl
  | some t =>
    dsimp only at h ⊢
    split at h
    · rename_i hholder
      cases h
      rw [if_pos hholder]
    rename_i hholder
    rw [if_neg hholder]
    generalize s.liveTeam i.team.handle (i.view.reg b (i.lanes.headD 0)).toNat = r at h ⊢
    obtain ⟨s2, _ | dest⟩ := r <;> (cases h; rfl)

/-- Settles O45: each token instruction answers on its region as the tests of its rule fall (`runs_onRegion`). -/
theorem tokenCompletes : Obligations.TokenCompletes := ⟨runs_acqr, runs_relr, runs_qryr, runs_givr⟩

end Sys2Proof.Claims
end

