-- ==== Sys2Proof/Proofs/Transactions.lean ====
section
/-! Transactions (06 R191 to R194): their instructions, the accesses that abort them, and the faults and instructions that do. -/

namespace Sys2Proof.Claims

open Sys2Proof Machine

/-! ## TBEGIN, TEND, TABORT, TSTAT -/

theorem runs_tbegin (d a : Reg) : Runs (.tbegin d a) ({ memForm [(a, 2)] (some (d, 1)) .table with foehn := false }) (each fun i s l =>
    some (if (s.threadOf i l).txn.isSome then (s, .only l (.abort 4))
      else if i.view.pair a l % 4 ≠ 0 then (s, .fault l cMisaligned (i.view.pair a l))
      else (s.setTxn i l { handler := BitVec.ofNat 64 (i.view.pair a l), dst := d, reads := [], writes := [], lines := [], count := 0 },
        .write l [0]))) :=
  runs_each fun s => by show execTbegin d a s = _; delta execTbegin; exact rfl

/-- The end that TEND gives a lane, as its own result. -/
def laneEnded (c : Nat × LaneEnd) : LaneOut := .only c.1 c.2

/-- The commits of a TEND, gathered as it goes. -/
theorem foldl_commitLane (i : Iss) (kept : List (Nat × Txn)) (s : State) (outs : List LaneOut) :
    kept.foldl (fun (r : State × List LaneOut) (k : Nat × Txn) =>
      let (t, e) := r.1.commitLane i k.1 k.2
      (t, r.2 ++ [LaneOut.only k.1 e])) (s, outs) = ((commits i kept s).1, outs ++ (commits i kept s).2.map laneEnded) := by
  induction kept generalizing s outs with
  | nil => simp [commits]
  | cons k r ih =>
    obtain ⟨l, x⟩ := k
    rw [List.foldl_cons, ih]
    simp [commits, laneEnded]

theorem find_laneEnded (ends : List (Nat × LaneEnd)) (l : Nat) :
    ((ends.map laneEnded).find? fun o => o.lane == l).getD (.only l .next) = .only l (((ends.find? fun x => x.1 == l).map (·.2)).getD .next) := by
  rw [List.find?_map]
  have hsame : (fun o : LaneOut => o.lane == l) ∘ laneEnded = fun x => x.1 == l := rfl
  rw [hsame]
  cases hx : ends.find? fun x => x.1 == l with
  | none => rfl
  | some x =>
    obtain rfl : x.1 = l := by simpa using List.find?_some hx
    rfl

theorem runs_tend : Runs .tend ({ memForm [] none .table with foehn := false }) (fun i s =>
    let held := i.lanes.filterMap fun l => (s.threadOf i l).txn.map fun x => (l, x)
    let c := commits i (intra [] held).1 s
    some (c.1, i.lanes.map fun l =>
      .only l (if (intra [] held).2.contains l then .abort 1 else ((c.2.find? fun x => x.1 == l).map (·.2)).getD .next))) := by
  refine runs_of ⟨_, fun s => by show execTend s = _; delta execTend; exact rfl, fun i s s1 outs he => ?_⟩
  obtain ⟨rfl, rfl⟩ := Prod.mk.inj (Option.some.inj he)
  dsimp only
  rw [foldl_commitLane]
  refine Prod.ext rfl (List.map_congr_left fun l _ => ?_)
  rw [List.nil_append, find_laneEnded]
  exact (apply_ite (LaneOut.only l) _ _ _).symm

theorem runs_tabort (b : Reg) : Runs (.tabort b) ({ memForm [(b, 1)] none .table with foehn := false }) (still (fun _ _ => true) fun i l =>
    if (i.thread l).txn.isSome then .only l (.abort (7 + 256 * ((i.view.reg b l).toNat % 256))) else .only l .next) :=
  runs_still fun _ => rfl

theorem runs_tstat (d : Reg) : Runs (.tstat d) ({ memForm [] (some (d, 1)) .same with foehn := false }) (still (fun _ _ => true) fun i l =>
    .write l [if (i.thread l).txn.isSome then 1 else 0]) :=
  runs_still fun _ => rfl

/-! ## The commit of a lane (06 R193) -/

theorem validate_cons {s s1 s2 : State} {i : Iss} {va pa : Nat} {w : Word} {r : List (Nat × Word)} {b : List Byte}
    (hpa : s.txnPa i va = (s1, some pa)) (hread : s1.homeRead (s1.asidOf i.team.ctx) va pa 4 true = (s2, .ok b)) :
    s.validate i ((va, w) :: r) = if BitVec.ofNat 32 (natOf b) = w then s2.validate i r else (s2, some 2) := by
  simp only [State.validate, hpa, hread]

section
variable {s s0 s1 : State} {i : Iss} {l c : Nat} {x : Txn}
  (hgo : (x.reads.map (·.1) ++ x.writes.map (·.1)).any (s.txnWaits i) = false)
include hgo

theorem commitLane_of_conflict (hlock : s.lockable i x.writes = (s0, true))
    (hbad : (s0.relDev i.op.team i.op.grp l).validate i x.reads = (s1, some c)) :
    s.commitLane i l x = ((s0.validate i x.reads).1, .abort c) := by
  simp only [State.commitLane, hgo, Bool.false_eq_true, if_false, hlock, hbad, if_true]

theorem commitLane_of_unlocked (hlock : s.lockable i x.writes = (s0, false)) :
    s.commitLane i l x = ((s0.validate i x.reads).1, .abort 5) := by
  simp only [State.commitLane, hgo, Bool.false_eq_true, if_false, hlock]

end

/-! ## Accesses that abort a transaction (06 R192) -/

/-- A store inside a transaction that stops it. -/
theorem txnWrite_of_stops {s : State} {i : Iss} {l va : Nat} {p : Spot} {bs : List Byte} {x : Txn} {c : Nat}
    (h : txnStoreEnds x va bs p = some c) : txnWrite s i l va p bs x = (s, .abort c) := by
  unfold txnWrite txnSpot
  cases p with
  | scr off => cases h; rfl
  | extent pa => cases h
  | reg r => cases h
  | page attr pa =>
    simp only [txnStoreEnds] at h
    simp only [Bool.or_eq_true, beq_iff_eq]
    split at h
    · rename_i hattr
      cases h
      rw [if_pos hattr]
    rename_i hattr
    rw [if_neg hattr]
    split at h
    · rename_i hfar
      cases h
      rw [if_neg hfar]
    rename_i hfar
    rw [if_pos (not_not.mp hfar)]
    dsimp only
    obtain ⟨hfits, h⟩ := Option.ite_none_left_eq_some.mp h
    cases h
    rw [if_neg hfits]

theorem stepLanes_txnStore {j : Instr} {pol : BitVec 2} {w : BitVec 3} {d a : Reg} {srcs : List (Reg × Nat)} {addr : Iss → Nat → Nat × Nat}
    (hj : ∀ s, exec j s = storeTo pol w d a srcs addr s) :
    StepLanes j (memForm srcs none .table) (txnStoreStops w d a pol addr) (storeAt pol w d a addr) := by
  refine ⟨memStoreLane pol w d a addr, fun s => (hj s).trans (by rw [storeTo_eq]), fun i s l s1 o h => ?_, fun i s l s1 o h => ?_⟩
  · unfold txnStoreStops at h
    unfold memStoreLane
    generalize s.check i l (addr i l).1 a (addr i l).2 ((askStore (widthBytes w.toNat)).policy (s.polOf i l pol)) = c at h ⊢
    obtain ⟨s2, e | p⟩ := c
    · cases h
    dsimp only at h ⊢
    generalize (s2.threadOf i l).txn = x at h ⊢
    cases x with
    | none => cases h
    | some x =>
      obtain ⟨c, hc, hdone⟩ := Option.map_eq_some_iff.mp h
      cases hdone
      cases p with
      | reg r => cases hc
      | _ => dsimp only; rw [txnWrite_of_stops hc]
  · unfold memStoreLane
    unfold storeAt at h
    generalize s.check i l (addr i l).1 a (addr i l).2 ((askStore (widthBytes w.toNat)).policy (s.polOf i l pol)) = c at h ⊢
    obtain ⟨s2, e | p⟩ := c
    · cases h
    · dsimp only at h ⊢
      obtain ⟨hnext, hdone⟩ := Option.ite_none_right_eq_some.mp h
      cases hdone
      exact Prod.ext rfl (congrArg (LaneOut.only l) hnext)

/-- A load inside a transaction that stops it. -/
theorem txnRead_of_stops {w : BitVec 3} {a : Reg} {pol : BitVec 2} {addr : Iss → Nat → Nat × Nat} {i : Iss} {s s1 s2 : State} {l : Nat}
    {p : Spot} {x : Txn} {o : LaneOut}
    (hcheck : s.check i l (addr i l).1 a (addr i l).2 ((askLoad (widthBytes w.toNat)).policy (s.polOf i l pol)) = (s1, .ok p))
    (hx : (s1.threadOf i l).txn = some x) (h : txnLoadStops w a pol addr i s l = some (s2, o)) :
    ∃ c, txnRead s1 i l (addr i l).1 (widthBytes w.toNat) p x = (s2, .ends (.abort c)) ∧ o = .only l (.abort c) := by
  simp only [txnLoadStops, hcheck, hx] at h
  unfold txnRead txnSpot
  cases p with
  | scr off => cases h; exact ⟨6, rfl, rfl⟩
  | extent pa => cases h
  | reg r => cases h
  | page attr pa =>
    simp only [Bool.or_eq_true, beq_iff_eq]
    dsimp only at h
    split at h
    · rename_i hattr
      cases h
      exact ⟨6, by rw [if_pos hattr], rfl⟩
    rename_i hattr
    rw [if_neg hattr]
    split at h
    · rename_i hfar
      cases h
      exact ⟨3, by rw [if_neg hfar], rfl⟩
    rename_i hfar
    rw [if_pos (not_not.mp hfar)]
    dsimp only
    obtain ⟨hready, h⟩ := Option.ite_none_left_eq_some.mp h
    obtain ⟨hfits, h⟩ := Option.ite_none_left_eq_some.mp h
    cases h
    exact ⟨3, by rw [if_neg hready, if_neg hfits], rfl⟩

theorem memLoadLane_of_loadAt {pol : BitVec 2} {w : BitVec 3} {a : Reg} {addr : Iss → Nat → Nat × Nat} {i : Iss} {s s1 : State} {l : Nat}
    {y : LoadLane} (h : loadAt pol w a addr i s l = some (s1, y)) : memLoadLane pol w a addr i s l = (s1, .ok y) := by
  unfold memLoadLane
  unfold loadAt at h
  generalize s.check i l (addr i l).1 a (addr i l).2 ((askLoad (widthBytes w.toNat)).policy (s.polOf i l pol)) = c at h ⊢
  obtain ⟨s2, e | p⟩ := c
  · cases h
  dsimp only at h ⊢
  generalize (s2.threadOf i l).txn = x at h ⊢
  cases x <;>
  · dsimp only at h ⊢
    split at h
    · rename_i b hb; cases h; rw [hb]; rfl
    · rename_i c hb; cases h; rw [hb]; rfl
    · cases h

theorem loadLanes_txnLoad {j : Instr} {pol : BitVec 2} {w : BitVec 3} {d a : Reg} {srcs : List (Reg × Nat)} {addr : Iss → Nat → Nat × Nat}
    (hj : ∀ s, exec j s = loadFrom pol w d a srcs addr s) :
    LoadLanes j (memForm srcs (some (d, widthRegs w.toNat)) .g) d w (txnLoadStops w a pol addr) (loadAt pol w a addr) := by
  refine ⟨memLoadLane pol w a addr, fun s => (hj s).trans (by rw [loadFrom_eq]), fun i s l s1 o h => ?_, fun _ _ _ _ _ => memLoadLane_of_loadAt⟩
  unfold memLoadLane
  cases hcheck : s.check i l (addr i l).1 a (addr i l).2 ((askLoad (widthBytes w.toNat)).policy (s.polOf i l pol)) with
  | mk s2 r =>
    cases r with
    | error e => simp only [txnLoadStops, hcheck] at h; cases h
    | ok p =>
      cases hx : (s2.threadOf i l).txn with
      | none => simp only [txnLoadStops, hcheck, hx] at h; cases h
      | some x =>
        obtain ⟨c, hread, ho⟩ := txnRead_of_stops hcheck hx h
        exact ⟨.abort c, by simp only [hx, hread, loadLane], ho⟩

/-! ## Instructions and faults that abort (06 R192) -/

/-- An operation of whose lanes none may execute it inside its transaction: each aborts with CAPACITY. -/
theorem issue_aborting {s : State} {op : Op} {t : Team} {g : Group} (ht : Turn s op t g) {f : Form}
    (hcore : (if t.onFoehn then f.foehn else f.main) = true) (hlevel : f.priv = true → op.sys = true)
    (hrole : op.sys = true ∨ f.roles g.role = true) (hlane : f.laneOp = false)
    (hfull : ∀ l ∈ lanesOf op.lanes, g.inTxn l = true ∧ (f.txn = false ∨ g.txnFull l = true))
    (body : Iss → State → State × List LaneOut) :
    issue f body s = .next (s.finish op ((lanesOf op.lanes).map fun l => .only l (.abort 3))) := by
  have hhas : ¬(if t.onFoehn then !f.foehn else !f.main) = true := by
    rw [← apply_ite, hcore]; simp
  have hpriv : ¬(f.priv && !op.sys) = true := by
    cases h : f.priv with
    | false => simp
    | true => simp [hlevel h]
  have hruns : ¬(!op.sys && !f.roles g.role) = true := by
    rcases hrole with h | h <;> simp [h]
  have haborts : (lanesOf op.lanes).filter (fun l => g.inTxn l && (!f.txn || g.txnFull l)) = lanesOf op.lanes := by
    refine List.filter_eq_self.mpr fun l hl => ?_
    obtain ⟨hin, h | h⟩ := hfull l hl <;> simp [hin, h]
  have hrest : (lanesOf op.lanes).filter (fun l => !(lanesOf op.lanes).contains l) = [] :=
    List.filter_eq_nil_iff.mpr fun l hl => by simpa using hl
  simp only [issue, ht.cur, ht.team, ht.group, if_neg ht.some, if_neg hhas, if_neg hpriv, if_neg hruns, haborts, hrest, hlane,
    List.map_nil, List.filter_nil, List.filterMap_nil, List.isEmpty_nil, List.nil_append, Bool.not_true, Bool.false_eq_true, if_false, if_true]
  rfl

/-- Faults of lanes inside transactions abort these with FAULT, and nothing else. -/
theorem finish_faults_in_txn {s : State} {op : Op} {t : Team} {g : Group} {e : Nat → LaneEnd} (ht : Turn s op t g) (hkind : t.kind ≠ .call)
    (hin : ∀ l ∈ lanesOf op.lanes, g.inTxn l = true ∧ (e l).isFault = true) :
    s.finish op ((lanesOf op.lanes).map fun l => .only l (e l)) = s.finish op ((lanesOf op.lanes).map fun l => .only l (.abort 5)) := by
  have hcall : (t.kind == .call) = false := by simpa using hkind
  have habort : ((lanesOf op.lanes).map fun l => LaneOut.only l (e l)).map
      (fun o => if o.ends.isFault && g.inTxn o.lane then { o with ends := .abort 5 } else o) =
      ((lanesOf op.lanes).map fun l => LaneOut.only l (.abort 5)).map
      (fun o => if o.ends.isFault && g.inTxn o.lane then { o with ends := .abort 5 } else o) := by
    rw [List.map_map, List.map_map]
    refine List.map_congr_left fun l hl => ?_
    obtain ⟨htxn, hfault⟩ := hin l hl
    exact if_pos (by rw [show (LaneOut.only l (e l)).ends.isFault = true from hfault]; exact htxn)
  unfold State.finish
  simp only [ht.team, ht.group, hcall, Bool.false_and, Bool.false_eq_true, if_false, habort]

/-- Settles O41: the four instructions, the commit of a lane, the accesses that abort, and the instructions and faults that do. -/
theorem transactionCompletes : Obligations.TransactionCompletes :=
  ⟨runs_tbegin, runs_tend, fun _ _ _ _ _ _ _ _ _ => validate_cons, fun _ _ _ _ _ _ _ => commitLane_of_conflict,
    fun _ _ _ _ _ => commitLane_of_unlocked, fun _ _ _ _ _ => (stepLanes_txnStore fun _ => rfl).runs_among,
    fun _ _ _ _ => (stepLanes_txnStore fun _ => rfl).runs_among, fun _ _ _ _ _ => (loadLanes_txnLoad fun _ => rfl).runs_among,
    fun _ _ _ _ => (loadLanes_txnLoad fun _ => rfl).runs_among,
    fun _ _ _ _ _ body ht hcore hlevel hrole hlane hfull => issue_aborting ht hcore hlevel hrole hlane hfull body,
    fun _ _ _ _ _ => finish_faults_in_txn, runs_tabort, runs_tstat⟩

end Sys2Proof.Claims
end

