-- ==== Sys2Proof/Proofs/Bytes.lean ====
section
/-! Bytes in the lists of memory (06 R165), and numbers as little-endian bytes. -/

namespace Sys2Proof.Machine

open Sys2Proof

/-! ## Byte lists -/

theorem memRead_length (m : Mem) (a n : Nat) : (memRead m a n).length = n := by
  induction n generalizing a with
  | zero => rfl
  | succ n ih => rw [memRead, List.length_cons, ih]

/-- A write leaves the bytes outside it. -/
theorem memGet_memWrite_outside {m : Mem} {a x : Nat} {bs : List Byte} (hm : memWfFrom 0 m = true) (hx : ¬(a ≤ x ∧ x < a + bs.length)) :
    memGet (memWrite m a bs) x = memGet m x := by
  induction bs generalizing m a with
  | nil => rfl
  | cons b r ih =>
    rw [List.length_cons] at hx
    rw [memWrite, ih (memSet_wf (Nat.zero_le a) hm) (by omega), memGet_memSet hm, if_neg (by omega)]

/-- What is written is read back. -/
theorem memRead_memWrite {m : Mem} {a : Nat} {bs : List Byte} (hm : memWfFrom 0 m = true) :
    memRead (memWrite m a bs) a bs.length = bs := by
  induction bs generalizing m a with
  | nil => rfl
  | cons b r ih =>
    have hset := memSet_wf (b := b) (Nat.zero_le a) hm
    have hfirst : memGet (memWrite (memSet m a b) (a + 1) r) a = b := by
      rw [memGet_memWrite_outside hset (by omega), memGet_memSet hm, if_pos rfl]
    rw [List.length_cons, memRead, memWrite, hfirst, ih hset]

/-! ## Little-endian bytes -/

theorem bytesOf_length (n v : Nat) : (bytesOf n v).length = n := by
  induction n generalizing v with
  | zero => rfl
  | succ n ih => rw [bytesOf, List.length_cons, ih]

theorem natOf_bytesOf (n v : Nat) : natOf (bytesOf n v) = v % 256 ^ n := by
  induction n generalizing v with
  | zero => rw [bytesOf, natOf, pow_zero, Nat.mod_one]
  | succ n ih =>
    rw [bytesOf, natOf, ih, BitVec.toNat_ofNat, pow_succ' 256 n, Nat.mod_mul]

end Sys2Proof.Machine

namespace Sys2Proof.Claims

open Sys2Proof Machine

/-- Settles O22, by induction on the bytes written. -/
theorem memoryReadAfterWrite : Obligations.MemoryReadAfterWrite :=
  fun _ _ _ hm => ⟨memRead_memWrite hm, fun _ => memGet_memWrite_outside hm⟩

end Sys2Proof.Claims
end

