-- ==== Sys2Proof/Proofs/ScratchWrites.lean ====
section
/-! Writes to a team's scratch (06 R171, R173, R186, 05 R157): a write changes the bytes it covers, and whole the elements of an uncovered MSEQ that
it covers in part; where nothing else shares its bytes it is a plain write. -/

namespace Sys2Proof.Machine

open Sys2Proof

/-! ## Undefined bytes -/

theorem freeBytes_state (s : State) (n : Nat) : ∃ c, (s.freeBytes n).2 = { s with freeCtr := c } := by
  induction n generalizing s with
  | zero => exact ⟨s.freeCtr, rfl⟩
  | succ n ih =>
    obtain ⟨c, hc⟩ := ih s.free.2
    exact ⟨c, hc⟩

theorem freeBytes_length (s : State) (n : Nat) : (s.freeBytes n).1.length = n := by
  induction n generalizing s with
  | zero => rfl
  | succ n ih => rw [State.freeBytes, List.length_cons, ih]

theorem freeRange_state (s : State) (lo hi a : Nat) (bs : List Byte) : ∃ c, (freeRange s lo hi a bs).1 = { s with freeCtr := c } := by
  induction bs generalizing s a with
  | nil => exact ⟨s.freeCtr, rfl⟩
  | cons b r ih =>
    by_cases hin : lo ≤ a ∧ a < hi
    · obtain ⟨c, hc⟩ := ih s.free.2 (a + 1)
      refine ⟨c, ?_⟩
      rw [freeRange, if_pos hin]
      exact hc
    · rw [freeRange, if_neg hin]
      exact ih s (a + 1)

theorem freeRange_length (s : State) (lo hi a : Nat) (bs : List Byte) : (freeRange s lo hi a bs).2.length = bs.length := by
  induction bs generalizing s a with
  | nil => rfl
  | cons b r ih => rw [freeRange, List.length_cons, List.length_cons, ih]

/-- Bytes at addresses outside the range stay. -/
theorem freeRange_apart {s : State} {lo hi a : Nat} {bs : List Byte} (h : ∀ x, lo ≤ x → x < hi → ¬(a ≤ x ∧ x < a + bs.length)) :
    freeRange s lo hi a bs = (s, bs) := by
  induction bs generalizing a with
  | nil => rfl
  | cons b r ih =>
    have hout : ¬(lo ≤ a ∧ a < hi) := fun hin => h a hin.1 hin.2 ⟨Nat.le_refl a, by rw [List.length_cons]; omega⟩
    have hrest : freeRange s lo hi (a + 1) r = (s, r) := ih fun x hlo hhi hx => h x hlo hhi ⟨by omega, by rw [List.length_cons]; omega⟩
    rw [freeRange, if_neg hout]
    simp only [hrest]

/-- Ranges made undefined one after another change the counter of undefined values, and keep the number of bytes. -/
theorem foldl_freeRange {α : Type} (lo hi : α → Nat) (off : Nat) (xs : List α) (s : State) (bs : List Byte) :
    ∃ c bs', bs'.length = bs.length ∧
      xs.foldl (fun (r : State × List Byte) (x : α) => freeRange r.1 (lo x) (hi x) off r.2) (s, bs) = ({ s with freeCtr := c }, bs') := by
  induction xs generalizing s bs with
  | nil => exact ⟨s.freeCtr, bs, rfl, rfl⟩
  | cons x xs ih =>
    obtain ⟨c, hc⟩ := freeRange_state s (lo x) (hi x) off bs
    obtain ⟨c', bs', hlen, hxs⟩ := ih (freeRange s (lo x) (hi x) off bs).1 (freeRange s (lo x) (hi x) off bs).2
    exact ⟨c', bs', hlen.trans (freeRange_length _ _ _ _ _), hxs.trans (by rw [hc])⟩

/-- Where none of the ranges shares a byte, nothing becomes undefined. -/
theorem foldl_freeRange_apart {α : Type} {lo hi : α → Nat} {off : Nat} {xs : List α} {s : State} {bs : List Byte}
    (h : ∀ x ∈ xs, ∀ y, lo x ≤ y → y < hi x → ¬(off ≤ y ∧ y < off + bs.length)) :
    xs.foldl (fun (r : State × List Byte) (x : α) => freeRange r.1 (lo x) (hi x) off r.2) (s, bs) = (s, bs) := by
  induction xs with
  | nil => rfl
  | cons x xs ih =>
    rw [List.foldl_cons, freeRange_apart (h x List.mem_cons_self)]
    exact ih fun y hy => h y (List.mem_cons_of_mem x hy)

/-! ## What a write to scratch leaves alone -/

/-- A change of the scratch of team `tm` in the bytes that `p` names: memory, the cores, what has landed and every other team stay, and of the
team's scratch every other byte. -/
structure ScratchOnly (tm : Nat) (p : Nat → Prop) (s s' : State) : Prop where
  mem : s'.mem = s.mem
  landed : s'.landed = s.landed
  cores : s'.cores = s.cores
  others : ∀ k, k ≠ tm → s'.teams[k]? = s.teams[k]?
  count : s'.teams.length = s.teams.length
  groups : (s'.team tm).groups.length = (s.team tm).groups.length
  team : s'.team tm = { s.team tm with
    groups := (s'.team tm).groups, place := (s'.team tm).place, leaving := (s'.team tm).leaving,
    pool := { (s.team tm).pool with
      scr := (s'.team tm).pool.scr, scrTags := (s'.team tm).pool.scrTags, scrErrs := (s'.team tm).pool.scrErrs } }
  wf : memWfFrom 0 (s.team tm).pool.scr = true → memWfFrom 0 (s'.team tm).pool.scr = true
  bytes : memWfFrom 0 (s.team tm).pool.scr = true → ∀ x, ¬p x → memGet (s'.team tm).pool.scr x = memGet (s.team tm).pool.scr x

theorem ScratchOnly.of_teams {tm : Nat} {p : Nat → Prop} {s s' : State} (hmem : s'.mem = s.mem) (hlanded : s'.landed = s.landed)
    (hcores : s'.cores = s.cores) (hteams : s'.teams = s.teams) : ScratchOnly tm p s s' := by
  have hteam : s'.team tm = s.team tm := by rw [State.team, hteams, State.team]
  exact ⟨hmem, hlanded, hcores, fun _ _ => by rw [hteams], by rw [hteams], by rw [hteam], by rw [hteam], by rw [hteam]; exact id,
    by rw [hteam]; exact fun _ _ _ => rfl⟩

theorem ScratchOnly.refl (tm : Nat) (p : Nat → Prop) (s : State) : ScratchOnly tm p s s := .of_teams rfl rfl rfl rfl

theorem ScratchOnly.trans {tm : Nat} {p : Nat → Prop} {a b c : State} (hab : ScratchOnly tm p a b) (hbc : ScratchOnly tm p b c) :
    ScratchOnly tm p a c where
  mem := hbc.mem.trans hab.mem
  landed := hbc.landed.trans hab.landed
  cores := hbc.cores.trans hab.cores
  others k hk := (hbc.others k hk).trans (hab.others k hk)
  count := hbc.count.trans hab.count
  groups := hbc.groups.trans hab.groups
  team := by rw [hbc.team, hab.team]
  wf h := hbc.wf (hab.wf h)
  bytes h x hx := (hbc.bytes (hab.wf h) x hx).trans (hab.bytes h x hx)

theorem ScratchOnly.mono {tm : Nat} {p q : Nat → Prop} {s s' : State} (h : ScratchOnly tm p s s') (hpq : ∀ x, p x → q x) :
    ScratchOnly tm q s s' :=
  { h with bytes := fun hm x hx => h.bytes hm x fun hp => hx (hpq x hp) }

theorem team_modTeam {s : State} {tm : Nat} {t : Team} (h : s.teams[tm]? = some t) (f : Team → Team) : (s.modTeam tm f).team tm = f t := by
  rw [State.team, State.modTeam_teams, modAt_getElem?, if_pos rfl, h, Option.map_some, Option.getD_some]

theorem team_of_getElem? {s : State} {tm : Nat} {t : Team} (h : s.teams[tm]? = some t) : s.team tm = t := by
  rw [State.team, h, Option.getD_some]

/-- A change of the team alone, of which the scratch of its pool differs in the bytes that `p` names. -/
theorem ScratchOnly.of_modTeam {tm : Nat} {p : Nat → Prop} {f : Team → Team}
    (hf : ∀ t, f t = { t with groups := (f t).groups, place := (f t).place, leaving := (f t).leaving,
                              pool := { t.pool with scr := (f t).pool.scr, scrTags := (f t).pool.scrTags, scrErrs := (f t).pool.scrErrs } })
    (hgroups : ∀ t, (f t).groups.length = t.groups.length)
    (hwf : ∀ t, memWfFrom 0 t.pool.scr = true → memWfFrom 0 (f t).pool.scr = true)
    (hbytes : ∀ t, memWfFrom 0 t.pool.scr = true → ∀ x, ¬p x → memGet (f t).pool.scr x = memGet t.pool.scr x) (s : State) :
    ScratchOnly tm p s (s.modTeam tm f) := by
  cases h : s.teams[tm]? with
  | none =>
    rw [State.modTeam_eq_self fun t ht => by rw [h] at ht; cases ht]
    exact .refl tm p s
  | some t =>
    have hteam := team_modTeam h f
    rw [← team_of_getElem? h] at hteam
    exact ⟨rfl, rfl, rfl, fun _ => modAt_getElem?_ne, modAt_length _ _, by rw [hteam]; exact hgroups _,
      by rw [hteam]; exact hf _, by rw [hteam]; exact hwf _, by rw [hteam]; exact hbytes _⟩

/-- Bytes written to the pool of the team. -/
theorem ScratchOnly.modPool {tm : Nat} {p : Nat → Prop} {f : TeamPool → TeamPool} {off : Nat} {bs : List Byte}
    (hf : ∀ q, f q = { q with scr := memWrite q.scr off bs, scrTags := (f q).scrTags, scrErrs := (f q).scrErrs })
    (hp : ∀ x, off ≤ x → x < off + bs.length → p x) (s : State) : ScratchOnly tm p s (s.modPool tm f) := by
  have hscr (q : TeamPool) : (f q).scr = memWrite q.scr off bs := by rw [hf]
  refine .of_modTeam (f := fun t => { t with pool := f t.pool }) (fun t => ?_) (fun _ => rfl) (fun t hm => ?_) (fun t hm x hx => ?_) s
  · dsimp only
    rw [hscr, ← hf]
  · dsimp only
    rw [hscr]
    exact memWrite_wf (Nat.zero_le _) hm
  · dsimp only
    rw [hscr]
    exact memGet_memWrite_outside hm fun hin => hx (hp x hin.1 hin.2)

/-- A change that wakes the team, as one that waits out, and leaves its pool. -/
theorem wakeScratch_eq (s : State) (tm off n : Nat) :
    s.wakeScratch tm off n = s ∨ s.wakeScratch tm off n = s.modTeam tm fun t => if t.watched then t.queue else t := by
  unfold State.wakeScratch
  split
  · dsimp only
    split
    · exact .inr rfl
    · exact .inl rfl
  · exact .inl rfl

theorem Team.queue_eq (t : Team) : t.queue = { t with place := t.queue.place, leaving := t.queue.leaving } := by
  unfold Team.queue
  split <;> rfl

theorem woken_eq (t : Team) : ∃ p l, (if t.watched then t.queue else t) = { t with place := p, leaving := l } := by
  split
  · exact ⟨_, _, t.queue_eq⟩
  · exact ⟨t.place, t.leaving, rfl⟩

theorem ScratchOnly.wakeScratch (s : State) (tm off n : Nat) (p : Nat → Prop) : ScratchOnly tm p s (s.wakeScratch tm off n) := by
  rcases wakeScratch_eq s tm off n with h | h
  · rw [h]
    exact .refl tm p s
  · rw [h]
    refine .of_modTeam (fun t => ?_) (fun t => ?_) (fun t hm => ?_) (fun t hm x hx => ?_) s
    all_goals
      obtain ⟨q, l, hq⟩ := woken_eq t
      rw [hq]
    exact hm

/-! ## A thread's store -/

theorem taintCopies_state (tm off n : Nat) (s : State) (cs : List Copy) :
    ∃ c l, (taintCopies tm off n s cs).1 = { s with freeCtr := c, links := l } := by
  induction cs generalizing s with
  | nil => exact ⟨s.freeCtr, s.links, rfl⟩
  | cons x r ih =>
    unfold taintCopies
    dsimp only
    split
    · obtain ⟨c, hc⟩ := freeRange_state s off (off + n) x.scrOff x.data
      split
      · obtain ⟨c', l, h⟩ := ih (freeRange s off (off + n) x.scrOff x.data).1
        exact ⟨c', l, h.trans (by rw [hc])⟩
      · obtain ⟨c', l, h⟩ := ih { (freeRange s off (off + n) x.scrOff x.data).1 with links := _ }
        exact ⟨c', l, h.trans (by rw [hc])⟩
    · exact ih s

/-- The source of a landed copy that the write does not touch, or that has none here. -/
theorem spoilDest_apart {s : State} {tm off n : Nat} {x : Landed} (h : x.copy.toScr = false → x.copy.touches tm off n = false) :
    s.spoilDest tm off n x = s := by
  refine if_pos ?_
  cases hto : x.copy.toScr with
  | true => rfl
  | false => rw [h hto]; rfl

theorem landedFree_state (s : State) (tm off : Nat) (bs : List Byte) :
    ∃ c bs', bs'.length = bs.length ∧ s.landedFree tm off bs = ({ s with freeCtr := c }, bs') :=
  foldl_freeRange _ _ off _ s bs

theorem ScratchOnly.engSpoil (s : State) (tm off n : Nat) {p : Nat → Prop}
    (hp : ∀ r ∈ (s.team tm).engScr.filterMap fun x => rowTouched x off n, ∀ x, r.1 ≤ x → x < r.2 → p x) :
    ScratchOnly tm p s (s.engSpoil tm off n) := by
  unfold State.engSpoil
  generalize (s.team tm).engScr.filterMap (fun x => rowTouched x off n) = rows at hp ⊢
  induction rows generalizing s with
  | nil => exact .refl tm p s
  | cons r rows ih =>
    obtain ⟨c, hc⟩ := freeBytes_state s (r.2 - r.1)
    rw [List.foldl_cons]
    refine ScratchOnly.trans ?_ (ih _ fun q hq => hp q (List.mem_cons_of_mem r hq))
    dsimp only
    rw [hc]
    have hcount : ScratchOnly tm p s { s with freeCtr := c } := .of_teams rfl rfl rfl rfl
    refine hcount.trans (.modPool (off := r.1) (fun _ => rfl) (fun x hlo hhi => ?_) _)
    rw [freeBytes_length] at hhi
    exact hp r List.mem_cons_self x hlo (by omega)

/-- The bytes that a write of `n` bytes at `off` may change: its own, and whole the elements that an uncovered MSEQ reads and it covers in part. -/
def written (t : Team) (off n x : Nat) : Prop :=
  (off ≤ x ∧ x < off + n) ∨ ∃ r ∈ t.engScr.filterMap fun y => rowTouched y off n, r.1 ≤ x ∧ x < r.2

theorem ScratchOnly.engScr {tm : Nat} {p : Nat → Prop} {s s' : State} (h : ScratchOnly tm p s s') :
    (s'.team tm).engScr = (s.team tm).engScr := by
  rw [h.team]
  rfl

theorem ScratchOnly.written_eq {tm : Nat} {p : Nat → Prop} {s s' : State} (h : ScratchOnly tm p s s') :
    written (s'.team tm) = written (s.team tm) := by
  funext off n x
  rw [written, written, h.engScr]

theorem ScratchOnly.scrPut {s : State} {tm off : Nat} {bs : List Byte} {tag : Bool}
    (hland : ∀ x ∈ s.landed, x.copy.toScr = false → x.copy.touches tm off bs.length = false) :
    ScratchOnly tm (written (s.team tm) off bs.length) s (s.scrPut tm off bs tag) := by
  unfold State.scrPut
  dsimp only
  obtain ⟨s1, hs1, h1⟩ : ∃ s1, (if s.copies.any (fun c => c.touches tm off bs.length) then
      { (taintCopies tm off bs.length s s.copies).1 with copies := (taintCopies tm off bs.length s s.copies).2 } else s) = s1 ∧
      s1.mem = s.mem ∧ s1.landed = s.landed ∧ s1.cores = s.cores ∧ s1.teams = s.teams := by
    refine ⟨_, rfl, ?_⟩
    obtain ⟨c, l, h⟩ := taintCopies_state tm off bs.length s s.copies
    split
    · rw [h]
      exact ⟨rfl, rfl, rfl, rfl⟩
    · exact ⟨rfl, rfl, rfl, rfl⟩
  obtain ⟨hmem, hlanded, hcores, hteams⟩ := h1
  rw [hs1, foldl_same fun t x hx => spoilDest_apart (hland x (hlanded ▸ hx))]
  obtain ⟨c, bs', hlen, hfree⟩ := landedFree_state s1 tm off bs
  rw [hfree]
  have hstart : ScratchOnly tm (written (s.team tm) off bs.length) s { s1 with freeCtr := c } := .of_teams hmem hlanded hcores hteams
  have hpool : ScratchOnly tm (written (s.team tm) off bs.length) s
      (({ s1 with freeCtr := c } : State).modPool tm fun p => p.scrStore off bs' tag) :=
    hstart.trans (.modPool (fun _ => rfl) (fun x hlo hhi => Or.inl ⟨hlo, hlen ▸ hhi⟩) _)
  refine (hpool.trans (.engSpoil _ _ _ _ ?_)).trans (.wakeScratch _ _ _ _ _)
  rw [hpool.engScr]
  exact fun r hr x hlo hhi => Or.inr ⟨r, hr, hlo, hhi⟩

theorem ScratchOnly.scrWrite {s : State} {tm off : Nat} {bs : List Byte} {tag : Bool}
    (hland : ∀ x ∈ s.landed, x.copy.toScr = false → x.copy.touches tm off bs.length = false) :
    ScratchOnly tm (written (s.team tm) off bs.length) s (s.scrWrite tm off bs tag) := by
  obtain ⟨c, bs', hlen, hrings⟩ := foldl_freeRange (fun x : Nat × Nat => 16 * x.1) (fun x => 16 * x.1 + 16) off (s.team tm).rings s bs
  unfold State.scrWrite
  rw [hrings]
  rw [← hlen] at hland ⊢
  have hcount : ScratchOnly tm (written (s.team tm) off bs'.length) s { s with freeCtr := c } := .of_teams rfl rfl rfl rfl
  exact hcount.trans (.scrPut (s := { s with freeCtr := c }) hland)

theorem ScratchOnly.noteWrite (s : State) (tm g l : Nat) (scr : Bool) (off n : Nat) (p : Nat → Prop) :
    ScratchOnly tm p s (s.noteWrite tm g l scr off n) := by
  unfold State.noteWrite
  rcases State.noteSame_eq s tm g l scr off n false with h | ⟨f, k, h⟩
  · rw [h]
    exact .refl tm p s
  · rw [h]
    exact .of_modTeam (f := fun t => t.modUnfenced g l f k) (fun _ => rfl)
      (fun _ => List.length_mapIdx) (fun _ hm => hm) (fun _ _ _ _ => rfl) s

end Sys2Proof.Machine
end

