-- ==== Sys2Proof/Proofs/ScratchStores.lean ====
section
/-! What SCR.ST leaves (06 R171, R173, 05 R157), lane by lane, and a step on a barrier object in scratch (06 R178 to R182). -/

namespace Sys2Proof.Claims

open Sys2Proof Machine

/-! ## The frame of SCR.ST -/

/-- Lanes that each go on from a state with `P` to one with `P`. -/
theorem each_of_forall {h : Iss → State → Nat → Option (State × LaneOut)} {i : Iss} {P : State → Prop}
    (hstep : ∀ l ∈ i.lanes, ∀ s, P s → ∃ s1, h i s l = some (s1, .only l .next) ∧ P s1) {s : State} (hs : P s) :
    ∃ s1, each h i s = some (s1, i.lanes.map fun l => .only l .next) ∧ P s1 := by
  unfold each
  generalize i.lanes = ls at hstep ⊢
  induction ls generalizing s with
  | nil => exact ⟨s, rfl, hs⟩
  | cons l ls ih =>
    obtain ⟨s1, hl, h1⟩ := hstep l List.mem_cons_self s hs
    obtain ⟨s2, hls, h2⟩ := ih h1 fun k hk => hstep k (List.mem_cons_of_mem l hk)
    exact ⟨s2, by rw [eachFrom, hl]; dsimp only; rw [hls]; rfl, h2⟩

theorem storeBytes_length (i : Iss) (d : Reg) (w : BitVec 3) (l : Nat) : (storeBytes i d w l).length = widthBytes w.toNat :=
  bytesOf_length _ _

/-- The checks of a scratch offset look at the cores and at the size of the team's scratch. -/
theorem ScratchOnly.checkScr {i : Iss} {p : Nat → Prop} {s s1 : State} (h : ScratchOnly i.op.team p s s1) (off : Int) (n align : Nat) :
    s1.checkScr i off n align = s.checkScr i off n align := by
  have hrel : s1.relocating i.op.team = s.relocating i.op.team := by rw [State.relocating, h.cores]; rfl
  have hin : (s1.team i.op.team).scrIn off.toNat n = (s.team i.op.team).scrIn off.toNat n := by rw [h.team]; rfl
  rw [State.checkScr, State.checkScr, hrel, hin]

/-- A lane of SCR.ST whose offset passes the checks and that stores over the source of no landed copy. -/
theorem scrStoreAt_scratchOnly {w : BitVec 3} {d a b : Reg} {i : Iss} {s : State} {l : Nat}
    (hcheck : s.checkScr i (scrOffset i a b w l) (widthBytes w.toNat) (widthBytes w.toNat) = none)
    (hland : ∀ x ∈ s.landed, x.copy.toScr = false →
      x.copy.touches i.op.team (scrOffset i a b w l).toNat (widthBytes w.toNat) = false) :
    ∃ s1, scrStoreAt w d a b i s l = some (s1, .only l .next) ∧
      ScratchOnly i.op.team (written (s.team i.op.team) (scrOffset i a b w l).toNat (widthBytes w.toNat)) s s1 := by
  refine ⟨_, if_pos hcheck, ?_⟩
  rw [← storeBytes_length i d w l] at hland ⊢
  exact (ScratchOnly.scrWrite hland).trans (.noteWrite _ _ _ _ _ _ _ _)

/-- The completion of lanes that all go on leaves everything but registers and threads of the team, and the watchdog clocks. -/
theorem complete_next_frame {s : State} {i : Iss} {t : Team} {g : Group} (f : Form) (ht : s.teams[i.op.team]? = some t)
    (hg : t.groups[i.op.grp]? = some g) :
    let s' := s.complete i f (i.lanes.map fun l => .only l .next)
    s' = { s with teams := s'.teams, ctxs := s'.ctxs } ∧ (∀ k, k ≠ i.op.team → s'.teams[k]? = s.teams[k]?) ∧
      ∃ t', s'.teams[i.op.team]? = some t' ∧ t' = { t with groups := t'.groups, cregs := t'.cregs, ctags := t'.ctags } := by
  obtain ⟨t', _, hwith, _, hothers, ht', hkeeps, _⟩ := completionFrame s i f (i.lanes.map fun l => .only l .next) t g ht hg fun o ho => by
    obtain ⟨l, _, rfl⟩ := List.mem_map.mp ho
    trivial
  exact ⟨hwith, hothers, t', ht', hkeeps⟩

/-- Settles O25: each lane changes the scratch of its team alone, in the bytes it stores and the elements that these spoil, and the completion
leaves memory, the other teams and the scratch (`completionFrame`). -/
theorem scratchStoreFrame : Obligations.ScratchStoreFrame := by
  intro s op t g w d a b ht hc hmem hland hcheck
  have hteam : s.team op.team = t := team_of_getElem? ht.team
  have hwf : memWfFrom 0 t.pool.scr = true := (hmem.2 t (List.mem_of_getElem? ht.team)).1
  let p (x : Nat) : Prop := ∃ l ∈ lanesOf op.lanes, written t (scrOffset (issOf op t g) a b w l).toNat (widthBytes w.toNat) x
  obtain ⟨s1, heach, hkept⟩ := each_of_forall (h := scrStoreAt w d a b) (i := issOf op t g) (P := ScratchOnly op.team p s)
    (fun l hl s1 h1 => by
      obtain ⟨s2, hstore, h2⟩ := scrStoreAt_scratchOnly (d := d) (i := issOf op t g) (s := s1)
        ((ScratchOnly.checkScr (i := issOf op t g) h1 _ _ _).trans (hcheck l hl)) (h1.landed ▸ fun x hx hto => hland x hx hto l hl)
      refine ⟨s2, hstore, h1.trans (h2.mono fun x hx => ⟨l, hl, ?_⟩)⟩
      rw [show written t = written (s1.team op.team) by rw [h1.written_eq, hteam]]
      exact hx) (.refl op.team p s)
  obtain ⟨t1, ht1⟩ : ∃ t1, s1.teams[op.team]? = some t1 :=
    ⟨_, List.getElem?_eq_getElem (hkept.count ▸ (List.getElem?_eq_some_iff.mp ht.team).1)⟩
  have hteam1 : s1.team op.team = t1 := team_of_getElem? ht1
  obtain ⟨g1, hg1⟩ : ∃ g1, t1.groups[op.grp]? = some g1 := by
    have hlen := hkept.groups
    rw [hteam1, hteam] at hlen
    exact ⟨_, List.getElem?_eq_getElem (hlen ▸ (List.getElem?_eq_some_iff.mp ht.group).1)⟩
  obtain ⟨hwith, hothers, t2, ht2, hkeeps⟩ :=
    complete_next_frame (i := issOf op t g) (Form.plain [(a, 1), (b, 1), (d, widthRegs w.toNat)] none .table) ht1 hg1
  refine ⟨_, (stepLanes_scrSt w d a b).runs s op t g _ _ ht hc heach, ?_, fun k hk => (hothers k hk).trans (hkept.others k hk),
    fun x hx => ?_⟩
  · rw [hwith]
    exact hkept.mem
  · refine (congrArg (fun u : Team => memGet u.pool.scr x) ((team_of_getElem? ht2).trans hkeeps)).trans ?_
    show memGet t1.pool.scr x = _
    rw [← hteam1, ← hteam]
    refine hkept.bytes (hteam ▸ hwf) x ?_
    rintro ⟨l, hl, hin | ⟨r, hr, hin⟩⟩
    · exact (hx l hl).1 hin
    · exact (hx l hl).2 r hr hin

end Sys2Proof.Claims
end

