-- ==== Sys2Proof/Proofs/BarrierObjects.lean ====
section
/-! A barrier object as bytes (06 R178), and a step on one in scratch whose bytes nothing else shares (06 R179 to R182). -/

namespace Sys2Proof.Machine

open Sys2Proof

/-! ## The object and its bytes -/

/-- The counts and codes of an object lie within their fields. -/
structure BarObj.Fits (o : BarObj) : Prop where
  expArr : o.expArr < 65536
  pendArr : o.pendArr < 65536
  expBytes : o.expBytes < 2 ^ 24
  phase : o.phase < 256
  origin : o.origin < 256
  code : o.code < 256

theorem natOf_lt (bs : List Byte) : natOf bs < 256 ^ bs.length := by
  induction bs with
  | nil => exact Nat.one_pos
  | cons b r ih =>
    have hb := b.isLt
    rw [natOf, List.length_cons, pow_succ']
    omega

theorem BarObj.fits_ofBytes (b : List Byte) : (BarObj.ofBytes b).Fits := by
  have hword (k : Nat) : natOf ((b.drop (4 * k)).take 4) < 2 ^ 32 :=
    lt_of_lt_of_le (natOf_lt _) (Nat.pow_le_pow_right (by decide) (List.length_take_le 4 _))
  have h0 := hword 0
  have h2 := hword 2
  constructor <;> simp only [BarObj.ofBytes] <;> omega

theorem BarObj.bytes_length (o : BarObj) : o.bytes.length = 16 := by
  simp only [BarObj.bytes, List.length_append, bytesOf_length]

/-- The status word keeps its fields. -/
theorem BarObj.status_toNat {o : BarObj} (h : o.Fits) :
    o.status.toNat = o.ext.toNat * 2 ^ 31 + o.err.toNat * 2 ^ 30 + o.origin * 256 + o.code := by
  have hext := o.ext.toNat_le
  have herr := o.err.toNat_le
  have horigin := h.origin
  have hcode := h.code
  rw [BarObj.status, BitVec.toNat_ofNat]
  omega

/-- The words of four that are written one after another. -/
theorem words_of_append (a b c d : Nat) :
    let bs := bytesOf 4 a ++ bytesOf 4 b ++ bytesOf 4 c ++ bytesOf 4 d
    natOf ((bs.drop (4 * 0)).take 4) = a % 2 ^ 32 ∧ natOf ((bs.drop (4 * 1)).take 4) = b % 2 ^ 32 ∧
      natOf ((bs.drop (4 * 2)).take 4) = c % 2 ^ 32 ∧ natOf ((bs.drop (4 * 3)).take 4) = d % 2 ^ 32 := by
  have htake (v : Nat) (r : List Byte) : (bytesOf 4 v ++ r).take 4 = bytesOf 4 v := List.take_left' (bytesOf_length 4 v)
  have hdrop (v : Nat) (r : List Byte) (k : Nat) : (bytesOf 4 v ++ r).drop (4 + k) = r.drop k := by
    rw [← List.drop_drop, List.drop_left' (bytesOf_length 4 v)]
  have hword (v : Nat) : natOf (bytesOf 4 v) = v % 2 ^ 32 := natOf_bytesOf 4 v
  dsimp only
  simp only [List.append_assoc]
  refine ⟨?_, ?_, ?_, ?_⟩
  · rw [Nat.mul_zero, List.drop_zero, htake, hword]
  · rw [show 4 * 1 = 4 + 0 by rfl, hdrop, List.drop_zero, htake, hword]
  · rw [show 4 * 2 = 4 + (4 + 0) by rfl, hdrop, hdrop, List.drop_zero, htake, hword]
  · rw [show 4 * 3 = 4 + (4 + (4 + 0)) by rfl, hdrop, hdrop, hdrop, List.drop_zero, List.take_of_length_le (bytesOf_length 4 d).le, hword]

/-- A flag is read back from its place in the status word. -/
theorem flag_of_status {x y : Bool} {n : Nat} (hn : n < 2 ^ 30) :
    ((x.toNat * 2 ^ 31 + y.toNat * 2 ^ 30 + n) / 2 ^ 31 % 2 == 1) = x ∧ ((x.toNat * 2 ^ 31 + y.toNat * 2 ^ 30 + n) / 2 ^ 30 % 2 == 1) = y := by
  have hx := x.toNat_le
  have hy := y.toNat_le
  have hhigh : (x.toNat * 2 ^ 31 + y.toNat * 2 ^ 30 + n) / 2 ^ 31 % 2 = x.toNat := by omega
  have hlow : (x.toNat * 2 ^ 31 + y.toNat * 2 ^ 30 + n) / 2 ^ 30 % 2 = y.toNat := by omega
  rw [hhigh, hlow]
  cases x <;> cases y <;> decide

/-- An object whose counts fit is read back from its bytes. -/
theorem BarObj.ofBytes_bytes {o : BarObj} (h : o.Fits) : BarObj.ofBytes o.bytes = o := by
  obtain ⟨h0, h1, h2, h3⟩ := words_of_append (o.expArr * 65536 + o.pendArr) o.pendBytes.toNat (o.expBytes * 256 + o.phase) o.status.toNat
  obtain ⟨hexp, hpend, hbytes, hphase, horigin, hcode⟩ := id h
  obtain ⟨hext, herr⟩ := flag_of_status (x := o.ext) (y := o.err) (n := o.origin * 256 + o.code) (by omega)
  have hstatus := (Nat.mod_eq_of_lt o.status.isLt).trans ((BarObj.status_toNat h).trans (Nat.add_assoc _ _ _))
  unfold BarObj.ofBytes BarObj.bytes
  dsimp only
  rw [h0, h1, h2, h3, hstatus, hext, herr]
  show _ = BarObj.mk o.expArr o.pendArr o.pendBytes o.expBytes o.phase o.ext o.err o.origin o.code
  rw [BarObj.mk.injEq]
  refine ⟨by omega, by omega, BitVec.eq_of_toNat_eq ?_, by omega, by omega, rfl, rfl, by omega, by omega⟩
  rw [BitVec.toNat_ofNat, Nat.mod_mod, Nat.mod_eq_of_lt o.pendBytes.isLt]

/-! ## Steps -/

theorem BarObj.Fits.test {o : BarObj} (h : o.Fits) : o.test.Fits := by
  unfold BarObj.test
  split
  · exact { h with pendArr := h.expArr, phase := Nat.mod_lt _ (by decide) }
  · exact h

/-- Each step but the note of an error keeps the counts within their fields. -/
theorem BarStep.fits_apply {k : BarStep} {o : BarObj} (h : o.Fits) (hk : match k with
    | .init a e _ => a < 65536 ∧ e < 2 ^ 24
    | .error _ _ => False
    | _ => True) : (k.apply o).Fits := by
  have hless (n : Nat) : o.pendArr - n < 65536 := (Nat.sub_le _ _).trans_lt h.pendArr
  cases k with
  | init a e x =>
    have harr : (if a = 0 then 1 else a) < 65536 := by split <;> omega
    have hzero : 0 < 256 := by decide
    exact ⟨harr, harr, hk.2, hzero, hzero, hzero⟩
  | arrive n =>
    unfold BarStep.apply
    dsimp only
    split
    · exact h
    · exact BarObj.Fits.test { h with pendArr := hless n }
  | arriveBytes v => exact BarObj.Fits.test { h with pendArr := hless 1 }
  | expect v => exact BarObj.Fits.test { h with }
  | land n => exact BarObj.Fits.test { h with }
  | error a b => exact hk.elim

/-! ## Bytes of scratch that nothing else shares -/

/-- A row that a range does not touch has no byte in it. -/
theorem not_mem_of_rowTouched {x : Int × Nat × Nat} {off n : Nat} (h : rowTouched x off n = none) (y : Nat) (hlo : x.1.toNat ≤ y)
    (hhi : y < (x.1 + x.2.1).toNat) : ¬(off ≤ y ∧ y < off + n) := by
  intro hin
  have hsome : ¬Max.max x.1 (off : Int) ≥ Min.min (x.1 + x.2.1) ((off : Int) + n) := by omega
  rw [rowTouched] at h
  dsimp only at h
  rw [if_neg hsome] at h
  cases h

/-- What a store wakes keeps its pool. -/
theorem wakeScratch_pool {s1 : State} {tm : Nat} {t : Team} (hs : s1.teams[tm]? = some t) (off n : Nat) :
    ((s1.wakeScratch tm off n).team tm).pool = t.pool := by
  rcases wakeScratch_eq s1 tm off n with hw | hw
  · rw [hw, team_of_getElem? hs]
  · obtain ⟨p, l, hq⟩ := woken_eq t
    rw [hw, team_modTeam hs, hq]

/-- No ring of the team, no copy and no uncovered MSEQ shares the bytes [off, off + n) of its scratch. -/
structure Unshared (s : State) (tm : Nat) (t : Team) (off n : Nat) : Prop where
  team : s.teams[tm]? = some t
  rings : ∀ x ∈ t.rings, 16 * x.1 + 16 ≤ off ∨ off + n ≤ 16 * x.1
  copies : ∀ c ∈ s.copies, c.touches tm off n = false
  landed : ∀ x ∈ s.landed, x.copy.touches tm off n = false
  rows : ∀ x ∈ t.engScr, rowTouched x off n = none

section
variable {s : State} {tm off n : Nat} {t : Team} (h : Unshared s tm t off n)
include h

theorem Unshared.landedFree {bs : List Byte} (hn : bs.length = n) : s.landedFree tm off bs = (s, bs) := by
  have hnone : (s.landed.filter fun x => x.copy.toScr && x.copy.touches tm off bs.length) = [] :=
    List.filter_eq_nil_iff.mpr fun x hx => by rw [hn, h.landed x hx]; simp
  rw [State.landedFree, hnone, List.foldl_nil]

theorem Unshared.scrRead : s.scrRead tm off n = (s, memRead t.pool.scr off n) := by
  have hteam := team_of_getElem? h.team
  have hnone : (s.copies.filter fun c => c.toScr && c.touches tm off n) = [] :=
    List.filter_eq_nil_iff.mpr fun c hc => by rw [h.copies c hc]; simp
  have hlen : (memRead t.pool.scr off n).length = n := memRead_length _ _ _
  unfold State.scrRead State.scrReadEng
  simp only [hnone, List.foldl_nil, hteam, h.landedFree hlen]
  rw [State.engFree, hteam]
  refine foldl_freeRange_apart fun x hx => ?_
  rw [hlen]
  exact not_mem_of_rowTouched (h.rows x hx)

/-- A store to such bytes is a plain write. -/
theorem Unshared.scrWrite {bs : List Byte} (hn : bs.length = n) (tag : Bool) :
    s.scrWrite tm off bs tag = (s.modPool tm fun p => p.scrStore off bs tag).wakeScratch tm off n := by
  have hrings : (s.team tm).rings.foldl (fun (r : State × List Byte) (x : Nat × Nat) =>
      freeRange r.1 (16 * x.1) (16 * x.1 + 16) off r.2) (s, bs) = (s, bs) := by
    refine foldl_freeRange_apart fun x hx y hlo hhi => ?_
    rw [team_of_getElem? h.team] at hx
    have := h.rings x hx
    omega
  have hcopies : s.copies.any (fun c => c.touches tm off n) = false := List.any_eq_false.mpr fun c hc => by rw [h.copies c hc]; decide
  have hspoil : s.landed.foldl (fun (st : State) (x : Landed) => st.spoilDest tm off n x) s = s :=
    foldl_same fun st x hx => spoilDest_apart fun _ => h.landed x hx
  have hrows : ((s.modPool tm fun p => p.scrStore off bs tag).team tm).engScr = t.engScr := by
    rw [State.modPool, team_modTeam h.team]
    rfl
  have heng : (s.modPool tm fun p => p.scrStore off bs tag).engSpoil tm off n = s.modPool tm fun p => p.scrStore off bs tag := by
    rw [State.engSpoil, hrows, List.filterMap_eq_nil_iff.mpr h.rows, List.foldl_nil]
  unfold State.scrWrite
  rw [hrings]
  unfold State.scrPut
  simp only [hn, hcopies, Bool.false_eq_true, if_false, hspoil, h.landedFree hn, heng]

theorem Unshared.scrWrite_scr {bs : List Byte} (hn : bs.length = n) (tag : Bool) :
    ((s.scrWrite tm off bs tag).team tm).pool.scr = memWrite t.pool.scr off bs := by
  have hteam : (s.modPool tm fun p => p.scrStore off bs tag).teams[tm]? = some { t with pool := t.pool.scrStore off bs tag } := by
    rw [State.modPool, State.modTeam_teams, modAt_getElem?, if_pos rfl, h.team, Option.map_some]
  rw [h.scrWrite hn, wakeScratch_pool hteam]
  rfl

end

/-- A step on such an object writes the bytes of its outcome. -/
theorem Unshared.barScratch {s : State} {tm off : Nat} {t : Team} (h : Unshared s tm t off 16) (hgood : t.scrBad off 16 = false) (k : BarStep) :
    ((s.barScratch tm off k).1.team tm).pool.scr =
      memWrite t.pool.scr off (k.apply (BarObj.ofBytes (memRead t.pool.scr off 16))).bytes := by
  unfold State.barScratch
  simp only [team_of_getElem? h.team, hgood, Bool.false_eq_true, if_false, h.scrRead]
  exact h.scrWrite_scr (BarObj.bytes_length _) false

end Sys2Proof.Machine

namespace Sys2Proof.Claims

open Sys2Proof Machine

/-- Settles O16: the step writes the bytes of its outcome (`Unshared.barScratch`), from which the outcome is read back (`BarObj.ofBytes_bytes`). -/
theorem barrierStep : Obligations.BarrierStep := by
  intro s tm t off ht hmem hgood hrings hcopies hland hrows o after stepped
  have hun : Unshared s tm t off 16 := ⟨ht, hrings, hcopies, hland, hrows⟩
  have hwf : memWfFrom 0 t.pool.scr = true := (hmem.2 t (List.mem_of_getElem? ht)).1
  have ho : o = BarObj.ofBytes (memRead t.pool.scr off 16) := by
    show scratchObject s tm off = _
    rw [scratchObject, team_of_getElem? ht]
  have hfits : o.Fits := ho ▸ BarObj.fits_ofBytes _
  have hscr (k : BarStep) : ((s.barScratch tm off k).1.team tm).pool.scr = memWrite t.pool.scr off (k.apply o).bytes := by
    rw [ho]
    exact hun.barScratch hgood k
  have hafter {k : BarStep} (hk : (k.apply o).Fits) : after k = k.apply o := by
    show scratchObject _ tm off = _
    rw [scratchObject, hscr, ← BarObj.bytes_length (k.apply o), memRead_memWrite hwf, BarObj.ofBytes_bytes hk]
  have hstep (arr : Nat) (bytes : Word) : stepped arr bytes ({ o with pendArr := arr, pendBytes := bytes } : BarObj).test := by
    show ite _ _ _
    unfold BarObj.test
    split <;> rfl
  refine ⟨fun n hn => ?_, hafter (BarStep.fits_apply hfits trivial), fun v => ?_, fun v => ?_, fun n => ?_, fun a e x ha he => ?_,
    fun k x hx => ?_⟩
  · rw [hafter (BarStep.fits_apply hfits trivial), BarStep.apply, if_neg hn]
    exact hstep _ _
  · rw [hafter (BarStep.fits_apply hfits trivial)]
    exact hstep _ _
  · rw [hafter (BarStep.fits_apply hfits trivial)]
    exact hstep _ _
  · rw [hafter (BarStep.fits_apply hfits trivial)]
    exact hstep _ _
  · exact hafter (BarStep.fits_apply hfits ⟨ha, he⟩)
  · rw [hscr]
    exact memGet_memWrite_outside hwf (by rwa [BarObj.bytes_length])

end Sys2Proof.Claims
end

