-- ==== Sys2Proof/Proofs/TransactionAborts.lean ====
section
/-! The abort of a lane's transaction (06 R194): the status word in the register of its TBEGIN, and the lane at its handler. -/

namespace Sys2Proof.Machine

open Sys2Proof

/-! ## One lane's word written -/

section
variable {t : Team} {grp base lane : Nat} {d : Reg} {w : Word}

/-- The tests of a write to one register that is not discarded. -/
theorem not_discarded (h : d.toNat < 112) : ¬(decide (d.toNat ≥ 112) || decide ((1 : Nat) = 0)) = true := by
  simpa using h

/-- A common register that a lane has written holds its word. -/
theorem creg_of_write {c : CReg} (hlo : 96 ≤ d.toNat) (hhi : d.toNat < 112)
    (hc : (t.writeRegs grp base d 1 false .g [.write lane [w]]).cregs[d.toNat - 96]? = some c) :
    c = { val := w, empty := false, mark := none } := by
  have hlast : lastWriter [LaneOut.write lane [w]] = some (.write lane [w]) := rfl
  unfold Team.writeRegs at hc
  dsimp only at hc
  rw [if_neg (not_discarded hhi), if_pos hlo, hlast] at hc
  dsimp only at hc
  rw [List.getElem?_mapIdx] at hc
  obtain ⟨_, _, hc⟩ := Option.map_eq_some_iff.mp hc
  rw [if_pos ⟨le_rfl, Nat.lt_succ_self _⟩, Nat.sub_self] at hc
  exact hc.symm

/-- The group after a lane has written its word to a register of it. -/
theorem groups_of_write {g : Group} (hg : t.groups[grp]? = some g) (hlt : d.toNat < 96) :
    (t.writeRegs grp base d 1 false .g [.write lane [w]]).groups[grp]? = some { g with
      regs := g.regs.mapIdx (VReg.storeAt t.gw (base + d.toNat) 1 [.write lane [w]] false .g),
      threads := g.threads.mapIdx (Thread.tagWrite (quadBits (base + d.toNat) 1) [.write lane [w]]) } := by
  unfold Team.writeRegs
  dsimp only
  rw [if_neg (not_discarded (by omega)), if_neg (by omega), Team.modGroup_groups, modAt_getElem?, if_pos rfl, hg]
  rfl

/-- A register of the group that a lane has written reads its word there. -/
theorem at_storeAt (hlane : lane < t.gw) (r : Nat) (v : VReg) :
    (v.storeAt t.gw r 1 [.write lane [w]] false .g r).shape.at lane = w := by
  rw [VReg.storeAt, if_pos ⟨le_rfl, Nat.lt_succ_self r⟩, Nat.sub_self]
  simp [VReg.store, Shape.at, Shape.expand, hlane, LaneOut.write]

/-- The groups after a lane has written a common register, or nothing. -/
theorem groups_of_write_common (hge : 96 ≤ d.toNat) : (t.writeRegs grp base d 1 false .g [.write lane [w]]).groups = t.groups := by
  have hlast : lastWriter [LaneOut.write lane [w]] = some (.write lane [w]) := rfl
  unfold Team.writeRegs
  dsimp only
  rw [if_pos hge, hlast]
  split <;> rfl

theorem Thread.tagWrite_eq (q : BitVec 64) (outs : List LaneOut) (l : Nat) (th : Thread) :
    th.tagWrite q outs l = { th with capTags := (th.tagWrite q outs l).capTags } := by
  unfold Thread.tagWrite
  split <;> rfl

/-- The thread of a lane that writes a register changes its capability tags at most. -/
theorem thread_of_write {g : Group} {th : Thread} (hg : t.groups[grp]? = some g) (hth : g.threads[lane]? = some th) :
    ∃ g1 th1, (t.writeRegs grp base d 1 false .g [.write lane [w]]).groups[grp]? = some g1 ∧ g1.threads[lane]? = some th1 ∧
      th1 = { th with capTags := th1.capTags } := by
  rcases Nat.lt_or_ge d.toNat 96 with hlt | hge
  · exact ⟨_, _, groups_of_write hg hlt, by rw [List.getElem?_mapIdx, hth, Option.map_some], Thread.tagWrite_eq _ _ _ _⟩
  · exact ⟨g, th, by rw [groups_of_write_common hge, hg], hth, rfl⟩

end

/-! ## The lane at its handler -/

/-- The thread of a lane whose transaction has aborted. -/
def Thread.toHandler (x : Txn) (th : Thread) : Thread := { ({ th with txn := none } : Thread).moveTo x.handler with fbuf := [], needs := [] }

/-- The team after the abort of the transaction `x` of a lane with window base `base`. -/
def Team.aborted (now grp lane base : Nat) (x : Txn) (w : Word) (t : Team) : Team :=
  ((t.writeRegs grp base x.dst 1 false .g [.write lane [w]]).modGroup grp fun g => g.modThread lane (Thread.toHandler x)).feed now

theorem State.abortLane_eq {s : State} {tm grp lane code sub : Nat} {t : Team} {g : Group} {th : Thread} {x : Txn}
    (ht : s.teams[tm]? = some t) (hg : t.groups[grp]? = some g) (hth : g.threads[lane]? = some th) (hx : th.txn = some x) :
    s.abortLane tm grp lane code sub =
      ({ s with loads := s.loads.map (Load.drop tm grp lane th.base x.dst) } : State).modTeam tm fun _ =>
        t.aborted s.tick grp lane th.base x (abortWord code sub) := by
  simp only [State.abortLane, ht, hg, Option.bind_some, hth, hx, State.modThread, State.modGroup, State.modTeam_modTeam]
  rfl

theorem Thread.feed_eq (now : Nat) (full : Nat × Nat → Bool) (l : Nat) (th : Thread) :
    th.feed now full l = { th with needs := (th.feed now full l).needs, age := (th.feed now full l).age } := by
  unfold Thread.feed
  split <;> rfl

theorem Thread.toHandler_fields (x : Txn) (th : Thread) : (th.toHandler x).txn = none ∧ (th.toHandler x).pc = x.handler ∧ (th.toHandler x).fx = th.fx ∧
    (th.toHandler x).rng = th.rng ∧ (th.toHandler x).meet = th.meet :=
  ⟨rfl, rfl, rfl, rfl, rfl⟩

/-- The lane's group after the abort has the registers of the write, and the lane stands at its handler. -/
theorem Team.aborted_group {now grp lane base : Nat} {x : Txn} {w : Word} {t : Team} {g : Group} {th : Thread}
    (hg : t.groups[grp]? = some g) (hth : g.threads[lane]? = some th) :
    ∃ g1 g' th', (t.writeRegs grp base x.dst 1 false .g [.write lane [w]]).groups[grp]? = some g1 ∧
      (t.aborted now grp lane base x w).groups[grp]? = some g' ∧ g'.regs = g1.regs ∧ g'.threads[lane]? = some th' ∧
      th'.txn = none ∧ th'.pc = x.handler ∧ th'.fx = th.fx ∧ th'.rng = th.rng ∧ th'.meet = th.meet := by
  obtain ⟨g1, th1, hg1, hth1, hsame⟩ := thread_of_write (base := base) (d := x.dst) (w := w) hg hth
  obtain ⟨full, hgroup⟩ : ∃ full, (t.aborted now grp lane base x w).groups[grp]? =
      some { g1 with threads := (modAt (Thread.toHandler x) g1.threads lane).mapIdx (Thread.feed now full) } := by
    rw [Team.aborted, Team.feed, List.getElem?_map, Team.modGroup_groups, modAt_getElem?, if_pos rfl, hg1]
    exact ⟨_, rfl⟩
  have hthread : ((modAt (Thread.toHandler x) g1.threads lane).mapIdx (Thread.feed now full))[lane]? =
      some ((th1.toHandler x).feed now full lane) := by
    rw [List.getElem?_mapIdx, modAt_getElem?, if_pos rfl, hth1, Option.map_some, Option.map_some]
  refine ⟨g1, _, _, hg1, hgroup, rfl, hthread, ?_⟩
  rw [Thread.feed_eq, hsame]
  exact ⟨rfl, rfl, rfl, rfl, rfl⟩

end Sys2Proof.Machine

namespace Sys2Proof.Claims

open Sys2Proof Machine

/-- Settles O18: the abort writes one word of one lane (`dstOnly_writeRegs` for what that leaves) and puts the lane at its handler. -/
theorem transactionAbort : Obligations.TransactionAbort := by
  intro s tm gi l t g th x code sub ht hg hth hx hl _ _
  obtain ⟨g1, g', th', hg1, hg', hregs, hth', htxn, hpc, hfx, hrng, hmeet⟩ :=
    Team.aborted_group (now := s.tick) (base := th.base) (x := x) (w := abortWord code sub) hg hth
  obtain ⟨g2, hkept⟩ := dstOnly_writeRegs (op := ⟨tm, gi, 0, 0, th.base, false, 0⟩) hg x.dst 1 false .g
    (outs := [.write l [abortWord code sub]]) fun _ ho => ho
  obtain rfl : g1 = g2 := Option.some.inj (hg1.symm.trans hkept.place)
  have hteam : (s.abortLane tm gi l code sub).teams[tm]? = some (t.aborted s.tick gi l th.base x (abortWord code sub)) := by
    rw [State.abortLane_eq ht hg hth hx, State.modTeam_teams, modAt_getElem?, if_pos rfl]
    show Option.map _ s.teams[tm]? = _
    rw [ht, Option.map_some]
  refine ⟨_, g', th', hteam, hg', hth', ?_, fun k hk => ?_, htxn, hpc, hfx, hrng, hmeet, fun r hr => ?_, fun k hk => ?_,
    fun c hlo hhi hc => ?_, fun v hlt hv => ?_⟩
  · rw [State.abortLane_eq ht hg hth hx]
    rfl
  · rw [State.abortLane_eq ht hg hth hx]
    exact modAt_getElem?_ne hk
  · rw [hregs]
    rcases Nat.lt_or_ge x.dst.toNat 96 with hlt | hge
    · exact hkept.regs.below x.dst 1 rfl hlt r fun hin => hr ⟨hlt, by have h := hin; dsimp only at h; omega⟩
    · rw [hkept.regs.above x.dst 1 rfl hge]
  · show (t.writeRegs gi th.base x.dst 1 false .g [.write l [abortWord code sub]]).cregs[k]? = _
    rcases Nat.lt_or_ge x.dst.toNat 96 with hlt | hge
    · rw [(hkept.common.below x.dst 1 rfl hlt).1]
    rcases Nat.lt_or_ge x.dst.toNat 112 with hlt | hge2
    · exact (hkept.common.within x.dst 1 rfl hge hlt).1 k fun hin => hk ⟨hge, hlt, by omega⟩
    · rw [(hkept.common.above x.dst 1 rfl hge2).1]
  · rw [creg_of_write hlo hhi hc]
    exact ⟨rfl, rfl, rfl⟩
  · obtain rfl : _ = g1 := Option.some.inj ((groups_of_write hg hlt).symm.trans hg1)
    rw [hregs, List.getElem?_mapIdx] at hv
    obtain ⟨v0, _, hv⟩ := Option.map_eq_some_iff.mp hv
    rw [← hv, at_storeAt hl]
    rfl

end Sys2Proof.Claims
end

