-- ==== Sys2Proof/Proofs/CachedAccess.lean ====
section
/-! A cached store into a page-lock table (06 R170, 17 R404): while an engine of the context runs, the counts that software stores into are
undefined, so the L1 shows no bytes of the store. -/

namespace Sys2Proof.Machine

open Sys2Proof

/-! ## Stores into a page-lock table -/

theorem pinSlot_isSome {p n a : Nat} (hlo : p ≤ a) (hhi : a < p + 2 * n) : (pinSlot [(p, n)] a).isSome = true := by
  simp [pinSlot, hlo, hhi]

/-- A store whose lines lie in a table that software may not write leaves the same bytes there whatever it stores. -/
theorem State.pinSpoil_congr {s : State} {pa p n : Nat} {bs bs' : List Byte} (hlen : bs.length = bs'.length) (hpos : 0 < bs'.length)
    (htables : s.pinTables = [(p, n)]) (hlo : p ≤ pa / 64 * 64) (hhi : pa + bs'.length + 63 ≤ p + 2 * n) :
    s.pinSpoil pa bs = s.pinSpoil pa bs' := by
  have hempty (b : List Byte) (h : b.length = bs'.length) : b.isEmpty = false := by
    rw [List.isEmpty_eq_false_iff, ← List.length_pos_iff, h]
    exact hpos
  have hmeets : decide (p < pa + bs'.length) = true := decide_eq_true (by omega)
  unfold State.pinSpoil
  simp only [hempty bs hlen, hempty bs' rfl, hlen, htables, List.filter_cons, hmeets, List.filter_nil, if_true, Bool.false_eq_true, if_false,
    List.isEmpty_cons]
  generalize hlow : Nat.max (pa / 64 * 64) _ = lo
  generalize hhigh : Nat.min _ _ = hi
  have hlo' : p ≤ lo := hlow ▸ hlo.trans (Nat.le_max_left _ _)
  have hhi' : hi ≤ p + 2 * n := hhigh ▸ (Nat.min_le_left _ _).trans (by omega)
  refine congrArg (fun r : State × List Byte => (r.1, lo, r.2)) (List.foldl_ext _ _ _ fun r k hk => ?_)
  have hin := List.mem_range.mp hk
  rw [if_pos (pinSlot_isSome (by omega) (by omega)), if_pos (pinSlot_isSome (by omega) (by omega))]

/-- So does the L1 a store of one line writes. -/
theorem State.l1PutAll_congr {s : State} {core asid va pa p n : Nat} {ip : Bool} {bs bs' : List Byte} (hlen : bs.length = bs'.length)
    (hpos : 0 < bs'.length) (hline : piecesOf va bs'.length = [(va, bs'.length)])
    (htables : ((s.recallOwn core pa).resolve asid va pa).pinTables = [(p, n)]) (hlo : p ≤ pa / 64 * 64)
    (hhi : pa + bs'.length + 63 ≤ p + 2 * n) : s.l1PutAll core asid va pa ip bs = s.l1PutAll core asid va pa ip bs' := by
  have hpiece : s.l1PutPiece core asid ip va pa bs = s.l1PutPiece core asid ip va pa bs' := by
    unfold State.l1PutPiece
    rw [State.pinSpoil_congr hlen hpos htables hlo hhi]
  simp only [State.l1PutAll, State.l1Try, hlen, hline, writePieces, Nat.sub_self, Nat.add_zero, List.drop_zero]
  rw [List.take_of_length_le hlen.le, List.take_of_length_le le_rfl, hpiece]

end Sys2Proof.Machine

namespace Sys2Proof.Claims

open Sys2Proof Machine

/-! ## A state that refutes the frame of a cached store -/

/-- Lane 0 of the program, at SYSTEM level. -/
def storeOp : Op := { team := 0, grp := 0, lanes := 1, pc := 0x40100000, base := 0, sys := true, word := 0 }

/-- A reset device with an RC page that its core's buffer and L1 hold, and `storeOp` of a one-team program at issue, in which v2:v3 holds an
address of that page and v8 another word. -/
def cachedPage : State :=
  let set (v : Word) (x : VReg) : VReg := { x with shape := .u v }
  let s : State := ((State.reset.withFetchWord 32 0).modGroup 0 0 fun g =>
    { g with regs := modAt (set 0x100) (modAt (set 0x40200000) g.regs 2) 8 }).modCore 0 fun c =>
      { c with
        l1 := [{ asid := 1, va := 0x40200000, pa := 0x200000, slice := 3, data := 7, dirty := false, ip := false }],
        alb := [{ asid := 1, base := 0x40000000, size := 0x40000000, attr := 1, r := true, w := true, x := true, pinned := false, stack := 0,
                  hash := (1, 16384) }] }
  { s with
    cur := some storeOp,
    mem := { s.mem with dir := [{ frame := 32, attr := 1, maps := [{ asid := 1, page := 16416, purged := 0 }] }] } }

/-- The page-lock table of its context begins at the page, and a command of the context is queued. -/
def lockedPage : State :=
  { cachedPage with
    ctxs := cachedPage.ctxs.map fun c => { c with pinbase := 0x200000 },
    cmds := [{ team := 0, ctx := 1, kind := 0, id := 1, block := [], blockOff := 0, state := .queued, cause := 0, pins := [], barPa := 0, tlb := [],
               pages := 0, started := false, acc := [], core := 0, born := 0 }] }

def storeTeam : Team := lockedPage.team 0

def storeGroup : Machine.Group := storeTeam.groups.headD { gcr := 0, role := .general, regs := [], threads := [] }

def storeIss : Iss := issOf storeOp storeTeam storeGroup

/-- What the store of four bytes leaves, whatever they are. -/
def afterStore : State := lockedPage.writeLocal storeIss 0 0x40200000 0x200000 attrRC 0 [0, 0, 0, 0]

theorem turn_lockedPage : Turn lockedPage storeOp storeTeam storeGroup :=
  ⟨by decide +kernel, by decide +kernel, by decide +kernel, by decide⟩

/-- Nothing keeps STI of v2 or of v8 to the address in v2:v3 from executing. -/
theorem clear_lockedPage {d : Reg} (hd : d = 2 ∨ d = 8) : Clear (memForm [(2, 2), (d, 1)] none .table) storeOp storeTeam storeGroup where
  core := by
    have h : storeTeam.onFoehn = false := by decide +kernel
    rw [h]
    rfl
  level h := nomatch h
  role := .inl rfl
  txn := by
    have h : ∀ l ∈ lanesOf storeOp.lanes, (storeGroup.threads[l]?).bind (·.txn) = none := by decide +kernel
    intro l hl th hth x hx
    have := h l hl
    rw [hth, Option.bind_some, hx] at this
    cases this
  ready := by
    rcases hd with rfl | rfl
    · decide +kernel
    · decide +kernel
  free l _ r hr := nomatch hr
  stood _ := by decide +kernel

theorem check_lockedPage : lockedPage.check storeIss 0 0x40200000 2 0 (askStore 4) = (lockedPage, .ok (.page attrRC 0x200000)) := by
  decide +kernel

/-- The store changes the L1 alike for all four bytes it may store. -/
theorem writeLocal_lockedPage {bs : List Byte} (h : bs.length = 4) :
    lockedPage.writeLocal storeIss 0 0x40200000 0x200000 attrRC 0 bs = afterStore := by
  have hcore : l1Core (lockedPage.team 0) ((lockedPage.team 0).coreOf 0) 0x40200000 = 0 := by decide +kernel
  have hasid : lockedPage.asidOf (lockedPage.team 0).ctx = 1 := by decide +kernel
  have hwrite (b : List Byte) : lockedPage.writeLocal storeIss 0 0x40200000 0x200000 attrRC 0 b =
      lockedPage.l1PutAll 0 1 0x40200000 0x200000 false b := by
    show State.l1PutAll _ (l1Core (lockedPage.team 0) ((lockedPage.team 0).coreOf 0) 0x40200000)
      (lockedPage.asidOf (lockedPage.team 0).ctx) _ _ _ _ = _
    rw [hcore, hasid]
  rw [afterStore, hwrite, hwrite]
  exact State.l1PutAll_congr (p := 0x200000) (n := 16384) h (by decide) (by decide) (by decide +kernel) (by decide) (by decide)

theorem storeAt_lockedPage (d : Reg) :
    storeAt 0 4 d 2 (displaced 4 2 0) storeIss lockedPage 0 = some (afterStore, .only 0 .next) := by
  have haddr : displaced 4 2 0 storeIss 0 = (0x40200000, 0) := by decide +kernel
  have hout : (lockedPage.threadOf storeIss 0).txn = none := by decide +kernel
  have hpol : lockedPage.polOf storeIss 0 0 = 0 := by rw [State.polOf, hout]; rfl
  have hcopies : lockedPage.ownCopies storeIss 0 0x200000 4 = lockedPage := by decide +kernel
  have hwaits : lockedPage.memoryWaits storeIss 0x40200000 0x200000 4 attrRC 0 true = false := by decide +kernel
  have hspot {bs : List Byte} (h : bs.length = 4) :
      lockedPage.writeSpot storeIss 0 0x40200000 0 (.page attrRC 0x200000) bs false = (afterStore, .next) := by
    rw [← writeLocal_lockedPage h]
    simp only [State.writeSpot, h, hwaits, hcopies]
    rfl
  unfold storeAt
  rw [haddr, hpol]
  have hcheck : lockedPage.check storeIss 0 0x40200000 2 0 ((askStore 4).policy 0) = (lockedPage, .ok (.page attrRC 0x200000)) := check_lockedPage
  simp only [show widthBytes (4 : BitVec 3).toNat = 4 from rfl, hcheck, hout]
  rw [hspot (storeBytes_length storeIss d 4 0), if_pos rfl]

/-- Whatever the store stores, the memory and the caches it leaves are the same. -/
theorem exec_lockedPage {d : Reg} (hd : d = 2 ∨ d = 8) : ∃ s', exec (.sti 4 d 2 0) lockedPage = .next s' ∧ s'.cores = afterStore.cores ∧
    s'.mem = afterStore.mem := by
  have heach : each (storeAt 0 4 d 2 (displaced 4 2 0)) storeIss lockedPage = some (afterStore, storeIss.lanes.map fun l => .only l .next) := by
    have hl : storeIss.lanes = [0] := by decide +kernel
    rw [each, hl, eachFrom, storeAt_lockedPage]
    rfl
  obtain ⟨t, ht, g, hg⟩ : ∃ t, afterStore.teams[0]? = some t ∧ ∃ g, t.groups[0]? = some g := by
    have h : ((afterStore.teams[0]?).bind fun t => t.groups[0]?).isSome = true := by decide +kernel
    obtain ⟨g, hb⟩ := Option.isSome_iff_exists.mp h
    obtain ⟨t, ht, hg⟩ := Option.bind_eq_some_iff.mp hb
    exact ⟨t, ht, g, hg⟩
  have hexec : exec (.sti 4 d 2 0) lockedPage =
      .next (afterStore.complete storeIss (memForm [(2, 2), (d, 1)] none .table) (storeIss.lanes.map fun l => .only l .next)) :=
    (stepLanes_of_storeTo fun _ => rfl).runs lockedPage storeOp storeTeam storeGroup _ _ turn_lockedPage (clear_lockedPage hd) heach
  obtain ⟨hwith, -, -⟩ := complete_next_frame (i := storeIss) (memForm [(2, 2), (d, 1)] none .table) ht hg
  exact ⟨_, hexec, by rw [hwith], by rw [hwith]⟩

/-- What the L1 shows is a matter of the cores and of memory. -/
theorem seen_congr {s s' : State} (hcores : s'.cores = s.cores) (hmem : s'.mem = s.mem) (core asid va pa : Nat) :
    seen s' core asid va pa = seen s core asid va pa := by
  simp only [seen, State.l1Find, State.getCore, State.l2Find, hcores, hmem]

/-- The second byte of the store, as the L1 of its core shows it. -/
def shownByte (s : State) : Byte :=
  let va := (displaced 4 2 0 storeIss 0).1
  seen s (l1Core storeTeam (storeTeam.coreOf 0) va) (lockedPage.asidOf storeTeam.ctx) (va + 1) 0x200001

/-- Refutes O26: at `lockedPage` the stores of v2 and of v8 meet the hypotheses, but leave the same byte in the L1 where they store 0 and 1, for
bytes stored into a page-lock table of a context whose engine runs are undefined (R404). -/
theorem not_cachedAccessFrame : ¬ Obligations.CachedAccessFrame := by
  intro h
  have hshows {d : Reg} (hd : d = 2 ∨ d = 8) : some (shownByte afterStore) = (storeBytes storeIss d 4 0)[1]? := by
    obtain ⟨s', hexec, -, hbytes, -⟩ := h.1 lockedPage storeOp storeTeam storeGroup (.sti 4 d 2 0) _ 4 d 2 (displaced 4 2 0) 0 0x200000
      (.inr ⟨0, rfl, rfl, rfl⟩) (by decide) turn_lockedPage (clear_lockedPage hd) (by decide) (by decide +kernel) (by decide +kernel)
      check_lockedPage (by decide) (by decide +kernel) (by decide +kernel) (.inl (by decide)) (by decide +kernel) (by decide +kernel)
    obtain ⟨s1, hexec1, hcores, hmem⟩ := exec_lockedPage hd
    cases hexec1.symm.trans hexec
    exact (congrArg some (seen_congr hcores hmem _ _ _ _)).symm.trans (hbytes 1 (by decide) 0x200001)
  exact absurd ((hshows (.inl rfl)).symm.trans (hshows (.inr rfl))) (by decide +kernel)

end Sys2Proof.Claims
end

