-- ==== Sys2Proof/Proofs/SystemRegisters.lean ====
section
/-! System registers of a main core (07 R225): a thread's and a context's, read back after a write. -/

namespace Sys2Proof.Machine
open Sys2Proof

/-! ## Registers of a thread and of a context -/

/-- TCAUSE, TPC and TADDR are the thread's. -/
theorem Thread.sysGet_eq_none_iff (th : Thread) (n : Nat) : th.sysGet n = none ↔ n ∉ [2, 3, 4] := by
  unfold Thread.sysGet
  split <;> simp_all

/-- A thread's register reads back a value that it can hold. -/
theorem Thread.sysGet_sysSet (th : Thread) {n v : Nat} (hn : n ∈ [2, 3, 4]) (hv : v < 2 ^ 64) (hcause : n = 2 → v < 2 ^ 32) :
    (th.sysSet n v).sysGet n = some v := by
  simp only [List.mem_cons, List.not_mem_nil, or_false] at hn
  rcases hn with rfl | rfl | rfl
  · exact congrArg some ((BitVec.toNat_ofNat v 32).trans (Nat.mod_eq_of_lt (hcause rfl)))
  · exact congrArg some ((BitVec.toNat_ofNat v 64).trans (Nat.mod_eq_of_lt hv))
  · exact congrArg some ((BitVec.toNat_ofNat v 64).trans (Nat.mod_eq_of_lt hv))

theorem Ctx.setReg_id (c : Ctx) (n v : Nat) : (c.setReg n v).id = c.id := by
  unfold Ctx.setReg
  split <;> rfl

/-- A writable register of a context reads back a value that it can hold. -/
theorem Ctx.reg_setReg (c : Ctx) {n v : Nat} (hn : n ∈ [1, 5, 6, 7, 8, 9]) (hv : v < 2 ^ 64) : (c.setReg n v).reg n = v := by
  simp only [List.mem_cons, List.not_mem_nil, or_false] at hn
  rcases hn with rfl | rfl | rfl | rfl | rfl | rfl
  · exact (BitVec.toNat_ofNat v 64).trans (Nat.mod_eq_of_lt hv)
  all_goals rfl

/-- A context that keeps its id is found under it after a change. -/
theorem State.ctxOf_modCtx {s : State} {k : Nat} {c : Ctx} {f : Ctx → Ctx} (hc : s.ctxOf k = some c) (hf : ∀ x, (f x).id = x.id) :
    (s.modCtx k f).ctxOf k = some (f c) := by
  have hid : (c.id == k) = true := List.find?_some (p := fun x : Ctx => x.id == k) hc
  have hsame : (fun x : Ctx => x.id == k) ∘ (fun x => if x.id == k then f x else x) = fun x => x.id == k := by
    funext x
    dsimp only [Function.comp_apply]
    split <;> simp only [hf]
  unfold State.ctxOf at hc ⊢
  rw [State.modCtx_ctxs, List.find?_map, hsame, hc, Option.map_some, if_pos hid]

/-! ## Reading and writing in a lane -/

section
variable {s : State} {i : Iss} {l n : Nat}

theorem State.sysRead_of_thread {v : Nat} (h : (i.thread l).sysGet n = some v) : s.sysRead i l n = v := by
  simp only [State.sysRead, h]

theorem State.sysRead_of_ctx {c : Ctx} (hn : n ∈ [1, 5, 6, 7, 8, 9]) (hkind : i.team.kind = .team) (hc : s.ctxOf i.team.ctx = some c) :
    s.sysRead i l n = c.reg n := by
  have hthread : (i.thread l).sysGet n = none := (Thread.sysGet_eq_none_iff _ n).mpr fun h => by simp at hn h; omega
  have hcore : n ≠ 0x10 := by simp at hn; omega
  have hstack : n ≠ 0x20 := by simp at hn; omega
  have hteam : ¬(i.team.kind == .firmware) = true := by rw [hkind]; decide
  simp only [State.sysRead, hthread, if_neg hcore, if_neg hstack, if_neg hteam, hc, Option.map_some, Option.getD_some]

theorem State.sysWrite_of_thread (hn : n ∈ [2, 3, 4]) (v : Nat) :
    s.sysWrite i l n v = s.modThread i.op.team i.op.grp l fun th => th.sysSet n v := by
  have hthread : ((i.thread l).sysGet n).isSome = true :=
    Option.isSome_iff_ne_none.mpr fun h => (Thread.sysGet_eq_none_iff _ n).mp h hn
  rw [State.sysWrite, if_pos hthread]

theorem State.sysWrite_of_ctx (hn : n ∈ [1, 5, 6, 7, 8, 9]) (hkind : i.team.kind = .team) (v : Nat) :
    s.sysWrite i l n v = s.modCtx i.team.ctx fun c => c.setReg n v := by
  have hthread : (i.thread l).sysGet n = none := (Thread.sysGet_eq_none_iff _ n).mpr fun h => by simp at hn h; omega
  rw [State.sysWrite, hthread, if_neg (by decide), hkind]

end

/-- A writable register of a main core is a thread's or a context's, and what it holds fits. -/
theorem sysReg_writable {n v : Nat} {r : SysReg} (h : sysReg n false true = some r) (hv : r.holds v = true) :
    (n ∈ [2, 3, 4] ∨ n ∈ [1, 5, 6, 7, 8, 9]) ∧ v < 2 ^ 64 ∧ (n = 2 → v < 2 ^ 32) := by
  have hmem : r ∈ sysRegs := List.mem_of_find?_eq_some h
  have hnum := List.find?_some h
  simp only [Bool.false_eq_true, if_false, Bool.not_true, Bool.false_or, Bool.and_eq_true, beq_iff_eq] at hnum
  obtain ⟨⟨rfl, -⟩, hwritable⟩ := hnum
  simp only [SysReg.holds, Bool.and_eq_true, decide_eq_true_eq] at hv
  obtain ⟨⟨hwidth, -⟩, -⟩ := hv
  have hall : ∀ r ∈ sysRegs, r.writable = true → (r.num ∈ [2, 3, 4] ∨ r.num ∈ [1, 5, 6, 7, 8, 9]) ∧ r.width ≤ 64 ∧ (r.num = 2 → r.width ≤ 32) := by
    decide
  obtain ⟨hplace, hfits, hcause⟩ := hall r hmem hwritable
  exact ⟨hplace, hwidth.trans_le (Nat.pow_le_pow_right (by decide) hfits),
    fun h2 => hwidth.trans_le (Nat.pow_le_pow_right (by decide) (hcause h2))⟩

end Sys2Proof.Machine

namespace Sys2Proof.Claims
open Sys2Proof Machine

/-- Settles O15: a register of the thread is read back from the thread (`Thread.sysGet_sysSet`), one of the context from the context
(`Ctx.reg_setReg`). -/
theorem systemRegisterReadBack : Obligations.SystemRegisterReadBack := by
  intro s op t g c l n r v ht hkind hc hl hr hv
  obtain ⟨hplace, hfits, hcause⟩ := sysReg_writable hr hv
  rcases hplace with hn | hn
  · refine ⟨t.modGroup op.grp fun x => x.modThread l fun th => th.sysSet n v, g.modThread l fun th => th.sysSet n v, ?_, ?_, ?_⟩
    · rw [State.sysWrite_of_thread hn]
      show (modAt _ s.teams op.team)[op.team]? = _
      rw [modAt_getElem?, if_pos rfl, ht.team]
      rfl
    · rw [Team.modGroup_groups, modAt_getElem?, if_pos rfl, ht.group, Option.map_some]
    · refine State.sysRead_of_thread ?_
      have hthread : (g.modThread l fun th => th.sysSet n v).threads[l]? = some (g.threads[l].sysSet n v) := by
        rw [Group.modThread_threads, modAt_getElem?, if_pos rfl, List.getElem?_eq_getElem hl, Option.map_some]
      show (((g.modThread l fun th => th.sysSet n v).threads[l]?).getD _).sysGet n = some v
      rw [hthread, Option.getD_some]
      exact Thread.sysGet_sysSet _ hn hfits hcause
  · have hwrite : s.sysWrite (issOf op t g) l n v = s.modCtx t.ctx fun c => c.setReg n v := State.sysWrite_of_ctx (i := issOf op t g) hn hkind v
    refine ⟨t, g, ?_, ht.group, ?_⟩
    · rw [hwrite, State.modCtx_teams, ht.team]
    · rw [hwrite]
      exact (State.sysRead_of_ctx (i := issOf op t g) hn hkind (State.ctxOf_modCtx hc fun x => x.setReg_id n v)).trans (Ctx.reg_setReg c hn hfits)

end Sys2Proof.Claims
end

