-- ==== Sys2Proof/Proofs/SystemInstructions.lean ====
section
/-! System registers, maintenance, TRET, HALTC, TRAP and BRK (07 R225 to R228, 17 R390). -/

namespace Sys2Proof.Claims
open Sys2Proof Machine

/-! ## RDSR and WRSR (R225) -/

/-- The table of registers says which a kind of core knows. -/
theorem sysReg_isSome (n : BitVec 7) (foehn write : Bool) : (sysReg n.toNat foehn write).isSome = knows n.toNat foehn write := by
  revert n foehn write
  decide

theorem srForm_eq (n : BitVec 7) (write : Bool) (srcs : List (Reg × Nat)) (dst : Option (Reg × Nat)) :
    srForm n.toNat write srcs dst = sysForm (knows n.toNat false write) (knows n.toNat true write) srcs dst := by
  rw [srForm, sysReg_isSome, sysReg_isSome]
  rfl

theorem runs_rdsr (d : Reg) (n : BitVec 7) :
    Runs (.rdsr d n) (sysForm (knows n.toNat false false) (knows n.toNat true false) [] (some (d, 2)))
      (turn (fun _ _ => true) (fun _ s => s) fun i s l => .write l (wordsOf 2 (s.sysRead i l n.toNat))) :=
  runs_turn_always fun s => by
    show execRdsr d n s = _
    rw [execRdsr, srForm_eq]

/-- The team at issue is firmware. -/
theorem curFirmware_eq {s : State} {op : Op} {t : Team} {g : Machine.Group} (ht : Turn s op t g) : s.curFirmware = (t.kind == .firmware) := by
  simp only [State.curFirmware, ht.cur, Option.any_some, State.team, ht.team, Option.getD_some]

/-- The same operation under a form that this kind of core knows. -/
theorem clear_of_core {f : Form} {op : Op} {t : Team} {g : Machine.Group} {main foehn : Bool} (hc : Clear f op t g)
    (h : (if t.onFoehn then foehn else main) = true) : Clear { f with main := main, foehn := foehn } op t g :=
  { hc with core := h }

/-- An effect of each lane is one of some lane. -/
theorem lane_of_each {h : Iss → State → Nat → Option (State × LaneOut)} {i : Iss} {s : State} {r : State × List LaneOut} (hne : i.lanes ≠ [])
    (he : each h i s = some r) : ∃ l x, h i s l = some x := by
  obtain ⟨l, ls, hls⟩ := List.exists_cons_of_ne_nil hne
  unfold each at he
  rw [hls, eachFrom] at he
  cases hx : h i s l with
  | none => rw [hx] at he; cases he
  | some x => exact ⟨l, x, hx⟩

/-- Whether WRSR of register `n` in a team has no effect: firmware has no context (21 R484). -/
def writesNothing (n : Nat) (t : Team) : Bool := t.kind == .firmware && ctxRegs.contains n

/-- One lane of WRSR. -/
def writeSysLane (idle : Bool) (a : Reg) (n : Nat) (i : Iss) (s : State) (l : Nat) : State × LaneOut :=
  if idle then (s, .only l .next)
  else match sysReg n i.team.onFoehn true with
  | some r =>
    if r.holds (i.view.pair a l) then (s.sysWrite i l n (i.view.pair a l), .only l .next) else (s, .fault l cIllegal i.op.word.toNat)
  | none => (s, .fault l cIllegal i.op.word.toNat)

theorem exec_wrsr {s : State} {op : Op} {t : Team} {g : Machine.Group} (ht : Turn s op t g) (a : Reg) (n : BitVec 7) :
    exec (.wrsr a n) s = issue (sysForm (knows n.toNat false true) (knows n.toNat true true || writesNothing n.toNat t) [(a, 2)] none)
      (eachLane (writeSysLane (writesNothing n.toNat t) a n.toNat)) s := by
  show execWrsr a n s = _
  unfold execWrsr
  rw [srForm_eq, sysReg_isSome, curFirmware_eq ht]
  rfl

/-- WRSR whose lanes have effects on a kind of core that accepts it. -/
theorem runs_wrsr_each {a : Reg} {n : BitVec 7} {main foehn : Bool} {h : Iss → State → Nat → Option (State × LaneOut)}
    (hcore : ∀ i s l x, h i s l = some x → (if i.team.onFoehn then foehn else main) = true →
      (if i.team.onFoehn then knows n.toNat true true || writesNothing n.toNat i.team else knows n.toNat false true) = true)
    (hlane : ∀ i s l x, h i s l = some x → writeSysLane (writesNothing n.toNat i.team) a n.toNat i s l = x) :
    Runs (.wrsr a n) (sysForm main foehn [(a, 2)] none) (each h) := by
  intro s op t g s1 outs ht hc he
  obtain ⟨l, x, hx⟩ := lane_of_each (lanesOf_ne_nil ht.some) he
  rw [exec_wrsr ht]
  refine (issue_clear ht (clear_of_core hc (hcore _ _ _ _ hx hc.core))).trans ?_
  have hbody : eachLane (writeSysLane (writesNothing n.toNat t) a n.toNat) (issOf op t g) s = (s1, outs) :=
    each_eq (fun s l s1 o => hlane (issOf op t g) s l (s1, o)) he
  rw [hbody]
  rfl

theorem runs_wrsr (a : Reg) (n : BitVec 7) :
    Runs (.wrsr a n) (sysForm (knows n.toNat false true) (knows n.toNat true true) [(a, 2)] none) (each fun i s l =>
      if i.team.kind == .firmware && ctxRegs.contains n.toNat then none
      else match sysReg n.toNat i.team.onFoehn true with
      | some r => if r.holds (i.view.pair a l) then some (s.sysWrite i l n.toNat (i.view.pair a l), .only l .next) else none
      | none => none) := by
  refine runs_wrsr_each (fun i s l x _ hcore => ?_) fun i s l x h => ?_
  · split at hcore
    · rename_i hfoehn
      rw [if_pos hfoehn, hcore, Bool.true_or]
    · rename_i hmain
      rw [if_neg hmain, hcore]
  · obtain ⟨hown, h⟩ := Option.ite_none_left_eq_some.mp h
    unfold writeSysLane
    rw [writesNothing, if_neg hown]
    generalize sysReg n.toNat i.team.onFoehn true = r at h ⊢
    cases r with
    | none => cases h
    | some r =>
      obtain ⟨hholds, hdone⟩ := Option.ite_none_right_eq_some.mp h
      dsimp only
      rw [if_pos hholds]
      exact Option.some.inj hdone

/-- Firmware's WRSR of a register of the context that it does not have (21 R484). -/
theorem runs_wrsr_firmware (a : Reg) (n : BitVec 7) (hn : n.toNat ∈ ctxRegs) :
    Runs (.wrsr a n) (sysForm false true [(a, 2)] none) (each fun i s l =>
      if i.team.kind = .firmware then some (s, .only l .next) else none) := by
  have hidle {i : Iss} (hkind : i.team.kind = .firmware) : writesNothing n.toNat i.team = true := by
    rw [writesNothing, hkind, List.contains_iff_mem.mpr hn]
    rfl
  refine runs_wrsr_each (fun i s l x h hcore => ?_) fun i s l x h => ?_
  · obtain ⟨hkind, -⟩ := Option.ite_none_right_eq_some.mp h
    have hfoehn : i.team.onFoehn = true := by simpa using hcore
    rw [if_pos hfoehn, hidle hkind, Bool.or_true]
  · obtain ⟨hkind, hdone⟩ := Option.ite_none_right_eq_some.mp h
    rw [writeSysLane, hidle hkind, if_pos rfl]
    exact Option.some.inj hdone

/-! ## Maintenance (R226, 17 R390) -/

theorem runs_vpurge (a b : Reg) : Runs (.vpurge a b) (sysForm true false [(a, 2), (b, 1)] none) (each fun i s l =>
      let n := (i.view.reg b l).toNat
      let asid := s.asidOf i.team.ctx
      if s.backWaits fun x va _ => x == asid && lineMeets va (i.view.pair a l) n then none
      else some (if n = 0 then s else ((s.releaseWoRange asid (i.view.pair a l) n).purgeRange asid (i.view.pair a l) n).dropFetch asid,
        .only l .next)) := by
  refine runs_of ⟨_, fun s => by show execVpurge a b s = _; delta execVpurge; exact rfl, fun i s s1 outs he => each_eq (fun s l s1 o h => ?_) he⟩
  obtain ⟨hready, hdone⟩ := Option.ite_none_left_eq_some.mp h
  dsimp only
  rw [if_neg hready]
  exact Option.some.inj hdone

/-- ATTRCHG of a page that is not mapped, and of one that is free to change and unpinned. -/
theorem runs_attrchg (d a b : Reg) : Runs (.attrchg d a b) (sysForm true false [(a, 2), (b, 1)] (some (d, 1))) (each (attrChange a b)) := by
  refine runs_of ⟨_, fun s => by show execAttrchg d a b s = _; delta execAttrchg; exact rfl,
    fun i s s1 outs he => each_eq (fun s l s1 o h => ?_) he⟩
  unfold attrChange at h
  dsimp only at h ⊢
  obtain ⟨hplace, h⟩ := Option.ite_none_left_eq_some.mp h
  rw [if_neg hplace]
  generalize (s.relDev i.op.team i.op.grp l).translate i.team.ctx (i.view.pair a l) = r at h ⊢
  obtain ⟨s2, x⟩ := r
  cases x with
  | fault c => cases h
  | absent =>
    dsimp only at h ⊢
    generalize s2.leafOf i.team.ctx (i.view.pair a l) = f at h ⊢
    obtain ⟨s3, c | leaf⟩ := f
    · cases h
    · exact Option.some.inj h
  | ok e =>
    dsimp only at h ⊢
    generalize s2.leafOf i.team.ctx (i.view.pair a l) = f at h ⊢
    obtain ⟨s3, c | ⟨leaf, size⟩⟩ := f
    · cases h
    dsimp only at h ⊢
    generalize s3.markPage _ = s4 at h ⊢
    obtain ⟨hturn, h⟩ := Option.ite_none_left_eq_some.mp h
    simp only [Bool.or_eq_true, Bool.not_eq_true', not_or, Bool.not_eq_false] at hturn
    obtain ⟨hfirst, hidle⟩ := hturn
    rw [if_pos hfirst, State.attrChange, if_neg hidle]
    dsimp only
    generalize State.unpinned _ i.team.ctx _ = u at h ⊢
    obtain ⟨s5, c | free⟩ := u
    · cases h
    cases free with
    | false => cases h
    | true =>
      dsimp only at h ⊢
      generalize State.attrWrite _ leaf _ _ = w at h ⊢
      obtain ⟨s6, c | _⟩ := w
      · cases h
      · exact Option.some.inj h

/-! ## TRET and HALTC (R227) -/

/-- Whether a lane's TPC is one that it can go on at. -/
def tpcAligned (i : Iss) (l : Nat) : Bool := (i.thread l).tpc.extractLsb' 0 2 == 0

/-- What TRET does. -/
def tretBody (i : Iss) (s : State) : State × List LaneOut :=
  (s.onLanes i.op (i.lanes.filter (tpcAligned i)) fun _ th => th.trapReturn (i.team.kind == .firmware),
    i.lanes.map fun l => if tpcAligned i l then .only l (.goto (i.thread l).tpc) else .fault l cMisaligned (i.thread l).tpc.toNat)

theorem exec_tret (s : State) : exec .tret s = issue (privForm s.curFirmware [] none) tretBody s := by
  show execTret s = _
  delta execTret
  exact rfl

theorem runs_tret : Runs .tret (sysForm true true [] none)
    (turn (fun i _ => (!i.team.onFoehn || i.team.kind == .firmware) && i.lanes.all fun l => (i.thread l).tpc.extractLsb' 0 2 == 0)
        (fun i s => s.onLanes i.op i.lanes fun _ th => th.trapReturn (i.team.kind == .firmware)) fun i _ l =>
      .only l (.goto (i.thread l).tpc)) := by
  intro s op t g s1 outs ht hc he
  obtain ⟨hok, hdone⟩ := Option.ite_none_right_eq_some.mp he
  obtain ⟨hcore, hall⟩ := Bool.and_eq_true_iff.mp hok
  have hgood : ∀ l ∈ lanesOf op.lanes, tpcAligned (issOf op t g) l = true := List.all_eq_true.mp hall
  have hbody : tretBody (issOf op t g) s = (s1, outs) := by
    rw [← Option.some.inj hdone]
    refine Prod.ext (congrArg (s.onLanes op · _) (List.filter_eq_self.mpr hgood)) (List.map_congr_left fun l hl => if_pos (hgood l hl))
  rw [exec_tret, curFirmware_eq ht]
  refine (issue_clear ht (clear_of_core hc ?_)).trans ?_
  · change (!t.onFoehn || t.kind == .firmware) = true at hcore
    split
    · rename_i hfoehn
      rwa [hfoehn, Bool.not_true, Bool.false_or] at hcore
    · rfl
  · rw [hbody]
    rfl

theorem runs_haltc : Runs .haltc (sysForm true true [] none) (turn (fun _ _ => true) (fun i s =>
      match i.team.kind, i.team.place with
      | .firmware, .foehn st _ => s.endFirmware i.op.team st
      | _, _ => s.modCore (i.team.coreOf i.op.grp) fun c => { c with accepting := false }) fun _ _ l => .only l .exit) :=
  runs_turn_always fun s => by show execHaltc s = _; delta execHaltc; exact rfl

/-- Settles O54: registers by the table of those each kind of core knows, ATTRCHG where its page is free, TRET where each TPC is aligned. -/
theorem systemCompletes : Obligations.SystemCompletes :=
  ⟨runs_rdsr, runs_wrsr, fun a n hn => runs_wrsr_firmware a n hn, fun _ _ => runs_each fun _ => rfl, runs_vpurge, runs_attrchg, runs_tret, runs_haltc,
    fun _ => runs_still fun _ => rfl, runs_still fun _ => rfl⟩

/-! ## What TRET leaves (07 R227, 03 R95) -/

/-- The lanes of TRET, going on at their TPC. -/
def returningLanes (i : Iss) : List LaneOut := i.lanes.map fun l => .only l (.goto (i.thread l).tpc)

/-- A thread that has returned from its trap: at its TPC, at USER level (SYSTEM in firmware), the trap state ended and its own registers kept. -/
def Returned (firm : Bool) (th th' : Thread) : Prop :=
  th'.pc = th.tpc ∧ th'.sys = firm ∧ th'.inTrap = false ∧ th'.tpc = th.tpc ∧ th'.tcause = th.tcause ∧ th'.taddr = th.taddr ∧
    th'.fx = th.fx ∧ th'.rng = th.rng ∧ th'.base = th.base

theorem returned_of_passed {firm : Bool} {th th1 th2 : Thread} (h : Returned firm th th1) (hpassed : th1.Passed th2) : Returned firm th th2 := by
  rw [hpassed]
  exact h

theorem returned_nextThread {s : State} {t u : Team} {op : Op} {g : Machine.Group} {l : Nat} {th : Thread} (hl : l ∈ lanesOf op.lanes)
    (hth : g.threads[l]? = some th) (firm : Bool) :
    Returned firm th (nextThread s u op (returningLanes (issOf op t g)) l (th.trapReturn firm)) := by
  have hthread : (issOf op t g).thread l = th := by
    show (g.threads[l]?).getD _ = th
    rw [hth, Option.getD_some]
  have hfind : (returningLanes (issOf op t g)).find? (fun o => o.lane == l) = some (.only l (.goto th.tpc)) := by
    rw [returningLanes, find_lane (fun _ => rfl), if_pos (show l ∈ (issOf op t g).lanes from hl), hthread]
  rw [nextThread, hfind]
  dsimp only
  unfold Thread.noteWait
  split <;> exact ⟨rfl, rfl, rfl, rfl, rfl, rfl, BitVec.or_zero, rfl, rfl⟩

/-- The settling of a group passes each thread by once it has gone through its instruction. -/
theorem settleGroup_thread {s : State} {t : Team} {op : Op} {outs : List LaneOut} {g : Machine.Group} {l : Nat} {th : Thread}
    (hth : g.threads[l]? = some th) :
    ∃ th', (s.settleGroup t op outs g).threads[l]? = some th' ∧ (nextThread s t op outs l th).Passed th' :=
  passed_thread (by rw [List.getElem?_mapIdx, hth, Option.map_some])

/-- The group of a TRET each lane of which has left its trap. -/
def returnedGroup (op : Op) (firm : Bool) (g : Machine.Group) : Machine.Group := g.modLanes (lanesOf op.lanes) fun _ th => th.trapReturn firm

theorem returnedGroup_thread {op : Op} {firm : Bool} {g : Machine.Group} {l : Nat} {th : Thread} (hl : l ∈ lanesOf op.lanes)
    (hth : g.threads[l]? = some th) : (returnedGroup op firm g).threads[l]? = some (th.trapReturn firm) := by
  rw [returnedGroup, Group.modLanes_threads, List.getElem?_mapIdx, hth, Option.map_some, if_pos (List.contains_iff_mem.mpr hl)]

/-- The group `x` of a TRET when its lanes have settled, each at its TPC. -/
def settledGroup (s : State) (op : Op) (t : Team) (g : Machine.Group) (firm : Bool) (x : Machine.Group) : Machine.Group :=
  (s.modGroup op.team op.grp (returnedGroup op firm)).settleGroup (t.modGroup op.grp (returnedGroup op firm)) op
    (returningLanes (issOf op t g)) (returnedGroup op firm x)

/-- The end of a TRET: its context gets the sign of progress, and its group settles. -/
theorem complete_returningLanes {s : State} {op : Op} {t : Team} {g : Machine.Group} (ht : Turn s op t g) (firm : Bool) :
    let s1 := s.modGroup op.team op.grp (returnedGroup op firm)
    s1.complete (issOf op t g) (sysForm true true [] none) (returningLanes (issOf op t g)) =
      (s.signal t.ctx).modGroup op.team op.grp (settledGroup s op t g firm) := by
  intro s1
  have hends : ∀ o ∈ returningLanes (issOf op t g), o.ends.settled = true ∧ o.ends.stands = false ∧ o.ends.retires = true := fun o ho => by
    obtain ⟨l, -, rfl⟩ := List.mem_map.mp ho
    exact ⟨rfl, rfl, rfl⟩
  have hstands : (returningLanes (issOf op t g)).any (·.ends.stands) = false :=
    List.any_eq_false.mpr fun o ho => by rw [(hends o ho).2.1]; decide
  have hretires : (returningLanes (issOf op t g)).any (·.ends.retires) = true := by
    obtain ⟨o, ho⟩ := List.exists_mem_of_ne_nil _ (mt List.map_eq_nil_iff.mp (lanesOf_ne_nil ht.some))
    exact List.any_eq_true.mpr ⟨o, ho, (hends o ho).2.2⟩
  have hcomplete : s1.complete (issOf op t g) (sysForm true true [] none) (returningLanes (issOf op t g)) =
      s1.finish op (returningLanes (issOf op t g)) := by
    show (s1.finish op _).standLanes _ _ = _
    rw [State.standLanes, hstands, if_neg Bool.false_ne_true]
  have hteam : s1.teams[op.team]? = some (t.modGroup op.grp (returnedGroup op firm)) := by
    rw [State.modGroup_teams, modAt_getElem?, if_pos rfl, ht.team, Option.map_some]
  have hgroup : (t.modGroup op.grp (returnedGroup op firm)).groups[op.grp]? = some (returnedGroup op firm g) := by
    rw [Team.modGroup_groups, modAt_getElem?, if_pos rfl, ht.group, Option.map_some]
  rw [hcomplete, State.finish_settled hteam hgroup fun o ho => (hends o ho).1, hretires, if_pos rfl, State.signal_modGroup,
    State.modGroup_modGroup]
  rfl

theorem settledGroup_regs (s : State) (op : Op) (t : Team) (g : Machine.Group) (firm : Bool) (x : Machine.Group) :
    (settledGroup s op t g firm x).regs = x.regs := by
  rw [settledGroup, State.settleGroup, lots_release_group]
  rfl

/-- Settles O9: the lanes leave their trap (`runs_tret`) and go on at their TPC (`returned_nextThread`), and the settling of their group passes
what they have kept by. -/
theorem trapReturn : Obligations.TrapReturn := by
  intro s op t g ht hc hfirm haligned
  have hcore : (!t.onFoehn || t.kind == .firmware) = true := by
    cases hfoehn : t.onFoehn with
    | false => rfl
    | true => rw [hfirm hfoehn]; rfl
  have hall : (lanesOf op.lanes).all (fun l => ((issOf op t g).thread l).tpc.extractLsb' 0 2 == 0) = true := by
    refine List.all_eq_true.mpr fun l hl => beq_iff_eq.mpr ?_
    show ((g.threads[l]?).getD (Thread.start 0 0 false)).tpc.extractLsb' 0 2 = 0
    cases hth : g.threads[l]? with
    | none => rfl
    | some th => exact haligned l hl th hth
  have hexec := runs_tret s op t g _ _ ht hc (if_pos (Bool.and_eq_true_iff.mpr ⟨hcore, hall⟩))
  have hteam : (((s.signal t.ctx).modGroup op.team op.grp (settledGroup s op t g (t.kind == .firmware))).teams)[op.team]? =
      some (t.modGroup op.grp (settledGroup s op t g (t.kind == .firmware))) := by
    rw [State.modGroup_teams, modAt_getElem?, if_pos rfl]
    exact congrArg (Option.map _) ht.team
  have hgroup : (t.modGroup op.grp (settledGroup s op t g (t.kind == .firmware))).groups[op.grp]? =
      some (settledGroup s op t g (t.kind == .firmware) g) := by
    rw [Team.modGroup_groups, modAt_getElem?, if_pos rfl, ht.group, Option.map_some]
  refine ⟨_, _, _, hexec.trans (congrArg _ (complete_returningLanes ht (t.kind == .firmware))), hteam, hgroup, rfl, rfl,
    settledGroup_regs .., rfl, fun l hl th hth => ?_⟩
  obtain ⟨th', hth', hpassed⟩ := settleGroup_thread (returnedGroup_thread hl hth)
  exact ⟨th', hth', returned_of_passed (returned_nextThread hl hth _) hpassed⟩

end Sys2Proof.Claims
end

