-- ==== Sys2Proof/Proofs/WordWaits.lean ====
section
/-! Word waits, YIELD and SLEEP (07 R224). -/

namespace Sys2Proof.Claims
open Sys2Proof Machine

/-- A wait on a word that the checks let through and that can be read: the lane goes on where the condition holds and waits where it does not. -/
theorem runs_onWord {j : Instr} {a b : Reg} {kind : Nat → Option Nat → WaitKind} {f : Word → Word → Bool}
    (hj : ∀ s, exec j s = waitWord a b kind f s) : Runs j (mainForm [(a, 2), (b, 1)] none .table) (onWord a b kind f) := by
  refine runs_of ⟨_, hj, fun i s s1 outs he => each_eq (fun s l s1 o h => ?_) he⟩
  dsimp only at h ⊢
  generalize s.check i l (i.view.pair a l) a 0 askWord = c at h ⊢
  obtain ⟨s2, e | p⟩ := c
  · cases h
  dsimp only at h ⊢
  generalize s2.readSpot i l (i.view.pair a l) 4 1 p = r at h ⊢
  obtain ⟨s3, (bs | k) | e⟩ := r
  · dsimp only at h ⊢
    split at h
    · rename_i hmet
      rw [if_pos hmet, ← Option.some.inj h]
    · rename_i hwait
      rw [if_neg hwait, ← Option.some.inj h]
  · cases h
  · cases h

theorem runs_yield : Runs .yield ({ Form.plain [] none .table with txn := false }) (still (fun _ _ => true) fun i l =>
    .only l (if (i.thread l).wait = some .yield then .next else .wait .yield)) :=
  runs_of ⟨_, fun s => by show execYield s = _; delta execYield; exact rfl,
    fun _ _ _ _ he => still_eq (fun _ _ => by simp only [beq_iff_eq]) he⟩

/-- SLEEP of lanes that do not sleep yet. -/
theorem runs_sleep (a : Reg) : Runs (.sleep a) ({ Form.plain [(a, 1)] none .table with txn := false })
    (turn (fun i _ => i.lanes.all fun l => match (i.thread l).wait with
          | some (.sleep _) => false
          | _ => true) (fun _ s => s) fun i s l =>
        .only l (if (i.view.reg a l).toNat = 0 then .next else .wait (.sleep (s.sleepClock i.team + (i.view.reg a l).toNat)))) := by
  refine runs_turn _ (fun s => by show execSleep a s = _; delta execSleep; exact rfl) fun i s hall =>
    congrArg (Prod.mk s) (List.map_congr_left fun l hl => congrArg (LaneOut.only l) ?_)
  have hawake := List.all_eq_true.mp hall l hl
  generalize (i.thread l).wait = w at hawake ⊢
  have hother : ∀ k, w ≠ some (.sleep k) := by
    rintro k rfl
    cases hawake
  split
  · exact absurd rfl (hother _)
  · rfl

/-- Settles O46: a lane waits or goes on by its condition (`runs_onWord`), by its first or second issue of YIELD, by the count of SLEEP. -/
theorem waitCompletes : Obligations.WaitCompletes :=
  ⟨fun _ _ _ => runs_onWord fun _ => rfl, fun _ _ => runs_onWord fun _ => rfl, runs_yield, runs_sleep⟩

end Sys2Proof.Claims
end

