-- ==== Sys2Proof/Proofs/EngineCommands.lean ====
section
/-! Commands of a team (07 R204 to R210): their submission, EWAIT and ESTAT. -/

namespace Sys2Proof.Claims
open Sys2Proof Machine

/-- A block that passes the checks, whose pages and barrier are there. -/
theorem engineLane_of_submitCommand {kind : Nat} {a : Reg} {i : Iss} {s s1 : State} {l : Nat} {o : LaneOut}
    (h : submitCommand kind a i s l = some (s1, o)) : engineLane kind a i s l = (s1, o) := by
  unfold submitCommand at h
  unfold engineLane
  obtain ⟨hstart, h⟩ := Option.ite_none_left_eq_some.mp h
  obtain ⟨hblock, h⟩ := Option.ite_none_left_eq_some.mp h
  simp only [Bool.or_eq_true, not_or, decide_eq_true_eq, Bool.not_eq_true, Bool.not_eq_false'] at hstart
  obtain ⟨⟨⟨halign, hin⟩, hrel⟩, hbad⟩ := hstart
  dsimp only at h hblock ⊢
  simp only [halign, hin, hrel, hbad, hblock, Bool.not_true, Bool.false_eq_true, if_false]
  split at h
  · rename_i s2 c hpin
    rw [hpin]
    dsimp only at h ⊢
    split at h
    · rename_i s3 pa hbar
      rw [hbar]
      exact Option.some.inj h
    · cases h
  · cases h

theorem runs_submitCommand {j : Instr} {kind : Nat} {priv : Bool} {d a : Reg}
    (hj : ∀ s, exec j s = issue (engForm priv [(a, 1)] (some (d, 1))) (eachLane (engineLane kind a)) s) :
    Runs j (engForm priv [(a, 1)] (some (d, 1))) (each (submitCommand kind a)) :=
  runs_of ⟨_, hj, fun _ _ _ _ he => each_eq (fun _ _ _ _ => engineLane_of_submitCommand) he⟩

/-- EWAIT of lanes that do not wait yet. -/
theorem runs_ewait (b : Reg) : Runs (.ewait b) (engForm false [(b, 1)] none)
    (turn (fun i _ => i.lanes.all fun l => match (i.thread l).wait with
          | some (.ewait _) => false
          | _ => true) (fun _ s => s) fun i s l =>
        let last := if i.team.cmdCounter = 1 then 0x7fffffff else i.team.cmdCounter - 1
        let key := if b = 127 then 2 ^ 31 + last else (i.view.reg b l).toNat % 2 ^ 31
        .only l (if s.ewaitDue i.op.team (key % 2 ^ 31) (key ≥ 2 ^ 31) then .wait (.ewait key) else .next)) := by
  refine runs_turn _ (fun s => by show execEwait b s = _; delta execEwait; exact rfl) fun i s hall =>
    congrArg (Prod.mk s) (List.map_congr_left fun l hl => ?_)
  have hanew := List.all_eq_true.mp hall l hl
  dsimp only
  generalize (i.thread l).wait = w at hanew ⊢
  have hother : ∀ k, w ≠ some (.ewait k) := by
    rintro k rfl
    cases hanew
  split
  · exact absurd rfl (hother _)
  · rfl

theorem runs_estat (d a : Reg) : Runs (.estat d a) (engForm false [(a, 1)] (some (d, 1)))
    (turn (fun _ _ => true) (fun _ s => s) fun i s l =>
      .write l [match s.cmdOf i.op.team ((i.view.reg a l).toNat % 2 ^ 31) with
        | some c => BitVec.ofNat 32 (if c.state = .done then c.cause.toNat * 256 else if c.state = .queued then 1 else 2)
        | none => 0]) := by
  refine runs_turn _ (fun s => by show execEstat d a s = _; delta execEstat; exact rfl) fun i s _ =>
    congrArg (Prod.mk s) (List.map_congr_left fun l _ => ?_)
  generalize s.cmdOf i.op.team ((i.view.reg a l).toNat % 2 ^ 31) = x
  cases x with
  | none => rfl
  | some c =>
    dsimp only
    cases c.state <;> rfl

/-- Settles O51: a lane's command that passes its checks (`engineLane_of_submitCommand`), EWAIT and ESTAT. -/
theorem commandCompletes : Obligations.CommandCompletes :=
  ⟨fun _ _ => runs_submitCommand fun _ => rfl, fun _ _ => runs_submitCommand fun _ => rfl, fun _ _ => runs_submitCommand fun _ => rfl,
    runs_ewait, runs_estat⟩

end Sys2Proof.Claims
end

