-- ==== Sys2Proof/Proofs/NearMemory.lean ====
section
/-! Near-memory calls and walks (07 R212 to R217) and FRED (R219). -/

namespace Sys2Proof.Claims
open Sys2Proof Machine

/-- A message that passes the checks. -/
theorem callLane_of_submitCall {walk : Bool} {a b : Reg} {i : Iss} {s s1 : State} {l : Nat} {o : LaneOut}
    (h : submitCall walk a b i s l = some (s1, o)) : callLane walk a b i s l = (s1, o) := by
  unfold submitCall at h
  unfold callLane
  obtain ⟨hstart, h⟩ := Option.ite_none_left_eq_some.mp h
  obtain ⟨hmessage, h⟩ := Option.ite_none_left_eq_some.mp h
  simp only [Bool.or_eq_true, not_or, decide_eq_true_eq, Bool.not_eq_true, Bool.not_eq_false', bne_iff_ne, Option.isSome_eq_false_iff,
    Option.isNone_iff_eq_none] at hstart hmessage
  obtain ⟨⟨⟨halign, hin⟩, hrel⟩, hbad⟩ := hstart
  obtain ⟨⟨hslots, hfields⟩, hbar⟩ := hmessage
  dsimp only at h hslots hfields ⊢
  simp only [halign, hin, hrel, hbad, hslots, hfields, hbar, Bool.not_true, Bool.false_eq_true, if_false]
  split at h
  · rename_i s2 c haccept
    rw [haccept]
    exact Option.some.inj h
  · cases h

theorem runs_submitCall {j : Instr} {walk : Bool} {d a b : Reg}
    (hj : ∀ s, exec j s = issue (engForm false [(a, 1), (b, 2)] (some (d, 1))) (eachLane (callLane walk a b)) s) :
    Runs j (engForm false [(a, 1), (b, 2)] (some (d, 1))) (each (submitCall walk a b)) :=
  runs_of ⟨_, hj, fun _ _ _ _ he => each_eq (fun _ _ _ _ => callLane_of_submitCall) he⟩

theorem runs_nmret (a : Reg) : Runs (.nmret a) ({ Form.plain [(a, 1)] none .table with main := false, txn := false }) (callReturn a) :=
  runs_turn_always fun s => by show execNmret a s = _; delta execNmret; exact rfl

/-! ## FRED -/

/-- A FRED that is performed where its location is: what the step of the location answers, and the end of the lane. -/
theorem atomSpot_of_stepped {i : Iss} {l va n code y ctx : Nat} {s : State} {p : Spot} {r : State × LaneOut}
    (h : stepped i l va n code y ctx s p = some r) : ∃ s1 x, s.atomSpot i l va n (redOpOf code) y 0 p = (s1, .data x) ∧
      r = match x with
        | .ok _ => (s1, .only l .next)
        | .bad k => (s1.postStoreError ctx k va, .only l .next) := by
  unfold stepped at h
  generalize s.atomSpot i l va n (redOpOf code) y 0 p = g at h ⊢
  obtain ⟨s1, (bs | k) | e⟩ := g
  · exact ⟨s1, _, rfl, (Option.some.inj h).symm⟩
  · exact ⟨s1, _, rfl, (Option.some.inj h).symm⟩
  · cases h

theorem runs_fred (op : BitVec 7) (a b : Reg) :
    Runs (.fred op a b) (engForm false [(a, 2), (b, if redCodeWide op.toNat then 2 else 1)] none) (each (fredAt op a b)) := by
  refine runs_of ⟨_, fun s => by show execFred op a b s = _; delta execFred; exact rfl, fun i s s1 outs he => each_eq (fun s l s1 o h => ?_) he⟩
  unfold fredAt at h
  unfold askFred
  dsimp only [operand] at h ⊢
  generalize s.check i l (i.view.pair a l) a 0 _ = c at h ⊢
  obtain ⟨s2, e | p⟩ := c
  · cases h
  cases p with
  | extent pa => cases h
  | reg r => cases h
  | scr off =>
    dsimp only at h ⊢
    obtain ⟨s3, x, hspot, hdone⟩ := atomSpot_of_stepped h
    rw [hspot]
    cases x <;> exact hdone.symm
  | page attr pa =>
    dsimp only at h ⊢
    split at h
    · rename_i hfar
      rw [if_neg (by simpa using hfar)]
      obtain ⟨hok, h⟩ := Option.ite_none_left_eq_some.mp h
      rw [if_neg hok]
      obtain ⟨s3, x, hspot, hdone⟩ := atomSpot_of_stepped h
      rw [hspot]
      cases x <;> exact hdone.symm
    · rename_i hhome
      rw [if_pos (by simpa using hhome)]
      generalize State.combineLine _ pa = s3 at h ⊢
      split at h
      · rename_i hheld
        rw [if_pos hheld]
        obtain ⟨r, hr, hdone⟩ := Option.map_eq_some_iff.mp h
        obtain ⟨s4, x, hspot, rfl⟩ := atomSpot_of_stepped hr
        rw [hspot]
        cases x <;> exact hdone
      · rename_i hpending
        rw [if_neg hpending]
        exact Option.some.inj h

/-- Settles O52: a message that passes its checks (`callLane_of_submitCall`), NMRET, and FRED where its location is or on its way to the base die. -/
theorem nearMemoryCompletes : Obligations.NearMemoryCompletes :=
  ⟨fun _ _ _ => runs_submitCall fun _ => rfl, fun _ _ _ => runs_submitCall fun _ => rfl, runs_nmret, runs_fred⟩

end Sys2Proof.Claims
end

