-- ==== Sys2Proof/Proofs/GraphEdges.lean ====
section
/-! Graph-edge queues (07 R220, R221), LAUNCH (R222), and LREL and LPATCH (R223). -/

namespace Sys2Proof.Claims
open Sys2Proof Machine

/-! ## Queues -/

/-- What a queue instruction with the flags of `a` answers when its record has passed the checks of R220: with no queue 3; on a queue where `f` does
something 0, and else `code`, unless bit 16 asks it to wait. -/
def queueAnswer (a : Reg) (code : Word) (f : Iss → State → Nat → EdgeQueue → Nat → Option State) (i : Iss) (s : State) (l off : Nat) :
    State × LaneOut :=
  match s.queueOf i.team.ctx ((i.view.reg a l).extractLsb' 0 10).toNat with
  | none => (s, .write l [3])
  | some q => match f i s l q off with
    | some s1 => (s1, .write l [0])
    | none => (s, if (i.view.reg a l).getLsbD 16 then .only l (.wait (.queue q.id)) else .write l [code])

theorem runs_onRecord {j : Instr} {d a b : Reg} {code : Word} {f : Iss → State → Nat → EdgeQueue → Nat → Option State}
    {h : Iss → State → Nat → Nat → Option (State × LaneOut)} (hj : ∀ s, exec j s = queueOp d a b code f s)
    (hgood : ∀ i s l off r, h i s l off = some r → ¬(code = 1 ∧ (s.team i.op.team).scrBad off 16 = true))
    (hanswer : ∀ i s l off r, h i s l off = some r → queueAnswer a code f i s l off = r) :
    Runs j (edgeForm [(a, 1), (b, 1)] d) (onRecord b h) := by
  refine runs_of ⟨_, hj, fun i s s1 outs he => each_eq (fun s l s1 o hl => ?_) he⟩
  obtain ⟨hplace, hl⟩ := Option.ite_none_left_eq_some.mp hl
  simp only [Bool.or_eq_true, not_or, decide_eq_true_eq, Bool.not_eq_true, Bool.not_eq_false'] at hplace
  obtain ⟨⟨halign, hin⟩, hrel⟩ := hplace
  simp only [halign, hin, hrel, Bool.not_true, Bool.false_eq_true, if_false, if_neg (hgood _ _ _ _ _ hl)]
  exact hanswer _ _ _ _ _ hl

theorem runs_qpush (d a b : Reg) : Runs (.qpush d a b) (edgeForm [(a, 1), (b, 1)] d) (onRecord b fun i s l off =>
      if (s.team i.op.team).scrBad off 16 then none
      else match s.queueOf i.team.ctx ((i.view.reg a l).extractLsb' 0 10).toNat with
      | none => some (s, .write l [3])
      | some q =>
        if q.records.length ≥ q.depth then
          some (s, if (i.view.reg a l).getLsbD 16 then .only l (.wait (.queue q.id)) else .write l [1])
        else
          let r := (s.relDev i.op.team i.op.grp l).scrRead i.op.team off 16
          some (r.1.queuePush q r.2, .write l [0])) := by
  refine runs_onRecord (fun s => by show execQpush d a b s = _; delta execQpush; exact rfl) (fun i s l off r h hbad => ?_) fun i s l off r h => ?_
  · exact (Option.ite_none_left_eq_some.mp h).1 hbad.2
  obtain ⟨-, h⟩ := Option.ite_none_left_eq_some.mp h
  unfold queueAnswer
  generalize s.queueOf i.team.ctx ((i.view.reg a l).extractLsb' 0 10).toNat = x at h ⊢
  cases x with
  | none => exact Option.some.inj h
  | some q =>
    dsimp only at h ⊢
    split at h
    · rename_i hfull
      rw [if_pos hfull]
      exact Option.some.inj h
    · rename_i hroom
      rw [if_neg hroom]
      exact Option.some.inj h

theorem runs_qpop (d a b : Reg) : Runs (.qpop d a b) (edgeForm [(a, 1), (b, 1)] d) (onRecord b fun i s l off =>
      match s.queueOf i.team.ctx ((i.view.reg a l).extractLsb' 0 10).toNat with
      | none => some (s, .write l [3])
      | some q => match q.records with
        | [] => some (s, if (i.view.reg a l).getLsbD 16 then .only l (.wait (.queue q.id)) else .write l [2])
        | r :: rest =>
          some (((((s.setQueue { q with records := rest }).queueWake q.ctx q.id).acquireDev i.op.team i.op.grp).scrWrite
            i.op.team off r false).noteWrite i.op.team i.op.grp l true off 16, .write l [0])) := by
  refine runs_onRecord (fun s => by show execQpop d a b s = _; delta execQpop; exact rfl)
    (fun _ _ _ _ _ _ hbad => absurd hbad.1 (by decide)) fun i s l off r h => ?_
  unfold queueAnswer
  generalize s.queueOf i.team.ctx ((i.view.reg a l).extractLsb' 0 10).toNat = x at h ⊢
  cases x with
  | none => exact Option.some.inj h
  | some q =>
    obtain ⟨ctx, id, depth, records⟩ := q
    cases records <;> exact Option.some.inj h

/-! ## Launches -/

section
variable {s : State} {m : HeldPacket} {r : State × Option (Nat × Nat)} {x : Nat × Nat} (hr : s.submit m.ctx m.who m.packet m.args = r)
  (hx : r.2 = some x) (l : Nat)
include hr hx

/-- A packet that has waited and stands first, and that the launch unit answers. -/
theorem launchAgain_of_submit (hfirst : ((s.plat.inbox.head?).any fun y => y.who == m.who) = true) : s.launchAgain m l =
    ({ r.1 with plat := { r.1.plat with inbox := r.1.plat.inbox.tail } }, .write l [BitVec.ofNat 32 x.2]) := by
  unfold State.launchAgain
  rw [if_pos hfirst, hr]
  obtain ⟨s1, c⟩ := r
  obtain rfl : c = some x := hx
  rfl

/-- A new packet that no other waits before, and that the launch unit answers. -/
theorem launchNew_of_submit (hfirst : ¬(!s.plat.inbox.isEmpty) = true) : s.launchNew m l = (r.1, .write l [BitVec.ofNat 32 x.2]) := by
  unfold State.launchNew
  rw [if_neg hfirst, hr]
  obtain ⟨s1, c⟩ := r
  obtain rfl : c = some x := hx
  rfl

end

/-- One lane's LAUNCH whose packet is submitted. -/
theorem runs_launch (d a : Reg) : Runs (.launch d a) (edgeForm [(a, 1)] d) (each (launchAt a)) := by
  refine runs_of ⟨_, fun s => by show execLaunch d a s = _; delta execLaunch; exact rfl, fun i s s1 outs he => each_eq (fun s l s1 o h => ?_) he⟩
  unfold launchAt at h
  dsimp only at h ⊢
  generalize s.plat.inbox.find? (HeldPacket.ofLane i.op.team i.op.grp l) = x at h ⊢
  cases x with
  | some m =>
    obtain ⟨hfirst, h⟩ := Option.ite_none_right_eq_some.mp h
    obtain ⟨x, hx, hdone⟩ := Option.map_eq_some_iff.mp h
    exact (launchAgain_of_submit rfl hx l hfirst).trans hdone
  | none =>
    obtain ⟨hstart, h⟩ := Option.ite_none_left_eq_some.mp h
    obtain ⟨hargs, h⟩ := Option.ite_none_left_eq_some.mp h
    obtain ⟨hinbox, h⟩ := Option.ite_none_left_eq_some.mp h
    generalize hr : State.submit _ _ _ _ _ = r at h
    obtain ⟨x, hx, hdone⟩ := Option.map_eq_some_iff.mp h
    simp only [Bool.or_eq_true, not_or, decide_eq_true_eq, Bool.not_eq_true, Bool.not_eq_false'] at hstart
    obtain ⟨⟨⟨halign, hin⟩, hrel⟩, hbad⟩ := hstart
    obtain ⟨hargsIn, hargsGood⟩ := not_or.mp (by rwa [Bool.and_or_distrib_left, Bool.or_eq_true] at hargs)
    simp only [halign, hin, hrel, hbad, Bool.not_true, Bool.false_eq_true, if_false, if_neg hargsIn, if_neg hargsGood]
    refine (launchNew_of_submit ?_ hx l hinbox).trans hdone
    dsimp only
    exact hr

theorem runs_lrel (d a : Reg) : Runs (.lrel d a) (edgeForm [(a, 1)] d) (each fun i s l =>
      match s.handleRelease i.op.team (i.view.reg a l).toNat with
      | (s1, some k) => some (s1, .write l [BitVec.ofNat 32 k])
      | _ => none) := by
  refine runs_of ⟨_, fun s => by show execLrel d a s = _; delta execLrel; exact rfl, fun i s s1 outs he => each_eq (fun s l s1 o h => ?_) he⟩
  dsimp only at h ⊢
  generalize s.handleRelease i.op.team (i.view.reg a l).toNat = r at h ⊢
  obtain ⟨s2, _ | k⟩ := r
  · cases h
  · exact Option.some.inj h

/-- Settles O53: the queues by `runs_onRecord`, LAUNCH where its packet is submitted, LREL and LPATCH by the code of the handle. -/
theorem graphCompletes : Obligations.GraphCompletes :=
  ⟨runs_qpush, runs_qpop, fun _ _ => runs_turn_always fun _ => rfl, runs_launch, runs_lrel,
    fun d a b => runs_each fun s => by show execLpatch d a b s = _; delta execLpatch; exact rfl⟩

end Sys2Proof.Claims
end

