-- ==== Sys2Proof/Proofs/ResetState.lean ====
section
/-! What reset leaves: the bank map (13 R299), the lane delays (21 R445), and memory. -/

namespace Sys2Proof.Claims
open Sys2Proof Machine

/-! ## The bank map -/

/-- The three ranges of R299: the register store's banks, the free ones, the cache reserve. -/
theorem bankReset_fields (j : Nat) : (bankReset j).moving = false ∧ (bankReset j).role = (if j < 4 then .reg else .cch) ∧
    (bankReset j).holder = (if j < 4 then .store else if j < 46 then .free else .reserve) := by
  unfold bankReset
  by_cases hstore : j < 4
  · simp only [hstore, if_true, and_self]
  · by_cases hfree : j < 46
    · simp only [hstore, hfree, if_true, if_false, and_self]
    · simp only [hstore, hfree, if_false, and_self]

theorem reset_banks_length : Core.reset.banks.length = 48 := by
  simp [Core.reset]

theorem eq_bankReset_of_reset_banks {j : Nat} {b : Bank} (h : Core.reset.banks[j]? = some b) : b = bankReset j := by
  obtain ⟨hj, hb⟩ := List.getElem?_eq_some_iff.mp h
  rw [← hb]
  simp only [Core.reset, List.getElem_map, List.getElem_range]

/-! ## The lane delays -/

/-- Slots 0 to 18 of a group read 64 where nothing was stored; the reserved slots 19 to 31 do not. -/
theorem phyReset_delays {slot : Nat} (hslot : slot < 128) (hlane : slot % 32 < 19) :
    phyReset (offRxdly slot) = 64 ∧ phyReset (offTxdly slot) = 64 := by
  unfold phyReset offRxdly offTxdly
  exact ⟨if_pos (by omega), if_pos (by omega)⟩

/-- A register nothing was stored to since reset. -/
theorem phyGet_reset (ch off : Nat) : phyGet Stack.reset ch off = phyReset off := rfl

/-! ## The device -/

theorem reset_canonical : MemoryCanonical State.reset :=
  ⟨reset_wf, fun _ h => nomatch h⟩

theorem eq_reset_of_mem_cores {c : Core} (h : c ∈ State.reset.cores) : c = Core.reset :=
  List.eq_of_mem_replicate h

theorem eq_reset_of_mem_baseDies {k : Stack} (h : k ∈ State.reset.baseDies) : k = Stack.reset :=
  List.eq_of_mem_replicate h

/-- Settles O24: every core is `Core.reset`, whose banks are those of `bankReset`, and every stack `Stack.reset`, whose delays are `phyReset`. -/
theorem resetState : Obligations.ResetState := by
  refine ⟨rfl, rfl, rfl, rfl, rfl, reset_canonical, List.length_replicate, fun c hc => ?caches, List.length_replicate, fun c hc => ?banks,
    fun k hk => ?delays⟩
  case caches =>
    obtain rfl := eq_reset_of_mem_cores hc
    exact ⟨rfl, rfl, rfl⟩
  case banks =>
    obtain rfl := eq_reset_of_mem_cores hc
    refine ⟨reset_banks_length, fun j b hb => ?_⟩
    obtain rfl := eq_bankReset_of_reset_banks hb
    exact bankReset_fields j
  case delays =>
    obtain rfl := eq_reset_of_mem_baseDies hk
    refine ⟨rfl, rfl, fun ch _ g hg l hl => ?_⟩
    rw [phyGet_reset, phyGet_reset]
    exact phyReset_delays (by omega) (by omega)

end Sys2Proof.Claims
end

