-- ==== Sys2Proof/Proofs/Generators.lean ====
section
/-! The stochastic generators (14 R333, R334, 03 R78, 09 R237): each of the three steps of an advance keeps a word non-zero, because a word is
its own shift by a positive distance only if it is 0, and every seed is taken through `srSeed`. -/

namespace Sys2Proof.Machine
open Sys2Proof

/-- From the lowest bit up, each bit of such a word is one further down or a zero shifted in. -/
theorem eq_zero_of_eq_shiftLeft {w k : Nat} {s : BitVec w} (hk : 0 < k) (h : s = s <<< k) : s = 0 := by
  have hbit : ∀ i, s.getLsbD i = false := fun i => by
    induction i using Nat.strongRecOn with
    | ind i ih =>
      rw [h, BitVec.getLsbD_shiftLeft]
      by_cases hik : i < k
      · simp [hik]
      · rw [ih (i - k) (by omega), Bool.and_false]
  exact BitVec.eq_of_getLsbD_eq fun i _ => by simp [hbit i]

theorem eq_zero_of_eq_ushiftRight {w k : Nat} {s : BitVec w} (hk : 0 < k) (h : s = s >>> k) : s = 0 := by
  have hn : s.toNat = s.toNat / 2 ^ k := by
    rw [← Nat.shiftRight_eq_div_pow, ← BitVec.toNat_ushiftRight, ← h]
  have hzero : s.toNat = 0 := by
    by_contra hne
    have := Nat.div_lt_self (Nat.pos_of_ne_zero hne) (Nat.one_lt_two_pow hk.ne')
    omega
  exact BitVec.eq_of_toNat_eq (by simpa using hzero)

theorem xor_shiftLeft_ne_zero {w k : Nat} {s : BitVec w} (hk : 0 < k) (hs : s ≠ 0) : s ^^^ (s <<< k) ≠ 0 :=
  fun h => hs (eq_zero_of_eq_shiftLeft hk (BitVec.xor_eq_zero_iff.mp h))

theorem xor_ushiftRight_ne_zero {w k : Nat} {s : BitVec w} (hk : 0 < k) (hs : s ≠ 0) : s ^^^ (s >>> k) ≠ 0 :=
  fun h => hs (eq_zero_of_eq_ushiftRight hk (BitVec.xor_eq_zero_iff.mp h))

theorem srNext_ne_zero {s : Word} (hs : s ≠ 0) : srNext s ≠ 0 :=
  have ha := xor_shiftLeft_ne_zero (k := 13) (by decide) hs
  have hb := xor_ushiftRight_ne_zero (k := 17) (by decide) ha
  xor_shiftLeft_ne_zero (k := 5) (by decide) hb

theorem srSeed_ne_zero (s : Word) : srSeed s ≠ 0 := by
  rw [srSeed]
  split
  · decide
  · assumption

theorem genStart_ne_zero (seed : Word) (n : Nat) (k : Word) : genStart seed n k ≠ 0 := srSeed_ne_zero _

theorem rng_ne_zero_of_mem_start {l : Launch} {g : Nat} {sys : Bool} {th : Thread} (h : th ∈ (Group.start l g sys).threads) :
    th.rng ≠ 0 := by
  obtain ⟨i, _, rfl⟩ := List.mem_map.mp h
  exact genStart_ne_zero _ _ _

end Sys2Proof.Machine

namespace Sys2Proof.Claims
open Sys2Proof Machine

/-- Settles O19: RNGW stores `srSeed` of its operand, and every new generator is a `genStart`. -/
theorem generatorStep : Obligations.GeneratorStep :=
  ⟨fun _ => rfl, fun _ => srNext_ne_zero, delivers_rngw, fun _ _ _ => ⟨fun _ => rng_ne_zero_of_mem_start, genStart_ne_zero _ _ _⟩⟩

end Sys2Proof.Claims
end

