-- ==== Sys2Proof/Proofs/RepresentableValues.lean ====
section
/-! Rounding a number of a format to that format (14 R319, R320, R326): the step of the grid at its magnitude is the exponent it is decoded
with, so it is a grid point, and the encoding of that point is the one it came from. -/

namespace Sys2Proof.Machine
open Sys2Proof

/-! ## The encodings of a format -/

/-- An encoding is its sign, exponent field and fraction (R319). -/
theorem Fmt.bits_eq_fields {f : Fmt} {x : Nat} (hx : x < 2 ^ f.w) :
    x = f.signBit (x / 2 ^ (f.eb + f.m) % 2 == 1) + (x / 2 ^ f.m % 2 ^ f.eb * 2 ^ f.m + x % 2 ^ f.m) := by
  have hsplit : x = x / 2 ^ (f.eb + f.m) * 2 ^ (f.eb + f.m) + (x / 2 ^ f.m % 2 ^ f.eb * 2 ^ f.m + x % 2 ^ f.m) := by
    calc x = x / 2 ^ f.m * 2 ^ f.m + x % 2 ^ f.m := (Nat.div_add_mod' x _).symm
      _ = (x / 2 ^ f.m / 2 ^ f.eb * 2 ^ f.eb + x / 2 ^ f.m % 2 ^ f.eb) * 2 ^ f.m + x % 2 ^ f.m := by rw [Nat.div_add_mod' (x / 2 ^ f.m)]
      _ = _ := by rw [Nat.div_div_eq_div_mul, ← pow_add, Nat.add_comm f.m f.eb]; ring
  have htop : x / 2 ^ (f.eb + f.m) < 2 := by
    rw [Nat.div_lt_iff_lt_mul (by positivity)]
    calc x < 2 ^ f.w := hx
      _ = 2 * 2 ^ (f.eb + f.m) := by rw [Fmt.w]; ring
  have hsign : f.signBit (x / 2 ^ (f.eb + f.m) % 2 == 1) = x / 2 ^ (f.eb + f.m) * 2 ^ (f.eb + f.m) := by
    rcases Nat.le_one_iff_eq_zero_or_eq_one.mp (Nat.le_of_lt_succ htop) with h | h <;> simp [h, Fmt.signBit]
  rw [hsign]
  exact hsplit

/-- What the encodings of a format with infinities stand for, NaNs apart (R320): zeros and subnormals, normals, infinities. -/
theorem decodeNum_cases {f : Fmt} {x : Nat} (hf : f.e4m3 = false) (hx : x < 2 ^ f.w) (hnan : (decodeNum f x).isNan = false) : ∃ neg,
    (∃ fr < 2 ^ f.m, decodeNum f x = .fin neg fr f.qmin ∧ x = f.signBit neg + fr) ∨
    (∃ e fr, 0 < e ∧ e < f.ones ∧ fr < 2 ^ f.m ∧ decodeNum f x = .fin neg (2 ^ f.m + fr) (e - f.bias - f.m) ∧
      x = f.signBit neg + (e * 2 ^ f.m + fr)) ∨
    decodeNum f x = .inf neg ∧ x = f.signBit neg + f.infBits := by
  have hfields := Fmt.bits_eq_fields hx
  have hfr : x % 2 ^ f.m < 2 ^ f.m := Nat.mod_lt _ (by positivity)
  have he : x / 2 ^ f.m % 2 ^ f.eb < 2 ^ f.eb := Nat.mod_lt _ (by positivity)
  simp only [decodeNum, hf, Bool.and_false, Bool.false_and, Bool.not_false, Bool.and_true, Bool.false_eq_true, if_false] at hnan ⊢
  generalize (x / 2 ^ (f.eb + f.m) % 2 == 1) = neg at *
  generalize x / 2 ^ f.m % 2 ^ f.eb = e at *
  generalize x % 2 ^ f.m = fr at *
  refine ⟨neg, ?_⟩
  by_cases he0 : e = 0
  · exact .inl ⟨fr, hfr, by simp [he0], by simpa [he0] using hfields⟩
  · by_cases hones : e = f.ones
    · have hfr0 : fr = 0 := by
        by_contra hne
        simp [hones ▸ he0, hones, hne, Num.isNan] at hnan
      exact .inr (.inr ⟨by simp [hones ▸ he0, hones, hfr0], by simpa [hones, hfr0, Fmt.infBits, hf] using hfields⟩)
    · exact .inr (.inl ⟨e, fr, Nat.pos_of_ne_zero he0, lt_of_le_of_ne (Nat.le_sub_one_of_lt he) hones, hfr, by simp [he0, hones], hfields⟩)

/-! ## Rounding on the grid -/

theorem roundGrid_self (rm : Rm) (neg : Bool) (s : Word) (n : Nat) (k : Int) :
    roundGrid rm neg s { m := n, e := k, st := false } k = (n, false) := by
  simp [roundGrid, gridPos, roundsOut]

theorem Fmt.exceeds_eq_false {f : Fmt} {n : Nat} {k : Int} (hn : n ≤ f.max.1) (hk : k ≤ f.max.2) : f.exceeds n k = false := by
  have : n ≤ f.max.1 * 2 ^ (f.max.2 - k).toNat := hn.trans (Nat.le_mul_of_pos_right _ (by positivity))
  simpa [Fmt.exceeds, hk] using this

/-- n * 2^k in the form the format stores it: at most `p` bits, all of them used unless k is the smallest exponent, and k in range. -/
structure Fmt.Stores (f : Fmt) (n : Nat) (k : Int) : Prop where
  bits : n < 2 ^ (f.m + 1)
  normal : 2 ^ f.m ≤ n ∨ k = f.qmin
  low : f.qmin ≤ k
  high : k ≤ f.max.2

/-- The grid at a stored magnitude has the step the magnitude is stored with (R326). -/
theorem Fmt.Stores.step_eq {f : Fmt} {n : Nat} {k : Int} (h : f.Stores n k) (hn : n ≠ 0) :
    (if Mag.lead { m := n, e := k, st := false } - f.m < f.qmin then f.qmin else Mag.lead { m := n, e := k, st := false } - f.m) = k := by
  have hle : Nat.log2 n < f.m + 1 := (Nat.log2_lt hn).mpr h.bits
  have hlow := h.low
  have hnormal : f.m ≤ Nat.log2 n ∨ k = f.qmin := h.normal.imp_left (Nat.le_log2 hn).mpr
  simp only [Mag.lead]
  split_ifs <;> omega

theorem roundNum_of_stores {f : Fmt} {n : Nat} {k : Int} (hf : f.e4m3 = false) (h : f.Stores n k) (rm : Rm) (s : Word) (sat neg : Bool) :
    roundNum f rm s sat (.fin neg n k) = { bits := f.encodeGrid neg n k, flags := 0 } := by
  by_cases hn : n = 0
  · simp [roundNum, Fmt.encodeGrid, hn]
  · have hmax : n ≤ f.max.1 := by
      have := h.bits
      simp only [Fmt.max, hf, Bool.false_eq_true, if_false]
      omega
    simp [roundNum, roundMag, hn, h.step_eq hn, roundGrid_self, Fmt.exceeds_eq_false hmax h.high, flagIf]

theorem Fmt.max_exponent {f : Fmt} (hf : f.e4m3 = false) : f.max.2 = f.ones - 1 - f.bias - f.m := by simp [Fmt.max, hf]

theorem Fmt.stores_subnormal {f : Fmt} {fr : Nat} (hf : f.e4m3 = false) (hones : 2 ≤ f.ones) (hfr : fr < 2 ^ f.m) : f.Stores fr f.qmin where
  bits := by rw [pow_succ]; omega
  normal := .inr rfl
  low := le_rfl
  high := by rw [Fmt.max_exponent hf, Fmt.qmin]; omega

theorem Fmt.stores_normal {f : Fmt} {e fr : Nat} (hf : f.e4m3 = false) (he : 0 < e) (hones : e < f.ones) (hfr : fr < 2 ^ f.m) :
    f.Stores (2 ^ f.m + fr) (e - f.bias - f.m) where
  bits := by rw [pow_succ]; omega
  normal := .inl (Nat.le_add_right _ _)
  low := by rw [Fmt.qmin]; omega
  high := by rw [Fmt.max_exponent hf]; omega

theorem Fmt.encodeGrid_subnormal (f : Fmt) (neg : Bool) (fr : Nat) : f.encodeGrid neg fr f.qmin = f.signBit neg + fr := by
  have hexp : (f.qmin + f.m + f.bias).toNat = 1 := by rw [Fmt.qmin]; omega
  rw [Fmt.encodeGrid, hexp]
  split <;> omega

theorem Fmt.encodeGrid_normal (f : Fmt) (neg : Bool) (e fr : Nat) :
    f.encodeGrid neg (2 ^ f.m + fr) (e - f.bias - f.m) = f.signBit neg + (e * 2 ^ f.m + fr) := by
  have hexp : ((e : Int) - f.bias - f.m + f.m + f.bias).toNat = e := by omega
  have hpos : 0 < 2 ^ f.m := by positivity
  rw [Fmt.encodeGrid, hexp, if_neg (by omega)]
  omega

/-- A number of a format with infinities, rounded to that format, is itself, without a flag. -/
theorem fConvert_self {f : Fmt} {x : Nat} (hf : f.e4m3 = false) (hones : 2 ≤ f.ones) (hx : x < 2 ^ f.w)
    (hnan : (decodeNum f x).isNan = false) (rm : Rm) (s : Word) (sat : Bool) : fConvert f f rm s sat x = { bits := x, flags := 0 } := by
  rw [fConvert]
  obtain ⟨neg, ⟨fr, hfr, hd, hb⟩ | ⟨e, fr, he, heo, hfr, hd, hb⟩ | ⟨hd, hb⟩⟩ := decodeNum_cases hf hx hnan
  · rw [hd, roundNum_of_stores hf (Fmt.stores_subnormal hf hones hfr), Fmt.encodeGrid_subnormal, ← hb]
  · rw [hd, roundNum_of_stores hf (Fmt.stores_normal hf he heo hfr), Fmt.encodeGrid_normal, ← hb]
  · rw [hd, roundNum, hf, ← hb]; rfl

/-- The four formats of an operand have infinities and normals. -/
theorem Fmt.operand_format {f : Fmt} (h : f ∈ [f64, f32, f16, bf16]) : f.e4m3 = false ∧ 2 ≤ f.ones := by
  revert f
  decide

end Sys2Proof.Machine

namespace Sys2Proof.Claims
open Sys2Proof Machine

/-- Settles O21: a representable value lies on the grid it is rounded to, and an infinity keeps its encoding. -/
theorem representableValuesStay : Obligations.RepresentableValuesStay := by
  intro f hmem rm s sat x hx hnan
  obtain ⟨hf, hones⟩ := Fmt.operand_format hmem
  rw [fConvert_self hf hones hx hnan]
  exact ⟨rfl, rfl⟩

end Sys2Proof.Claims
end

