-- ==== Sys2Proof/Proofs/LinksAndExchange.lean ====
section
/-! The device as the target of peers and of the host, the answers to its own requests (17 R390, 20 R426 to R429, 23 R476), and the steps of the
exchange unit (20 R434 to R439). -/

namespace Sys2Proof.Machine
open Sys2Proof

theorem State.not_holServes (s : State) : (!s.holServes) = (!s.plat.holUp || decide (s.boot.step = 1) || s.boot.rejected) := by
  simp only [State.holServes, bne, Bool.not_and, Bool.not_not, beq_eq_decide]

theorem State.not_hasTable (s : State) : (!s.hasTable) = decide (s.xchg.descBase = none) := by
  rw [State.hasTable]
  cases s.xchg.descBase <;> rfl

end Sys2Proof.Machine

namespace Sys2Proof.Claims
open Sys2Proof Machine

/-- An event that does what the claim says under its condition and otherwise nothing. -/
theorem brings_of_when {e : Instr} {c : State → Bool} {f : State → State} (h : ∀ s, exec e s = .next (if c s then f s else s)) :
    Brings e fun s => if c s then some (f s) else none := by
  intro s s' hs
  obtain ⟨hc, hdone⟩ := Option.ite_none_right_eq_some.mp hs
  rw [h, if_pos hc]
  exact next_of_some hdone

/-! ## Requests of peers -/

theorem brings_linkReadRequest (peer pa n : Nat) : Brings (.evLinkReadRequest peer pa n) fun s =>
    if !requestOk pa n then none
    else match s.portSpot pa n with
      | .memory p => some (if s.stalls false p n then s.stallRequest (.evLinkReadRequest peer pa n)
          else (s.portRead p n).1.answer peer (s.portRead p n).2.isNone ((s.portRead p n).2.getD []))
      | _ => none := by
  intro s s' h
  obtain ⟨hok, h⟩ := Option.ite_none_left_eq_some.mp h
  show execEvLinkReadRequest peer pa n s = _
  rw [execEvLinkReadRequest, if_neg hok]
  generalize s.portSpot pa n = spot at h ⊢
  cases spot with
  | memory => exact next_of_some h
  | window | refused => cases h

theorem brings_linkWriteRequest (peer pa : Nat) (data : List Byte) (enables : List Bool) :
    Brings (.evLinkWriteRequest peer pa data enables) fun s =>
    if !requestOk pa data.length || enables.length != data.length then none
    else match s.portSpot pa data.length with
      | .window off => if data.length = 64 ∧ enables.all id = true then some (s.packet peer off data none) else none
      | .memory p => some (if s.stalls true p data.length then s.stallRequest (.evLinkWriteRequest peer pa data enables)
          else (s.portWrite p data enables).1.answer peer (!(s.portWrite p data enables).2) [])
      | .refused => none := by
  intro s s' h
  obtain ⟨hok, h⟩ := Option.ite_none_left_eq_some.mp h
  show execEvLinkWriteRequest peer pa data enables s = _
  rw [execEvLinkWriteRequest, if_neg hok]
  generalize s.portSpot pa data.length = spot at h ⊢
  cases spot with
  | window =>
    obtain ⟨hline, hdone⟩ := Option.ite_none_right_eq_some.mp h
    dsimp only
    rw [if_pos hline]
    exact next_of_some hdone
  | memory => exact next_of_some h
  | refused => cases h

theorem brings_linkAtomicRequest (peer pa op : Nat) (wide : Bool) (x c : BitVec 64) :
    Brings (.evLinkAtomicRequest peer pa op wide x c) fun s =>
    let n := if op ≥ 16 then 16 else if wide then 8 else 4
    if pa % n ≠ 0 ∨ (12 ≤ op ∧ op < 16) ∨ op > 21 then none
    else match s.portSpot pa n with
      | .memory p => some (if s.stalls true p n then s.stallRequest (.evLinkAtomicRequest peer pa op wide x c)
          else if op ≥ 16 then s.portBar peer p (portStep op x.toNat c.toNat) else s.portAtomic peer p op n x.toNat c.toNat)
      | _ => none := by
  intro s s' h
  obtain ⟨hok, h⟩ := Option.ite_none_left_eq_some.mp h
  show execEvLinkAtomicRequest peer pa op wide x c s = _
  unfold execEvLinkAtomicRequest
  dsimp only
  rw [if_neg hok]
  generalize s.portSpot pa _ = spot at h ⊢
  cases spot with
  | memory => exact next_of_some h
  | window | refused => cases h

theorem brings_reductionPacket (peer off : Nat) (data : List Byte) : Brings (.evReductionPacket peer off data) fun s =>
    if peer = Config.deviceId then none else some (s.packet peer off data none) := by
  intro s s' h
  obtain ⟨hpeer, hdone⟩ := Option.ite_none_left_eq_some.mp h
  show execEvReductionPacket peer off data s = _
  rw [execEvReductionPacket, if_neg hpeer]
  exact next_of_some hdone

/-! ## Accesses of the host -/

theorem brings_hostRead (pa n : Nat) : Brings (.evHostRead pa n) fun s =>
    if !s.plat.holUp || s.boot.step = 1 || s.boot.rejected || n > 4096 then none
    else match s.portSpot pa n with
      | .memory p => some (if s.stalls false p n then s.stallRequest (.evHostRead pa n)
          else (s.portRead p n).1.hol 0x11 0 [(s.portRead p n).2.isNone.toNat] ((s.portRead p n).2.getD []))
      | _ => some (s.hol 0x11 0 [1] []) := by
  intro s s' h
  obtain ⟨hserves, h⟩ := Option.ite_none_left_eq_some.mp h
  show execEvHostRead pa n s = _
  rw [execEvHostRead, s.not_holServes, holLimit, if_neg hserves]
  generalize s.portSpot pa n = spot at h ⊢
  cases spot with
  | memory => exact next_of_some h
  | window | refused => exact next_of_some h

theorem brings_hostWrite (pa : Nat) (data : List Byte) : Brings (.evHostWrite pa data) fun s =>
    if !s.plat.holUp || s.boot.step = 1 || s.boot.rejected || data.length > 4096 then none
    else match s.portSpot pa data.length with
      | .memory p => some (if s.stalls true p data.length then s.stallRequest (.evHostWrite pa data)
          else ((s.physWrite p data).1.tableWritten p data.length s).hol 0x13 0 [(s.physWrite p data).2.isSome.toNat] [])
      | _ => some (s.hol 0x13 0 [1] []) := by
  intro s s' h
  obtain ⟨hserves, h⟩ := Option.ite_none_left_eq_some.mp h
  show execEvHostWrite pa data s = _
  rw [execEvHostWrite, s.not_holServes, holLimit, if_neg hserves]
  generalize s.portSpot pa data.length = spot at h ⊢
  cases spot with
  | memory => exact next_of_some h
  | window | refused => exact next_of_some h

/-! ## The exchange unit -/

theorem brings_exchangeTableBase (opt : Bool) (base ctx : Nat) : Brings (.evExchangeTableBase opt base ctx) fun s =>
    if opt then some { s with xchg := { s.xchg with optBase := base } }
    else if base % 65536 = 0 then some { s with xchg := { s.xchg with descBase := some base, descCtx := ctx } } else none := by
  intro s s' h
  show execEvExchangeTableBase opt base ctx s = _
  cases opt
  case true => exact next_of_some h
  case false =>
    obtain ⟨halign, hdone⟩ := Option.ite_none_right_eq_some.mp h
    simp only [execEvExchangeTableBase, Bool.false_eq_true, if_false, if_pos halign]
    exact next_of_some hdone

theorem brings_descriptorValidate (i : Nat) : Brings (.evDescriptorValidate i) fun s =>
    match (if i < 4096 then s.entryAddr i else none) with
    | none => some (s.hol 0x31 0 [6, i, 1] [])
    | some a =>
      if s.shardWaits i then some (s.stallRequest (.evDescriptorValidate i)) else
      let d := (s.readDescriptor i).2
      let om := (s.readDescriptor i).1.optRead d
      let r := om.1.header d
      match om.2 with
      | none => none
      | some m =>
        let q := r.1.slotsLocal d m
        if d.zero && decide (d.count ≤ 4194288) && q.1.shardLocal d && headerOk r.2 && optimiserOk d m && q.2 then
          let busy := d.valid && !accumulates r.2
          let s3 := q.1.shardStart d r.2
          let s5 := (if busy then s3.shardBlur d else s3).entryValid a
          some (({ s5 with xchg := { s5.xchg with opts := s5.xchg.opts.filter fun e => e.1 != i } } : State).hol 0x31 0 [6, i, 0] [])
        else some (q.1.hol 0x31 0 [6, i, 1] []) := by
  intro s s' h
  show execEvDescriptorValidate i s = _
  unfold execEvDescriptorValidate
  dsimp only at h
  generalize (if i < 4096 then s.entryAddr i else none) = entry at h ⊢
  cases entry with
  | none => exact next_of_some h
  | some a =>
    dsimp only at h ⊢
    split at h
    case isTrue hwait =>
      rw [if_pos hwait]
      exact next_of_some h
    case isFalse hfree =>
      rw [if_neg hfree]
      split at h
      case h_1 => cases h
      case h_2 m hread =>
        rw [hread]
        simp only [Option.isSome_some, Bool.true_and, Option.getD_some]
        split at h
        case isTrue hvalid =>
          rw [if_pos hvalid]
          exact next_of_some h
        case isFalse hbad =>
          rw [if_neg hbad]
          exact next_of_some h

theorem brings_exchangeClose (i : Nat) : Brings (.evExchangeClose i) fun s =>
    let d := (s.readDescriptor i).2
    let r := (s.readDescriptor i).1.header d
    if s.xchg.descBase = none || !d.valid || s.shardWaits i then none
    else if blockByte r.2 20 = 0 ∧ headerAdvanced r.2 = true then some (r.1.setShard d 1)
    else if blockByte r.2 20 = 1 then
      match r.1.gradient d (BitVec.ofNat 32 (blockWord r.2 16)) 0 d.count with
      | (s1, some g) => match s1.optRead d with
        | (s2, some m) => some ((s2.unitWrite s2.xchg.descCtx (pagePieces (msgBase m 1) g.length) g).setShard d 2)
        | (s2, none) => some (s2.setShard d 2)
      | (s1, none) => some ((s1.optRead d).1.setShard d 4)
    else none := by
  intro s s' h
  dsimp only at h
  obtain ⟨hgo, h⟩ := Option.ite_none_left_eq_some.mp h
  show execEvExchangeClose i s = _
  unfold execEvExchangeClose
  dsimp only
  rw [s.not_hasTable, if_neg hgo]
  split at h
  case isTrue hadvanced =>
    rw [if_pos hadvanced]
    exact next_of_some h
  case isFalse hround =>
    obtain ⟨hclosing, h⟩ := Option.ite_none_right_eq_some.mp h
    rw [if_neg hround, if_pos hclosing]
    generalize State.gradient _ _ _ _ _ = gradient at h ⊢
    obtain ⟨s1, g⟩ := gradient
    cases g with
    | none => exact next_of_some h
    | some g =>
      dsimp only at h ⊢
      generalize s1.optRead _ = read at h ⊢
      obtain ⟨s2, m⟩ := read
      cases m with
      | none => exact next_of_some h
      | some => exact next_of_some h

theorem brings_exchangeOptimise (i : Nat) : Brings (.evExchangeOptimise i) fun s =>
    let d := (s.readDescriptor i).2
    let r := (s.readDescriptor i).1.header d
    if s.xchg.descBase = none || !d.valid || s.shardWaits i || blockByte r.2 20 ≠ 2 || (s.optOf i).isSome || s.calls.any (·.optimiser == some i) then none
    else match r.1.optRead d with
      | (s1, none) => some (s1.setOpt i 5)
      | (s1, some m) =>
        let c := callOfMessage false (optimiserMessage m r.2 d i) s1.xchg.descCtx 0 (optimiserId (blockWord r.2 28) i) 0 0
        match s1.acceptCall { c with optimiser := some i } (fun _ _ => false) (fun st => (st, .ok 0)) with
        | (s2, .ok c2) => some (s2.addCall c2)
        | _ => none := by
  intro s s' h
  dsimp only at h
  obtain ⟨hgo, h⟩ := Option.ite_none_left_eq_some.mp h
  show execEvExchangeOptimise i s = _
  unfold execEvExchangeOptimise
  dsimp only
  rw [s.not_hasTable, if_neg hgo]
  generalize State.optRead _ _ = read at h ⊢
  obtain ⟨s1, m⟩ := read
  cases m with
  | none => exact next_of_some h
  | some m =>
    dsimp only [Option.isNone_some, Option.getD_some] at h ⊢
    generalize s1.acceptCall _ _ _ = accepted at h ⊢
    obtain ⟨s2, r⟩ := accepted
    cases r with
    | ok => exact next_of_some h
    | error => cases h

theorem brings_exchangeBroadcast (i : Nat) : Brings (.evExchangeBroadcast i) fun s =>
    let d := (s.readDescriptor i).2
    let r := (s.readDescriptor i).1.header d
    if s.xchg.descBase = none || !d.valid || s.shardWaits i then none
    else match s.optOf i with
      | some v =>
        if blockByte r.2 20 = 2 ∧ v = 0 then some (r.1.setShard d 3)
        else if blockByte r.2 20 = 3 then some (r.1.broadcast i d r.2 v)
        else none
      | none => none := by
  intro s s' h
  dsimp only at h
  obtain ⟨hgo, h⟩ := Option.ite_none_left_eq_some.mp h
  show execEvExchangeBroadcast i s = _
  unfold execEvExchangeBroadcast
  dsimp only
  rw [s.not_hasTable, if_neg hgo]
  generalize s.optOf i = status at h ⊢
  cases status with
  | none => cases h
  | some v =>
    dsimp only at h ⊢
    split at h
    case isTrue hended =>
      obtain ⟨hstate, hok⟩ := hended
      rw [if_pos hstate, if_pos hok]
      exact next_of_some h
    case isFalse =>
      obtain ⟨hstate, hdone⟩ := Option.ite_none_right_eq_some.mp h
      rw [hstate]
      exact next_of_some hdone

theorem brings_exchangeErrorPath (i : Nat) : Brings (.evExchangeErrorPath i) fun s =>
    let d := (s.readDescriptor i).2
    let r := (s.readDescriptor i).1.header d
    if s.xchg.descBase = none || !d.valid || s.shardWaits i then none
    else if blockByte r.2 20 = 4 ∧ headerAdvanced r.2 = true ∧ !s.calls.any (·.optimiser == some i) then some (r.1.errorPath i d r.2 4)
    else match s.optOf i with
      | some v => if blockByte r.2 20 = 2 ∧ v ≠ 0 then some (r.1.errorPath i d r.2 v) else none
      | none => none := by
  intro s s' h
  dsimp only at h
  obtain ⟨hgo, h⟩ := Option.ite_none_left_eq_some.mp h
  show execEvExchangeErrorPath i s = _
  unfold execEvExchangeErrorPath
  dsimp only
  rw [s.not_hasTable, if_neg hgo]
  split at h
  case isTrue hinvalid =>
    rw [if_pos hinvalid]
    exact next_of_some h
  case isFalse hcall =>
    rw [if_neg hcall]
    generalize s.optOf i = status at h ⊢
    cases status with
    | none => cases h
    | some v =>
      obtain ⟨hfailed, hdone⟩ := Option.ite_none_right_eq_some.mp h
      dsimp only
      rw [if_pos hfailed]
      exact next_of_some hdone

/-- Settles O59: each event, in the case that its claim names, is the branch of its meaning that brings that state. -/
theorem linkHappens : Obligations.LinkHappens :=
  ⟨brings_linkReadRequest, brings_linkWriteRequest, brings_linkAtomicRequest, fun _ => brings_of_next fun _ => rfl,
    fun _ _ _ => brings_of_when fun _ => rfl, brings_reductionPacket, brings_hostRead, brings_hostWrite,
    fun _ _ => brings_of_when fun _ => rfl, fun _ => brings_of_when fun _ => rfl, brings_exchangeTableBase,
    brings_descriptorValidate, brings_exchangeClose, brings_exchangeOptimise, brings_exchangeBroadcast, brings_exchangeErrorPath⟩

end Sys2Proof.Claims
end

