-- ==== Sys2Proof/Proofs/BringUp.lean ====
section
/-! Bring-up of the device, the registers of its channels and base dies, refresh, the control node's link and the limits of power and temperature
(21 R445 to R449, 22 R456 to R468, 23 R470 to R479). -/

namespace Sys2Proof.Claims
open Sys2Proof Machine

/-- `brings_of_when` for a condition that is a decidable proposition: the range of a register's index, or of a part. -/
theorem brings_of_if {e : Instr} {c : State → Prop} [DecidablePred c] {f : State → State}
    (h : ∀ s, exec e s = .next (if c s then f s else s)) : Brings e fun s => if c s then some (f s) else none := by
  intro s s' hs
  obtain ⟨hc, hdone⟩ := Option.ite_none_right_eq_some.mp hs
  rw [h, if_pos hc]
  exact next_of_some hdone

/-- `brings_of_unless` for a meaning that answers in each branch of its condition. -/
theorem brings_of_guard {e : Instr} {c : State → Bool} {f : State → State} (h : ∀ s, exec e s = if c s then .next s else .next (f s)) :
    Brings e fun s => if c s then none else some (f s) :=
  brings_of_unless fun s => by rw [h, apply_ite Host.Outcome.next]

/-! ## Boot -/

theorem brings_imageCheck : Brings .evImageCheck fun s =>
    let b := s.boot
    let good := imageKinds.filter fun k => imageAccepted k b.secCounter ((b.image k).getD [])
    if b.step != 2 || !imageKinds.all (fun k => (b.image k).isSome) then none
    else some (s.modBoot fun b => { b with accepted := good,
                                           measurements := good.map (fun k => (k, sha384 (imageBody ((s.boot.image k).getD [])))),
                                           rejected := good.length != 4, step := if good.length = 4 then 4 else 3 }) := by
  intro s s' h
  obtain ⟨hready, hdone⟩ := Option.ite_none_left_eq_some.mp h
  show execEvImageCheck s = _
  simp only [execEvImageCheck, if_neg hready, beq_iff_eq]
  exact next_of_some hdone

theorem brings_firmwareStart : Brings .evFirmwareStart fun s => match s.boot.image 3 with
    | none => none
    | some im =>
      if s.boot.step != 4 then none
      else
        let s1 : State := { s with baseDies := s.baseDies.map (Stack.loadFirmware im) }
        some (({ s1 with teams := s1.teams ++ (List.range 16).map fun i => (Team.ofFirmware im i).age s.tick } : State).modBoot fun b =>
          { b with step := 6, fwClock := s.clock }) := by
  intro s s' h
  dsimp only at h
  show execEvFirmwareStart s = _
  unfold execEvFirmwareStart
  generalize s.boot.image 3 = image at h ⊢
  cases image with
  | none => cases h
  | some im =>
    obtain ⟨hprovisional, hdone⟩ := Option.ite_none_left_eq_some.mp h
    dsimp only
    rw [if_neg hprovisional]
    exact next_of_some hdone

/-! ## Registers and refresh -/

theorem brings_registerWrite (pa : Nat) (v : Word) : Brings (.evRegisterWrite pa v) fun s => match regPlace pa with
    | .phy st _ _ => some (s.firmStore st pa v)
    | .base st _ => some (s.firmStore st pa v)
    | .hole => none := by
  intro s s' h
  show execEvRegisterWrite pa v s = _
  rw [execEvRegisterWrite]
  generalize regPlace pa = place at h ⊢
  cases place with
  | phy | base => exact next_of_some h
  | hole => cases h

theorem exec_refreshInterval (stack : Nat) (s : State) : exec (.evRefreshInterval stack) s = .next (
    if !(s.getStack stack).allBank then s.modStack stack fun k => { k with postponed := 0 }
    else if (s.getStack stack).postponed < 4 then s.modStack stack fun k => { k with postponed := k.postponed + 1 }
    else s.logSplit stack) := by
  rw [apply_ite Host.Outcome.next, apply_ite Host.Outcome.next]
  rfl

/-- Settles O60: an event either brings its state always or does so under one condition; the check of the images, the start of the firmware, the
write by address and the refresh interval, which branch further, have their own lemmas. -/
theorem deviceHappens : Obligations.DeviceHappens :=
  ⟨-- the steps of the boot (R472, R473)
    brings_of_next fun _ => rfl, fun _ _ => brings_of_when fun _ => rfl, brings_imageCheck, fun _ _ => brings_of_when fun _ => rfl,
    fun _ _ _ => brings_of_next fun _ => rfl, brings_firmwareStart, brings_of_guard fun _ => rfl, fun _ _ => brings_of_when fun _ => rfl,
    brings_of_when fun _ => rfl,
    -- the registers of a channel (R445 to R449, R456, R467)
    fun _ _ _ => brings_of_next fun _ => rfl, fun _ _ => brings_of_next fun _ => rfl, fun _ _ _ _ => brings_of_if fun _ => rfl,
    fun _ _ _ _ => brings_of_if fun _ => rfl, fun _ _ _ _ => brings_of_if fun _ => rfl, fun _ _ _ => brings_of_next fun _ => rfl,
    fun _ _ _ => brings_of_next fun _ => rfl, fun _ _ => brings_of_next fun _ => rfl, fun _ _ _ => brings_of_if fun _ => rfl,
    -- the registers of a stack, and stores by address (R466, R468)
    fun _ _ => brings_of_next fun _ => rfl, fun _ _ => brings_of_next fun _ => rfl, brings_registerWrite,
    -- hot rows, alerts, refresh and fills (R461 to R465)
    fun _ => brings_of_next fun _ => rfl, fun _ _ _ _ _ _ => brings_of_next fun _ => rfl,
    fun stack => brings_of_next (exec_refreshInterval stack), fun _ _ => brings_of_next fun _ => rfl,
    -- the link of the control node and its management messages (R474 to R476)
    brings_of_when fun _ => rfl, brings_of_next fun _ => rfl, brings_of_next fun _ => rfl, brings_of_next fun _ => rfl,
    fun _ => brings_of_when fun _ => rfl, brings_of_when fun _ => rfl, fun _ => brings_of_when fun _ => rfl,
    -- power and temperature (R478, R479)
    fun _ _ => brings_of_if fun _ => rfl, brings_of_next fun _ => rfl, brings_of_next fun _ => rfl⟩

end Sys2Proof.Claims
end

