-- ==== Sys2Proof/Proofs/StepEvents.lean ====
section
/-! A step that runs a waiting event or internal work (DESIGN CHOICE log 1, 23 R479), and what its beginning changes where no launch waits. -/

namespace Sys2Proof.Machine
open Sys2Proof

section
variable {s : State}

theorem step_eq_exec_of_heard {e : Instr} {r : List Instr} (hagenda : s.begin.agenda = e :: r)
    (hheard : e.ctorIdx < 96 ∧ s.begin.hears e = true) : step s = exec e { s.begin with agenda := r } := by
  have hcond : (decide (e.ctorIdx < 96) && s.begin.hears e) = true := by simpa using hheard
  simp only [step, hagenda, if_pos hcond]

theorem step_eq_next_of_not_heard {e : Instr} {r : List Instr} (hagenda : s.begin.agenda = e :: r)
    (hheard : ¬(e.ctorIdx < 96 ∧ s.begin.hears e = true)) : step s = .next { s.begin with agenda := r } := by
  have hcond : ¬(decide (e.ctorIdx < 96) && s.begin.hears e) = true := by simpa using hheard
  simp only [step, hagenda, if_neg hcond]

theorem step_eq_next_of_tripped (hagenda : s.begin.agenda = []) (htrip : s.begin.plat.tripped = true) : step s = .next s.begin := by
  simp only [step, hagenda, if_pos htrip]

theorem step_eq_exec_of_due {e : Instr} (hagenda : s.begin.agenda = []) (htrip : s.begin.plat.tripped = false)
    (hturn : s.begin.turn = true) (hwork : s.begin.workNext = some e) : step s = exec e { s.begin with turn := false } := by
  have hdue : (s.begin.turn && s.begin.workNext.isSome) = true := by rw [hturn, hwork]; rfl
  have hstep : step s = s.begin.work := by simp only [step, hagenda, htrip, Bool.false_eq_true, if_false, if_pos hdue]
  rw [hstep, State.work, hwork]

/-- Where no launch waits, what follows the advance of the clock sends messages and notes waits and watchdog counters. -/
theorem begin_eq_advance_with (hinbox : s.plat.inbox = []) :
    s.begin = { s.advance with links := s.begin.links, holOut := s.begin.holOut, teams := s.begin.teams, ctxs := s.begin.ctxs } := by
  have hlaunches : s.advance.launchesGoOn = s.advance := if_pos (List.isEmpty_iff.mpr hinbox)
  unfold State.begin State.noteWatchdogs
  rw [State.noteWaits_with, State.sendHost_with, hlaunches]

end

end Sys2Proof.Machine

namespace Sys2Proof.Claims
open Sys2Proof Machine

/-- Settles O5, branch by branch of `step`; its beginning is the advance of the clock and what `begin_eq_advance_with` says of the rest. -/
theorem stepRunsEvents : Obligations.StepRunsEvents := by
  intro s
  refine ⟨fun _ _ => step_eq_exec_of_heard, fun _ _ => step_eq_next_of_not_heard, step_eq_next_of_tripped,
    fun _ => step_eq_exec_of_due, fun hinbox => ?_⟩
  have hbegin := begin_eq_advance_with hinbox
  have hclock : s.begin.clock = s.clock + s.pace.headD 1 := by rw [hbegin]; rfl
  refine ⟨?_, hclock⟩
  rw [hclock]
  exact hbegin

end Sys2Proof.Claims
end

