-- ==== Sys2Proof/Proofs/DramLines.lean ====
section
/-! The names of a line of DRAM (22 R452, R453) and the code word made for one of them (R457, R469): a line coded by way of an address reads
under that address without an error. -/

namespace Sys2Proof.Machine
open Sys2Proof

/-! ## Places -/

/-- A place depends on the stack map only. -/
theorem dramPlace_eq_of_stackMap {m m' : Memory} (h : m'.stackMap = m.stackMap) (pa : Nat) : dramPlace m' pa = dramPlace m pa := by
  cases m; cases m'; cases h; rfl

/-- The two ways in which a granule places an address: interleaved over the stacks, and linear in one. -/
theorem dramPlace_cases {m : Memory} {pa stack loc : Nat} (h : dramPlace m pa = some (stack, loc)) :
    ∃ e, ((granule m (pa / 2 ^ 30)).getLsbD 14 = true ∧ stack = pa % 2 ^ 34 / 2 ^ 10 % 16 ∧
        loc = e * 2 ^ 30 + (pa % 2 ^ 34 / 2 ^ 14 * 2 ^ 10 + pa % 2 ^ 34 % 2 ^ 10)) ∨
      ((granule m (pa / 2 ^ 30)).getLsbD 14 = false ∧ loc = e * 2 ^ 30 + pa % 2 ^ 30) := by
  unfold dramPlace at h
  obtain ⟨-, h⟩ := Option.ite_none_left_eq_some.mp h
  obtain ⟨-, h⟩ := Option.ite_none_left_eq_some.mp h
  split at h
  case isTrue hinter =>
    obtain ⟨-, h⟩ := Option.ite_none_right_eq_some.mp h
    cases h
    exact ⟨_, .inl ⟨hinter, rfl, rfl⟩⟩
  case isFalse hlinear =>
    cases h
    exact ⟨_, .inr ⟨Bool.eq_false_iff.mpr hlinear, rfl⟩⟩

/-- A span coded anew heads the list, joined with its neighbours. -/
theorem codeSpan_eq_cons (n : CodeSpan) (cs : List CodeSpan) :
    ∃ lo hi rest, codeSpan n cs = { n with lo := lo, hi := hi } :: rest ∧ lo ≤ n.lo ∧ n.hi ≤ hi :=
  ⟨_, _, _, rfl, List.foldlRecOn (motive := (· ≤ n.lo)) _ _ le_rfl fun _ hle _ _ => (Nat.min_le_left _ _).trans hle,
    List.foldlRecOn (motive := (n.hi ≤ ·)) _ _ le_rfl fun _ hle _ _ => hle.trans (Nat.le_max_left _ _)⟩

/-- A key that no entry has reads the default. -/
theorem assocGet_of_no_key [BEq κ] [LawfulBEq κ] {d : ν} {l : List (κ × ν)} {x : κ} (h : ∀ e ∈ l, e.1 ≠ x) : assocGet d l x = d := by
  induction l with
  | nil => rfl
  | cons e r ih =>
    rw [assocGet, if_neg (by simpa using h e List.mem_cons_self)]
    exact ih fun e' he' => h e' (List.mem_cons_of_mem e he')

section
variable {m : Memory} {pa stack loc lo hi : Nat} (hplace : dramPlace m pa = some (stack, loc))
include hplace

/-- A byte stands at the same offset of its line in an address and in its place. -/
theorem dramPlace_mod_line : loc % 64 = pa % 64 := by
  obtain ⟨e, ⟨-, -, rfl⟩ | ⟨-, rfl⟩⟩ := dramPlace_cases hplace <;> omega

theorem dramAt_of_place : dramAt m pa = some (dramKey stack loc) := by
  rw [dramAt, hplace]; rfl

theorem bytesAt_of_place (n : Nat) : m.bytesAt pa n = memRead m.dram (dramKey stack loc) n := by
  rw [Memory.bytesAt, dramAt_of_place hplace]

/-! ## Lines coded by way of an address -/

/-- The name of a span that `pa` reaches gives the place of `pa` back its line. -/
theorem spanOf_pa (lo' hi' : Nat) :
    ({ m.spanOf pa stack lo hi with lo := lo', hi := hi' } : CodeSpan).pa (loc / 64 * 64) = pa / 64 * 64 := by
  obtain ⟨e, ⟨hinter, rfl, rfl⟩ | ⟨hlinear, rfl⟩⟩ := dramPlace_cases hplace
  · simp only [Memory.spanOf, CodeSpan.pa, hinter, if_true]
    omega
  · simp only [Memory.spanOf, CodeSpan.pa, hlinear, Bool.false_eq_true, if_false]
    omega

theorem codedAt_code (hlo : lo ≤ loc) (hhi : loc < hi) : (m.code pa stack lo hi).codedAt stack loc = some (pa / 64 * 64) := by
  obtain ⟨lo', hi', rest, hspans, hlo', hhi'⟩ := codeSpan_eq_cons (m.spanOf pa stack lo hi) m.codes
  have hlow : lo' ≤ loc := hlo'.trans hlo
  have hhigh : loc < hi' := hhi.trans_le hhi'
  have hcodes : (m.code pa stack lo hi).codes = { m.spanOf pa stack lo hi with lo := lo', hi := hi' } :: rest := hspans
  have hfound : ((m.spanOf pa stack lo hi).stack == stack && decide (lo' ≤ loc) && decide (loc < hi')) = true := by
    simp [Memory.spanOf, hlow, hhigh]
  rw [Memory.codedAt, hcodes, List.find?_cons_of_pos (by exact hfound), Option.map_some, spanOf_pa hplace]

/-- Lines coded by way of an address read under it without an error. -/
theorem errsAt_code (hlo : lo ≤ loc / 64 * 64) (hhi : loc < hi) : (m.code pa stack lo hi).errsAt pa stack loc = [] := by
  have hclean : assocGet [] (m.code pa stack lo hi).lineErrs (dramKey stack loc / 64 * 64) = [] := by
    refine assocGet_of_no_key fun e he hkey => ?_
    have hkept := (List.mem_filter.mp he).2
    simp only [hkey, dramKey, Bool.not_eq_true', Bool.and_eq_false_iff, decide_eq_false_iff_not] at hkept
    omega
  rw [Memory.errsAt, hclean, codedAt_code hplace (by omega) hhi]
  exact if_pos rfl

theorem errsAt_codeLine : (m.codeLine pa stack loc).errsAt pa stack loc = [] := by
  unfold Memory.codeLine
  split
  case isTrue hcoded =>
    simp only [Bool.and_eq_true, beq_iff_eq, List.isEmpty_iff] at hcoded
    rw [Memory.errsAt, hcoded.1, hcoded.2]
    exact if_pos rfl
  case isFalse => exact errsAt_code hplace le_rfl (by omega)

end

theorem codeLine_stackMap (m : Memory) (pa stack loc : Nat) : (m.codeLine pa stack loc).stackMap = m.stackMap := by
  unfold Memory.codeLine; split <;> rfl

end Sys2Proof.Machine
end

