-- ==== Sys2Proof/Proofs/DramAccess.lean ====
section
/-! Reads and writes of one line of DRAM: the check of the line (22 R459) and a region that is not live (R464). -/

namespace Sys2Proof.Machine
open Sys2Proof

/-! ## Rows and stacks (R461, R464) -/

/-- A change of a stack that leaves which regions are live. -/
theorem getStack_modStack_dead (s : State) (i j : Nat) {f : Stack → Stack} (hf : ∀ k, (f k).dead = k.dead) :
    ((s.modStack i f).getStack j).dead = (s.getStack j).dead := by
  rw [State.getStack, State.getStack, State.modStack_baseDies, modAt_getElem?]
  split
  · cases s.baseDies[j]? with
    | none => rfl
    | some k => exact hf k
  · rfl

theorem count_dead (s : State) (stack ch off j : Nat) : ((s.count stack ch off).getStack j).dead = (s.getStack j).dead :=
  getStack_modStack_dead s stack j fun _ => rfl

theorem openRow_dead (s : State) (go : Bool) (pa j : Nat) : ((s.openRow go pa).getStack j).dead = (s.getStack j).dead := by
  unfold State.openRow
  split
  · rfl
  · exact getStack_modStack_dead s _ j fun _ => rfl

theorem activateIf_false (k : Stack) (ch pc bank row : Nat) : k.activateIf false ch pc bank row = k := by
  simp [Stack.activateIf, Stack.logIf]

/-- A region that is not live is not accessed: no row opens. -/
theorem openRow_of_dead {s : State} {pa stack loc : Nat} (hplace : dramPlace s.mem pa = some (stack, loc))
    (hdead : (s.getStack stack).dead.contains (loc / 2 ^ 20) = true) (go : Bool) : s.openRow go pa = s := by
  have hsame : modAt (fun k : Stack => k.activateIf (go && !k.dead.contains (loc / 2 ^ 20) && Config.opensRow s.tick pa) (channelOf loc)
      (pseudoOf loc) (bankOf loc) (rowOf loc)) s.baseDies stack = s.baseDies :=
    modAt_eq_self fun k hk => by
      have hdead' : k.dead.contains (loc / 2 ^ 20) = true := by simpa only [State.getStack, hk, Option.getD_some] using hdead
      rw [hdead', Bool.not_true, Bool.and_false, Bool.false_and, activateIf_false]
  simp only [State.openRow, hplace, State.modStack, hsame]

/-- Where a row opens depends on the stack map, the tick and the stacks. -/
theorem openRow_setMem_baseDies {s : State} {m : Memory} (h : m.stackMap = s.mem.stackMap) (go : Bool) (pa : Nat) :
    ((s.setMem m).openRow go pa).baseDies = (s.openRow go pa).baseDies := by
  simp only [State.openRow, State.setMem_mem, dramPlace_eq_of_stackMap h]
  split <;> rfl

/-! ## The check of a line (R459) -/

section
variable {s : State} {pa stack loc : Nat}

theorem checkLine_of_clean (hclean : s.mem.errsAt pa stack loc = []) : s.checkLine pa stack loc = (s, none) := by
  rw [State.checkLine, hclean]

section
variable (herrs : s.mem.errsAt pa stack loc ≠ []) (hsymbols : ∀ e ∈ s.mem.errsAt pa stack loc, e.1 < 80)
  (hfew : (s.mem.errsAt pa stack loc).length ≤ 4)
include herrs hsymbols hfew

/-- One to four errors in the 80 symbols: in an address position they refuse the line, elsewhere they are corrected. -/
theorem checkLine_of_few : s.checkLine pa stack loc =
    if (s.mem.errsAt pa stack loc).any fun e => decide (64 ≤ e.1) && decide (e.1 < 72) then
      (s.count stack (channelOf loc) 0x18, some cMisdirected)
    else ((s.setMem (s.mem.codeLine pa stack loc)).count stack (channelOf loc) 0x10, none) := by
  have hnone : ¬((s.mem.errsAt pa stack loc).any fun e => decide (80 ≤ e.1)) = true := by
    simpa [List.any_eq_true] using fun a b hab => hsymbols (a, b) hab
  unfold State.checkLine
  split
  case h_1 hclean => exact absurd hclean herrs
  case h_2 => rw [if_neg hnone, if_pos hfew]

theorem checkLine_of_stored (hstored : ∀ e ∈ s.mem.errsAt pa stack loc, ¬(64 ≤ e.1 ∧ e.1 < 72)) :
    s.checkLine pa stack loc = ((s.setMem (s.mem.codeLine pa stack loc)).count stack (channelOf loc) 0x10, none) := by
  rw [checkLine_of_few herrs hsymbols hfew, if_neg]
  simpa only [List.any_eq_true, Bool.and_eq_true, decide_eq_true_eq, not_exists, not_and] using hstored

theorem checkLine_of_address (haddress : ∃ e ∈ s.mem.errsAt pa stack loc, 64 ≤ e.1 ∧ e.1 < 72) :
    s.checkLine pa stack loc = (s.count stack (channelOf loc) 0x18, some cMisdirected) := by
  rw [checkLine_of_few herrs hsymbols hfew, if_pos]
  simpa only [List.any_eq_true, Bool.and_eq_true, decide_eq_true_eq] using haddress

end

/-! ## Reads -/

section
variable (hplace : dramPlace s.mem pa = some (stack, loc))
include hplace

/-- A region that is not live reads zeros and counts, and opens no row. -/
theorem dramRead_of_dead (hdead : (s.getStack stack).dead.contains (loc / 2 ^ 20) = true) (n : Nat) :
    s.dramRead pa n = (s.count stack (channelOf loc) 0x1c, .ok (bytesOf n 0)) := by
  have hstill : ((s.count stack (channelOf loc) 0x1c).getStack stack).dead.contains (loc / 2 ^ 20) = true := by rwa [count_dead]
  simp only [State.dramRead, State.dramLook, hplace, if_pos hdead]
  rw [openRow_of_dead (s := s.count stack (channelOf loc) 0x1c) hplace hstill]

variable (hlive : (s.getStack stack).dead.contains (loc / 2 ^ 20) = false)
include hlive

/-- A line that its check passes delivers its bytes, where no two calls overlap. -/
theorem dramRead_of_checked {s1 : State} (hcheck : s.checkLine pa stack loc = (s1, none)) (hclash : s1.calls.all (·.clash.isEmpty) = true)
    (n : Nat) : s.dramRead pa n = (s1.openRow true pa, .ok (memRead s1.mem.dram (dramKey stack loc) n)) := by
  simp only [State.dramRead, State.dramLook, hplace, hlive, Bool.false_eq_true, if_false, hcheck, State.blur, if_pos hclash]

theorem dramRead_of_refused {s1 : State} {c : BitVec 8} (hcheck : s.checkLine pa stack loc = (s1, some c)) (n : Nat) :
    s.dramRead pa n = (s1.openRow true pa, .bad c) := by
  simp only [State.dramRead, State.dramLook, hplace, hlive, Bool.false_eq_true, if_false, hcheck]

end

end

end Sys2Proof.Machine

namespace Sys2Proof.Claims
open Sys2Proof Machine

/-- Settles O28: the read is what `checkLine` makes of the errors, and a corrected line is coded anew (`errsAt_codeLine`). -/
theorem lineCorrection : Obligations.LineCorrection := by
  intro s stack loc pa n errs hplace hlive herrs hsymbols _ hclash
  subst herrs
  refine ⟨fun hclean => ?_, fun herrs hfew hstored => ?_, fun herrs hfew haddress => ?_⟩
  · rw [dramRead_of_checked hplace hlive (checkLine_of_clean hclean) hclash, bytesAt_of_place hplace]
  · have hread := dramRead_of_checked hplace hlive (checkLine_of_stored herrs hsymbols hfew hstored) hclash n
    have hmem : (s.dramRead pa n).1.mem = s.mem.codeLine pa stack loc := by rw [hread, openRow_mem]; rfl
    refine ⟨?_, ?_, ?_, ?_⟩
    · rw [hread, bytesAt_of_place hplace, count_mem, State.setMem_mem, codeLine_dram]
    · rw [hmem, errsAt_codeLine hplace]
    · rw [hmem, codeLine_dram]
    · rw [hread]
      exact openRow_setMem_baseDies (s := s.count stack (channelOf loc) 0x10) (codeLine_stackMap _ _ _ _) true pa
  · exact dramRead_of_refused hplace hlive (checkLine_of_address herrs hsymbols hfew haddress) n

end Sys2Proof.Claims
end

