-- ==== Sys2Proof/Proofs/DeadRegions.lean ====
section
/-! A write to a region of DRAM that is not live (22 R464): the region becomes live and is filled with zeros, and the line is then merged and coded
like any other (R457, R458). -/

namespace Sys2Proof.Machine
open Sys2Proof

/-! ## Bytes cleared -/

/-- Entries dropped by address read 0, the others as before. -/
theorem memGet_filter {p : Nat → Bool} {x : Nat} : ∀ {m : Mem} {a : Nat}, memWfFrom a m = true →
    memGet (m.filter fun e => p e.1) x = if p x then memGet m x else 0
  | [], _, _ => (ite_self 0).symm
  | (k, v) :: r, a, h => by
    simp only [memWfFrom, Bool.and_eq_true] at h
    have ih := memGet_filter (p := p) (x := x) h.2
    have hbelow : x ≤ k → memGet (r.filter fun e => p e.1) x = 0 := fun hx => memGet_below (memFilter_wf h.2) (by omega)
    rw [List.filter_cons]
    rcases lt_trichotomy x k with hlt | rfl | hgt
    · simp [apply_ite (memGet · x), memGet, hlt, hbelow hlt.le]
    · simp [apply_ite (memGet · x), memGet, hbelow le_rfl]
    · simp [apply_ite (memGet · x), memGet, hgt.not_gt, hgt.ne', ih]

theorem memGet_memClear {m : Mem} (hm : memWfFrom 0 m = true) (a n x : Nat) :
    memGet (memClear m a n) x = if a ≤ x ∧ x < a + n then 0 else memGet m x := by
  rw [memClear, memGet_filter (p := fun y => decide (y < a) || decide (y ≥ a + n)) hm]
  by_cases hin : a ≤ x ∧ x < a + n
  · rw [if_pos hin, if_neg (by simp; omega)]
  · rw [if_neg hin, if_pos (by simp; omega)]

/-! ## The region -/

/-- Where a region begins in a stack. -/
def regionBase (loc : Nat) : Nat := loc / 2 ^ 20 * 2 ^ 20

section
variable {s : State} {pa stack loc : Nat} (hdead : (s.getStack stack).dead.contains (loc / 2 ^ 20) = true)
include hdead

theorem makeLive_mem : (s.makeLive pa stack (loc / 2 ^ 20)).mem =
    { s.mem with dram := memClear s.mem.dram (dramKey stack (regionBase loc)) (2 ^ 20) }.code pa stack (regionBase loc)
      (regionBase loc + 2 ^ 20) := by
  rw [State.makeLive, if_pos hdead]; rfl

theorem makeLive_live (hstack : (s.baseDies[stack]?).isSome = true) :
    ((s.makeLive pa stack (loc / 2 ^ 20)).getStack stack).dead.contains (loc / 2 ^ 20) = false := by
  obtain ⟨k, hk⟩ := Option.isSome_iff_exists.mp hstack
  rw [State.makeLive, if_pos hdead]
  simp [State.getStack, hk]

theorem makeLive_errsAt (hplace : dramPlace s.mem pa = some (stack, loc)) :
    (s.makeLive pa stack (loc / 2 ^ 20)).mem.errsAt pa stack loc = [] := by
  rw [makeLive_mem hdead]
  exact errsAt_code (by rwa [dramPlace_eq_of_stackMap rfl]) (by unfold regionBase; omega) (by unfold regionBase; omega)

end

/-! ## The line -/

/-- What a line write that passes its checks does in memory once its region is live. -/
def State.putLine (s : State) (pa stack loc : Nat) (ps : List (Nat × List Byte)) : State :=
  ((s.setMem ({ s.mem with dram := putPieces s.mem ps }.codeLine pa stack loc)).wakeLine pa).openRow true pa

theorem requeue_baseDies (s : State) (p : Team → Thread → Bool) : (s.requeue p).baseDies = s.baseDies := by
  unfold State.requeue; split <;> rfl

section
variable {s : State} {pa stack loc : Nat}

theorem lineWrite_of_clean (hplace : dramPlace s.mem pa = some (stack, loc))
    (hclean : (s.makeLive pa stack (loc / 2 ^ 20)).mem.errsAt pa stack loc = []) (whole : Bool) (ps : List (Nat × List Byte)) :
    s.lineWrite pa whole ps = ((s.makeLive pa stack (loc / 2 ^ 20)).putLine pa stack loc ps, none) := by
  simp only [State.lineWrite, hplace, checkLine_of_clean hclean, State.putLine, ite_self]

theorem putLine_mem (ps : List (Nat × List Byte)) :
    (s.putLine pa stack loc ps).mem = { s.mem with dram := putPieces s.mem ps }.codeLine pa stack loc := by
  rw [State.putLine, openRow_mem, wakeLine_mem, State.setMem_mem]

theorem putLine_dead (ps : List (Nat × List Byte)) (j : Nat) : ((s.putLine pa stack loc ps).getStack j).dead = (s.getStack j).dead := by
  rw [State.putLine, openRow_dead, State.getStack, State.wakeLine, requeue_baseDies, State.setMem_baseDies, State.getStack]

theorem putPieces_of_place {m : Memory} (hplace : dramPlace m pa = some (stack, loc)) (bs : List Byte) :
    putPieces m [(pa, bs)] = memWrite m.dram (dramKey stack loc) bs := by
  rw [putPieces, List.foldl_cons, List.foldl_nil, dramAt_of_place hplace]

end

/-! ## A write to a region that is not live -/

section
variable {s : State} {pa stack loc : Nat} (hplace : dramPlace s.mem pa = some (stack, loc))
  (hdead : (s.getStack stack).dead.contains (loc / 2 ^ 20) = true) (bs : List Byte)
include hplace hdead

theorem dramWrite_of_dead : s.dramWrite pa bs = ((s.makeLive pa stack (loc / 2 ^ 20)).putLine pa stack loc [(pa, bs)], none) :=
  lineWrite_of_clean hplace (makeLive_errsAt hdead hplace) _ _

theorem dramPlace_dramWrite_of_dead : dramPlace (s.dramWrite pa bs).1.mem pa = some (stack, loc) := by
  rw [dramWrite_of_dead hplace hdead, putLine_mem, dramPlace_eq_of_stackMap (codeLine_stackMap _ _ _ _), makeLive_mem hdead]
  exact hplace

theorem dram_dramWrite_of_dead : (s.dramWrite pa bs).1.mem.dram =
    memWrite (memClear s.mem.dram (dramKey stack (regionBase loc)) (2 ^ 20)) (dramKey stack loc) bs := by
  have hplace' : dramPlace (s.makeLive pa stack (loc / 2 ^ 20)).mem pa = some (stack, loc) := by rw [makeLive_mem hdead]; exact hplace
  rw [dramWrite_of_dead hplace hdead, putLine_mem, codeLine_dram]
  show putPieces _ _ = _
  rw [putPieces_of_place hplace', makeLive_mem hdead]
  rfl

end

end Sys2Proof.Machine

namespace Sys2Proof.Claims
open Sys2Proof Machine

/-- Settles O27: the read is `dramRead_of_dead`; the write leaves the region cleared but for its bytes (`dram_dramWrite_of_dead`), all of which lie in
the region, since they lie in one line of it. -/
theorem deadRegion : Obligations.DeadRegion := by
  intro s stack loc pa k hcanonical hplace hstack hkdead
  have hdead : (s.getStack stack).dead.contains (loc / 2 ^ 20) = true := by rwa [State.getStack, hstack]
  refine ⟨fun n _ => dramRead_of_dead hplace hdead n, fun bs hline => ?_⟩
  have hmem : memWfFrom 0 s.mem.dram = true := hcanonical.1
  have hclear := memClear_wf (x := dramKey stack (regionBase loc)) (n := 2 ^ 20) hmem
  have hdram := dram_dramWrite_of_dead hplace hdead bs
  have hwritten : memRead (s.dramWrite pa bs).1.mem.dram (dramKey stack loc) bs.length = bs := by rw [hdram, memRead_memWrite hclear]
  have hoffset := dramPlace_mod_line hplace
  refine ⟨?_, ?_, ?_, hwritten, fun x hlo hhi hout => ?_, fun x hout => ?_⟩
  · rw [dramWrite_of_dead hplace hdead]
  · rw [dramWrite_of_dead hplace hdead, putLine_dead, makeLive_live hdead (by rw [hstack]; rfl)]
  · rw [bytesAt_of_place (dramPlace_dramWrite_of_dead hplace hdead bs), hwritten]
  · rw [hdram, memGet_memWrite_outside hclear hout, memGet_memClear hmem, if_pos ⟨hlo, hhi⟩]
  · have houtside : ¬(dramKey stack loc ≤ x ∧ x < dramKey stack loc + bs.length) := by
      unfold dramKey at hout ⊢
      omega
    rw [hdram, memGet_memWrite_outside hclear houtside, memGet_memClear hmem]
    exact if_neg hout

end Sys2Proof.Claims
end

