-- ==== Sys2Proof/Proofs/FaultReplies.lean ====
section
/-! Fault records and the control node's replies (10 R281, R282, R485). -/

namespace Sys2Proof.Claims

open Sys2Proof Machine

theorem brings_faultRecordWrite (ctx : Nat) : Brings (.evFaultRecordWrite ctx) fun s => match s.ctxOf ctx with
    | none => none
    | some c => match c.held with
      | [] => none
      | r :: rest =>
        if c.fqWritten ≥ c.fqConsumed + c.fqCap ∨ s.unitWaits ctx true (c.fqBase + 64 * (c.fqWritten % c.fqCap)) 64 = true then none
        else
          let w := s.recordWrite ctx c.fqWritten (c.fqBase + 64 * (c.fqWritten % c.fqCap)) r.bytes
          some (if w.2 then (w.1.modCtx ctx fun x => { x with held := rest, fqWritten := c.fqWritten + 1 }).hol 0x20 ctx [c.fqWritten] []
            else w.1) := by
  intro s s' h
  dsimp only at h
  split at h
  case h_1 => cases h
  case h_2 c hc =>
    split at h
    case h_1 => cases h
    case h_2 r rest hheld =>
      obtain ⟨hroom, hdone⟩ := Option.ite_none_left_eq_some.mp h
      show execEvFaultRecordWrite ctx s = _
      simp only [execEvFaultRecordWrite, hc, hheld, Bool.or_eq_true, decide_eq_true_eq, if_neg hroom]
      exact next_of_some hdone

/-- Settles O56: a record that finds room is written, and each reply is what its event does in every state. -/
theorem faultReplyHappens : Obligations.FaultReplyHappens :=
  ⟨brings_faultRecordWrite, fun _ _ _ _ => brings_of_next fun _ => rfl, fun _ _ _ _ => brings_of_next fun _ => rfl,
    fun _ _ _ _ => brings_of_next fun _ => rfl, fun _ _ => brings_of_next fun _ => rfl⟩

end Sys2Proof.Claims
end

