-- ==== Sys2Proof/Proofs/Launches.lean ====
section
/-! Launches, placement, ends, saves and restores of teams, contexts, queues and the watchdog (10 R258 to R283, 13 R309, R317). -/

namespace Sys2Proof.Claims

open Sys2Proof Machine

/-! ## Launches -/

theorem takeLaunches_nil (s : State) : s.takeLaunches [] = { s with plat := { s.plat with inbox := [] } } := rfl

theorem takeLaunches_of_waiting {s s1 : State} {m : HeldPacket} {r : List HeldPacket} (hwho : m.who = none)
    (hsubmit : s.submit m.ctx none m.packet m.args = (s1, none)) :
    s.takeLaunches (m :: r) = { s1 with plat := { s1.plat with inbox := m :: r } } := by
  change (if m.who.isSome then _ else _) = _
  rw [hwho, hsubmit]
  rfl

theorem takeLaunches_of_answered {s s1 : State} {m : HeldPacket} {r : List HeldPacket} {code handle : Nat} (hwho : m.who = none)
    (hsubmit : s.submit m.ctx none m.packet m.args = (s1, some (code, handle))) :
    s.takeLaunches (m :: r) = (s1.hol 0x02 m.ctx (if code = 0 then [0, handle] else [code]) []).takeLaunches r := by
  change (if m.who.isSome then _ else _) = _
  rw [hwho, hsubmit]
  rfl

theorem brings_holLaunch (ctx : Nat) (packet args : List Byte) : Brings (.evHolLaunch ctx packet args) fun s =>
    if !s.plat.holUp then none
    else if !s.ready then some (s.hol 0x02 ctx [0xff] [])
    else if s.plat.inbox.isEmpty then
      match s.submit ctx none packet args with
      | (s1, some (code, h)) =>
        some (({ s1.hol 0x02 ctx (if code = 0 then [0, h] else [code]) [] with
          plat := { (s1.hol 0x02 ctx (if code = 0 then [0, h] else [code]) []).plat with inbox := [] } } : State))
      | (s1, none) => some { s1 with plat := { s1.plat with inbox := [⟨ctx, none, packet, args⟩] } }
    else some (s.takeLaunches (s.plat.inbox ++ [⟨ctx, none, packet, args⟩])) := by
  intro s s' h
  obtain ⟨hup, h⟩ := Option.ite_none_left_eq_some.mp h
  show execEvHolLaunch ctx packet args s = _
  unfold execEvHolLaunch
  rw [if_neg hup]
  split at h
  · rename_i hnot
    rw [if_pos hnot]
    exact next_of_some h
  · rename_i hready
    rw [if_neg hready]
    split at h
    · rename_i hempty
      rw [List.isEmpty_iff.mp hempty, List.nil_append]
      split at h
      · rename_i s1 code handle hsubmit
        rw [takeLaunches_of_answered (m := ⟨ctx, none, packet, args⟩) rfl hsubmit, takeLaunches_nil]
        exact next_of_some h
      · rename_i s1 hsubmit
        rw [takeLaunches_of_waiting (m := ⟨ctx, none, packet, args⟩) rfl hsubmit]
        exact next_of_some h
    · exact next_of_some h

theorem brings_inputQueuePop (handle : Nat) : Brings (.evInputQueuePop handle) fun s =>
    match s.launches.find? fun l => l.handle == handle with
    | none => none
    | some l =>
      if l.held || l.inq = 0xffff || l.input.isSome then none
      else match s.queueOf l.ctx l.inq with
        | none => none
        | some q => match q.records with
          | [] => none
          | r :: rest => some ((((s.setQueue { q with records := rest }).queueWake q.ctx q.id).modLaunch l.ctx handle fun x =>
              { x with input := some r }).signal l.ctx) := by
  intro s s' h
  dsimp only at h
  split at h
  case h_1 => cases h
  case h_2 l hl =>
    obtain ⟨hwants, h⟩ := Option.ite_none_left_eq_some.mp h
    show execEvInputQueuePop handle s = _
    simp only [execEvInputQueuePop, hl, if_neg hwants]
    generalize s.queueOf l.ctx l.inq = queue at h ⊢
    rcases queue with _ | q
    · cases h
    · dsimp only at h ⊢
      generalize q.records = records at h ⊢
      rcases records with _ | ⟨r, rest⟩
      · cases h
      · exact next_of_some h

theorem brings_placeTeam : Brings .evPlaceTeam fun s => match s.choose 8 with
    | .fresh s1 l core => s1.placeFresh l core
    | .refuse l => some (s.placeRefused l)
    | .save vs => some (s.preempt vs)
    | .compacted s1 => some s1
    | _ => none := by
  intro s s' h
  show execEvPlaceTeam s = _
  unfold execEvPlaceTeam
  dsimp only at h
  generalize s.choose 8 = choice at h ⊢
  cases choice with
  | fresh s1 l core =>
    dsimp only at h ⊢
    rw [h]
    rfl
  | refuse l => exact next_of_some h
  | save vs => exact next_of_some h
  | compacted s1 => exact next_of_some h
  | none => cases h
  | back s1 tm core => cases h

theorem brings_launchComplete (handle : Nat) : Brings (.evLaunchComplete handle) fun s =>
    match s.launches.find? fun l => l.handle == handle with
    | none => none
    | some l =>
      if l.held || l.ended < l.total || s.launchBehind l || (s.completeRelease l).linksDue l.ctx || (s.completeRelease l).outputFull l then none
      else
        let s0 := s.completeRelease l
        let s1 := match (if l.outq = 0xffff then none else s0.queueOf l.ctx l.outq) with
          | some q => (s0.queuePush q (bytesOf 4 l.handle ++ bytesOf 4 l.total ++ bytesOf 8 0)).signal l.ctx
          | none => s0
        let old (t : Team) : Team := if t.kind == .team && t.handle == handle then { t with handle := 0 } else t
        let s3 : State := { s1 with launches := s1.launches.filter fun x => x.handle != handle, teams := s1.teams.map old }
        some (if l.viaHol then s3.hol 0x03 l.ctx [l.handle, l.total] [] else s3) := by
  intro s s' h
  dsimp only at h
  split at h
  case h_1 => cases h
  case h_2 l hl =>
    obtain ⟨hover, hdone⟩ := Option.ite_none_left_eq_some.mp h
    simp only [Bool.or_eq_true, decide_eq_true_eq, not_or, Bool.not_eq_true, Nat.not_lt] at hover
    obtain ⟨⟨⟨⟨hheld, hended⟩, hbehind⟩, hlinks⟩, hfull⟩ := hover
    have hisOver : l.isOver = true := by rw [Launch.isOver, hheld, decide_eq_true hended]; rfl
    show execEvLaunchComplete handle s = _
    simp only [execEvLaunchComplete, hl, hisOver, hbehind, hlinks, hfull, Bool.not_true, Bool.or_self, Bool.false_eq_true, if_false]
    exact next_of_some hdone

/-! ## The end, the save and the restore of a team -/

theorem resident_of_cores {t : Team} (h : t.cores.isEmpty = false) : ∃ core slot, t.place = .resident core slot := by
  unfold Team.cores at h
  split at h
  · rename_i core slot hplace
    exact ⟨core, slot, hplace⟩
  · cases h

theorem brings_teamEnd (tm : Nat) : Brings (.evTeamEnd tm) fun s =>
    let t := s.team tm
    if t.kind != .team || t.cores.isEmpty || !s.overNow tm then none
    else if !s.leaveTurn tm then some (s.queueLeave tm)
    else
      let s2 := ((s.endTokens tm).dropHeld tm).freeBanks tm fun t => { t with place := .ended, leaving := none }
      let s3 : State := { s2 with loads := s2.loads.filter fun d => d.team != tm, landed := s2.landed.filter fun x => x.copy.team != tm }
      let s4 := ((s3.saveFree t.ctx t.spillAt).modLaunch t.ctx t.handle fun l => { l with ended := l.ended + 1, finished := s.tick }).signal t.ctx
      some (if t.leaving == some .watchdog then s4.watchdogPost t.ctx else s4) := by
  intro s s' h
  obtain ⟨hends, h⟩ := Option.ite_none_left_eq_some.mp h
  simp only [Bool.or_eq_true, not_or, Bool.not_eq_true, bne_eq_false_iff_eq] at hends
  obtain ⟨⟨hkind, hcores⟩, hover⟩ := hends
  obtain ⟨core, slot, hplace⟩ := resident_of_cores hcores
  show execEvTeamEnd tm s = _
  simp only [execEvTeamEnd, hkind, hplace, hover, Bool.false_eq_true, if_false]
  split at h
  · rename_i hturn
    rw [if_pos hturn]
    exact next_of_some h
  · rename_i hturn
    rw [if_neg hturn]
    exact next_of_some h

theorem brings_teamRestore (tm : Nat) : Brings (.evTeamRestore tm) fun s => match s.choose 8 with
    | .back s1 k core =>
      if k ≠ tm then none
      else
        let t := s1.team tm
        if (s.fetchSaved tm).2.1.contains .pending || (s.fetchSaved tm).2.2.contains .pending then none
        else
          let r := s1.fetchSaved tm
          let s3 := r.1.recall tm r.2.1
          let slot := s3.freeSlot (t.asks.cores core)
          let s4 := (s3.grantBanks t.asks core slot).saveFree t.ctx t.recordAt
          let s5 := s4.modTeam tm fun x => x.back core slot s4.clock s4.tick (((s4.ctxOf t.ctx).map (·.tswap)).getD 42000) (s.priority t)
          let s6 := (List.range t.groups.length).foldl (fun (st : State) (g : Nat) => st.acquireDev tm g) s5
          some ((((((s6.restorePlane tm r.2.2).woFrames tm).performArrivals tm).releaseAll tm).signal t.ctx).mapChanged (t.asks.cores core))
    | _ => none := by
  intro s s' h
  dsimp only at h
  split at h
  case h_2 => cases h
  case h_1 s1 k core hchoice =>
    obtain ⟨hthis, h⟩ := Option.ite_none_left_eq_some.mp h
    obtain rfl : k = tm := not_not.mp hthis
    obtain ⟨hcome, hdone⟩ := Option.ite_none_left_eq_some.mp h
    show execEvTeamRestore k s = _
    unfold execEvTeamRestore
    rw [hchoice]
    dsimp only
    rw [if_neg hthis, if_neg hcome]
    exact next_of_some hdone

/-- What has been read of a record as its save left it. -/
def unchangedLines (t : Team) : List LinkState :=
  (piecesOf t.recordAt t.saved.length).map fun p => .answered ((t.saved.drop (p.1 - t.recordAt)).take p.2)

theorem mem_zip_map_self {α β : Type} {f : α → β} {xs : List α} {p : α × β} (h : p ∈ xs.zip (xs.map f)) : p.2 = f p.1 := by
  obtain ⟨i, hi, rfl⟩ := List.getElem_of_mem h
  simp

theorem recall_unchangedLines (s : State) (tm : Nat) (hsaved : (s.team tm).saved ≠ []) (hfailing : (s.team tm).failing = []) :
    s.recall tm (unchangedLines (s.team tm)) = { s with links := s.links.filter fun r => !(match r.owner with
      | .saved x _ => x == tm
      | _ => false) } := by
  have hcome : ∀ p ∈ (piecesOf (s.team tm).recordAt (s.team tm).saved.length).zip (unchangedLines (s.team tm)),
      p.2 = .answered (((s.team tm).saved.drop (p.1.1 - (s.team tm).recordAt)).take p.1.2) := fun p hp => mem_zip_map_self hp
  unfold State.recall
  dsimp only
  rw [(List.filter_eq_nil_iff (l := List.zip _ _)).mpr fun p hp => by rw [hcome p hp]; exact Bool.false_ne_true]
  simp only [List.map_nil, List.filter_nil, List.isEmpty_nil, if_true]
  split
  · rfl
  · rename_i hchanged
    refine absurd ?_ hchanged
    simp only [Bool.and_eq_true, List.all_eq_true, Bool.not_eq_true', List.isEmpty_eq_false_iff]
    refine ⟨⟨hsaved, fun p hp => ?_⟩, fun _ h => by cases h⟩
    rw [hcome p hp, hfailing]
    simp

/-! ## The watchdog, contexts and queues -/

theorem brings_watchdogExpiry (ctx : Nat) : Brings (.evWatchdogExpiry ctx) fun s => match s.ctxOf ctx with
    | none => none
    | some c =>
      if !s.watchdogDue c then none
      else
        let stops (t : Team) : Bool := t.ctx == ctx && t.kind == .team && !t.cores.isEmpty
        some (((List.range s.teams.length).foldl (fun (st : State) (k : Nat) => if stops (s.team k) then st.beginSave k .watchdog else st) s).modCtx
          ctx fun x => { x with stopped := true }) := by
  intro s s' h
  dsimp only at h
  split at h
  case h_1 => cases h
  case h_2 c hc =>
    obtain ⟨hdue, hdone⟩ := Option.ite_none_left_eq_some.mp h
    show execEvWatchdogExpiry ctx s = _
    simp only [execEvWatchdogExpiry, hc, if_neg hdue]
    exact next_of_some hdone

theorem brings_kill (ctx : Nat) : Brings (.evKill ctx) fun s =>
    if !s.plat.holUp then none
    else
      let s1 := (List.range s.teams.length).foldl (fun (st : State) (tm : Nat) =>
        if (s.team tm).ctx == ctx && (s.team tm).kind == .team && (s.team tm).place != .ended then st.killTeam tm else st) s
      some ((({ s1 with launches := s1.launches.filter fun l => l.ctx != ctx } : State).modCtx ctx fun c =>
        { c with stopped := false }).signal ctx) := by
  intro s s' h
  obtain ⟨hup, hdone⟩ := Option.ite_none_left_eq_some.mp h
  show execEvKill ctx s = _
  unfold execEvKill
  rw [if_neg hup]
  exact next_of_some hdone

theorem brings_contextCreate (ctx asid fqBase fqCap saveBase saveSize : Nat) :
    Brings (.evContextCreate ctx asid fqBase fqCap saveBase saveSize) fun s =>
      if s.plat.holUp && (s.ctxOf ctx).isNone && decide (ctx < 65536) && decide (asid < 4096) && fqBase % 64 == 0 &&
          decide (64 ≤ fqCap) && decide (fqCap ≤ 65536) then
        some { s with ctxs := s.ctxs ++ [Ctx.create ctx asid fqBase fqCap saveBase saveSize s.clock] }
      else none := by
  intro s s' h
  obtain ⟨hgood, hdone⟩ := Option.ite_none_right_eq_some.mp h
  simp only [Bool.and_eq_true, decide_eq_true_eq, beq_iff_eq, Option.isNone_iff_eq_none] at hgood
  obtain ⟨⟨⟨⟨⟨⟨hup, hnew⟩, hctx⟩, hasid⟩, hbase⟩, hmin⟩, hmax⟩ := hgood
  show execEvContextCreate ctx asid fqBase fqCap saveBase saveSize s = _
  simp only [execEvContextCreate, hup, hnew, hbase, ge_iff_le, Nat.not_le.mpr hctx, Nat.not_le.mpr hasid, Nat.not_lt.mpr hmin,
    gt_iff_lt, Nat.not_lt.mpr hmax, bne_self_eq_false, decide_false, Option.isSome_none, Bool.not_true, Bool.or_self, Bool.false_eq_true, if_false]
  exact next_of_some hdone

theorem brings_queueCreate (ctx id depth : Nat) : Brings (.evQueueCreate ctx id depth) fun s =>
    if s.plat.holUp && decide (id < 1024) && decide (1 ≤ depth) && decide (depth ≤ 65535) && !s.queues.any (·.id == id) then
      some { s with queues := s.queues ++ [{ id := id, ctx := ctx, depth := depth, records := [] }] }
    else none := by
  intro s s' h
  obtain ⟨hgood, hdone⟩ := Option.ite_none_right_eq_some.mp h
  simp only [Bool.and_eq_true, decide_eq_true_eq, Bool.not_eq_true'] at hgood
  obtain ⟨⟨⟨⟨hup, hid⟩, hmin⟩, hmax⟩, hnew⟩ := hgood
  show execEvQueueCreate ctx id depth s = _
  simp only [execEvQueueCreate, hup, hnew, ge_iff_le, gt_iff_lt, Nat.not_le.mpr hid, Nat.not_lt.mpr hmax, Nat.one_le_iff_ne_zero.mp hmin,
    decide_false, Bool.not_true, Bool.or_self, Bool.false_eq_true, if_false]
  exact next_of_some hdone

/-- Settles O57: each message and event, in the case that its claim names, is the branch of its meaning that brings that state. -/
theorem launchHappens : Obligations.LaunchHappens := by
  refine ⟨brings_holLaunch, brings_inputQueuePop, brings_placeTeam, brings_teamEnd, brings_launchComplete,
    fun _ => brings_of_if fun _ => rfl, ?teamSave, fun _ => brings_of_next fun _ => rfl, brings_teamRestore,
    recall_unchangedLines, brings_watchdogExpiry, fun _ => brings_of_unless fun _ => rfl, brings_kill,
    brings_contextCreate, brings_queueCreate, fun _ => brings_of_when fun _ => rfl, fun _ => brings_of_next fun _ => rfl,
    fun _ => brings_of_when fun _ => rfl⟩
  case teamSave =>
    intro tm s s' h
    obtain ⟨hleaves, h⟩ := Option.ite_none_left_eq_some.mp h
    simp only [Bool.or_eq_true, not_or, Bool.not_eq_true] at hleaves
    obtain ⟨⟨⟨⟨hcores, hleaving⟩, hstopped⟩, hwatchdog⟩, hquiet⟩ := hleaves
    show execEvTeamSave tm s = _
    simp only [execEvTeamSave, hcores, hleaving, hstopped, hwatchdog, hquiet, Bool.or_self, Bool.false_eq_true, if_false]
    split at h
    · rename_i hturn
      rw [if_pos hturn]
      exact next_of_some h
    · rename_i hturn
      rw [if_neg hturn]
      dsimp only at h
      generalize State.saveAlloc _ _ _ = room at h ⊢
      rcases room with _ | ⟨s3, addr⟩
      · cases h
      · obtain ⟨hfree, hdone⟩ := Option.ite_none_left_eq_some.mp h
        dsimp only
        rw [if_neg hfree]
        exact next_of_some hdone

end Sys2Proof.Claims
end

