-- ==== Sys2Proof/Proofs/CanonicalForm.lean ====
section
/-! The canonical form of memory as an invariant (DESIGN CHOICE log 3; 10 R264, 20 R414, 22 R452): what it says of a state, a team and a pool, and
that the operations everything else is built from keep it. DRAM changes in the writes of lines alone, the storage of a team where its pool changes. -/

namespace Sys2Proof.Machine

open Sys2Proof

/-- The canonical form of the scratch and the tile storage of a pool. -/
def TeamPool.Canonical (p : TeamPool) : Prop := memWfFrom 0 p.scr = true ∧ memWfFrom 0 p.mxs = true

def Team.Canonical (t : Team) : Prop := t.pool.Canonical

theorem Team.blank_canonical : Team.blank.Canonical := ⟨rfl, rfl⟩

theorem foldl_mem_canonical {β : Type} {f : Mem → β → Mem} (hf : ∀ m x, memWfFrom 0 m = true → memWfFrom 0 (f m x) = true) :
    ∀ {l : List β} {m : Mem}, memWfFrom 0 m = true → memWfFrom 0 (l.foldl f m) = true
  | [], _, hm => hm
  | x :: r, m, hm => foldl_mem_canonical hf (l := r) (hf m x hm)

theorem forall_mem_modAt {α : Type} {f : α → α} {P : α → Prop} (hf : ∀ x, P x → P (f x)) :
    ∀ {l : List α} {i : Nat}, (∀ x ∈ l, P x) → ∀ x ∈ modAt f l i, P x
  | [], _, h => h
  | a :: r, 0, h => by
    rw [modAt, List.forall_mem_cons]
    rw [List.forall_mem_cons] at h
    exact ⟨hf a h.1, h.2⟩
  | a :: r, i + 1, h => by
    rw [modAt, List.forall_mem_cons]
    rw [List.forall_mem_cons] at h
    exact ⟨h.1, forall_mem_modAt hf h.2⟩

end Sys2Proof.Machine

namespace Sys2Proof

open Machine

variable {s s' : State}

/-- A state with the same bytes. -/
theorem MemoryCanonical.other (hs : MemoryCanonical s) (hd : s'.mem.dram = s.mem.dram) (ht : s'.teams = s.teams) :
    MemoryCanonical s' := by
  obtain ⟨hdram, hteams⟩ := hs
  exact ⟨by rw [Memory.wf, hd]; exact hdram, by rw [ht]; exact hteams⟩

theorem MemoryCanonical.withTeams (hs : MemoryCanonical s) (ht : ∀ t ∈ s'.teams, t.Canonical) (hd : s'.mem.dram = s.mem.dram) :
    MemoryCanonical s' := ⟨by rw [Memory.wf, hd]; exact hs.1, ht⟩

theorem MemoryCanonical.mapTeams {f : Team → Team} (hs : MemoryCanonical s) (hf : ∀ t, t.Canonical → (f t).Canonical)
    (hd : s'.mem.dram = s.mem.dram) (ht : s'.teams = s.teams.map f) : MemoryCanonical s' := by
  refine hs.withTeams (fun t hmem => ?_) hd
  rw [ht] at hmem
  obtain ⟨x, hx, rfl⟩ := List.mem_map.mp hmem
  exact hf x (hs.2 x hx)

theorem MemoryCanonical.modTeams {f : Team → Team} {i : Nat} (hs : MemoryCanonical s) (hf : ∀ t, t.Canonical → (f t).Canonical)
    (hd : s'.mem.dram = s.mem.dram) (ht : s'.teams = modAt f s.teams i) : MemoryCanonical s' :=
  hs.withTeams (by rw [ht]; exact forall_mem_modAt hf hs.2) hd

theorem MemoryCanonical.mapIdxTeams {f : Nat → Team → Team} (hs : MemoryCanonical s) (hf : ∀ i t, t.Canonical → (f i t).Canonical)
    (hd : s'.mem.dram = s.mem.dram) (ht : s'.teams = s.teams.mapIdx f) : MemoryCanonical s' := by
  refine hs.withTeams (fun t hmem => ?_) hd
  rw [ht] at hmem
  obtain ⟨i, hi, rfl⟩ := List.mem_mapIdx.mp hmem
  exact hf i _ (hs.2 _ (List.getElem_mem hi))

theorem MemoryCanonical.appendTeams {ts : List Team} (hs : MemoryCanonical s) (hts : ∀ t ∈ ts, t.Canonical)
    (hd : s'.mem.dram = s.mem.dram) (ht : s'.teams = s.teams ++ ts) : MemoryCanonical s' :=
  hs.withTeams (by rw [ht]; exact List.forall_mem_append.mpr ⟨hs.2, hts⟩) hd

theorem MemoryCanonical.mem (hs : MemoryCanonical s) {t : Team} (ht : t ∈ s.teams) : t.Canonical := hs.2 t ht

theorem MemoryCanonical.get (hs : MemoryCanonical s) {tm : Nat} {t : Team} (ht : s.teams[tm]? = some t) : t.Canonical :=
  hs.mem (List.mem_of_getElem? ht)

/-- The first component of a pair that is known. -/
theorem MemoryCanonical.of_eq {α : Type} {p : State × α} {a : α} (hs : MemoryCanonical p.1) (h : p = (s', a)) : MemoryCanonical s' := by
  rw [h] at hs
  exact hs

theorem MemoryCanonical.of_eq_snd {α : Type} {p : α × State} {a : α} (hs : MemoryCanonical p.2) (h : p = (a, s')) : MemoryCanonical s' := by
  rw [h] at hs
  exact hs

end Sys2Proof

namespace Sys2Proof.Machine

open Sys2Proof

variable {s : State}

theorem team_canonical {tm : Nat} (hs : MemoryCanonical s) : (s.team tm).Canonical := by
  unfold State.team
  cases ht : s.teams[tm]? with
  | none => exact Team.blank_canonical
  | some t => exact hs.get ht

theorem foldl_canonical {β : Type} {f : State → β → State} {l : List β} (hf : ∀ st x, MemoryCanonical st → MemoryCanonical (f st x))
    (hs : MemoryCanonical s) : MemoryCanonical (l.foldl f s) := by
  induction l generalizing s with
  | nil => exact hs
  | cons x r ih => exact ih (hf s x hs)

theorem foldl_canonical_fst {β γ : Type} {f : State × γ → β → State × γ} {l : List β} {p : State × γ}
    (hf : ∀ q x, MemoryCanonical q.1 → MemoryCanonical (f q x).1) (hp : MemoryCanonical p.1) : MemoryCanonical (l.foldl f p).1 := by
  induction l generalizing p with
  | nil => exact hp
  | cons x r ih => exact ih (hf p x hp)

theorem setMem_canonical {m : Memory} (hs : MemoryCanonical s) (hd : m.dram = s.mem.dram) : MemoryCanonical (s.setMem m) :=
  hs.other hd rfl

theorem setMem_canonical_of_wf {m : Memory} (hs : MemoryCanonical s) (hm : m.wf = true) : MemoryCanonical (s.setMem m) := ⟨hm, hs.2⟩

theorem modTeam_canonical {tm : Nat} {f : Team → Team} (hs : MemoryCanonical s) (hf : ∀ t, t.Canonical → (f t).Canonical) :
    MemoryCanonical (s.modTeam tm f) := hs.modTeams hf rfl rfl

theorem modGroup_canonical {tm g : Nat} {f : Group → Group} (hs : MemoryCanonical s) : MemoryCanonical (s.modGroup tm g f) :=
  modTeam_canonical hs fun _ ht => ht

theorem modThread_canonical {tm g l : Nat} {f : Thread → Thread} (hs : MemoryCanonical s) : MemoryCanonical (s.modThread tm g l f) :=
  modGroup_canonical hs

theorem Team.modGroup_canonical {t : Team} {g : Nat} {f : Group → Group} (ht : t.Canonical) : (t.modGroup g f).Canonical := ht

theorem ite_canonical {c : Prop} [Decidable c] {a b : State} (ha : MemoryCanonical a) (hb : MemoryCanonical b) :
    MemoryCanonical (if c then a else b) := by
  split
  · exact ha
  · exact hb

theorem ite_canonical_fst {α : Type} {c : Prop} [Decidable c] {a b : State × α} (ha : MemoryCanonical a.1) (hb : MemoryCanonical b.1) :
    MemoryCanonical (if c then a else b).1 := by
  split
  · exact ha
  · exact hb

/-- An outcome whose next state, if it is one, is canonical. -/
def OutCanonical (o : Out) : Prop := ∀ s', o = .next s' → MemoryCanonical s'

theorem outCanonical_next (hs : MemoryCanonical s) : OutCanonical (.next s) := by
  rintro s' ⟨⟩
  exact hs

theorem outCanonical_ite {c : Prop} [Decidable c] {x y : Out} (hx : OutCanonical x) (hy : OutCanonical y) : OutCanonical (if c then x else y) := by
  split
  · exact hx
  · exact hy

theorem outCanonical_fault {f : Fault} : OutCanonical (.fault f) := by
  rintro s' ⟨⟩

end Sys2Proof.Machine
end

