-- ==== Sys2Proof/Proofs/CanonicalDram.lean ====
section
/-! DRAM behind its code, the finish of an instruction and the walk of a table keep the canonical form: a line is corrected or written
byte by byte, a dead region is filled with zeros, and nothing else reaches the bytes. -/

namespace Sys2Proof.Machine

open Sys2Proof

variable {s : State}

theorem modStack_canonical {i : Nat} {f : Stack → Stack} (hs : MemoryCanonical s) : MemoryCanonical (s.modStack i f) := hs.other rfl rfl

theorem count_canonical {stack ch off : Nat} (hs : MemoryCanonical s) : MemoryCanonical (s.count stack ch off) := modStack_canonical hs

theorem Team.queue_canonical {t : Team} (ht : t.Canonical) : t.queue.Canonical := by
  unfold Team.queue
  split <;> exact ht

theorem requeue_canonical {p : Team → Thread → Bool} (hs : MemoryCanonical s) : MemoryCanonical (s.requeue p) := by
  unfold State.requeue
  split
  · extract_lets f
    refine hs.mapTeams ?_ rfl rfl
    intro t ht
    dsimp only [f]
    split
    · split
      · exact Team.queue_canonical ht
      · exact ht
    · exact ht
  · exact hs

theorem wakeLine_canonical {pa : Nat} (hs : MemoryCanonical s) : MemoryCanonical (s.wakeLine pa) := requeue_canonical hs

theorem wakeScratch_canonical {tm off n : Nat} (hs : MemoryCanonical s) : MemoryCanonical (s.wakeScratch tm off n) := by
  unfold State.wakeScratch
  split
  · extract_lets
    split
    · refine hs.modTeams ?_ rfl rfl
      intro t ht
      split
      · exact Team.queue_canonical ht
      · exact ht
    · exact hs
  · exact hs

theorem openRow_canonical {go : Bool} {pa : Nat} (hs : MemoryCanonical s) : MemoryCanonical (s.openRow go pa) := by
  unfold State.openRow
  split
  · exact hs
  · exact modStack_canonical hs

theorem free_canonical (hs : MemoryCanonical s) : MemoryCanonical s.free.2 := hs.other rfl rfl

theorem freeBytes_canonical {n : Nat} (hs : MemoryCanonical s) : MemoryCanonical (s.freeBytes n).2 := by
  induction n generalizing s with
  | zero =>
    rw [State.freeBytes]
    exact hs
  | succ n ih =>
    rw [State.freeBytes]
    split
    have hs1 := (free_canonical hs).of_eq_snd ‹_›
    split
    exact (ih hs1).of_eq_snd ‹_›

theorem freeRange_canonical {lo hi n : Nat} {xs : List Byte} (hs : MemoryCanonical s) : MemoryCanonical (freeRange s lo hi n xs).1 := by
  induction xs generalizing s lo hi n with
  | nil =>
    rw [freeRange]
    exact hs
  | cons x r ih =>
    rw [freeRange]
    split
    have hs1 := (ite_canonical_fst (free_canonical hs) hs).of_eq ‹_›
    split
    exact (ih hs1).of_eq ‹_›

theorem blur_canonical {pa : Nat} {bs : List Byte} (hs : MemoryCanonical s) : MemoryCanonical (s.blur pa bs).1 :=
  ite_canonical_fst hs (foldl_canonical_fst (fun _ _ hst => freeRange_canonical hst) hs)

theorem checkLine_canonical {pa stack loc : Nat} (hs : MemoryCanonical s) : MemoryCanonical (s.checkLine pa stack loc).1 := by
  have hclean : MemoryCanonical (s.setMem (s.mem.codeLine pa stack loc)) := setMem_canonical hs (codeLine_dram ..)
  unfold State.checkLine
  extract_lets
  split
  · exact hs
  split
  · exact count_canonical hs
  split
  · exact ite_canonical_fst (count_canonical hs) (count_canonical hclean)
  split
  · exact count_canonical (setMem_canonical_of_wf hclean (memWrite_wf (Nat.zero_le _) hclean.1))
  · exact count_canonical hs

theorem dramLook_canonical {pa n : Nat} (hs : MemoryCanonical s) : MemoryCanonical (s.dramLook pa n).1 := by
  unfold State.dramLook
  split
  · exact hs
  split
  · exact count_canonical hs
  split
  have hs1 := (checkLine_canonical hs).of_eq ‹_›
  split
  · exact hs1
  split
  exact (blur_canonical hs1).of_eq ‹_›

theorem dramRead_canonical {pa n : Nat} (hs : MemoryCanonical s) : MemoryCanonical (s.dramRead pa n).1 := by
  unfold State.dramRead
  split
  exact openRow_canonical ((dramLook_canonical hs).of_eq ‹_›)

theorem makeLive_canonical {pa stack mib : Nat} (hs : MemoryCanonical s) : MemoryCanonical (s.makeLive pa stack mib) := by
  unfold State.makeLive
  split
  · exact setMem_canonical_of_wf (modStack_canonical hs) (memClear_wf hs.1)
  · exact hs

theorem lineWrite_canonical {pa : Nat} {whole : Bool} {ps : List (Nat × List Byte)} (hs : MemoryCanonical s) :
    MemoryCanonical (s.lineWrite pa whole ps).1 := by
  have put {t : State} (stack loc : Nat) (ht : MemoryCanonical t) : MemoryCanonical
      (((t.setMem ({ t.mem with dram := putPieces t.mem ps }.codeLine pa stack loc)).wakeLine pa).openRow true pa) :=
    openRow_canonical (wakeLine_canonical (setMem_canonical_of_wf ht (codeLine_wf (putPieces_wf ht.1))))
  unfold State.lineWrite
  split
  · exact hs
  extract_lets _ s0
  have hs0 : MemoryCanonical s0 := makeLive_canonical hs
  split
  · exact put _ _ hs0
  split
  have hs1 := (checkLine_canonical hs0).of_eq ‹_›
  split
  · exact hs1
  · exact put _ _ hs1

theorem dramWrite_canonical {pa : Nat} {bytes : List Byte} (hs : MemoryCanonical s) : MemoryCanonical (s.dramWrite pa bytes).1 :=
  lineWrite_canonical hs

theorem resume_canonical (hs : MemoryCanonical s) : MemoryCanonical s.resume := hs.other rfl rfl

theorem Team.writeRegs_canonical {t : Team} {grp base : Nat} {d : Reg} {n : Nat} {full : Bool} {tag : ResTag} {outs : List LaneOut}
    (ht : t.Canonical) :
    (t.writeRegs grp base d n full tag outs).Canonical := by
  unfold Team.writeRegs
  extract_lets
  split
  · exact ht
  split
  · split <;> exact ht
  · exact Team.modGroup_canonical ht

theorem Team.emptyRegs_canonical {t : Team} {grp base : Nat} {d : Reg} {n : Nat} {ls : List Nat} (ht : t.Canonical) :
    (t.emptyRegs grp base d n ls).Canonical := by
  unfold Team.emptyRegs
  extract_lets
  split
  · exact ht
  split
  · exact ht
  · exact Team.modGroup_canonical ht

theorem modCtx_canonical {id : Nat} {f : Ctx → Ctx} (hs : MemoryCanonical s) : MemoryCanonical (s.modCtx id f) := hs.other rfl rfl

theorem signal_canonical {ctx : Nat} (hs : MemoryCanonical s) : MemoryCanonical (s.signal ctx) := modCtx_canonical hs

theorem signalAll_canonical (hs : MemoryCanonical s) : MemoryCanonical s.signalAll := hs.other rfl rfl

theorem modCore_canonical {i : Nat} {f : Core → Core} (hs : MemoryCanonical s) : MemoryCanonical (s.modCore i f) := hs.other rfl rfl

theorem post_canonical {r : FaultRecord} (hs : MemoryCanonical s) : MemoryCanonical (s.post r) := modCtx_canonical hs

theorem postStoreError_canonical {ctx : Nat} {cause : BitVec 8} {va : Nat} (hs : MemoryCanonical s) :
    MemoryCanonical (s.postStoreError ctx cause va) := post_canonical hs

theorem postSliceError_canonical {asid : Nat} {cause : BitVec 8} {va slice : Nat} (hs : MemoryCanonical s) :
    MemoryCanonical (s.postSliceError asid cause va slice) := by
  unfold State.postSliceError
  split
  · exact post_canonical hs
  · exact hs

theorem postAsidError_canonical {asid : Nat} {cause : BitVec 8} {va : Nat} (hs : MemoryCanonical s) :
    MemoryCanonical (s.postAsidError asid cause va) := postSliceError_canonical hs

theorem walkFrom_canonical {asid va level table : Nat} (hs : MemoryCanonical s) : MemoryCanonical (s.walkFrom asid va level table).1 := by
  induction level generalizing s table with
  | zero =>
    rw [State.walkFrom]
    split
    have hs1 := (dramLook_canonical hs).of_eq ‹_›
    split
    · exact hs1
    · exact ite_canonical_fst hs1 (ite_canonical_fst hs1 hs1)
  | succ l ih =>
    rw [State.walkFrom]
    split
    have hs1 := (dramLook_canonical hs).of_eq ‹_›
    split
    · exact hs1
    · exact ite_canonical_fst hs1 (ite_canonical_fst hs1 (ite_canonical_fst hs1 (ih hs1)))

theorem leafAddr_canonical {va level table : Nat} (hs : MemoryCanonical s) : MemoryCanonical (s.leafAddr va level table).1 := by
  induction level generalizing s table with
  | zero =>
    rw [State.leafAddr]
    split
    have hs1 := (dramRead_canonical hs).of_eq ‹_›
    split
    · exact hs1
    · exact ite_canonical_fst hs1 (ite_canonical_fst hs1 hs1)
  | succ l ih =>
    rw [State.leafAddr]
    split
    have hs1 := (dramRead_canonical hs).of_eq ‹_›
    split
    · exact hs1
    · exact ite_canonical_fst hs1 (ite_canonical_fst hs1 (ih hs1))

theorem tbPut_canonical {asid va : Nat} {e : TbEntry} (hs : MemoryCanonical s) : MemoryCanonical (s.tbPut asid va e) :=
  setMem_canonical hs rfl

theorem openRows_canonical {go : Bool} {as : List Nat} (hs : MemoryCanonical s) : MemoryCanonical (s.openRows go as) :=
  foldl_canonical (fun _ _ hst => openRow_canonical hst) hs

theorem translate_canonical {ctx va : Nat} (hs : MemoryCanonical s) : MemoryCanonical (s.translate ctx va).1 := by
  unfold State.translate
  split
  · exact hs
  split
  have hs1 := (walkFrom_canonical hs).of_eq ‹_›
  extract_lets _ _ slow
  split
  · split
    · exact tbPut_canonical (openRows_canonical hs1)
    split
    · exact tbPut_canonical (openRows_canonical hs)
    dsimp only [slow]
    split
    · exact hs
    · exact tbPut_canonical (openRows_canonical hs1)
  · split
    · exact openRows_canonical hs1
    dsimp only [slow]
    split
    · exact hs
    split
    · exact tbPut_canonical (openRows_canonical hs1)
    · exact openRows_canonical hs1

theorem albLookup_canonical {core ctx va : Nat} (hs : MemoryCanonical s) : MemoryCanonical (s.albLookup core ctx va).1 := by
  unfold State.albLookup
  split
  · exact hs
  split
  have hs1 := (translate_canonical hs).of_eq ‹_›
  split
  · exact modCore_canonical hs1
  · exact hs1
  · exact hs1

theorem aliasCheck_canonical {asid va pa : Nat} {attr : BitVec 2} (hs : MemoryCanonical s) :
    MemoryCanonical (s.aliasCheck asid va pa attr).1 := by
  unfold State.aliasCheck
  extract_lets
  split
  · exact ite_canonical_fst hs (setMem_canonical hs rfl)
  · exact setMem_canonical hs rfl

theorem markPage_canonical {m : AttrMark} (hs : MemoryCanonical s) : MemoryCanonical (s.markPage m) :=
  ite_canonical hs (setMem_canonical hs rfl)

theorem dropMarks_canonical {p : AttrMark → Bool} (hs : MemoryCanonical s) : MemoryCanonical (s.dropMarks p) :=
  setMem_canonical (resume_canonical hs) rfl

theorem unmarkPage_canonical {tm grp lane : Nat} (hs : MemoryCanonical s) : MemoryCanonical (s.unmarkPage tm grp lane) :=
  dropMarks_canonical hs

theorem framePa_canonical {core ctx team va : Nat} {need : Need} {attr : BitVec 2} (hs : MemoryCanonical s) :
    MemoryCanonical (s.framePa core ctx team va need attr).1 := by
  unfold State.framePa
  extract_lets _ _ _ held
  clear_value held
  split
  · exact hs
  split
  · exact hs
  split
  split <;> exact ((translate_canonical hs).of_eq ‹_›)

theorem frameCheck_canonical {asid team va pa : Nat} {need : Need} {attrOk : BitVec 2 → Bool → Bool} {attr : BitVec 2} (hs : MemoryCanonical s) :
    MemoryCanonical (s.frameCheck asid team va pa need attrOk attr).1 := by
  unfold State.frameCheck
  extract_lets
  split
  · exact hs
  split
  · exact hs
  split
  · split
    have hs1 := (aliasCheck_canonical hs).of_eq ‹_›
    exact ite_canonical_fst hs1 hs1
  · exact hs

theorem pageCheck_canonical {core ctx team va : Nat} {need : Need} {attrOk : BitVec 2 → Bool → Bool} (hs : MemoryCanonical s) :
    MemoryCanonical (s.pageCheck core ctx team va need attrOk).1 := by
  unfold State.pageCheck
  split
  · exact hs
  split
  · exact hs
  split
  · exact hs
  split
  have hs1 := (albLookup_canonical hs).of_eq ‹_›
  split
  · exact hs1
  · exact hs1
  split
  · exact hs1
  split
  have hs2 := (framePa_canonical hs1).of_eq ‹_›
  split
  · exact hs2
  · exact ite_canonical_fst hs2 (frameCheck_canonical hs2)

theorem throughMarks_canonical {on : Bool} {f : State → State × Chk} (hs : MemoryCanonical s)
    (hf : ∀ st, MemoryCanonical st → MemoryCanonical (f st).1) :
    MemoryCanonical (s.throughMarks on f).1 := by
  unfold State.throughMarks
  split
  · split
    rename_i s1 _ heq
    have hs1 : MemoryCanonical s1 := by
      refine MemoryCanonical.of_eq ?_ heq
      exact hf _ (setMem_canonical hs rfl)
    exact setMem_canonical hs1 rfl
  · exact hf _ hs

end Sys2Proof.Machine
end

