-- ==== Sys2Proof/Proofs/CanonicalCaches.lean ====
section
/-! The caches keep the canonical form: what they write back goes through the lines of DRAM. -/

namespace Sys2Proof.Machine

open Sys2Proof

variable {s : State}

theorem pinSpoil_canonical {pa : Nat} {bs : List Byte} (hs : MemoryCanonical s) : MemoryCanonical (s.pinSpoil pa bs).1 := by
  unfold State.pinSpoil
  extract_lets _ _ _ _ put
  split
  · exact hs
  split
  rename_i s2 _ heq
  refine (foldl_canonical_fst ?_ hs).of_eq heq
  intro x x1 hst
  dsimp only [put]
  exact ite_canonical_fst (free_canonical hst) hst

theorem mainWrite_canonical {pa : Nat} {bs : List Byte} (hs : MemoryCanonical s) : MemoryCanonical (s.mainWrite pa bs).1 := by
  unfold State.mainWrite
  split
  · exact hs
  extract_lets
  exact foldl_canonical_fst (fun _ _ hst => freeRange_canonical hst) (hs.other rfl rfl)

theorem mergeCheck_canonical {ws : List L2Word} (hs : MemoryCanonical s) : MemoryCanonical (s.mergeCheck ws).1 := by
  unfold State.mergeCheck
  split
  · exact hs
  split
  · exact hs
  split
  · exact hs
  · exact ite_canonical_fst hs (checkLine_canonical hs)

theorem fredPerform_canonical {f : PendingFred} (hs : MemoryCanonical s) : MemoryCanonical (s.fredPerform f) := by
  unfold State.fredPerform
  extract_lets
  split
  have hs1 := (dramRead_canonical hs).of_eq ‹_›
  split
  · extract_lets
    split
    rename_i s2 heq
    have hs2 : MemoryCanonical s2 := by
      refine MemoryCanonical.of_eq_snd ?_ heq
      split
      · exact freeBytes_canonical hs1
      · exact hs1
    split
    have hs3 := (pinSpoil_canonical hs2).of_eq ‹_›
    split
    have hs4 := (dramWrite_canonical hs3).of_eq ‹_›
    split
    · exact post_canonical hs4
    · exact hs4
  · exact post_canonical hs1

theorem fredsDue_canonical {pa : Nat} (hs : MemoryCanonical s) : MemoryCanonical (s.fredsDue pa) := by
  unfold State.fredsDue
  extract_lets _ _ s1
  have hs1 : MemoryCanonical s1 := setMem_canonical hs rfl
  exact foldl_canonical (fun _ _ hst => fredPerform_canonical hst) hs1

theorem drainTry_canonical {ws : List L2Word} (hs : MemoryCanonical s) : MemoryCanonical (s.drainTry ws).1 := by
  unfold State.drainTry
  split
  · exact hs
  · exact lineWrite_canonical hs

theorem sliceFails_canonical {r : State × Option (BitVec 8)} {ws : List L2Word} (hr : MemoryCanonical r.1) :
    MemoryCanonical (State.sliceFails r ws) := by
  unfold State.sliceFails
  split
  · exact postSliceError_canonical hr
  · exact hr

theorem lineDrain_canonical {ws : List L2Word} (hs : MemoryCanonical s) : MemoryCanonical (s.lineDrain ws) :=
  sliceFails_canonical (drainTry_canonical hs)

theorem l2Evict_canonical {w : L2Word} (hs : MemoryCanonical s) : MemoryCanonical (s.l2Evict w) :=
  lineDrain_canonical (setMem_canonical hs rfl)

theorem l2Trim_canonical {k : Nat} (hs : MemoryCanonical s) : MemoryCanonical (s.l2Trim k) := by
  unfold State.l2Trim
  split
  · exact hs
  split
  · exact ite_canonical hs (l2Evict_canonical hs)
  · exact hs

theorem l2Store_canonical {w0 : L2Word} (hs : MemoryCanonical s) : MemoryCanonical (s.l2Store w0) := by
  unfold State.l2Store
  split
  have hs2 := (ite_canonical_fst (mainWrite_canonical hs) hs).of_eq ‹_›
  extract_lets _ _ s1 _
  have hs1 : MemoryCanonical s1 := ite_canonical (wakeLine_canonical hs2) hs2
  exact l2Trim_canonical (setMem_canonical hs1 rfl)

theorem l2Try_canonical {s0 : State} {ws : List L2Word} (hs0 : MemoryCanonical s0) : MemoryCanonical (s0.l2Try ws).1 := by
  unfold State.l2Try
  split
  · exact hs0
  extract_lets s
  have hs : MemoryCanonical s := fredsDue_canonical hs0
  split
  · exact drainTry_canonical hs
  split
  have hs1 := (mergeCheck_canonical hs).of_eq ‹_›
  split
  · exact hs1
  · exact foldl_canonical (fun _ _ hst => l2Store_canonical hst) hs1

theorem l2Put_canonical {ws : List L2Word} (hs : MemoryCanonical s) : MemoryCanonical (s.l2Put ws) :=
  sliceFails_canonical (l2Try_canonical hs)

theorem l2EvictAll_canonical {p : L2Word → Bool} (hs : MemoryCanonical s) : MemoryCanonical (s.l2EvictAll p) :=
  foldl_canonical (fun _ _ hst => lineDrain_canonical hst) (setMem_canonical hs rfl)

theorem l1Put_canonical {core : Nat} {w : L1Word} (hs : MemoryCanonical s) : MemoryCanonical (s.l1Put core w) := modCore_canonical hs

theorem l1Merge_canonical {ws : List L1Word} (hs : MemoryCanonical s) : MemoryCanonical (s.l1Merge ws) :=
  foldl_canonical (fun _ _ hst => l2Put_canonical hst) hs

theorem resolve_canonical {asid va pa : Nat} (hs : MemoryCanonical s) : MemoryCanonical (s.resolve asid va pa) := by
  unfold State.resolve
  extract_lets other _ _ s' s1 s2
  have hs' : MemoryCanonical s' := foldl_canonical (fun _ _ hst => l1Merge_canonical hst) hs
  have hs1 : MemoryCanonical s1 := ite_canonical (hs'.other rfl rfl) hs
  have hs2 : MemoryCanonical s2 := ite_canonical (hs1.other rfl rfl) hs1
  exact ite_canonical (l2EvictAll_canonical hs2) hs2

theorem rawWords_canonical {asid va pa n : Nat} (hs : MemoryCanonical s) : MemoryCanonical (s.rawWords asid va pa n).1 := by
  unfold State.rawWords
  split
  · exact hs
  split
  split <;> exact ((dramRead_canonical hs).of_eq ‹_›)

theorem combineOne_canonical {s0 : State} {u : UpdWord} (hs0 : MemoryCanonical s0) : MemoryCanonical (s0.combineOne u) := by
  unfold State.combineOne
  extract_lets s _ _
  have hs : MemoryCanonical s := resolve_canonical hs0
  split
  have hs1 := (rawWords_canonical hs).of_eq ‹_›
  split
  · extract_lets
    split
    exact l2Put_canonical ((pinSpoil_canonical hs1).of_eq ‹_›)
  · exact postSliceError_canonical hs1

theorem sendUpdates_canonical {core : Nat} {p : UpdWord → Bool} (hs : MemoryCanonical s) : MemoryCanonical (s.sendUpdates core p) := by
  unfold State.sendUpdates
  extract_lets _ s1 _ _
  have hs1 : MemoryCanonical s1 := modCore_canonical hs
  exact ite_canonical hs (setMem_canonical hs1 rfl)

theorem combineLine_canonical {s0 : State} {pa : Nat} (hs0 : MemoryCanonical s0) : MemoryCanonical (s0.combineLine pa) := by
  unfold State.combineLine
  extract_lets s _ s1 _ _ s2
  have hs : MemoryCanonical s := fredsDue_canonical hs0
  have hs1 : MemoryCanonical s1 := foldl_canonical (fun _ _ hst => ite_canonical (sendUpdates_canonical hst) hst) hs
  have hs2 : MemoryCanonical s2 := setMem_canonical hs1 rfl
  split
  · exact foldl_canonical (fun _ _ hst => foldl_canonical (fun _ _ hst1 => combineOne_canonical hst1) hst) hs2
  · exact hs

theorem dirEvict_canonical {s0 : State} {pa : Nat} (hs0 : MemoryCanonical s0) : MemoryCanonical (s0.dirEvict pa) := by
  unfold State.dirEvict
  extract_lets s s1 s2
  have hs : MemoryCanonical s := combineLine_canonical hs0
  have hs1 : MemoryCanonical s1 := foldl_canonical (fun _ _ hst => l1Merge_canonical hst) hs
  have hs2 : MemoryCanonical s2 := hs1.other rfl rfl
  exact l2EvictAll_canonical hs2

theorem l1Write_canonical {core : Nat} {p : L1Word → Bool} {inv : Bool} (hs : MemoryCanonical s) :
    MemoryCanonical (s.l1Write core p inv) := by
  unfold State.l1Write
  extract_lets _ s1
  have hs1 : MemoryCanonical s1 := by
    dsimp only [s1]
    exact foldl_canonical (fun _ _ hst => l1Merge_canonical (combineLine_canonical hst)) hs
  exact modCore_canonical hs1

theorem l1WriteAll_canonical {p : L1Word → Bool} {inv : Bool} (hs : MemoryCanonical s) : MemoryCanonical (s.l1WriteAll p inv) :=
  foldl_canonical (fun _ _ hst => ite_canonical (l1Write_canonical hst) hst) hs

theorem homeLine_canonical {asid va pa : Nat} (hs : MemoryCanonical s) : MemoryCanonical (s.homeLine asid va pa) :=
  resolve_canonical (combineLine_canonical hs)

theorem homePiece_canonical {asid va pa n : Nat} {alloc : Bool} (hs : MemoryCanonical s) :
    MemoryCanonical (s.homePiece asid va pa n alloc).1 := by
  unfold State.homePiece
  extract_lets s0
  have hs0 : MemoryCanonical s0 := homeLine_canonical hs
  split
  · exact hs0
  split
  have hs1 := (dramRead_canonical hs0).of_eq ‹_›
  split
  · exact hs1
  extract_lets
  exact ite_canonical (l2Put_canonical hs1) hs1

theorem readPieces_canonical {f : State → Nat → Nat → Nat → State × Data} {va0 pa0 : Nat} {xs : List (Nat × Nat)}
    (hf : ∀ st x y z, MemoryCanonical st → MemoryCanonical (f st x y z).1) (hs : MemoryCanonical s) :
    MemoryCanonical (readPieces f va0 pa0 xs s).1 := by
  induction xs generalizing va0 pa0 s with
  | nil =>
    rw [readPieces]
    exact hs
  | cons _ r ih =>
    rw [readPieces]
    split
    have hs1 := (hf _ _ _ _ hs).of_eq ‹_›
    split
    · exact hs1
    split
    split <;> exact ((ih hs1).of_eq ‹_›)

theorem homeRead_canonical {asid va pa n : Nat} {alloc : Bool} (hs : MemoryCanonical s) :
    MemoryCanonical (s.homeRead asid va pa n alloc).1 := readPieces_canonical (fun _ _ _ _ hst => homePiece_canonical hst) hs

theorem homePut_canonical {asid va0 pa0 : Nat} {bs0 : List Byte} {alloc : Bool} (hs : MemoryCanonical s) :
    MemoryCanonical (s.homePut asid va0 pa0 bs0 alloc).1 := by
  unfold State.homePut
  split
  have hs2 := (pinSpoil_canonical (homeLine_canonical hs)).of_eq ‹_›
  extract_lets
  split
  · split
    · split
      have hs1 := (homePiece_canonical hs2).of_eq ‹_›
      split
      · exact hs1
      · exact l2Try_canonical hs1
    · exact l2Try_canonical hs2
  · split
    have hs1 := (l2Try_canonical hs2).of_eq ‹_›
    split
    · exact hs1
    split
    · split
      exact dramWrite_canonical ((mainWrite_canonical hs1).of_eq ‹_›)
    split
    exact lineWrite_canonical ((mainWrite_canonical hs1).of_eq ‹_›)

theorem writePieces_canonical {f : State → Nat → Nat → List Byte → State × Option (BitVec 8)} {va0 pa0 : Nat} {bs : List Byte}
    {xs : List (Nat × Nat)} (hf : ∀ st x y bs, MemoryCanonical st → MemoryCanonical (f st x y bs).1) (hs : MemoryCanonical s) :
    MemoryCanonical (writePieces f va0 pa0 bs xs s).1 := by
  induction xs generalizing va0 pa0 bs s with
  | nil =>
    rw [writePieces]
    exact hs
  | cons _ r ih =>
    rw [writePieces]
    split
    have hs1 := (hf _ _ _ _ hs).of_eq ‹_›
    split
    exact (ih hs1).of_eq ‹_›

theorem homeTry_canonical {asid va pa : Nat} {bs : List Byte} {alloc : Bool} (hs : MemoryCanonical s) :
    MemoryCanonical (s.homeTry asid va pa bs alloc).1 := writePieces_canonical (fun _ _ _ _ hst => homePut_canonical hst) hs

theorem writeFails_canonical {asid : Nat} {r : State × List (Nat × BitVec 8)} (hr : MemoryCanonical r.1) :
    MemoryCanonical (State.writeFails asid r) := foldl_canonical (fun _ _ hst => postAsidError_canonical hst) hr

theorem homeWrite_canonical {asid va pa : Nat} {bs : List Byte} {alloc : Bool} (hs : MemoryCanonical s) :
    MemoryCanonical (s.homeWrite asid va pa bs alloc) := writeFails_canonical (homeTry_canonical hs)

theorem slicePurge_canonical {asid va pa n : Nat} (hs : MemoryCanonical s) : MemoryCanonical (s.slicePurge asid va pa n) :=
  foldl_canonical (fun _ _ hst => l2EvictAll_canonical (homeLine_canonical hst)) hs

theorem memReadY_canonical {asid va pa n : Nat} (hs : MemoryCanonical s) : MemoryCanonical (s.memReadY asid va pa n).1 :=
  dramRead_canonical (slicePurge_canonical hs)

theorem memWriteY_canonical {asid va pa0 : Nat} {bs0 : List Byte} (hs : MemoryCanonical s) :
    MemoryCanonical (s.memWriteY asid va pa0 bs0) := by
  unfold State.memWriteY
  split
  have hs2 := (pinSpoil_canonical (slicePurge_canonical hs)).of_eq ‹_›
  split
  have hs1 := (mainWrite_canonical hs2).of_eq ‹_›
  split
  have hs3 := (dramWrite_canonical hs1).of_eq ‹_›
  split
  · exact postAsidError_canonical hs3
  · exact hs3

theorem recallOwn_canonical {core pa : Nat} (hs : MemoryCanonical s) : MemoryCanonical (s.recallOwn core pa) :=
  ite_canonical (combineLine_canonical hs) hs

theorem l1Fill_canonical {core asid pa : Nat} {ip dirty : Bool} {ws : List (Nat × Word)} (hs : MemoryCanonical s) :
    MemoryCanonical (s.l1Fill core asid pa ip dirty ws) := foldl_canonical (fun _ _ hst => l1Put_canonical hst) hs

theorem l1Piece_canonical {core asid : Nat} {ip : Bool} {va pa n : Nat} (hs : MemoryCanonical s) :
    MemoryCanonical (State.l1Piece core asid ip s va pa n).1 := by
  unfold State.l1Piece
  extract_lets s0
  have hs0 : MemoryCanonical s0 := recallOwn_canonical hs
  split
  · exact hs0
  extract_lets
  split
  have hs1 := (homePiece_canonical hs0).of_eq ‹_›
  split
  · exact hs1
  extract_lets
  exact l1Fill_canonical hs1

theorem l1Read_canonical {core asid va pa n : Nat} {ip : Bool} (hs : MemoryCanonical s) :
    MemoryCanonical (s.l1Read core asid va pa n ip).1 := readPieces_canonical (fun _ _ _ _ hst => l1Piece_canonical hst) hs

theorem l1PutPiece_canonical {core asid : Nat} {ip : Bool} {va0 pa0 : Nat} {bs0 : List Byte} (hs : MemoryCanonical s) :
    MemoryCanonical (s.l1PutPiece core asid ip va0 pa0 bs0).1 := by
  unfold State.l1PutPiece
  split
  have hs2 := (pinSpoil_canonical (resolve_canonical (recallOwn_canonical hs))).of_eq ‹_›
  extract_lets
  split
  rename_i s1 _ heq
  have hs1 : MemoryCanonical s1 := by
    refine (foldl_canonical_fst ?_ hs2).of_eq heq
    intro x x1 hst
    split
    exact (l1Piece_canonical hst).of_eq ‹_›
  extract_lets
  exact l1Fill_canonical hs1

theorem l1Try_canonical {core asid va pa : Nat} {ip : Bool} {bs : List Byte} (hs : MemoryCanonical s) :
    MemoryCanonical (s.l1Try core asid va pa ip bs).1 := writePieces_canonical (fun _ _ _ _ hst => l1PutPiece_canonical hst) hs

theorem l1PutAll_canonical {core asid va pa : Nat} {ip : Bool} {bs : List Byte} (hs : MemoryCanonical s) :
    MemoryCanonical (s.l1PutAll core asid va pa ip bs) := writeFails_canonical (l1Try_canonical hs)

theorem l1Bypass_canonical {core asid va n : Nat} (hs : MemoryCanonical s) : MemoryCanonical (s.l1Bypass core asid va n) := by
  unfold State.l1Bypass
  extract_lets
  exact ite_canonical (l1Write_canonical hs) hs

theorem fresh_canonical (hs : MemoryCanonical s) : MemoryCanonical s.fresh.2 := hs.other rfl rfl

theorem linkPost_canonical {ctx : Nat} {o : LinkOwner} {kind pa n : Nat} {data : List Byte} (hs : MemoryCanonical s) :
    MemoryCanonical (s.linkPost ctx o kind pa n data) := by
  unfold State.linkPost
  split
  have hs1 := (fresh_canonical hs).of_eq_snd ‹_›
  split
  extract_lets _ _ _ s2
  have hs2 : MemoryCanonical s2 := hs1.other rfl rfl
  exact ite_canonical hs2 (wakeLine_canonical hs2)

theorem writeWo_canonical {t : Team} {g : Nat} {w : WoStore} (hs : MemoryCanonical s) : MemoryCanonical (s.writeWo t g w) := by
  unfold State.writeWo
  extract_lets _ _ put
  split
  · dsimp only [put]
    split
    · exact linkPost_canonical hs
    split
    · exact memWriteY_canonical (l1Bypass_canonical hs)
    · exact homeWrite_canonical (l1Bypass_canonical hs)
  · split
    have hs1 := (translate_canonical hs).of_eq ‹_›
    split
    · dsimp only [put]
      split
      · exact linkPost_canonical hs1
      split
      · exact memWriteY_canonical (l1Bypass_canonical hs1)
      · exact homeWrite_canonical (l1Bypass_canonical hs1)
    · exact postStoreError_canonical hs1
    · exact postStoreError_canonical hs1

theorem releaseWoIf_canonical {tm g l : Nat} {p : WoStore → Bool} (hs : MemoryCanonical s) : MemoryCanonical (s.releaseWoIf tm g l p) := by
  unfold State.releaseWoIf
  split
  · exact hs
  split
  · exact hs
  · exact ite_canonical (foldl_canonical (fun _ _ hst => writeWo_canonical hst) (modThread_canonical hs)) hs

theorem releaseWo_canonical {tm g l : Nat} (hs : MemoryCanonical s) : MemoryCanonical (s.releaseWo tm g l) := releaseWoIf_canonical hs

theorem releaseCore_canonical {t : Team} {core : Nat} (hs : MemoryCanonical s) : MemoryCanonical (s.releaseCore t core) := by
  unfold State.releaseCore
  extract_lets
  exact foldl_canonical (fun _ _ hst => sendUpdates_canonical (ite_canonical (l1Write_canonical hst) hst)) hs

theorem releaseDev_canonical {tm g l : Nat} (hs : MemoryCanonical s) : MemoryCanonical (s.releaseDev tm g l) := by
  unfold State.releaseDev
  split
  · exact hs
  · exact ite_canonical hs (releaseWo_canonical (releaseCore_canonical hs))

theorem acquireDev_canonical {tm g : Nat} (hs : MemoryCanonical s) : MemoryCanonical (s.acquireDev tm g) := by
  unfold State.acquireDev
  split
  · exact hs
  split
  · exact hs
  extract_lets
  exact foldl_canonical (fun _ _ hst => ite_canonical (l1Write_canonical hst) hst) hs

theorem releaseTeam_canonical {tm g : Nat} (hs : MemoryCanonical s) : MemoryCanonical (s.releaseTeam tm g) := by
  unfold State.releaseTeam
  split
  · exact hs
  split
  · extract_lets
    exact foldl_canonical (fun _ _ hst => l1Write_canonical hst) hs
  · exact hs

theorem acquireTeam_canonical {tm g : Nat} (hs : MemoryCanonical s) : MemoryCanonical (s.acquireTeam tm g) := by
  unfold State.acquireTeam
  split
  · exact hs
  · exact ite_canonical (acquireDev_canonical hs) hs

theorem promote_canonical {ctx : Nat} (hs : MemoryCanonical s) : MemoryCanonical (s.promote ctx) := by
  unfold State.promote
  extract_lets
  exact l1WriteAll_canonical hs

theorem drainIp_canonical {asid region : Nat} (hs : MemoryCanonical s) : MemoryCanonical (s.drainIp asid region) := l1WriteAll_canonical hs

theorem purgeRange_canonical {asid lo n : Nat} (hs : MemoryCanonical s) : MemoryCanonical (s.purgeRange asid lo n) := by
  unfold State.purgeRange
  extract_lets s0 s1 s2 s3 _
  have hs0 : MemoryCanonical s0 := foldl_canonical (fun _ _ hst => combineLine_canonical hst) hs
  have hs1 : MemoryCanonical s1 := l1WriteAll_canonical hs0
  have hs2 : MemoryCanonical s2 := l2EvictAll_canonical hs1
  have hs3 : MemoryCanonical s3 := hs2.other rfl rfl
  exact setMem_canonical hs3 rfl

theorem releaseWoWhere_canonical {p : Nat → WoStore → Bool} (hs : MemoryCanonical s) : MemoryCanonical (s.releaseWoWhere p) := by
  unfold State.releaseWoWhere
  refine foldl_canonical ?_ hs
  intro st x hst
  split
  · exact hst
  refine foldl_canonical ?_ hst
  intro st1 x1 hst1
  split
  · exact hst1
  · exact foldl_canonical (fun _ _ hst2 => releaseWoIf_canonical hst2) hst1

theorem releaseWoRange_canonical {asid lo n : Nat} (hs : MemoryCanonical s) : MemoryCanonical (s.releaseWoRange asid lo n) :=
  releaseWoWhere_canonical hs

theorem tlbInvalidate_canonical {asid lo n : Nat} (hs : MemoryCanonical s) : MemoryCanonical (s.tlbInvalidate asid lo n) := by
  unfold State.tlbInvalidate
  extract_lets _ _ s1
  have hs1 : MemoryCanonical s1 := setMem_canonical hs rfl
  exact hs1.other rfl rfl

end Sys2Proof.Machine
end

