-- ==== Sys2Proof/Proofs/CanonicalIssue.lean ====
section
/-! Issue and completion keep the canonical form, so the instructions that only compute in registers do, and so do the device's registers. -/

namespace Sys2Proof.Machine

open Sys2Proof

variable {s : State}

theorem perLane_canonical {f : Iss → Nat → LaneOut} {x : Iss} {y : State} (hx1 : MemoryCanonical y) :
    MemoryCanonical (perLane f x y).1 := hx1

theorem Team.stopAll_canonical {t : Team} (ht : t.Canonical) : t.stopAll.Canonical := ht

theorem endCall_canonical {tm status : Nat} (hs : MemoryCanonical s) : MemoryCanonical (s.endCall tm status) := by
  unfold State.endCall
  extract_lets s1
  have hs1 : MemoryCanonical s1 := modTeam_canonical hs (fun _ ht => Team.stopAll_canonical ht)
  exact hs1.other rfl rfl

theorem parkLanes_canonical {op : Op} {unhandled : Bool} {cause : BitVec 8} {lanes : List (Nat × DWord)} (hs : MemoryCanonical s) :
    MemoryCanonical (s.parkLanes op unhandled cause lanes) := by
  unfold State.parkLanes
  split
  · split
    extract_lets _ _ _ _ _ s1 _
    have hs1 : MemoryCanonical s1 := modGroup_canonical hs
    exact ite_canonical hs1 (post_canonical hs1)
  · exact hs

theorem Team.feed_canonical {now : Nat} {t : Team} (ht : t.Canonical) : (Team.feed now t).Canonical := ht

theorem starve_canonical {op : Op} {xs : List (Nat × List (Nat × Nat))} (hs : MemoryCanonical s) : MemoryCanonical (s.starve op xs) := by
  unfold State.starve
  split
  · exact hs
  · exact modGroup_canonical hs

theorem abortLane_canonical {tm grp lane code sub : Nat} (hs : MemoryCanonical s) :
    MemoryCanonical (s.abortLane tm grp lane code sub) := by
  unfold State.abortLane
  split
  · exact hs
  split
  · exact hs
  split
  · exact hs
  extract_lets _ s1
  have hs1 : MemoryCanonical s1 := modTeam_canonical (hs.other rfl rfl) (fun _ _ => Team.writeRegs_canonical (hs.get ‹_›))
  exact modTeam_canonical (modThread_canonical hs1) (fun _ ht => Team.feed_canonical ht)

theorem releaseAll_canonical {tm : Nat} (hs : MemoryCanonical s) : MemoryCanonical (s.releaseAll tm) :=
  modTeam_canonical hs (fun _ ht => ht)

theorem trapLanes_canonical {op : Op} {outs : List LaneOut} (hs : MemoryCanonical s) : MemoryCanonical (s.trapLanes op outs) := by
  unfold State.trapLanes
  split
  · exact hs
  extract_lets
  exact modGroup_canonical hs

theorem finish_canonical {op : Op} {outs : List LaneOut} (hs : MemoryCanonical s) : MemoryCanonical (s.finish op outs) := by
  unfold State.finish
  split
  · exact hs
  split
  · exact hs
  split
  · exact endCall_canonical hs
  extract_lets _ _ s1 _ _ s2 s3 s4 _
  have hs1 : MemoryCanonical s1 := modGroup_canonical hs
  have hs2 : MemoryCanonical s2 := foldl_canonical (fun _ _ hst => parkLanes_canonical hst) (trapLanes_canonical hs1)
  have hs3 : MemoryCanonical s3 := parkLanes_canonical hs2
  have hs4 : MemoryCanonical s4 := by
    dsimp only [s4]
    refine foldl_canonical ?_ hs3
    intro st x hst
    split
    · exact abortLane_canonical hst
    · exact hst
  exact modGroup_canonical (ite_canonical (signal_canonical hs4) hs4)

theorem faultAll_canonical {op : Op} {cause : BitVec 8} {addr : Nat} (hs : MemoryCanonical s) :
    MemoryCanonical (s.faultAll op cause addr) := finish_canonical hs

theorem standLanes_canonical {i : Iss} {outs : List LaneOut} (hs : MemoryCanonical s) : MemoryCanonical (s.standLanes i outs) := by
  unfold State.standLanes
  split
  · extract_lets
    exact modGroup_canonical hs
  · exact hs

theorem complete_canonical {i : Iss} {f : Form} {outs : List LaneOut} (hs : MemoryCanonical s) :
    MemoryCanonical (s.complete i f outs) := by
  unfold State.complete
  extract_lets _ _ s1
  have hs1 : MemoryCanonical s1 := by
    dsimp only [s1]
    split
    · exact ite_canonical hs (modTeam_canonical hs (fun _ ht => Team.writeRegs_canonical ht))
    · exact hs
  exact standLanes_canonical (finish_canonical hs1)

theorem issue_canonical {f : Form} {body : Iss → State → State × List LaneOut}
    (hbody : ∀ i st, MemoryCanonical st → MemoryCanonical (body i st).1) (hs : MemoryCanonical s) : OutCanonical (issue f body s) := by
  unfold issue
  split
  · exact outCanonical_fault
  split
  · exact outCanonical_fault
  split
  · exact outCanonical_fault
  refine outCanonical_ite outCanonical_fault (outCanonical_ite (outCanonical_next (faultAll_canonical hs))
    (outCanonical_ite (outCanonical_next (faultAll_canonical hs)) (outCanonical_ite (outCanonical_next (faultAll_canonical hs)) ?_)))
  extract_lets
  refine outCanonical_ite (outCanonical_next (starve_canonical hs))
      (outCanonical_ite (outCanonical_next (starve_canonical (finish_canonical hs))) ?_)
  split
  exact outCanonical_next (starve_canonical (complete_canonical ((hbody _ _ hs).of_eq ‹_›)))

theorem issueIllegal_canonical (hs : MemoryCanonical s) : OutCanonical (issueIllegal s) := by
  unfold issueIllegal
  split
  · exact outCanonical_fault
  split
  · exact outCanonical_fault
  · exact outCanonical_next (faultAll_canonical hs)

theorem alu_canonical {rule : TagRule} {d a b : Reg} {f : Word → Word → Word} (hs : MemoryCanonical s) :
    OutCanonical (alu rule d a b f s) := issue_canonical (fun _ _ hst => perLane_canonical hst) hs

theorem alu1_canonical {rule : TagRule} {d a : Reg} {f : Word → Word} (hs : MemoryCanonical s) :
    OutCanonical (alu1 rule d a f s) := issue_canonical (fun _ _ hst => perLane_canonical hst) hs

theorem alu64_canonical {d a b : Reg} {nd na nb : Nat} {f : Nat → Nat → Nat} (hs : MemoryCanonical s) :
    OutCanonical (alu64 d a b nd na nb f s) := issue_canonical (fun _ _ hst => perLane_canonical hst) hs

theorem onLanes_canonical {op : Op} {ls : List Nat} {f : Nat → Thread → Thread} (hs : MemoryCanonical s) :
    MemoryCanonical (s.onLanes op ls f) := modGroup_canonical hs

theorem execMset_canonical {d a : Reg} (hs : MemoryCanonical s) : OutCanonical (execMset d a s) := by
  unfold execMset
  refine issue_canonical ?_ hs
  intro i st hst
  extract_lets
  exact onLanes_canonical hst

theorem execWbase_canonical {a : Reg} (hs : MemoryCanonical s) : OutCanonical (execWbase a s) := by
  unfold execWbase
  refine issue_canonical ?_ hs
  intro i st hst
  extract_lets
  exact onLanes_canonical hst

theorem execGcw_canonical {d a : Reg} (hs : MemoryCanonical s) : OutCanonical (execGcw d a s) := by
  unfold execGcw
  refine issue_canonical ?_ hs
  intro i st hst
  extract_lets
  exact ite_canonical_fst (modGroup_canonical hst) hst

theorem floatOp_canonical {form : Form} {n : Nat} {rm : Rm} {f : Rm → Word → Iss → Nat → FRes} (hs : MemoryCanonical s) :
    OutCanonical (floatOp form n rm f s) := issue_canonical (fun _ _ hst => perLane_canonical hst) hs

theorem float2_canonical {n : Nat} {rm : BitVec 3} {d a b : Reg} {f : Rm → Word → Nat → Nat → FRes} (hs : MemoryCanonical s) :
    OutCanonical (float2 n rm d a b f s) := floatOp_canonical hs

theorem float3_canonical {n : Nat} {rm : BitVec 3} {d a b : Reg} {f : Rm → Word → Nat → Nat → Nat → FRes} (hs : MemoryCanonical s) :
    OutCanonical (float3 n rm d a b f s) := floatOp_canonical hs

theorem float1_canonical {nd na : Nat} {rm : BitVec 3} {d a : Reg} {f : Rm → Word → Nat → FRes} (hs : MemoryCanonical s) :
    OutCanonical (float1 nd na rm d a f s) := floatOp_canonical hs

theorem floatSel_canonical {nd na nb : Nat} {d a b : Reg} {f : Nat → Nat → FRes} (hs : MemoryCanonical s) :
    OutCanonical (floatSel nd na nb d a b f s) := floatOp_canonical hs

theorem floatSel1_canonical {nd na : Nat} {d a : Reg} {f : Nat → FRes} (hs : MemoryCanonical s) :
    OutCanonical (floatSel1 nd na d a f s) := floatOp_canonical hs

theorem dot_canonical {f : Fmt} {n : Nat} {rm : BitVec 3} {d a b : Reg} (hs : MemoryCanonical s) :
    OutCanonical (dot f n rm d a b s) := floatOp_canonical hs

theorem reduce_canonical {d a : Reg} {n : Nat} {f : List Word → Nat} (hs : MemoryCanonical s) :
    OutCanonical (reduce d a n f s) := by
  unfold reduce
  refine issue_canonical ?_ hs
  intro i st hst
  extract_lets
  exact hst

theorem shuffle_canonical {d a b : Reg} {src : Nat → Nat → Word → Option Nat} (hs : MemoryCanonical s) :
    OutCanonical (shuffle d a b src s) := issue_canonical (fun _ _ hst => perLane_canonical hst) hs

theorem execCclr_canonical {d : Reg} (hs : MemoryCanonical s) : OutCanonical (execCclr d s) := by
  unfold execCclr
  refine issue_canonical ?_ hs
  intro i st hst
  extract_lets
  exact ite_canonical hst (ite_canonical (modTeam_canonical hst (fun _ ht => ht)) (onLanes_canonical hst))

theorem patctlWrite_canonical {stack ch : Nat} {v : Word} (hs : MemoryCanonical s) : MemoryCanonical (s.patctlWrite stack ch v) := by
  unfold State.patctlWrite
  extract_lets
  split
  · exact hs
  · exact hs.other rfl rfl

theorem trimWrite_canonical {stack ch off : Nat} {v : Word} (hs : MemoryCanonical s) : MemoryCanonical (s.trimWrite stack ch off v) := by
  unfold State.trimWrite
  extract_lets
  exact ite_canonical (modStack_canonical hs) hs

theorem trainstWrite_canonical {stack ch : Nat} {v : Word} (hs : MemoryCanonical s) : MemoryCanonical (s.trainstWrite stack ch v) :=
  ite_canonical hs (modStack_canonical hs)

theorem lgcfgWrite_canonical {stack ch : Nat} {v : Word} (hs : MemoryCanonical s) : MemoryCanonical (s.lgcfgWrite stack ch v) :=
  ite_canonical hs (modStack_canonical hs)

theorem counterClear_canonical {stack ch off : Nat} (hs : MemoryCanonical s) : MemoryCanonical (s.counterClear stack ch off) :=
  modStack_canonical hs

theorem capctlWrite_canonical {stack : Nat} {v : Word} (hs : MemoryCanonical s) : MemoryCanonical (s.capctlWrite stack v) :=
  ite_canonical hs (modStack_canonical hs)

theorem evptrWrite_canonical {stack : Nat} {v : Word} (hs : MemoryCanonical s) : MemoryCanonical (s.evptrWrite stack v) :=
  ite_canonical (modStack_canonical hs) hs

theorem setLive_canonical {stack mib : Nat} {live : Bool} (hs : MemoryCanonical s) : MemoryCanonical (s.setLive stack mib live) := by
  unfold State.setLive
  extract_lets
  split
  · exact hs
  · exact ite_canonical (ite_canonical (modStack_canonical hs) hs) (ite_canonical hs (modStack_canonical hs))

theorem liveWrite_canonical {stack i : Nat} {v : Word} (hs : MemoryCanonical s) : MemoryCanonical (s.liveWrite stack i v) :=
  foldl_canonical (fun _ _ hst => setLive_canonical hst) hs

theorem regWrite_canonical {p : RegPlace} {v : Word} (hs : MemoryCanonical s) : MemoryCanonical (s.regWrite p v) := by
  unfold State.regWrite
  split
  · split
    · exact trainstWrite_canonical hs
    split
    · exact lgcfgWrite_canonical hs
    split
    · exact counterClear_canonical hs
    · exact ite_canonical (patctlWrite_canonical hs) (ite_canonical (trimWrite_canonical hs) hs)
  · split
    · exact capctlWrite_canonical hs
    · exact ite_canonical (evptrWrite_canonical hs) (ite_canonical (liveWrite_canonical hs) hs)
  · exact hs

theorem regDrain_canonical {st : Nat} (hs : MemoryCanonical s) : MemoryCanonical (s.regDrain st) := by
  unfold State.regDrain
  extract_lets
  exact modStack_canonical (foldl_canonical_fst (fun _ _ hst => ite_canonical_fst hst (regWrite_canonical hst)) hs)

theorem regStore_canonical {st : Nat} {x : RegStore} (hs : MemoryCanonical s) : MemoryCanonical (s.regStore st x) :=
  regDrain_canonical (modStack_canonical hs)

theorem firmStore_canonical {st pa : Nat} {v : Word} (hs : MemoryCanonical s) : MemoryCanonical (s.firmStore st pa v) :=
  ite_canonical (regStore_canonical hs) hs

theorem phyStore_canonical {st ch off : Nat} {v : Word} (hs : MemoryCanonical s) : MemoryCanonical (s.phyStore st ch off v) :=
  ite_canonical (firmStore_canonical hs) hs

theorem testDone_canonical {stack ch : Nat} (hs : MemoryCanonical s) : MemoryCanonical (s.testDone stack ch) := by
  unfold State.testDone
  split
  · exact hs
  extract_lets s1
  have hs1 : MemoryCanonical s1 := hs.other rfl rfl
  exact regDrain_canonical (modStack_canonical hs1)

end Sys2Proof.Machine
end

