-- ==== Sys2Proof/Proofs/CanonicalAccesses.lean ====
section
/-! Checks, loads and stores of a lane keep the canonical form, in scratch, in DRAM and over a link. -/

namespace Sys2Proof.Machine

open Sys2Proof

variable {s : State}

theorem modPool_canonical {tm : Nat} {f : TeamPool → TeamPool} (hs : MemoryCanonical s) (hf : ∀ p, p.Canonical → (f p).Canonical) :
    MemoryCanonical (s.modPool tm f) := modTeam_canonical hs (fun _ ht => hf _ ht)

theorem TeamPool.scrStore_canonical {p : TeamPool} {off : Nat} {bs : List Byte} {tag : Bool} (hp : p.Canonical) :
    (p.scrStore off bs tag).Canonical := by
  unfold TeamPool.scrStore
  extract_lets
  exact ⟨memWrite_wf (Nat.zero_le _) hp.1, hp.2⟩

theorem scrReadEng_canonical {tm off n : Nat} (hs : MemoryCanonical s) : MemoryCanonical (s.scrReadEng tm off n).1 :=
  foldl_canonical_fst (fun _ _ hst => freeRange_canonical hst) hs

theorem engFree_canonical {tm off : Nat} {bs : List Byte} (hs : MemoryCanonical s) : MemoryCanonical (s.engFree tm off bs).1 :=
  foldl_canonical_fst (fun _ _ hst => freeRange_canonical hst) hs

theorem engSpoil_canonical {tm off n : Nat} (hs : MemoryCanonical s) : MemoryCanonical (s.engSpoil tm off n) := by
  unfold State.engSpoil
  refine foldl_canonical ?_ hs
  intro st x hst
  split
  exact modPool_canonical ((freeBytes_canonical hst).of_eq_snd ‹_›) (fun _ hp => ⟨memWrite_wf (Nat.zero_le _) hp.1, hp.2⟩)

theorem copyWrite_canonical {c : Copy} (hs : MemoryCanonical s) : MemoryCanonical (s.copyWrite c).1 := by
  unfold State.copyWrite
  extract_lets _ _ _ _ _ s0 s1
  have hs0 : MemoryCanonical s0 := l1Bypass_canonical hs
  have hs1 : MemoryCanonical s1 := ite_canonical (modThread_canonical hs0) hs0
  exact ite_canonical_fst (l1Try_canonical hs) (homeTry_canonical hs1)

theorem taintCopies_canonical {tm off n : Nat} {xs : List Copy} (hs : MemoryCanonical s) :
    MemoryCanonical (taintCopies tm off n s xs).1 := by
  induction xs generalizing tm off n s with
  | nil =>
    rw [taintCopies]
    exact hs
  | cons _ r ih =>
    rw [taintCopies]
    split
    rename_i s1 _ heq
    have hs1 : MemoryCanonical s1 := by
      refine MemoryCanonical.of_eq ?_ heq
      split
      · split
        have hs2 := (freeRange_canonical hs).of_eq ‹_›
        extract_lets
        exact ite_canonical hs2 (hs2.other rfl rfl)
      · exact hs
    split
    exact (ih hs1).of_eq ‹_›

theorem taintSources_canonical {tm off n : Nat} (hs : MemoryCanonical s) : MemoryCanonical (s.taintSources tm off n) := by
  unfold State.taintSources
  split
  · split
    have hs1 := (taintCopies_canonical hs).of_eq ‹_›
    exact hs1.other rfl rfl
  · exact hs

theorem spoilDest_canonical {tm off n : Nat} {x : Landed} (hs : MemoryCanonical s) : MemoryCanonical (s.spoilDest tm off n x) := by
  unfold State.spoilDest
  extract_lets
  split
  · exact hs
  split
  exact copyWrite_canonical ((freeBytes_canonical hs).of_eq_snd ‹_›)

theorem landedFree_canonical {tm off : Nat} {bs : List Byte} (hs : MemoryCanonical s) : MemoryCanonical (s.landedFree tm off bs).1 :=
  foldl_canonical_fst (fun _ _ hst => freeRange_canonical hst) hs

theorem scrRead_canonical {tm off n : Nat} (hs : MemoryCanonical s) : MemoryCanonical (s.scrRead tm off n).1 := by
  unfold State.scrRead
  split
  have hs2 := (scrReadEng_canonical hs).of_eq ‹_›
  split
  exact engFree_canonical ((landedFree_canonical hs2).of_eq ‹_›)

theorem scrPut_canonical {tm off : Nat} {bs : List Byte} {tag : Bool} (hs : MemoryCanonical s) :
    MemoryCanonical (s.scrPut tm off bs tag) := by
  unfold State.scrPut
  extract_lets s1 s2
  have hs1 : MemoryCanonical s1 := by
    dsimp only [s1]
    exact ite_canonical ((taintCopies_canonical hs).other rfl rfl) hs
  have hs2 : MemoryCanonical s2 := foldl_canonical (fun _ _ hst => spoilDest_canonical hst) hs1
  split
  have hs3 := (landedFree_canonical hs2).of_eq ‹_›
  exact wakeScratch_canonical (engSpoil_canonical (modPool_canonical hs3 (fun _ hp => TeamPool.scrStore_canonical hp)))

theorem scrWrite_canonical {tm off : Nat} {bs : List Byte} {tag : Bool} (hs : MemoryCanonical s) :
    MemoryCanonical (s.scrWrite tm off bs tag) := by
  unfold State.scrWrite
  split
  exact scrPut_canonical ((foldl_canonical_fst (fun _ _ hst => freeRange_canonical hst) hs).of_eq ‹_›)

theorem Team.modUnfenced_canonical {t : Team} {g l : Nat} {own other : List (Bool × Nat × Nat) → List (Bool × Nat × Nat)} (ht : t.Canonical) :
    (t.modUnfenced g l own other).Canonical := ht

theorem noteSame_canonical {tm g l : Nat} {scr : Bool} {off n : Nat} {same : Bool} (hs : MemoryCanonical s) :
    MemoryCanonical (s.noteSame tm g l scr off n same) :=
  ite_canonical hs (modTeam_canonical hs (fun _ ht => Team.modUnfenced_canonical ht))

theorem noteWrite_canonical {tm g l : Nat} {scr : Bool} {off n : Nat} (hs : MemoryCanonical s) :
    MemoryCanonical (s.noteWrite tm g l scr off n) := noteSame_canonical hs

theorem fenceWrites_canonical {tm g l : Nat} (hs : MemoryCanonical s) : MemoryCanonical (s.fenceWrites tm g l) := by
  unfold State.fenceWrites
  extract_lets
  exact modTeam_canonical hs (fun _ ht => Team.modUnfenced_canonical ht)

theorem check_canonical {i : Iss} {l va : Nat} {a : Reg} {capOff : Nat} {k : Ask} (hs : MemoryCanonical s) :
    MemoryCanonical (s.check i l va a capOff k).1 := by
  unfold State.check
  extract_lets
  split
  · exact hs
  split
  · exact hs
  split
  · exact ite_canonical_fst hs (ite_canonical_fst hs hs)
  split
  · extract_lets
    exact ite_canonical_fst hs hs
  · split <;> exact hs
  split
  · exact hs
  split
  split <;> exact ((throughMarks_canonical hs (fun _ hst => pageCheck_canonical hst)).of_eq ‹_›)

theorem linkCall_canonical {ctx : Nat} {o : LinkOwner} {kind pa n : Nat} {data : List Byte} (hs : MemoryCanonical s) :
    MemoryCanonical (s.linkCall ctx o kind pa n data).1 := by
  unfold State.linkCall
  split
  · split
    · exact hs
    · exact hs.other rfl rfl
  · exact linkPost_canonical hs

theorem outRead_canonical {pa : Nat} {bs : List Byte} (hs : MemoryCanonical s) : MemoryCanonical (s.outRead pa bs).1 :=
  ite_canonical_fst (foldl_canonical_fst (fun _ _ hst => freeRange_canonical hst) hs) hs

theorem callStore_canonical {tm pa : Nat} {bs : List Byte} (hs : MemoryCanonical s) : MemoryCanonical (s.callStore tm pa bs).1 := by
  unfold State.callStore
  extract_lets _ _ _ _ s1
  have hs1 : MemoryCanonical s1 := hs.other rfl rfl
  split
  · split
    exact (freeBytes_canonical hs1).of_eq_snd ‹_›
  · exact hs1

theorem doPart_canonical {c : Copy} (hs : MemoryCanonical s) : MemoryCanonical (s.doPart c) := by
  unfold State.doPart
  split
  have hs1 := (copyWrite_canonical hs).of_eq ‹_›
  exact hs1.other rfl rfl

theorem doWhere_canonical {p : Copy → Bool} (hs : MemoryCanonical s) : MemoryCanonical (s.doWhere p) := by
  unfold State.doWhere
  extract_lets
  exact ite_canonical (foldl_canonical (fun _ _ hst => doPart_canonical hst) hs) hs

theorem performCopies_canonical {pa n : Nat} (hs : MemoryCanonical s) : MemoryCanonical (s.performCopies pa n) := doWhere_canonical hs

theorem doCopies_canonical {tm g l : Nat} {p : Copy → Bool} (hs : MemoryCanonical s) : MemoryCanonical (s.doCopies tm g l p) :=
  doWhere_canonical hs

theorem relDev_canonical {tm g l : Nat} (hs : MemoryCanonical s) : MemoryCanonical (s.relDev tm g l) := by
  unfold State.relDev
  extract_lets s0 _ s2
  have hs0 : MemoryCanonical s0 := doCopies_canonical hs
  have hs2 : MemoryCanonical s2 := foldl_canonical (fun _ _ hst => fredsDue_canonical hst) hs0
  exact releaseDev_canonical hs2

theorem relTeam_canonical {tm g l : Nat} (hs : MemoryCanonical s) : MemoryCanonical (s.relTeam tm g l) :=
  releaseTeam_canonical (doCopies_canonical hs)

theorem ownCopies_canonical {i : Iss} {l pa n : Nat} (hs : MemoryCanonical s) : MemoryCanonical (s.ownCopies i l pa n) :=
  doCopies_canonical hs

theorem readLocal_canonical {i : Iss} {l va pa n : Nat} {attr pol : BitVec 2} (hs : MemoryCanonical s) :
    MemoryCanonical (s.readLocal i l va pa n attr pol).1 := by
  unfold State.readLocal
  extract_lets _ _ _ s1 s1
  have hs1 : MemoryCanonical s1 := l1Bypass_canonical hs
  split
  · exact l1Read_canonical hs
  split
  · split
    · exact memReadY_canonical (relDev_canonical hs)
    · exact homeRead_canonical (relDev_canonical hs)
  · split
    · exact l1Read_canonical hs
    · exact ite_canonical_fst (memReadY_canonical hs1) (homeRead_canonical hs1)

theorem writeLocal_canonical {i : Iss} {l va pa : Nat} {attr pol : BitVec 2} {bs : List Byte} (hs : MemoryCanonical s) :
    MemoryCanonical (s.writeLocal i l va pa attr pol bs) := by
  unfold State.writeLocal
  extract_lets _ _ _ s1 s1
  have hs1 : MemoryCanonical s1 := l1Bypass_canonical hs
  split
  · exact l1PutAll_canonical hs
  split
  · split
    · exact memWriteY_canonical (relDev_canonical hs)
    · exact homeWrite_canonical (relDev_canonical hs)
  · split
    · exact modThread_canonical (l1Bypass_canonical hs)
    split
    · exact l1PutAll_canonical hs
    · exact ite_canonical (memWriteY_canonical hs1) (homeWrite_canonical hs1)

theorem readDram_canonical {i : Iss} {l va pa n : Nat} {attr pol : BitVec 2} (hs : MemoryCanonical s) :
    MemoryCanonical (s.readDram i l va pa n attr pol).1 := by
  unfold State.readDram
  split
  have hs1 := (readLocal_canonical (ownCopies_canonical hs)).of_eq ‹_›
  split
  · split
    exact (outRead_canonical hs1).of_eq ‹_›
  · exact hs1

theorem readSpot_canonical {i : Iss} {l va n : Nat} {pol : BitVec 2} {p : Spot} (hs : MemoryCanonical s) :
    MemoryCanonical (s.readSpot i l va n pol p).1 := by
  unfold State.readSpot
  split
  · split
    · exact hs
    split
    exact (scrRead_canonical hs).of_eq ‹_›
  · split
    · exact ite_canonical_fst hs hs
    · exact hs
  · split
    · exact hs
    split
    exact (dramRead_canonical hs).of_eq ‹_›
  · split
    · split
      · exact hs
      split
      exact (readDram_canonical hs).of_eq ‹_›
    · extract_lets _ s0
      have hs0 : MemoryCanonical s0 := ite_canonical (relDev_canonical hs) hs
      split
      split <;> exact ((linkCall_canonical hs0).of_eq ‹_›)

theorem writeSpot_canonical {i : Iss} {l va : Nat} {pol : BitVec 2} {p : Spot} {bs : List Byte} {tag : Bool} (hs : MemoryCanonical s) :
    MemoryCanonical (s.writeSpot i l va pol p bs tag).1 := by
  unfold State.writeSpot
  split
  · dsimp only
    exact noteWrite_canonical (scrWrite_canonical hs)
  · split
    · exact regStore_canonical hs
    · exact hs
  · split
    · exact hs
    split
    have hs0 := (callStore_canonical hs).of_eq ‹_›
    split
    have hs1 := (dramWrite_canonical hs0).of_eq ‹_›
    split
    · exact post_canonical hs1
    · exact hs1
  · split
    · exact ite_canonical_fst hs (writeLocal_canonical (ownCopies_canonical hs))
    split
    · exact modThread_canonical hs
    extract_lets
    split
    have hs1 := (linkCall_canonical (ite_canonical (relDev_canonical hs) hs)).of_eq ‹_›
    split <;> exact hs1

theorem atomLink_canonical {i : Iss} {l va pa n : Nat} {op : AtomOp} {y c : Nat} (hs : MemoryCanonical s) :
    MemoryCanonical (s.atomLink i l va pa n op y c).1 := by
  unfold State.atomLink
  extract_lets
  split
  · split
    · exact hs
    split
    split <;> exact ((linkCall_canonical hs).of_eq ‹_›)
  · split
    · split
      split <;> exact ((linkCall_canonical hs).of_eq ‹_›)
    split
    · exact linkPost_canonical hs
    split
    · exact hs
    · exact hs.other rfl rfl
    extract_lets
    exact wakeLine_canonical (hs.other rfl rfl)

theorem atomLocal_canonical {i : Iss} {l va pa n : Nat} {attr : BitVec 2} {f : Nat → Nat} (hs : MemoryCanonical s) :
    MemoryCanonical (s.atomLocal i l va pa n attr f).1 := by
  unfold State.atomLocal
  extract_lets _ _ _ s0
  have hs0 : MemoryCanonical s0 := ite_canonical (relDev_canonical hs) (l1Bypass_canonical hs)
  split
  · split
    have hs1 := (l1Read_canonical hs).of_eq ‹_›
    split
    · exact l1PutAll_canonical hs1
    · exact hs1
  · split
    have hs1 := (homeRead_canonical hs0).of_eq ‹_›
    split
    · split
      exact homeWrite_canonical ((outRead_canonical hs1).of_eq ‹_›)
    · exact hs1

theorem atomSpot_canonical {i : Iss} {l va n : Nat} {op : AtomOp} {y c : Nat} {p : Spot} (hs : MemoryCanonical s) :
    MemoryCanonical (s.atomSpot i l va n op y c p).1 := by
  unfold State.atomSpot
  extract_lets
  split
  · split
    · exact hs
    split
    have hs1 := (scrRead_canonical hs).of_eq ‹_›
    dsimp only
    exact noteWrite_canonical (scrWrite_canonical hs1)
  · exact hs
  · exact hs
  · split
    · refine ite_canonical_fst hs ?_
      split
      exact (atomLocal_canonical (ownCopies_canonical hs)).of_eq ‹_›
    · exact atomLink_canonical (ite_canonical (relDev_canonical hs) hs)

theorem eachLane_canonical {f : Iss → State → Nat → State × LaneOut} {i : Iss} (hf : ∀ i st x, MemoryCanonical st → MemoryCanonical (f i st x).1)
    (hs : MemoryCanonical s) :
    MemoryCanonical (eachLane f i s).1 := by
  unfold eachLane
  refine foldl_canonical_fst ?_ hs
  intro x x1 hst
  split
  exact (hf _ _ _ hst).of_eq ‹_›

theorem txnWord_canonical {i : Iss} {l va pa : Nat} {attr : BitVec 2} {x : Txn} (hs : MemoryCanonical s) :
    MemoryCanonical (txnWord s i l va pa attr x).1 := by
  unfold txnWord
  extract_lets
  split
  · exact hs
  split
  split <;> exact ((readLocal_canonical (ownCopies_canonical hs)).of_eq ‹_›)

theorem txnLoadWords_canonical {i : Iss} {l va0 pa0 : Nat} {attr : BitVec 2} {x : Txn} {xs : List (Nat × Nat × Nat)} (hs : MemoryCanonical s) :
    MemoryCanonical (txnLoadWords s i l va0 pa0 attr x xs).1 := by
  induction xs generalizing s i l va0 pa0 attr x with
  | nil =>
    rw [txnLoadWords]
    exact hs
  | cons x r ih =>
    rw [txnLoadWords]
    split
    have hs2 := (txnWord_canonical hs).of_eq ‹_›
    split
    · exact hs2
    split
    split <;> exact ((ih hs2).of_eq ‹_›)

theorem setTxn_canonical {i : Iss} {l : Nat} {x : Txn} (hs : MemoryCanonical s) : MemoryCanonical (s.setTxn i l x) :=
  modThread_canonical hs

theorem txnRead_canonical {i : Iss} {l va n : Nat} {p : Spot} {x : Txn} (hs : MemoryCanonical s) :
    MemoryCanonical (txnRead s i l va n p x).1 := by
  unfold txnRead
  split
  · exact hs
  split
  · exact hs
  split
  have hs2 := (txnLoadWords_canonical hs).of_eq ‹_›
  exact ite_canonical_fst (setTxn_canonical hs2) hs2

theorem txnWrite_canonical {i : Iss} {l va : Nat} {p : Spot} {bs : List Byte} {x : Txn} (hs : MemoryCanonical s) :
    MemoryCanonical (txnWrite s i l va p bs x).1 := by
  unfold txnWrite
  split
  · exact hs
  extract_lets
  exact ite_canonical_fst (setTxn_canonical hs) hs

theorem startLoad_canonical {i : Iss} {d : Reg} {w : BitVec 3} {lanes : List LoadLane} {standing : List Nat} (hs : MemoryCanonical s) :
    MemoryCanonical (s.startLoad i d w lanes standing) := by
  unfold State.startLoad
  extract_lets _ _ _ _ _ s1
  have hs1 : MemoryCanonical s1 := modTeam_canonical hs (fun _ ht => Team.emptyRegs_canonical ht)
  exact ite_canonical hs (ite_canonical (hs.other rfl rfl) (ite_canonical hs (hs1.other rfl rfl)))

theorem loadBody_canonical {d : Reg} {w : BitVec 3} {f : Iss → State → Nat → State × Except LaneEnd LoadLane} {i : Iss}
    (hf : ∀ i st x, MemoryCanonical st → MemoryCanonical (f i st x).1) (hs : MemoryCanonical s) :
    MemoryCanonical (loadBody d w f i s).1 := by
  unfold loadBody
  split
  · exact startLoad_canonical hs
  split
  rename_i s1 _ _ heq
  have hs1 : MemoryCanonical s1 := by
    refine (foldl_canonical_fst ?_ hs).of_eq heq
    intro x x1 hst
    split
    split <;> exact ((hf _ _ _ hst).of_eq ‹_›)
  exact startLoad_canonical hs1

theorem loadFrom_canonical {pol : BitVec 2} {w : BitVec 3} {d a : Reg} {srcs : List (Reg × Nat)} {addr : Iss → Nat → Nat × Nat}
    (hs : MemoryCanonical s) :
    OutCanonical (loadFrom pol w d a srcs addr s) := by
  unfold loadFrom
  refine issue_canonical ?_ hs
  intro i st hst
  refine loadBody_canonical ?_ hst
  intro x2 st1 x3 hst1
  split
  split
  have hs1 := (check_canonical hst1).of_eq ‹_›
  split
  · exact hs1
  split
  rename_i s2 _ heq
  refine MemoryCanonical.of_eq ?_ heq
  split
  · exact txnRead_canonical hs1
  · exact readSpot_canonical hs1

theorem storeTo_canonical {pol : BitVec 2} {w : BitVec 3} {d a : Reg} {srcs : List (Reg × Nat)} {addr : Iss → Nat → Nat × Nat}
    (hs : MemoryCanonical s) :
    OutCanonical (storeTo pol w d a srcs addr s) := by
  unfold storeTo
  refine issue_canonical (fun _ _ hst => eachLane_canonical ?_ hst) hs
  intro i st l hst
  split
  split
  have hs1 := (check_canonical hst).of_eq ‹_›
  split
  · exact hs1
  extract_lets
  split
  rename_i s2 _ heq
  refine MemoryCanonical.of_eq ?_ heq
  split
  · exact ite_canonical_fst hs1 (writeSpot_canonical hs1)
  · exact txnWrite_canonical hs1
  · exact writeSpot_canonical hs1

theorem execScrLd_canonical {w : BitVec 3} {d a b : Reg} (hs : MemoryCanonical s) : OutCanonical (execScrLd w d a b s) := by
  unfold execScrLd
  refine issue_canonical ?_ hs
  intro i st hst
  refine loadBody_canonical ?_ hst
  intro x1 st1 x2 hst1
  extract_lets
  split
  · exact hst1
  split
  exact (readSpot_canonical hst1).of_eq ‹_›

theorem execScrSt_canonical {w : BitVec 3} {d a b : Reg} (hs : MemoryCanonical s) : OutCanonical (execScrSt w d a b s) := by
  unfold execScrSt
  refine issue_canonical (fun _ _ hst => eachLane_canonical ?_ hst) hs
  intro i st l hst
  extract_lets
  split
  · exact hst
  · dsimp only
    exact noteWrite_canonical (scrWrite_canonical hst)

end Sys2Proof.Machine
end

