-- ==== Sys2Proof/Proofs/CanonicalAtomics.lean ====
section
/-! Barriers, copies, transactions, atomics and reductions keep the canonical form. -/

namespace Sys2Proof.Machine

open Sys2Proof

variable {s : State}

theorem barScratch_canonical {tm off : Nat} {k : BarStep} (hs : MemoryCanonical s) : MemoryCanonical (s.barScratch tm off k).1 := by
  unfold State.barScratch
  split
  · exact hs
  split
  have hs1 := (scrRead_canonical hs).of_eq ‹_›
  dsimp only
  exact scrWrite_canonical hs1

theorem barHome_canonical {asid va pa : Nat} {mainThread : Bool} {k : BarStep} (hs : MemoryCanonical s) :
    MemoryCanonical (s.barHome asid va pa mainThread k).1 := by
  unfold State.barHome
  split
  have hs1 := (homeRead_canonical hs).of_eq ‹_›
  split
  · exact hs1
  extract_lets
  split
  rename_i s2 heq
  have hs2 : MemoryCanonical s2 := by
    refine MemoryCanonical.of_eq_snd ?_ heq
    split
    · exact freeBytes_canonical hs1
    · exact hs1
  exact homeWrite_canonical hs2

theorem barMemory_canonical {tm asid va pa : Nat} {k : BarStep} (hs : MemoryCanonical s) :
    MemoryCanonical (s.barMemory tm asid va pa k).1 := by
  unfold State.barMemory
  split
  have hs1 := (memReadY_canonical hs).of_eq ‹_›
  split
  · exact hs1
  extract_lets
  split
  exact dramWrite_canonical ((callStore_canonical hs1).of_eq ‹_›)

theorem physLines_canonical {xs : List (Nat × Nat)} (hs : MemoryCanonical s) : MemoryCanonical (s.physLines xs).1 := by
  induction xs generalizing s with
  | nil =>
    rw [State.physLines]
    exact hs
  | cons x r ih =>
    rw [State.physLines]
    split
    have hs1 := (dramRead_canonical (homeLine_canonical hs)).of_eq ‹_›
    split
    · exact hs1
    split
    exact (ih hs1).of_eq ‹_›

theorem physRead_canonical {pa n : Nat} (hs : MemoryCanonical s) : MemoryCanonical (s.physRead pa n).1 := physLines_canonical hs

theorem forward_canonical {pa : Nat} {b : List Byte} (hs : MemoryCanonical s) : MemoryCanonical (s.forward pa b) := by
  unfold State.forward
  split
  · exact foldl_canonical (fun _ _ hst => linkPost_canonical hst) hs
  · exact hs

theorem physStore_canonical {xs : List (Nat × Nat)} {bs : List Byte} (hs : MemoryCanonical s) :
    MemoryCanonical (s.physStore xs bs).1 := by
  induction xs generalizing s bs with
  | nil =>
    rw [State.physStore]
    exact hs
  | cons x r ih =>
    rw [State.physStore]
    split
    have hs2 := (mainWrite_canonical (homeLine_canonical hs)).of_eq ‹_›
    split
    have hs1 := (dramWrite_canonical hs2).of_eq ‹_›
    split
    exact (ih (forward_canonical hs1)).of_eq ‹_›

theorem physWrite_canonical {pa : Nat} {b : List Byte} (hs : MemoryCanonical s) : MemoryCanonical (s.physWrite pa b).1 :=
  physStore_canonical hs

theorem exchWrite_canonical {pa : Nat} {b : List Byte} (hs : MemoryCanonical s) : MemoryCanonical (s.exchWrite pa b) := by
  unfold State.exchWrite
  split
  have hs1 := (physWrite_canonical hs).of_eq ‹_›
  split
  · exact post_canonical hs1
  · exact hs1

theorem unitRead_canonical {ctx : Nat} {xs : List (Nat × Nat)} (hs : MemoryCanonical s) : MemoryCanonical (s.unitRead ctx xs).1 := by
  induction xs generalizing s ctx with
  | nil =>
    rw [State.unitRead]
    exact hs
  | cons x r ih =>
    rw [State.unitRead]
    split
    · exact hs
    split
    have hs1 := (translate_canonical hs).of_eq ‹_›
    split
    · split
      · exact hs1
      split
      have hs2 := (homeRead_canonical hs1).of_eq ‹_›
      split
      · exact hs2
      split
      exact (ih hs2).of_eq ‹_›
    · exact hs1

theorem unitWrite_canonical {ctx : Nat} {xs : List (Nat × Nat)} {bs : List Byte} (hs : MemoryCanonical s) :
    MemoryCanonical (s.unitWrite ctx xs bs) := by
  induction xs generalizing s ctx bs with
  | nil =>
    rw [State.unitWrite]
    exact hs
  | cons x r ih =>
    rw [State.unitWrite]
    split
    have hs1 := (ite_canonical_fst (translate_canonical hs) hs).of_eq ‹_›
    extract_lets s2
    have hs2 : MemoryCanonical s2 := by
      dsimp only [s2]
      split
      · split
        · exact forward_canonical (homeWrite_canonical hs1)
        · exact foldl_canonical (fun _ _ hst => linkPost_canonical hst) hs1
      · exact postStoreError_canonical hs1
      · exact postStoreError_canonical hs1
    exact ih hs2

theorem rewriteRecord_canonical {tm : Nat} (hs : MemoryCanonical s) : MemoryCanonical (s.rewriteRecord tm) := by
  unfold State.rewriteRecord
  extract_lets _ b mine s1
  have hs1 : MemoryCanonical s1 := by
    refine foldl_canonical (fun _ _ hst => unitWrite_canonical hst) ?_
    exact hs.other rfl rfl
  clear_value s1 b
  split
  · exact hs
  split
  · exact modTeam_canonical hs1 fun _ ht => ht
  split
  have hs2 := (unitRead_canonical hs).of_eq ‹_›
  split
  · exact modTeam_canonical hs2 fun _ ht => ht
  · exact modTeam_canonical (unitWrite_canonical hs2) fun _ ht => ht

theorem readDescriptor_canonical {i : Nat} (hs : MemoryCanonical s) : MemoryCanonical (s.readDescriptor i).1 := by
  unfold State.readDescriptor
  split
  · exact hs
  split
  exact (physRead_canonical hs).of_eq ‹_›

theorem setShard_canonical {d : Descriptor} {v : Nat} (hs : MemoryCanonical s) : MemoryCanonical (s.setShard d v) := exchWrite_canonical hs

theorem header_canonical {d : Descriptor} (hs : MemoryCanonical s) : MemoryCanonical (s.header d).1 := by
  unfold State.header
  split
  have hs1 := (physRead_canonical hs).of_eq ‹_›
  split
  · exact hs1
  · exact freeBytes_canonical hs1

theorem shardBusy_canonical {d : Descriptor} (hs : MemoryCanonical s) : MemoryCanonical (s.shardBusy d).1 := by
  unfold State.shardBusy
  split
  have hs2 := (header_canonical hs).of_eq ‹_›
  extract_lets
  exact hs2

theorem stepHeld_canonical {pa : Nat} (hs : MemoryCanonical s) : MemoryCanonical (s.stepHeld pa).1 := by
  unfold State.stepHeld
  split
  · exact hs
  split
  exact (shardBusy_canonical hs).of_eq ‹_›

theorem holdReq_canonical {d : Descriptor} {r : HeldReq} (hs : MemoryCanonical s) : MemoryCanonical (s.holdReq d r) :=
  modStack_canonical hs

theorem agentScratch_canonical {tm off : Nat} {k : BarStep} (hs : MemoryCanonical s) : MemoryCanonical (s.agentScratch tm off k) := by
  unfold State.agentScratch
  split
  · exact (barScratch_canonical hs).of_eq ‹_›
  have hs1 := (barScratch_canonical hs).of_eq ‹_›
  extract_lets
  split
  exact post_canonical hs1

theorem barAgent_canonical {s0 : State} {tm ctx va pa : Nat} {k : BarStep} (hs0 : MemoryCanonical s0) :
    MemoryCanonical (s0.barAgent tm ctx va pa k) := by
  unfold State.barAgent
  extract_lets s _
  have hs : MemoryCanonical s := signal_canonical hs0
  split
  · exact hs0
  split
  · split
    · exact agentScratch_canonical hs
    · exact agentScratch_canonical hs
    · exact wakeScratch_canonical (rewriteRecord_canonical (modTeam_canonical hs (fun _ ht => ht)))
    · exact hs
  · split
    · split
      · exact holdReq_canonical ((stepHeld_canonical hs).of_eq ‹_›)
      have hs1 := (stepHeld_canonical hs).of_eq ‹_›
      split
      have hs2 := (barHome_canonical hs1).of_eq ‹_›
      split
      · exact hs2
      · exact postStoreError_canonical hs2
    · exact linkPost_canonical hs

theorem pinCount_canonical {ctx pa : Nat} (hs : MemoryCanonical s) : MemoryCanonical (s.pinCount ctx pa).1 := by
  unfold State.pinCount
  extract_lets
  split
  split <;> exact ((dramRead_canonical (homeLine_canonical hs)).of_eq ‹_›)

theorem pinWrite_canonical {ctx pa n : Nat} (hs : MemoryCanonical s) : MemoryCanonical (s.pinWrite ctx pa n) := dramWrite_canonical hs

theorem migrating_canonical {ctx va : Nat} (hs : MemoryCanonical s) : MemoryCanonical (s.migrating ctx va).1 := by
  unfold State.migrating
  split
  · exact hs
  split
  have hs1 := (leafAddr_canonical hs).of_eq ‹_›
  split
  · split
    exact (dramRead_canonical hs1).of_eq ‹_›
  · exact hs1
  · exact hs1

theorem pin_canonical {ctx va pa : Nat} (hs : MemoryCanonical s) : MemoryCanonical (s.pin ctx va pa).1 := by
  unfold State.pin
  split
  · exact hs
  split
  have hs1 := (pinCount_canonical hs).of_eq ‹_›
  split
  · exact hs1
  split
  have hs2 := (migrating_canonical hs1).of_eq ‹_›
  split
  · exact hs2
  · exact ite_canonical_fst hs2 (pinWrite_canonical hs2)

theorem unpin_canonical {ctx pa : Nat} (hs : MemoryCanonical s) : MemoryCanonical (s.unpin ctx pa) := by
  unfold State.unpin
  split
  have hs1 := (pinCount_canonical hs).of_eq ‹_›
  split
  · exact pinWrite_canonical hs1
  · exact hs1

theorem unpinAll_canonical {ctx : Nat} {pas : List Nat} (hs : MemoryCanonical s) : MemoryCanonical (s.unpinAll ctx pas) :=
  foldl_canonical (fun _ _ hst => unpin_canonical hst) hs

theorem checkBarrier_canonical {i : Iss} {va : Nat} (hs : MemoryCanonical s) : MemoryCanonical (s.checkBarrier i va).1 := by
  unfold State.checkBarrier
  extract_lets
  split
  · exact hs
  split
  · exact ite_canonical_fst hs (ite_canonical_fst hs hs)
  split
  have hs1 := (pageCheck_canonical hs).of_eq ‹_›
  split
  · exact hs1
  · exact hs1
  · exact hs1
  split
  split <;> exact ((pin_canonical hs1).of_eq ‹_›)

theorem unpinBarrier_canonical {ctx va pa : Nat} (hs : MemoryCanonical s) : MemoryCanonical (s.unpinBarrier ctx va pa) :=
  ite_canonical hs (unpin_canonical hs)

theorem checkPieces_canonical {i : Iss} {need : Need} {xs : List (Nat × Nat)} (hs : MemoryCanonical s) :
    MemoryCanonical (s.checkPieces i need xs).1 := by
  induction xs generalizing s i need with
  | nil =>
    rw [State.checkPieces]
    exact hs
  | cons x r ih =>
    rw [State.checkPieces]
    split
    have hs1 := (pageCheck_canonical hs).of_eq ‹_›
    split
    · exact hs1
    · exact hs1
    · exact hs1
    split
    split <;> exact ((ih hs1).of_eq ‹_›)

theorem checkCopy_canonical {i : Iss} {l va off bar n : Nat} {a : Reg} {toScr : Bool} (hs : MemoryCanonical s) :
    MemoryCanonical (s.checkCopy i l va off bar n a toScr).1 := by
  unfold State.checkCopy
  extract_lets
  refine ite_canonical_fst hs (ite_canonical_fst hs (ite_canonical_fst hs (ite_canonical_fst hs (ite_canonical_fst hs
    (ite_canonical_fst hs (ite_canonical_fst hs ?_))))))
  split
  have hs1 := (checkPieces_canonical hs).of_eq ‹_›
  split
  · exact hs1
  split
  split <;> exact (checkBarrier_canonical hs1).of_eq ‹_›

theorem startPart_canonical {i : Iss} {l lot off bar barPa : Nat} {toScr : Bool} {va k : Nat} {attr : BitVec 2} {pa : Nat} (hs : MemoryCanonical s) :
    MemoryCanonical (s.startPart i l lot off bar barPa toScr va k attr pa) := by
  have hrel {st : State} (hst : MemoryCanonical st) : MemoryCanonical (if attr == attrSC then st.relDev i.op.team i.op.grp l else st) :=
    ite_canonical (relDev_canonical hst) hst
  unfold State.startPart
  extract_lets ctx local_ link_
  split
  have hs1 := (fresh_canonical hs).of_eq_snd ‹_›
  extract_lets held part
  split
  · split
    · split
      have hs2 := (readDram_canonical hs1).of_eq ‹_›
      exact hs2.other rfl rfl
    · exact (linkPost_canonical (hrel hs1)).other rfl rfl
  split
  have hs2 := (scrRead_canonical hs1).of_eq ‹_›
  split
  · exact hs2.other rfl rfl
  split
  · extract_lets _ s4
    have hs4 : MemoryCanonical s4 := (hrel hs2).other rfl rfl
    exact ite_canonical (doPart_canonical hs4) hs4
  split
  · exact hs2.other rfl rfl
  · extract_lets s3 s4
    have hs3 : MemoryCanonical s3 := ite_canonical (relDev_canonical hs2) (ite_canonical (modThread_canonical hs2) hs2)
    have hs4 : MemoryCanonical s4 := linkPost_canonical hs3
    exact hs4.other rfl rfl

theorem asyncCopy_canonical {toScr : Bool} {size : BitVec 3} {d a b : Reg} (hs : MemoryCanonical s) :
    OutCanonical (asyncCopy toScr size d a b s) := by
  unfold asyncCopy
  refine issue_canonical (fun _ _ hst => eachLane_canonical ?_ hst) hs
  intro i st l hst
  extract_lets
  split
  · exact hst
  split
  have hs1 := (checkCopy_canonical hst).of_eq ‹_›
  split
  · exact hs1
  split
  · exact unpinBarrier_canonical hs1
  extract_lets
  exact foldl_canonical (fun _ _ hst1 => startPart_canonical hst1) hs1

theorem atomic_canonical {op : AtomOp} {wide : Bool} {d a b : Reg} (hs : MemoryCanonical s) :
    OutCanonical (atomic op wide d a b s) := by
  unfold atomic
  refine issue_canonical ?_ hs
  intro i st hst
  refine loadBody_canonical ?_ hst
  intro x2 st1 x3 hst1
  extract_lets
  split
  have hs1 := (check_canonical hst1).of_eq ‹_›
  split
  · exact hs1
  split
  exact (atomSpot_canonical hs1).of_eq ‹_›

theorem reduction_canonical {code : Nat} {a b : Reg} (hs : MemoryCanonical s) : OutCanonical (reduction code a b s) := by
  unfold reduction
  refine issue_canonical (fun _ _ hst => eachLane_canonical ?_ hst) hs
  intro i st l hst
  extract_lets
  split
  have hs1 := (check_canonical hst).of_eq ‹_›
  extract_lets _ _ perform
  have hperform {p : Spot} : MemoryCanonical (perform p).1 := by
    dsimp only [perform]
    split
    · exact atomSpot_canonical hs1
    · exact atomSpot_canonical hs1
    · exact postStoreError_canonical (atomSpot_canonical hs1)
  clear_value perform
  split
  · exact hs1
  · exact ite_canonical_fst (modCore_canonical (l1Bypass_canonical (ownCopies_canonical hs1))) hperform
  · exact hperform

theorem execTbegin_canonical {d a : Reg} (hs : MemoryCanonical s) : OutCanonical (execTbegin d a s) := by
  unfold execTbegin
  refine issue_canonical (fun _ _ hst => eachLane_canonical ?_ hst) hs
  intro i st l hst
  extract_lets
  exact ite_canonical_fst hst (ite_canonical_fst hst (setTxn_canonical hst))

theorem txnPa_canonical {i : Iss} {va : Nat} (hs : MemoryCanonical s) : MemoryCanonical (s.txnPa i va).1 := by
  unfold State.txnPa
  extract_lets
  split
  · exact hs
  split
  split <;> exact ((translate_canonical hs).of_eq ‹_›)

theorem lockable_canonical {i : Iss} {xs : List (Nat × Word × BitVec 4)} (hs : MemoryCanonical s) :
    MemoryCanonical (s.lockable i xs).1 := by
  induction xs generalizing s i with
  | nil =>
    rw [State.lockable]
    exact hs
  | cons x r ih =>
    rw [State.lockable]
    split
    · exact ih ((txnPa_canonical hs).of_eq ‹_›)
    · exact (txnPa_canonical hs).of_eq ‹_›

theorem validate_canonical {i : Iss} {xs : List (Nat × Word)} (hs : MemoryCanonical s) : MemoryCanonical (s.validate i xs).1 := by
  induction xs generalizing s i with
  | nil =>
    rw [State.validate]
    exact hs
  | cons x r ih =>
    rw [State.validate]
    split
    have hs1 := (txnPa_canonical hs).of_eq ‹_›
    split
    · split
      have hs2 := (homeRead_canonical hs1).of_eq ‹_›
      split
      · exact ite_canonical_fst (ih hs2) hs2
      · exact hs2
    · exact hs1

theorem commitWord_canonical {i : Iss} {va : Nat} {v : Word} {m : BitVec 4} (hs : MemoryCanonical s) :
    MemoryCanonical (s.commitWord i va v m) := by
  unfold State.commitWord
  split
  have hs1 := (txnPa_canonical hs).of_eq ‹_›
  extract_lets
  split
  · split
    · exact homeWrite_canonical hs1
    split
    have hs2 := (homeRead_canonical hs1).of_eq ‹_›
    split
    · exact homeWrite_canonical hs2
    · exact postAsidError_canonical hs2
  · exact hs1

theorem commitLane_canonical {i : Iss} {l : Nat} {x : Txn} (hs : MemoryCanonical s) : MemoryCanonical (s.commitLane i l x).1 := by
  unfold State.commitLane
  split
  · exact hs
  split
  have hs1 := (lockable_canonical hs).of_eq ‹_›
  split
  have hs2 := (validate_canonical (relDev_canonical hs1)).of_eq ‹_›
  split
  · exact validate_canonical hs1
  extract_lets s2
  refine modThread_canonical (acquireDev_canonical ?_)
  dsimp only [s2]
  exact foldl_canonical (fun _ _ hst => commitWord_canonical hst) hs2

theorem execTend_canonical (hs : MemoryCanonical s) : OutCanonical (execTend s) := by
  unfold execTend
  refine issue_canonical ?_ hs
  intro i st hst
  extract_lets
  split
  split
  rename_i s1 _ heq
  refine (foldl_canonical_fst ?_ hst).of_eq heq
  intro x1 x2 hst1
  split
  exact (commitLane_canonical hst1).of_eq ‹_›

end Sys2Proof.Machine
end

