-- ==== Sys2Proof/Proofs/CanonicalSync.lean ====
section
/-! Fetch, the start of a team, fences, rings, region tokens and waits keep the canonical form. -/

namespace Sys2Proof.Machine

open Sys2Proof

variable {s : State}

theorem keepCode_canonical {core asid va pa : Nat} {w : Word} (hs : MemoryCanonical s) :
    MemoryCanonical (s.keepCode core asid va pa w) := modCore_canonical hs

theorem codeLink_canonical {ctx core asid va pa : Nat} (hs : MemoryCanonical s) : MemoryCanonical (s.codeLink ctx core asid va pa).1 := by
  unfold State.codeLink
  split
  · exact linkPost_canonical hs
  split
  · exact hs
  extract_lets s1 _
  have hs1 : MemoryCanonical s1 := hs.other rfl rfl
  exact ite_canonical_fst hs1 (keepCode_canonical hs1)

theorem codeWord_canonical {ctx core asid va pa : Nat} (hs : MemoryCanonical s) : MemoryCanonical (s.codeWord ctx core asid va pa).1 := by
  unfold State.codeWord
  split
  · exact hs
  split
  · split
    · exact hs
    split
    have hs1 := (homeRead_canonical hs).of_eq ‹_›
    split
    · exact keepCode_canonical hs1
    · exact hs1
  · exact codeLink_canonical hs

theorem fetchMain_canonical {tm : Nat} {t : Team} {grp : Nat} {pc : DWord} (hs : MemoryCanonical s) :
    MemoryCanonical (s.fetchMain tm t grp pc).1 := by
  unfold State.fetchMain
  extract_lets
  split
  · exact hs
  split
  · exact hs
  split
  have hs1 := (pageCheck_canonical hs).of_eq ‹_›
  split
  · exact hs1
  · exact hs1
  · exact hs1
  split
  split <;> exact ((codeWord_canonical hs1).of_eq ‹_›)

theorem fetchAheadFrom_canonical {tm : Nat} {t : Team} {grp n : Nat} {x : DWord} (hs : MemoryCanonical s) :
    MemoryCanonical (s.fetchAheadFrom tm t grp n x).1 := by
  induction n generalizing s tm t grp x with
  | zero =>
    rw [State.fetchAheadFrom]
    exact hs
  | succ n ih =>
    rw [State.fetchAheadFrom]
    split
    have hs1 := (fetchMain_canonical hs).of_eq ‹_›
    split
    · split
      exact (ih hs1).of_eq ‹_›
    · exact hs

theorem fetchCall_canonical {tm stack core : Nat} {pc : DWord} (hs : MemoryCanonical s) :
    MemoryCanonical (s.fetchCall tm stack core pc).1 := by
  unfold State.fetchCall
  split
  · exact hs
  split
  · exact hs
  split
  · exact hs
  extract_lets
  split
  · exact hs
  split
  · exact hs
  split
  have hs1 := (dramRead_canonical hs).of_eq ‹_›
  split
  · exact modStack_canonical hs1
  · exact hs1

theorem fetch_canonical {tm grp : Nat} {lanes : List Nat} {pc : DWord} (hs : MemoryCanonical s) :
    MemoryCanonical (s.fetch tm grp lanes pc).1 := by
  unfold State.fetch
  split
  · split
    · exact ite_canonical_fst hs (fetchCall_canonical hs)
    split
    have hs1 := (fetchMain_canonical hs).of_eq ‹_›
    split
    · exact hs1
    extract_lets
    split
    · exact hs1
    split
    exact modGroup_canonical ((fetchAheadFrom_canonical hs1).of_eq ‹_›)
  · exact hs

theorem classWord_canonical {tm grp : Nat} {g : Group} {lead : Nat} {lanes : List Nat} {pc : DWord} (hs : MemoryCanonical s) :
    MemoryCanonical (s.classWord tm grp g lead lanes pc).1 := by
  unfold State.classWord
  extract_lets
  split
  · extract_lets
    split
    · exact hs
    split
    exact (fetch_canonical hs).of_eq ‹_›
  · split
    have hs1 := (fetch_canonical hs).of_eq ‹_›
    split
    · extract_lets
      exact hs1
    · exact hs1

theorem TeamPool.start_canonical {scr mxs nregs : Nat} : (TeamPool.start scr mxs nregs).Canonical := ⟨rfl, rfl⟩

theorem startScratch_canonical {l : Launch} {argo : Nat} : memWfFrom 0 (startScratch l argo) = true := by
  have hrings : memWfFrom 0 (l.rings.foldl (fun (m : Mem) (r : Nat × Nat) => memWrite m (16 * r.1) [0, 0, BitVec.ofNat 8 r.2, 0]) []) = true :=
    foldl_mem_canonical (fun _ _ => memWrite_wf (Nat.zero_le _)) rfl
  have hargs {bs : List Byte} := memWrite_wf (bs := bs) (Nat.zero_le argo) hrings
  unfold startScratch
  split
  · exact memWrite_wf (Nat.zero_le _) hargs
  · exact hargs

theorem Team.start_canonical {kind : TeamKind} {l : Launch} {index : Nat} {sys : Bool} : (Team.start kind l index sys).Canonical :=
  ⟨startScratch_canonical, rfl⟩

theorem Team.age_canonical {t : Team} {n : Nat} (ht : t.Canonical) : (t.age n).Canonical := ht

theorem relLanes_canonical {tm g : Nat} {ls : List Nat} (hs : MemoryCanonical s) : MemoryCanonical (s.relLanes tm g ls) :=
  foldl_canonical (fun _ _ hst => relTeam_canonical hst) hs

theorem releaseHolder_canonical {tm : Nat} (hs : MemoryCanonical s) : MemoryCanonical (s.releaseHolder tm) := by
  unfold State.releaseHolder
  extract_lets
  exact foldl_canonical (fun _ _ hst => foldl_canonical (fun _ _ hst1 => relDev_canonical hst1) hst) hs

theorem scRelease_canonical {i : Iss} {l : Nat} {attr : BitVec 2} (hs : MemoryCanonical s) : MemoryCanonical (s.scRelease i l attr) :=
  ite_canonical (relDev_canonical hs) hs

theorem barRead_canonical {i : Iss} {l va : Nat} {p : Spot} (hs : MemoryCanonical s) : MemoryCanonical (s.barRead i l va p).1 := by
  unfold State.barRead
  extract_lets
  split
  · split
    · exact hs
    split
    exact (scrRead_canonical hs).of_eq ‹_›
  · split
    · exact hs
    extract_lets s0 _
    have hs0 : MemoryCanonical s0 := scRelease_canonical hs
    split
    · split
      split <;> exact ((homeRead_canonical (l1Bypass_canonical hs0)).of_eq ‹_›)
    split
    split <;> exact ((linkCall_canonical hs0).of_eq ‹_›)
  · exact hs

theorem barStep_canonical {i : Iss} {l va : Nat} {p : Spot} {k : BarStep} (hs : MemoryCanonical s) :
    MemoryCanonical (s.barStep i l va p k).1 := by
  unfold State.barStep
  extract_lets _ _ got
  split
  · dsimp only [got]
    split <;> exact barScratch_canonical hs
  · split
    · exact hs
    extract_lets s'
    have hs' : MemoryCanonical s' := scRelease_canonical hs
    split
    · split
      · exact (stepHeld_canonical hs').of_eq ‹_›
      have hs0 := (stepHeld_canonical hs').of_eq ‹_›
      extract_lets
      dsimp only [got]
      split <;> exact barHome_canonical (l1Bypass_canonical hs0)
    · split
      split <;> exact ((linkCall_canonical hs').of_eq ‹_›)
  · exact hs

theorem barRelease_canonical {i : Iss} {l va : Nat} {p : Spot} (hs : MemoryCanonical s) : MemoryCanonical (s.barRelease i l va p).1 := by
  unfold State.barRelease
  split
  · exact relTeam_canonical hs
  · extract_lets _ _ s1
    have hs1 : MemoryCanonical s1 := relDev_canonical hs
    split
    · split
      split <;> exact ((barRead_canonical hs1).of_eq ‹_›)
    · exact hs1
  · exact hs

theorem barAcquire_canonical {i : Iss} {p : Spot} (hs : MemoryCanonical s) : MemoryCanonical (s.barAcquire i p) := by
  unfold State.barAcquire
  split
  · exact acquireTeam_canonical hs
  · exact acquireDev_canonical hs

theorem acquired_canonical {tm va : Nat} {p : Spot} {o : BarObj} (hs : MemoryCanonical s) : MemoryCanonical (s.acquired tm va p o) := by
  unfold State.acquired
  extract_lets
  exact hs.other rfl rfl

theorem barOp_canonical {f : Form} {a : Reg} {body : Iss → State → Nat → Nat → Spot → State × LaneOut}
    (hbody : ∀ i st x y p, MemoryCanonical st → MemoryCanonical (body i st x y p).1) (hs : MemoryCanonical s) :
    OutCanonical (barOp f a body s) := by
  unfold barOp
  refine issue_canonical (fun _ _ hst => eachLane_canonical ?_ hst) hs
  intro i st l hst
  extract_lets
  split
  have hs1 := (check_canonical hst).of_eq ‹_›
  split
  · exact hs1
  · exact hbody _ _ _ _ _ hs1

theorem execBinit_canonical {d a b : Reg} (hs : MemoryCanonical s) : OutCanonical (execBinit d a b s) := by
  unfold execBinit
  refine barOp_canonical ?_ hs
  intro i st l va p hst
  extract_lets
  split
  have hs1 := (barStep_canonical hst).of_eq ‹_›
  split
  · exact hs1
  split
  · split
    have hs2 := (freeBytes_canonical hs1).of_eq_snd ‹_›
    split
    · dsimp only
      exact scrWrite_canonical hs2
    · exact ite_canonical (homeWrite_canonical hs2) hs2
    · exact hs2
  · exact hs1

theorem barUpdate_canonical {arrival token : Bool} {k : BarStep} {i : Iss} {l va : Nat} {p : Spot} (hs : MemoryCanonical s) :
    MemoryCanonical (barUpdate arrival token k i s l va p).1 := by
  unfold barUpdate
  split
  have hs1 := (ite_canonical_fst (barRelease_canonical hs) hs).of_eq ‹_›
  split
  · exact hs1
  split
  split <;> exact ((barStep_canonical hs1).of_eq ‹_›)

theorem callArrive_canonical {a : Reg} {n : Nat} {i : Iss} {l va : Nat} (hs : MemoryCanonical s) :
    MemoryCanonical (callArrive a n i s l va).1 := by
  unfold callArrive
  extract_lets
  split
  · exact hs
  split
  · exact hs
  split
  · exact hs
  split
  · exact hs
  split
  · exact hs
  split
  split <;> exact ((barMemory_canonical hs).of_eq ‹_›)

theorem execArrive_canonical {d a b : Reg} (hs : MemoryCanonical s) : OutCanonical (execArrive d a b s) := by
  unfold execArrive
  extract_lets
  refine issue_canonical (fun _ _ hst => eachLane_canonical ?_ hst) hs
  intro i st l hst
  extract_lets
  split
  · exact callArrive_canonical hst
  split
  have hs1 := (check_canonical hst).of_eq ‹_›
  split
  · exact hs1
  · exact barUpdate_canonical hs1

theorem execBwait_canonical {d a b : Reg} (hs : MemoryCanonical s) : OutCanonical (execBwait d a b s) := by
  unfold execBwait
  refine barOp_canonical ?_ hs
  intro x st x1 x2 x3 hst
  split
  have hs2 := (barRead_canonical hst).of_eq ‹_›
  split
  · extract_lets
    exact modThread_canonical hs2
  · exact hs2
  split
  · exact modThread_canonical hs2
  extract_lets
  split <;> exact acquired_canonical (barAcquire_canonical hs2)

theorem execBtest_canonical {d a b : Reg} (hs : MemoryCanonical s) : OutCanonical (execBtest d a b s) := by
  unfold execBtest
  refine barOp_canonical ?_ hs
  intro x st x1 x2 x3 hst
  split
  have hs2 := (barRead_canonical hst).of_eq ‹_›
  split
  · exact hs2
  · exact ite_canonical_fst hs2 (acquired_canonical (barAcquire_canonical hs2))

theorem syncBody_canonical {k : WaitKind} {whole : Bool} {i : Iss} (hs : MemoryCanonical s) :
    MemoryCanonical (syncBody k whole i s).1 := by
  unfold syncBody
  extract_lets _ _ _ s1 _ _ _ _ s2 _ s3
  have hs1 : MemoryCanonical s1 := modGroup_canonical hs
  have hs2 : MemoryCanonical s2 :=
    ite_canonical (foldl_canonical (fun _ _ hst => acquireTeam_canonical (relLanes_canonical hst)) hs1)
      (foldl_canonical (fun _ _ hst => doCopies_canonical hst) hs1)
  have hs3 : MemoryCanonical s3 := ite_canonical (modTeam_canonical hs2 (fun _ ht => ht)) (modGroup_canonical hs2)
  exact ite_canonical_fst hs3 hs1

theorem ringOp_canonical {id : BitVec 3} {srcs : List (Reg × Nat)} {d : Reg} {f : Iss → RingObj → Option (RingObj × Word)}
    {after : State → Nat → Nat → List Nat → State} (hafter : ∀ st x y xs, MemoryCanonical st → MemoryCanonical (after st x y xs))
    (hs : MemoryCanonical s) :
    OutCanonical (ringOp id srcs d f after s) := by
  unfold ringOp
  refine issue_canonical ?_ hs
  intro i st hst
  extract_lets
  split
  · exact hst
  split
  · exact hst
  split
  · exact hst
  split
  have hs2 := (scrRead_canonical hst).of_eq ‹_›
  split
  · exact hs2
  extract_lets
  exact ite_canonical hs2 (hafter _ _ _ _ (scrPut_canonical hs2))

theorem fenceRel_canonical {i : Iss} {scope l : Nat} (hs : MemoryCanonical s) : MemoryCanonical (s.fenceRel i scope l) := by
  unfold State.fenceRel
  split
  · exact doCopies_canonical hs
  · exact relTeam_canonical hs
  · exact relDev_canonical hs

theorem fenceAcq_canonical {i : Iss} {scope : Nat} (hs : MemoryCanonical s) : MemoryCanonical (s.fenceAcq i scope) := by
  unfold State.fenceAcq
  split
  · exact hs
  · exact acquireTeam_canonical hs
  · exact acquireDev_canonical hs

theorem fence_canonical {rel acq : Bool} {scope : BitVec 2} (hs : MemoryCanonical s) :
    OutCanonical (fence rel acq scope s) := by
  unfold fence
  refine issue_canonical (fun _ _ hst => eachLane_canonical ?_ hst) hs
  intro i st l hst
  split
  · exact hst
  extract_lets s1
  have hs1 : MemoryCanonical s1 := ite_canonical (fenceRel_canonical hst) hst
  exact ite_canonical_fst hs1 (ite_canonical (fenceAcq_canonical hs1) hs1)

theorem execFenceAcqDevPromote_canonical (hs : MemoryCanonical s) : OutCanonical (execFenceAcqDevPromote s) :=
  issue_canonical (fun _ _ hst => eachLane_canonical (fun _ _ _ hst1 => acquireDev_canonical (promote_canonical hst1)) hst) hs

theorem cacheOp_canonical {a b : Reg} {f : Iss → State → Nat → Nat → State} (hf : ∀ i st x y, MemoryCanonical st → MemoryCanonical (f i st x y))
    (hs : MemoryCanonical s) :
    OutCanonical (cacheOp a b f s) := by
  unfold cacheOp
  refine issue_canonical (fun _ _ hst => eachLane_canonical ?_ hst) hs
  intro i st l hst
  extract_lets
  exact ite_canonical hst (hf _ _ _ _ hst)

theorem l1Maintain_canonical {inv : Bool} {i : Iss} {lo n : Nat} (hs : MemoryCanonical s) : MemoryCanonical (l1Maintain inv i s lo n) := by
  unfold l1Maintain
  extract_lets
  exact foldl_canonical (fun _ _ hst => l1Write_canonical hst) hs

theorem execCinv_canonical {a b : Reg} (hs : MemoryCanonical s) : OutCanonical (execCinv a b s) := by
  unfold execCinv
  refine cacheOp_canonical ?_ hs
  intro x st x1 x2 hst
  extract_lets
  exact foldl_canonical (fun _ _ hst1 => modCore_canonical hst1) hst

theorem execIinv_canonical {a b : Reg} (hs : MemoryCanonical s) : OutCanonical (execIinv a b s) := by
  unfold execIinv
  refine cacheOp_canonical ?_ hs
  intro x st x1 x2 hst
  extract_lets
  exact hst.other rfl rfl

theorem setToken_canonical {k : Token} (hs : MemoryCanonical s) : MemoryCanonical (s.setToken k) := by
  unfold State.setToken
  extract_lets
  exact hs.other rfl rfl

theorem tokenWake_canonical {region : Nat} (hs : MemoryCanonical s) : MemoryCanonical (s.tokenWake region) := requeue_canonical hs

theorem freeToken_canonical {k : Token} (hs : MemoryCanonical s) : MemoryCanonical (s.freeToken k) := by
  unfold State.freeToken
  refine tokenWake_canonical ?_
  split <;> exact setToken_canonical hs

theorem drainToken_canonical {k : Token} (hs : MemoryCanonical s) : MemoryCanonical (s.drainToken k) := drainIp_canonical hs

theorem regnOp_canonical {d a : Reg} {bs : List (Reg × Nat)} {f : Iss → State → Nat → TbEntry → State × Except LaneEnd Word}
    (hf : ∀ i st x e, MemoryCanonical st → MemoryCanonical (f i st x e).1) (hs : MemoryCanonical s) :
    OutCanonical (regnOp d a bs f s) := by
  unfold regnOp
  refine issue_canonical ?_ hs
  intro i st hst
  extract_lets
  split
  · exact hst
  split
  · exact hst
  split
  have hs1 := (translate_canonical hst).of_eq ‹_›
  split
  · exact hs1
  · exact hs1
  split
  split <;> exact ((hf _ _ _ _ hs1).of_eq ‹_›)

theorem tokenAcquire_canonical {tm : Nat} (hs : MemoryCanonical s) : MemoryCanonical (s.tokenAcquire tm) :=
  foldl_canonical (fun _ _ hst => acquireDev_canonical hst) hs

theorem execAcqr_canonical {d a b : Reg} (hs : MemoryCanonical s) : OutCanonical (execAcqr d a b s) := by
  unfold execAcqr
  refine regnOp_canonical ?_ hs
  intro x st x1 x2 hst
  extract_lets _ _ entry _ _ _
  split
  · exact tokenAcquire_canonical hst
  split
  · exact hst
  split
  · exact hst
  split
  · exact hst
  clear_value entry
  split
  · exact tokenAcquire_canonical (setToken_canonical hst)
  · exact ite_canonical_fst hst (setToken_canonical hst)

theorem tokenRelease_canonical {i : Iss} {k : Token} (hs : MemoryCanonical s) : MemoryCanonical (s.tokenRelease i k) :=
  drainToken_canonical (releaseHolder_canonical hs)

theorem execRelr_canonical {d a : Reg} (hs : MemoryCanonical s) : OutCanonical (execRelr d a s) := by
  unfold execRelr
  refine regnOp_canonical ?_ hs
  intro x st x1 x2 hst
  split
  · exact hst
  split
  · exact ite_canonical_fst (freeToken_canonical (tokenRelease_canonical hst)) hst
  · exact hst

theorem execQryr_canonical {d a : Reg} (hs : MemoryCanonical s) : OutCanonical (execQryr d a s) := by
  unfold execQryr
  refine regnOp_canonical ?_ hs
  intro x st x1 x2 hst
  split <;> exact hst

theorem liveTeam_canonical {handle index : Nat} (hs : MemoryCanonical s) : MemoryCanonical (s.liveTeam handle index).1 := by
  unfold State.liveTeam
  split
  · exact hs
  split
  · exact hs
  split
  · exact hs
  · exact hs.appendTeams (List.forall_mem_singleton.mpr Team.start_canonical) rfl rfl

theorem execGivr_canonical {d a b : Reg} (hs : MemoryCanonical s) : OutCanonical (execGivr d a b s) := by
  unfold execGivr
  refine regnOp_canonical ?_ hs
  intro x st x1 x2 hst
  split
  · exact hst
  split
  · exact hst
  split
  · exact hst
  split
  have hs1 := (liveTeam_canonical hst).of_eq ‹_›
  split
  · exact hs1
  extract_lets s2
  have hs2 : MemoryCanonical s2 := setToken_canonical (tokenRelease_canonical hs1)
  exact tokenWake_canonical (tokenAcquire_canonical hs2)

theorem waitWord_canonical {a b : Reg} {kind : Nat → Option Nat → WaitKind} {f : Word → Word → Bool} (hs : MemoryCanonical s) :
    OutCanonical (waitWord a b kind f s) := by
  unfold waitWord
  refine issue_canonical (fun _ _ hst => eachLane_canonical ?_ hst) hs
  intro i st l hst
  extract_lets
  split
  have hs1 := (check_canonical hst).of_eq ‹_›
  split
  · exact hs1
  split
  have hs2 := (readSpot_canonical hs1).of_eq ‹_›
  split
  · exact hs2
  · exact hs2
  · exact hs2
  split
  · split
    · exact ite_canonical (acquireTeam_canonical hs2) (acquireDev_canonical hs2)
    · exact acquireDev_canonical hs2
  · exact hs2

end Sys2Proof.Machine
end

