-- ==== Sys2Proof/Proofs/CanonicalTiles.lean ====
section
/-! Pool requests and the matrix engine keep the canonical form: banks that change hands are cleared, and a tile is written byte by byte. -/

namespace Sys2Proof.Machine

open Sys2Proof

variable {s : State}

theorem fitStore_canonical {core : Nat} (hs : MemoryCanonical s) : MemoryCanonical (s.fitStore core) := modCore_canonical hs

theorem modCores_canonical {cs : List Nat} {f : Core → Core} (hs : MemoryCanonical s) : MemoryCanonical (s.modCores cs f) :=
  foldl_canonical (fun _ _ hst => modCore_canonical hst) hs

theorem poolAnswer_canonical {r : PoolReq} {code : Nat} (hs : MemoryCanonical s) : MemoryCanonical (s.poolAnswer r code) := by
  unfold State.poolAnswer
  split
  · exact hs
  extract_lets _ _ _ s1
  have hs1 : MemoryCanonical s1 := modTeam_canonical hs (fun _ ht => Team.writeRegs_canonical ht)
  exact finish_canonical hs1

theorem countPool_canonical {tm : Nat} {f : TeamPool → TeamPool} (hs : MemoryCanonical s) (hf : ∀ p, p.Canonical → (f p).Canonical) :
    MemoryCanonical (s.countPool tm f) := modPool_canonical hs (fun _ hp => hf _ hp)

theorem beginPool_canonical {r : PoolReq} {dest odd : Nat} {relocates : Bool} (hs : MemoryCanonical s) :
    MemoryCanonical (s.beginPool r dest odd relocates) := by
  unfold State.beginPool
  extract_lets
  exact modCores_canonical hs

theorem retestOne_canonical {r : PoolReq} (hs : MemoryCanonical s) : MemoryCanonical (s.retestOne r).1 := by
  unfold State.retestOne
  extract_lets
  split
  · exact hs
  split
  · exact beginPool_canonical (modGroup_canonical (modCores_canonical hs))
  · exact poolAnswer_canonical (countPool_canonical (modGroup_canonical (modCores_canonical hs)) (fun _ hp => hp))
  · exact hs

theorem retestPass_canonical {grants : Bool} {xs : List PoolReq} (hs : MemoryCanonical s) :
    MemoryCanonical (retestPass grants s xs).1 := by
  induction xs generalizing grants s with
  | nil =>
    rw [retestPass]
    exact hs
  | cons _ r ih =>
    rw [retestPass]
    split
    · split
      · exact ih hs
      split
      have hs1 := (retestOne_canonical hs).of_eq ‹_›
      exact ite_canonical_fst hs1 (ih hs1)
    · split
      · exact ih hs
      split
      have hs1 := (retestOne_canonical hs).of_eq ‹_›
      exact ite_canonical_fst hs1 (ih hs1)

theorem retestList_canonical {l : List PoolReq} (hs : MemoryCanonical s) : MemoryCanonical (retestList s l) := by
  unfold retestList
  split
  have hs1 := (retestPass_canonical hs).of_eq ‹_›
  exact ite_canonical hs1 (retestPass_canonical hs1)

theorem retest_canonical {core : Nat} (hs : MemoryCanonical s) : MemoryCanonical (s.retest core) := retestList_canonical hs

theorem takeReq_canonical {r : PoolReq} (hs : MemoryCanonical s) : MemoryCanonical (s.takeReq r).1 := by
  unfold State.takeReq
  extract_lets _ s1 s2
  have hs1 : MemoryCanonical s1 := ite_canonical (countPool_canonical hs (fun _ hp => hp)) hs
  have hs2 : MemoryCanonical s2 := modCores_canonical hs1
  split
  · exact countPool_canonical hs (fun _ hp => hp)
  · exact countPool_canonical hs (fun _ hp => hp)
  · exact beginPool_canonical hs
  · exact foldl_canonical (fun _ _ hst => retestList_canonical hst) hs2

theorem takeArrived_canonical {n : Nat} {xs : List Nat} (hs : MemoryCanonical s) : MemoryCanonical (takeArrived n xs s) := by
  induction n generalizing xs s with
  | zero => exact hs
  | succ n ih =>
    cases xs with
    | nil => exact hs
    | cons c rest =>
      unfold takeArrived
      split
      · exact ih hs
      extract_lets
      split
      · exact ih hs
      split
      have hs1 := (takeReq_canonical (modCores_canonical hs)).of_eq ‹_›
      split
      · exact ih (poolAnswer_canonical hs1)
      · exact ih hs1
      · exact ih hs1

theorem takeNext_canonical {cs : List Nat} (hs : MemoryCanonical s) : MemoryCanonical (s.takeNext cs) := takeArrived_canonical hs

theorem retestCore_canonical {core : Nat} (hs : MemoryCanonical s) : MemoryCanonical (s.retestCore core) :=
  takeNext_canonical (retest_canonical hs)

theorem queueLeave_canonical {tm : Nat} (hs : MemoryCanonical s) : MemoryCanonical (s.queueLeave tm) :=
  ite_canonical hs (modCores_canonical hs)

theorem dropRequests_canonical {tm : Nat} (hs : MemoryCanonical s) : MemoryCanonical (s.dropRequests tm) := modCores_canonical hs

theorem beginSave_canonical {tm : Nat} {l : Leaving} (hs : MemoryCanonical s) : MemoryCanonical (s.beginSave tm l) :=
  takeNext_canonical (modTeam_canonical (dropRequests_canonical hs) (fun _ ht => ht))

theorem mapChanged_canonical {cs : List Nat} (hs : MemoryCanonical s) : MemoryCanonical (s.mapChanged cs) :=
  foldl_canonical (fun _ _ hst => retestCore_canonical hst) (requeue_canonical hs)

theorem workLanded_canonical {tm : Nat} (hs : MemoryCanonical s) : MemoryCanonical (s.workLanded tm) :=
  foldl_canonical (fun _ _ hst => ite_canonical hst (retestCore_canonical hst)) hs

theorem TeamPool.zeroScr_canonical {p : TeamPool} {rs : List (Nat × Nat)} (hp : p.Canonical) : (p.zeroScr rs).Canonical :=
  ⟨foldl_mem_canonical (fun _ _ => memClear_wf) hp.1, hp.2⟩

theorem TeamPool.zeroMxs_canonical {p : TeamPool} {rs : List (Nat × Nat)} (hp : p.Canonical) : (p.zeroMxs rs).Canonical :=
  ⟨hp.1, foldl_mem_canonical (fun _ _ => memClear_wf) hp.2⟩

theorem Team.poolGrant_canonical {t : Team} {r : PoolReq} (ht : t.Canonical) : (t.poolGrant r).Canonical := by
  unfold Team.poolGrant
  extract_lets
  split
  · exact ht
  · exact ht
  · exact TeamPool.zeroScr_canonical ht
  · exact TeamPool.zeroMxs_canonical ht
  · exact TeamPool.zeroScr_canonical ht
  · exact TeamPool.zeroMxs_canonical ht
  · exact ht

theorem commitPool_canonical {r : PoolReq} (hs : MemoryCanonical s) : MemoryCanonical (s.commitPool r) := by
  unfold State.commitPool
  extract_lets _ _ s1 _ s2 s3
  have hs1 : MemoryCanonical s1 := modTeam_canonical hs (fun _ ht => Team.poolGrant_canonical ht)
  have hs2 : MemoryCanonical s2 := by
    dsimp only [s2]
    exact foldl_canonical (fun _ _ hst => modCore_canonical hst) hs1
  have hs3 : MemoryCanonical s3 := countPool_canonical hs2 (fun _ hp => hp)
  exact mapChanged_canonical (poolAnswer_canonical hs3)

theorem poolNew_canonical {r : PoolReq} {ls : List Nat} (hs : MemoryCanonical s) : MemoryCanonical (s.poolNew r ls).1 := by
  unfold State.poolNew
  split
  · exact modCores_canonical hs
  split
  exact (takeReq_canonical hs).of_eq ‹_›

theorem poolOp_canonical {grow : Bool} {role : BankRole} {d a b : Reg} (hs : MemoryCanonical s) :
    OutCanonical (poolOp grow role d a b s) := by
  unfold poolOp
  refine issue_canonical ?_ hs
  intro i st hst
  extract_lets
  split
  · exact hst
  split
  exact (poolNew_canonical hst).of_eq ‹_›

theorem execPoolQuery_canonical {role : BitVec 2} {d : Reg} (hs : MemoryCanonical s) : OutCanonical (execPoolQuery role d s) := by
  unfold execPoolQuery
  refine issue_canonical ?_ hs
  intro i st hst
  extract_lets
  exact hst

theorem execPoolMap_canonical {d a : Reg} (hs : MemoryCanonical s) : OutCanonical (execPoolMap d a s) := by
  unfold execPoolMap
  refine issue_canonical ?_ hs
  intro i st hst
  extract_lets
  exact hst

theorem setPhase_canonical {r : PoolReq} {p : PoolPhase} (hs : MemoryCanonical s) : MemoryCanonical (s.setPhase r p) :=
  modCores_canonical hs

theorem drainCore_canonical {core : Nat} (hs : MemoryCanonical s) : MemoryCanonical (s.drainCore core) := by
  unfold State.drainCore
  extract_lets _ s1
  have hs1 : MemoryCanonical s1 := foldl_canonical (fun _ _ hst => combineLine_canonical hst) hs
  exact l1Write_canonical hs1

theorem execEvBankDrain_canonical {core : Nat} (hs : MemoryCanonical s) : OutCanonical (execEvBankDrain core s) := by
  unfold execEvBankDrain
  split
  · split
    · extract_lets _ s1 _ _ s2
      have hs1 : MemoryCanonical s1 := foldl_canonical (fun _ _ hst => drainCore_canonical hst) hs
      have hs2 : MemoryCanonical s2 := foldl_canonical (fun _ _ hst => modCore_canonical hst) hs1
      split
      · exact outCanonical_next (setPhase_canonical hs2)
      · exact outCanonical_next (setPhase_canonical hs1)
    · exact outCanonical_next hs
  · exact outCanonical_next hs

theorem execEvBankRelocation_canonical {core : Nat} (hs : MemoryCanonical s) : OutCanonical (execEvBankRelocation core s) := by
  unfold execEvBankRelocation
  split
  · split
    · split
      · exact outCanonical_next hs
      · split <;> exact outCanonical_next (setPhase_canonical hs)
    · exact outCanonical_next hs
  · exact outCanonical_next hs

theorem execEvShrinkQuiesce_canonical {core : Nat} (hs : MemoryCanonical s) : OutCanonical (execEvShrinkQuiesce core s) := by
  unfold execEvShrinkQuiesce
  split
  · split
    · exact outCanonical_next (setPhase_canonical hs)
    · exact outCanonical_next hs
  · exact outCanonical_next hs

theorem execEvPoolCommit_canonical {core : Nat} (hs : MemoryCanonical s) : OutCanonical (execEvPoolCommit core s) := by
  unfold execEvPoolCommit
  split
  · split
    · exact outCanonical_next (commitPool_canonical hs)
    · exact outCanonical_next hs
  · exact outCanonical_next hs

theorem modEng_canonical {tm : Nat} {f : TeamEng → TeamEng} (hs : MemoryCanonical s) : MemoryCanonical (s.modEng tm f) :=
  modTeam_canonical hs (fun _ ht => ht)

theorem freeHalves_canonical {rs : List (Nat × Nat)} {n : Nat} {xs : List Byte} (hs : MemoryCanonical s) :
    MemoryCanonical (freeHalves rs s n xs).1 := by
  induction xs generalizing rs s n with
  | nil =>
    rw [freeHalves]
    exact hs
  | cons _ r ih =>
    rw [freeHalves]
    split
    rename_i s1 _ heq
    have hs1 : MemoryCanonical s1 := by
      refine MemoryCanonical.of_eq ?_ heq
      split
      · split
        exact (free_canonical hs).of_eq_snd ‹_›
      · exact hs
    split
    exact (ih hs1).of_eq ‹_›

theorem tileRead_canonical {tm : Nat} {t : Tile} {thread : Bool} {unseen : List (Nat × Nat)} {off n : Nat} (hs : MemoryCanonical s) :
    MemoryCanonical (s.tileRead tm t thread unseen off n).1 := by
  unfold State.tileRead
  extract_lets
  exact freeHalves_canonical hs

theorem tileWrite_canonical {tm : Nat} {t : Tile} {thread : Bool} {off : Nat} {bs : List Byte} {lo hi : Nat} (hs : MemoryCanonical s) :
    MemoryCanonical (s.tileWrite tm t thread off bs lo hi) := by
  unfold State.tileWrite
  extract_lets
  split
  have hs2 := (freeHalves_canonical hs).of_eq ‹_›
  exact modEng_canonical (modPool_canonical hs2 (fun _ hp => ⟨hp.1, memWrite_wf (Nat.zero_le _) hp.2⟩))

theorem tileRecode_canonical {tm : Nat} {t : Tile} (hs : MemoryCanonical s) : MemoryCanonical (s.tileRecode tm t) := by
  unfold State.tileRecode
  extract_lets
  exact modPool_canonical hs (fun _ hp => hp)

theorem tilesLost_canonical {tm : Nat} {ts : List Tile} (hs : MemoryCanonical s) : MemoryCanonical (s.tilesLost tm ts) := by
  unfold State.tilesLost
  refine foldl_canonical ?_ hs
  intro st x hst
  split
  exact tileWrite_canonical ((freeBytes_canonical hst).of_eq_snd ‹_›)

theorem TeamPool.setFlag_canonical {p : TeamPool} {k : Nat} {v : Bool} (hp : p.Canonical) : (p.setFlag k v).Canonical := hp

theorem elemWrite_canonical {tm : Nat} {t : Tile} {thread : Bool} {r c v : Nat} (hs : MemoryCanonical s) :
    MemoryCanonical (s.elemWrite tm t thread r c v) := by
  unfold State.elemWrite
  extract_lets
  exact tileWrite_canonical hs

theorem rowWrite_canonical {tm : Nat} {t : Tile} {thread : Bool} {r : Nat} {bs : List Byte} (hs : MemoryCanonical s) :
    MemoryCanonical (s.rowWrite tm t thread r bs) := by
  unfold State.rowWrite
  extract_lets
  exact tileWrite_canonical hs

theorem clearTileFlags_canonical {tm : Nat} {t : Tile} (hs : MemoryCanonical s) : MemoryCanonical (s.clearTileFlags tm t) :=
  modPool_canonical hs (fun _ hp => hp)

theorem tileNote_canonical {i : Iss} {l : Nat} {t : Tile} (hs : MemoryCanonical s) : MemoryCanonical (s.tileNote i l t) :=
  noteWrite_canonical hs

theorem tileNoteSame_canonical {i : Iss} {l : Nat} {t : Tile} (hs : MemoryCanonical s) : MemoryCanonical (s.tileNoteSame i l t) :=
  noteSame_canonical hs

/-- A lane's result whose state, if it has one, is canonical. -/

def ResultCanonical (r : Except Bad (State × LaneOut)) : Prop := ∀ x, r = .ok x → MemoryCanonical x.1

theorem resultCanonical_error {e : Bad} : ResultCanonical (.error e) := by
  rintro x ⟨⟩

theorem resultCanonical_ok {o : LaneOut} (hs : MemoryCanonical s) : ResultCanonical (.ok (s, o)) := by
  rintro x ⟨⟩
  exact hs

theorem resultCanonical_bind {α : Type} {r : Except Bad α} {f : α → Except Bad (State × LaneOut)} (hf : ∀ a, ResultCanonical (f a)) :
    ResultCanonical (r >>= f) := by
  cases r with
  | error e => exact resultCanonical_error
  | ok a => exact hf a

theorem resultCanonical_ite {c : Prop} [Decidable c] {x y : Except Bad (State × LaneOut)} (hx : ResultCanonical x) (hy : ResultCanonical y) :
    ResultCanonical (if c then x else y) := by
  split
  · exact hx
  · exact hy

theorem tileOp_canonical {roles : Role → Bool} {srcs : List (Reg × Nat)} {body : Iss → State → Nat → Except Bad (State × LaneOut)}
    (hbody : ∀ i st l, MemoryCanonical st → ResultCanonical (body i st l)) (hs : MemoryCanonical s) :
    OutCanonical (tileOp roles srcs body s) := by
  unfold tileOp
  refine issue_canonical (fun _ _ hst => eachLane_canonical ?_ hst) hs
  intro i st l hst
  split
  · exact hst
  split
  · exact hbody i st l hst _ ‹_›
  · exact hst

theorem execTshape_canonical {d : Sys2Proof.Tile} {a b : Reg} (hs : MemoryCanonical s) : OutCanonical (execTshape d a b s) := by
  unfold execTshape
  refine issue_canonical (fun _ _ hst => eachLane_canonical ?_ hst) hs
  intro i st l hst
  extract_lets _ _ _ _ s1
  have hs1 : MemoryCanonical s1 := modEng_canonical hst
  split
  · exact hst
  · exact ite_canonical_fst hst (ite_canonical_fst hst (clearTileFlags_canonical hs1))

theorem tileLoad_canonical {tm : Nat} {t : Tile} {thread : Bool} {unseen : List (Nat × Nat)} {rows : List (Int × Nat)} (hs : MemoryCanonical s) :
    MemoryCanonical (s.tileLoad tm t thread unseen rows) := by
  unfold State.tileLoad
  extract_lets s1
  have hs1 : MemoryCanonical s1 := by
    dsimp only [s1]
    exact foldl_canonical (fun _ _ hst => rowWrite_canonical
        (ite_canonical_fst (scrRead_canonical hst) (foldl_canonical_fst (fun _ _ hst1 => freeRange_canonical hst1)
        (scrReadEng_canonical hst)))) hs
  exact clearTileFlags_canonical hs1

theorem execTld_canonical {d : Sys2Proof.Tile} {a b : Reg} (hs : MemoryCanonical s) : OutCanonical (execTld d a b s) := by
  refine tileOp_canonical (fun i st l hst => resultCanonical_bind fun t => ?_) hs
  extract_lets
  split
  · exact resultCanonical_error
  · exact resultCanonical_ok (tileNote_canonical (tileLoad_canonical hst))

theorem execTldt_canonical {d : Sys2Proof.Tile} {a b : Reg} (hs : MemoryCanonical s) : OutCanonical (execTldt d a b s) := by
  refine tileOp_canonical (fun i st l hst => resultCanonical_bind fun t => ?_) hs
  extract_lets
  refine resultCanonical_ite resultCanonical_error ?_
  split
  · exact resultCanonical_error
  refine resultCanonical_ok (tileNote_canonical (clearTileFlags_canonical (tileRecode_canonical (foldl_canonical (fun u x hu => ?_) hst))))
  split
  have hu1 := (scrRead_canonical hu).of_eq ‹_›
  exact foldl_canonical (fun _ _ h => elemWrite_canonical h) hu1

theorem execTst_canonical {d : Sys2Proof.Tile} {a b : Reg} (hs : MemoryCanonical s) : OutCanonical (execTst d a b s) := by
  refine tileOp_canonical (fun i st l hst => resultCanonical_bind fun t => ?_) hs
  extract_lets
  split
  · exact resultCanonical_error
  refine resultCanonical_ok (foldl_canonical (fun u x hu => ?_) hst)
  split
  have hu1 := (tileRead_canonical hu).of_eq ‹_›
  exact noteWrite_canonical (scrWrite_canonical hu1)

theorem execTzero_canonical {d : Sys2Proof.Tile} (hs : MemoryCanonical s) : OutCanonical (execTzero d s) := by
  refine tileOp_canonical (fun i st l hst => resultCanonical_bind fun t => ?_) hs
  refine resultCanonical_ok (tileNoteSame_canonical (clearTileFlags_canonical ?_))
  exact foldl_canonical (fun _ _ h => rowWrite_canonical h) hst

theorem execTmov_canonical {d a : Sys2Proof.Tile} (hs : MemoryCanonical s) : OutCanonical (execTmov d a s) := by
  refine tileOp_canonical (fun i st l hst => ?_) hs
  extract_lets
  split
  · exact resultCanonical_error
  · exact resultCanonical_error
  refine resultCanonical_ite resultCanonical_error (resultCanonical_ite (resultCanonical_ok hst) ?_)
  split
  · exact resultCanonical_error
  extract_lets
  split
  have hs1 := (tileRead_canonical hst).of_eq ‹_›
  extract_lets _ s2 s3
  have hs2 : MemoryCanonical s2 := foldl_canonical (fun _ _ h => rowWrite_canonical h) hs1
  have hs3 : MemoryCanonical s3 := ite_canonical
    (foldl_canonical (fun _ _ h => foldl_canonical (fun _ _ h' => modPool_canonical h' fun _ hp => TeamPool.setFlag_canonical hp) h) hs2) hs2
  exact resultCanonical_ok (tileNoteSame_canonical hs3)

theorem segmentOp_canonical {k : Nat} {b reg : Reg} {n : Tile → Nat} {odd : Tile → Bool} {dst : Bool}
    {body : Iss → State → Nat → Tile → Nat → Nat → State × LaneOut}
    (hbody : ∀ i st x u y z, MemoryCanonical st → MemoryCanonical (body i st x u y z).1) (hs : MemoryCanonical s) :
    OutCanonical (segmentOp k b reg n odd dst body s) := by
  unfold segmentOp
  refine issue_canonical ?_ hs
  intro i st hst
  extract_lets
  split
  · exact hst
  split
  · exact hst
  split
  · exact hst
  extract_lets
  split
  rename_i s1 _ heq
  have hs1 : MemoryCanonical s1 := by
    refine (foldl_canonical_fst ?_ hst).of_eq heq
    intro x2 x3 hst1
    split
    · exact hst1
    · exact hst1
    split
    · exact hst1
    split
    · exact hst1
    · exact hst1
    split
    exact (hbody _ _ _ _ _ _ hst1).of_eq ‹_›
  exact ite_canonical (modTeam_canonical hs1 (fun _ ht => Team.writeRegs_canonical ht)) hs1

theorem execTrdr_canonical {d : Reg} {a : Sys2Proof.Tile} {b : Reg} (hs : MemoryCanonical s) : OutCanonical (execTrdr d a b s) := by
  unfold execTrdr
  refine segmentOp_canonical ?_ hs
  intro x st x1 x2 x3 x4 hst
  split
  extract_lets
  split
  · exact hst
  split
  have hs2 := (tileRead_canonical hst).of_eq ‹_›
  extract_lets
  exact hs2

theorem execTwrr_canonical {d : Sys2Proof.Tile} {a b : Reg} (hs : MemoryCanonical s) : OutCanonical (execTwrr d a b s) := by
  unfold execTwrr
  refine segmentOp_canonical ?_ hs
  intro x st x1 x2 x3 x4 hst
  split
  extract_lets _ _ _ s1 _ s2
  have hs1 : MemoryCanonical s1 := by
    dsimp only [s1]
    exact foldl_canonical (fun _ _ hst1 => ite_canonical (modPool_canonical (elemWrite_canonical hst1)
        (fun _ hp => TeamPool.setFlag_canonical hp)) (elemWrite_canonical hst1)) hst
  have hs2 : MemoryCanonical s2 := modPool_canonical hs1 (fun _ hp => hp)
  exact noteWrite_canonical hs2

theorem execTlsf_canonical {d : Reg} {a : Sys2Proof.Tile} {b : Reg} (hs : MemoryCanonical s) : OutCanonical (execTlsf d a b s) := by
  unfold execTlsf
  refine segmentOp_canonical ?_ hs
  intro x st x1 x2 x3 x4 hst
  extract_lets
  split
  rename_i s1 _ heq
  have hs1 : MemoryCanonical s1 := by
    refine MemoryCanonical.of_eq ?_ heq
    split
    · split
      exact (freeBytes_canonical hst).of_eq_snd ‹_›
    · exact hst
  extract_lets
  exact hs1

theorem engIssue_canonical {tm : Nat} {k : EngKind} (hs : MemoryCanonical s) : MemoryCanonical (s.engIssue tm k) := modEng_canonical hs

theorem execTlatch_canonical {d : Sys2Proof.Tile} (hs : MemoryCanonical s) : OutCanonical (execTlatch d s) :=
  tileOp_canonical (fun _ _ _ hst => resultCanonical_bind fun _ => resultCanonical_ite resultCanonical_error
    (resultCanonical_ite (resultCanonical_ok hst) (resultCanonical_ok (modEng_canonical (engIssue_canonical hst))))) hs

theorem execMwait_canonical {b : Reg} (hs : MemoryCanonical s) : OutCanonical (execMwait b s) := by
  unfold execMwait
  refine issue_canonical ?_ hs
  intro i st hst
  extract_lets
  exact modEng_canonical hst

theorem execMcw_canonical {d a : Reg} (hs : MemoryCanonical s) : OutCanonical (execMcw d a s) := by
  unfold execMcw
  refine issue_canonical (fun _ _ hst => eachLane_canonical ?_ hst) hs
  intro i st l hst
  extract_lets
  exact ite_canonical_fst hst (modEng_canonical hst)

theorem execMcrd_canonical {d : Reg} {k : BitVec 3} (hs : MemoryCanonical s) : OutCanonical (execMcrd d k s) := by
  unfold execMcrd
  refine issue_canonical ?_ hs
  intro i st hst
  extract_lets
  exact ite_canonical (modEng_canonical hst) hst

theorem mma_canonical {seq lat : Bool} {acc : BitVec 2} {d a b : Sys2Proof.Tile} (hs : MemoryCanonical s) :
    OutCanonical (mma seq lat acc d a b s) :=
  tileOp_canonical (fun _ _ _ hst => resultCanonical_bind fun _ =>
    resultCanonical_ite (resultCanonical_ok hst) (resultCanonical_ok (engIssue_canonical hst))) hs

theorem mmaPerform_canonical {tm : Nat} {mcr : Word} {seq : Bool} {acc : Nat} {a : Tile} {b : Option Tile} {d : Tile} {ua ud : List (Nat × Nat)}
    (hs : MemoryCanonical s) :
    MemoryCanonical (s.mmaPerform tm mcr seq acc a b d ua ud) := by
  unfold State.mmaPerform
  split
  have hs2 := (tileRead_canonical hs).of_eq ‹_›
  split
  rename_i s2 _ _ heq
  have hs2 : MemoryCanonical s2 := by
    refine MemoryCanonical.of_eq ?_ heq
    split
    · split
      exact (tileRead_canonical hs2).of_eq ‹_›
    · split <;> exact hs2
  split
  have hs1 := (tileRead_canonical hs2).of_eq ‹_›
  extract_lets _ _ _ _ s4
  have hs4 : MemoryCanonical s4 := by
    dsimp only [s4]
    exact foldl_canonical (fun _ _ hst => foldl_canonical (fun _ _ hst1 => modEng_canonical
        (modPool_canonical (elemWrite_canonical hst1) (fun _ hp => TeamPool.setFlag_canonical hp))) hst) hs1
  exact tileRecode_canonical hs4

theorem execMseq_canonical {d a : Reg} (hs : MemoryCanonical s) : OutCanonical (execMseq d a s) := by
  unfold execMseq
  refine issue_canonical (fun _ _ hst => eachLane_canonical ?_ hst) hs
  intro i st l hst
  extract_lets
  split
  · exact hst
  split
  · exact hst
  split
  · exact hst
  split
  · exact hst
  split
  · exact hst
  split
  have hs2 := (scrRead_canonical hst).of_eq ‹_›
  extract_lets
  split
  · exact hs2
  split
  · exact hs2
  split
  have hs1 := (ite_canonical_fst hs2 (checkBarrier_canonical hs2)).of_eq ‹_›
  split
  · exact hs1
  · exact engIssue_canonical hs1

theorem engineMoves_canonical {tm : Nat} (hs : MemoryCanonical s) : MemoryCanonical (s.engineMoves tm) := by
  unfold State.engineMoves
  split
  · exact modCore_canonical hs
  · exact hs

theorem engineHead_canonical {tm : Nat} (hs : MemoryCanonical s) : MemoryCanonical (s.engineHead tm).1 :=
  ite_canonical_fst (engineMoves_canonical hs) hs

theorem engDone_canonical {tm : Nat} (hs : MemoryCanonical s) : MemoryCanonical (s.engDone tm) :=
  workLanded_canonical (signal_canonical hs)

theorem execEvTlatchPerform_canonical {team : Nat} {s0 : State} (hs0 : MemoryCanonical s0) :
    OutCanonical (execEvTlatchPerform team s0) := by
  unfold execEvTlatchPerform
  split
  have hs := (engineHead_canonical hs0).of_eq ‹_›
  split
  · split
    · split
      · split
        exact outCanonical_next (engDone_canonical (modEng_canonical ((freeBytes_canonical hs).of_eq_snd ‹_›)))
      split
      exact outCanonical_next (engDone_canonical (modEng_canonical ((tileRead_canonical hs).of_eq ‹_›)))
    · exact outCanonical_next hs0
  · exact outCanonical_next hs0

theorem execEvMmaComplete_canonical {team : Nat} {s0 : State} (hs0 : MemoryCanonical s0) : OutCanonical (execEvMmaComplete team s0) := by
  unfold execEvMmaComplete
  split
  have hs := (engineHead_canonical hs0).of_eq ‹_›
  split
  · split
    · split
      · exact outCanonical_next (engDone_canonical (modEng_canonical (tilesLost_canonical hs)))
      · exact outCanonical_next (engDone_canonical (modEng_canonical (mmaPerform_canonical hs)))
    · exact outCanonical_next hs0
  · exact outCanonical_next hs0

theorem mseqEnd_canonical {tm : Nat} {o : EngOp} {blk : List Byte} {off pa : Nat} {cause : Option (BitVec 8)} (hs : MemoryCanonical s) :
    MemoryCanonical (s.mseqEnd tm o blk off pa cause) := by
  unfold State.mseqEnd
  extract_lets _ _ s1 s2
  have hs1 : MemoryCanonical s1 := engDone_canonical (modEng_canonical hs)
  have hs2 : MemoryCanonical s2 := by
    dsimp only [s2]
    split
    · exact barAgent_canonical hs1
    · exact hs1
  split
  · split
    · exact modEng_canonical hs1
    · exact hs1
  · exact unpinBarrier_canonical (barAgent_canonical hs2)

theorem stepLoad_canonical {tm : Nat} {x : Tile} {unseen : List (Nat × Nat)} {rows : List (Int × Nat)} (hs : MemoryCanonical s) :
    MemoryCanonical (s.stepLoad tm x unseen rows).1 := by
  unfold State.stepLoad
  extract_lets
  exact ite_canonical_fst hs (ite_canonical_fst hs (ite_canonical_fst hs (tileLoad_canonical hs)))

theorem execEvMseqStep_canonical {team : Nat} {s0 : State} (hs0 : MemoryCanonical s0) : OutCanonical (execEvMseqStep team s0) := by
  unfold execEvMseqStep
  split
  have hs := (engineHead_canonical hs0).of_eq ‹_›
  split
  · split
    · extract_lets
      split
      have hs1 := (stepLoad_canonical hs).of_eq ‹_›
      split
      rename_i s1 _ heq
      have hs1 : MemoryCanonical s1 := by
        refine MemoryCanonical.of_eq ?_ heq
        split
        · exact stepLoad_canonical hs1
        · exact hs1
      split
      · exact outCanonical_next (mseqEnd_canonical (ite_canonical (tilesLost_canonical hs1) hs1))
      extract_lets s3
      have hs3 : MemoryCanonical s3 := mmaPerform_canonical hs1
      split
      · exact outCanonical_next (mseqEnd_canonical hs3)
      · exact outCanonical_next (modEng_canonical hs3)
    · exact outCanonical_next hs0
  · exact outCanonical_next hs0

end Sys2Proof.Machine
end

