-- ==== Sys2Proof/Proofs/CanonicalEngine.lean ====
section
/-! Queues, launches, the copy and binning commands and migration keep the canonical form. -/

namespace Sys2Proof.Machine

open Sys2Proof

variable {s : State}

theorem setQueue_canonical {q : EdgeQueue} (hs : MemoryCanonical s) : MemoryCanonical (s.setQueue q) := hs.other rfl rfl

theorem queueWake_canonical {ctx id : Nat} (hs : MemoryCanonical s) : MemoryCanonical (s.queueWake ctx id) := requeue_canonical hs

theorem queuePush_canonical {q : EdgeQueue} {r : List Byte} (hs : MemoryCanonical s) : MemoryCanonical (s.queuePush q r) :=
  queueWake_canonical (setQueue_canonical hs)

theorem queueOp_canonical {d a b : Reg} {code : Word} {f : Iss → State → Nat → EdgeQueue → Nat → Option State}
    (hf : ∀ i st l q off st', MemoryCanonical st → f i st l q off = some st' → MemoryCanonical st') (hs : MemoryCanonical s) :
    OutCanonical (queueOp d a b code f s) := by
  unfold queueOp
  refine issue_canonical (fun _ _ hst => eachLane_canonical ?_ hst) hs
  intro i st l hst
  extract_lets
  refine ite_canonical_fst hst (ite_canonical_fst hst (ite_canonical_fst hst (ite_canonical_fst hst ?_)))
  split
  · exact hst
  split
  · exact hf _ _ _ _ _ _ hst ‹_›
  · exact hst

theorem execQpush_canonical {d a b : Reg} (hs : MemoryCanonical s) : OutCanonical (execQpush d a b s) := by
  refine queueOp_canonical (fun i st l q off st' hst h => ?_) hs
  obtain ⟨_, h⟩ := Option.ite_none_left_eq_some.mp h
  have hs1 : MemoryCanonical ((st.relDev i.op.team i.op.grp l).scrRead i.op.team off 16).1 := scrRead_canonical (relDev_canonical hst)
  generalize (st.relDev i.op.team i.op.grp l).scrRead i.op.team off 16 = x at h hs1
  obtain ⟨s1, r⟩ := x
  obtain rfl := Option.some.inj h
  exact queuePush_canonical hs1

theorem execQpop_canonical {d a b : Reg} (hs : MemoryCanonical s) : OutCanonical (execQpop d a b s) := by
  refine queueOp_canonical (fun i st l q off st' hst h => ?_) hs
  split at h
  · nomatch h
  obtain rfl := Option.some.inj h
  exact noteWrite_canonical (scrWrite_canonical (acquireDev_canonical (queueWake_canonical (setQueue_canonical hst))))

theorem unitLine_canonical {ctx : Nat} {owner : LinkOwner} {va n : Nat} (hs : MemoryCanonical s) :
    MemoryCanonical (s.unitLine ctx owner va n).1 := by
  unfold State.unitLine
  split
  · exact hs
  split
  · exact hs
  split
  have hs1 := (translate_canonical hs).of_eq ‹_›
  split
  · split
    · split
      exact (homeRead_canonical hs1).of_eq ‹_›
    split
    · exact linkPost_canonical hs1
    · exact hs1
  · exact hs1

theorem unitLines_canonical {ctx : Nat} {owner : Nat → LinkOwner} {xs : List (Nat × Nat)} (hs : MemoryCanonical s) :
    MemoryCanonical (s.unitLines ctx owner xs).1 := by
  induction xs generalizing s ctx with
  | nil =>
    rw [State.unitLines]
    exact hs
  | cons x r ih =>
    rw [State.unitLines]
    split
    have hs1 := (unitLine_canonical hs).of_eq ‹_›
    split
    exact (ih hs1).of_eq ‹_›

theorem recordPieces_canonical {ctx : Nat} {who : Option (Nat × Nat × Nat)} {ps : List (Nat × Nat)} (hs : MemoryCanonical s) :
    MemoryCanonical (s.recordPieces ctx who ps).1 := by
  unfold State.recordPieces
  split
  exact (unitLines_canonical hs).of_eq ‹_›

/-- `recordPieces` is made a variable first: the kernel would run it over the pieces of the record. -/

theorem kernelRecord_canonical {ctx : Nat} {who : Option (Nat × Nat × Nat)} {entry : Nat} (hs : MemoryCanonical s) :
    MemoryCanonical (s.kernelRecord ctx who entry).1 := by
  obtain ⟨walk, hwalk⟩ : ∃ walk, walk = @State.recordPieces := ⟨_, rfl⟩
  have hrec {ps : List (Nat × Nat)} : MemoryCanonical (walk s ctx who ps).1 := hwalk ▸ recordPieces_canonical hs
  suffices h : ∀ f, f = @State.kernelRecord → MemoryCanonical (f s ctx who entry).1 from h _ rfl
  intro f hf
  delta State.kernelRecord at hf
  rw [← hwalk] at hf
  subst hf
  beta_reduce
  split
  have hs1 := hrec.of_eq ‹_›
  exact ite_canonical hs1 (hs1.other rfl rfl)

theorem packetOf_canonical {ctx : Nat} {who : Option (Nat × Nat × Nat)} {p : List Byte} (hs : MemoryCanonical s) :
    MemoryCanonical (s.packetOf ctx who p).1 := by
  unfold State.packetOf
  extract_lets
  split
  · split
    · exact hs
    split
    · exact hs
    split
    exact (kernelRecord_canonical hs).of_eq ‹_›
  · split
    · exact hs
    split
    · exact hs
    split
    exact (kernelRecord_canonical hs).of_eq ‹_›

theorem submit_canonical {ctx : Nat} {who : Option (Nat × Nat × Nat)} {p args : List Byte} (hs : MemoryCanonical s) :
    MemoryCanonical (s.submit ctx who p args).1 := by
  unfold State.submit
  split
  have hs1 := (packetOf_canonical hs).of_eq ‹_›
  split
  · exact hs1
  · exact hs1
  split
  · extract_lets
    exact hs1.other rfl rfl
  · exact hs1

theorem launchAgain_canonical {m : HeldPacket} {l : Nat} (hs : MemoryCanonical s) : MemoryCanonical (s.launchAgain m l).1 := by
  unfold State.launchAgain
  split
  · split
    have hs1 := (submit_canonical hs).of_eq ‹_›
    split
    · exact hs1
    · exact hs1.other rfl rfl
  · exact hs

theorem launchNew_canonical {m : HeldPacket} {l : Nat} (hs : MemoryCanonical s) : MemoryCanonical (s.launchNew m l).1 := by
  unfold State.launchNew
  extract_lets
  split
  · exact hs.other rfl rfl
  split
  have hs1 := (submit_canonical hs).of_eq ‹_›
  split
  · exact hs1.other rfl rfl
  · exact hs1

theorem execLaunch_canonical {d a : Reg} (hs : MemoryCanonical s) : OutCanonical (execLaunch d a s) := by
  unfold execLaunch
  refine issue_canonical (fun _ _ hst => eachLane_canonical ?_ hst) hs
  intro i st l hst
  extract_lets
  split
  · exact launchAgain_canonical hst
  split
  · exact hst
  split
  · exact hst
  split
  · exact hst
  split
  · exact hst
  split
  have hs2 := (scrRead_canonical hst).of_eq ‹_›
  extract_lets
  split
  · exact hs2
  split
  · exact hs2
  split
  exact launchNew_canonical (relDev_canonical ((scrRead_canonical hs2).of_eq ‹_›))

theorem modLaunch_canonical {ctx h : Nat} {f : Launch → Launch} (hs : MemoryCanonical s) : MemoryCanonical (s.modLaunch ctx h f) :=
  hs.other rfl rfl

theorem launchRelease_canonical {ctx h : Nat} (hs : MemoryCanonical s) : MemoryCanonical (s.launchRelease ctx h).1 := by
  unfold State.launchRelease
  split
  · exact hs
  · exact ite_canonical_fst (modLaunch_canonical hs) hs

theorem launchPatch_canonical {ctx h v : Nat} (hs : MemoryCanonical s) : MemoryCanonical (s.launchPatch ctx h v).1 := by
  unfold State.launchPatch
  split
  · exact hs
  · exact ite_canonical_fst hs (ite_canonical_fst hs (modLaunch_canonical hs))

theorem pinPage_canonical {c : Cmd} {va : Nat} {write : Bool} (hs : MemoryCanonical s) : MemoryCanonical (s.pinPage c va write).1 := by
  unfold State.pinPage
  extract_lets
  split
  · exact hs
  split
  have hs1 := (pageCheck_canonical hs).of_eq ‹_›
  split
  · exact hs1
  · exact hs1
  · exact hs1
  extract_lets
  split
  · exact hs1
  split
  split <;> exact ((pin_canonical hs1).of_eq ‹_›)

theorem pinPages_canonical {c : Cmd} {xs : List (Nat × Bool)} (hs : MemoryCanonical s) : MemoryCanonical (s.pinPages c xs).1 := by
  induction xs generalizing s c with
  | nil =>
    rw [State.pinPages]
    exact hs
  | cons x r ih =>
    rw [State.pinPages]
    split
    have hs1 := (pinPage_canonical hs).of_eq ‹_›
    split
    · exact ih hs1
    · exact hs1

theorem pinCommand_canonical {c : Cmd} (hs : MemoryCanonical s) : MemoryCanonical (s.pinCommand c).1 := by
  unfold State.pinCommand
  split
  have hs1 := (pinPages_canonical hs).of_eq ‹_›
  split
  · exact hs1
  · exact unpinAll_canonical hs1

theorem modCmd_canonical {tm id : Nat} {f : Cmd → Cmd} (hs : MemoryCanonical s) : MemoryCanonical (s.modCmd tm id f) := hs.other rfl rfl

theorem endCmd_canonical {c : Cmd} {cause : Option (BitVec 8)} (hs : MemoryCanonical s) : MemoryCanonical (s.endCmd c cause) := by
  unfold State.endCmd
  extract_lets _ s1 s2 s3 _
  have hs1 : MemoryCanonical s1 := unpinAll_canonical (modCmd_canonical hs)
  have hs2 : MemoryCanonical s2 := by
    dsimp only [s2]
    split
    · exact barAgent_canonical hs1
    · exact hs1
  have hs3 : MemoryCanonical s3 := unpinBarrier_canonical (barAgent_canonical hs2)
  exact workLanded_canonical (requeue_canonical hs3)

theorem failCmd_canonical {c : Cmd} {x : BitVec 8} (hs : MemoryCanonical s) : MemoryCanonical (s.failCmd c x) := modCmd_canonical hs

theorem cmdRelease_canonical {tm id : Nat} (hs : MemoryCanonical s) : MemoryCanonical (s.cmdRelease tm id).1 := by
  unfold State.cmdRelease
  split
  · exact hs
  split
  · exact hs
  split
  have hs1 := (pinCommand_canonical hs).of_eq ‹_›
  split
  · exact modCmd_canonical hs1
  split
  · dsimp only
    exact endCmd_canonical hs1
  · exact hs1

theorem cmdPatch_canonical {tm id v : Nat} (hs : MemoryCanonical s) : MemoryCanonical (s.cmdPatch tm id v).1 := by
  unfold State.cmdPatch
  split
  · exact hs
  · exact ite_canonical_fst hs (ite_canonical_fst hs (ite_canonical_fst hs (modCmd_canonical hs)))

theorem handleRelease_canonical {tm h : Nat} (hs : MemoryCanonical s) : MemoryCanonical (s.handleRelease tm h).1 := by
  unfold State.handleRelease
  split
  · exact cmdRelease_canonical hs
  split
  exact (launchRelease_canonical hs).of_eq ‹_›

theorem handlePatch_canonical {tm h v : Nat} (hs : MemoryCanonical s) : MemoryCanonical (s.handlePatch tm h v).1 :=
  ite_canonical_fst (cmdPatch_canonical hs) (launchPatch_canonical hs)

theorem execLrel_canonical {d a : Reg} (hs : MemoryCanonical s) : OutCanonical (execLrel d a s) := by
  unfold execLrel
  refine issue_canonical (fun _ _ hst => eachLane_canonical ?_ hst) hs
  intro i st l hst
  split
  exact (handleRelease_canonical hst).of_eq ‹_›

theorem execLpatch_canonical {d a b : Reg} (hs : MemoryCanonical s) : OutCanonical (execLpatch d a b s) := by
  unfold execLpatch
  refine issue_canonical (fun _ _ hst => eachLane_canonical ?_ hst) hs
  intro i st l hst
  split
  exact (handlePatch_canonical hst).of_eq ‹_›

theorem queueCmd_canonical {tm : Nat} {c : Cmd} (hs : MemoryCanonical s) : MemoryCanonical (s.queueCmd tm c).1 := by
  have hmod := modTeam_canonical (f := fun t => { t with cmdCounter := nextCmd t.cmdCounter }) (tm := tm) hs fun _ ht => ht
  exact hmod.other rfl rfl

theorem engineLane_canonical {kind : Nat} {a : Reg} {i : Iss} {l : Nat} (hs : MemoryCanonical s) :
    MemoryCanonical (engineLane kind a i s l).1 := by
  unfold engineLane
  extract_lets
  split
  · exact hs
  split
  · exact hs
  split
  · exact hs
  split
  · exact hs
  split
  have hs2 := (scrRead_canonical hs).of_eq ‹_›
  split
  · exact hs2
  extract_lets
  split
  have hs1 := (ite_canonical_fst (relDev_canonical hs2) (pinCommand_canonical (relDev_canonical hs2))).of_eq ‹_›
  split
  · exact hs1
  split
  have hs3 := (ite_canonical_fst hs1 (checkBarrier_canonical hs1)).of_eq ‹_›
  split
  · exact unpinAll_canonical hs3
  split
  exact (queueCmd_canonical hs3).of_eq ‹_›

theorem engRead_canonical {c : Cmd} {va pa n : Nat} {attr : BitVec 2} (hs : MemoryCanonical s) :
    MemoryCanonical (s.engRead c va pa n attr).1 := by
  unfold State.engRead
  extract_lets
  split
  rename_i s1 _ heq
  have hs1 : MemoryCanonical s1 := by
    refine MemoryCanonical.of_eq ?_ heq
    split
    · exact l1Read_canonical hs
    · exact homeRead_canonical (l1Bypass_canonical hs)
  split
  · split
    exact (outRead_canonical hs1).of_eq ‹_›
  · exact hs1

theorem engWrite_canonical {c : Cmd} {va pa : Nat} {attr : BitVec 2} {b : List Byte} (hs : MemoryCanonical s) :
    MemoryCanonical (s.engWrite c va pa attr b).1 := by
  unfold State.engWrite
  extract_lets
  split
  rename_i s2 _ heq
  refine MemoryCanonical.of_eq ?_ heq
  split
  · exact l1Try_canonical hs
  · exact homeTry_canonical (l1Bypass_canonical hs)

theorem dropCmdLinks_canonical {c : Cmd} {kind : Nat} (hs : MemoryCanonical s) : MemoryCanonical (s.dropCmdLinks c kind) :=
  hs.other rfl rfl

theorem engPiece_canonical {c : Cmd} {va n : Nat} (hs : MemoryCanonical s) : MemoryCanonical (s.engPiece c va n).1 := by
  unfold State.engPiece
  split
  split
  · exact hs
  split
  · split
    exact (engRead_canonical hs).of_eq ‹_›
  split
  · exact linkPost_canonical hs
  · split <;> exact hs

theorem engPieces_canonical {c : Cmd} {xs : List (Nat × Nat)} (hs : MemoryCanonical s) : MemoryCanonical (s.engPieces c xs).1 := by
  induction xs generalizing s c with
  | nil =>
    rw [State.engPieces]
    exact hs
  | cons x r ih =>
    rw [State.engPieces]
    split
    have hs2 := (engPiece_canonical hs).of_eq ‹_›
    split
    · exact hs2
    split
    exact (ih hs2).of_eq ‹_›

theorem engFetch_canonical {c : Cmd} {va n : Nat} (hs : MemoryCanonical s) : MemoryCanonical (s.engFetch c va n).1 := by
  unfold State.engFetch
  split
  have hs2 := (engPieces_canonical hs).of_eq ‹_›
  split
  · exact hs2
  · exact dropCmdLinks_canonical hs2

theorem engStore_canonical {c : Cmd} {xs : List (Nat × Nat)} {bs : List Byte} (hs : MemoryCanonical s) :
    MemoryCanonical (s.engStore c xs bs).1 := by
  induction xs generalizing s c bs with
  | nil =>
    rw [State.engStore]
    exact hs
  | cons x r ih =>
    rw [State.engStore]
    split
    split
    have hs1 := (ite_canonical_fst (engWrite_canonical hs) (linkPost_canonical hs)).of_eq ‹_›
    split
    exact (ih hs1).of_eq ‹_›

theorem copyOverlap_canonical {c : Cmd} {src dst : Nat} {n : Nat} {xs : List Byte} (hs : MemoryCanonical s) :
    MemoryCanonical (copyOverlap c src dst s n xs).1 := by
  induction xs generalizing c src dst s n with
  | nil =>
    rw [copyOverlap]
    exact hs
  | cons _ r ih =>
    rw [copyOverlap]
    split
    have hs1 := (ite_canonical_fst (free_canonical hs) hs).of_eq ‹_›
    split
    exact (ih hs1).of_eq ‹_›

theorem cpySource_canonical {c : Cmd} {src n : Nat} (hs : MemoryCanonical s) : MemoryCanonical (s.cpySource c src n).1 := by
  unfold State.cpySource
  split
  · split
    · exact hs
    split
    exact (scrRead_canonical hs).of_eq ‹_›
  · exact engFetch_canonical hs

theorem cpyPiece_canonical {c : Cmd} (hs : MemoryCanonical s) : MemoryCanonical (s.cpyPiece c) := by
  unfold State.cpyPiece
  extract_lets
  refine ite_canonical (failCmd_canonical hs) (ite_canonical (failCmd_canonical hs) (ite_canonical hs (ite_canonical hs ?_)))
  extract_lets
  split
  have hs1 := (cpySource_canonical hs).of_eq ‹_›
  split
  · exact hs1
  · exact failCmd_canonical hs1
  split
  next s2 b2 heq2 =>
  have hs2 := (ite_canonical_fst (copyOverlap_canonical hs1) hs1).of_eq heq2
  split
  next s3 e heq3 =>
  have hs3 : MemoryCanonical s3 := by
    refine MemoryCanonical.of_eq (ite_canonical_fst ?_ (engStore_canonical hs2)) heq3
    dsimp only
    exact scrWrite_canonical hs2
  split
  · exact failCmd_canonical hs3
  · exact modCmd_canonical hs3

theorem closeCmd_canonical {c : Cmd} (hs : MemoryCanonical s) : MemoryCanonical (s.closeCmd c) := by
  unfold State.closeCmd
  split
  · exact hs
  · exact endCmd_canonical (dropCmdLinks_canonical hs)
  · exact endCmd_canonical (dropCmdLinks_canonical hs)

theorem execEvCpyExecution_canonical {k : Nat} (hs : MemoryCanonical s) : OutCanonical (execEvCpyExecution k s) := by
  unfold execEvCpyExecution
  split
  · split
    · exact outCanonical_next hs
    split
    · exact outCanonical_next (cpyPiece_canonical hs)
    · exact outCanonical_next (closeCmd_canonical hs)
  · exact outCanonical_next hs

theorem binHandles_canonical {c : Cmd} {n : Nat} {xs : List Nat} (hs : MemoryCanonical s) : MemoryCanonical (s.binHandles c n xs).1 := by
  induction xs generalizing s c n with
  | nil =>
    rw [State.binHandles]
    exact hs
  | cons x r ih =>
    rw [State.binHandles]
    split
    · exact hs
    split
    have hs2 := (scrRead_canonical hs).of_eq ‹_›
    extract_lets
    split
    have hs1 := (handlePatch_canonical hs2).of_eq ‹_›
    split
    · exact ih (scrWrite_canonical hs1)
    split
    · split
      have hs3 := (handleRelease_canonical hs1).of_eq ‹_›
      split
      · exact hs3
      · exact ih hs3
    · exact ih hs1

theorem binFinish_canonical {c : Cmd} (hs : MemoryCanonical s) : MemoryCanonical (s.binFinish c) := by
  unfold State.binFinish
  extract_lets
  split
  · exact closeCmd_canonical hs
  split
  · exact failCmd_canonical hs
  split
  · exact hs
  split
  have hs1 := (ite_canonical_fst (binHandles_canonical hs) hs).of_eq ‹_›
  split
  · exact modCmd_canonical hs1
  · exact failCmd_canonical hs1
  · exact closeCmd_canonical (modCmd_canonical hs1)

theorem execEvBinExecution_canonical {k : Nat} (hs : MemoryCanonical s) : OutCanonical (execEvBinExecution k s) := by
  unfold execEvBinExecution
  split
  · split
    · exact outCanonical_next hs
    split
    · extract_lets
      split
      have hs2 := (engFetch_canonical hs).of_eq ‹_›
      split
      · exact outCanonical_next (modCmd_canonical hs2)
      · exact outCanonical_next (endCmd_canonical hs2)
      extract_lets
      split
      exact outCanonical_next (modCmd_canonical ((engStore_canonical hs2).of_eq ‹_›))
    · exact outCanonical_next (binFinish_canonical hs)
  · exact outCanonical_next hs

theorem leafOf_canonical {ctx va : Nat} (hs : MemoryCanonical s) : MemoryCanonical (s.leafOf ctx va).1 := by
  unfold State.leafOf
  split
  · exact leafAddr_canonical hs
  · exact hs

theorem leafRead_canonical {a : Nat} (hs : MemoryCanonical s) : MemoryCanonical (s.leafRead a).1 := by
  unfold State.leafRead
  split
  split <;> exact ((dramRead_canonical (homeLine_canonical hs)).of_eq ‹_›)

theorem leafWrite_canonical {a : Nat} {e : BitVec 64} (hs : MemoryCanonical s) : MemoryCanonical (s.leafWrite a e) :=
  dramWrite_canonical (homeLine_canonical hs)

theorem unpinned_canonical {ctx : Nat} {xs : List Nat} (hs : MemoryCanonical s) : MemoryCanonical (s.unpinned ctx xs).1 := by
  induction xs generalizing s ctx with
  | nil =>
    rw [State.unpinned]
    exact hs
  | cons x r ih =>
    rw [State.unpinned]
    split
    have hs1 := (pinCount_canonical hs).of_eq ‹_›
    split
    · exact hs1
    · exact ite_canonical_fst hs1 (ih hs1)

theorem migPage_canonical {c : Cmd} (hs : MemoryCanonical s) : MemoryCanonical (s.migPage c).1 := by
  unfold State.migPage
  extract_lets
  split
  have hs1 := (leafOf_canonical hs).of_eq ‹_›
  split
  · exact hs1
  split
  have hs2 := (leafRead_canonical hs1).of_eq ‹_›
  split
  · exact hs2
  extract_lets
  exact hs2

theorem carryErrors_canonical {src dst : Nat} (hs : MemoryCanonical s) : MemoryCanonical (s.carryErrors src dst) := by
  unfold State.carryErrors
  extract_lets _ s1 _
  have hs1 : MemoryCanonical s1 := dramWrite_canonical hs
  split
  · exact setMem_canonical hs1 rfl
  · exact hs1

theorem linkPoison_canonical {c : Cmd} {dst : Nat} {b : List Byte} (hs : MemoryCanonical s) : MemoryCanonical (s.linkPoison c dst b) := by
  unfold State.linkPoison
  extract_lets _ s1
  have hs1 : MemoryCanonical s1 := linkPost_canonical hs
  exact hs1.other rfl rfl

theorem lineIn_canonical {c : Cmd} {dst : Nat} {b : List Byte} (hs : MemoryCanonical s) : MemoryCanonical (s.lineIn c dst b) :=
  ite_canonical (dramWrite_canonical (homeLine_canonical hs)) (linkPost_canonical hs)

theorem moveLine_canonical {c : Cmd} {src dst : Nat} (hs : MemoryCanonical s) : MemoryCanonical (s.moveLine c src dst) := by
  unfold State.moveLine
  split
  have hs1 := (dramRead_canonical (homeLine_canonical hs)).of_eq ‹_›
  split
  · exact lineIn_canonical hs1
  · exact ite_canonical (carryErrors_canonical (homeLine_canonical hs1)) (linkPoison_canonical hs1)

theorem Team.movedWo_canonical {src n dst : Nat} {t : Team} (ht : t.Canonical) : (Team.movedWo src n dst t).Canonical := by
  unfold Team.movedWo
  extract_lets
  exact ht

theorem leafSwitch_canonical {c : Cmd} {m : Moving} (hs : MemoryCanonical s) : MemoryCanonical (s.leafSwitch c m) := by
  unfold State.leafSwitch
  extract_lets _ _ _ s5
  have hs5 : MemoryCanonical s5 := tlbInvalidate_canonical (leafWrite_canonical hs)
  exact hs5.mapTeams (f := Team.movedWo m.src m.size m.dst) (fun _ ht => ht) rfl rfl

theorem lockPage_canonical {c : Cmd} {m : Moving} (hs : MemoryCanonical s) : MemoryCanonical (s.lockPage c m) :=
  releaseWoRange_canonical (performCopies_canonical (markPage_canonical hs))

theorem unlockPage_canonical {c : Cmd} (hs : MemoryCanonical s) : MemoryCanonical (s.unlockPage c) := unmarkPage_canonical hs

theorem migFail_canonical {c : Cmd} {m : Moving} {x : BitVec 8} (hs : MemoryCanonical s) : MemoryCanonical (s.migFail c m x) :=
  failCmd_canonical (unlockPage_canonical (leafWrite_canonical hs))

theorem migNext_canonical {c : Cmd} {m : Moving} (hs : MemoryCanonical s) : MemoryCanonical (s.migNext c m) := modCmd_canonical hs

theorem migBegin_canonical {c : Cmd} {m : Moving} (hs : MemoryCanonical s) : MemoryCanonical (s.migBegin c m) := by
  unfold State.migBegin
  split
  have hs1 := (unpinned_canonical hs).of_eq ‹_›
  split
  · exact failCmd_canonical hs1
  · exact failCmd_canonical hs1
  extract_lets s2 _ s3
  have hs2 : MemoryCanonical s2 := leafWrite_canonical hs1
  have hs3 : MemoryCanonical s3 := lockPage_canonical hs2
  clear_value s2 s3
  split
  · exact migNext_canonical (leafSwitch_canonical (foldl_canonical (fun _ _ hst => moveLine_canonical hst) hs2))
  split
  · exact modCmd_canonical (foldl_canonical (fun _ _ hst => moveLine_canonical hst) hs3)
  · exact modCmd_canonical (foldl_canonical (fun _ _ hst => linkPost_canonical hst) hs3)

theorem migLines_canonical {c : Cmd} {m : Moving} (hs : MemoryCanonical s) : MemoryCanonical (s.migLines c m) := by
  unfold State.migLines
  extract_lets
  split
  · exact hs
  split
  · exact migFail_canonical (dropCmdLinks_canonical hs)
  · exact modCmd_canonical (foldl_canonical (fun _ _ hst => lineIn_canonical hst) (dropCmdLinks_canonical hs))

theorem migAcked_canonical {c : Cmd} {m : Moving} (hs : MemoryCanonical s) : MemoryCanonical (s.migAcked c m) := by
  unfold State.migAcked
  split
  · exact hs
  · exact migFail_canonical (dropCmdLinks_canonical hs)
  · exact migNext_canonical (unlockPage_canonical (leafSwitch_canonical (dropCmdLinks_canonical hs)))

theorem execEvMigrationPage_canonical {k : Nat} (hs : MemoryCanonical s) : OutCanonical (execEvMigrationPage k s) := by
  unfold execEvMigrationPage
  split
  · split
    · exact outCanonical_next hs
    split
    · exact outCanonical_next (closeCmd_canonical hs)
    split
    have hs1 := (migPage_canonical hs).of_eq ‹_›
    refine outCanonical_next ?_
    split
    · exact failCmd_canonical (unlockPage_canonical hs1)
    split
    · exact hs1
    split
    · exact ite_canonical hs1 (migBegin_canonical hs1)
    · exact ite_canonical (migLines_canonical hs1) (migAcked_canonical hs1)
  · exact outCanonical_next hs

end Sys2Proof.Machine
end

