-- ==== Sys2Proof/Proofs/CanonicalNear.lean ====
section
/-! Calls and walks at the base dies keep the canonical form. -/

namespace Sys2Proof.Machine

open Sys2Proof

variable {s : State}

theorem extentPages_canonical {ctx slot : Nat} {out : Bool} {hi n m : Nat} (hs : MemoryCanonical s) :
    MemoryCanonical (s.extentPages ctx slot out hi n m).1 := by
  induction n generalizing s ctx slot out hi m with
  | zero =>
    rw [State.extentPages]
    exact hs
  | succ n ih =>
    rw [State.extentPages]
    split
    · exact hs
    split
    · exact hs
    split
    · exact hs
    split
    have hs1 := (translate_canonical hs).of_eq ‹_›
    split
    · exact hs1
    · exact hs1
    split
    · exact hs1
    extract_lets
    split
    split <;> exact ((ih hs1).of_eq ‹_›)

theorem slotExtents_canonical {ctx : Nat} {m : List Byte} {xs : List Nat} (hs : MemoryCanonical s) :
    MemoryCanonical (s.slotExtents ctx m xs).1 := by
  induction xs generalizing s ctx m with
  | nil =>
    rw [State.slotExtents]
    exact hs
  | cons x r ih =>
    rw [State.slotExtents]
    split
    · exact ih hs
    extract_lets
    split
    have hs2 := (extentPages_canonical hs).of_eq ‹_›
    split
    · exact hs2
    split
    split <;> exact ((ih hs2).of_eq ‹_›)

theorem codeExtent_canonical {ctx : Nat} {walk : Bool} {m : List Byte} (hs : MemoryCanonical s) :
    MemoryCanonical (s.codeExtent ctx walk m).1 := by
  unfold State.codeExtent
  split
  · exact hs
  extract_lets
  split
  exact (extentPages_canonical hs).of_eq ‹_›

theorem extentTable_canonical {ctx : Nat} {walk : Bool} {m : List Byte} (hs : MemoryCanonical s) :
    MemoryCanonical (s.extentTable ctx walk m).1 := by
  unfold State.extentTable
  split
  have hs2 := (codeExtent_canonical hs).of_eq ‹_›
  split
  · exact hs2
  split
  split <;> exact ((slotExtents_canonical hs2).of_eq ‹_›)

theorem pinFrames_canonical {ctx : Nat} {done : List Nat} {xs : List (Nat × Nat)} (hs : MemoryCanonical s) :
    MemoryCanonical (s.pinFrames ctx done xs).1 := by
  induction xs generalizing s ctx done with
  | nil =>
    rw [State.pinFrames]
    exact hs
  | cons x r ih =>
    rw [State.pinFrames]
    split
    have hs2 := (pin_canonical hs).of_eq ‹_›
    split
    · exact ih hs2
    · exact unpinAll_canonical hs2
    · exact unpinAll_canonical hs2

theorem callFlush_canonical {xs : List Extent} (hs : MemoryCanonical s) : MemoryCanonical (s.callFlush xs) := by
  unfold State.callFlush
  extract_lets _ _ s1 s2
  have hs1 : MemoryCanonical s1 := foldl_canonical (fun _ _ hst => combineLine_canonical hst) hs
  have hs2 : MemoryCanonical s2 := foldl_canonical (fun _ _ hst => fredsDue_canonical hst) hs1
  exact l2EvictAll_canonical hs2

theorem acceptCall_canonical {c0 : Call} {holder : State → Nat → Bool} {bar : State → State × Except LaneEnd Nat} (hs : MemoryCanonical s)
    (hbar : ∀ st, MemoryCanonical st → MemoryCanonical (bar st).1) :
    MemoryCanonical (s.acceptCall c0 holder bar).1 := by
  unfold State.acceptCall
  extract_lets
  split
  have hs2 := (extentTable_canonical hs).of_eq ‹_›
  split
  · exact hs2
  extract_lets
  split
  · exact hs2
  split
  have hs1 := (pinFrames_canonical hs2).of_eq ‹_›
  split
  · exact hs1
  split
  have hs3 := (hbar _ hs1).of_eq ‹_›
  split
  · exact unpinAll_canonical hs3
  split
  · exact unpinAll_canonical hs3
  · exact callFlush_canonical hs3

theorem addCall_canonical {c : Call} (hs : MemoryCanonical s) : MemoryCanonical (s.addCall c) := by
  unfold State.addCall
  extract_lets
  exact hs.other rfl rfl

theorem callLane_canonical {walk : Bool} {a b : Reg} {i : Iss} {l : Nat} (hs : MemoryCanonical s) :
    MemoryCanonical (callLane walk a b i s l).1 := by
  unfold callLane
  extract_lets
  split
  · exact hs
  split
  · exact hs
  split
  · exact hs
  split
  · exact hs
  split
  have hs2 := (scrRead_canonical hs).of_eq ‹_›
  split
  · exact hs2
  split
  · exact hs2
  split
  · exact hs2
  extract_lets
  split
  have hs1 := (acceptCall_canonical (relDev_canonical hs2) (fun _ hst => checkBarrier_canonical hst)).of_eq ‹_›
  split
  · exact hs1
  · exact addCall_canonical (modCtx_canonical hs1)

theorem endFirmware_canonical {tm stack : Nat} (hs : MemoryCanonical s) : MemoryCanonical (s.endFirmware tm stack) := by
  unfold State.endFirmware
  refine modStack_canonical (modTeam_canonical hs ?_)
  intro t ht
  extract_lets
  exact Team.stopAll_canonical ht

theorem execNmret_canonical {a : Reg} (hs : MemoryCanonical s) : OutCanonical (execNmret a s) := by
  unfold execNmret
  refine issue_canonical ?_ hs
  intro i st hst
  extract_lets
  split
  · exact endFirmware_canonical hst
  · exact endCall_canonical hst

theorem execFred_canonical {op : BitVec 7} {a b : Reg} (hs : MemoryCanonical s) : OutCanonical (execFred op a b s) := by
  unfold execFred
  extract_lets
  refine issue_canonical (fun _ _ hst => eachLane_canonical ?_ hst) hs
  intro i st l hst
  extract_lets _ _ _ perform
  have hperform {u : State} {p : Spot} (hu : MemoryCanonical u) : MemoryCanonical (perform u p).1 := by
    dsimp only [perform]
    split
    · exact atomSpot_canonical hu
    · exact atomSpot_canonical hu
    · exact postStoreError_canonical (atomSpot_canonical hu)
  clear_value perform
  split
  have hs1 := (check_canonical hst).of_eq ‹_›
  split
  · exact hs1
  · refine ite_canonical_fst ?_ (ite_canonical_fst hs1 (hperform hs1))
    extract_lets _ s2 s3
    have hs2 : MemoryCanonical s2 := ownCopies_canonical (ite_canonical (relDev_canonical hs1) hs1)
    have hs3 : MemoryCanonical s3 := combineLine_canonical (l1Bypass_canonical hs2)
    clear_value s3
    refine ite_canonical_fst ?_ (setMem_canonical hs3 rfl)
    split
    have hs4 := (hperform hs3).of_eq ‹_›
    refine ite_canonical_fst ?_ hs4
    split
    exact homeWrite_canonical ((freeBytes_canonical hs4).of_eq_snd ‹_›)
  · exact hperform hs1

theorem execEvFredInMemory_canonical {k : Nat} (hs : MemoryCanonical s) : OutCanonical (execEvFredInMemory k s) := by
  unfold execEvFredInMemory
  split
  · exact outCanonical_next hs
  · exact outCanonical_next (ite_canonical hs (fredPerform_canonical (setMem_canonical hs rfl)))

theorem extentRead_canonical {c : Call} {slot : Nat} {xs : List (Nat × Nat)} (hs : MemoryCanonical s) :
    MemoryCanonical (s.extentRead c slot xs).1 := by
  induction xs generalizing s c slot with
  | nil =>
    rw [State.extentRead]
    exact hs
  | cons x r ih =>
    rw [State.extentRead]
    split
    · exact hs
    extract_lets
    split
    have hs1 := (dramRead_canonical hs).of_eq ‹_›
    split
    · exact hs1
    split
    exact (ih hs1).of_eq ‹_›

theorem callRecord_canonical {c : Call} (hs : MemoryCanonical s) : MemoryCanonical (s.callRecord c).1 := by
  unfold State.callRecord
  extract_lets
  split
  · exact hs
  split
  · exact hs
  split
  split <;> exact ((dramRead_canonical hs).of_eq ‹_›)

theorem Team.ofCall_canonical {c : Call} {core : Nat} : (Team.ofCall c core).Canonical :=
  ⟨memWrite_wf (Nat.zero_le _) rfl, rfl⟩

theorem modCall_canonical {k : Nat} {f : Call → Call} (hs : MemoryCanonical s) : MemoryCanonical (s.modCall k f) := hs.other rfl rfl

theorem refuseCall_canonical {k status : Nat} (hs : MemoryCanonical s) : MemoryCanonical (s.refuseCall k status) := modCall_canonical hs

theorem startCall_canonical {k : Nat} {c : Call} {core : Nat} (hs : MemoryCanonical s) : MemoryCanonical (s.startCall k c core) := by
  have hteam : ((Team.ofCall c core).age s.tick).Canonical := Team.ofCall_canonical (c := c) (core := core)
  exact hs.appendTeams (List.forall_mem_singleton.mpr hteam) rfl rfl

theorem execEvCallStart_canonical {k : Nat} (hs : MemoryCanonical s) : OutCanonical (execEvCallStart k s) := by
  unfold execEvCallStart
  split
  · split
    · exact outCanonical_next hs
    split
    · split
      split
      · exact outCanonical_next (modCall_canonical hs)
      split
      · exact outCanonical_next (refuseCall_canonical hs)
      · exact outCanonical_next hs
    · split
      · exact outCanonical_next (ite_canonical hs (refuseCall_canonical hs))
      split
      · exact outCanonical_next hs
      split
      have hs1 := (callRecord_canonical hs).of_eq ‹_›
      split
      · exact outCanonical_next (refuseCall_canonical hs1)
      · exact outCanonical_next (startCall_canonical hs1)
  · exact outCanonical_next hs

theorem slotRead_canonical {c : Call} {slot off n : Nat} (hs : MemoryCanonical s) : MemoryCanonical (s.slotRead c slot off n).1 := by
  unfold State.slotRead
  split
  · exact hs
  split
  · exact hs
  split
  exact (extentRead_canonical hs).of_eq ‹_›

theorem slotWrite_canonical {c : Call} {xs : List (Nat × Nat)} {bs : List Byte} (hs : MemoryCanonical s) :
    MemoryCanonical (s.slotWrite c xs bs) := by
  induction xs generalizing s c bs with
  | nil =>
    rw [State.slotWrite]
    exact hs
  | cons x r ih =>
    rw [State.slotWrite]
    split
    · exact ih hs
    extract_lets
    split
    have hs2 := (callStore_canonical hs).of_eq ‹_›
    split
    have hs1 := (dramWrite_canonical hs2).of_eq ‹_›
    extract_lets s3
    have hs3 : MemoryCanonical s3 := by
      dsimp only [s3]
      split
      · exact post_canonical hs1
      · exact hs1
    exact ih hs3

theorem recordRows_canonical {c : Call} {w : WalkRec} {xs : List Nat} (hs : MemoryCanonical s) :
    MemoryCanonical (s.recordRows c w xs).1 := by
  induction xs generalizing s c w with
  | nil =>
    rw [State.recordRows]
    exact hs
  | cons x r ih =>
    rw [State.recordRows]
    split
    have hs1 := (slotRead_canonical hs).of_eq ‹_›
    split
    · exact hs1
    split
    have hs2 := (slotRead_canonical hs1).of_eq ‹_›
    split
    · exact hs2
    split
    exact (ih hs2).of_eq ‹_›

theorem walkRecord_canonical {c : Call} (hs : MemoryCanonical s) : MemoryCanonical (s.walkRecord c).1 := by
  unfold State.walkRecord
  split
  have hs1 := (slotRead_canonical hs).of_eq ‹_›
  split
  · exact hs1
  extract_lets
  split
  · exact hs1
  split
  have hs2 := (recordRows_canonical hs1).of_eq ‹_›
  split
  · exact hs2
  extract_lets
  split
  · exact ite_canonical_fst hs2 (slotWrite_canonical hs2)
  · exact hs2

theorem endAllBank_canonical {stack : Nat} (hs : MemoryCanonical s) : MemoryCanonical (s.endAllBank stack) := modStack_canonical hs

theorem execEvWalkRecord_canonical {stack : Nat} (hs : MemoryCanonical s) : OutCanonical (execEvWalkRecord stack s) := by
  unfold execEvWalkRecord
  split
  · exact outCanonical_next hs
  split
  · exact outCanonical_next hs
  split
  · exact outCanonical_next hs
  split
  · exact outCanonical_next (modStack_canonical hs)
  split
  have hs1 := (walkRecord_canonical (endAllBank_canonical hs)).of_eq ‹_›
  split
  · exact outCanonical_next (refuseCall_canonical hs1)
  split
  · exact outCanonical_next (refuseCall_canonical hs1)
  · exact outCanonical_next (modCall_canonical hs1)

theorem callRaces_canonical {c : Call} (hs : MemoryCanonical s) : MemoryCanonical (s.callRaces c) := by
  unfold State.callRaces
  extract_lets _ _ _ _ _ s1 _
  have hs1 : MemoryCanonical s1 := hs.other rfl rfl
  exact ite_canonical hs (setMem_canonical hs1 rfl)

theorem endCallTeam_canonical {c : Call} (hs : MemoryCanonical s) : MemoryCanonical (s.endCallTeam c) := by
  unfold State.endCallTeam
  split
  · exact hs
  refine modTeam_canonical hs ?_
  intro t ht
  split
  · extract_lets
    exact Team.stopAll_canonical ht
  · exact ht

theorem optimiserEnd_canonical {i status : Nat} (hs : MemoryCanonical s) : MemoryCanonical (s.optimiserEnd i status) := hs.other rfl rfl

theorem execEvCallCompletion_canonical {k : Nat} (hs : MemoryCanonical s) : OutCanonical (execEvCallCompletion k s) := by
  unfold execEvCallCompletion
  split
  · split
    · exact outCanonical_next hs
    extract_lets s1 s2 s3 s4
    have hs1 : MemoryCanonical s1 := endCallTeam_canonical (callRaces_canonical hs)
    have hs2 : MemoryCanonical s2 := hs1.other rfl rfl
    have hs3 : MemoryCanonical s3 := unpinAll_canonical (l2EvictAll_canonical hs2)
    have hs4 : MemoryCanonical s4 := ite_canonical hs3 (barAgent_canonical hs3)
    split
    · exact outCanonical_next (optimiserEnd_canonical hs3)
    · exact outCanonical_next (unpinBarrier_canonical (barAgent_canonical hs4))
  · exact outCanonical_next hs

theorem invalidateShards_canonical {stack core : Nat} (hs : MemoryCanonical s) : MemoryCanonical (s.invalidateShards stack core) := by
  unfold State.invalidateShards
  split
  · exact hs
  refine foldl_canonical ?_ hs
  intro st x hst
  extract_lets
  exact ite_canonical (setShard_canonical hst) hst

theorem execEvCallBudgetExpiry_canonical {k : Nat} (hs : MemoryCanonical s) : OutCanonical (execEvCallBudgetExpiry k s) := by
  unfold execEvCallBudgetExpiry
  split
  · split
    · exact outCanonical_next hs
    split
    · exact outCanonical_next (endAllBank_canonical (refuseCall_canonical hs))
    extract_lets s1 _ s2 _ _ s3
    have hs1 : MemoryCanonical s1 := endCall_canonical hs
    have hs2 : MemoryCanonical s2 := hs1.other rfl rfl
    have hs3 : MemoryCanonical s3 := ite_canonical (endAllBank_canonical hs2) hs2
    exact outCanonical_next (invalidateShards_canonical (modStack_canonical hs3))
  · exact outCanonical_next hs

theorem execEvChannelComputeResume_canonical {stack pair : Nat} (hs : MemoryCanonical s) :
    OutCanonical (execEvChannelComputeResume stack pair s) := outCanonical_next (modStack_canonical hs)

end Sys2Proof.Machine
end

