-- ==== Sys2Proof/Proofs/CanonicalLinks.lean ====
section
/-! System registers, channel registers, links and the exchange keep the canonical form. -/

namespace Sys2Proof.Machine

open Sys2Proof

variable {s : State}

theorem sysWrite_canonical {i : Iss} {l n v : Nat} (hs : MemoryCanonical s) : MemoryCanonical (s.sysWrite i l n v) := by
  unfold State.sysWrite
  extract_lets
  split
  · exact modThread_canonical hs
  split
  · exact ite_canonical (modStack_canonical hs) hs
  · exact modCtx_canonical hs

theorem execWrsr_canonical {a : Reg} {n : BitVec 7} (hs : MemoryCanonical s) : OutCanonical (execWrsr a n s) := by
  unfold execWrsr
  extract_lets
  refine issue_canonical (fun _ _ hst => eachLane_canonical ?_ hst) hs
  intro i st l hst
  extract_lets
  split
  · exact hst
  split
  · exact ite_canonical_fst (sysWrite_canonical hst) hst
  · exact hst

theorem dropFetch_canonical {asid : Nat} (hs : MemoryCanonical s) : MemoryCanonical (s.dropFetch asid) := by
  unfold State.dropFetch
  extract_lets
  refine hs.mapIdxTeams (fun tm t ht => ?_) rfl rfl
  split <;> exact ht

theorem execVpurge_canonical {a b : Reg} (hs : MemoryCanonical s) : OutCanonical (execVpurge a b s) := by
  unfold execVpurge
  refine issue_canonical (fun _ _ hst => eachLane_canonical ?_ hst) hs
  intro i st l hst
  extract_lets
  split
  · exact hst
  · exact ite_canonical hst (dropFetch_canonical (purgeRange_canonical (releaseWoRange_canonical hst)))

theorem purgeFrames_canonical {pa n : Nat} (hs : MemoryCanonical s) : MemoryCanonical (s.purgeFrames pa n) := by
  unfold State.purgeFrames
  extract_lets _ _ _ s1 s2 s3
  have hs1 : MemoryCanonical s1 := foldl_canonical (fun _ _ hst => combineLine_canonical hst) (releaseWoWhere_canonical hs)
  have hs2 : MemoryCanonical s2 := foldl_canonical (fun _ _ hst => fredsDue_canonical hst) hs1
  have hs3 : MemoryCanonical s3 := l2EvictAll_canonical (l1WriteAll_canonical hs2)
  clear_value s3
  exact hs3.other rfl rfl

theorem abortPage_canonical {asid lo n : Nat} (hs : MemoryCanonical s) : MemoryCanonical (s.abortPage asid lo n) := by
  unfold State.abortPage
  extract_lets
  refine foldl_canonical ?_ hs
  intro st x hst
  extract_lets
  split
  · exact hst
  refine releaseAll_canonical (foldl_canonical ?_ hst)
  intro st1 x1 hst1
  split
  · exact hst1
  refine foldl_canonical ?_ hst1
  intro st2 x2 hst2
  split
  · exact ite_canonical (abortLane_canonical hst2) hst2
  · exact hst2

theorem attrPurge_canonical {m : AttrMark} (hs : MemoryCanonical s) : MemoryCanonical (s.attrPurge m) := by
  unfold State.attrPurge
  extract_lets s1
  have hs1 : MemoryCanonical s1 := purgeFrames_canonical (releaseWoRange_canonical (performCopies_canonical hs))
  exact tlbInvalidate_canonical (abortPage_canonical (purgeRange_canonical hs1))

theorem attrWrite_canonical {leaf : Nat} {m : AttrMark} {attr : BitVec 2} (hs : MemoryCanonical s) :
    MemoryCanonical (s.attrWrite leaf m attr).1 := by
  unfold State.attrWrite
  split
  have hs2 := (leafRead_canonical hs).of_eq ‹_›
  split
  · exact hs2
  extract_lets s2 _ _
  refine setMem_canonical ?_ rfl
  dsimp only [s2]
  exact leafWrite_canonical hs2

theorem attrWait_canonical {i : Iss} {l : Nat} (hs : MemoryCanonical s) : MemoryCanonical (attrWait i l s).1 := modThread_canonical hs

theorem attrChange_canonical {i : Iss} {l leaf : Nat} {m : AttrMark} {old attr : BitVec 2} (hs : MemoryCanonical s) :
    MemoryCanonical (s.attrChange i l leaf m old attr).1 := by
  unfold State.attrChange
  split
  · exact attrWait_canonical hs
  extract_lets s1
  have hs1 : MemoryCanonical s1 := attrPurge_canonical hs
  split
  have hs2 := (unpinned_canonical hs1).of_eq ‹_›
  split
  · exact unmarkPage_canonical hs2
  · exact attrWait_canonical hs2
  split
  have hs3 := (attrWrite_canonical (attrPurge_canonical hs2)).of_eq ‹_›
  extract_lets s4
  have hs4 : MemoryCanonical s4 := unmarkPage_canonical hs3
  split
  · exact hs4
  · exact acquireDev_canonical hs4

theorem execAttrchg_canonical {d a b : Reg} (hs : MemoryCanonical s) : OutCanonical (execAttrchg d a b s) := by
  unfold execAttrchg
  refine issue_canonical (fun _ _ hst => eachLane_canonical ?_ hst) hs
  intro i st l hst
  extract_lets
  split
  · exact hst
  split
  have hs1 := (translate_canonical (relDev_canonical hst)).of_eq ‹_›
  split
  have hs2 := (leafOf_canonical hs1).of_eq ‹_›
  split
  · exact unmarkPage_canonical hs2
  · exact unmarkPage_canonical hs2
  · extract_lets
    split
    · exact attrChange_canonical (markPage_canonical hs2)
    · exact attrWait_canonical (markPage_canonical hs2)
  · exact unmarkPage_canonical hs2

theorem execTret_canonical (hs : MemoryCanonical s) : OutCanonical (execTret s) := by
  unfold execTret
  refine issue_canonical ?_ hs
  intro i st hst
  extract_lets
  exact modGroup_canonical hst

theorem execHaltc_canonical (hs : MemoryCanonical s) : OutCanonical (execHaltc s) := by
  unfold execHaltc
  refine issue_canonical ?_ hs
  intro i st hst
  split
  · exact endFirmware_canonical hst
  · exact modCore_canonical hst

theorem execEvPatctlWrite_canonical {stack ch : Nat} {v : Word} (hs : MemoryCanonical s) :
    OutCanonical (execEvPatctlWrite stack ch v s) := outCanonical_next (phyStore_canonical hs)

theorem execEvPatternTestDone_canonical {stack ch : Nat} (hs : MemoryCanonical s) : OutCanonical (execEvPatternTestDone stack ch s) :=
  outCanonical_next (resume_canonical (testDone_canonical hs))

theorem execEvRxdlyWrite_canonical {stack ch slot : Nat} {v : Word} (hs : MemoryCanonical s) :
    OutCanonical (execEvRxdlyWrite stack ch slot v s) := outCanonical_next (ite_canonical (phyStore_canonical hs) hs)

theorem execEvTxdlyWrite_canonical {stack ch slot : Nat} {v : Word} (hs : MemoryCanonical s) :
    OutCanonical (execEvTxdlyWrite stack ch slot v s) := outCanonical_next (ite_canonical (phyStore_canonical hs) hs)

theorem execEvLanemapWrite_canonical {stack ch g : Nat} {v : Word} (hs : MemoryCanonical s) :
    OutCanonical (execEvLanemapWrite stack ch g v s) := outCanonical_next (ite_canonical (phyStore_canonical hs) hs)

theorem execEvTrainstWrite_canonical {stack ch : Nat} {v : Word} (hs : MemoryCanonical s) :
    OutCanonical (execEvTrainstWrite stack ch v s) := outCanonical_next (phyStore_canonical hs)

theorem execEvLgcfgWrite_canonical {stack ch : Nat} {v : Word} (hs : MemoryCanonical s) :
    OutCanonical (execEvLgcfgWrite stack ch v s) := outCanonical_next (phyStore_canonical hs)

theorem execEvLaneTurnaroundDone_canonical {stack ch : Nat} (hs : MemoryCanonical s) :
    OutCanonical (execEvLaneTurnaroundDone stack ch s) := outCanonical_next (resume_canonical (modStack_canonical hs))

theorem execEvCounterClear_canonical {stack ch which : Nat} (hs : MemoryCanonical s) :
    OutCanonical (execEvCounterClear stack ch which s) := outCanonical_next (ite_canonical (phyStore_canonical hs) hs)

theorem execEvCapctlWrite_canonical {stack : Nat} {v : Word} (hs : MemoryCanonical s) : OutCanonical (execEvCapctlWrite stack v s) :=
  outCanonical_next (firmStore_canonical hs)

theorem execEvEvptrWrite_canonical {stack : Nat} {v : Word} (hs : MemoryCanonical s) : OutCanonical (execEvEvptrWrite stack v s) :=
  outCanonical_next (firmStore_canonical hs)

theorem execEvRegisterWrite_canonical {pa : Nat} {v : Word} (hs : MemoryCanonical s) : OutCanonical (execEvRegisterWrite pa v s) := by
  unfold execEvRegisterWrite
  refine outCanonical_next ?_
  split
  · exact firmStore_canonical hs
  · exact firmStore_canonical hs
  · exact hs

theorem execEvLivenessWrite_canonical {stack mib : Nat} {live : Bool} (hs : MemoryCanonical s) :
    OutCanonical (execEvLivenessWrite stack mib live s) := outCanonical_next (setLive_canonical hs)

theorem execEvRegionFillDone_canonical {stack mib : Nat} (hs : MemoryCanonical s) : OutCanonical (execEvRegionFillDone stack mib s) :=
  outCanonical_next (modStack_canonical hs)

theorem execEvCaptureWindowEnd_canonical {stack : Nat} (hs : MemoryCanonical s) : OutCanonical (execEvCaptureWindowEnd stack s) :=
  outCanonical_next (modStack_canonical hs)

theorem logSplit_canonical {stack : Nat} (hs : MemoryCanonical s) : MemoryCanonical (s.logSplit stack) := by
  unfold State.logSplit
  split
  have hs2 := (freeBytes_canonical hs).of_eq_snd ‹_›
  extract_lets
  exact modStack_canonical hs2

theorem execEvDramAlert_canonical {stack ch pc bank row : Nat} {sequencer : Bool} (hs : MemoryCanonical s) :
    OutCanonical (execEvDramAlert stack ch pc bank row sequencer s) := by
  unfold execEvDramAlert
  extract_lets s1
  have hs1 : MemoryCanonical s1 := modStack_canonical hs
  exact outCanonical_next (ite_canonical (logSplit_canonical hs1) hs1)

theorem execEvRefreshInterval_canonical {stack : Nat} (hs : MemoryCanonical s) : OutCanonical (execEvRefreshInterval stack s) := by
  unfold execEvRefreshInterval
  extract_lets
  split
  · exact outCanonical_next (modStack_canonical hs)
  split
  · exact outCanonical_next (modStack_canonical hs)
  · exact outCanonical_next (logSplit_canonical hs)

theorem answer_canonical {peer : Nat} {refused : Bool} {data : List Byte} (hs : MemoryCanonical s) :
    MemoryCanonical (s.answer peer refused data) := hs.other rfl rfl

theorem stallRequest_canonical {e : Instr} (hs : MemoryCanonical s) : MemoryCanonical (s.stallRequest e) := hs.other rfl rfl

theorem portRead_canonical {pa n : Nat} (hs : MemoryCanonical s) : MemoryCanonical (s.portRead pa n).1 := by
  unfold State.portRead
  split
  have hs1 := (physRead_canonical hs).of_eq ‹_›
  split
  · exact hs1
  split
  · split
    exact (freeBytes_canonical hs1).of_eq_snd ‹_›
  · exact hs1

theorem portWrite_canonical {pa : Nat} {data : List Byte} {enables : List Bool} (hs : MemoryCanonical s) :
    MemoryCanonical (s.portWrite pa data enables).1 := by
  unfold State.portWrite
  split
  · split
    exact (physWrite_canonical hs).of_eq ‹_›
  split
  have hs1 := (physRead_canonical hs).of_eq ‹_›
  split
  · exact hs1
  split
  exact (physWrite_canonical hs1).of_eq ‹_›

theorem physBar_canonical {pa : Nat} {k : BarStep} (hs : MemoryCanonical s) : MemoryCanonical (s.physBar pa k).1 := by
  unfold State.physBar
  split
  have hs1 := (physRead_canonical hs).of_eq ‹_›
  split
  · exact hs1
  split
  rename_i s2 heq
  have hs2 : MemoryCanonical s2 := by
    refine MemoryCanonical.of_eq_snd ?_ heq
    split
    · exact freeBytes_canonical hs1
    · exact hs1
  exact requeue_canonical (signalAll_canonical (physWrite_canonical hs2))

theorem execEvLinkReadRequest_canonical {peer pa n : Nat} (hs : MemoryCanonical s) : OutCanonical (execEvLinkReadRequest peer pa n s) := by
  unfold execEvLinkReadRequest
  refine outCanonical_next ?_
  split
  · exact answer_canonical hs
  split
  · split
    · exact stallRequest_canonical hs
    split
    exact answer_canonical ((portRead_canonical hs).of_eq ‹_›)
  · exact answer_canonical hs

theorem packetSpot_canonical {off : Nat} {data : List Byte} (hs : MemoryCanonical s) : MemoryCanonical (s.packetSpot off data).1 := by
  unfold State.packetSpot
  split
  have hs1 := (readDescriptor_canonical hs).of_eq ‹_›
  extract_lets
  exact hs1

theorem addValues_canonical {d : Descriptor} {n : Nat} {xs : List Byte} {m : Nat} (hs : MemoryCanonical s) :
    MemoryCanonical (s.addValues d n xs m) := by
  induction m generalizing s d n xs with
  | zero =>
    rw [State.addValues]
    exact hs
  | succ m ih =>
    rw [State.addValues]
    split
    have hs1 := (physRead_canonical hs).of_eq ‹_›
    split
    have hs2 := (physRead_canonical hs1).of_eq ‹_›
    split
    · extract_lets
      split
      extract_lets s4
      have hs4 : MemoryCanonical s4 := exchWrite_canonical hs2
      exact ih (ite_canonical hs4 (exchWrite_canonical hs4))
    · exact setShard_canonical hs2
    · exact ih (post_canonical hs2)

theorem packetAdd_canonical {d : Descriptor} {e : Nat} {data : List Byte} (hs : MemoryCanonical s) :
    MemoryCanonical (s.packetAdd d e data) := by
  unfold State.packetAdd
  split
  have hs2 := (header_canonical hs).of_eq ‹_›
  exact ite_canonical hs2 (addValues_canonical hs2)

theorem packetDone_canonical {peer : Nat} {own : Option LinkReq} {refused : Bool} (hs : MemoryCanonical s) :
    MemoryCanonical (s.packetDone peer own refused) := by
  unfold State.packetDone
  split
  · exact hs.other rfl rfl
  · exact answer_canonical hs

theorem packet_canonical {peer off : Nat} {data : List Byte} {own : Option LinkReq} (hs : MemoryCanonical s) :
    MemoryCanonical (s.packet peer off data own) := by
  unfold State.packet
  split
  · exact ite_canonical hs (stallRequest_canonical hs)
  split
  have hs0 := (packetSpot_canonical hs).of_eq ‹_›
  split
  · exact packetDone_canonical hs0
  split
  have hs1 := (shardBusy_canonical hs0).of_eq ‹_›
  split
  · exact ite_canonical hs1 (holdReq_canonical hs1)
  · exact packetDone_canonical (packetAdd_canonical hs1)

theorem execEvReductionPacket_canonical {peer off : Nat} {data : List Byte} (hs : MemoryCanonical s) :
    OutCanonical (execEvReductionPacket peer off data s) := by
  unfold execEvReductionPacket
  refine outCanonical_next ?_
  split
  · split
    · split
      · exact ite_canonical (packet_canonical hs) (packetDone_canonical hs)
      · exact hs
    · exact hs
  · exact packet_canonical hs

theorem execEvLinkWriteRequest_canonical {peer pa : Nat} {data : List Byte} {enables : List Bool} (hs : MemoryCanonical s) :
    OutCanonical (execEvLinkWriteRequest peer pa data enables s) := by
  unfold execEvLinkWriteRequest
  refine outCanonical_next ?_
  split
  · exact answer_canonical hs
  split
  · exact ite_canonical (packet_canonical hs) (answer_canonical hs)
  · split
    · exact stallRequest_canonical hs
    split
    exact answer_canonical ((portWrite_canonical hs).of_eq ‹_›)
  · exact answer_canonical hs

theorem portBar_canonical {peer pa : Nat} {k : BarStep} (hs : MemoryCanonical s) : MemoryCanonical (s.portBar peer pa k) := by
  unfold State.portBar
  split
  · have hs0 := (stepHeld_canonical hs).of_eq ‹_›
    exact ite_canonical hs0 (holdReq_canonical hs0)
  have hs0 := (stepHeld_canonical hs).of_eq ‹_›
  split
  exact answer_canonical ((physBar_canonical hs0).of_eq ‹_›)

theorem portAtomic_canonical {peer pa op n x c : Nat} (hs : MemoryCanonical s) : MemoryCanonical (s.portAtomic peer pa op n x c) := by
  unfold State.portAtomic
  split
  have hs1 := (ite_canonical_fst (physRead_canonical hs) hs).of_eq ‹_›
  split
  · exact portBar_canonical hs1
  split
  have hs3 := (portRead_canonical hs1).of_eq ‹_›
  split
  · exact answer_canonical hs3
  split
  exact answer_canonical ((physWrite_canonical hs3).of_eq ‹_›)

theorem execEvLinkAtomicRequest_canonical {peer pa op : Nat} {wide : Bool} {x c : BitVec 64} (hs : MemoryCanonical s) :
    OutCanonical (execEvLinkAtomicRequest peer pa op wide x c s) := by
  unfold execEvLinkAtomicRequest
  extract_lets
  refine outCanonical_next ?_
  split
  · exact answer_canonical hs
  split
  · split
    · exact stallRequest_canonical hs
    · exact ite_canonical (portBar_canonical hs) (portAtomic_canonical hs)
  · exact answer_canonical hs

theorem execEvLinkRefusedRequest_canonical {peer : Nat} (hs : MemoryCanonical s) : OutCanonical (execEvLinkRefusedRequest peer s) :=
  outCanonical_next (answer_canonical hs)

theorem hol_canonical {type ctx : Nat} {fields : List Nat} {bytes : List Byte} (hs : MemoryCanonical s) :
    MemoryCanonical (s.hol type ctx fields bytes) := by
  unfold State.hol
  extract_lets
  exact ite_canonical (hs.other rfl rfl) (hs.other rfl rfl)

theorem linkDone_canonical {k : Nat} {refused : Bool} {data : List Byte} (hs : MemoryCanonical s) :
    MemoryCanonical (s.linkDone k refused data) := by
  unfold State.linkDone
  split
  · exact hs
  split
  · extract_lets s1 _
    have hs1 : MemoryCanonical s1 := hs.other rfl rfl
    exact ite_canonical (post_canonical hs1) hs1
  · exact hs.other rfl rfl

theorem sendHost_canonical (hs : MemoryCanonical s) : MemoryCanonical s.sendHost := by
  unfold State.sendHost
  split
  · exact hs
  refine foldl_canonical ?_ hs
  intro st x hst
  split
  · exact ite_canonical (hol_canonical (hst.other rfl rfl)) hst
  · exact hst

theorem takeLaunches_canonical {xs : List HeldPacket} (hs : MemoryCanonical s) : MemoryCanonical (s.takeLaunches xs) := by
  induction xs generalizing s with
  | nil => exact hs.other rfl rfl
  | cons m r ih =>
    change MemoryCanonical (if m.who.isSome then _ else _)
    split
    · exact hs.other rfl rfl
    have hsubmit := submit_canonical (ctx := m.ctx) (who := none) (p := m.packet) (args := m.args) hs
    revert hsubmit
    generalize s.submit m.ctx none m.packet m.args = x
    rcases x with ⟨s1, _ | ⟨code, h⟩⟩
    · exact fun hs1 => hs1.other rfl rfl
    · exact fun hs1 => ih (hol_canonical hs1)

theorem linkCome_canonical {k : Nat} {refused : Bool} {data : List Byte} (hs : MemoryCanonical s) :
    MemoryCanonical (s.linkCome k refused data) := by
  unfold State.linkCome
  extract_lets s1
  have hs1 : MemoryCanonical s1 := linkDone_canonical hs
  exact takeLaunches_canonical hs1

theorem launchesGoOn_canonical (hs : MemoryCanonical s) : MemoryCanonical s.launchesGoOn := ite_canonical hs (takeLaunches_canonical hs)

theorem execEvLinkCompletion_canonical {k : Nat} {data : List Byte} {refused : Bool} (hs : MemoryCanonical s) :
    OutCanonical (execEvLinkCompletion k data refused s) := outCanonical_next (ite_canonical (linkCome_canonical hs) hs)

theorem execEvReadData_canonical {k : Nat} {data : List Byte} (hs : MemoryCanonical s) : OutCanonical (execEvReadData k data s) :=
  outCanonical_next (ite_canonical (linkCome_canonical hs) hs)

theorem execEvWriteAck_canonical {k : Nat} (hs : MemoryCanonical s) : OutCanonical (execEvWriteAck k s) :=
  outCanonical_next (ite_canonical (linkCome_canonical hs) hs)

theorem execEvHostRead_canonical {pa n : Nat} (hs : MemoryCanonical s) : OutCanonical (execEvHostRead pa n s) := by
  unfold execEvHostRead
  refine outCanonical_next ?_
  split
  · exact hs
  split
  · split
    · exact stallRequest_canonical hs
    split
    exact hol_canonical ((portRead_canonical hs).of_eq ‹_›)
  · exact hol_canonical hs

theorem shardBlur_canonical {d : Descriptor} (hs : MemoryCanonical s) : MemoryCanonical (s.shardBlur d) := by
  unfold State.shardBlur
  split
  exact exchWrite_canonical ((freeBytes_canonical hs).of_eq_snd ‹_›)

theorem tableWritten_canonical {pa n : Nat} {old : State} (hs : MemoryCanonical s) : MemoryCanonical (s.tableWritten pa n old) := by
  unfold State.tableWritten
  refine foldl_canonical ?_ hs
  intro st x hst
  extract_lets
  exact ite_canonical (shardBlur_canonical hst) hst

theorem execEvHostWrite_canonical {pa : Nat} {data : List Byte} (hs : MemoryCanonical s) : OutCanonical (execEvHostWrite pa data s) := by
  unfold execEvHostWrite
  refine outCanonical_next ?_
  split
  · exact hs
  split
  · split
    · exact stallRequest_canonical hs
    split
    exact hol_canonical (tableWritten_canonical ((physWrite_canonical hs).of_eq ‹_›))
  · exact hol_canonical hs

theorem execEvExchangeTableBase_canonical {optimiser : Bool} {base ctx : Nat} (hs : MemoryCanonical s) :
    OutCanonical (execEvExchangeTableBase optimiser base ctx s) :=
  outCanonical_next (ite_canonical (hs.other rfl rfl) (ite_canonical (hs.other rfl rfl) hs))

theorem optRead_canonical {d : Descriptor} (hs : MemoryCanonical s) : MemoryCanonical (s.optRead d).1 := by
  unfold State.optRead
  split
  exact (physRead_canonical hs).of_eq ‹_›

theorem slotsLocal_canonical {d : Descriptor} {m : List Byte} (hs : MemoryCanonical s) : MemoryCanonical (s.slotsLocal d m).1 := by
  unfold State.slotsLocal
  split
  exact (extentTable_canonical hs).of_eq ‹_›

theorem shardClear_canonical {d : Descriptor} (hs : MemoryCanonical s) : MemoryCanonical (s.shardClear d).1 := by
  unfold State.shardClear
  split
  exact exchWrite_canonical ((physWrite_canonical hs).of_eq ‹_›)

theorem shardStart_canonical {d : Descriptor} {h : List Byte} (hs : MemoryCanonical s) : MemoryCanonical (s.shardStart d h) := by
  unfold State.shardStart
  extract_lets
  split
  exact setShard_canonical (exchWrite_canonical (exchWrite_canonical ((shardClear_canonical hs).of_eq ‹_›)))

theorem entryValid_canonical {a : Nat} (hs : MemoryCanonical s) : MemoryCanonical (s.entryValid a) := by
  unfold State.entryValid
  split
  exact exchWrite_canonical ((physRead_canonical hs).of_eq ‹_›)

theorem execEvDescriptorValidate_canonical {i : Nat} (hs : MemoryCanonical s) : OutCanonical (execEvDescriptorValidate i s) := by
  unfold execEvDescriptorValidate
  split
  · exact outCanonical_next (hol_canonical hs)
  split
  · exact outCanonical_next (stallRequest_canonical hs)
  split
  have hs1 := (readDescriptor_canonical hs).of_eq ‹_›
  split
  have hs3 := (optRead_canonical hs1).of_eq ‹_›
  extract_lets
  split
  have hs2 := (header_canonical hs3).of_eq ‹_›
  split
  have hs4 := (slotsLocal_canonical hs2).of_eq ‹_›
  split
  · extract_lets _ _ s5 _
    have hs5 : MemoryCanonical s5 :=
      entryValid_canonical (ite_canonical (shardBlur_canonical (shardStart_canonical hs4)) (shardStart_canonical hs4))
    exact outCanonical_next (hol_canonical (hs5.other rfl rfl))
  · exact outCanonical_next (hol_canonical hs4)

theorem gradient_canonical {d : Descriptor} {fl : Word} {n m : Nat} (hs : MemoryCanonical s) :
    MemoryCanonical (s.gradient d fl n m).1 := by
  induction m generalizing s d fl n with
  | zero =>
    rw [State.gradient]
    exact hs
  | succ m ih =>
    rw [State.gradient]
    split
    have hs1 := (physRead_canonical hs).of_eq ‹_›
    split
    · split
      exact (ih hs1).of_eq ‹_›
    · exact hs1

theorem execEvExchangeClose_canonical {i : Nat} (hs : MemoryCanonical s) : OutCanonical (execEvExchangeClose i s) := by
  unfold execEvExchangeClose
  split
  have hs1 := (readDescriptor_canonical hs).of_eq ‹_›
  split
  have hs2 := (header_canonical hs1).of_eq ‹_›
  split
  · exact outCanonical_next hs
  split
  · exact outCanonical_next (setShard_canonical hs2)
  split
  · split
    have hs3 := (gradient_canonical hs2).of_eq ‹_›
    split
    have hs4 := (optRead_canonical hs3).of_eq ‹_›
    refine outCanonical_next ?_
    split
    · exact setShard_canonical (unitWrite_canonical hs4)
    · exact setShard_canonical hs4
    · exact setShard_canonical hs4
  · exact outCanonical_next hs

theorem setOpt_canonical {i v : Nat} (hs : MemoryCanonical s) : MemoryCanonical (s.setOpt i v) := hs.other rfl rfl

theorem execEvExchangeOptimise_canonical {i : Nat} (hs : MemoryCanonical s) : OutCanonical (execEvExchangeOptimise i s) := by
  unfold execEvExchangeOptimise
  split
  have hs1 := (readDescriptor_canonical hs).of_eq ‹_›
  split
  have hs2 := (header_canonical hs1).of_eq ‹_›
  split
  have hs3 := (optRead_canonical hs2).of_eq ‹_›
  split
  · exact outCanonical_next hs
  split
  · exact outCanonical_next (setOpt_canonical hs3)
  extract_lets
  split
  have hs4 := (acceptCall_canonical hs3 (fun _ hst => hst)).of_eq ‹_›
  refine outCanonical_next ?_
  split
  · exact addCall_canonical hs4
  · exact hs4
  · exact setOpt_canonical hs4

theorem replayOne_canonical {d : Descriptor} {r : HeldReq} (hs : MemoryCanonical s) : MemoryCanonical (s.replayOne d r) := by
  unfold State.replayOne
  split
  have hs1 := (shardBusy_canonical hs).of_eq ‹_›
  split
  · exact holdReq_canonical hs1
  split
  · exact packet_canonical hs1
  split
  have hs3 := (physBar_canonical hs1).of_eq ‹_›
  exact ite_canonical (answer_canonical hs3) hs3

theorem endRound_canonical {i : Nat} {d : Descriptor} {h : List Byte} (hs : MemoryCanonical s) : MemoryCanonical (s.endRound i d h) := by
  unfold State.endRound
  split
  next s0 bad heq =>
  have hs0 : MemoryCanonical s0 := (shardClear_canonical hs).of_eq heq
  extract_lets s1 _ s2
  have hs1 : MemoryCanonical s1 := setShard_canonical (exchWrite_canonical hs0)
  clear_value s1
  have hs2 : MemoryCanonical s2 := hs1.other rfl rfl
  exact foldl_canonical (fun _ _ hst => replayOne_canonical hst) (modStack_canonical hs2)

theorem podWrite_canonical {i dev : Nat} {xs : List (Nat × Nat)} {bs : List Byte} (hs : MemoryCanonical s) :
    MemoryCanonical (s.podWrite i dev xs bs) := by
  induction xs generalizing s i dev bs with
  | nil =>
    rw [State.podWrite]
    exact hs
  | cons x r ih =>
    rw [State.podWrite]
    exact ih (ite_canonical (exchWrite_canonical hs) (linkPost_canonical hs))

theorem podLand_canonical {dev bar n : Nat} (hs : MemoryCanonical s) : MemoryCanonical (s.podLand dev bar n) := by
  unfold State.podLand
  extract_lets
  exact ite_canonical (physBar_canonical hs) (linkPost_canonical hs)

theorem podError_canonical {dev bar code : Nat} (hs : MemoryCanonical s) : MemoryCanonical (s.podError dev bar code) := by
  unfold State.podError
  extract_lets
  exact ite_canonical (physBar_canonical hs) (linkPost_canonical hs)

theorem shardDrop_canonical {i : Nat} (hs : MemoryCanonical s) : MemoryCanonical (s.shardDrop i) := by
  unfold State.shardDrop
  extract_lets _ s1
  have hs1 : MemoryCanonical s1 := hs.other rfl rfl
  exact foldl_canonical (fun _ _ hst => ite_canonical (post_canonical hst) hst) hs1

theorem replica_canonical {ctx : Nat} {m : List Byte} {xs : List Nat} (hs : MemoryCanonical s) :
    MemoryCanonical (s.replica ctx m xs).1 := by
  induction xs generalizing s ctx m with
  | nil =>
    rw [State.replica]
    exact hs
  | cons x r ih =>
    rw [State.replica]
    split
    · exact ih hs
    split
    have hs3 := (unitRead_canonical hs).of_eq ‹_›
    split
    · exact hs3
    split
    exact (ih hs3).of_eq ‹_›

theorem errorPath_canonical {i : Nat} {d : Descriptor} {h : List Byte} {code : Nat} (hs : MemoryCanonical s) :
    MemoryCanonical (s.errorPath i d h code) := by
  unfold State.errorPath
  split
  have hs3 := (optRead_canonical hs).of_eq ‹_›
  extract_lets _ _ s1
  have hs1 : MemoryCanonical s1 := foldl_canonical (fun _ _ hst => podLand_canonical (podError_canonical hst)) hs3
  exact endRound_canonical (shardDrop_canonical hs1)

theorem broadcast_canonical {s9 : State} {i : Nat} {d : Descriptor} {h : List Byte} {stage : Nat} (hs9 : MemoryCanonical s9) :
    MemoryCanonical (s9.broadcast i d h stage) := by
  unfold State.broadcast
  split
  have hs3 := (optRead_canonical hs9).of_eq ‹_›
  extract_lets _ _ _ _ _ s0 s1
  have hs0 : MemoryCanonical s0 := shardDrop_canonical hs3
  have hs1 : MemoryCanonical s1 := ite_canonical (podLand_canonical hs0) hs0
  split
  · exact hs3
  split
  · exact errorPath_canonical hs3
  split
  · split
    · exact setOpt_canonical hs3
    split
    have hs2 := (replica_canonical hs3).of_eq ‹_›
    split
    · exact errorPath_canonical hs2
    · exact setOpt_canonical (podWrite_canonical hs2)
  · split
    · exact endRound_canonical hs1
    split
    have hs2 := (unitRead_canonical hs1).of_eq ‹_›
    split
    rename_i s2 _ heq
    have hs2 : MemoryCanonical s2 := by
      refine MemoryCanonical.of_eq ?_ heq
      split
      · exact hs2
      split
      exact (freeBytes_canonical hs2).of_eq_snd ‹_›
    exact setOpt_canonical (podWrite_canonical hs2)

theorem execEvExchangeBroadcast_canonical {i : Nat} (hs : MemoryCanonical s) : OutCanonical (execEvExchangeBroadcast i s) := by
  unfold execEvExchangeBroadcast
  split
  have hs1 := (readDescriptor_canonical hs).of_eq ‹_›
  split
  have hs2 := (header_canonical hs1).of_eq ‹_›
  split
  · exact outCanonical_next hs
  split
  · exact outCanonical_next hs
  split
  · exact outCanonical_next (ite_canonical (setShard_canonical hs2) hs)
  split
  · exact outCanonical_next (broadcast_canonical hs2)
  · exact outCanonical_next hs

theorem execEvExchangeErrorPath_canonical {i : Nat} (hs : MemoryCanonical s) : OutCanonical (execEvExchangeErrorPath i s) := by
  unfold execEvExchangeErrorPath
  split
  have hs1 := (readDescriptor_canonical hs).of_eq ‹_›
  split
  have hs2 := (header_canonical hs1).of_eq ‹_›
  split
  · exact outCanonical_next hs
  split
  · exact outCanonical_next (errorPath_canonical hs2)
  split
  · exact outCanonical_next (ite_canonical (errorPath_canonical hs2) hs)
  · exact outCanonical_next hs

end Sys2Proof.Machine
end

