-- ==== Sys2Proof/Proofs/CanonicalPlacement.lean ====
section
/-! Landings, replies to faults, placement, pre-emption and the end of a team keep the canonical form. -/

namespace Sys2Proof.Machine

open Sys2Proof

variable {s : State}

theorem land_canonical {d : Load} {now : List LoadLane} {t : Team} (ht : t.Canonical) : (d.land now t).Canonical := by
  unfold Load.land
  extract_lets
  split
  · split
    · exact ht
    · split <;> exact ht
  · exact Team.modGroup_canonical ht

theorem execEvLoadLanding_canonical {k : Nat} {lanes : LaneMask} (hs : MemoryCanonical s) :
    OutCanonical (execEvLoadLanding k lanes s) := by
  unfold execEvLoadLanding
  split
  · exact outCanonical_next hs
  split
  · exact outCanonical_next hs
  extract_lets _ _ s1
  have hs1 : MemoryCanonical s1 := modTeam_canonical hs (fun _ ht => Team.feed_canonical (land_canonical ht))
  exact outCanonical_next (hs1.other rfl rfl)

theorem execEvSleepExpiry_canonical {team grp lane : Nat} (hs : MemoryCanonical s) : OutCanonical (execEvSleepExpiry team grp lane s) := by
  unfold execEvSleepExpiry
  split
  · exact outCanonical_next hs
  split
  · exact outCanonical_next hs
  split
  · split
    · exact outCanonical_next hs
    split
    · exact outCanonical_next (modTeam_canonical hs (fun _ ht => Team.queue_canonical ht))
    split
    · exact outCanonical_next (modGroup_canonical (modThread_canonical hs))
    · exact outCanonical_next hs
  · exact outCanonical_next (ite_canonical (modTeam_canonical hs (fun _ ht => Team.queue_canonical ht)) hs)

theorem noteLanded_canonical {c : Copy} (hs : MemoryCanonical s) : MemoryCanonical (s.noteLanded c) := hs.other rfl rfl

theorem partEnd_canonical {k : Nat} {c : Copy} {n : Nat} {left : Option Copy} (hs : MemoryCanonical s) :
    MemoryCanonical (s.partEnd k c n left) := by
  unfold State.partEnd
  extract_lets _ s1 s2
  have hs1 : MemoryCanonical s1 := by
    dsimp only [s1]
    split <;> exact hs.other rfl rfl
  have hs2 : MemoryCanonical s2 := barAgent_canonical hs1
  exact workLanded_canonical (ite_canonical hs2 (unpinBarrier_canonical hs2))

theorem partBad_canonical {k : Nat} {c : Copy} {cause : BitVec 8} (hs : MemoryCanonical s) : MemoryCanonical (s.partBad k c cause) := by
  unfold State.partBad
  extract_lets s1
  have hs1 : MemoryCanonical s1 := barAgent_canonical hs
  exact partEnd_canonical hs1

theorem partGood_canonical {k n : Nat} {c : Copy} (hs : MemoryCanonical s) : MemoryCanonical (s.partGood k n c) := by
  unfold State.partGood
  extract_lets _ _ s' s0 s1
  have hs' : MemoryCanonical s' := foldl_canonical (fun _ _ hst => spoilDest_canonical hst) (taintSources_canonical hs)
  have hs0 : MemoryCanonical s0 := modPool_canonical hs' (fun _ hp => TeamPool.scrStore_canonical hp)
  have hs1 : MemoryCanonical s1 := noteLanded_canonical (wakeScratch_canonical (engSpoil_canonical hs0))
  split
  · exact partEnd_canonical hs1
  split
  · exact partBad_canonical ((ite_canonical_fst hs (copyWrite_canonical hs)).of_eq ‹_›)
  · exact partEnd_canonical (noteLanded_canonical ((ite_canonical_fst hs (copyWrite_canonical hs)).of_eq ‹_›))

theorem linkPart_canonical {c : Copy} {d : List Byte} (hs : MemoryCanonical s) : MemoryCanonical (s.linkPart c d).1 := by
  unfold State.linkPart
  split
  exact (foldl_canonical_fst (fun _ _ hst => freeRange_canonical hst) hs).of_eq ‹_›

theorem execEvAcpPartLanding_canonical {k n : Nat} (hs : MemoryCanonical s) : OutCanonical (execEvAcpPartLanding k n s) := by
  unfold execEvAcpPartLanding
  split
  · exact outCanonical_next hs
  split
  · exact outCanonical_next hs
  split
  · exact outCanonical_next (partBad_canonical hs)
  split
  · exact outCanonical_next (partGood_canonical hs)
  split
  · exact outCanonical_next hs
  split
  · exact outCanonical_next hs
  extract_lets s1
  have hs1 : MemoryCanonical s1 := hs.other rfl rfl
  split
  · exact outCanonical_next (partBad_canonical hs1)
  split
  exact outCanonical_next (partGood_canonical ((ite_canonical_fst (linkPart_canonical hs1) hs1).of_eq ‹_›))

theorem sliceFill_canonical {ctx va : Nat} (hs : MemoryCanonical s) : MemoryCanonical (s.sliceFill ctx va) := by
  unfold State.sliceFill
  extract_lets
  split
  have hs1 := (translate_canonical hs).of_eq ‹_›
  split
  · extract_lets
    exact ite_canonical (homeRead_canonical hs1) hs1
  · exact hs1

theorem execEvSliceAccess_canonical {r : SliceReq} (hs : MemoryCanonical s) : OutCanonical (execEvSliceAccess r s) := by
  unfold execEvSliceAccess
  refine outCanonical_next ?_
  split
  · exact ite_canonical hs (l2EvictAll_canonical hs)
  · exact ite_canonical hs (dirEvict_canonical hs)
  · exact sliceFill_canonical hs
  · split
    · have hs1 := (translate_canonical hs).of_eq ‹_›
      exact ite_canonical hs1 (combineLine_canonical hs1)
    · exact (translate_canonical hs).of_eq ‹_›
  · exact modStack_canonical hs

theorem execEvL1Eviction_canonical {core asid va : Nat} (hs : MemoryCanonical s) : OutCanonical (execEvL1Eviction core asid va s) := by
  unfold execEvL1Eviction
  extract_lets s1
  have hs1 : MemoryCanonical s1 := l1Write_canonical hs
  exact outCanonical_next (sendUpdates_canonical hs1)

theorem execEvAlbFill_canonical {core ctx va : Nat} (hs : MemoryCanonical s) : OutCanonical (execEvAlbFill core ctx va s) :=
  outCanonical_next (albLookup_canonical hs)

theorem execEvPageWalk_canonical {ctx va : Nat} (hs : MemoryCanonical s) : OutCanonical (execEvPageWalk ctx va s) :=
  outCanonical_next (translate_canonical hs)

theorem recordWrite_canonical {ctx n va : Nat} {b : List Byte} (hs : MemoryCanonical s) :
    MemoryCanonical (s.recordWrite ctx n va b).1 := by
  unfold State.recordWrite
  split
  · exact ite_canonical_fst hs (hs.other rfl rfl)
  split
  have hs1 := (ite_canonical_fst (translate_canonical hs) hs).of_eq ‹_›
  split
  · exact ite_canonical_fst (forward_canonical (homeWrite_canonical hs1)) (linkPost_canonical hs1)
  · exact hs1

theorem execEvFaultRecordWrite_canonical {ctx : Nat} (hs : MemoryCanonical s) : OutCanonical (execEvFaultRecordWrite ctx s) := by
  unfold execEvFaultRecordWrite
  split
  · exact outCanonical_next hs
  split
  · exact outCanonical_next hs
  extract_lets
  split
  · exact outCanonical_next hs
  split
  have hs1 := (recordWrite_canonical hs).of_eq ‹_›
  exact outCanonical_next (ite_canonical (hol_canonical (modCtx_canonical hs1)) hs1)

theorem consume_canonical {ctx consumed : Nat} (hs : MemoryCanonical s) : MemoryCanonical (s.consume ctx consumed) := modCtx_canonical hs

theorem answered_canonical {tm g : Nat} {ls : List Nat} (hs : MemoryCanonical s) : MemoryCanonical (s.answered tm g ls) :=
  ite_canonical (rewriteRecord_canonical hs) (modGroup_canonical hs)

theorem reply_canonical {ctx src seq consumed : Nat} {f : State → Nat → Nat → List Nat → State} (hs : MemoryCanonical s)
    (hf : ∀ st x y xs, MemoryCanonical st → MemoryCanonical (f st x y xs)) :
    MemoryCanonical (s.reply ctx src seq consumed f) := by
  unfold State.reply
  extract_lets s1 _
  have hs1 : MemoryCanonical s1 := consume_canonical hs
  split
  · exact hs1
  refine foldl_canonical ?_ hs1
  intro st x hst
  extract_lets s2
  have hs2 : MemoryCanonical s2 := signal_canonical (answered_canonical (hf _ _ _ _ hst))
  exact ite_canonical (modTeam_canonical hs2 (fun _ ht => Team.queue_canonical ht)) hs2

theorem execEvFaultReplyResume_canonical {ctx src seq consumed : Nat} (hs : MemoryCanonical s) :
    OutCanonical (execEvFaultReplyResume ctx src seq consumed s) :=
  outCanonical_next (reply_canonical hs (fun _ _ _ _ hst => modGroup_canonical hst))

theorem exitLanes_canonical {tm g : Nat} {ls : List Nat} (hs : MemoryCanonical s) : MemoryCanonical (s.exitLanes tm g ls) :=
  modGroup_canonical hs

theorem execEvFaultReplyExit_canonical {ctx src seq consumed : Nat} (hs : MemoryCanonical s) :
    OutCanonical (execEvFaultReplyExit ctx src seq consumed s) :=
  outCanonical_next (reply_canonical hs (fun _ _ _ _ hst => exitLanes_canonical hst))

theorem deliver_canonical {tm g : Nat} {ls : List Nat} (hs : MemoryCanonical s) : MemoryCanonical (s.deliver tm g ls) := by
  unfold State.deliver
  split
  · exact hs
  extract_lets _ _ _ _ _ _ _ s1 _
  have hs1 : MemoryCanonical s1 := modGroup_canonical (exitLanes_canonical hs)
  exact ite_canonical hs1 (parkLanes_canonical hs1)

theorem execEvFaultReplyDeliver_canonical {ctx src seq consumed : Nat} (hs : MemoryCanonical s) :
    OutCanonical (execEvFaultReplyDeliver ctx src seq consumed s) :=
  outCanonical_next (reply_canonical hs (fun _ _ _ _ hst => deliver_canonical hst))

theorem execEvFaultReplyAck_canonical {ctx consumed : Nat} (hs : MemoryCanonical s) :
    OutCanonical (execEvFaultReplyAck ctx consumed s) := outCanonical_next (consume_canonical hs)

theorem execEvContextCreate_canonical {ctx asid fqBase fqCap saveBase saveSize : Nat} (hs : MemoryCanonical s) :
    OutCanonical (execEvContextCreate ctx asid fqBase fqCap saveBase saveSize s) := by
  unfold execEvContextCreate
  extract_lets
  exact outCanonical_next (ite_canonical hs (hs.other rfl rfl))

theorem execEvQueueCreate_canonical {ctx id depth : Nat} (hs : MemoryCanonical s) : OutCanonical (execEvQueueCreate ctx id depth s) := by
  unfold execEvQueueCreate
  extract_lets
  exact outCanonical_next (ite_canonical hs (hs.other rfl rfl))

theorem execEvQueueDestroy_canonical {id : Nat} (hs : MemoryCanonical s) : OutCanonical (execEvQueueDestroy id s) :=
  outCanonical_next (ite_canonical (hs.other rfl rfl) hs)

theorem execEvHolLaunch_canonical {ctx : Nat} {packet args : List Byte} (hs : MemoryCanonical s) :
    OutCanonical (execEvHolLaunch ctx packet args s) :=
  outCanonical_next (ite_canonical hs (ite_canonical (hol_canonical hs) (takeLaunches_canonical hs)))

theorem execEvInputQueuePop_canonical {handle : Nat} (hs : MemoryCanonical s) : OutCanonical (execEvInputQueuePop handle s) := by
  unfold execEvInputQueuePop
  split
  · exact outCanonical_next hs
  split
  · exact outCanonical_next hs
  split
  · exact outCanonical_next hs
  split
  · exact outCanonical_next hs
  · exact outCanonical_next (signal_canonical (modLaunch_canonical (queueWake_canonical (setQueue_canonical hs))))

theorem saveAlloc_canonical {ctx n a : Nat} {s' : State} (hs : MemoryCanonical s) (h : s.saveAlloc ctx n = some (s', a)) :
    MemoryCanonical s' := by
  unfold State.saveAlloc at h
  split at h
  · nomatch h
  · obtain ⟨o, _, ho⟩ := Option.map_eq_some_iff.mp h
    exact (modCtx_canonical hs).of_eq ho

theorem saveFree_canonical {ctx addr : Nat} (hs : MemoryCanonical s) : MemoryCanonical (s.saveFree ctx addr) := modCtx_canonical hs

theorem postSavePool_canonical {ctx handle team core : Nat} (hs : MemoryCanonical s) :
    MemoryCanonical (s.postSavePool ctx handle team core) := post_canonical hs

theorem execEvPriorityAgeing_canonical {team : Nat} (hs : MemoryCanonical s) : OutCanonical (execEvPriorityAgeing team s) :=
  outCanonical_next (modTeam_canonical hs (fun _ ht => ht))

theorem clearSlot_canonical {cores : List Nat} {slot : Nat} (hs : MemoryCanonical s) : MemoryCanonical (s.clearSlot cores slot) := by
  unfold State.clearSlot
  split
  · exact hs
  extract_lets
  refine modTeam_canonical (foldl_canonical (fun _ _ hst => modCore_canonical hst) hs) ?_
  intro t1 ht
  split <;> exact ht

theorem compactCores_canonical {cs : List Nat} (hs : MemoryCanonical s) : MemoryCanonical (s.compactCores cs) :=
  ite_canonical (foldl_canonical (fun _ _ hst => modCore_canonical (drainCore_canonical hst)) hs) hs

theorem placeCompact_canonical {a : Ask1} {c : Option Nat} {s' : State} (hs : MemoryCanonical s) (h : s.placeCompact a = some (s', c)) :
    MemoryCanonical s' := by
  unfold State.placeCompact at h
  split at h
  · have hmap {cs : List Nat} := mapChanged_canonical (cs := cs) (compactCores_canonical (cs := cs) hs)
    exact hmap.of_eq (Option.some.inj h)
  · nomatch h

theorem setFused_canonical {core : Nat} {on : Bool} (hs : MemoryCanonical s) : MemoryCanonical (s.setFused core on) :=
  foldl_canonical (fun _ _ hst => modCore_canonical (drainCore_canonical hst)) hs

theorem grantBanks_canonical {a : Ask1} {base slot : Nat} (hs : MemoryCanonical s) : MemoryCanonical (s.grantBanks a base slot) := by
  unfold State.grantBanks
  extract_lets s0 s1
  have hs0 : MemoryCanonical s0 := clearSlot_canonical hs
  have hs1 : MemoryCanonical s1 := ite_canonical (setFused_canonical hs0) hs0
  refine foldl_canonical ?_ hs1
  intro st x hst
  extract_lets t1
  have ht1 : MemoryCanonical t1 := foldl_canonical (fun _ _ hst1 => drainCore_canonical hst1) hst
  split
  · exact modCore_canonical ht1
  · exact ht1

theorem freeBanks_canonical {tm : Nat} {gone : Team → Team} (hs : MemoryCanonical s) (hgone : ∀ t, t.Canonical → (gone t).Canonical) :
    MemoryCanonical (s.freeBanks tm gone) := by
  unfold State.freeBanks
  extract_lets _ _ _ s1 s2 s3
  have hs1 : MemoryCanonical s1 := modTeam_canonical (modCores_canonical hs) (fun _ ht => hgone _ ht)
  have hs2 : MemoryCanonical s2 := foldl_canonical (fun _ _ hst => fitStore_canonical hst) hs1
  have hs3 : MemoryCanonical s3 := by
    dsimp only [s3]
    split
    · exact ite_canonical (setFused_canonical hs2) hs2
    · exact hs2
  exact mapChanged_canonical hs3

theorem without_canonical {tm : Nat} (hs : MemoryCanonical s) : MemoryCanonical (s.without tm) := by
  unfold State.without
  extract_lets _ _ s0 s1 s2
  have hs0 : MemoryCanonical s0 := ite_canonical (foldl_canonical (fun _ _ hst => modCore_canonical hst) hs) hs
  have hs1 : MemoryCanonical s1 := modTeam_canonical (modCores_canonical hs0) (fun _ ht => ht)
  have hs2 : MemoryCanonical s2 := foldl_canonical (fun _ _ hst => fitStore_canonical hst) hs1
  exact modCores_canonical hs2

theorem placeFresh_canonical {l : Launch} {core : Nat} {s' : State} (hs : MemoryCanonical s) (h : s.placeFresh l core = some s') :
    MemoryCanonical s' := by
  unfold State.placeFresh at h
  split at h
  · nomatch h
  next s1 spill heq =>
  have hs1 : MemoryCanonical s1 := saveAlloc_canonical hs heq
  extract_lets _ s2 _ t s3 at h
  have hs2 : MemoryCanonical s2 := grantBanks_canonical hs1
  have ht : t.Canonical := Team.start_canonical (kind := .team) (l := l) (index := l.placed) (sys := false)
  clear_value s2 t
  have hs3 : MemoryCanonical s3 := by
    dsimp only [s3]
    split
    · exact modTeam_canonical hs2 fun _ _ => ht
    · exact hs2.appendTeams (List.forall_mem_singleton.mpr ht) rfl rfl
  obtain rfl := Option.some.inj h
  exact mapChanged_canonical (signal_canonical (modLaunch_canonical hs3))

theorem placeRefused_canonical {l : Launch} (hs : MemoryCanonical s) : MemoryCanonical (s.placeRefused l) :=
  ite_canonical hs (modLaunch_canonical (postSavePool_canonical hs))

theorem preempt_canonical {vs : List Nat} (hs : MemoryCanonical s) : MemoryCanonical (s.preempt vs) :=
  foldl_canonical (fun _ _ hst => beginSave_canonical hst) hs

/-- The state that a move of the launch unit brings, if it brings one, is canonical. -/

def Move.Canonical : Move → Prop
  | .place s _ => MemoryCanonical s
  | .compacted s => MemoryCanonical s
  | _ => True

def Choice.Canonical : Choice → Prop
  | .fresh s _ _ => MemoryCanonical s
  | .back s _ _ => MemoryCanonical s
  | .compacted s => MemoryCanonical s
  | _ => True

theorem moveFor_canonical {a : Ask1} {q : Nat} (hs : MemoryCanonical s) : (s.moveFor a q).Canonical := by
  unfold State.moveFor
  split
  · exact hs
  split
  · exact placeCompact_canonical hs ‹_›
  · exact placeCompact_canonical hs ‹_›
  split
  · trivial
  split
  · split <;> trivial
  · trivial

theorem choose_canonical {q : Nat} (hs : MemoryCanonical s) : (s.choose q).Canonical := by
  induction q with
  | zero => trivial
  | succ q ih =>
    unfold State.choose
    split
    · exact ih
    split
    next l _ =>
      have hmove := moveFor_canonical (a := l.asks) (q := q) hs
      revert hmove
      cases s.moveFor l.asks q with
      | place s1 c =>
        intro hs1
        dsimp only
        split
        · exact hs1
        · split
          · exact ih
          · trivial
      | compacted s1 => exact id
      | none => exact fun _ => ih
      | _ => exact fun _ => trivial
    next tm t _ =>
      have hmove := moveFor_canonical (a := t.asks) (q := q) hs
      revert hmove
      cases s.moveFor t.asks q with
      | place s1 c => exact id
      | compacted s1 => exact id
      | none => exact fun _ => ih
      | _ => exact fun _ => trivial

theorem execEvPlaceTeam_canonical (hs : MemoryCanonical s) : OutCanonical (execEvPlaceTeam s) := by
  have hc : (s.choose 8).Canonical := choose_canonical hs
  refine outCanonical_next ?_
  revert hc
  cases s.choose 8 with
  | fresh s1 l c =>
    intro hs1
    change MemoryCanonical ((s1.placeFresh l c).getD s)
    cases hp : s1.placeFresh l c with
    | none => exact hs
    | some s2 => exact placeFresh_canonical hs1 hp
  | refuse l => exact fun _ => placeRefused_canonical hs
  | save vs => exact fun _ => preempt_canonical hs
  | compacted s1 => exact id
  | none => exact fun _ => hs
  | back s1 tm c => exact fun _ => hs

theorem endTokens_canonical {tm : Nat} (hs : MemoryCanonical s) : MemoryCanonical (s.endTokens tm) := by
  unfold State.endTokens
  extract_lets _ s0 s1
  have hs0 : MemoryCanonical s0 := ite_canonical hs (releaseHolder_canonical hs)
  have hs1 : MemoryCanonical s1 := foldl_canonical (fun _ _ hst => freeToken_canonical (drainToken_canonical hst)) hs0
  exact hs1.other rfl rfl

theorem dropHeld_canonical {tm : Nat} (hs : MemoryCanonical s) : MemoryCanonical (s.dropHeld tm) := by
  unfold State.dropHeld
  extract_lets _ s1
  have hs1 : MemoryCanonical s1 := hs.other rfl rfl
  exact foldl_canonical (fun _ _ hst => unpinBarrier_canonical hst) hs1

theorem watchdogPost_canonical {ctx : Nat} (hs : MemoryCanonical s) : MemoryCanonical (s.watchdogPost ctx) :=
  ite_canonical hs (post_canonical hs)

theorem execEvTeamEnd_canonical {team : Nat} (hs : MemoryCanonical s) : OutCanonical (execEvTeamEnd team s) := by
  unfold execEvTeamEnd
  extract_lets _ s1 s2 s3 s4
  have hs1 : MemoryCanonical s1 := dropHeld_canonical (endTokens_canonical hs)
  have hs2 : MemoryCanonical s2 := freeBanks_canonical hs1 (fun _ ht => ht)
  have hs3 : MemoryCanonical s3 := hs2.other rfl rfl
  have hs4 : MemoryCanonical s4 := signal_canonical (modLaunch_canonical (saveFree_canonical hs3))
  split
  · split
    · exact outCanonical_next hs
    split
    · exact outCanonical_next (queueLeave_canonical hs)
    · exact outCanonical_next (ite_canonical (watchdogPost_canonical hs4) hs4)
  · exact outCanonical_next hs

theorem completeRelease_canonical {l : Launch} (hs : MemoryCanonical s) : MemoryCanonical (s.completeRelease l) := by
  unfold State.completeRelease
  extract_lets _ s1 s2 s3
  have hs1 : MemoryCanonical s1 := by
    dsimp only [s1]
    refine foldl_canonical ?_ hs
    intro st x hst
    split
    · split
      · exact foldl_canonical (fun _ _ hst1 => foldl_canonical (fun _ _ hst2 => releaseWo_canonical hst2) hst1) hst
      · exact hst
    · exact hst
  have hs2 : MemoryCanonical s2 := promote_canonical hs1
  have hs3 : MemoryCanonical s3 := foldl_canonical (fun _ _ hst => ite_canonical (sendUpdates_canonical hst) hst) hs2
  exact foldl_canonical (fun _ _ hst => fredsDue_canonical hst) hs3

theorem execEvLaunchComplete_canonical {handle : Nat} (hs : MemoryCanonical s) : OutCanonical (execEvLaunchComplete handle s) := by
  unfold execEvLaunchComplete
  split
  · exact outCanonical_next hs
  split
  · exact outCanonical_next hs
  extract_lets s1 out s2 old s3
  have hs1 : MemoryCanonical s1 := completeRelease_canonical hs
  have hs2 : MemoryCanonical s2 := by
    dsimp only [s2]
    clear_value out
    split
    · exact signal_canonical (queuePush_canonical hs1)
    · exact hs1
  have hs3 : MemoryCanonical s3 := by
    dsimp only [s3]
    refine hs2.mapTeams ?_ rfl rfl
    intro t ht
    dsimp only [old]
    split <;> exact ht
  split
  · exact outCanonical_next hs1
  split
  · exact outCanonical_next hs1
  · exact outCanonical_next (ite_canonical (hol_canonical hs3) hs3)

theorem execEvCoreReenable_canonical {core : Nat} (hs : MemoryCanonical s) : OutCanonical (execEvCoreReenable core s) :=
  outCanonical_next (modCore_canonical hs)

theorem execEvOccupancyRead_canonical {core : Nat} (hs : MemoryCanonical s) : OutCanonical (execEvOccupancyRead core s) :=
  outCanonical_next (ite_canonical (hol_canonical hs) hs)

end Sys2Proof.Machine
end

