-- ==== Sys2Proof/Proofs/CanonicalSaves.lean ====
section
/-! Saves, restores, bring-up and the messages of the host keep the canonical form. -/

namespace Sys2Proof.Machine

open Sys2Proof

variable {s : State}

theorem execEvWaitSwapTimeout_canonical {team : Nat} (hs : MemoryCanonical s) : OutCanonical (execEvWaitSwapTimeout team s) := by
  unfold execEvWaitSwapTimeout
  extract_lets
  exact outCanonical_next (ite_canonical (beginSave_canonical hs) hs)

theorem abortAll_canonical {tm : Nat} (hs : MemoryCanonical s) : MemoryCanonical (s.abortAll tm) := by
  unfold State.abortAll
  extract_lets
  exact foldl_canonical (fun _ _ hst => modGroup_canonical (foldl_canonical (fun _ _ hst1 => abortLane_canonical hst1) hst)) hs

theorem withdraw_canonical {tm : Nat} (hs : MemoryCanonical s) : MemoryCanonical (s.withdraw tm) := by
  unfold State.withdraw
  extract_lets _ _ _ s1
  have hs1 : MemoryCanonical s1 := hs.other rfl rfl
  exact dropMarks_canonical hs1

theorem saveCaches_canonical {tm : Nat} (hs : MemoryCanonical s) : MemoryCanonical (s.saveCaches tm) := by
  unfold State.saveCaches
  extract_lets _ _ s1
  have hs1 : MemoryCanonical s1 := foldl_canonical (fun _ _ hst => drainToken_canonical hst) hs
  exact foldl_canonical (fun _ _ hst => l1Write_canonical hst) hs1

theorem savePlane_canonical {tm : Nat} (hs : MemoryCanonical s) : MemoryCanonical (s.savePlane tm) := by
  unfold State.savePlane
  extract_lets
  exact unitWrite_canonical hs

theorem readOr_canonical {xs : List (Nat × LinkState)} (hs : MemoryCanonical s) : MemoryCanonical (s.readOr xs).1 := by
  induction xs generalizing s with
  | nil => exact hs
  | cons x r ih =>
    obtain ⟨n, x⟩ := x
    cases x with
    | answered b => exact ih hs
    | _ => exact ih (freeBytes_canonical hs)

theorem restorePlane_canonical {tm : Nat} {xs : List LinkState} (hs : MemoryCanonical s) : MemoryCanonical (s.restorePlane tm xs) := by
  unfold State.restorePlane
  extract_lets
  split
  exact ite_canonical hs (modPool_canonical ((readOr_canonical hs).of_eq ‹_›) (fun _ hp => hp))

theorem failLine_canonical {ctx va : Nat} (hs : MemoryCanonical s) : MemoryCanonical (s.failLine ctx va) := by
  unfold State.failLine
  split
  · have hs1 := (translate_canonical hs).of_eq ‹_›
    extract_lets _ s2 _
    have hs2 : MemoryCanonical s2 := homeLine_canonical hs1
    split
    · split
      · exact setMem_canonical hs2 rfl
      · exact hs2
    · exact hs1.other rfl rfl
  · exact (translate_canonical hs).of_eq ‹_›

theorem Team.markRegs_canonical {t : Team} {o : Nat} (ht : t.Canonical) : (t.markRegs o).Canonical := by
  unfold Team.markRegs
  extract_lets
  exact ht

theorem Team.damaged_canonical {t : Team} {lost : List Nat} (ht : t.Canonical) : (t.damaged lost).Canonical := by
  unfold Team.damaged
  extract_lets
  exact ht

theorem Team.savedNow_canonical {t : Team} {clock : Nat} (ht : t.Canonical) : (t.savedNow clock).Canonical := by
  unfold Team.savedNow
  split
  exact ht

theorem Team.resumed_canonical {t : Team} {clock : Nat} (ht : t.Canonical) : (t.resumed clock).Canonical := by
  unfold Team.resumed
  split <;> exact ht

theorem execEvTeamSave_canonical {team : Nat} (hs : MemoryCanonical s) : OutCanonical (execEvTeamSave team s) := by
  unfold execEvTeamSave
  extract_lets t0 watchdog s1 t
  split
  · exact outCanonical_next hs
  split
  · exact outCanonical_next (queueLeave_canonical hs)
  have hs1 : MemoryCanonical s1 := saveCaches_canonical (withdraw_canonical (abortAll_canonical hs))
  clear_value s1 t
  split
  next eng s2 heq =>
  have hs2 := (freeBytes_canonical hs1).of_eq_snd heq
  extract_lets b s3
  clear_value b
  refine outCanonical_next ?_
  split
  · have hs3 : MemoryCanonical s3 :=
      takeNext_canonical (modTeam_canonical (postSavePool_canonical (dropRequests_canonical hs2)) fun _ ht => Team.resumed_canonical ht)
    exact ite_canonical (watchdogPost_canonical hs3) hs3
  next s3 addr heq3 =>
  have hs3 : MemoryCanonical s3 := saveAlloc_canonical hs2 heq3
  refine ite_canonical hs ?_
  extract_lets s4 s5
  have hs4 : MemoryCanonical s4 := savePlane_canonical (foldl_canonical (fun _ _ h => failLine_canonical h) (unitWrite_canonical hs3))
  clear_value s4
  have hs5 : MemoryCanonical s5 := freeBanks_canonical hs4 fun t ht => Team.savedNow_canonical (t := t) (clock := s1.clock) ht
  exact ite_canonical (watchdogPost_canonical hs5) hs5

theorem performArrivals_canonical {tm : Nat} (hs : MemoryCanonical s) : MemoryCanonical (s.performArrivals tm) := by
  unfold State.performArrivals
  extract_lets s1
  have hs1 : MemoryCanonical s1 := foldl_canonical (fun _ _ hst => agentScratch_canonical hst) hs
  exact modTeam_canonical hs1 (fun _ ht => ht)

theorem freeMem_canonical {m : Mem} {n first len : Nat} (hm : memWfFrom 0 m = true) : memWfFrom 0 (freeMem m n first len) = true :=
  memWrite_wf (Nat.zero_le _) hm

theorem Team.scrambled_canonical {t : Team} {n : Nat} : (t.scrambled n).Canonical := by
  unfold Team.scrambled
  extract_lets _ both
  have hboth (half per k : Nat) : memWfFrom 0 (both half per k) = true := by
    have hlow := freeMem_canonical (n := n + k) (first := 0) (len := 8192 * per) (m := []) rfl
    dsimp only [both]
    split
    · exact freeMem_canonical hlow
    · exact hlow
  exact ⟨hboth .., hboth ..⟩

theorem Team.back_canonical {t : Team} {core slot clock tick tswap prio : Nat} (ht : t.Canonical) :
    (t.back core slot clock tick tswap prio).Canonical := ht

theorem woFrames_canonical {tm : Nat} (hs : MemoryCanonical s) : MemoryCanonical (s.woFrames tm) := by
  unfold State.woFrames
  extract_lets
  exact ite_canonical hs (modTeam_canonical hs (fun _ ht => ht))

theorem fetchSaved_canonical {tm : Nat} (hs : MemoryCanonical s) : MemoryCanonical (s.fetchSaved tm).1 := by
  unfold State.fetchSaved
  extract_lets
  split
  · exact hs
  split
  have hs2 := (unitLines_canonical hs).of_eq ‹_›
  split
  exact (unitLines_canonical hs2).of_eq ‹_›

theorem recall_canonical {tm : Nat} {xs : List LinkState} (hs : MemoryCanonical s) : MemoryCanonical (s.recall tm xs) := by
  unfold State.recall
  extract_lets _ _ _ _ _ _ s1 _ s2
  have hs1 : MemoryCanonical s1 := ite_canonical hs ((modTeam_canonical hs (fun _ _ => Team.scrambled_canonical)).other rfl rfl)
  have hs2 : MemoryCanonical s2 := hs1.other rfl rfl
  exact ite_canonical hs2 (modTeam_canonical hs2 (fun _ ht => Team.damaged_canonical ht))

theorem execEvTeamRestore_canonical {team : Nat} (hs : MemoryCanonical s) : OutCanonical (execEvTeamRestore team s) := by
  have hc : (s.choose 8).Canonical := choose_canonical hs
  unfold execEvTeamRestore
  split
  next s1 tm core heq =>
    rw [heq] at hc
    split
    · exact outCanonical_next hs
    split
    · exact outCanonical_next (fetchSaved_canonical hs)
    extract_lets
    split
    have hs2 := (fetchSaved_canonical hc).of_eq ‹_›
    extract_lets s3 _ s4 _ s5 s6 s7
    have hs3 : MemoryCanonical s3 := recall_canonical hs2
    have hs4 : MemoryCanonical s4 := saveFree_canonical (grantBanks_canonical hs3)
    have hs5 : MemoryCanonical s5 := modTeam_canonical hs4 fun _ ht => Team.back_canonical ht
    have hs6 : MemoryCanonical s6 := foldl_canonical (fun _ _ hst => acquireDev_canonical hst) hs5
    have hs7 : MemoryCanonical s7 := performArrivals_canonical (woFrames_canonical (restorePlane_canonical hs6))
    exact outCanonical_next (mapChanged_canonical (signal_canonical (releaseAll_canonical hs7)))
  · exact outCanonical_next (preempt_canonical hs)
  · exact outCanonical_next hs

theorem noteWatchdogs_canonical (hs : MemoryCanonical s) : MemoryCanonical s.noteWatchdogs := hs.other rfl rfl

theorem execEvWatchdogExpiry_canonical {ctx : Nat} (hs : MemoryCanonical s) : OutCanonical (execEvWatchdogExpiry ctx s) := by
  unfold execEvWatchdogExpiry
  split
  · exact outCanonical_next hs
  split
  · exact outCanonical_next hs
  extract_lets _ s1
  have hs1 : MemoryCanonical s1 := foldl_canonical (fun _ _ hst => ite_canonical (beginSave_canonical hst) hst) hs
  exact outCanonical_next (modCtx_canonical hs1)

theorem Team.continue_canonical {t : Team} (ht : t.Canonical) : t.continue.Canonical := by
  unfold Team.continue
  split <;> exact ht

theorem unqueueLeave_canonical {tm : Nat} (hs : MemoryCanonical s) : MemoryCanonical (s.unqueueLeave tm) := by
  unfold State.unqueueLeave
  extract_lets
  exact ite_canonical hs (takeNext_canonical (modCores_canonical hs))

theorem execEvContinue_canonical {ctx : Nat} (hs : MemoryCanonical s) : OutCanonical (execEvContinue ctx s) := by
  unfold execEvContinue
  refine outCanonical_next ?_
  split
  · exact hs
  extract_lets _ s1
  have hs1 : MemoryCanonical s1 := by
    dsimp only [s1]
    refine foldl_canonical (fun _ _ hst => unqueueLeave_canonical hst) (hs.mapTeams ?_ rfl rfl)
    intro t ht
    split
    · exact Team.continue_canonical ht
    · exact ht
  exact signal_canonical (modCtx_canonical hs1)

theorem dropMigration_canonical {c : Cmd} (hs : MemoryCanonical s) : MemoryCanonical (s.dropMigration c) := by
  unfold State.dropMigration
  split
  · exact hs
  split
  have hs1 := (migPage_canonical hs).of_eq ‹_›
  split
  · exact leafWrite_canonical hs1
  · exact hs1

theorem killTeam_canonical {tm : Nat} (hs : MemoryCanonical s) : MemoryCanonical (s.killTeam tm) := by
  unfold State.killTeam
  extract_lets _ _ _ _ _ _ s1 s1b s1c s2 gone s3 s4 _ _
  have hs1 : MemoryCanonical s1 := foldl_canonical (fun _ _ hst => unpinBarrier_canonical hst) (unpinAll_canonical hs)
  have hs1b : MemoryCanonical s1b := foldl_canonical (fun _ _ hst => dropMigration_canonical hst) hs1
  have hs1c : MemoryCanonical s1c := dropMarks_canonical hs1b
  have hs2 : MemoryCanonical s2 := modCores_canonical (endTokens_canonical hs1c)
  have hs3 : MemoryCanonical s3 := by
    dsimp only [s3]
    split
    · refine modTeam_canonical hs2 ?_
      intro t1 ht
      dsimp only [gone]
      exact Team.stopAll_canonical ht
    · refine freeBanks_canonical hs2 ?_
      intro t1 ht
      dsimp only [gone]
      exact Team.stopAll_canonical ht
  have hs4 : MemoryCanonical s4 := by
    dsimp only [s4]
    split
    · exact saveFree_canonical hs3
    · exact saveFree_canonical (saveFree_canonical hs3)
    · exact hs3
  exact hs4.other rfl rfl

theorem execEvKill_canonical {ctx : Nat} (hs : MemoryCanonical s) : OutCanonical (execEvKill ctx s) := by
  unfold execEvKill
  split
  · exact outCanonical_next hs
  extract_lets s1 s2
  have hs1 : MemoryCanonical s1 := by
    dsimp only [s1]
    exact foldl_canonical (fun _ _ hst => ite_canonical (killTeam_canonical hst) hst) hs
  have hs2 : MemoryCanonical s2 := hs1.other rfl rfl
  exact outCanonical_next (signal_canonical (modCtx_canonical hs2))

theorem modBoot_canonical {f : Boot → Boot} (hs : MemoryCanonical s) : MemoryCanonical (s.modBoot f) := hs.other rfl rfl

theorem execEvImageWrite_canonical {kind : Nat} {image : List Byte} (hs : MemoryCanonical s) :
    OutCanonical (execEvImageWrite kind image s) := outCanonical_next (ite_canonical (modBoot_canonical hs) hs)

theorem execEvImageCheck_canonical (hs : MemoryCanonical s) : OutCanonical (execEvImageCheck s) := by
  unfold execEvImageCheck
  extract_lets
  split
  · exact outCanonical_next hs
  · exact outCanonical_next (modBoot_canonical hs)

theorem execEvStackMapWrite_canonical {granule : Nat} {entry : BitVec 16} (hs : MemoryCanonical s) :
    OutCanonical (execEvStackMapWrite granule entry s) := by
  unfold execEvStackMapWrite
  extract_lets
  exact outCanonical_next (ite_canonical (setMem_canonical hs rfl) hs)

theorem Team.ofFirmware_canonical {im : List Byte} {stack : Nat} : (Team.ofFirmware im stack).Canonical :=
  Team.start_canonical (kind := .firmware) (l := firmwareLaunch im) (index := 0) (sys := true)

theorem execEvFirmwareStart_canonical (hs : MemoryCanonical s) : OutCanonical (execEvFirmwareStart s) := by
  unfold execEvFirmwareStart
  split
  · exact outCanonical_next hs
  next im _ =>
  split
  · exact outCanonical_next hs
  extract_lets s1 s2
  have hs1 : MemoryCanonical s1 := hs.other rfl rfl
  have hs2 : MemoryCanonical s2 := by
    refine hs1.appendTeams (fun t ht => ?_) rfl rfl
    obtain ⟨i, _, rfl⟩ := List.mem_map.mp ht
    exact Team.ofFirmware_canonical (im := im) (stack := i)
  exact outCanonical_next (modBoot_canonical hs2)

theorem Team.endOn_canonical {out : List Nat} {t : Team} (ht : t.Canonical) : (Team.endOn out t).Canonical := by
  unfold Team.endOn
  split
  · split
    · extract_lets
      exact Team.stopAll_canonical ht
    · exact ht
  · exact ht

theorem execEvBootTrainingTimeout_canonical (hs : MemoryCanonical s) : OutCanonical (execEvBootTrainingTimeout s) := by
  unfold execEvBootTrainingTimeout
  split
  · exact outCanonical_next hs
  extract_lets _ s1 s2
  have hs1 : MemoryCanonical s1 := hs.other rfl rfl
  have hs2 : MemoryCanonical s2 := hs1.mapTeams (fun _ ht => Team.endOn_canonical ht) rfl rfl
  exact outCanonical_next (modBoot_canonical hs2)

theorem execEvTrainstRead_canonical {stack ch : Nat} (hs : MemoryCanonical s) : OutCanonical (execEvTrainstRead stack ch s) :=
  outCanonical_next (ite_canonical (hol_canonical hs) hs)

theorem execEvBootReady_canonical (hs : MemoryCanonical s) : OutCanonical (execEvBootReady s) :=
  outCanonical_next (ite_canonical (hol_canonical (modBoot_canonical hs)) hs)

theorem afterReset_canonical : MemoryCanonical s.afterReset := ⟨rfl, fun _ h => nomatch h⟩

theorem execEvDeviceReset_canonical : OutCanonical (execEvDeviceReset s) := outCanonical_next afterReset_canonical

theorem execEvAttestationRequest_canonical {nonce : List Byte} (hs : MemoryCanonical s) :
    OutCanonical (execEvAttestationRequest nonce s) := outCanonical_next (ite_canonical (hol_canonical hs) hs)

theorem execEvIdentityRead_canonical (hs : MemoryCanonical s) : OutCanonical (execEvIdentityRead s) := by
  unfold execEvIdentityRead
  extract_lets
  exact outCanonical_next (ite_canonical (hol_canonical hs) hs)

theorem execEvSecurityCounterRaise_canonical {version : Nat} (hs : MemoryCanonical s) :
    OutCanonical (execEvSecurityCounterRaise version s) := by
  unfold execEvSecurityCounterRaise
  extract_lets
  exact outCanonical_next (ite_canonical (modBoot_canonical hs) hs)

theorem modPlat_canonical {f : Platform → Platform} (hs : MemoryCanonical s) : MemoryCanonical (s.modPlat f) := hs.other rfl rfl

theorem execEvHolUnknownMessage_canonical (hs : MemoryCanonical s) : OutCanonical (execEvHolUnknownMessage s) :=
  outCanonical_next (ite_canonical (modPlat_canonical hs) hs)

theorem execEvHolLinkDown_canonical (hs : MemoryCanonical s) : OutCanonical (execEvHolLinkDown s) :=
  outCanonical_next (modPlat_canonical hs)

theorem execEvHolLinkUp_canonical (hs : MemoryCanonical s) : OutCanonical (execEvHolLinkUp s) := outCanonical_next (hs.other rfl rfl)

theorem execEvHolBadCrc_canonical (hs : MemoryCanonical s) : OutCanonical (execEvHolBadCrc s) := outCanonical_next hs

theorem execEvPowerSample_canonical {part : Nat} {high : Bool} (hs : MemoryCanonical s) :
    OutCanonical (execEvPowerSample part high s) := outCanonical_next (ite_canonical (modPlat_canonical hs) hs)

theorem execEvThermalThrottle_canonical (hs : MemoryCanonical s) : OutCanonical (execEvThermalThrottle s) :=
  outCanonical_next (modPlat_canonical hs)

theorem execEvThermalTrip_canonical : OutCanonical (execEvThermalTrip s) := by
  unfold execEvThermalTrip
  extract_lets s1 s2
  have hs2 : MemoryCanonical s2 := afterReset_canonical
  exact outCanonical_next (hs2.other rfl rfl)

end Sys2Proof.Machine
end

