-- ==== Sys2Proof/Proofs/CanonicalStep.lean ====
section
/-! Every instruction and event keeps the canonical form, and so does a step. -/

namespace Sys2Proof.Machine

open Sys2Proof

variable {s : State}

theorem exec_canonical {i : Instr} (hs : MemoryCanonical s) : OutCanonical (exec i s) := by
  cases i
  all_goals delta exec
  case evLoadLanding => exact execEvLoadLanding_canonical hs
  case evSleepExpiry => exact execEvSleepExpiry_canonical hs
  case evAcpPartLanding => exact execEvAcpPartLanding_canonical hs
  case evSliceAccess => exact execEvSliceAccess_canonical hs
  case evL1Eviction => exact execEvL1Eviction_canonical hs
  case evAlbFill => exact execEvAlbFill_canonical hs
  case evPageWalk => exact execEvPageWalk_canonical hs
  case evFaultRecordWrite => exact execEvFaultRecordWrite_canonical hs
  case evFaultReplyResume => exact execEvFaultReplyResume_canonical hs
  case evFaultReplyDeliver => exact execEvFaultReplyDeliver_canonical hs
  case evFaultReplyExit => exact execEvFaultReplyExit_canonical hs
  case evFaultReplyAck => exact execEvFaultReplyAck_canonical hs
  case evHolLaunch => exact execEvHolLaunch_canonical hs
  case evInputQueuePop => exact execEvInputQueuePop_canonical hs
  case evPlaceTeam => exact execEvPlaceTeam_canonical hs
  case evTeamEnd => exact execEvTeamEnd_canonical hs
  case evLaunchComplete => exact execEvLaunchComplete_canonical hs
  case evWaitSwapTimeout => exact execEvWaitSwapTimeout_canonical hs
  case evTeamSave => exact execEvTeamSave_canonical hs
  case evPriorityAgeing => exact execEvPriorityAgeing_canonical hs
  case evTeamRestore => exact execEvTeamRestore_canonical hs
  case evWatchdogExpiry => exact execEvWatchdogExpiry_canonical hs
  case evContinue => exact execEvContinue_canonical hs
  case evKill => exact execEvKill_canonical hs
  case evBankDrain => exact execEvBankDrain_canonical hs
  case evBankRelocation => exact execEvBankRelocation_canonical hs
  case evShrinkQuiesce => exact execEvShrinkQuiesce_canonical hs
  case evPoolCommit => exact execEvPoolCommit_canonical hs
  case evTlatchPerform => exact execEvTlatchPerform_canonical hs
  case evMmaComplete => exact execEvMmaComplete_canonical hs
  case evMseqStep => exact execEvMseqStep_canonical hs
  case evCpyExecution => exact execEvCpyExecution_canonical hs
  case evBinExecution => exact execEvBinExecution_canonical hs
  case evMigrationPage => exact execEvMigrationPage_canonical hs
  case evCallStart => exact execEvCallStart_canonical hs
  case evCallCompletion => exact execEvCallCompletion_canonical hs
  case evCallBudgetExpiry => exact execEvCallBudgetExpiry_canonical hs
  case evChannelComputeResume => exact execEvChannelComputeResume_canonical hs
  case evWalkRecord => exact execEvWalkRecord_canonical hs
  case evFredInMemory => exact execEvFredInMemory_canonical hs
  case evLinkReadRequest => exact execEvLinkReadRequest_canonical hs
  case evLinkWriteRequest => exact execEvLinkWriteRequest_canonical hs
  case evLinkAtomicRequest => exact execEvLinkAtomicRequest_canonical hs
  case evLinkRefusedRequest => exact execEvLinkRefusedRequest_canonical hs
  case evLinkCompletion => exact execEvLinkCompletion_canonical hs
  case evReductionPacket => exact execEvReductionPacket_canonical hs
  case evExchangeClose => exact execEvExchangeClose_canonical hs
  case evExchangeOptimise => exact execEvExchangeOptimise_canonical hs
  case evExchangeBroadcast => exact execEvExchangeBroadcast_canonical hs
  case evExchangeErrorPath => exact execEvExchangeErrorPath_canonical hs
  case evDescriptorValidate => exact execEvDescriptorValidate_canonical hs
  case evExchangeTableBase => exact execEvExchangeTableBase_canonical hs
  case evDeviceReset => exact execEvDeviceReset_canonical
  case evImageWrite => exact execEvImageWrite_canonical hs
  case evImageCheck => exact execEvImageCheck_canonical hs
  case evStackMapWrite => exact execEvStackMapWrite_canonical hs
  case evLivenessWrite => exact execEvLivenessWrite_canonical hs
  case evFirmwareStart => exact execEvFirmwareStart_canonical hs
  case evBootTrainingTimeout => exact execEvBootTrainingTimeout_canonical hs
  case evTrainstRead => exact execEvTrainstRead_canonical hs
  case evBootReady => exact execEvBootReady_canonical hs
  case evPatctlWrite => exact execEvPatctlWrite_canonical hs
  case evPatternTestDone => exact execEvPatternTestDone_canonical hs
  case evRxdlyWrite => exact execEvRxdlyWrite_canonical hs
  case evTxdlyWrite => exact execEvTxdlyWrite_canonical hs
  case evLanemapWrite => exact execEvLanemapWrite_canonical hs
  case evTrainstWrite => exact execEvTrainstWrite_canonical hs
  case evLgcfgWrite => exact execEvLgcfgWrite_canonical hs
  case evLaneTurnaroundDone => exact execEvLaneTurnaroundDone_canonical hs
  case evCounterClear => exact execEvCounterClear_canonical hs
  case evCapctlWrite => exact execEvCapctlWrite_canonical hs
  case evEvptrWrite => exact execEvEvptrWrite_canonical hs
  case evRegisterWrite => exact execEvRegisterWrite_canonical hs
  case evCaptureWindowEnd => exact execEvCaptureWindowEnd_canonical hs
  case evDramAlert => exact execEvDramAlert_canonical hs
  case evRefreshInterval => exact execEvRefreshInterval_canonical hs
  case evRegionFillDone => exact execEvRegionFillDone_canonical hs
  case evHostRead => exact execEvHostRead_canonical hs
  case evHostWrite => exact execEvHostWrite_canonical hs
  case evReadData => exact execEvReadData_canonical hs
  case evWriteAck => exact execEvWriteAck_canonical hs
  case evHolUnknownMessage => exact execEvHolUnknownMessage_canonical hs
  case evHolLinkDown => exact execEvHolLinkDown_canonical hs
  case evHolLinkUp => exact execEvHolLinkUp_canonical hs
  case evContextCreate => exact execEvContextCreate_canonical hs
  case evQueueCreate => exact execEvQueueCreate_canonical hs
  case evQueueDestroy => exact execEvQueueDestroy_canonical hs
  case evAttestationRequest => exact execEvAttestationRequest_canonical hs
  case evIdentityRead => exact execEvIdentityRead_canonical hs
  case evSecurityCounterRaise => exact execEvSecurityCounterRaise_canonical hs
  case evOccupancyRead => exact execEvOccupancyRead_canonical hs
  case evPowerSample => exact execEvPowerSample_canonical hs
  case evThermalThrottle => exact execEvThermalThrottle_canonical hs
  case evThermalTrip => exact execEvThermalTrip_canonical
  case evHolBadCrc => exact execEvHolBadCrc_canonical hs
  case evCoreReenable => exact execEvCoreReenable_canonical hs
  case ill => exact issueIllegal_canonical hs
  case nop | sel | mget | exit | winq | tagq | rdy | rngr | rngw | lui | auipc | madwN32 | ballot | active | elect | scanadd | lmasklt | bz |
      bnz | jal | jr | cmov | cnarrow | cperm | cget | ctag | cmint | tabort | tstat | poolStat | yield | trap | brk =>
    exact issue_canonical (fun _ _ hst => perLane_canonical hst) hs
  case mov | addi | andi | ori | xori | slli | srli | srai | roli | ceqi | cnei | cltiI32 | cleiI32 | cgtiI32 | cltiN32 | cleiN32 | cgtiN32 |
      bfx | bfxs | clz | ctz | popc | brev | bswap | sext8 | sext16 | abs | neg | not =>
    exact alu1_canonical hs
  case mset => exact execMset_canonical hs
  case wbase => exact execWbase_canonical hs
  case clock | ewait | estat | qfree | sleep | rdsr => exact issue_canonical (fun _ _ hst => hst) hs
  case fxclr | meet => exact issue_canonical (fun _ _ hst => onLanes_canonical hst) hs
  case gcw => exact execGcw_canonical hs
  case add | sub | mul | mulhI32 | mulhN32 | and | or | xor | andn | orn | sll | srl | sra | rol | minI32 | maxI32 | minN32 | maxN32 |
      addsI32 | subsI32 | divI32 | divN32 | remI32 | remN32 | ceq | cne | cltI32 | cleI32 | cltN32 | cleN32 | bfi =>
    exact alu_canonical hs
  case add64 | sub64 | mul64 | mulwI32 | mulwN32 | addwI32 | addwN32 | sll64 | srl64 | sra64 | ceq64 | clt64I64 | clt64N64 | min64N64 |
      max64N64 =>
    exact alu64_canonical hs
  case vany | vall | rfl | radd | rminI32 | rmaxI32 | rmaxN32 => exact reduce_canonical hs
  case shfl | shflu | shfld | shflx => exact shuffle_canonical hs
  case cclr => exact execCclr_canonical hs
  case faddD | fsubD | fmulD | fdivD | faddS | fsubS | fmulS | fdivS | faddH | fsubH | fmulH | fdivH | faddB | fsubB | fmulB | fdivB |
      fpackH2 | fpackB2 =>
    exact float2_canonical hs
  case fmacD | fmscD | fnmacD | fnmscD | fmacS | fmscS | fnmacS | fnmscS | fmacH | fmscH | fnmacH | fnmscH | fmacB | fmscB | fnmacB | fnmscB |
      fpackE4m3 | fpackE5m2 | fqntDpt8 | fqntSpt4 =>
    exact float3_canonical hs
  case fminD | fmaxD | fminnumD | fmaxnumD | fcpsgnD | fceqD | fcltD | fcleD | fcunD | fscalbD | fminS | fmaxS | fminnumS | fmaxnumS |
      fcpsgnS | fceqS | fcltS | fcleS | fcunS | fscalbS | fminH | fmaxH | fminnumH | fmaxnumH | fcpsgnH | fceqH | fcltH | fcleH | fcunH |
      fscalbH | fminB | fmaxB | fminnumB | fmaxnumB | fcpsgnB | fceqB | fcltB | fcleB | fcunB | fscalbB =>
    exact floatSel_canonical hs
  case fabsD | fnegD | fclassD | fabsS | fnegS | fclassS | fabsH | fnegH | fclassH | fabsB | fnegB | fclassB => exact floatSel1_canonical hs
  case fsqrtD | frcpD | frsqD | frintD | fsqrtS | frcpS | frsqS | frintS | fcvtSD | fcvtDS | fcvtSH | fcvtSBf | fcvtHS | fcvtBS | fcvtSE4m3 |
      fcvtSE5m2 | fcvtSDpt8 | fcvtSSpt4Low | fcvtSSpt4High | fcvtI32S | fcvtN32S | fcvtSI32 | fcvtSN32 | fcvtI32D | fcvtN32D | fcvtDI32 |
      fcvtDN32 | fcvtI64D | fcvtN64D | fcvtDI64 | fcvtDN64 | fqntScale =>
    exact float1_canonical hs
  case fexp2D | flog2D | fsinpiD | fcospiD | fexp2S | flog2S | fsinpiS | fcospiS => exact floatOp_canonical hs
  case fdotH2 | fdotB2 | fdotE4m3 | fdotE5m2 => exact dot_canonical hs
  case ld | ldi => exact loadFrom_canonical hs
  case st | sti => exact storeTo_canonical hs
  case scrLd => exact execScrLd_canonical hs
  case scrSt => exact execScrSt_canonical hs
  case acpG2s | acpS2g => exact asyncCopy_canonical hs
  case atomAdd | atomAnd | atomOr | atomXor | atomMinI32 | atomMaxI32 | atomMinN32 | atomMaxN32 | atomXchg | atomCas | atomIncw | atomDecw |
      atomFaddS | atomFminS | atomFmaxS | atomFaddH2 | atomFaddB2 | atom64Add | atom64And | atom64Or | atom64Xor | atom64MinI64 |
      atom64MaxI64 | atom64MinN64 | atom64MaxN64 | atom64Xchg | atom64Cas | atom64Incw | atom64Decw | atom64FaddD | atom64FminD |
      atom64FmaxD =>
    exact atomic_canonical hs
  case redAdd | redAnd | redOr | redXor | redMinI32 | redMaxI32 | redMinN32 | redMaxN32 | redFaddS | redFminS | redFmaxS | redFaddH2 |
      redFaddB2 | redAdd64 | redFaddD =>
    exact reduction_canonical hs
  case binit => exact execBinit_canonical hs
  case arrive => exact execArrive_canonical hs
  case arriveb | expect => exact barOp_canonical (fun _ _ _ _ _ hst => barUpdate_canonical hst) hs
  case bwait => exact execBwait_canonical hs
  case btest => exact execBtest_canonical hs
  case gsync | tsync => exact issue_canonical (fun _ _ hst => syncBody_canonical hst) hs
  case ringa => exact ringOp_canonical (fun _ _ _ _ hst => hst) hs
  case ringf | ringe => exact ringOp_canonical (fun _ _ _ _ hst => relLanes_canonical hst) hs
  case ringw => exact ringOp_canonical (fun _ _ _ _ hst => acquireTeam_canonical hst) hs
  case fenceAcq | fenceRel | fenceAr | fenceSc => exact fence_canonical hs
  case fenceAcqDevPromote => exact execFenceAcqDevPromote_canonical hs
  case tbegin => exact execTbegin_canonical hs
  case tend => exact execTend_canonical hs
  case cwb | cwbi => exact cacheOp_canonical (fun _ _ _ _ hst => l1Maintain_canonical hst) hs
  case cinv => exact execCinv_canonical hs
  case iinv => exact execIinv_canonical hs
  case fetchb => exact issue_canonical (fun _ _ hst => modGroup_canonical hst) hs
  case pref => exact cacheOp_canonical (fun _ _ _ _ hst => hst) hs
  case acqr => exact execAcqr_canonical hs
  case relr => exact execRelr_canonical hs
  case qryr => exact execQryr_canonical hs
  case givr => exact execGivr_canonical hs
  case poolGrow | poolShrink => exact poolOp_canonical hs
  case poolQuery => exact execPoolQuery_canonical hs
  case poolMap => exact execPoolMap_canonical hs
  case tshape => exact execTshape_canonical hs
  case tld => exact execTld_canonical hs
  case tldt => exact execTldt_canonical hs
  case tst => exact execTst_canonical hs
  case tzero => exact execTzero_canonical hs
  case trdr => exact execTrdr_canonical hs
  case twrr => exact execTwrr_canonical hs
  case tlatch => exact execTlatch_canonical hs
  case tlsf => exact execTlsf_canonical hs
  case mfence => exact issue_canonical (fun _ _ hst => eachLane_canonical (fun _ _ _ hst1 => fenceWrites_canonical hst1) hst) hs
  case mwait => exact execMwait_canonical hs
  case mseq => exact execMseq_canonical hs
  case mcw => exact execMcw_canonical hs
  case mcrd => exact execMcrd_canonical hs
  case tmov => exact execTmov_canonical hs
  case mmaWin | mmaSeq => exact mma_canonical hs
  case engCpy | engBin | engMig =>
    exact issue_canonical (fun _ _ hst => eachLane_canonical (fun _ _ _ hst1 => engineLane_canonical hst1) hst) hs
  case nmcall | nmwalk => exact issue_canonical (fun _ _ hst => eachLane_canonical (fun _ _ _ hst1 => callLane_canonical hst1) hst) hs
  case nmret => exact execNmret_canonical hs
  case fred => exact execFred_canonical hs
  case qpush => exact execQpush_canonical hs
  case qpop => exact execQpop_canonical hs
  case launch => exact execLaunch_canonical hs
  case lrel => exact execLrel_canonical hs
  case lpatch => exact execLpatch_canonical hs
  case waitw | waitx => exact waitWord_canonical hs
  case wrsr => exact execWrsr_canonical hs
  case tlbinv => exact issue_canonical (fun _ _ hst => eachLane_canonical (fun _ _ _ hst1 => tlbInvalidate_canonical hst1) hst) hs
  case vpurge => exact execVpurge_canonical hs
  case attrchg => exact execAttrchg_canonical hs
  case tret => exact execTret_canonical hs
  case haltc => exact execHaltc_canonical hs

theorem noteTeam_canonical {tm : Nat} {t : Team} (ht : t.Canonical) : (s.noteTeam tm t).Canonical := by
  unfold State.noteTeam
  split
  · extract_lets
    split
    · split
      · exact Team.queue_canonical ht
      · exact ht
    · exact ht
  · exact ht
  · exact ht

theorem noteWaits_canonical (hs : MemoryCanonical s) : MemoryCanonical s.noteWaits := by
  unfold State.noteWaits
  split
  · exact hs.mapIdxTeams (fun _ _ ht => noteTeam_canonical ht) rfl rfl
  · exact hs

theorem advance_canonical (hs : MemoryCanonical s) : MemoryCanonical s.advance := hs.other rfl rfl

theorem begin_canonical (hs : MemoryCanonical s) : MemoryCanonical s.begin :=
  noteWatchdogs_canonical (noteWaits_canonical (sendHost_canonical (launchesGoOn_canonical (advance_canonical hs))))

theorem perform_canonical (hs : MemoryCanonical s) : OutCanonical s.perform := by
  unfold State.perform
  split
  · exact outCanonical_fault
  split
  · exact exec_canonical hs
  · exact issueIllegal_canonical hs

theorem work_canonical (hs : MemoryCanonical s) : OutCanonical s.work := by
  unfold State.work
  split
  · exact exec_canonical (hs.other rfl rfl)
  · exact outCanonical_next (hs.other rfl rfl)

def Picked.Canonical : Picked → Prop
  | .op s => MemoryCanonical s
  | .done s => MemoryCanonical s
  | .nothing => True

theorem pick_canonical (hs : MemoryCanonical s) : s.pick.Canonical := by
  unfold State.pick
  split
  · trivial
  split
  · trivial
  split
  · trivial
  split
  have hs1 := (classWord_canonical hs).of_eq ‹_›
  extract_lets
  split
  · exact hs1.other rfl rfl
  · exact finish_canonical hs1

theorem issueNext_canonical (hs : MemoryCanonical s) : OutCanonical s.issueNext := by
  have hp : s.pick.Canonical := pick_canonical hs
  revert hp
  unfold State.issueNext
  cases s.pick with
  | op s1 => exact fun hs1 => perform_canonical (hs1.other rfl rfl)
  | done s1 => exact fun hs1 => outCanonical_next (hs1.other rfl rfl)
  | nothing => exact fun _ => work_canonical hs

theorem step_canonical (hs : MemoryCanonical s) : OutCanonical (step s) := by
  unfold step
  extract_lets s1
  have hs1 : MemoryCanonical s1 := begin_canonical hs
  split
  · split
    · exact exec_canonical (hs1.other rfl rfl)
    · exact outCanonical_next (hs1.other rfl rfl)
  · split
    · exact outCanonical_next hs1
    split
    · exact work_canonical hs1
    · exact issueNext_canonical hs1

end Sys2Proof.Machine

namespace Sys2Proof.Claims

open Sys2Proof Machine

/-- Settles O23: what a step does keeps the canonical form, operation by operation; only the writes of lines, of scratch and of tile storage change
bytes, and each of them goes through `memWrite` or `memClear`. -/
theorem memoryStaysCanonical : Obligations.MemoryStaysCanonical := fun _ _ hs h => step_canonical hs _ h

end Sys2Proof.Claims
end
